-- ==== Sys2Proof/Word.lean ====
section
/-!
DEFINITION. The word types of the machine and their plainest arithmetic (00_scope.md R4, R5: bits are numbered from
0 at the least significant end, and every multi-byte value is little-endian).
-/

namespace Sys2Proof

/-- A byte. -/
abbrev Byte := BitVec 8
/-- A 32-bit word: a slot of a bundle, or a word of a cell. -/
abbrev Word := BitVec 32
/-- A 64-bit word: a scalar register. -/
abbrev DWord := BitVec 64
/-- A bundle (R50). -/
abbrev Bundle := BitVec 256

/-- The field of `len` bits that starts at bit `lo`. -/
abbrev fld {w : Nat} (x : BitVec w) (lo len : Nat) : BitVec len := x.extractLsb' lo len

/-- Bit `i` of a word as a Bool. -/
abbrev bit {w : Nat} (x : BitVec w) (i : Nat) : Bool := x.getLsbD i

end Sys2Proof
end

