-- ==== Sys2Proof/Config.lean ====
section
/-!
DEFINITION. What the module fixes for all time, and the free values: constants without a body, on which no proof can
lean (log entry 4, DESIGN CHOICE; log entry 7, DESIGN CHOICE).
-/

namespace Sys2Proof.Config

/-- Free value: what FRCP (0), FRSQ (1), FEXP2 (2), FLOG2 (3) and FTANH (4) give for an input whose result the
tables of R146 do not state exactly. R92 bounds it and makes it a function of the input; the machine keeps it to
that bound (log entry 7, DESIGN CHOICE). -/
opaque approx (op : Nat) (input : Word) : Word

/-- Free value: ⊕ = or (3) or xor (4) over scaled terms that are not whole numbers, for which R90 states no
result (log entry 12, DESIGN CHOICE). Each value is given as a mantissa and a power of two. -/
opaque bitwise (plus : Nat) (values : List (Int × Int)) : Word

/-- Free value: the set of the LLC of its stack that holds a line (R312; log entry 67, DESIGN CHOICE). -/
opaque llcSet (line : Nat) : Nat

/-- Free value: the slice of a die's L2 that holds a line (R13, R241; log entry 67, DESIGN CHOICE). -/
opaque l2Slice (die line : Nat) : Nat

/-- Free value: the part of an image (R300) that a granule of its slot holds, from the granule's place in the 16 MiB of an array, or none; the
numbers are those of `Sys2Proof.Machine.ArrayState.dirtyParts` (log entry 21, DESIGN CHOICE). -/
opaque imagePart (granule : Nat) : Option Nat

/-- Free value: which of the benches that a task may reserve becomes free soonest, by its place among them (R279; log entry 51, DESIGN
CHOICE). -/
opaque freedFirst (n : Nat) : Nat

/-- Free value: a byte of an image in memory (R299; log entry 21, DESIGN CHOICE). -/
opaque imageByte (seed addr : Nat) : Byte

/-- Free value: the port of a route mask that the hash of a line address chooses (R321; log entry 9, DESIGN CHOICE). -/
opaque portHash (line : Nat) : Nat

/-- Free value: the hottest (0) and the coolest (1) sampled region of a stack, from the stack and the number of
swaps made (R310; log entry 9, DESIGN CHOICE). -/
opaque sampledRegion (which : Nat) (stack : Nat) (count : Nat) : Nat

/-- Free value: the module's serial number (R327; log entry 10, DESIGN CHOICE). -/
opaque serial : BitVec 64

/-- Free value: the module's certificate in flash (R327; log entry 10, DESIGN CHOICE). -/
opaque certificate : List Byte

/-- Free value: byte of the ECDSA signature over a report (R327; log entry 10, DESIGN CHOICE). -/
opaque signature (report : List Byte) (i : Nat) : Byte

/-- Free value: whether the signature, the key digest and the digest of a firmware image's header verify
(R325; log entry 10, DESIGN CHOICE). -/
opaque verifies (image : List Byte) : Bool

/-- Free value: the version that a firmware image's header holds (R325; log entry 10, DESIGN CHOICE). -/
opaque version (image : List Byte) : Nat

/-- Free value: what ATTEST takes for the running image of the hub (false) or of the supervisor (true) while boot has accepted none, of which the
specification states nothing (R327; log entry 10, DESIGN CHOICE). -/
opaque romImage (sup : Bool) : List Byte

/-- Free value: a value drawn afresh, numbered by the free-value counter of the state (log entry 4, DESIGN CHOICE). -/
opaque freeWord (n : Nat) : BitVec 64

/-- Free value: the UNIT field of a task receipt that reports no error, from its state: R163 gives UNIT as the unit that detected the
error, and R270 names none where there is no error (log entry 14, DEDUCED). -/
opaque quietUnit (state : Nat) : BitVec 16

/-- The fused rollback count (R325, R326; log entry 6, DESIGN CHOICE). -/
def rollback : BitVec 32 := 0

/-- Arrays of the module: 16 per die, 4 dies (R11). -/
def numArrays : Nat := 64

/-- The bytes of HBM of one module, 512 GB (R244). -/
def hbmBytes : Nat := 2 ^ 39

/-- The value that a byte of memory which nothing has written reads as (log entry 5, DESIGN CHOICE). -/
def powerOnByte : Byte := 0

end Sys2Proof.Config
end

