-- ==== Sys2Proof/Syntax.lean ====
section
/-!
DEFINITION. The instructions and events of the TG9-512L: one constructor of `Instr` for each row of the
operation table. The first 194 constructors are slot instructions (05_encoding.md R50 to R64): their arguments
are the fields of the row, under the row's own letters, after the guard. The other 84 are the events of the
machine (95_what_each_step_holds.md): an argument says which unit the event befalls, or what the outside world
brings with it.
-/

namespace Sys2Proof

/-- Guard of an S0, S1, S5, S6 or S7 slot (R53): sense bit N and one of q0 to q7. -/
structure QGuard where
  neg : Bool
  pred : BitVec 3
  deriving DecidableEq, Repr

/-- Guard of an S2 or S3 slot (R53): sense bit N and one of p0 to p15. -/
structure PGuard where
  neg : Bool
  pred : BitVec 4
  deriving DecidableEq, Repr

/-- The slot classes of R50. S2 and S3 are classes of their own: lane operations stand in both, tile operations in
S2 only, cell store operations and COMM in S3 only (R57). -/
inductive SlotClass where
  | control | scalar | cellA | cellB | selector | inject | drain | engine
  deriving DecidableEq, Repr

/-- What a collective receiver takes from the network for one chunk (R188 to R191): the contributions that arrive
from modules outside the model, in order of arrival, each with its data bytes and its seal words, and the
number of its non-finite flag. -/
structure Arrival where
  rank : Nat
  data : List Byte
  sealS : BitVec 64
  sealA : BitVec 64
  nonFinite : Bool
  deriving DecidableEq, Repr

/-- One chunk of 4 KiB of a collective: its number, the arrivals from outside, and the order in which ranks are
combined (R188: the order of arrival). -/
structure Chunk where
  index : Nat
  order : List Nat
  remote : List Arrival
  deriving DecidableEq, Repr

/-- The instructions and events, one constructor for each row of the operation table. -/
inductive Instr where
  -- S0, control (R61)
  /-- R52. S0 no operation. -/
  | nopControl (g : QGuard)
  /-- R105. Conditional or unconditional branch on the flag state. -/
  | br (g : QGuard) (c : BitVec 3) (o : BitVec 20)
  /-- R106. Conditional call that pushes the return address and loop depth. -/
  | call (g : QGuard) (c : BitVec 3) (o : BitVec 20)
  /-- R107. Indirect call to the address in an s register. -/
  | calli (g : QGuard) (s : BitVec 6)
  /-- R106. Return to the popped address after the loop-depth check. -/
  | ret (g : QGuard)
  /-- R107. Indirect jump to the address in an s register. -/
  | jmpi (g : QGuard) (s : BitVec 6)
  /-- R226. Opens a loop level with its count taken from an s register. -/
  | loop (g : QGuard) (s : BitVec 6) (k : BitVec 3) (r : BitVec 3) (e : BitVec 11)
  /-- R226. Opens a loop level with an immediate count. -/
  | loops (g : QGuard) (i : BitVec 8) (k : BitVec 3) (r : BitVec 3) (e : BitVec 9)
  /-- R236. Closes the innermost loop level of the current frame. -/
  | lbrk (g : QGuard)
  /-- R236. Closes the innermost level when its exit state holds ALL = 1. -/
  | lbrka (g : QGuard)
  /-- R231. Waits for the wave, then sets the rotating region sizes and clears every base. -/
  | rotcfg (g : QGuard) (x : BitVec 2) (y : BitVec 2)
  /-- R108. Sets the wave shape of later bundles. -/
  | wave (g : QGuard) (w : Bool)
  /-- R109. Sets FMT from bundle k + 4 onward, or raises FMT.INVALID. -/
  | fmtset (g : QGuard) (s : BitVec 6)
  /-- R110. Writes semiring table entry 8 to 15 from a 64-bit image. -/
  | semset (g : QGuard) (e : BitVec 4) (s : BitVec 6)
  /-- R111. Waits until the latest flag record is readable. -/
  | waitf (g : QGuard) (t : BitVec 6) (q : BitVec 3)
  /-- R112. Waits until a receipt is terminal, and joins its command. -/
  | waitr (g : QGuard) (a : BitVec 6) (t : BitVec 6) (q : BitVec 3)
  /-- R113. Waits until the earlier copy commands into a path have written their receipts. -/
  | drain (g : QGuard) (p : BitVec 2) (t : BitVec 6) (q : BitVec 3)
  /-- R259. Orders and completes accesses of the given kind at a scope. -/
  | fence (g : QGuard) (s : BitVec 3) (k : BitVec 2)
  /-- R256. Release at a scope, attached to the next synchronising write. -/
  | rel (g : QGuard) (s : BitVec 3)
  /-- R116. Acquire read of a 64-bit word at a scope. -/
  | acq (g : QGuard) (s : BitVec 3) (a : BitVec 6)
  /-- R116. Waits until an acquire read of a word returns non-zero. -/
  | acqW (g : QGuard) (s : BitVec 3) (a : BitVec 6) (t : BitVec 6) (q : BitVec 3)
  /-- R114. Barrier arrival at a scope, with release, wait and acquire. -/
  | bar (g : QGuard) (s : BitVec 3) (t : BitVec 6) (q : BitVec 3)
  /-- R117. Submits a task descriptor to a dispatcher with a release. -/
  | launch (g : QGuard) (s : BitVec 6)
  /-- R118. Releases at .die and ripens a token. -/
  | signal (g : QGuard) (s : BitVec 6)
  /-- R119. Waits for the wave and the accesses, then returns the task to the ready queue. -/
  | yield (g : QGuard)
  /-- R119. Waits for the wave and the accesses, then ends the task with a .sys release. -/
  | done (g : QGuard)
  /-- R120. Raises TRAP.USER with an 8-bit code. -/
  | trap (g : QGuard) (c : BitVec 8)
  /-- R296. Returns from a trap: restores the frame and the state, re-injects the capture and resumes at TPC. -/
  | rft (g : QGuard)
  /-- R121. Reads a system register into an s register. -/
  | sysrd (g : QGuard) (d : BitVec 6) (r : BitVec 12)
  /-- R121. Writes a system register under its fields' access codes. -/
  | syswr (g : QGuard) (s : BitVec 6) (r : BitVec 12)
  /-- R122. Opens a docket segment with its expected count and CRC. -/
  | docket (g : QGuard) (a : BitVec 6) (b : BitVec 6)
  /-- R303. Waits for the segment to leave, then compares the count and CRC and raises SDC.DOCKET on a difference. -/
  | dcheck (g : QGuard)
  /-- R123. Reads the reference tick count. -/
  | stamp (g : QGuard) (d : BitVec 6)
  /-- R123. Reads the bundle's own task bundle number. -/
  | stampS (g : QGuard) (d : BitVec 6)
  -- S1, scalar (R58, R60)
  /-- R52. S1 no operation. -/
  | nopScalar (g : QGuard)
  /-- R124. 64-bit add. -/
  | add (g : QGuard) (d : BitVec 6) (a : BitVec 6) (b : BitVec 6) (y : Bool) (x : Bool)
  /-- R124. 64-bit subtract. -/
  | sub (g : QGuard) (d : BitVec 6) (a : BitVec 6) (b : BitVec 6) (y : Bool) (x : Bool)
  /-- R124. Adds a sign-extended immediate. -/
  | addi (g : QGuard) (d : BitVec 6) (i : BitVec 16)
  /-- R124. Low 64 bits of a product. -/
  | mul (g : QGuard) (d : BitVec 6) (a : BitVec 6) (b : BitVec 6) (y : Bool) (x : Bool)
  /-- R124. High 64 bits of a signed product. -/
  | mulh (g : QGuard) (d : BitVec 6) (a : BitVec 6) (b : BitVec 6) (y : Bool) (x : Bool)
  /-- R124. High 64 bits of an unsigned product. -/
  | mulhu (g : QGuard) (d : BitVec 6) (a : BitVec 6) (b : BitVec 6) (y : Bool) (x : Bool)
  /-- R124. Signed division. -/
  | div (g : QGuard) (d : BitVec 6) (a : BitVec 6) (b : BitVec 6) (y : Bool) (x : Bool)
  /-- R124. Unsigned division. -/
  | divu (g : QGuard) (d : BitVec 6) (a : BitVec 6) (b : BitVec 6) (y : Bool) (x : Bool)
  /-- R124. Signed remainder. -/
  | rem (g : QGuard) (d : BitVec 6) (a : BitVec 6) (b : BitVec 6) (y : Bool) (x : Bool)
  /-- R124. Unsigned remainder. -/
  | remu (g : QGuard) (d : BitVec 6) (a : BitVec 6) (b : BitVec 6) (y : Bool) (x : Bool)
  /-- R124. Bitwise and. -/
  | and (g : QGuard) (d : BitVec 6) (a : BitVec 6) (b : BitVec 6) (y : Bool) (x : Bool)
  /-- R124. Bitwise or. -/
  | or (g : QGuard) (d : BitVec 6) (a : BitVec 6) (b : BitVec 6) (y : Bool) (x : Bool)
  /-- R124. Bitwise exclusive or. -/
  | xor (g : QGuard) (d : BitVec 6) (a : BitVec 6) (b : BitVec 6) (y : Bool) (x : Bool)
  /-- R124. And with a zero-extended immediate. -/
  | andi (g : QGuard) (d : BitVec 6) (i : BitVec 16)
  /-- R124. Or with a zero-extended immediate. -/
  | ori (g : QGuard) (d : BitVec 6) (i : BitVec 16)
  /-- R124. Exclusive or with a zero-extended immediate. -/
  | xori (g : QGuard) (d : BitVec 6) (i : BitVec 16)
  /-- R124. Shift left by B[5:0]. -/
  | shl (g : QGuard) (d : BitVec 6) (a : BitVec 6) (b : BitVec 6) (y : Bool) (x : Bool)
  /-- R124. Logical shift right by B[5:0]. -/
  | shr (g : QGuard) (d : BitVec 6) (a : BitVec 6) (b : BitVec 6) (y : Bool) (x : Bool)
  /-- R124. Arithmetic shift right by B[5:0]. -/
  | sra (g : QGuard) (d : BitVec 6) (a : BitVec 6) (b : BitVec 6) (y : Bool) (x : Bool)
  /-- R124. Shift left by an immediate. -/
  | shli (g : QGuard) (d : BitVec 6) (i : BitVec 6)
  /-- R124. Logical shift right by an immediate. -/
  | shri (g : QGuard) (d : BitVec 6) (i : BitVec 6)
  /-- R124. Arithmetic shift right by an immediate. -/
  | srai (g : QGuard) (d : BitVec 6) (i : BitVec 6)
  /-- R124. Signed minimum. -/
  | min (g : QGuard) (d : BitVec 6) (a : BitVec 6) (b : BitVec 6) (y : Bool) (x : Bool)
  /-- R124. Signed maximum. -/
  | max (g : QGuard) (d : BitVec 6) (a : BitVec 6) (b : BitVec 6) (y : Bool) (x : Bool)
  /-- R124. Unsigned minimum. -/
  | minu (g : QGuard) (d : BitVec 6) (a : BitVec 6) (b : BitVec 6) (y : Bool) (x : Bool)
  /-- R124. Unsigned maximum. -/
  | maxu (g : QGuard) (d : BitVec 6) (a : BitVec 6) (b : BitVec 6) (y : Bool) (x : Bool)
  /-- R101. Writes a when the guard is true and b otherwise, reading only the selected source. -/
  | selScalar (g : QGuard) (d : BitVec 6) (a : BitVec 6) (b : BitVec 6) (y : Bool) (x : Bool)
  /-- R125. Compares two s registers into a q register. -/
  | cmp (g : QGuard) (c : BitVec 3) (q : BitVec 3) (a : BitVec 6) (b : BitVec 6) (y : Bool) (x : Bool)
  /-- R125. Compares an s register with a 10-bit immediate into a q register. -/
  | cmpi (g : QGuard) (c : BitVec 3) (q : BitVec 3) (a : BitVec 6) (i : BitVec 10)
  /-- R124. Loads a sign-extended immediate. -/
  | li (g : QGuard) (d : BitVec 6) (i : BitVec 16)
  /-- R124. Shifts a register left by 16 bits and inserts an immediate. -/
  | lui (g : QGuard) (d : BitVec 6) (i : BitVec 16)
  /-- R124. Copies an s register. -/
  | movScalar (g : QGuard) (d : BitVec 6) (a : BitVec 6) (x : Bool)
  /-- R124. Counts leading zero bits. -/
  | clz (g : QGuard) (d : BitVec 6) (a : BitVec 6) (x : Bool)
  /-- R124. Counts one bits. -/
  | popc (g : QGuard) (d : BitVec 6) (a : BitVec 6) (x : Bool)
  /-- R124. Adds a plus b shifted by 0, 2, 3 or 5. -/
  | lea (g : QGuard) (d : BitVec 6) (a : BitVec 6) (b : BitVec 6) (h : BitVec 2) (y : Bool) (x : Bool)
  /-- R126. Scalar load. -/
  | ld (g : QGuard) (d : BitVec 6) (b : BitVec 6) (o : BitVec 8) (z : BitVec 2)
  /-- R126. Scalar store. -/
  | st (g : QGuard) (d : BitVec 6) (b : BitVec 6) (o : BitVec 8) (z : BitVec 2)
  /-- R126. Acquire load at ORDCTL.LSCOPE. -/
  | lda (g : QGuard) (d : BitVec 6) (b : BitVec 6) (o : BitVec 8) (z : Bool)
  /-- R126. Release store at ORDCTL.LSCOPE. -/
  | stl (g : QGuard) (d : BitVec 6) (b : BitVec 6) (o : BitVec 8) (z : Bool)
  /-- R264. Load that then discards the line from L1 and L2 without write-back. -/
  | ldlast (g : QGuard) (d : BitVec 6) (b : BitVec 6) (o : BitVec 8) (z : BitVec 2)
  /-- R126. Prefetches a line toward L1, L2 or the LLC. -/
  | pref (g : QGuard) (h : BitVec 6) (b : BitVec 6) (o : BitVec 8) (z : BitVec 2)
  /-- R127. Atomic add. -/
  | aadd (g : QGuard) (d : BitVec 6) (a : BitVec 6) (b : BitVec 6) (w : Bool) (y : Bool) (x : Bool)
  /-- R127. Atomic signed minimum. -/
  | amin (g : QGuard) (d : BitVec 6) (a : BitVec 6) (b : BitVec 6) (w : Bool) (y : Bool) (x : Bool)
  /-- R127. Atomic signed maximum. -/
  | amax (g : QGuard) (d : BitVec 6) (a : BitVec 6) (b : BitVec 6) (w : Bool) (y : Bool) (x : Bool)
  /-- R127. Atomic and. -/
  | aand (g : QGuard) (d : BitVec 6) (a : BitVec 6) (b : BitVec 6) (w : Bool) (y : Bool) (x : Bool)
  /-- R127. Atomic or. -/
  | aor (g : QGuard) (d : BitVec 6) (a : BitVec 6) (b : BitVec 6) (w : Bool) (y : Bool) (x : Bool)
  /-- R127. Atomic exclusive or. -/
  | axor (g : QGuard) (d : BitVec 6) (a : BitVec 6) (b : BitVec 6) (w : Bool) (y : Bool) (x : Bool)
  /-- R127. Atomic swap. -/
  | aswap (g : QGuard) (d : BitVec 6) (a : BitVec 6) (b : BitVec 6) (w : Bool) (y : Bool) (x : Bool)
  /-- R127. Atomic compare and swap. -/
  | acas (g : QGuard) (d : BitVec 6) (a : BitVec 6) (b : BitVec 6) (w : Bool) (y : Bool) (x : Bool)
  /-- R127. Atomic floating-point add with RNE rounding. -/
  | afadd (g : QGuard) (d : BitVec 6) (a : BitVec 6) (b : BitVec 6) (w : Bool) (y : Bool) (x : Bool)
  -- S4, selector (R63)
  /-- R37. S4 no operation: selects with msk0, enables every array, ws = 0. -/
  | nopSelector
  /-- R129. Selects with two masks and sets the wave scalar and the array-enable mask. -/
  | selSelector (r : BitVec 4) (c : BitVec 4) (s : BitVec 6) (p : BitVec 2) (a : BitVec 8)
  /-- R130. Writes a mask from an s register. -/
  | mset (r : BitVec 4) (c : BitVec 4) (s : BitVec 6) (d : BitVec 4)
  /-- R130. Writes a mask with a range of bits set. -/
  | mrange (r : BitVec 4) (c : BitVec 4) (l : BitVec 5) (h : BitVec 5) (d : BitVec 4)
  /-- R130. Mask logic operation. -/
  | mop (r : BitVec 4) (c : BitVec 4) (a : BitVec 4) (b : BitVec 4) (o : BitVec 4) (d : BitVec 4)
  /-- R130. Writes a mask from the flag state. -/
  | mflag (r : BitVec 4) (c : BitVec 4) (k : BitVec 2) (d : BitVec 4)
  /-- R131. Sends tsa or tsb values to the selected cells. -/
  | tscale (r : BitVec 4) (c : BitVec 4) (s : BitVec 6) (t : BitVec 2)
  -- S2 and S3, lane instructions (R56, R57, R134)
  /-- R52. Cell slot no operation. -/
  | nopCell (g : PGuard)
  /-- R139. 32-bit integer add. -/
  | iadd (g : PGuard) (d : BitVec 6) (a : BitVec 6) (b : BitVec 6)
  /-- R139. 32-bit integer subtract. -/
  | isub (g : PGuard) (d : BitVec 6) (a : BitVec 6) (b : BitVec 6)
  /-- R139. 32-bit integer multiply. -/
  | imul (g : PGuard) (d : BitVec 6) (a : BitVec 6) (b : BitVec 6)
  /-- R139. High word of a signed or unsigned product. -/
  | imulh (g : PGuard) (d : BitVec 6) (a : BitVec 6) (b : BitVec 6) (u : Bool)
  /-- R139. Bitwise and. -/
  | iand (g : PGuard) (d : BitVec 6) (a : BitVec 6) (b : BitVec 6)
  /-- R139. Bitwise or. -/
  | ior (g : PGuard) (d : BitVec 6) (a : BitVec 6) (b : BitVec 6)
  /-- R139. Bitwise exclusive or. -/
  | ixor (g : PGuard) (d : BitVec 6) (a : BitVec 6) (b : BitVec 6)
  /-- R139. Shift left. -/
  | ishl (g : PGuard) (d : BitVec 6) (a : BitVec 6) (b : BitVec 6)
  /-- R139. Logical shift right. -/
  | ishr (g : PGuard) (d : BitVec 6) (a : BitVec 6) (b : BitVec 6)
  /-- R139. Arithmetic shift right. -/
  | isra (g : PGuard) (d : BitVec 6) (a : BitVec 6) (b : BitVec 6)
  /-- R139. Signed or unsigned minimum. -/
  | imin (g : PGuard) (d : BitVec 6) (a : BitVec 6) (b : BitVec 6) (u : Bool)
  /-- R139. Signed or unsigned maximum. -/
  | imax (g : PGuard) (d : BitVec 6) (a : BitVec 6) (b : BitVec 6) (u : Bool)
  /-- R142. Integer compare into a predicate. -/
  | icmp (g : PGuard) (p : BitVec 4) (a : BitVec 6) (b : BitVec 6) (c : BitVec 3)
  /-- R140. Selects a or b by the guard. -/
  | isel (g : PGuard) (d : BitVec 6) (a : BitVec 6) (b : BitVec 6)
  /-- R141. Adds a 15-bit immediate to d. -/
  | iaddi (g : PGuard) (d : BitVec 6) (i : BitVec 15)
  /-- R141. Loads a sign-extended 15-bit immediate. -/
  | movi (g : PGuard) (d : BitVec 6) (i : BitVec 15)
  /-- R141. Shifts d left 15 bits and inserts an immediate. -/
  | movhi (g : PGuard) (d : BitVec 6) (i : BitVec 15)
  /-- R139. Copies a cell word. -/
  | movCell (g : PGuard) (d : BitVec 6) (a : BitVec 6)
  /-- R144. FP32 add. -/
  | fadd (g : PGuard) (d : BitVec 6) (a : BitVec 6) (b : BitVec 6)
  /-- R144. FP32 subtract. -/
  | fsub (g : PGuard) (d : BitVec 6) (a : BitVec 6) (b : BitVec 6)
  /-- R144. FP32 multiply. -/
  | fmul (g : PGuard) (d : BitVec 6) (a : BitVec 6) (b : BitVec 6)
  /-- R144. FP32 fused multiply-add into d. -/
  | ffma (g : PGuard) (d : BitVec 6) (a : BitVec 6) (b : BitVec 6)
  /-- R144. FP32 minimum. -/
  | fmin (g : PGuard) (d : BitVec 6) (a : BitVec 6) (b : BitVec 6)
  /-- R144. FP32 maximum. -/
  | fmax (g : PGuard) (d : BitVec 6) (a : BitVec 6) (b : BitVec 6)
  /-- R145. FP32 compare into a predicate. -/
  | fcmp (g : PGuard) (p : BitVec 4) (a : BitVec 6) (b : BitVec 6) (c : BitVec 3)
  /-- R144. FP32 absolute value. -/
  | fabs (g : PGuard) (d : BitVec 6) (a : BitVec 6)
  /-- R144. FP32 negation. -/
  | fneg (g : PGuard) (d : BitVec 6) (a : BitVec 6)
  /-- R146. Reciprocal. -/
  | frcp (g : PGuard) (d : BitVec 6) (a : BitVec 6)
  /-- R146. Reciprocal square root. -/
  | frsq (g : PGuard) (d : BitVec 6) (a : BitVec 6)
  /-- R146. Base-2 exponential. -/
  | fexp2 (g : PGuard) (d : BitVec 6) (a : BitVec 6)
  /-- R146. Base-2 logarithm. -/
  | flog2 (g : PGuard) (d : BitVec 6) (a : BitVec 6)
  /-- R146. Hyperbolic tangent. -/
  | ftanh (g : PGuard) (d : BitVec 6) (a : BitVec 6)
  /-- R147. Format conversion selected by mod. -/
  | fcvt (g : PGuard) (d : BitVec 6) (a : BitVec 6) (b : BitVec 6) (m : BitVec 3)
  /-- R148. Rounds to an integral FP32 value. -/
  | frnd (g : PGuard) (d : BitVec 6) (a : BitVec 6) (m : BitVec 3)
  /-- R150. Adds a BF16 product into an FP32 value. -/
  | bfma (g : PGuard) (d : BitVec 6) (a : BitVec 6) (b : BitVec 6) (m : BitVec 2)
  /-- R149. Packed BF16 add. -/
  | hadd2 (g : PGuard) (d : BitVec 6) (a : BitVec 6) (b : BitVec 6)
  /-- R149. Packed BF16 multiply. -/
  | hmul2 (g : PGuard) (d : BitVec 6) (a : BitVec 6) (b : BitVec 6)
  /-- R149. Packed BF16 fused multiply-add. -/
  | hfma2 (g : PGuard) (d : BitVec 6) (a : BitVec 6) (b : BitVec 6)
  /-- R151. Sets the validity bit of d. -/
  | vset (g : PGuard) (d : BitVec 6)
  /-- R151. Clears the validity bit of d. -/
  | vclr (g : PGuard) (d : BitVec 6)
  /-- R151. Tests validity bits into a predicate. -/
  | vtest (g : PGuard) (p : BitVec 4) (a : BitVec 6) (b : BitVec 6) (c : BitVec 2)
  /-- R151. Selects a if valid, else b. -/
  | vsel (g : PGuard) (d : BitVec 6) (a : BitVec 6) (b : BitVec 6)
  /-- R151. Copies a word together with its validity. -/
  | vmov (g : PGuard) (d : BitVec 6) (a : BitVec 6)
  /-- R152. Predicate and. -/
  | pand (g : PGuard) (p : BitVec 4) (q : BitVec 4) (r : BitVec 4)
  /-- R152. Predicate or. -/
  | por (g : PGuard) (p : BitVec 4) (q : BitVec 4) (r : BitVec 4)
  /-- R152. Predicate exclusive or. -/
  | pxor (g : PGuard) (p : BitVec 4) (q : BitVec 4) (r : BitVec 4)
  /-- R152. Predicate not. -/
  | pnot (g : PGuard) (p : BitVec 4) (q : BitVec 4)
  /-- R152. Predicate copy. -/
  | pmov (g : PGuard) (p : BitVec 4) (q : BitVec 4)
  /-- R157. Writes one Philox output word. -/
  | rand (g : PGuard) (d : BitVec 6) (a : BitVec 6) (w : BitVec 2)
  /-- R158. Clears the cell's loop-active bit of the innermost open level. -/
  | lexit (g : PGuard)
  -- S3 only: cell store and communication (R57)
  /-- R153. Loads a cell store word. -/
  | ldc (g : PGuard) (d : BitVec 6) (b : BitVec 6) (o : BitVec 9)
  /-- R153. Stores a valid word to the cell store. -/
  | stc (g : PGuard) (d : BitVec 6) (b : BitVec 6) (o : BitVec 9)
  /-- R153. Loads a cell store pair. -/
  | ldc2 (g : PGuard) (d : BitVec 6) (b : BitVec 6) (o : BitVec 9)
  /-- R153. Stores the valid words of a pair. -/
  | stc2 (g : PGuard) (d : BitVec 6) (b : BitVec 6) (o : BitVec 9)
  /-- R153. Loads a cell store word indexed by lidx. -/
  | ldca (g : PGuard) (d : BitVec 6) (b : BitVec 6) (o : BitVec 9)
  /-- R153. Stores a cell store word indexed by lidx. -/
  | stca (g : PGuard) (d : BitVec 6) (b : BitVec 6) (o : BitVec 9)
  /-- R155. Moves a 64-bit pair, with optional swap or duplication. -/
  | comm (g : PGuard) (d : BitVec 6) (a : BitVec 6) (m : BitVec 2)
  -- S2 only: tile instructions (R57, R207)
  /-- R211. Semiring rank-k fragment product into an accumulator. -/
  | smm (g : PGuard) (c : BitVec 2) (e : BitVec 4) (a : BitVec 6) (b : BitVec 6) (z : Bool)
  /-- R212. Scaled semiring product with block and tensor scales. -/
  | smms (g : PGuard) (c : BitVec 2) (e : BitVec 4) (a : BitVec 6) (b : BitVec 6) (z : Bool)
  /-- R214. Writes an entry's ZERO to an accumulator. -/
  | smz (g : PGuard) (c : BitVec 2) (e : BitVec 4)
  /-- R215. Combines two accumulators under the entry's plus operator. -/
  | smadd (g : PGuard) (c : BitVec 2) (e : BitVec 4) (k : BitVec 2)
  /-- R219. Copies two accumulator elements to a pair. -/
  | smrd (g : PGuard) (d : BitVec 6) (c : BitVec 2) (e : BitVec 3)
  /-- R220. Writes a pair into two accumulator elements. -/
  | smwr (g : PGuard) (a : BitVec 6) (c : BitVec 2) (e : BitVec 3)
  /-- R221. Writes part of an accumulator into ch or cv, pushing at an edge. -/
  | smout (g : PGuard) (c : BitVec 2) (e : BitVec 4) (b : Bool) (f : Bool)
  /-- R217. Compares two accumulators into a predicate. -/
  | smcmp (g : PGuard) (c : BitVec 2) (e : BitVec 4) (k : BitVec 2) (p : BitVec 4) (m : BitVec 2)
  /-- R218. Keeps the N most significant elements of a 32-group. -/
  | scmpr (g : PGuard) (d : BitVec 6) (a : BitVec 6) (c : Bool) (e : BitVec 4)
  /-- R218. Keeps the more significant element of each pair of a 32-group. -/
  | scmprPair (g : PGuard) (d : BitVec 6) (c : Bool) (e : BitVec 4)
  /-- R213. Sparse semiring product with selection bits. -/
  | sexpn (g : PGuard) (c : BitVec 2) (e : BitVec 4) (a : BitVec 6) (b : BitVec 4) (z : Bool)
  /-- R222. Packs an accumulator tile into a fragment. -/
  | bpack (g : PGuard) (d : BitVec 6) (c : BitVec 2) (e : BitVec 4) (s : Bool) (j : BitVec 2)
  /-- R223. Widens a fragment into accumulator elements. -/
  | bunpk (g : PGuard) (a : BitVec 6) (c : BitVec 2) (s : Bool) (j : BitVec 2)
  /-- R216. Reduces an accumulator by row, by column or whole. -/
  | smred (g : PGuard) (c : BitVec 2) (e : BitVec 4) (k : BitVec 2) (m : BitVec 3)
  -- S5, inject face (R64, R173)
  /-- R52. S5 no operation. -/
  | nopInject (g : QGuard)
  /-- R173. Clears an inject face and sets its SRC. -/
  | ficfg (g : QGuard) (s : BitVec 6) (f : Bool)
  /-- R173. Moves a queue bank to the running or next pattern. -/
  | figo (g : QGuard) (f : Bool) (b : Bool)
  /-- R173. Discards the running and next inject patterns. -/
  | fihalt (g : QGuard) (f : Bool)
  /-- R174. Sets the padding element of an inject face. -/
  | fipad (g : QGuard) (s : BitVec 6) (f : Bool) (m : BitVec 2)
  /-- R173. Starts the bank named by qn and empties the other. -/
  | fisel (g : QGuard) (f : Bool) (q : BitVec 3)
  /-- R173. Loads a pattern descriptor into a queue bank with a tag. -/
  | fiqb (g : QGuard) (a : BitVec 6) (t : BitVec 6) (f : Bool) (b : Bool)
  -- S6, drain face (R64, R179)
  /-- R52. S6 no operation. -/
  | nopDrain (g : QGuard)
  /-- R179. Loads a drain pattern into the pending slot. -/
  | fdcfg (g : QGuard) (s : BitVec 6) (f : Bool)
  /-- R179. Moves the pending drain pattern to running or next. -/
  | fdgo (g : QGuard) (f : Bool)
  /-- R179. Discards the running and next drain patterns. -/
  | fdhalt (g : QGuard) (f : Bool)
  /-- R177. Sets the drain chain for later pushes. -/
  | fdchain (g : QGuard) (s : BitVec 6) (f : Bool)
  /-- R179. Requests a receipt once earlier pushes are written. -/
  | fdflush (g : QGuard) (s : BitVec 6) (f : Bool)
  -- S7, engines (R64, R180)
  /-- R52. S7 no operation. -/
  | nopEngine (g : QGuard)
  /-- R181. Courier byte copy. -/
  | cpy (g : QGuard) (d : BitVec 6) (r : BitVec 6) (t : BitVec 6) (c : BitVec 3)
  /-- R182. Courier strided element copy. -/
  | cpya (g : QGuard) (d : BitVec 6) (r : BitVec 6) (t : BitVec 6) (c : BitVec 3)
  /-- R183. Courier indexed gather. -/
  | gath (g : QGuard) (d : BitVec 6) (r : BitVec 6) (t : BitVec 6) (u : Bool) (c : BitVec 3)
  /-- R183. Courier indexed scatter. -/
  | scat (g : QGuard) (d : BitVec 6) (r : BitVec 6) (t : BitVec 6) (u : Bool) (c : BitVec 3)
  /-- R187. Collective reduce to the root. -/
  | red (g : QGuard) (d : BitVec 6) (r : BitVec 6) (t : BitVec 6) (c : BitVec 3)
  /-- R187. Collective all-reduce. -/
  | ared (g : QGuard) (d : BitVec 6) (r : BitVec 6) (t : BitVec 6) (c : BitVec 3)
  /-- R187. Collective broadcast. -/
  | bcst (g : QGuard) (d : BitVec 6) (r : BitVec 6) (t : BitVec 6) (c : BitVec 3)
  /-- R181. Courier pattern fill. -/
  | fill (g : QGuard) (d : BitVec 6) (r : BitVec 6) (t : BitVec 6) (c : BitVec 3)
  /-- R185. Cancels the commands with a tag on a courier. -/
  | ccan (g : QGuard) (t : BitVec 6) (r : BitVec 6) (c : BitVec 3)
  /-- R186. Copies a checkpoint and writes its sealed header last. -/
  | ckpt (g : QGuard) (d : BitVec 6) (r : BitVec 6) (t : BitVec 6) (c : BitVec 3)
  /-- R194. Turns a bitmap into an ascending list. -/
  | sortb (g : QGuard) (d : BitVec 6) (r : BitVec 6)
  /-- R197. Launches one task per list entry from a template. -/
  | sortl (g : QGuard) (d : BitVec 6) (r : BitVec 6)
  /-- R195. Merges two lists. -/
  | sortm (g : QGuard) (d : BitVec 6) (r : BitVec 6)
  /-- R196. Dilates a list of grid tiles. -/
  | sortd (g : QGuard) (d : BitVec 6) (r : BitVec 6)
  /-- R200. Sends a packet of 1 to 8 flits on the post ring. -/
  | post (g : QGuard) (a : BitVec 6) (h : BitVec 6) (r : BitVec 6)
  /-- R202. Waits for an inbox message and copies it to the scratchpad. -/
  | precv (g : QGuard) (d : BitVec 6) (t : BitVec 6) (h : BitVec 6) (q : BitVec 3)
  -- Events with operands
  /-- R22. Data of an outstanding load or atomic arrives, fills its destination and marks it full, or marks it
  poisoned on an uncorrectable error. -/
  | loadDataReturn (i : Nat)
  /-- R39. A cell result, nullification V-clear, tile landing or latched result reaches its landing step and is
  written at the end of that step. -/
  | resultLanding (m : Nat) (c : Nat)
  /-- R282. The dispatcher pre-empts a lower-priority running task for a ready task; issue stops and the wave
  drains. -/
  | preempt (die : Nat)
  /-- R301. A pre-empted image is read back whole before the first bundle; an uncorrectable error aborts it with
  IMAGE.UE. -/
  | taskRestore (die : Nat)
  /-- R306. An uncorrectable error in die state freezes the die's record and fails its running tasks with
  UNIT.LOST. -/
  | machineCheck (die : Nat)
  /-- R274. Once a dependency entry and the token store entries are free, the task is copied in, reserves its
  entries and writes ACCEPTED. -/
  | taskAccept (die : Nat)
  /-- R281. A ready task is placed on a free bench: scrub, scratchpad sizing, argument copy, reset state and
  STARTED. -/
  | taskDispatch (die : Nat)
  /-- R278. Each whole DSP.AGE ticks spent ready raises a ready task's effective priority by one, up to the
  ceiling. -/
  | priorityAging (die : Nat)
  /-- R279. A task passed over for DSP.RESERVE ticks reserves the bench of its shape that becomes free soonest. -/
  | benchReserve (die : Nat)
  /-- R280. A die with a free bench and an empty ready queue pulls the oldest movable ready task from another die. -/
  | taskPull (die : Nat)
  /-- R284. A restartable task whose run failed is dispatched again from ENTRY with its saved arguments, up to
  RETRY times. -/
  | taskRerun (die : Nat)
  /-- R285. A surviving die's dispatcher takes over the journaled dependency entries of a failed die. -/
  | dieTakeover (die : Nat) (heir : Nat)
  /-- R114. The arrivals of a barrier generation reach their count, and every participant completes with an
  acquire. -/
  | barGenerationComplete (i : Nat)
  /-- R164. An engine takes a queued command, reads its descriptor and writes STARTED. -/
  | engineCommandStart (i : Nat)
  /-- R164. An engine command finishes its accesses and writes exactly one terminal receipt. -/
  | engineCommandEnd (i : Nat)
  /-- R274. A SORTL that waits longer than STALL.TMO for one entry's acceptance ends FAILED with TIMEOUT. -/
  | sortlTimeout (i : Nat)
  /-- R187. A collective group that has not formed within STALL.TMO ends the member's command FAILED with TIMEOUT. -/
  | collectiveGroupTimeout (i : Nat)
  /-- R190. A receiver takes a reduced chunk, combines it and checks its seal. -/
  | collectiveChunkReceive (i : Nat) (chunk : Chunk)
  /-- R172. A fetched pattern element arrives in an inject lane's buffer. -/
  | injectElementFetch (a : Nat) (face : Nat) (lane : Nat)
  /-- R178. A pushed element runs through the drain chain and its valid halves are written to memory. -/
  | drainElementWrite (a : Nat) (face : Nat) (lane : Nat)
  /-- R179. Once every earlier push has been written or discarded, the FDFLUSH receipt is written. -/
  | fdflushReceipt (a : Nat) (face : Nat)
  /-- R199. A post packet moves from one ring stop to the next, through the shared pool or the escape slots. -/
  | postPacketHop (i : Nat)
  /-- R202. Once the destination inbox has room, a packet enters it, releases its held slots and completes its
  POST receipt. -/
  | postInboxEnter (i : Nat)
  /-- R311. A channel scheduler serves a memory request by deadline and class, counting a missed deadline. -/
  | memoryRequestServe (channel : Nat)
  /-- R308. A stack scrubs its lines at least daily and poisons any granule with an uncorrectable error. -/
  | hbmScrub (stack : Nat)
  /-- R321. A Carrier flit arrives and is checked by CRC; a failed flit is resent. -/
  | carrierFlitReceive (port : Nat) (good : Bool)
  /-- R323. A quadrant's supply falls below DRP.THRESH, starting the clock stretch and the half-rate hold and
  counting the alarm. -/
  | droopAlarm (die : Nat) (quad : Nat)
  /-- R323. The DRP.STRETCH stretched cycles of an alarm have passed. -/
  | droopStretchEnd (die : Nat) (quad : Nat)
  /-- R323. The DRP.HOLD half-rate advances of an alarm have passed, and full-rate issue resumes. -/
  | droopHoldEnd (die : Nat) (quad : Nat)
  /-- R323. The supply rises 10 mV above the threshold and re-arms the detector. -/
  | droopRearm (die : Nat) (quad : Nat)
  /-- R271. A host write of LBWIDX makes descriptors pending, or is discarded if it would overfill the letterbox. -/
  | lbwidxWrite (ctx : Nat) (box : Nat) (v : BitVec 64)
  /-- R271. A host write to an adapter window register that has no behaviour of its own. -/
  | hostRegisterWrite (off : Nat) (v : BitVec 64)
  /-- R317. A host write-1-to-clear of CTXISR bits. -/
  | ctxisrWrite (ctx : Nat) (v : BitVec 64)
  /-- R317. A host write to HBAR is the host's arrival at the context's .sys barrier. -/
  | hbarWrite (ctx : Nat)
  /-- R320. A host write of HCOPY starts a host copy from its control block. -/
  | hcopyWrite (v : BitVec 64)
  /-- R316. A host aperture read makes the LLC write back the line and then reads HBM uncompressed. -/
  | hostApertureRead (p : Nat) (n : Nat)
  /-- R316. A host aperture write goes to HBM directly after the LLC has dropped the line, and records its
  granules as unencrypted. -/
  | hostApertureWrite (p : Nat) (bytes : List Byte)
  /-- R165. A remote responder does not answer an engine command within STALL.TMO ticks, and the command ends
  FAILED with CLASS TIMEOUT. -/
  | remoteResponderTimeout (i : Nat)
  /-- R283. A die, HBM stack or link fails or resets, and every task whose run used it ends FAILED with CLASS
  UNIT.LOST, is re-run, or is taken over. -/
  | unitLoss (kind : Nat) (index : Nat)
  -- Events without operands
  /-- R31. The head sequencer issues one bundle: the wave advances one position, S0, S1 and S4 execute, and S5 to
  S7 commands start. -/
  | bundleIssue
  /-- R33. After a change from skew to flat, the sequencer makes 31 advances that bring in no bundle. -/
  | blankAdvance
  /-- R331. While issue waits for issued bundles, or during a trap drain, the bench makes an advance without issue
  that moves every bundle in flight. -/
  | drainAdvance
  /-- R35. The last stall cause clears, and the stalled issue and the frozen wave resume together. -/
  | stallResume
  /-- R45. A face stall outlasts STALL.TMO and raises the face stream fault FACE.STALL. -/
  | stallTimeout
  /-- R103. A blocking read of an empty register outlasts FECTL.FETMO, and either raises F/E.EMPTY or issues with
  stale data and sets qn. -/
  | feTimeout
  /-- R47. Once the flag latency has passed, the ANY and ALL record of a flag bundle or exit bundle becomes
  readable by the sequencer. -/
  | flagRecordReadable
  /-- R104. The condition of a waiting wait instruction holds, and its bundle issues with the result q cleared. -/
  | waitSatisfied
  /-- R104. A wait's timeout runs out before its condition holds; the bundle issues with the result q set and no
  other effect. -/
  | waitTimeout
  /-- R293. Once the drain and the outstanding loads have completed, the sequencer writes the frame at TFP, sets
  the trap registers and issues from TVEC. -/
  | trapEntry
  /-- R298. A supervisor cause is recorded in the dead-letter record, and the task is held for a resume or a
  failure. -/
  | supervisorFaultTake
  /-- R297. A pending interrupt is taken at a bundle boundary and raises the INTERRUPT cause in the task. -/
  | interruptTake
  /-- R126. A store whose read-modify-write met an uncorrectable error raises MEM.UE.STORE asynchronously at the
  next bundle boundary. -/
  | memUeStore
  /-- R299. After the drain and the command waits, the dirty parts of the task's image are written to its image
  slot. -/
  | preemptImageWrite
  /-- R319. A task held by its supervisor is not resumed within FLTTMO and is failed. -/
  | flttmoExpiry
  /-- R283. After the stall of DONE, the task releases, writes its receipt, ripens its tokens, raises its
  interrupt and frees its bench. -/
  | taskEnd
  /-- R119. After the stall of YIELD, the task ends its run as a pre-emption does and returns to the ready queue. -/
  | yieldComplete
  /-- R273. A die's dispatcher takes a pending letterbox descriptor and accepts it, or refuses it. -/
  | descriptorTake
  /-- R162. Issue delayed by 32 outstanding S7 commands for longer than STALL.TMO raises ENGINE.FULL. -/
  | engineFullTimeout
  /-- R117. A LAUNCH that stalls for lack of entries for longer than STALL.TMO raises TASK.LAUNCH.FULL. -/
  | launchFullTimeout
  /-- R310. In automatic mode, once per interval the hub swaps the hottest region of the busiest stack with the
  coolest region of the least busy stack. -/
  | postcodeAutoSwap
  /-- R322. On input power loss, issue stops, POWER.LOSS receipts and list entries are written, and the records go
  to flash within 12 ms. -/
  | powerLoss
  /-- R325. At reset, the boot ROM verifies and loads the hub and supervisor firmware from copy A or B, or enters
  recovery. -/
  | moduleReset
  /-- R319. Management command 0x01 creates a context. -/
  | ctxCreate
  /-- R319. Management command 0x02 stops and fails everything of a context, retires its tokens and destroys its
  key. -/
  | ctxDestroy
  /-- R319. Management command 0x03 loads MKEY0 to MKEY7 into a key slot and increments its generation. -/
  | keyLoad
  /-- R315. Management command 0x04 kills a key slot, invalidates its cached lines and increments its generation. -/
  | keyDestroy
  /-- R319. Management command 0x05 invalidates translation cache entries across the module. -/
  | xlateInv
  /-- R319. Management command 0x06 raises INTERRUPT in a task. -/
  | interrupt
  /-- R319. Management command 0x07 resumes a task held by its supervisor. -/
  | faultResume
  /-- R319. Management command 0x08 fails a task held by its supervisor. -/
  | faultFail
  /-- R319. Management command 0x09 sets DSP.AGE, DSP.RESERVE and FLTTMO. -/
  | dspSet
  /-- R319. Management command 0x0A retires a token. -/
  | tokenRetire
  /-- R328. Management command 0x0B copies a die's dead-letter record or power-loss list to host memory. -/
  | dlrRead
  /-- R319. Management command 0x0C releases a frozen dead-letter record. -/
  | dlrRelease
  /-- R310. Management command 0x0D swaps two 2 MiB regions: hold, copy, exchange entries, release. -/
  | postcodeSwap
  /-- R319. Management command 0x0E turns automatic swapping on or off and sets its interval. -/
  | postcodeMode
  /-- R311. Management command 0x0F sets the deadline budgets of the service classes. -/
  | sclass
  /-- R324. Management command 0x10 sets a quadrant's droop threshold, stretch and hold. -/
  | drpSet
  /-- R319. Management command 0x11 copies the channel, deadline, error and droop counters to host memory. -/
  | countersRead
  /-- R327. Management command 0x12 writes a signed attestation report and the certificate to host memory. -/
  | attest
  /-- R321. Management command 0x13 writes a route table port mask. -/
  | routeSet
  /-- R319. Management command 0x14 sets MODID while no context exists. -/
  | moduleSetid
  /-- R319. Management command 0x15 writes a firmware image to flash, and resets the module in recovery. -/
  | flashLoad
  /-- R165. The Clawyn host link fails during a transfer, and the affected commands end with CLASS LINK. -/
  | clawynLinkFailure
  deriving DecidableEq, Repr

end Sys2Proof
end

