-- ==== Sys2Proof/Machine/Codes.lean ====
section
/-!
DEFINITION. Which codes a slot may hold (05_encoding.md R55, R57, R62, R63, R65; 09_sequencer_isa.md R132; 15_semiring_isa.md
R207): the slot classes in which each instruction stands, and the codes of its fields that are assigned.
-/

namespace Sys2Proof.Machine

/-- The slot classes that hold an instruction (R57, R60, R61, R63, R64). Events stand in none. -/
def slotClasses : Instr → List SlotClass
  | .nopControl _ | .br _ _ _ | .call _ _ _ | .calli _ _ | .ret _ | .jmpi _ _ | .loop _ _ _ _ _
  | .loops _ _ _ _ _ | .lbrk _ | .lbrka _ | .rotcfg _ _ _ | .wave _ _ | .fmtset _ _ | .semset _ _ _
  | .waitf _ _ _ | .waitr _ _ _ _ | .drain _ _ _ _ | .fence _ _ _ | .rel _ _ | .acq _ _ _ | .acqW _ _ _ _ _
  | .bar _ _ _ _ | .launch _ _ | .signal _ _ | .yield _ | .done _ | .trap _ _ | .rft _ | .sysrd _ _ _
  | .syswr _ _ _ | .docket _ _ _ | .dcheck _ | .stamp _ _ | .stampS _ _ => [.control]
  | .nopScalar _ | .add _ _ _ _ _ _ | .sub _ _ _ _ _ _ | .addi _ _ _ | .mul _ _ _ _ _ _ | .mulh _ _ _ _ _ _
  | .mulhu _ _ _ _ _ _ | .div _ _ _ _ _ _ | .divu _ _ _ _ _ _ | .rem _ _ _ _ _ _ | .remu _ _ _ _ _ _
  | .and _ _ _ _ _ _ | .or _ _ _ _ _ _ | .xor _ _ _ _ _ _ | .andi _ _ _ | .ori _ _ _ | .xori _ _ _
  | .shl _ _ _ _ _ _ | .shr _ _ _ _ _ _ | .sra _ _ _ _ _ _ | .shli _ _ _ | .shri _ _ _ | .srai _ _ _
  | .min _ _ _ _ _ _ | .max _ _ _ _ _ _ | .minu _ _ _ _ _ _ | .maxu _ _ _ _ _ _ | .selScalar _ _ _ _ _ _
  | .cmp _ _ _ _ _ _ _ | .cmpi _ _ _ _ _ | .li _ _ _ | .lui _ _ _ | .movScalar _ _ _ _ | .clz _ _ _ _
  | .popc _ _ _ _ | .lea _ _ _ _ _ _ _ | .ld _ _ _ _ _ | .st _ _ _ _ _ | .lda _ _ _ _ _ | .stl _ _ _ _ _
  | .ldlast _ _ _ _ _ | .pref _ _ _ _ _ | .aadd _ _ _ _ _ _ _ | .amin _ _ _ _ _ _ _ | .amax _ _ _ _ _ _ _
  | .aand _ _ _ _ _ _ _ | .aor _ _ _ _ _ _ _ | .axor _ _ _ _ _ _ _ | .aswap _ _ _ _ _ _ _ | .acas _ _ _ _ _ _ _
  | .afadd _ _ _ _ _ _ _ => [.scalar]
  | .nopCell _ | .iadd _ _ _ _ | .isub _ _ _ _ | .imul _ _ _ _ | .imulh _ _ _ _ _ | .iand _ _ _ _
  | .ior _ _ _ _ | .ixor _ _ _ _ | .ishl _ _ _ _ | .ishr _ _ _ _ | .isra _ _ _ _ | .imin _ _ _ _ _
  | .imax _ _ _ _ _ | .icmp _ _ _ _ _ | .isel _ _ _ _ | .iaddi _ _ _ | .movi _ _ _ | .movhi _ _ _
  | .movCell _ _ _ | .fadd _ _ _ _ | .fsub _ _ _ _ | .fmul _ _ _ _ | .ffma _ _ _ _ | .fmin _ _ _ _
  | .fmax _ _ _ _ | .fcmp _ _ _ _ _ | .fabs _ _ _ | .fneg _ _ _ | .frcp _ _ _ | .frsq _ _ _ | .fexp2 _ _ _
  | .flog2 _ _ _ | .ftanh _ _ _ | .fcvt _ _ _ _ _ | .frnd _ _ _ _ | .bfma _ _ _ _ _ | .hadd2 _ _ _ _
  | .hmul2 _ _ _ _ | .hfma2 _ _ _ _ | .vset _ _ | .vclr _ _ | .vtest _ _ _ _ _ | .vsel _ _ _ _ | .vmov _ _ _
  | .pand _ _ _ _ | .por _ _ _ _ | .pxor _ _ _ _ | .pnot _ _ _ | .pmov _ _ _ | .rand _ _ _ _ | .lexit _ => [.cellA, .cellB]
  | .ldc _ _ _ _ | .stc _ _ _ _ | .ldc2 _ _ _ _ | .stc2 _ _ _ _ | .ldca _ _ _ _ | .stca _ _ _ _ | .comm _ _ _ _ => [.cellB]
  | .smm _ _ _ _ _ _ | .smms _ _ _ _ _ _ | .smz _ _ _ | .smadd _ _ _ _ | .smrd _ _ _ _ | .smwr _ _ _ _
  | .smout _ _ _ _ _ | .smcmp _ _ _ _ _ _ | .scmpr _ _ _ _ _ | .scmprPair _ _ _ _ | .sexpn _ _ _ _ _ _
  | .bpack _ _ _ _ _ _ | .bunpk _ _ _ _ _ | .smred _ _ _ _ _ => [.cellA]
  | .nopSelector | .selSelector _ _ _ _ _ | .mset _ _ _ _ | .mrange _ _ _ _ _ | .mop _ _ _ _ _ _
  | .mflag _ _ _ _ | .tscale _ _ _ _ => [.selector]
  | .nopInject _ | .ficfg _ _ _ | .figo _ _ _ | .fihalt _ _ | .fipad _ _ _ _ | .fisel _ _ _ | .fiqb _ _ _ _ _ => [.inject]
  | .nopDrain _ | .fdcfg _ _ _ | .fdgo _ _ | .fdhalt _ _ | .fdchain _ _ _ | .fdflush _ _ _ => [.drain]
  | .nopEngine _ | .cpy _ _ _ _ _ | .cpya _ _ _ _ _ | .gath _ _ _ _ _ _ | .scat _ _ _ _ _ _ | .red _ _ _ _ _
  | .ared _ _ _ _ _ | .bcst _ _ _ _ _ | .fill _ _ _ _ _ | .ccan _ _ _ _ | .ckpt _ _ _ _ _ | .sortb _ _ _
  | .sortl _ _ _ | .sortm _ _ _ | .sortd _ _ _ | .post _ _ _ _ | .precv _ _ _ _ _ => [.engine]
  | .bundleIssue | .blankAdvance | .drainAdvance | .stallResume | .stallTimeout | .feTimeout
  | .loadDataReturn _ | .resultLanding _ _ | .flagRecordReadable | .waitSatisfied | .waitTimeout | .trapEntry
  | .supervisorFaultTake | .interruptTake | .memUeStore | .preempt _ | .preemptImageWrite | .taskRestore _
  | .flttmoExpiry | .machineCheck _ | .taskEnd | .yieldComplete | .descriptorTake | .taskAccept _
  | .taskDispatch _ | .priorityAging _ | .benchReserve _ | .taskPull _ | .taskRerun _ | .dieTakeover _ _
  | .barGenerationComplete _ | .engineCommandStart _ | .engineCommandEnd _ | .engineFullTimeout
  | .launchFullTimeout | .sortlTimeout _ | .collectiveGroupTimeout _ | .collectiveChunkReceive _ _
  | .injectElementFetch _ _ _ | .drainElementWrite _ _ _ | .fdflushReceipt _ _ | .postPacketHop _
  | .postInboxEnter _ | .memoryRequestServe _ | .hbmScrub _ | .postcodeAutoSwap | .carrierFlitReceive _ _
  | .powerLoss | .moduleReset | .droopAlarm _ _ | .droopStretchEnd _ _ | .droopHoldEnd _ _ | .droopRearm _ _
  | .lbwidxWrite _ _ _ | .hostRegisterWrite _ _ | .ctxisrWrite _ _ | .hbarWrite _ | .hcopyWrite _
  | .hostApertureRead _ _ | .hostApertureWrite _ _ | .ctxCreate | .ctxDestroy | .keyLoad | .keyDestroy
  | .xlateInv | .interrupt | .faultResume | .faultFail | .dspSet | .tokenRetire | .dlrRead | .dlrRelease
  | .postcodeSwap | .postcodeMode | .sclass | .drpSet | .countersRead | .attest | .routeSet | .moduleSetid
  | .flashLoad | .remoteResponderTimeout _ | .clawynLinkFailure | .unitLoss _ _ => []
/-- A word source operand (R55): every code but the reserved 61 and 62. -/
def wordSrc (c : BitVec 6) : Bool := c != 61 && c != 62

/-- A word destination (R55): g0 to g43, ch.lo, ch.hi, cv.lo, cv.hi. -/
def wordDst (c : BitVec 6) : Bool := c.ult 44 || (52 ≤ c.toNat && c.toNat ≤ 55)

/-- A pair source (R55): an even g code, or an even code from 44 to 56. -/
def pairSrc (c : BitVec 6) : Bool := c.toNat % 2 == 0 && c.toNat ≤ 56

/-- A pair destination (R55): an even g code, 52 or 54. -/
def pairDst (c : BitVec 6) : Bool := c.toNat % 2 == 0 && (c.toNat ≤ 42 || c.toNat == 52 || c.toNat == 54)

/-- The system register numbers that the map holds (R132, R294). -/
def sysKnown (r : Nat) : Bool :=
  r ≤ 0x008 || r == 0x010 || r == 0x011 || (0x020 ≤ r && r ≤ 0x030) || (0x040 ≤ r && r ≤ 0x050)
    || (0x060 ≤ r && r ≤ 0x063) || (0x100 ≤ r && r ≤ 0x10A)

/-- The system registers that a SYSWR may name (R121, R132, R294): those with a field that is not RO. -/
def sysWritable (r : Nat) : Bool :=
  (0x001 ≤ r && r ≤ 0x006) || (0x020 ≤ r && r ≤ 0x030) || r == 0x100 || r == 0x101 || r == 0x103 || r == 0x108

/-- The field values of a slot that are assigned (R65): operand codes in positions where R55 allows them, and
cond, scope, kind, path, placement, target, op, modifier and function codes that are listed. -/
def fieldsOk : Instr → Bool
  -- S0 (R61, R62)
  | .br _ c _ | .call _ c _ => c.toNat ≤ 4
  | .loop _ _ _ _ e => e != 0
  | .loops _ _ _ _ e => e != 0
  | .rotcfg _ _ y => y != 3
  | .semset _ e _ => 8 ≤ e.toNat
  | .fence _ s k => s.toNat ≤ 5 && k != 3
  | .rel _ s | .acq _ s _ | .acqW _ s _ _ _ | .bar _ s _ _ => s.toNat ≤ 5
  | .sysrd _ _ r => sysKnown r.toNat
  | .syswr _ _ r => sysWritable r.toNat
  -- S1 (R126)
  | .pref _ h _ _ _ => h.toNat ≤ 2
  -- S4 (R63, R130)
  | .mop _ _ _ b o _ => o.toNat ≤ 3 || (o.toNat ≤ 7 && b == 0)
  | .tscale _ _ _ t => t != 0
  -- S2 and S3, lane instructions (R55, R56)
  | .iadd _ d a b | .isub _ d a b | .imul _ d a b | .imulh _ d a b _ | .iand _ d a b | .ior _ d a b
  | .ixor _ d a b | .ishl _ d a b | .ishr _ d a b | .isra _ d a b | .imin _ d a b _ | .imax _ d a b _
  | .isel _ d a b | .fadd _ d a b | .fsub _ d a b | .fmul _ d a b | .ffma _ d a b | .fmin _ d a b
  | .fmax _ d a b | .bfma _ d a b _ | .hadd2 _ d a b | .hmul2 _ d a b | .hfma2 _ d a b | .vsel _ d a b =>
    wordDst d && wordSrc a && wordSrc b
  | .icmp _ _ a b _ | .fcmp _ _ a b _ => wordSrc a && wordSrc b
  | .iaddi _ d _ | .movi _ d _ | .movhi _ d _ | .vset _ d | .vclr _ d => wordDst d
  | .movCell _ d a | .fabs _ d a | .fneg _ d a | .frcp _ d a | .frsq _ d a | .fexp2 _ d a | .flog2 _ d a
  | .ftanh _ d a | .vmov _ d a | .rand _ d a _ => wordDst d && wordSrc a
  | .fcvt _ d a b m =>
    wordDst d && wordSrc a && wordSrc b && (b == 0 || m == 2 || m == 3 || m == 6 || m == 7)
  | .frnd _ d a m => wordDst d && wordSrc a && m.toNat ≤ 4
  | .vtest _ _ a b c => wordSrc a && wordSrc b && (b == 0 || c == 2 || c == 3)
  -- S3 (R153, R155)
  | .ldc _ d b _ | .ldca _ d b _ => wordDst d && wordSrc b
  | .stc _ d b _ | .stca _ d b _ => wordSrc d && wordSrc b
  | .ldc2 _ d b _ => pairDst d && wordSrc b
  | .stc2 _ d b _ => pairSrc d && wordSrc b
  | .comm _ d a _ => pairDst d && pairSrc a
  -- S2, tile instructions (R207, R216, R218, R221)
  | .smm _ _ _ a b _ | .smms _ _ _ a b _ => pairSrc a && pairSrc b
  | .sexpn _ _ _ a b _ => pairSrc a && b.toNat ≤ 10
  | .smrd _ d _ _ | .bpack _ d _ _ _ _ => pairDst d
  | .smwr _ a _ _ | .bunpk _ a _ _ _ => pairSrc a
  | .smout _ _ e b _ => e.toNat ≤ 3 || (!b && e.toNat ≤ 7)
  | .scmpr _ d a _ _ => wordDst d && wordSrc a
  | .scmprPair _ d _ _ => wordDst d
  | .smred _ _ _ _ m => m.toNat ≤ 2
  -- S5 (R174)
  | .fipad _ s _ m => m.toNat ≤ 1 || (m == 2 && s == 0)
  -- Every other slot instruction has no field with an unassigned value.
  | _ => true

end Sys2Proof.Machine
end

