-- ==== Sys2Proof/WellFormed.lean ====
section
/-!
DEFINITION. Well-formed slot instructions (05_encoding.md R65): an instruction stands in a slot whose class
holds it, and each of its fields holds an assigned value. What the rule says of two slots of one bundle (R66 to
R68) is a property of the bundle, in Sys2Proof.Machine.Legal.
-/

namespace Sys2Proof

/-- `i` may stand in a slot of class `c`, with every field assigned (R57, R65). -/
def wellFormed (c : SlotClass) (i : Instr) : Bool :=
  (Machine.slotClasses i).contains c && Machine.fieldsOk i

/-- `wellFormed` as a proposition. -/
abbrev WellFormed (c : SlotClass) (i : Instr) : Prop := wellFormed c i = true

end Sys2Proof
end

