-- ==== Sys2Proof/Decode.lean ====
section
/-!
DEFINITION. Decoding and encoding (05_encoding.md R50 to R64; the rows of the operation table). Decoding is total: a word that
holds an undefined operation value, a reserved bit or an unassigned field value gives none, and so offends (R65).
The same 32 bits mean different instructions in slots of different classes, so decoding takes the class.
-/

namespace Sys2Proof

/-- The guard of S0, S5, S6 and S7 (R53). -/
def qGuardOf (w : Word) : QGuard := { neg := bit w 26, pred := fld w 23 3 }

/-- The guard of S1 (R53). -/
def sGuardOf (w : Word) : QGuard := { neg := bit w 25, pred := fld w 22 3 }

/-- The guard of S2 and S3 (R53). -/
def pGuardOf (w : Word) : PGuard := { neg := bit w 25, pred := fld w 21 4 }

/-- The control slot S0 (R61). -/
def decodeControl (w : Word) : Option Instr :=
  match (fld w 27 5).toNat with
  | 0 => if fld w 0 23 = 0 then some (.nopControl (qGuardOf w)) else none
  | 1 => some (.br (qGuardOf w) (fld w 20 3) (fld w 0 20))
  | 2 => some (.call (qGuardOf w) (fld w 20 3) (fld w 0 20))
  | 3 => if fld w 0 17 = 0 then some (.calli (qGuardOf w) (fld w 17 6)) else none
  | 4 => if fld w 0 23 = 0 then some (.ret (qGuardOf w)) else none
  | 5 => if fld w 0 17 = 0 then some (.jmpi (qGuardOf w) (fld w 17 6)) else none
  | 6 => some (.loop (qGuardOf w) (fld w 17 6) (fld w 14 3) (fld w 11 3) (fld w 0 11))
  | 7 => some (.loops (qGuardOf w) (fld w 15 8) (fld w 12 3) (fld w 9 3) (fld w 0 9))
  | 8 => if fld w 0 23 = 0 then some (.lbrk (qGuardOf w)) else none
  | 9 => if fld w 0 23 = 0 then some (.lbrka (qGuardOf w)) else none
  | 10 => if fld w 0 19 = 0 then some (.rotcfg (qGuardOf w) (fld w 21 2) (fld w 19 2)) else none
  | 11 => if fld w 0 22 = 0 then some (.wave (qGuardOf w) (bit w 22)) else none
  | 12 => if fld w 0 17 = 0 then some (.fmtset (qGuardOf w) (fld w 17 6)) else none
  | 13 => if fld w 0 13 = 0 then some (.semset (qGuardOf w) (fld w 19 4) (fld w 13 6)) else none
  | 14 => if fld w 0 14 = 0 then some (.waitf (qGuardOf w) (fld w 17 6) (fld w 14 3)) else none
  | 15 => if fld w 0 8 = 0 then some (.waitr (qGuardOf w) (fld w 17 6) (fld w 11 6) (fld w 8 3)) else none
  | 16 => if fld w 0 12 = 0 then some (.drain (qGuardOf w) (fld w 21 2) (fld w 15 6) (fld w 12 3)) else none
  | 17 => if fld w 0 18 = 0 then some (.fence (qGuardOf w) (fld w 20 3) (fld w 18 2)) else none
  | 18 => if fld w 0 20 = 0 then some (.rel (qGuardOf w) (fld w 20 3)) else none
  | 19 => if fld w 0 14 = 0
    then some (.acq (qGuardOf w) (fld w 20 3) (fld w 14 6))
    else if fld w 0 4 = 0 ∧ fld w 13 1 = 1 then some (.acqW (qGuardOf w) (fld w 20 3) (fld w 14 6) (fld w 7 6) (fld w 4 3)) else none
  | 20 => if fld w 0 11 = 0 then some (.bar (qGuardOf w) (fld w 20 3) (fld w 14 6) (fld w 11 3)) else none
  | 21 => if fld w 0 17 = 0 then some (.launch (qGuardOf w) (fld w 17 6)) else none
  | 22 => if fld w 0 17 = 0 then some (.signal (qGuardOf w) (fld w 17 6)) else none
  | 23 => if fld w 0 23 = 0 then some (.yield (qGuardOf w)) else none
  | 24 => if fld w 0 23 = 0 then some (.done (qGuardOf w)) else none
  | 25 => if fld w 0 15 = 0 then some (.trap (qGuardOf w) (fld w 15 8)) else none
  | 26 => if fld w 0 23 = 0 then some (.rft (qGuardOf w)) else none
  | 27 => if fld w 0 5 = 0 then some (.sysrd (qGuardOf w) (fld w 17 6) (fld w 5 12)) else none
  | 28 => if fld w 0 5 = 0 then some (.syswr (qGuardOf w) (fld w 17 6) (fld w 5 12)) else none
  | 29 => if fld w 0 11 = 0 then some (.docket (qGuardOf w) (fld w 17 6) (fld w 11 6)) else none
  | 30 => if fld w 0 23 = 0 then some (.dcheck (qGuardOf w)) else none
  | 31 => if fld w 0 17 = 0
    then some (.stamp (qGuardOf w) (fld w 17 6))
    else if fld w 0 17 = 65536 then some (.stampS (qGuardOf w) (fld w 17 6)) else none
  | _ => none

/-- The scalar slot S1 (R58, R60). -/
def decodeScalar (w : Word) : Option Instr :=
  match (fld w 26 6).toNat with
  | 0 => if fld w 0 22 = 0 then some (.nopScalar (sGuardOf w)) else none
  | 1 => if fld w 2 2 = 0
    then some (.add (sGuardOf w) (fld w 16 6) (fld w 10 6) (fld w 4 6) (bit w 1) (bit w 0))
    else none
  | 2 => if fld w 2 2 = 0
    then some (.sub (sGuardOf w) (fld w 16 6) (fld w 10 6) (fld w 4 6) (bit w 1) (bit w 0))
    else none
  | 3 => some (.addi (sGuardOf w) (fld w 16 6) (fld w 0 16))
  | 4 => if fld w 2 2 = 0
    then some (.mul (sGuardOf w) (fld w 16 6) (fld w 10 6) (fld w 4 6) (bit w 1) (bit w 0))
    else none
  | 5 => if fld w 2 2 = 0
    then some (.mulh (sGuardOf w) (fld w 16 6) (fld w 10 6) (fld w 4 6) (bit w 1) (bit w 0))
    else none
  | 6 => if fld w 2 2 = 0
    then some (.mulhu (sGuardOf w) (fld w 16 6) (fld w 10 6) (fld w 4 6) (bit w 1) (bit w 0))
    else none
  | 7 => if fld w 2 2 = 0
    then some (.div (sGuardOf w) (fld w 16 6) (fld w 10 6) (fld w 4 6) (bit w 1) (bit w 0))
    else none
  | 8 => if fld w 2 2 = 0
    then some (.divu (sGuardOf w) (fld w 16 6) (fld w 10 6) (fld w 4 6) (bit w 1) (bit w 0))
    else none
  | 9 => if fld w 2 2 = 0
    then some (.rem (sGuardOf w) (fld w 16 6) (fld w 10 6) (fld w 4 6) (bit w 1) (bit w 0))
    else none
  | 10 => if fld w 2 2 = 0
    then some (.remu (sGuardOf w) (fld w 16 6) (fld w 10 6) (fld w 4 6) (bit w 1) (bit w 0))
    else none
  | 11 => if fld w 2 2 = 0
    then some (.and (sGuardOf w) (fld w 16 6) (fld w 10 6) (fld w 4 6) (bit w 1) (bit w 0))
    else none
  | 12 => if fld w 2 2 = 0
    then some (.or (sGuardOf w) (fld w 16 6) (fld w 10 6) (fld w 4 6) (bit w 1) (bit w 0)) else none
  | 13 => if fld w 2 2 = 0
    then some (.xor (sGuardOf w) (fld w 16 6) (fld w 10 6) (fld w 4 6) (bit w 1) (bit w 0))
    else none
  | 14 => some (.andi (sGuardOf w) (fld w 16 6) (fld w 0 16))
  | 15 => some (.ori (sGuardOf w) (fld w 16 6) (fld w 0 16))
  | 16 => some (.xori (sGuardOf w) (fld w 16 6) (fld w 0 16))
  | 17 => if fld w 2 2 = 0
    then some (.shl (sGuardOf w) (fld w 16 6) (fld w 10 6) (fld w 4 6) (bit w 1) (bit w 0))
    else none
  | 18 => if fld w 2 2 = 0
    then some (.shr (sGuardOf w) (fld w 16 6) (fld w 10 6) (fld w 4 6) (bit w 1) (bit w 0))
    else none
  | 19 => if fld w 2 2 = 0
    then some (.sra (sGuardOf w) (fld w 16 6) (fld w 10 6) (fld w 4 6) (bit w 1) (bit w 0))
    else none
  | 20 => if fld w 6 10 = 0 then some (.shli (sGuardOf w) (fld w 16 6) (fld w 0 6)) else none
  | 21 => if fld w 6 10 = 0 then some (.shri (sGuardOf w) (fld w 16 6) (fld w 0 6)) else none
  | 22 => if fld w 6 10 = 0 then some (.srai (sGuardOf w) (fld w 16 6) (fld w 0 6)) else none
  | 23 => if fld w 2 2 = 0
    then some (.min (sGuardOf w) (fld w 16 6) (fld w 10 6) (fld w 4 6) (bit w 1) (bit w 0))
    else none
  | 24 => if fld w 2 2 = 0
    then some (.max (sGuardOf w) (fld w 16 6) (fld w 10 6) (fld w 4 6) (bit w 1) (bit w 0))
    else none
  | 25 => if fld w 2 2 = 0
    then some (.minu (sGuardOf w) (fld w 16 6) (fld w 10 6) (fld w 4 6) (bit w 1) (bit w 0))
    else none
  | 26 => if fld w 2 2 = 0
    then some (.maxu (sGuardOf w) (fld w 16 6) (fld w 10 6) (fld w 4 6) (bit w 1) (bit w 0))
    else none
  | 27 => if fld w 2 2 = 0
    then some (.selScalar (sGuardOf w) (fld w 16 6) (fld w 10 6) (fld w 4 6) (bit w 1) (bit w 0))
    else none
  | 28 => if fld w 2 2 = 0
    then some (.cmp (sGuardOf w) (fld w 19 3) (fld w 16 3) (fld w 10 6) (fld w 4 6) (bit w 1) (bit w 0))
    else none
  | 29 => some (.cmpi (sGuardOf w) (fld w 19 3) (fld w 16 3) (fld w 10 6) (fld w 0 10))
  | 30 => some (.li (sGuardOf w) (fld w 16 6) (fld w 0 16))
  | 31 => some (.lui (sGuardOf w) (fld w 16 6) (fld w 0 16))
  | 32 => if fld w 1 9 = 0 then some (.movScalar (sGuardOf w) (fld w 16 6) (fld w 10 6) (bit w 0)) else none
  | 33 => if fld w 1 9 = 0 then some (.clz (sGuardOf w) (fld w 16 6) (fld w 10 6) (bit w 0)) else none
  | 34 => if fld w 1 9 = 0 then some (.popc (sGuardOf w) (fld w 16 6) (fld w 10 6) (bit w 0)) else none
  | 35 => some (.lea (sGuardOf w) (fld w 16 6) (fld w 10 6) (fld w 4 6) (fld w 2 2) (bit w 1) (bit w 0))
  | 36 => some (.ld (sGuardOf w) (fld w 16 6) (fld w 10 6) (fld w 2 8) (fld w 0 2))
  | 37 => some (.st (sGuardOf w) (fld w 16 6) (fld w 10 6) (fld w 2 8) (fld w 0 2))
  | 38 => if fld w 1 1 = 1 then some (.lda (sGuardOf w) (fld w 16 6) (fld w 10 6) (fld w 2 8) (bit w 0)) else none
  | 39 => if fld w 1 1 = 1 then some (.stl (sGuardOf w) (fld w 16 6) (fld w 10 6) (fld w 2 8) (bit w 0)) else none
  | 40 => some (.ldlast (sGuardOf w) (fld w 16 6) (fld w 10 6) (fld w 2 8) (fld w 0 2))
  | 41 => some (.pref (sGuardOf w) (fld w 16 6) (fld w 10 6) (fld w 2 8) (fld w 0 2))
  | 42 => if fld w 2 1 = 0
    then some (.aadd (sGuardOf w) (fld w 16 6) (fld w 10 6) (fld w 4 6) (bit w 3) (bit w 1) (bit w 0))
    else none
  | 43 => if fld w 2 1 = 0
    then some (.amin (sGuardOf w) (fld w 16 6) (fld w 10 6) (fld w 4 6) (bit w 3) (bit w 1) (bit w 0))
    else none
  | 44 => if fld w 2 1 = 0
    then some (.amax (sGuardOf w) (fld w 16 6) (fld w 10 6) (fld w 4 6) (bit w 3) (bit w 1) (bit w 0))
    else none
  | 45 => if fld w 2 1 = 0
    then some (.aand (sGuardOf w) (fld w 16 6) (fld w 10 6) (fld w 4 6) (bit w 3) (bit w 1) (bit w 0))
    else none
  | 46 => if fld w 2 1 = 0
    then some (.aor (sGuardOf w) (fld w 16 6) (fld w 10 6) (fld w 4 6) (bit w 3) (bit w 1) (bit w 0))
    else none
  | 47 => if fld w 2 1 = 0
    then some (.axor (sGuardOf w) (fld w 16 6) (fld w 10 6) (fld w 4 6) (bit w 3) (bit w 1) (bit w 0))
    else none
  | 48 => if fld w 2 1 = 0
    then some (.aswap (sGuardOf w) (fld w 16 6) (fld w 10 6) (fld w 4 6) (bit w 3) (bit w 1) (bit w 0))
    else none
  | 49 => if fld w 2 1 = 0
    then some (.acas (sGuardOf w) (fld w 16 6) (fld w 10 6) (fld w 4 6) (bit w 3) (bit w 1) (bit w 0))
    else none
  | 50 => if fld w 2 1 = 0
    then some (.afadd (sGuardOf w) (fld w 16 6) (fld w 10 6) (fld w 4 6) (bit w 3) (bit w 1) (bit w 0))
    else none
  | _ => none

/-- The cell slot S2 (R56, R57). -/
def decodeCellA (w : Word) : Option Instr :=
  match (fld w 26 6).toNat with
  | 0 => if fld w 0 21 = 0 then some (.nopCell (pGuardOf w)) else none
  | 1 => if fld w 0 3 = 0 then some (.iadd (pGuardOf w) (fld w 15 6) (fld w 9 6) (fld w 3 6)) else none
  | 2 => if fld w 0 3 = 0 then some (.isub (pGuardOf w) (fld w 15 6) (fld w 9 6) (fld w 3 6)) else none
  | 3 => if fld w 0 3 = 0 then some (.imul (pGuardOf w) (fld w 15 6) (fld w 9 6) (fld w 3 6)) else none
  | 4 => if fld w 1 2 = 0 then some (.imulh (pGuardOf w) (fld w 15 6) (fld w 9 6) (fld w 3 6) (bit w 0)) else none
  | 5 => if fld w 0 3 = 0 then some (.iand (pGuardOf w) (fld w 15 6) (fld w 9 6) (fld w 3 6)) else none
  | 6 => if fld w 0 3 = 0 then some (.ior (pGuardOf w) (fld w 15 6) (fld w 9 6) (fld w 3 6)) else none
  | 7 => if fld w 0 3 = 0 then some (.ixor (pGuardOf w) (fld w 15 6) (fld w 9 6) (fld w 3 6)) else none
  | 8 => if fld w 0 3 = 0 then some (.ishl (pGuardOf w) (fld w 15 6) (fld w 9 6) (fld w 3 6)) else none
  | 9 => if fld w 0 3 = 0 then some (.ishr (pGuardOf w) (fld w 15 6) (fld w 9 6) (fld w 3 6)) else none
  | 10 => if fld w 0 3 = 0 then some (.isra (pGuardOf w) (fld w 15 6) (fld w 9 6) (fld w 3 6)) else none
  | 11 => if fld w 1 2 = 0 then some (.imin (pGuardOf w) (fld w 15 6) (fld w 9 6) (fld w 3 6) (bit w 0)) else none
  | 12 => if fld w 1 2 = 0 then some (.imax (pGuardOf w) (fld w 15 6) (fld w 9 6) (fld w 3 6) (bit w 0)) else none
  | 13 => if fld w 19 2 = 0 then some (.icmp (pGuardOf w) (fld w 15 4) (fld w 9 6) (fld w 3 6) (fld w 0 3)) else none
  | 14 => if fld w 0 3 = 0 then some (.isel (pGuardOf w) (fld w 15 6) (fld w 9 6) (fld w 3 6)) else none
  | 15 => some (.iaddi (pGuardOf w) (fld w 15 6) (fld w 0 15))
  | 16 => some (.movi (pGuardOf w) (fld w 15 6) (fld w 0 15))
  | 17 => some (.movhi (pGuardOf w) (fld w 15 6) (fld w 0 15))
  | 18 => if fld w 0 9 = 0 then some (.movCell (pGuardOf w) (fld w 15 6) (fld w 9 6)) else none
  | 19 => if fld w 0 3 = 0 then some (.fadd (pGuardOf w) (fld w 15 6) (fld w 9 6) (fld w 3 6)) else none
  | 20 => if fld w 0 3 = 0 then some (.fsub (pGuardOf w) (fld w 15 6) (fld w 9 6) (fld w 3 6)) else none
  | 21 => if fld w 0 3 = 0 then some (.fmul (pGuardOf w) (fld w 15 6) (fld w 9 6) (fld w 3 6)) else none
  | 22 => if fld w 0 3 = 0 then some (.ffma (pGuardOf w) (fld w 15 6) (fld w 9 6) (fld w 3 6)) else none
  | 23 => if fld w 0 3 = 0 then some (.fmin (pGuardOf w) (fld w 15 6) (fld w 9 6) (fld w 3 6)) else none
  | 24 => if fld w 0 3 = 0 then some (.fmax (pGuardOf w) (fld w 15 6) (fld w 9 6) (fld w 3 6)) else none
  | 25 => if fld w 19 2 = 0 then some (.fcmp (pGuardOf w) (fld w 15 4) (fld w 9 6) (fld w 3 6) (fld w 0 3)) else none
  | 26 => if fld w 0 9 = 0 then some (.fabs (pGuardOf w) (fld w 15 6) (fld w 9 6)) else none
  | 27 => if fld w 0 9 = 0 then some (.fneg (pGuardOf w) (fld w 15 6) (fld w 9 6)) else none
  | 28 => if fld w 0 9 = 0 then some (.frcp (pGuardOf w) (fld w 15 6) (fld w 9 6)) else none
  | 29 => if fld w 0 9 = 0 then some (.frsq (pGuardOf w) (fld w 15 6) (fld w 9 6)) else none
  | 30 => if fld w 0 9 = 0 then some (.fexp2 (pGuardOf w) (fld w 15 6) (fld w 9 6)) else none
  | 31 => if fld w 0 9 = 0 then some (.flog2 (pGuardOf w) (fld w 15 6) (fld w 9 6)) else none
  | 32 => if fld w 0 9 = 0 then some (.ftanh (pGuardOf w) (fld w 15 6) (fld w 9 6)) else none
  | 33 => some (.fcvt (pGuardOf w) (fld w 15 6) (fld w 9 6) (fld w 3 6) (fld w 0 3))
  | 34 => if fld w 3 6 = 0 then some (.frnd (pGuardOf w) (fld w 15 6) (fld w 9 6) (fld w 0 3)) else none
  | 35 => if fld w 2 1 = 0 then some (.bfma (pGuardOf w) (fld w 15 6) (fld w 9 6) (fld w 3 6) (fld w 0 2)) else none
  | 36 => if fld w 0 3 = 0 then some (.hadd2 (pGuardOf w) (fld w 15 6) (fld w 9 6) (fld w 3 6)) else none
  | 37 => if fld w 0 3 = 0 then some (.hmul2 (pGuardOf w) (fld w 15 6) (fld w 9 6) (fld w 3 6)) else none
  | 38 => if fld w 0 3 = 0 then some (.hfma2 (pGuardOf w) (fld w 15 6) (fld w 9 6) (fld w 3 6)) else none
  | 39 => if fld w 0 15 = 0 then some (.vset (pGuardOf w) (fld w 15 6)) else none
  | 40 => if fld w 0 15 = 0 then some (.vclr (pGuardOf w) (fld w 15 6)) else none
  | 41 => if fld w 2 1 = 0 ∧ fld w 19 2 = 0
    then some (.vtest (pGuardOf w) (fld w 15 4) (fld w 9 6) (fld w 3 6) (fld w 0 2)) else none
  | 42 => if fld w 0 3 = 0 then some (.vsel (pGuardOf w) (fld w 15 6) (fld w 9 6) (fld w 3 6)) else none
  | 43 => if fld w 0 9 = 0 then some (.vmov (pGuardOf w) (fld w 15 6) (fld w 9 6)) else none
  | 44 => if fld w 0 3 = 0 ∧ fld w 7 2 = 0 ∧ fld w 13 2 = 0 ∧ fld w 19 2 = 0
    then some (.pand (pGuardOf w) (fld w 15 4) (fld w 9 4) (fld w 3 4)) else none
  | 45 => if fld w 0 3 = 0 ∧ fld w 7 2 = 0 ∧ fld w 13 2 = 0 ∧ fld w 19 2 = 0
    then some (.por (pGuardOf w) (fld w 15 4) (fld w 9 4) (fld w 3 4)) else none
  | 46 => if fld w 0 3 = 0 ∧ fld w 7 2 = 0 ∧ fld w 13 2 = 0 ∧ fld w 19 2 = 0
    then some (.pxor (pGuardOf w) (fld w 15 4) (fld w 9 4) (fld w 3 4)) else none
  | 47 => if fld w 0 9 = 0 ∧ fld w 13 2 = 0 ∧ fld w 19 2 = 0
    then some (.pnot (pGuardOf w) (fld w 15 4) (fld w 9 4)) else none
  | 48 => if fld w 0 9 = 0 ∧ fld w 13 2 = 0 ∧ fld w 19 2 = 0
    then some (.pmov (pGuardOf w) (fld w 15 4) (fld w 9 4)) else none
  | 49 => if fld w 2 7 = 0 then some (.rand (pGuardOf w) (fld w 15 6) (fld w 9 6) (fld w 0 2)) else none
  | 50 => if fld w 0 21 = 0 then some (.lexit (pGuardOf w)) else none
  | 51 => if fld w 1 2 = 0
    then some (.smm (pGuardOf w) (fld w 19 2) (fld w 15 4) (fld w 9 6) (fld w 3 6) (bit w 0))
    else none
  | 52 => if fld w 1 2 = 0
    then some (.smms (pGuardOf w) (fld w 19 2) (fld w 15 4) (fld w 9 6) (fld w 3 6) (bit w 0))
    else none
  | 53 => if fld w 0 15 = 0 then some (.smz (pGuardOf w) (fld w 19 2) (fld w 15 4)) else none
  | 54 => if fld w 0 9 = 0 ∧ fld w 11 4 = 0
    then some (.smadd (pGuardOf w) (fld w 19 2) (fld w 15 4) (fld w 9 2)) else none
  | 55 => if fld w 3 4 = 0 ∧ fld w 9 6 = 0
    then some (.smrd (pGuardOf w) (fld w 15 6) (fld w 7 2) (fld w 0 3)) else none
  | 56 => if fld w 3 4 = 0 ∧ fld w 15 6 = 0
    then some (.smwr (pGuardOf w) (fld w 9 6) (fld w 7 2) (fld w 0 3)) else none
  | 57 => if fld w 2 1 = 0 ∧ fld w 7 12 = 0
    then some (.smout (pGuardOf w) (fld w 19 2) (fld w 3 4) (bit w 1) (bit w 0)) else none
  | 58 => if fld w 2 1 = 0 ∧ fld w 7 2 = 0 ∧ fld w 11 4 = 0
    then some (.smcmp (pGuardOf w) (fld w 19 2) (fld w 15 4) (fld w 9 2) (fld w 3 4) (fld w 0 2))
    else none
  | 59 => if fld w 0 3 = 0 ∧ fld w 7 1 = 0
    then some (.scmpr (pGuardOf w) (fld w 15 6) (fld w 9 6) (bit w 8) (fld w 3 4))
    else if fld w 0 3 = 1 ∧ fld w 7 1 = 0 ∧ fld w 9 6 = 0 then some (.scmprPair (pGuardOf w) (fld w 15 6) (bit w 8) (fld w 3 4)) else none
  | 60 => if fld w 1 4 = 0
    then some (.sexpn (pGuardOf w) (fld w 19 2) (fld w 15 4) (fld w 9 6) (fld w 5 4) (bit w 0))
    else none
  | 61 => if fld w 9 6 = 0
    then some (.bpack (pGuardOf w) (fld w 15 6) (fld w 7 2) (fld w 3 4) (bit w 2) (fld w 0 2))
    else none
  | 62 => if fld w 3 4 = 0 ∧ fld w 15 6 = 0
    then some (.bunpk (pGuardOf w) (fld w 9 6) (fld w 7 2) (bit w 2) (fld w 0 2)) else none
  | 63 => if fld w 3 6 = 0 ∧ fld w 11 4 = 0
    then some (.smred (pGuardOf w) (fld w 19 2) (fld w 15 4) (fld w 9 2) (fld w 0 3)) else none
  | _ => none

/-- The cell slot S3 (R56, R57). -/
def decodeCellB (w : Word) : Option Instr :=
  match (fld w 26 6).toNat with
  | 0 => if fld w 0 21 = 0 then some (.nopCell (pGuardOf w)) else none
  | 1 => if fld w 0 3 = 0 then some (.iadd (pGuardOf w) (fld w 15 6) (fld w 9 6) (fld w 3 6)) else none
  | 2 => if fld w 0 3 = 0 then some (.isub (pGuardOf w) (fld w 15 6) (fld w 9 6) (fld w 3 6)) else none
  | 3 => if fld w 0 3 = 0 then some (.imul (pGuardOf w) (fld w 15 6) (fld w 9 6) (fld w 3 6)) else none
  | 4 => if fld w 1 2 = 0 then some (.imulh (pGuardOf w) (fld w 15 6) (fld w 9 6) (fld w 3 6) (bit w 0)) else none
  | 5 => if fld w 0 3 = 0 then some (.iand (pGuardOf w) (fld w 15 6) (fld w 9 6) (fld w 3 6)) else none
  | 6 => if fld w 0 3 = 0 then some (.ior (pGuardOf w) (fld w 15 6) (fld w 9 6) (fld w 3 6)) else none
  | 7 => if fld w 0 3 = 0 then some (.ixor (pGuardOf w) (fld w 15 6) (fld w 9 6) (fld w 3 6)) else none
  | 8 => if fld w 0 3 = 0 then some (.ishl (pGuardOf w) (fld w 15 6) (fld w 9 6) (fld w 3 6)) else none
  | 9 => if fld w 0 3 = 0 then some (.ishr (pGuardOf w) (fld w 15 6) (fld w 9 6) (fld w 3 6)) else none
  | 10 => if fld w 0 3 = 0 then some (.isra (pGuardOf w) (fld w 15 6) (fld w 9 6) (fld w 3 6)) else none
  | 11 => if fld w 1 2 = 0 then some (.imin (pGuardOf w) (fld w 15 6) (fld w 9 6) (fld w 3 6) (bit w 0)) else none
  | 12 => if fld w 1 2 = 0 then some (.imax (pGuardOf w) (fld w 15 6) (fld w 9 6) (fld w 3 6) (bit w 0)) else none
  | 13 => if fld w 19 2 = 0 then some (.icmp (pGuardOf w) (fld w 15 4) (fld w 9 6) (fld w 3 6) (fld w 0 3)) else none
  | 14 => if fld w 0 3 = 0 then some (.isel (pGuardOf w) (fld w 15 6) (fld w 9 6) (fld w 3 6)) else none
  | 15 => some (.iaddi (pGuardOf w) (fld w 15 6) (fld w 0 15))
  | 16 => some (.movi (pGuardOf w) (fld w 15 6) (fld w 0 15))
  | 17 => some (.movhi (pGuardOf w) (fld w 15 6) (fld w 0 15))
  | 18 => if fld w 0 9 = 0 then some (.movCell (pGuardOf w) (fld w 15 6) (fld w 9 6)) else none
  | 19 => if fld w 0 3 = 0 then some (.fadd (pGuardOf w) (fld w 15 6) (fld w 9 6) (fld w 3 6)) else none
  | 20 => if fld w 0 3 = 0 then some (.fsub (pGuardOf w) (fld w 15 6) (fld w 9 6) (fld w 3 6)) else none
  | 21 => if fld w 0 3 = 0 then some (.fmul (pGuardOf w) (fld w 15 6) (fld w 9 6) (fld w 3 6)) else none
  | 22 => if fld w 0 3 = 0 then some (.ffma (pGuardOf w) (fld w 15 6) (fld w 9 6) (fld w 3 6)) else none
  | 23 => if fld w 0 3 = 0 then some (.fmin (pGuardOf w) (fld w 15 6) (fld w 9 6) (fld w 3 6)) else none
  | 24 => if fld w 0 3 = 0 then some (.fmax (pGuardOf w) (fld w 15 6) (fld w 9 6) (fld w 3 6)) else none
  | 25 => if fld w 19 2 = 0 then some (.fcmp (pGuardOf w) (fld w 15 4) (fld w 9 6) (fld w 3 6) (fld w 0 3)) else none
  | 26 => if fld w 0 9 = 0 then some (.fabs (pGuardOf w) (fld w 15 6) (fld w 9 6)) else none
  | 27 => if fld w 0 9 = 0 then some (.fneg (pGuardOf w) (fld w 15 6) (fld w 9 6)) else none
  | 28 => if fld w 0 9 = 0 then some (.frcp (pGuardOf w) (fld w 15 6) (fld w 9 6)) else none
  | 29 => if fld w 0 9 = 0 then some (.frsq (pGuardOf w) (fld w 15 6) (fld w 9 6)) else none
  | 30 => if fld w 0 9 = 0 then some (.fexp2 (pGuardOf w) (fld w 15 6) (fld w 9 6)) else none
  | 31 => if fld w 0 9 = 0 then some (.flog2 (pGuardOf w) (fld w 15 6) (fld w 9 6)) else none
  | 32 => if fld w 0 9 = 0 then some (.ftanh (pGuardOf w) (fld w 15 6) (fld w 9 6)) else none
  | 33 => some (.fcvt (pGuardOf w) (fld w 15 6) (fld w 9 6) (fld w 3 6) (fld w 0 3))
  | 34 => if fld w 3 6 = 0 then some (.frnd (pGuardOf w) (fld w 15 6) (fld w 9 6) (fld w 0 3)) else none
  | 35 => if fld w 2 1 = 0 then some (.bfma (pGuardOf w) (fld w 15 6) (fld w 9 6) (fld w 3 6) (fld w 0 2)) else none
  | 36 => if fld w 0 3 = 0 then some (.hadd2 (pGuardOf w) (fld w 15 6) (fld w 9 6) (fld w 3 6)) else none
  | 37 => if fld w 0 3 = 0 then some (.hmul2 (pGuardOf w) (fld w 15 6) (fld w 9 6) (fld w 3 6)) else none
  | 38 => if fld w 0 3 = 0 then some (.hfma2 (pGuardOf w) (fld w 15 6) (fld w 9 6) (fld w 3 6)) else none
  | 39 => if fld w 0 15 = 0 then some (.vset (pGuardOf w) (fld w 15 6)) else none
  | 40 => if fld w 0 15 = 0 then some (.vclr (pGuardOf w) (fld w 15 6)) else none
  | 41 => if fld w 2 1 = 0 ∧ fld w 19 2 = 0
    then some (.vtest (pGuardOf w) (fld w 15 4) (fld w 9 6) (fld w 3 6) (fld w 0 2)) else none
  | 42 => if fld w 0 3 = 0 then some (.vsel (pGuardOf w) (fld w 15 6) (fld w 9 6) (fld w 3 6)) else none
  | 43 => if fld w 0 9 = 0 then some (.vmov (pGuardOf w) (fld w 15 6) (fld w 9 6)) else none
  | 44 => if fld w 0 3 = 0 ∧ fld w 7 2 = 0 ∧ fld w 13 2 = 0 ∧ fld w 19 2 = 0
    then some (.pand (pGuardOf w) (fld w 15 4) (fld w 9 4) (fld w 3 4)) else none
  | 45 => if fld w 0 3 = 0 ∧ fld w 7 2 = 0 ∧ fld w 13 2 = 0 ∧ fld w 19 2 = 0
    then some (.por (pGuardOf w) (fld w 15 4) (fld w 9 4) (fld w 3 4)) else none
  | 46 => if fld w 0 3 = 0 ∧ fld w 7 2 = 0 ∧ fld w 13 2 = 0 ∧ fld w 19 2 = 0
    then some (.pxor (pGuardOf w) (fld w 15 4) (fld w 9 4) (fld w 3 4)) else none
  | 47 => if fld w 0 9 = 0 ∧ fld w 13 2 = 0 ∧ fld w 19 2 = 0
    then some (.pnot (pGuardOf w) (fld w 15 4) (fld w 9 4)) else none
  | 48 => if fld w 0 9 = 0 ∧ fld w 13 2 = 0 ∧ fld w 19 2 = 0
    then some (.pmov (pGuardOf w) (fld w 15 4) (fld w 9 4)) else none
  | 49 => if fld w 2 7 = 0 then some (.rand (pGuardOf w) (fld w 15 6) (fld w 9 6) (fld w 0 2)) else none
  | 50 => if fld w 0 21 = 0 then some (.lexit (pGuardOf w)) else none
  | 51 => some (.ldc (pGuardOf w) (fld w 15 6) (fld w 9 6) (fld w 0 9))
  | 52 => some (.stc (pGuardOf w) (fld w 15 6) (fld w 9 6) (fld w 0 9))
  | 53 => some (.ldc2 (pGuardOf w) (fld w 15 6) (fld w 9 6) (fld w 0 9))
  | 54 => some (.stc2 (pGuardOf w) (fld w 15 6) (fld w 9 6) (fld w 0 9))
  | 55 => some (.ldca (pGuardOf w) (fld w 15 6) (fld w 9 6) (fld w 0 9))
  | 56 => some (.stca (pGuardOf w) (fld w 15 6) (fld w 9 6) (fld w 0 9))
  | 57 => if fld w 2 7 = 0 then some (.comm (pGuardOf w) (fld w 15 6) (fld w 9 6) (fld w 0 2)) else none
  | _ => none

/-- The selector slot S4 (R63). -/
def decodeSelector (w : Word) : Option Instr :=
  match (fld w 28 4).toNat with
  | 0 => if fld w 0 28 = 0 then some (.nopSelector) else none
  | 1 => if fld w 0 4 = 0
    then some (.selSelector (fld w 24 4) (fld w 20 4) (fld w 14 6) (fld w 12 2) (fld w 4 8))
    else none
  | 2 => if fld w 4 10 = 0 then some (.mset (fld w 24 4) (fld w 20 4) (fld w 14 6) (fld w 0 4)) else none
  | 3 => if fld w 4 6 = 0
    then some (.mrange (fld w 24 4) (fld w 20 4) (fld w 15 5) (fld w 10 5) (fld w 0 4)) else none
  | 4 => if fld w 4 4 = 0
    then some (.mop (fld w 24 4) (fld w 20 4) (fld w 16 4) (fld w 12 4) (fld w 8 4) (fld w 0 4))
    else none
  | 5 => if fld w 4 14 = 0 then some (.mflag (fld w 24 4) (fld w 20 4) (fld w 18 2) (fld w 0 4)) else none
  | 6 => if fld w 0 12 = 0 then some (.tscale (fld w 24 4) (fld w 20 4) (fld w 14 6) (fld w 12 2)) else none
  | _ => none

/-- The inject face slot S5 (R64, R173). -/
def decodeInject (w : Word) : Option Instr :=
  match (fld w 27 5).toNat with
  | 0 => if fld w 0 23 = 0 then some (.nopInject (qGuardOf w)) else none
  | 1 => if fld w 0 4 = 0 ∧ fld w 5 12 = 0 then some (.ficfg (qGuardOf w) (fld w 17 6) (bit w 4)) else none
  | 2 => if fld w 1 3 = 0 ∧ fld w 5 18 = 0 then some (.figo (qGuardOf w) (bit w 4) (bit w 0)) else none
  | 3 => if fld w 0 4 = 0 ∧ fld w 5 18 = 0 then some (.fihalt (qGuardOf w) (bit w 4)) else none
  | 4 => if fld w 2 2 = 0 ∧ fld w 5 12 = 0
    then some (.fipad (qGuardOf w) (fld w 17 6) (bit w 4) (fld w 0 2)) else none
  | 5 => if fld w 3 1 = 0 ∧ fld w 5 18 = 0 then some (.fisel (qGuardOf w) (bit w 4) (fld w 0 3)) else none
  | 6 => if fld w 1 3 = 0 ∧ fld w 5 6 = 0
    then some (.fiqb (qGuardOf w) (fld w 17 6) (fld w 11 6) (bit w 4) (bit w 0)) else none
  | _ => none

/-- The drain face slot S6 (R64, R179). -/
def decodeDrain (w : Word) : Option Instr :=
  match (fld w 27 5).toNat with
  | 0 => if fld w 0 23 = 0 then some (.nopDrain (qGuardOf w)) else none
  | 1 => if fld w 0 4 = 0 ∧ fld w 5 12 = 0 then some (.fdcfg (qGuardOf w) (fld w 17 6) (bit w 4)) else none
  | 2 => if fld w 0 4 = 0 ∧ fld w 5 18 = 0 then some (.fdgo (qGuardOf w) (bit w 4)) else none
  | 3 => if fld w 0 4 = 0 ∧ fld w 5 18 = 0 then some (.fdhalt (qGuardOf w) (bit w 4)) else none
  | 4 => if fld w 0 4 = 0 ∧ fld w 5 12 = 0 then some (.fdchain (qGuardOf w) (fld w 17 6) (bit w 4)) else none
  | 5 => if fld w 0 4 = 0 ∧ fld w 5 12 = 0 then some (.fdflush (qGuardOf w) (fld w 17 6) (bit w 4)) else none
  | _ => none

/-- The engine slot S7 (R64, R180). -/
def decodeEngine (w : Word) : Option Instr :=
  match (fld w 27 5).toNat with
  | 0 => if fld w 0 23 = 0 then some (.nopEngine (qGuardOf w)) else none
  | 1 => if fld w 3 2 = 0 then some (.cpy (qGuardOf w) (fld w 17 6) (fld w 11 6) (fld w 5 6) (fld w 0 3)) else none
  | 2 => if fld w 3 2 = 0 then some (.cpya (qGuardOf w) (fld w 17 6) (fld w 11 6) (fld w 5 6) (fld w 0 3)) else none
  | 3 => if fld w 4 1 = 0
    then some (.gath (qGuardOf w) (fld w 17 6) (fld w 11 6) (fld w 5 6) (bit w 3) (fld w 0 3))
    else none
  | 4 => if fld w 4 1 = 0
    then some (.scat (qGuardOf w) (fld w 17 6) (fld w 11 6) (fld w 5 6) (bit w 3) (fld w 0 3))
    else none
  | 5 => if fld w 3 2 = 0 then some (.red (qGuardOf w) (fld w 17 6) (fld w 11 6) (fld w 5 6) (fld w 0 3)) else none
  | 6 => if fld w 3 2 = 0 then some (.ared (qGuardOf w) (fld w 17 6) (fld w 11 6) (fld w 5 6) (fld w 0 3)) else none
  | 7 => if fld w 3 2 = 0 then some (.bcst (qGuardOf w) (fld w 17 6) (fld w 11 6) (fld w 5 6) (fld w 0 3)) else none
  | 8 => if fld w 3 2 = 0 then some (.fill (qGuardOf w) (fld w 17 6) (fld w 11 6) (fld w 5 6) (fld w 0 3)) else none
  | 9 => if fld w 3 8 = 0 then some (.ccan (qGuardOf w) (fld w 17 6) (fld w 11 6) (fld w 0 3)) else none
  | 10 => if fld w 3 2 = 0 then some (.ckpt (qGuardOf w) (fld w 17 6) (fld w 11 6) (fld w 5 6) (fld w 0 3)) else none
  | 11 => if fld w 0 11 = 0 then some (.sortb (qGuardOf w) (fld w 17 6) (fld w 11 6)) else none
  | 12 => if fld w 0 11 = 0 then some (.sortl (qGuardOf w) (fld w 17 6) (fld w 11 6)) else none
  | 13 => if fld w 0 11 = 0 then some (.sortm (qGuardOf w) (fld w 17 6) (fld w 11 6)) else none
  | 14 => if fld w 0 11 = 0 then some (.sortd (qGuardOf w) (fld w 17 6) (fld w 11 6)) else none
  | 15 => if fld w 0 5 = 0 then some (.post (qGuardOf w) (fld w 17 6) (fld w 11 6) (fld w 5 6)) else none
  | 16 => if fld w 3 2 = 0 then some (.precv (qGuardOf w) (fld w 17 6) (fld w 11 6) (fld w 5 6) (fld w 0 3)) else none
  | _ => none
/-- A word as its class's map reads it, before the field values are checked. -/
def decodeRaw (c : SlotClass) (w : Word) : Option Instr :=
  match c with
  | .control => decodeControl w
  | .scalar => decodeScalar w
  | .cellA => decodeCellA w
  | .cellB => decodeCellB w
  | .selector => decodeSelector w
  | .inject => decodeInject w
  | .drain => decodeDrain w
  | .engine => decodeEngine w

/-- Slot decoding (R65): none when the slot offends by itself. -/
def decodeSlot (c : SlotClass) (w : Word) : Option Instr :=
  match decodeRaw c w with
  | some i => if Machine.fieldsOk i then some i else none
  | none => none

/-! ## What an offending slot names (R65, R66) -/

/-- The reserved bits of a lane operation, by its operation value (R56, R57). -/
def laneReserved (op : Nat) : Nat :=
  match op with
  | 0 | 50 => 0x1FFFFF
  | 1 | 2 | 3 | 5 | 6 | 7 | 8 | 9 | 10 | 14 | 19 | 20 | 21 | 22 | 23 | 24 | 36 | 37 | 38 | 42 => 0x7
  | 4 | 11 | 12 => 0x6
  | 13 | 25 => 0x180000
  | 18 | 26 | 27 | 28 | 29 | 30 | 31 | 32 | 43 => 0x1FF
  | 34 => 0x1F8
  | 35 => 0x4
  | 39 | 40 => 0x7FFF
  | 41 => 0x180004
  | 44 | 45 | 46 => 0x186187
  | 47 | 48 => 0x1861FF
  | 49 => 0x1FC
  | _ => 0

/-- The reserved bits of a tile instruction; those of SCMPR depend on its form (R56, R57, R217). -/
def tileReserved (op : Nat) (pair : Bool) : Nat :=
  match op with
  | 51 | 52 => 0x6
  | 53 => 0x7FFF
  | 54 => 0x79FF
  | 55 => 0x7E78
  | 56 | 62 => 0x1F8078
  | 57 => 0x7FF84
  | 58 => 0x7984
  | 59 => if pair then 0x7E86 else 0x86
  | 60 => 0x1E
  | 61 => 0x7E00
  | 63 => 0x79F8
  | _ => 0

/-- The reserved bits of an S0 word; those of ACQ depend on W (R61). -/
def controlReserved (op : Nat) (wait : Bool) : Nat :=
  match op with
  | 0 | 4 | 8 | 9 | 23 | 24 | 26 | 30 => 0x7FFFFF
  | 3 | 5 | 12 | 21 | 22 => 0x1FFFF
  | 10 => 0x7FFFF
  | 11 => 0x3FFFFF
  | 13 => 0x1FFF
  | 14 => 0x3FFF
  | 15 => 0xFF
  | 16 => 0xFFF
  | 17 => 0x3FFFF
  | 18 => 0xFFFFF
  | 19 => if wait then 0xF else 0x1FFF
  | 20 | 29 => 0x7FF
  | 25 => 0x7FFF
  | 27 | 28 => 0x1F
  | 31 => 0xFFFF
  | _ => 0

/-- The reserved bits of an S1 word (R58, R60). -/
def scalarReserved (op : Nat) : Nat :=
  match op with
  | 0 => 0x3FFFFF
  | 3 | 14 | 15 | 16 | 29 | 30 | 31 | 35 | 36 | 37 | 38 | 39 | 40 | 41 => 0
  | 20 | 21 | 22 => 0xFFC0
  | 32 | 33 | 34 => 0x3FE
  | 42 | 43 | 44 | 45 | 46 | 47 | 48 | 49 | 50 => 0x4
  | _ => 0xC

/-- The reserved bits of an S4 word (R63). -/
def selectorReserved (op : Nat) : Nat :=
  match op with
  | 0 => 0xFFFFFFF
  | 1 => 0xF
  | 2 => 0x3FF0
  | 3 => 0x3F0
  | 4 => 0xF0
  | 5 => 0x3FFF0
  | 6 => 0xFFF
  | _ => 0

/-- The reserved bits of an S5, S6 or S7 word (R64). -/
def injectReserved (op : Nat) : Nat :=
  match op with
  | 0 => 0x7FFFFF
  | 1 => 0x1FFEF
  | 2 => 0x7FFFEE
  | 3 => 0x7FFFEF
  | 4 => 0x1FFEC
  | 5 => 0x7FFFE8
  | 6 => 0x7EE
  | _ => 0
def drainReserved (op : Nat) : Nat :=
  match op with
  | 0 => 0x7FFFFF
  | 1 | 4 | 5 => 0x1FFEF
  | 2 | 3 => 0x7FFFEF
  | _ => 0
def engineReserved (op : Nat) : Nat :=
  match op with
  | 0 => 0x7FFFFF
  | 3 | 4 => 0x10
  | 9 => 0x7F8
  | 11 | 12 | 13 | 14 => 0x7FF
  | 15 => 0x1F
  | _ => 0x18

/-- The reserved bits of a slot's word. -/
def reservedBits (c : SlotClass) (w : Word) : Word :=
  let op5 := (fld w 27 5).toNat
  let op6 := (fld w 26 6).toNat
  BitVec.ofNat 32 (match c with
    | .control => controlReserved op5 (bit w 13)
    | .scalar => scalarReserved op6
    | .cellA => if op6 < 51 then laneReserved op6 else tileReserved op6 (bit w 0)
    | .cellB => if op6 == 57 then 0x1FC else laneReserved op6
    | .selector => selectorReserved (fld w 28 4).toNat
    | .inject => injectReserved op5
    | .drain => drainReserved op5
    | .engine => engineReserved op5)

/-- A word with its reserved bits clear, with a size that LDA and STL have, and with an illegal quad for a quad code of SEXPN that is no
multiple of 4 (R207). -/
def cleanWord (c : SlotClass) (w : Word) : Word :=
  let op := (fld w 26 6).toNat
  (w &&& ~~~reservedBits c w) ||| (if c == .scalar && (op == 38 || op == 39) then 2 else 0)
    ||| (if c == .cellA && op == 60 && fld w 3 2 != 0 then 0x1E0 else 0)

/-- The instruction by which a slot names its registers, whether it offends or not: a reserved bit or an unassigned field value takes nothing
from what the other fields name, and an undefined operation or an illegal pair or quad code names nothing (R66; log entry 44, DEDUCED). -/
def namesOf (c : SlotClass) (w : Word) : Option Instr := decodeRaw c (cleanWord c w)

/-- The word of a slot instruction, written from the field tables (R56, R58, R61, R63, R64). Events have none. -/
def encode : Instr → Option Word
  | .nopControl g => some (0#5 ++ (.ofBool g.neg : BitVec 1) ++ g.pred ++ 0#23)
  | .br g c o => some (1#5 ++ (.ofBool g.neg : BitVec 1) ++ g.pred ++ c ++ o)
  | .call g c o => some (2#5 ++ (.ofBool g.neg : BitVec 1) ++ g.pred ++ c ++ o)
  | .calli g s => some (3#5 ++ (.ofBool g.neg : BitVec 1) ++ g.pred ++ s ++ 0#17)
  | .ret g => some (4#5 ++ (.ofBool g.neg : BitVec 1) ++ g.pred ++ 0#23)
  | .jmpi g s => some (5#5 ++ (.ofBool g.neg : BitVec 1) ++ g.pred ++ s ++ 0#17)
  | .loop g s k r e => some (6#5 ++ (.ofBool g.neg : BitVec 1) ++ g.pred ++ s ++ k ++ r ++ e)
  | .loops g i k r e => some (7#5 ++ (.ofBool g.neg : BitVec 1) ++ g.pred ++ i ++ k ++ r ++ e)
  | .lbrk g => some (8#5 ++ (.ofBool g.neg : BitVec 1) ++ g.pred ++ 0#23)
  | .lbrka g => some (9#5 ++ (.ofBool g.neg : BitVec 1) ++ g.pred ++ 0#23)
  | .rotcfg g x y => some (10#5 ++ (.ofBool g.neg : BitVec 1) ++ g.pred ++ x ++ y ++ 0#19)
  | .wave g w =>
    some (11#5 ++ (.ofBool g.neg : BitVec 1) ++ g.pred ++ (.ofBool w : BitVec 1) ++ 0#22)
  | .fmtset g s => some (12#5 ++ (.ofBool g.neg : BitVec 1) ++ g.pred ++ s ++ 0#17)
  | .semset g e s => some (13#5 ++ (.ofBool g.neg : BitVec 1) ++ g.pred ++ e ++ s ++ 0#13)
  | .waitf g t q => some (14#5 ++ (.ofBool g.neg : BitVec 1) ++ g.pred ++ t ++ q ++ 0#14)
  | .waitr g a t q => some (15#5 ++ (.ofBool g.neg : BitVec 1) ++ g.pred ++ a ++ t ++ q ++ 0#8)
  | .drain g p t q => some (16#5 ++ (.ofBool g.neg : BitVec 1) ++ g.pred ++ p ++ t ++ q ++ 0#12)
  | .fence g s k => some (17#5 ++ (.ofBool g.neg : BitVec 1) ++ g.pred ++ s ++ k ++ 0#18)
  | .rel g s => some (18#5 ++ (.ofBool g.neg : BitVec 1) ++ g.pred ++ s ++ 0#20)
  | .acq g s a => some (19#5 ++ (.ofBool g.neg : BitVec 1) ++ g.pred ++ s ++ a ++ 0#14)
  | .acqW g s a t q =>
    some (19#5 ++ (.ofBool g.neg : BitVec 1) ++ g.pred ++ s ++ a ++ 1#1 ++ t ++ q ++ 0#4)
  | .bar g s t q => some (20#5 ++ (.ofBool g.neg : BitVec 1) ++ g.pred ++ s ++ t ++ q ++ 0#11)
  | .launch g s => some (21#5 ++ (.ofBool g.neg : BitVec 1) ++ g.pred ++ s ++ 0#17)
  | .signal g s => some (22#5 ++ (.ofBool g.neg : BitVec 1) ++ g.pred ++ s ++ 0#17)
  | .yield g => some (23#5 ++ (.ofBool g.neg : BitVec 1) ++ g.pred ++ 0#23)
  | .done g => some (24#5 ++ (.ofBool g.neg : BitVec 1) ++ g.pred ++ 0#23)
  | .trap g c => some (25#5 ++ (.ofBool g.neg : BitVec 1) ++ g.pred ++ c ++ 0#15)
  | .rft g => some (26#5 ++ (.ofBool g.neg : BitVec 1) ++ g.pred ++ 0#23)
  | .sysrd g d r => some (27#5 ++ (.ofBool g.neg : BitVec 1) ++ g.pred ++ d ++ r ++ 0#5)
  | .syswr g s r => some (28#5 ++ (.ofBool g.neg : BitVec 1) ++ g.pred ++ s ++ r ++ 0#5)
  | .docket g a b => some (29#5 ++ (.ofBool g.neg : BitVec 1) ++ g.pred ++ a ++ b ++ 0#11)
  | .dcheck g => some (30#5 ++ (.ofBool g.neg : BitVec 1) ++ g.pred ++ 0#23)
  | .stamp g d => some (31#5 ++ (.ofBool g.neg : BitVec 1) ++ g.pred ++ d ++ 0#17)
  | .stampS g d => some (31#5 ++ (.ofBool g.neg : BitVec 1) ++ g.pred ++ d ++ 65536#17)
  | .nopScalar g => some (0#6 ++ (.ofBool g.neg : BitVec 1) ++ g.pred ++ 0#22)
  | .add g d a b y x =>
    some (1#6 ++ (.ofBool g.neg : BitVec 1) ++ g.pred ++ d ++ a ++ b ++ 0#2 ++ (.ofBool y : BitVec 1) ++ (.ofBool x : BitVec 1))
  | .sub g d a b y x =>
    some (2#6 ++ (.ofBool g.neg : BitVec 1) ++ g.pred ++ d ++ a ++ b ++ 0#2 ++ (.ofBool y : BitVec 1) ++ (.ofBool x : BitVec 1))
  | .addi g d i => some (3#6 ++ (.ofBool g.neg : BitVec 1) ++ g.pred ++ d ++ i)
  | .mul g d a b y x =>
    some (4#6 ++ (.ofBool g.neg : BitVec 1) ++ g.pred ++ d ++ a ++ b ++ 0#2 ++ (.ofBool y : BitVec 1) ++ (.ofBool x : BitVec 1))
  | .mulh g d a b y x =>
    some (5#6 ++ (.ofBool g.neg : BitVec 1) ++ g.pred ++ d ++ a ++ b ++ 0#2 ++ (.ofBool y : BitVec 1) ++ (.ofBool x : BitVec 1))
  | .mulhu g d a b y x =>
    some (6#6 ++ (.ofBool g.neg : BitVec 1) ++ g.pred ++ d ++ a ++ b ++ 0#2 ++ (.ofBool y : BitVec 1) ++ (.ofBool x : BitVec 1))
  | .div g d a b y x =>
    some (7#6 ++ (.ofBool g.neg : BitVec 1) ++ g.pred ++ d ++ a ++ b ++ 0#2 ++ (.ofBool y : BitVec 1) ++ (.ofBool x : BitVec 1))
  | .divu g d a b y x =>
    some (8#6 ++ (.ofBool g.neg : BitVec 1) ++ g.pred ++ d ++ a ++ b ++ 0#2 ++ (.ofBool y : BitVec 1) ++ (.ofBool x : BitVec 1))
  | .rem g d a b y x =>
    some (9#6 ++ (.ofBool g.neg : BitVec 1) ++ g.pred ++ d ++ a ++ b ++ 0#2 ++ (.ofBool y : BitVec 1) ++ (.ofBool x : BitVec 1))
  | .remu g d a b y x =>
    some (10#6 ++ (.ofBool g.neg : BitVec 1) ++ g.pred ++ d ++ a ++ b ++ 0#2 ++ (.ofBool y : BitVec 1) ++ (.ofBool x : BitVec 1))
  | .and g d a b y x =>
    some (11#6 ++ (.ofBool g.neg : BitVec 1) ++ g.pred ++ d ++ a ++ b ++ 0#2 ++ (.ofBool y : BitVec 1) ++ (.ofBool x : BitVec 1))
  | .or g d a b y x =>
    some (12#6 ++ (.ofBool g.neg : BitVec 1) ++ g.pred ++ d ++ a ++ b ++ 0#2 ++ (.ofBool y : BitVec 1) ++ (.ofBool x : BitVec 1))
  | .xor g d a b y x =>
    some (13#6 ++ (.ofBool g.neg : BitVec 1) ++ g.pred ++ d ++ a ++ b ++ 0#2 ++ (.ofBool y : BitVec 1) ++ (.ofBool x : BitVec 1))
  | .andi g d i => some (14#6 ++ (.ofBool g.neg : BitVec 1) ++ g.pred ++ d ++ i)
  | .ori g d i => some (15#6 ++ (.ofBool g.neg : BitVec 1) ++ g.pred ++ d ++ i)
  | .xori g d i => some (16#6 ++ (.ofBool g.neg : BitVec 1) ++ g.pred ++ d ++ i)
  | .shl g d a b y x =>
    some (17#6 ++ (.ofBool g.neg : BitVec 1) ++ g.pred ++ d ++ a ++ b ++ 0#2 ++ (.ofBool y : BitVec 1) ++ (.ofBool x : BitVec 1))
  | .shr g d a b y x =>
    some (18#6 ++ (.ofBool g.neg : BitVec 1) ++ g.pred ++ d ++ a ++ b ++ 0#2 ++ (.ofBool y : BitVec 1) ++ (.ofBool x : BitVec 1))
  | .sra g d a b y x =>
    some (19#6 ++ (.ofBool g.neg : BitVec 1) ++ g.pred ++ d ++ a ++ b ++ 0#2 ++ (.ofBool y : BitVec 1) ++ (.ofBool x : BitVec 1))
  | .shli g d i => some (20#6 ++ (.ofBool g.neg : BitVec 1) ++ g.pred ++ d ++ 0#10 ++ i)
  | .shri g d i => some (21#6 ++ (.ofBool g.neg : BitVec 1) ++ g.pred ++ d ++ 0#10 ++ i)
  | .srai g d i => some (22#6 ++ (.ofBool g.neg : BitVec 1) ++ g.pred ++ d ++ 0#10 ++ i)
  | .min g d a b y x =>
    some (23#6 ++ (.ofBool g.neg : BitVec 1) ++ g.pred ++ d ++ a ++ b ++ 0#2 ++ (.ofBool y : BitVec 1) ++ (.ofBool x : BitVec 1))
  | .max g d a b y x =>
    some (24#6 ++ (.ofBool g.neg : BitVec 1) ++ g.pred ++ d ++ a ++ b ++ 0#2 ++ (.ofBool y : BitVec 1) ++ (.ofBool x : BitVec 1))
  | .minu g d a b y x =>
    some (25#6 ++ (.ofBool g.neg : BitVec 1) ++ g.pred ++ d ++ a ++ b ++ 0#2 ++ (.ofBool y : BitVec 1) ++ (.ofBool x : BitVec 1))
  | .maxu g d a b y x =>
    some (26#6 ++ (.ofBool g.neg : BitVec 1) ++ g.pred ++ d ++ a ++ b ++ 0#2 ++ (.ofBool y : BitVec 1) ++ (.ofBool x : BitVec 1))
  | .selScalar g d a b y x =>
    some (27#6 ++ (.ofBool g.neg : BitVec 1) ++ g.pred ++ d ++ a ++ b ++ 0#2 ++ (.ofBool y : BitVec 1) ++ (.ofBool x : BitVec 1))
  | .cmp g c q a b y x =>
    some (28#6 ++ (.ofBool g.neg : BitVec 1) ++ g.pred ++ c ++ q ++ a ++ b ++ 0#2 ++ (.ofBool y : BitVec 1) ++ (.ofBool x : BitVec 1))
  | .cmpi g c q a i => some (29#6 ++ (.ofBool g.neg : BitVec 1) ++ g.pred ++ c ++ q ++ a ++ i)
  | .li g d i => some (30#6 ++ (.ofBool g.neg : BitVec 1) ++ g.pred ++ d ++ i)
  | .lui g d i => some (31#6 ++ (.ofBool g.neg : BitVec 1) ++ g.pred ++ d ++ i)
  | .movScalar g d a x =>
    some (32#6 ++ (.ofBool g.neg : BitVec 1) ++ g.pred ++ d ++ a ++ 0#9 ++ (.ofBool x : BitVec 1))
  | .clz g d a x =>
    some (33#6 ++ (.ofBool g.neg : BitVec 1) ++ g.pred ++ d ++ a ++ 0#9 ++ (.ofBool x : BitVec 1))
  | .popc g d a x =>
    some (34#6 ++ (.ofBool g.neg : BitVec 1) ++ g.pred ++ d ++ a ++ 0#9 ++ (.ofBool x : BitVec 1))
  | .lea g d a b h y x =>
    some (35#6 ++ (.ofBool g.neg : BitVec 1) ++ g.pred ++ d ++ a ++ b ++ h ++ (.ofBool y : BitVec 1) ++ (.ofBool x : BitVec 1))
  | .ld g d b o z => some (36#6 ++ (.ofBool g.neg : BitVec 1) ++ g.pred ++ d ++ b ++ o ++ z)
  | .st g d b o z => some (37#6 ++ (.ofBool g.neg : BitVec 1) ++ g.pred ++ d ++ b ++ o ++ z)
  | .lda g d b o z =>
    some (38#6 ++ (.ofBool g.neg : BitVec 1) ++ g.pred ++ d ++ b ++ o ++ 1#1 ++ (.ofBool z : BitVec 1))
  | .stl g d b o z =>
    some (39#6 ++ (.ofBool g.neg : BitVec 1) ++ g.pred ++ d ++ b ++ o ++ 1#1 ++ (.ofBool z : BitVec 1))
  | .ldlast g d b o z => some (40#6 ++ (.ofBool g.neg : BitVec 1) ++ g.pred ++ d ++ b ++ o ++ z)
  | .pref g h b o z => some (41#6 ++ (.ofBool g.neg : BitVec 1) ++ g.pred ++ h ++ b ++ o ++ z)
  | .aadd g d a b w y x =>
    some (42#6 ++ (.ofBool g.neg : BitVec 1) ++ g.pred ++ d ++ a ++ b ++ (.ofBool w : BitVec 1) ++ 0#1 ++ (.ofBool y : BitVec 1) ++ (.ofBool x : BitVec 1))
  | .amin g d a b w y x =>
    some (43#6 ++ (.ofBool g.neg : BitVec 1) ++ g.pred ++ d ++ a ++ b ++ (.ofBool w : BitVec 1) ++ 0#1 ++ (.ofBool y : BitVec 1) ++ (.ofBool x : BitVec 1))
  | .amax g d a b w y x =>
    some (44#6 ++ (.ofBool g.neg : BitVec 1) ++ g.pred ++ d ++ a ++ b ++ (.ofBool w : BitVec 1) ++ 0#1 ++ (.ofBool y : BitVec 1) ++ (.ofBool x : BitVec 1))
  | .aand g d a b w y x =>
    some (45#6 ++ (.ofBool g.neg : BitVec 1) ++ g.pred ++ d ++ a ++ b ++ (.ofBool w : BitVec 1) ++ 0#1 ++ (.ofBool y : BitVec 1) ++ (.ofBool x : BitVec 1))
  | .aor g d a b w y x =>
    some (46#6 ++ (.ofBool g.neg : BitVec 1) ++ g.pred ++ d ++ a ++ b ++ (.ofBool w : BitVec 1) ++ 0#1 ++ (.ofBool y : BitVec 1) ++ (.ofBool x : BitVec 1))
  | .axor g d a b w y x =>
    some (47#6 ++ (.ofBool g.neg : BitVec 1) ++ g.pred ++ d ++ a ++ b ++ (.ofBool w : BitVec 1) ++ 0#1 ++ (.ofBool y : BitVec 1) ++ (.ofBool x : BitVec 1))
  | .aswap g d a b w y x =>
    some (48#6 ++ (.ofBool g.neg : BitVec 1) ++ g.pred ++ d ++ a ++ b ++ (.ofBool w : BitVec 1) ++ 0#1 ++ (.ofBool y : BitVec 1) ++ (.ofBool x : BitVec 1))
  | .acas g d a b w y x =>
    some (49#6 ++ (.ofBool g.neg : BitVec 1) ++ g.pred ++ d ++ a ++ b ++ (.ofBool w : BitVec 1) ++ 0#1 ++ (.ofBool y : BitVec 1) ++ (.ofBool x : BitVec 1))
  | .afadd g d a b w y x =>
    some (50#6 ++ (.ofBool g.neg : BitVec 1) ++ g.pred ++ d ++ a ++ b ++ (.ofBool w : BitVec 1) ++ 0#1 ++ (.ofBool y : BitVec 1) ++ (.ofBool x : BitVec 1))
  | .nopSelector => some (0#32)
  | .selSelector r c s p a => some (1#4 ++ r ++ c ++ s ++ p ++ a ++ 0#4)
  | .mset r c s d => some (2#4 ++ r ++ c ++ s ++ 0#10 ++ d)
  | .mrange r c l h d => some (3#4 ++ r ++ c ++ l ++ h ++ 0#6 ++ d)
  | .mop r c a b o d => some (4#4 ++ r ++ c ++ a ++ b ++ o ++ 0#4 ++ d)
  | .mflag r c k d => some (5#4 ++ r ++ c ++ k ++ 0#14 ++ d)
  | .tscale r c s t => some (6#4 ++ r ++ c ++ s ++ t ++ 0#12)
  | .nopCell g => some (0#6 ++ (.ofBool g.neg : BitVec 1) ++ g.pred ++ 0#21)
  | .iadd g d a b => some (1#6 ++ (.ofBool g.neg : BitVec 1) ++ g.pred ++ d ++ a ++ b ++ 0#3)
  | .isub g d a b => some (2#6 ++ (.ofBool g.neg : BitVec 1) ++ g.pred ++ d ++ a ++ b ++ 0#3)
  | .imul g d a b => some (3#6 ++ (.ofBool g.neg : BitVec 1) ++ g.pred ++ d ++ a ++ b ++ 0#3)
  | .imulh g d a b u =>
    some (4#6 ++ (.ofBool g.neg : BitVec 1) ++ g.pred ++ d ++ a ++ b ++ 0#2 ++ (.ofBool u : BitVec 1))
  | .iand g d a b => some (5#6 ++ (.ofBool g.neg : BitVec 1) ++ g.pred ++ d ++ a ++ b ++ 0#3)
  | .ior g d a b => some (6#6 ++ (.ofBool g.neg : BitVec 1) ++ g.pred ++ d ++ a ++ b ++ 0#3)
  | .ixor g d a b => some (7#6 ++ (.ofBool g.neg : BitVec 1) ++ g.pred ++ d ++ a ++ b ++ 0#3)
  | .ishl g d a b => some (8#6 ++ (.ofBool g.neg : BitVec 1) ++ g.pred ++ d ++ a ++ b ++ 0#3)
  | .ishr g d a b => some (9#6 ++ (.ofBool g.neg : BitVec 1) ++ g.pred ++ d ++ a ++ b ++ 0#3)
  | .isra g d a b => some (10#6 ++ (.ofBool g.neg : BitVec 1) ++ g.pred ++ d ++ a ++ b ++ 0#3)
  | .imin g d a b u =>
    some (11#6 ++ (.ofBool g.neg : BitVec 1) ++ g.pred ++ d ++ a ++ b ++ 0#2 ++ (.ofBool u : BitVec 1))
  | .imax g d a b u =>
    some (12#6 ++ (.ofBool g.neg : BitVec 1) ++ g.pred ++ d ++ a ++ b ++ 0#2 ++ (.ofBool u : BitVec 1))
  | .icmp g p a b c =>
    some (13#6 ++ (.ofBool g.neg : BitVec 1) ++ g.pred ++ 0#2 ++ p ++ a ++ b ++ c)
  | .isel g d a b => some (14#6 ++ (.ofBool g.neg : BitVec 1) ++ g.pred ++ d ++ a ++ b ++ 0#3)
  | .iaddi g d i => some (15#6 ++ (.ofBool g.neg : BitVec 1) ++ g.pred ++ d ++ i)
  | .movi g d i => some (16#6 ++ (.ofBool g.neg : BitVec 1) ++ g.pred ++ d ++ i)
  | .movhi g d i => some (17#6 ++ (.ofBool g.neg : BitVec 1) ++ g.pred ++ d ++ i)
  | .movCell g d a => some (18#6 ++ (.ofBool g.neg : BitVec 1) ++ g.pred ++ d ++ a ++ 0#9)
  | .fadd g d a b => some (19#6 ++ (.ofBool g.neg : BitVec 1) ++ g.pred ++ d ++ a ++ b ++ 0#3)
  | .fsub g d a b => some (20#6 ++ (.ofBool g.neg : BitVec 1) ++ g.pred ++ d ++ a ++ b ++ 0#3)
  | .fmul g d a b => some (21#6 ++ (.ofBool g.neg : BitVec 1) ++ g.pred ++ d ++ a ++ b ++ 0#3)
  | .ffma g d a b => some (22#6 ++ (.ofBool g.neg : BitVec 1) ++ g.pred ++ d ++ a ++ b ++ 0#3)
  | .fmin g d a b => some (23#6 ++ (.ofBool g.neg : BitVec 1) ++ g.pred ++ d ++ a ++ b ++ 0#3)
  | .fmax g d a b => some (24#6 ++ (.ofBool g.neg : BitVec 1) ++ g.pred ++ d ++ a ++ b ++ 0#3)
  | .fcmp g p a b c =>
    some (25#6 ++ (.ofBool g.neg : BitVec 1) ++ g.pred ++ 0#2 ++ p ++ a ++ b ++ c)
  | .fabs g d a => some (26#6 ++ (.ofBool g.neg : BitVec 1) ++ g.pred ++ d ++ a ++ 0#9)
  | .fneg g d a => some (27#6 ++ (.ofBool g.neg : BitVec 1) ++ g.pred ++ d ++ a ++ 0#9)
  | .frcp g d a => some (28#6 ++ (.ofBool g.neg : BitVec 1) ++ g.pred ++ d ++ a ++ 0#9)
  | .frsq g d a => some (29#6 ++ (.ofBool g.neg : BitVec 1) ++ g.pred ++ d ++ a ++ 0#9)
  | .fexp2 g d a => some (30#6 ++ (.ofBool g.neg : BitVec 1) ++ g.pred ++ d ++ a ++ 0#9)
  | .flog2 g d a => some (31#6 ++ (.ofBool g.neg : BitVec 1) ++ g.pred ++ d ++ a ++ 0#9)
  | .ftanh g d a => some (32#6 ++ (.ofBool g.neg : BitVec 1) ++ g.pred ++ d ++ a ++ 0#9)
  | .fcvt g d a b m => some (33#6 ++ (.ofBool g.neg : BitVec 1) ++ g.pred ++ d ++ a ++ b ++ m)
  | .frnd g d a m => some (34#6 ++ (.ofBool g.neg : BitVec 1) ++ g.pred ++ d ++ a ++ 0#6 ++ m)
  | .bfma g d a b m =>
    some (35#6 ++ (.ofBool g.neg : BitVec 1) ++ g.pred ++ d ++ a ++ b ++ 0#1 ++ m)
  | .hadd2 g d a b => some (36#6 ++ (.ofBool g.neg : BitVec 1) ++ g.pred ++ d ++ a ++ b ++ 0#3)
  | .hmul2 g d a b => some (37#6 ++ (.ofBool g.neg : BitVec 1) ++ g.pred ++ d ++ a ++ b ++ 0#3)
  | .hfma2 g d a b => some (38#6 ++ (.ofBool g.neg : BitVec 1) ++ g.pred ++ d ++ a ++ b ++ 0#3)
  | .vset g d => some (39#6 ++ (.ofBool g.neg : BitVec 1) ++ g.pred ++ d ++ 0#15)
  | .vclr g d => some (40#6 ++ (.ofBool g.neg : BitVec 1) ++ g.pred ++ d ++ 0#15)
  | .vtest g p a b c =>
    some (41#6 ++ (.ofBool g.neg : BitVec 1) ++ g.pred ++ 0#2 ++ p ++ a ++ b ++ 0#1 ++ c)
  | .vsel g d a b => some (42#6 ++ (.ofBool g.neg : BitVec 1) ++ g.pred ++ d ++ a ++ b ++ 0#3)
  | .vmov g d a => some (43#6 ++ (.ofBool g.neg : BitVec 1) ++ g.pred ++ d ++ a ++ 0#9)
  | .pand g p q r =>
    some (44#6 ++ (.ofBool g.neg : BitVec 1) ++ g.pred ++ 0#2 ++ p ++ 0#2 ++ q ++ 0#2 ++ r ++ 0#3)
  | .por g p q r =>
    some (45#6 ++ (.ofBool g.neg : BitVec 1) ++ g.pred ++ 0#2 ++ p ++ 0#2 ++ q ++ 0#2 ++ r ++ 0#3)
  | .pxor g p q r =>
    some (46#6 ++ (.ofBool g.neg : BitVec 1) ++ g.pred ++ 0#2 ++ p ++ 0#2 ++ q ++ 0#2 ++ r ++ 0#3)
  | .pnot g p q =>
    some (47#6 ++ (.ofBool g.neg : BitVec 1) ++ g.pred ++ 0#2 ++ p ++ 0#2 ++ q ++ 0#9)
  | .pmov g p q =>
    some (48#6 ++ (.ofBool g.neg : BitVec 1) ++ g.pred ++ 0#2 ++ p ++ 0#2 ++ q ++ 0#9)
  | .rand g d a w => some (49#6 ++ (.ofBool g.neg : BitVec 1) ++ g.pred ++ d ++ a ++ 0#7 ++ w)
  | .lexit g => some (50#6 ++ (.ofBool g.neg : BitVec 1) ++ g.pred ++ 0#21)
  | .ldc g d b o => some (51#6 ++ (.ofBool g.neg : BitVec 1) ++ g.pred ++ d ++ b ++ o)
  | .stc g d b o => some (52#6 ++ (.ofBool g.neg : BitVec 1) ++ g.pred ++ d ++ b ++ o)
  | .ldc2 g d b o => some (53#6 ++ (.ofBool g.neg : BitVec 1) ++ g.pred ++ d ++ b ++ o)
  | .stc2 g d b o => some (54#6 ++ (.ofBool g.neg : BitVec 1) ++ g.pred ++ d ++ b ++ o)
  | .ldca g d b o => some (55#6 ++ (.ofBool g.neg : BitVec 1) ++ g.pred ++ d ++ b ++ o)
  | .stca g d b o => some (56#6 ++ (.ofBool g.neg : BitVec 1) ++ g.pred ++ d ++ b ++ o)
  | .comm g d a m => some (57#6 ++ (.ofBool g.neg : BitVec 1) ++ g.pred ++ d ++ a ++ 0#7 ++ m)
  | .smm g c e a b z =>
    some (51#6 ++ (.ofBool g.neg : BitVec 1) ++ g.pred ++ c ++ e ++ a ++ b ++ 0#2 ++ (.ofBool z : BitVec 1))
  | .smms g c e a b z =>
    some (52#6 ++ (.ofBool g.neg : BitVec 1) ++ g.pred ++ c ++ e ++ a ++ b ++ 0#2 ++ (.ofBool z : BitVec 1))
  | .smz g c e => some (53#6 ++ (.ofBool g.neg : BitVec 1) ++ g.pred ++ c ++ e ++ 0#15)
  | .smadd g c e k =>
    some (54#6 ++ (.ofBool g.neg : BitVec 1) ++ g.pred ++ c ++ e ++ 0#4 ++ k ++ 0#9)
  | .smrd g d c e =>
    some (55#6 ++ (.ofBool g.neg : BitVec 1) ++ g.pred ++ d ++ 0#6 ++ c ++ 0#4 ++ e)
  | .smwr g a c e =>
    some (56#6 ++ (.ofBool g.neg : BitVec 1) ++ g.pred ++ 0#6 ++ a ++ c ++ 0#4 ++ e)
  | .smout g c e b f =>
    some (57#6 ++ (.ofBool g.neg : BitVec 1) ++ g.pred ++ c ++ 0#12 ++ e ++ 0#1 ++ (.ofBool b : BitVec 1) ++ (.ofBool f : BitVec 1))
  | .smcmp g c e k p m =>
    some (58#6 ++ (.ofBool g.neg : BitVec 1) ++ g.pred ++ c ++ e ++ 0#4 ++ k ++ 0#2 ++ p ++ 0#1 ++ m)
  | .scmpr g d a c e =>
    some (59#6 ++ (.ofBool g.neg : BitVec 1) ++ g.pred ++ d ++ a ++ (.ofBool c : BitVec 1) ++ 0#1 ++ e ++ 0#3)
  | .scmprPair g d c e =>
    some (59#6 ++ (.ofBool g.neg : BitVec 1) ++ g.pred ++ d ++ 0#6 ++ (.ofBool c : BitVec 1) ++ 0#1 ++ e ++ 1#3)
  | .sexpn g c e a b z =>
    some (60#6 ++ (.ofBool g.neg : BitVec 1) ++ g.pred ++ c ++ e ++ a ++ b ++ 0#4 ++ (.ofBool z : BitVec 1))
  | .bpack g d c e s j =>
    some (61#6 ++ (.ofBool g.neg : BitVec 1) ++ g.pred ++ d ++ 0#6 ++ c ++ e ++ (.ofBool s : BitVec 1) ++ j)
  | .bunpk g a c s j =>
    some (62#6 ++ (.ofBool g.neg : BitVec 1) ++ g.pred ++ 0#6 ++ a ++ c ++ 0#4 ++ (.ofBool s : BitVec 1) ++ j)
  | .smred g c e k m =>
    some (63#6 ++ (.ofBool g.neg : BitVec 1) ++ g.pred ++ c ++ e ++ 0#4 ++ k ++ 0#6 ++ m)
  | .nopInject g => some (0#5 ++ (.ofBool g.neg : BitVec 1) ++ g.pred ++ 0#23)
  | .ficfg g s f =>
    some (1#5 ++ (.ofBool g.neg : BitVec 1) ++ g.pred ++ s ++ 0#12 ++ (.ofBool f : BitVec 1) ++ 0#4)
  | .figo g f b =>
    some (2#5 ++ (.ofBool g.neg : BitVec 1) ++ g.pred ++ 0#18 ++ (.ofBool f : BitVec 1) ++ 0#3 ++ (.ofBool b : BitVec 1))
  | .fihalt g f =>
    some (3#5 ++ (.ofBool g.neg : BitVec 1) ++ g.pred ++ 0#18 ++ (.ofBool f : BitVec 1) ++ 0#4)
  | .fipad g s f m =>
    some (4#5 ++ (.ofBool g.neg : BitVec 1) ++ g.pred ++ s ++ 0#12 ++ (.ofBool f : BitVec 1) ++ 0#2 ++ m)
  | .fisel g f q =>
    some (5#5 ++ (.ofBool g.neg : BitVec 1) ++ g.pred ++ 0#18 ++ (.ofBool f : BitVec 1) ++ 0#1 ++ q)
  | .fiqb g a t f b =>
    some (6#5 ++ (.ofBool g.neg : BitVec 1) ++ g.pred ++ a ++ t ++ 0#6 ++ (.ofBool f : BitVec 1) ++ 0#3 ++ (.ofBool b : BitVec 1))
  | .nopDrain g => some (0#5 ++ (.ofBool g.neg : BitVec 1) ++ g.pred ++ 0#23)
  | .fdcfg g s f =>
    some (1#5 ++ (.ofBool g.neg : BitVec 1) ++ g.pred ++ s ++ 0#12 ++ (.ofBool f : BitVec 1) ++ 0#4)
  | .fdgo g f =>
    some (2#5 ++ (.ofBool g.neg : BitVec 1) ++ g.pred ++ 0#18 ++ (.ofBool f : BitVec 1) ++ 0#4)
  | .fdhalt g f =>
    some (3#5 ++ (.ofBool g.neg : BitVec 1) ++ g.pred ++ 0#18 ++ (.ofBool f : BitVec 1) ++ 0#4)
  | .fdchain g s f =>
    some (4#5 ++ (.ofBool g.neg : BitVec 1) ++ g.pred ++ s ++ 0#12 ++ (.ofBool f : BitVec 1) ++ 0#4)
  | .fdflush g s f =>
    some (5#5 ++ (.ofBool g.neg : BitVec 1) ++ g.pred ++ s ++ 0#12 ++ (.ofBool f : BitVec 1) ++ 0#4)
  | .nopEngine g => some (0#5 ++ (.ofBool g.neg : BitVec 1) ++ g.pred ++ 0#23)
  | .cpy g d r t c => some (1#5 ++ (.ofBool g.neg : BitVec 1) ++ g.pred ++ d ++ r ++ t ++ 0#2 ++ c)
  | .cpya g d r t c => some (2#5 ++ (.ofBool g.neg : BitVec 1) ++ g.pred ++ d ++ r ++ t ++ 0#2 ++ c)
  | .gath g d r t u c =>
    some (3#5 ++ (.ofBool g.neg : BitVec 1) ++ g.pred ++ d ++ r ++ t ++ 0#1 ++ (.ofBool u : BitVec 1) ++ c)
  | .scat g d r t u c =>
    some (4#5 ++ (.ofBool g.neg : BitVec 1) ++ g.pred ++ d ++ r ++ t ++ 0#1 ++ (.ofBool u : BitVec 1) ++ c)
  | .red g d r t c => some (5#5 ++ (.ofBool g.neg : BitVec 1) ++ g.pred ++ d ++ r ++ t ++ 0#2 ++ c)
  | .ared g d r t c => some (6#5 ++ (.ofBool g.neg : BitVec 1) ++ g.pred ++ d ++ r ++ t ++ 0#2 ++ c)
  | .bcst g d r t c => some (7#5 ++ (.ofBool g.neg : BitVec 1) ++ g.pred ++ d ++ r ++ t ++ 0#2 ++ c)
  | .fill g d r t c => some (8#5 ++ (.ofBool g.neg : BitVec 1) ++ g.pred ++ d ++ r ++ t ++ 0#2 ++ c)
  | .ccan g t r c => some (9#5 ++ (.ofBool g.neg : BitVec 1) ++ g.pred ++ t ++ r ++ 0#8 ++ c)
  | .ckpt g d r t c =>
    some (10#5 ++ (.ofBool g.neg : BitVec 1) ++ g.pred ++ d ++ r ++ t ++ 0#2 ++ c)
  | .sortb g d r => some (11#5 ++ (.ofBool g.neg : BitVec 1) ++ g.pred ++ d ++ r ++ 0#11)
  | .sortl g d r => some (12#5 ++ (.ofBool g.neg : BitVec 1) ++ g.pred ++ d ++ r ++ 0#11)
  | .sortm g d r => some (13#5 ++ (.ofBool g.neg : BitVec 1) ++ g.pred ++ d ++ r ++ 0#11)
  | .sortd g d r => some (14#5 ++ (.ofBool g.neg : BitVec 1) ++ g.pred ++ d ++ r ++ 0#11)
  | .post g a h r => some (15#5 ++ (.ofBool g.neg : BitVec 1) ++ g.pred ++ a ++ h ++ r ++ 0#5)
  | .precv g d t h q =>
    some (16#5 ++ (.ofBool g.neg : BitVec 1) ++ g.pred ++ d ++ t ++ h ++ 0#2 ++ q)
  | .bundleIssue | .blankAdvance | .drainAdvance | .stallResume | .stallTimeout | .feTimeout
  | .loadDataReturn _ | .resultLanding _ _ | .flagRecordReadable | .waitSatisfied | .waitTimeout | .trapEntry
  | .supervisorFaultTake | .interruptTake | .memUeStore | .preempt _ | .preemptImageWrite | .taskRestore _
  | .flttmoExpiry | .machineCheck _ | .taskEnd | .yieldComplete | .descriptorTake | .taskAccept _
  | .taskDispatch _ | .priorityAging _ | .benchReserve _ | .taskPull _ | .taskRerun _ | .dieTakeover _ _
  | .barGenerationComplete _ | .engineCommandStart _ | .engineCommandEnd _ | .engineFullTimeout
  | .launchFullTimeout | .sortlTimeout _ | .collectiveGroupTimeout _ | .collectiveChunkReceive _ _
  | .injectElementFetch _ _ _ | .drainElementWrite _ _ _ | .fdflushReceipt _ _ | .postPacketHop _
  | .postInboxEnter _ | .memoryRequestServe _ | .hbmScrub _ | .postcodeAutoSwap | .carrierFlitReceive _ _
  | .powerLoss | .moduleReset | .droopAlarm _ _ | .droopStretchEnd _ _ | .droopHoldEnd _ _ | .droopRearm _ _
  | .lbwidxWrite _ _ _ | .hostRegisterWrite _ _ | .ctxisrWrite _ _ | .hbarWrite _ | .hcopyWrite _
  | .hostApertureRead _ _ | .hostApertureWrite _ _ | .ctxCreate | .ctxDestroy | .keyLoad | .keyDestroy
  | .xlateInv | .interrupt | .faultResume | .faultFail | .dspSet | .tokenRetire | .dlrRead | .dlrRelease
  | .postcodeSwap | .postcodeMode | .sclass | .drpSet | .countersRead | .attest | .routeSet | .moduleSetid
  | .flashLoad | .remoteResponderTimeout _ | .clawynLinkFailure | .unitLoss _ _ => none
/-- The position of a class's slot in the bundle (R50). -/
def SlotClass.index : SlotClass → Nat
  | .control => 0 | .scalar => 1 | .cellA => 2 | .cellB => 3
  | .selector => 4 | .inject => 5 | .drain => 6 | .engine => 7

/-- The slot classes in slot order, S0 to S7 (R50). -/
def allClasses : List SlotClass := [.control, .scalar, .cellA, .cellB, .selector, .inject, .drain, .engine]

/-- The word of slot S n of a bundle, bits [32n + 31 : 32n] (R50). -/
def slotWord (b : Bundle) (c : SlotClass) : Word := b.extractLsb' (32 * c.index) 32

/-- The NOP of each class: the all-zero word (R52). -/
def nopOf : SlotClass → Instr
  | .control => .nopControl ⟨false, 0⟩
  | .scalar => .nopScalar ⟨false, 0⟩
  | .cellA | .cellB => .nopCell ⟨false, 0⟩
  | .selector => .nopSelector
  | .inject => .nopInject ⟨false, 0⟩
  | .drain => .nopDrain ⟨false, 0⟩
  | .engine => .nopEngine ⟨false, 0⟩

/-- The eight slots of a bundle, decoded (R50). -/
structure Slots where
  s0 : Instr
  s1 : Instr
  s2 : Instr
  s3 : Instr
  s4 : Instr
  s5 : Instr
  s6 : Instr
  s7 : Instr
  deriving DecidableEq, Repr

/-- A bundle of eight NOP slots. -/
def Slots.nop : Slots :=
  { s0 := nopOf .control, s1 := nopOf .scalar, s2 := nopOf .cellA, s3 := nopOf .cellB,
    s4 := nopOf .selector, s5 := nopOf .inject, s6 := nopOf .drain, s7 := nopOf .engine }

/-- The slots with one replaced. -/
def Slots.set (b : Slots) (c : SlotClass) (i : Instr) : Slots :=
  match c with
  | .control => { b with s0 := i }
  | .scalar => { b with s1 := i }
  | .cellA => { b with s2 := i }
  | .cellB => { b with s3 := i }
  | .selector => { b with s4 := i }
  | .inject => { b with s5 := i }
  | .drain => { b with s6 := i }
  | .engine => { b with s7 := i }

/-- The bundle that holds one instruction in a slot of class `c` and a NOP in every other slot. Log entry 17: DESIGN CHOICE. -/
def Slots.single (c : SlotClass) (i : Instr) : Slots := Slots.nop.set c i

/-- The mask of slots that offend by themselves (R65, R69): bit n is 1 when slot n does not decode. -/
def offendingSlots (b : Bundle) : BitVec 8 :=
  allClasses.foldl (fun m c => if (decodeSlot c (slotWord b c)).isNone then m ||| (1#8 <<< c.index) else m) 0

/-- The eight slots of a bundle, or the mask of the slots that do not decode (R65). -/
def decodeBundle (b : Bundle) : Except (BitVec 8) Slots :=
  match decodeSlot .control (slotWord b .control), decodeSlot .scalar (slotWord b .scalar),
      decodeSlot .cellA (slotWord b .cellA), decodeSlot .cellB (slotWord b .cellB),
      decodeSlot .selector (slotWord b .selector), decodeSlot .inject (slotWord b .inject),
      decodeSlot .drain (slotWord b .drain), decodeSlot .engine (slotWord b .engine) with
  | some s0, some s1, some s2, some s3, some s4, some s5, some s6, some s7 =>
    .ok { s0 := s0, s1 := s1, s2 := s2, s3 := s3, s4 := s4, s5 := s5, s6 := s6, s7 := s7 }
  | _, _, _, _, _, _, _, _ => .error (offendingSlots b)

/-- The bundle of 32 bytes, little-endian (R50); missing bytes read 0. -/
def bundleOfBytes (bs : List Byte) : Bundle :=
  BitVec.ofNat 256 (bs.foldr (fun b acc => b.toNat + 256 * acc) 0)

/-- The 32-bit word of the row's instruction, among the classes in a fixed order. The operation table numbers the bits of one
32-bit word, which several classes read differently; the first class of this order that decodes it is taken. -/
def tableOrder : List SlotClass :=
  [.cellA, .cellB, .scalar, .control, .selector, .drain, .engine, .inject]

/-- The class that `decodeTableWord` reads a word under, with the instruction. Log entry 16: DESIGN CHOICE. -/
def decodeTableClass (w : Word) : Option (SlotClass × Instr) :=
  tableOrder.findSome? (fun c => (decodeSlot c w).map (fun i => (c, i)))

/-- The instruction of a table word: the bits of its first (and only) 32-bit word. Log entry 16: DESIGN CHOICE. -/
def decodeTableWord (nbits w : Nat) : Option Instr :=
  if nbits ≤ 32 ∧ w < 2 ^ 32 then (decodeTableClass (BitVec.ofNat 32 w)).map (·.2) else none

end Sys2Proof
end

