-- ==== Sys2Proof/Machine/State.lean ====
section
/-!
DEFINITION. The state of one TG9-512L module with the outside world that acts on it: plain data, every piece that
the specification names (INVENTORY.md, State), and the state after reset. Collections with many places that
mostly hold one value are tables: lists of key and value in rising key order (Sys2Proof.Machine.Tables).
-/

namespace Sys2Proof.Machine

/-- A sparse table: keys strictly rising; a key that is not listed stands for the default of its use. -/
abbrev Tab (α : Type) := List (Nat × α)

/-! ## Cells (01_machine.md R14 to R20) -/

/-- A 32-bit word with its validity bit V (R15). -/
structure VWord where
  val : Word
  v : Bool
  deriving DecidableEq, Repr

/-- A 64-bit pair, with one V for each half (R15). -/
structure VPair where
  lo : VWord
  hi : VWord
  deriving DecidableEq, Repr

/-- An accumulator: 16 elements, element (r, n) at index 4r + n, and one V (R204). -/
structure Acc where
  elems : Vector Word 16
  v : Bool
  deriving DecidableEq, Repr

/-- What a landing writes (R39, R137, R205, R206). The register of a word is physical: 0 to 43 for g, 52 to 55 for
ch.lo, ch.hi, cv.lo, cv.hi. A word without a value only changes V. -/
inductive Landing where
  | word (reg : Nat) (val : Option Word) (v : Bool)
  | pred (reg : Nat) (val : Bool)
  | acc (a : Nat) (elems : List (Nat × Word)) (v : Bool)
  deriving DecidableEq, Repr

/-- A result latch (R291): it lands at the end of the cell's `rem`-th step from now. `stamp`, which counts the issues of the run,
those of handlers too, and `slot` give the issue order (R40). `pushE` and `pushS` say that the landing of ch or cv completes a push of its bundle (R43). -/
structure Latch where
  rem : Nat
  num : Nat
  stamp : Nat
  slot : Nat
  handler : Bool
  seed : DWord
  pushE : Bool
  pushS : Bool
  lands : List Landing
  deriving DecidableEq, Repr

/-- One change of ch or cv: the values before the cell's step of bundle `num`, and which of their halves then carried an uncorrectable error
(R287, R289). -/
structure HistEntry where
  num : Nat
  handler : Bool
  ch : VPair
  cv : VPair
  bad : List Nat
  deriving DecidableEq, Repr

/-- A cell (R14). The rotation bases are those of the row as they stand at this cell's last step (R20, R230): the tag reaches the cells of a row
with the bundle. `store` holds the cell store and the scale store by byte address (R19); an unlisted byte is 0. `ue` lists the places that carry
an uncorrectable error (R287): physical registers by code, accumulators from 64, store granules of 32 bytes from 128, and from 512 the
predicates, with tsa at 528, tsb at 529 and the loop-active bit of level l at 530 + l. `touched` lists the parts of the image that a write has
made dirty since the last restore (R300): 0 to 3 the g groups, 4 to 7 the accumulators, 8 ch, cv and the history, 9 p, tsa, tsb, the active bits
and the latches, 10 to 41 the sectors of the cell store, 42 the scale store. -/
structure Cell where
  g : Vector VWord 44
  p : BitVec 16
  acc : Vector Acc 4
  ch : VPair
  cv : VPair
  tsa : Word
  tsb : Word
  active : BitVec 4
  store : Tab Byte
  latches : List Latch
  gbase : Nat
  pbase : Nat
  hist : List HistEntry
  ue : List Nat
  touched : List Nat
  deriving DecidableEq, Repr

/-! ## Faces (13_faces_engines.md R160 to R179) -/

/-- A translated address: a face store byte with its page kind (0 RC, 1 SO, 2 UO; R243, R251), or an HBM byte with its page kind,
CACHE, the key slot when encrypted, and CMP. Arrays of another module m are numbered from 64(m + 1) (R241). -/
inductive Access where
  | store (array : Nat) (off : Nat) (ord : Nat)
  | mem (key : Nat) (ord : Nat) (cache : Bool) (enc : Option Nat) (cmp : Bool)
  deriving DecidableEq, Repr

/-- A face pattern (R167), with the SRC of its face (R169). -/
structure Pattern where
  src : Bool
  base : Nat
  padn : Nat
  lanes : Nat
  lstride : Int
  rev : List Bool
  stride : List Int
  count : List Nat
  pq : Nat
  pstride : Nat
  deriving DecidableEq, Repr

/-- A drain chain (R177) with the FMT of its FDCHAIN bundle (R178). -/
structure Chain where
  stages : List Instr
  k0 : Word
  k1 : Word
  fmt : BitVec 32
  deriving DecidableEq, Repr

/-- A command of S5 or S6, as it takes effect at its bundle's point in each lane (R161). FICFG takes effect as a halt. -/
inductive FaceOp where
  | go (pid : Nat) (p : Pattern)
  | halt
  | pad (e : VPair)
  | chain (c : Option Chain)
  deriving DecidableEq, Repr

/-- What a lane of an inject face has fetched: an element, or the fault that its take raises (R169). -/
inductive Fetched where
  | elem (e : VPair)
  | fault (cause : Nat) (addr : Nat)
  deriving DecidableEq, Repr

/-- One element of an inject lane's buffer: step `step` of pattern `pid` (R172). -/
structure BufElem where
  pid : Nat
  step : Nat
  val : Fetched
  deriving DecidableEq, Repr

/-- One pushed element that is not yet written (R176): its bundle, the place of its array in the bench, its translated
and its virtual address, and the chain that it passes through (R178). -/
structure PushElem where
  num : Nat
  stamp : Nat
  seed : DWord
  m : Nat
  acc : Access
  addr : Nat
  e : VPair
  chain : Option Chain
  deriving DecidableEq, Repr

/-- A lane: the steps taken of each pattern, the buffer of an inject lane, the queue of a drain lane. -/
structure Lane where
  taken : Tab Nat
  buf : List BufElem
  queue : List PushElem
  deriving DecidableEq, Repr

/-- A queue bank of an inject face (R172). -/
structure Bank where
  pid : Nat
  pat : Pattern
  tag : BitVec 48
  deriving DecidableEq, Repr

/-- What an FDFLUSH reports (R179): the bundle that issued it, its receipt, and the counts of the elements of the
bundles before it; the unit of the face that has met DRAIN.OVER, and the first write error with its class, unit and address (R163, R176). -/
structure Flush where
  stamp : Nat
  rcpt : Access
  va : Nat
  head : Nat
  ctx : Nat
  written : Nat
  overrun : Option Nat
  err : Option (Nat × Nat × Nat)
  lines : List Nat
  deriving DecidableEq, Repr

/-- A face. `log` holds its commands with the stamps of their bundles, oldest first; `bank0` and `bank1` are the queue banks
of an inject face (R172); `pending` is the pending pattern of a drain face (R179); `flushes` are FDFLUSH commands
without a receipt yet, and `tally` counts for the next one. -/
structure Face where
  src : Bool
  log : List (Nat × FaceOp)
  nextPid : Nat
  bank0 : Option Bank
  bank1 : Option Bank
  pending : Option Pattern
  lanes : Tab Lane
  flushes : List Flush
  tally : Flush
  deriving DecidableEq, Repr

/-! ## Memory (19_memory.md) -/

/-- Who last wrote a dirty line, to whom a write-back reports its error (R126, R175): the requester, its task and the virtual address of
the line. -/
structure Owner where
  who : Nat
  task : Nat
  va : Nat
  deriving DecidableEq, Repr

/-- A cache line of 64 bytes, with its dirty mask per byte, its poison and its KEY.DEAD marks per granule (R241, R166, R314), the key slot
it was filled under and that slot's generation then (R314, R315), whether it was last written through a page with CMP = 1 (R313), and its last
writer. -/
structure Line where
  data : List Byte
  dirty : BitVec 64
  poison : BitVec 2
  dead : BitVec 2
  slot : Option Nat
  gen : Nat
  cmp : Bool
  owner : Option Owner
  deriving DecidableEq, Repr

/-- The units that hold a translation cache (R250). -/
inductive TlbUnit where
  | seq (array : Nat)
  | face (array : Nat) (side : Nat)
  | die (d : Nat)
  deriving DecidableEq, Repr

/-- One entry of a translation cache: the leaf read for a virtual page, and whether it is a 512 MiB block (R248). -/
structure TlbEntry where
  unit : TlbUnit
  ctx : Nat
  vpage : Nat
  block : Bool
  leaf : DWord
  deriving DecidableEq, Repr

/-- A request in a channel's queue (R311), with the sub-channels that it uses: all four for a line, one for a 16-byte access (R183, R308). -/
structure Request where
  channel : Nat
  line : Nat
  subs : BitVec 4
  cls : Nat
  deadline : Nat
  made : Nat
  who : Nat
  deriving DecidableEq, Repr

/-- A line of the LLC: the key slot under which it was brought, and which of its four 16-byte granules it holds (R308, R312). -/
structure LlcLine where
  slot : Option Nat
  held : BitVec 4
  deriving DecidableEq, Repr

/-- The key tag of an ECC granule: the slot and generation under which it was written (R314). `key` and `mod` are the key pair and the
module number that enciphered it: the state lists the plaintext, and with them HBM holds fixed ciphertext (log entry 8, PRESUMED). -/
structure KeyTag where
  slot : Nat
  gen : Nat
  key : BitVec 512
  mod : Nat
  deriving DecidableEq, Repr

/-- The bytes of an image written over its slot (R299, R300): the slot's first granule and its granules, a number that makes its bytes, and
for each array of the bench its dirty parts, `none` when every part was written. Log entry 21: DESIGN CHOICE. -/
structure Veil where
  lo : Nat
  len : Nat
  seed : Nat
  parts : List (Option (List Nat))
  deriving DecidableEq, Repr

/-! ## The sequencer and the wave (01_machine.md R21 to R24, 03_wave.md) -/

/-- Why a register is marked poisoned (R126, R287). -/
inductive Poison where
  | ue | keyDead
  deriving DecidableEq, Repr

/-- An s register with its full bit and its poison mark (R22, R126). -/
structure SReg where
  val : DWord
  full : Bool
  poison : Option Poison
  deriving DecidableEq, Repr

/-- A loop level (R23). -/
structure Level where
  isOpen : Bool
  count : BitVec 32
  index : BitVec 32
  start : BitVec 50
  stop : BitVec 50
  stages : BitVec 4
  rot : BitVec 3
  deriving DecidableEq, Repr

/-- The kind of a loop tag (R229). -/
inductive TagKind where
  | opens
  | rotate (stage : Bool)
  | close
  deriving DecidableEq, Repr

/-- A loop tag: its kind, its level and the level's ROT (R229). -/
structure Tag where
  kind : TagKind
  level : Nat
  rot : BitVec 3
  deriving DecidableEq, Repr

/-- The sequencer's flag state, or the record of a flag bundle: ANY, ALL and the row vectors (R46, R48, R130). -/
structure Flags where
  any : Bool
  all : Bool
  rowOr : Word
  rowAnd : Word
  deriving DecidableEq, Repr

/-- A record on its way: a flag bundle's flags, an exit bundle's ALL for its level, and the XFLAGS raises of a
bundle (R47, R84, R235). `left` bundles must still issue, or `advs` advances be made, before it is readable. -/
structure Record where
  num : Nat
  left : Nat
  advs : Nat
  flags : Option Flags
  exit : Option (Nat × Bool)
  raises : BitVec 5
  handler : Bool
  deriving DecidableEq, Repr

/-- A bundle in flight (R31): what it carries from issue, the advances it has made (R32: the advance of its issue is the
first), its stamp among the issues of the run, and its issue
advance counted with blank advances and without drain advances (R42). -/
structure Flight where
  num : Nat
  stamp : Nat
  adv : Nat
  vadv : Nat
  skew : Bool
  handler : Bool
  s2 : Instr
  s3 : Instr
  w2 : Word
  w3 : Word
  rowMask : Word
  colMask : Word
  arrays : BitVec 8
  ws : DWord
  lidx : Word
  lv0 : BitVec 16
  lv1 : BitVec 16
  fmt : BitVec 32
  entry : DWord
  seed : DWord
  tag : Option Tag
  depth : Nat
  base : Nat
  tscale : Option (BitVec 2 × DWord)
  docket : Bool
  deriving DecidableEq, Repr

/-- A taken element kept in a wave capture: the array, row and column of the cell, the face side and the element
(R290). -/
structure Taken where
  m : Nat
  row : Nat
  col : Nat
  side : Nat
  e : VPair
  deriving DecidableEq, Repr

/-- An outstanding load or atomic (R22, R126): its physical destination register, unless a later write has
discarded it, where it reads, and what it will deliver. Log entry 58: DESIGN CHOICE. -/
structure Load where
  dst : Option Nat
  acc : Access
  data : DWord
  poison : Option Poison
  handler : Bool
  deriving DecidableEq, Repr

/-- What a trap event reports (R287, R288, R294). `perm` says that a FACE.XLATE met a missing permission (R298). -/
structure TrapInfo where
  cause : BitVec 9
  tpc : BitVec 55
  smask : BitVec 8
  ucode : BitVec 8
  addr : BitVec 55
  cellArr : BitVec 3
  cellRow : BitVec 5
  cellCol : BitVec 5
  cellSlot : Bool
  laneFace : BitVec 2
  lanes : Word
  atCell : Bool
  async : Bool
  perm : Bool
  deriving DecidableEq, Repr

/-- What a bench does (R268, R283, R288, R298): `returning` while the bundle of an RFT with an address is on its way through the cells (R31,
R296), `closed` once its task has ended and commands of it still hold its face stores (R245). -/
inductive Phase where
  | issue
  | drain (why : TrapInfo)
  | held (why : TrapInfo) (since : Nat)
  | preempt
  | returning (pc : BitVec 55)
  | ended
  | yielded
  | closed
  deriving DecidableEq, Repr

/-- The docket segment: expected count and signature, running count and CRC register (R302). -/
structure Docket where
  steps : BitVec 32
  sig : BitVec 32
  count : BitVec 32
  crc : BitVec 32
  deriving DecidableEq, Repr

/-- What the arrival of a waiting BAR has released, so that a withdrawal can take it back (R104, R114): the bundle and its address, the
barrier's scope, and what the sequencer had not released before. Log entry 45: DEDUCED. -/
structure Owed where
  num : Nat
  pc : BitVec 55
  scope : Nat
  wrote : Tab (BitVec 6)
  rel : Option Nat
  relFrank : List Nat
  deriving DecidableEq, Repr

/-- The state that a trap saves for its return (R239, R290, R296). -/
structure Saved where
  flights : List Flight
  kept : List Taken
  redo : Bool
  mute : Bool
  fmt : BitVec 32
  fmtPend : List (Nat × BitVec 32)
  semPend : List (Nat × Nat × DWord)
  flags : Flags
  records : List Record
  exits : Vector (Option Bool) 4
  rg : Nat
  rs : Nat
  sbase : Nat
  bases : List (Nat × Nat × Nat × Nat)
  skew : Bool
  blanks : Nat
  tag : Option Tag
  num : Nat
  issued : List (Nat × Nat × Bool)
  vadvs : Nat
  levels : Vector Level 4
  depth : Nat
  docket : Option Docket
  arrived : Option Owed
  closing : Option Bool
  ueStore : List Nat
  deriving DecidableEq, Repr

/-- The trap registers (R294). -/
structure TrapRegs where
  tvec : DWord
  tfp : DWord
  info : TrapInfo
  active : Bool
  cap : Bool
  tbun : DWord
  trselArr : BitVec 3
  trselRow : BitVec 5
  ncap : BitVec 9
  tpc : DWord
  deriving DecidableEq, Repr

/-- The sequencer of a running task with the wave of its bench. `stall` is the kind of the stall in progress (0 an empty
register, 1 a wait, 2 a BAR.array, 3 an engine command too many, 4 a launch, 5 earlier bundles, 6 earlier accesses, 7 a WAITF, 8 earlier
bundles and accesses at a DONE or YIELD, 9 the last bundle of a docket segment) with the tick at which it began; `face` is the tick since
when a face stream withholds the next advance; `closing` says that a DONE (true) or a YIELD (false) has issued. `bench` is s3 as it was at task
start (R24, R132); `mute` says that records do not count the withdrawn advance that is made again (R48); `arrived` is what the arrival of a
waiting BAR has released (R114). `waitEnd` and `precvEnd` say how the wait of S0 and that of S7 have ended, true with its condition met and
false with its timeout run out, while something else still withholds their bundle (R104); `drainFor` is the kind of the stall that a trap or a
pre-emption has cut short while it made drain advances (R331). -/
structure Run where
  ctx : Nat
  task : Nat
  head : Nat
  arrays : List Nat
  spad : Nat
  bench : DWord
  -- programmable state (R21)
  s : Vector SReg 64
  q : BitVec 8
  pc : BitVec 55
  levels : Vector Level 4
  depth : Nat
  base : Nat
  rg : Nat
  rs : Nat
  sbase : Nat
  fmt : BitVec 32
  fmtPend : List (Nat × BitVec 32)
  srt : Vector DWord 8
  semPend : List (Nat × Nat × DWord)
  msk : Vector Word 16
  skew : Bool
  blanks : Nat
  num : Nat
  stamp : Nat
  tag : Option Tag
  -- flags (R46 to R48, R84, R235)
  flags : Flags
  records : List Record
  exits : Vector (Option Bool) 4
  xflags : BitVec 5
  -- system registers (R132, R133)
  rndseed : DWord
  stallTmo : BitVec 32
  feq : BitVec 3
  fetmo : BitVec 32
  lscope : BitVec 3
  barn : BitVec 32
  cstk : Vector DWord 16
  csp : Nat
  trap : TrapRegs
  saved : Option Saved
  docket : Option Docket
  -- accesses and ordering (R22, R256, R266)
  loads : List Load
  wrote : Tab (BitVec 6)
  rel : Option Nat
  relFrank : List Nat
  -- the wave (R30 to R34)
  flights : List Flight
  issued : List (Nat × Nat × Bool)
  advs : Nat
  vadvs : Nat
  kept : List Taken
  redo : Bool
  mute : Bool
  -- stalls, waits and asynchronous causes (R45, R103, R104, R297)
  stall : Option (Nat × Nat)
  face : Option Nat
  arrived : Option Owed
  waitEnd : Option Bool
  precvEnd : Option Bool
  drainFor : Option Nat
  closing : Option Bool
  phase : Phase
  ueStore : List Nat
  intr : Bool
  preempt : Bool
  started : Nat
  deriving DecidableEq, Repr

/-! ## Arrays (01_machine.md R26 to R28) -/

/-- A message of the post ring in an inbox (R202). -/
structure Message where
  hdr : DWord
  flits : List Byte
  deriving DecidableEq, Repr

/-- One array: its cells by 32·row + column, FRONT of each row, face store bytes and the granules of it that are
poisoned, scratchpad size code, L1 lines, bundle cache, last context, faces and inbox. `restored` says that its task was restored, so that
only the parts written since are dirty, and `blocks` lists the written blocks of 4 KiB of the face store (R300). -/
structure ArrayState where
  cells : Tab Cell
  front : Tab Word
  store : Tab Byte
  storePoison : List Nat
  spad : Nat
  l1 : Tab Line
  icache : Tab Bundle
  lastCtx : Nat
  west : Face
  north : Face
  east : Face
  south : Face
  inbox : List Message
  restored : Bool
  blocks : List Nat
  deriving DecidableEq, Repr

/-! ## Tasks, engines and the post ring (21_tasks.md, 13_faces_engines.md) -/

/-- A task descriptor (R269). -/
structure Desc where
  entry : BitVec 55
  args : BitVec 55
  argLen : Nat
  shape : Nat
  prio : Nat
  spad : Nat
  aff : Nat
  target : Nat
  restart : Bool
  retry : Nat
  irq : Bool
  rcpt : BitVec 55
  ins : List (BitVec 48)
  outs : List (BitVec 48)
  deriving DecidableEq, Repr

/-- The image of a pre-empted task (R29, R299): its sequencer and its arrays, and the slot of the context's image
pool that it lies in, by offset in units of 16 MiB, if the pool had room, and length. `franks` are those of places in its face stores: the
array's place in the bench, the 64-byte unit and the frank (R257). Log entry 21: DESIGN CHOICE. -/
structure Image where
  run : Run
  arrays : List ArrayState
  slot : Option Nat
  len : Nat
  franks : List (Nat × Nat × List Nat)
  deriving DecidableEq, Repr

/-- Where an accepted task stands (R268). -/
inductive TaskPhase where
  | accepted
  | ready
  | running
  | failed (cls : Nat) (unit : Nat) (addr : Nat)
  deriving DecidableEq, Repr

/-- An entry of a dependency table (R274, R278 to R284). `id` is the acceptance order. `patch` is the argument offset that SORTL
overwrites, with the entry's value (R197). `fromHost` says that a letterbox brought the descriptor (R272), and `slot` is the place of its
last image in the pool, with its length, which it keeps until it ends (R300). -/
structure Task where
  id : Nat
  die : Nat
  ctx : Nat
  desc : Desc
  prio : Nat
  eff : Nat
  phase : TaskPhase
  readyAt : Nat
  passedAt : Option Nat
  reserved : Option (List Nat)
  started : Bool
  args : Option (List Byte)
  reruns : Nat
  image : Option Image
  frank : List Nat
  lastProg : Nat
  patch : Option (Nat × Nat)
  fromHost : Bool
  slot : Option (Nat × Nat)
  deriving DecidableEq, Repr

/-- A token that has ripened (R275): ripe or poisoned, with the frank of the release that ripened it (R262). A tag that the
store does not list is unripe. -/
structure Token where
  tag : BitVec 48
  ripe : Bool
  frank : List Nat
  deriving DecidableEq, Repr

/-- A context (R267, R271, R317). -/
structure Context where
  num : Nat
  ceiling : Nat
  slot : Nat
  root : Nat
  tokcap : Nat
  pool : Nat
  poolMiB : Nat
  tokens : List Token
  lbBase : Vector DWord 4
  lbSize : Vector (BitVec 16) 4
  lbWidx : Vector (BitVec 32) 4
  lbRidx : Vector (BitVec 32) 4
  irq : BitVec 11
  isr : BitVec 4
  barGen : BitVec 32
  deriving DecidableEq, Repr

/-- Bytes that a command has for a poisoned granule, which it writes once it has all 32 (R166): the granule's access and
virtual address, the unit that first met it, and the bytes by offset. -/
structure Part where
  acc : Access
  va : Nat
  unit : Nat
  bytes : Tab Byte
  deriving DecidableEq, Repr

/-- The result of a chunk of a collective: its elements in FORMAT, its non-finite flag, and whether its seals agree (R188 to R191). -/
structure ChunkResult where
  index : Nat
  elems : List Nat
  wild : Bool
  sealed : Bool
  deriving DecidableEq, Repr

/-- An engine command (R162 to R165, R180, R320). `unit` is 0 to 7 for the couriers of `die`, 8 for its Sorter, 9 for
its post ring and 10 for the hub's copy engine. `task` is the issuing task, `arrays` its bench and `array` its head. `level` is the
path of DRAIN that holds its destination, once known (R113). `next` is the list entry that SORTL submits next, and `waitAt` since when
that entry waits. `chunks` holds what a Sorter command has read or made: its list, and the template of SORTL. For collectives `members`
is the group table, `fresh` says that residuals start at 0, `chunks` holds the chunks as sent, and `next` counts the chunks received (R187
to R192). `gen` names the instance of its group, and `results` holds the chunks that the group has formed. -/
structure Cmd where
  id : Nat
  die : Nat
  unit : Nat
  op : Instr
  ctx : Nat
  task : Option Nat
  arrays : List Nat
  array : Nat
  desc : Nat
  rcpt : Nat
  racc : Option Access
  tag : BitVec 48
  words : List Nat
  started : Bool
  startAt : Nat
  tmo : Nat
  prog : Nat
  wrote : Bool
  lines : List Nat
  frank : List Nat
  sealSum : DWord
  parts : List Part
  next : Nat
  waitAt : Option Nat
  members : List (Nat × Nat)
  fresh : Bool
  chunks : List (Nat × List Byte)
  gen : Nat
  results : List ChunkResult
  terminal : Bool
  level : Option Nat
  deriving DecidableEq, Repr

/-- A packet of the post ring (R198 to R203). `flitAt` gives the hop that each flit has reached, one more than the last for the inbox, and
whether it lies in an escape slot there; `pools` are the hops at whose stops the packet holds shared slots, and `esc` says that it has
used escape slots. -/
structure Packet where
  cmd : Nat
  die : Nat
  ctx : Nat
  src : Nat
  dst : Nat
  ccw : Bool
  tag : BitVec 16
  data : List Byte
  flitAt : List (Nat × Bool)
  pools : List Nat
  esc : Bool
  deriving DecidableEq, Repr

/-- A barrier generation (R114, R317): its instance, the count of its first arrival, the participants that have arrived, by task and handler
(`Run.party`), with the franks of their releases, the host arrivals, and, once it has completed, the participants that have not left it yet. -/
structure Barrier where
  ctx : Nat
  scope : Nat
  inst : Nat
  count : BitVec 32
  arrived : List (Nat × List Nat)
  hosts : Nat
  done : List Nat
  frank : List Nat
  deriving DecidableEq, Repr

/-- An entry of a dead-letter record or a power-loss list, 32 bytes (R305). -/
structure Dlr where
  addr : DWord
  pc : DWord
  unit : BitVec 16
  kind : BitVec 8
  array : BitVec 6
  ctx : BitVec 16
  cause : BitVec 9
  ticks : DWord
  deriving DecidableEq, Repr

/-- A quadrant's droop detector and throttle (R323, R324). `holdOf` is the HOLD of the alarm in progress, and `made` the
half-rate advances that each bench, by its head, has made since its stretch. -/
structure Quadrant where
  thresh : BitVec 10
  stretch : BitVec 4
  hold : BitVec 16
  count : BitVec 32
  armed : Bool
  stretching : Bool
  holdOf : Option Nat
  made : Tab Nat
  deriving DecidableEq, Repr

/-- One compute die (R13). -/
structure Die where
  alive : Bool
  l2 : Tab Line
  dlr : List Dlr
  frozen : Bool
  powerList : List Dlr
  flashDlr : List Dlr
  quads : Vector Quadrant 4
  deriving DecidableEq, Repr

/-- A key slot (R314). -/
structure KeySlot where
  key : BitVec 512
  gen : BitVec 8
  loaded : Bool
  deriving DecidableEq, Repr

/-! ## The schedule (log entry 1, DESIGN CHOICE) -/

/-- What may happen beside the event of a turn: evictions, dropped translations, progress of an engine command, errors of memory and of
cells, and tasks that run on the arrays of other modules. Log entry 59: DESIGN CHOICE. -/
inductive Background where
  | evictL1 (array : Nat) (line : Nat)
  | evictL2 (die : Nat) (line : Nat)
  | evictLlc (line : Nat)
  | evictBundle (array : Nat) (line : Nat)
  | dropTlb (n : Nat)
  | engineUnit (id : Nat)
  | memoryError (granule : Nat)
  | llcError (granule : Nat)
  | remoteTask (array : Nat) (ctx : Nat) (spad : Nat)
  | correctable (stack : Nat)
  | scrubLine (line : Nat)
  | cellError (array : Nat) (cell : Nat) (place : Nat)
  deriving DecidableEq, Repr

/-- One turn of the schedule: ticks that pass, the bench that is current, what happens in the background, and the
event. -/
structure Turn where
  ticks : Nat
  head : Nat
  background : List Background
  event : Instr
  deriving DecidableEq, Repr

/-! ## The module -/

/-- The whole machine. -/
structure State where
  arrays : Tab ArrayState
  runs : Tab Run
  dies : Vector Die 4
  -- memory at the .pod point: HBM bytes; the LLC's lines with the key slot of each, its dirty bytes and the key tags that they will bring;
  -- marks and tags by granule; images written over their slots with the bytes written there since
  mem : Tab Byte
  llc : Tab Byte
  llcLines : Tab LlcLine
  llcTags : Tab (Option KeyTag)
  veil : List Veil
  unveiled : Tab Byte
  poison : List Nat
  latent : List Nat
  tags : Tab KeyTag
  compressed : Tab Nat
  franks : Tab (List Nat)
  -- the lines that the host has written (R272)
  hostLines : List Nat
  tlb : List TlbEntry
  -- the arrays of other modules of the pod that run a task: its context and its scratchpad size code (R244)
  remote : Tab (Nat × Nat)
  -- channels (R309 to R311)
  frames : Tab Nat
  autoSwap : Bool
  swapInterval : DWord
  swapAt : Nat
  swaps : Nat
  requests : List Request
  -- the lines of each channel that the scrub in progress has read one by one (R308, R311)
  scrubs : Tab Nat
  budgets : Vector (BitVec 16) 4
  chanCount : Tab Nat
  missed : Tab Nat
  corrected : Tab Nat
  -- tasks, engines, post ring, barriers
  tasks : List Task
  nextTask : Nat
  contexts : List Context
  lastBox : Nat
  cmds : List Cmd
  nextCmd : Nat
  packets : List Packet
  -- the array of a stop that sent a POST last, by 16 x die, 8 x CCW and stop (R199)
  postTurn : Tab Nat
  barriers : List Barrier
  -- management (R318, R319)
  modId : BitVec 10
  bootStat : DWord
  mcmd : Vector DWord 8
  mstat : BitVec 2
  merr : BitVec 8
  mkey : Vector DWord 8
  hcopy : DWord
  keys : Tab KeySlot
  age : DWord
  reserve : DWord
  fltTmo : DWord
  routes : Tab (BitVec 18)
  portsDown : BitVec 18
  portFails : Tab Nat
  pod : List Nat
  flash : Tab (List Byte)
  -- the images of the hub and of the supervisor that boot loaded and that run, where it accepted one (R325, R327)
  hubImage : Option (List Byte)
  supImage : Option (List Byte)
  recovery : Bool
  powered : Bool
  -- the host
  hostMem : Tab Byte
  messages : List (BitVec 11)
  hostReads : List (List Byte)
  -- time, and the model's own fields (log entry 1, DESIGN CHOICE; log entry 4, DESIGN CHOICE)
  ticks : Nat
  cur : Nat
  sched : List Turn
  freeCtr : Nat
  deriving DecidableEq, Repr

/-- Why a step cannot be made. -/
inductive Fault where
  /-- A bench event or a slot instruction met no running task at the current bench. Raised by every meaning that acts
  on a bench. Safe: the specification gives such a step no effect, since no sequencer issues (R25, R28). -/
  | noBench
  deriving DecidableEq, Repr

/-- Why an instruction has no meaning in the model. -/
inductive Refusal where
  /-- The instruction of this mnemonic has no meaning in the model yet. Raised by the dispatch alone. Safe: nothing is
  claimed of it. -/
  | notModelled (mnemonic : String)
  deriving DecidableEq, Repr

/-! ## Reset -/

/-- A word that holds 0 with V = 0 (R14). -/
def VWord.zero : VWord := ⟨0, false⟩
/-- A pair of such words. -/
def VPair.zero : VPair := ⟨VWord.zero, VWord.zero⟩

/-- A cell at a task's first bundle (R14). -/
def Cell.reset : Cell :=
  { g := Vector.replicate 44 VWord.zero, p := 1, acc := Vector.replicate 4 ⟨Vector.replicate 16 0, false⟩,
    ch := VPair.zero, cv := VPair.zero, tsa := 0x3F800000, tsb := 0x3F800000, active := 0xF, store := [],
    latches := [], gbase := 0, pbase := 0, hist := [], ue := [], touched := [] }

/-- A lane that has taken nothing. -/
def Lane.reset : Lane := { taken := [], buf := [], queue := [] }

/-- The counts of an FDFLUSH with nothing counted yet. -/
def Flush.zero : Flush := { stamp := 0, rcpt := .store 0 0 0, va := 0, head := 0, ctx := 0, written := 0, overrun := none, err := none, lines := [] }

/-- A face at a task's first bundle (R28). -/
def Face.reset : Face :=
  { src := false, log := [], nextPid := 0, bank0 := none, bank1 := none, pending := none, lanes := [], flushes := [],
    tally := Flush.zero }

/-- An array that no task has used (R28). -/
def ArrayState.reset : ArrayState :=
  { cells := [], front := [], store := [], storePoison := [], spad := 0, l1 := [], icache := [], lastCtx := 0,
    west := Face.reset, north := Face.reset, east := Face.reset, south := Face.reset, inbox := [], restored := false, blocks := [] }

/-- A full register that holds a value. -/
def SReg.of (x : DWord) : SReg := ⟨x, true, none⟩

/-- A closed loop level (R23, R133). -/
def Level.reset : Level := ⟨false, 0, 0, 0, 0, 0, 0⟩

/-- The flag state before any record is readable (R48, R133). -/
def Flags.reset : Flags := ⟨false, true, 0, 0xFFFFFFFF⟩

/-- A trap report with every field 0. -/
def TrapInfo.zero : TrapInfo := ⟨0, 0, 0, 0, 0, 0, 0, 0, false, 0, 0, false, false, false⟩

/-- The trap registers at task start (R294). -/
def TrapRegs.reset : TrapRegs :=
  { tvec := 0, tfp := 0, info := TrapInfo.zero, active := false, cap := false, tbun := 0, trselArr := 0,
    trselRow := 0, ncap := 0, tpc := 0 }

/-- The image of semiring entry 0 (R93), which entries 8 to 15 reset to. -/
def semEntry0 : DWord := 0x00003F8000000800

/-- The sequencer and the wave of a task at its first bundle (R21, R24), for a bench of the given arrays. -/
def Run.reset (ctx task : Nat) (arrays : List Nat) (spad : Nat) (entry : BitVec 55) (s1 s2 s3 : DWord) : Run :=
  { ctx := ctx, task := task, head := arrays.headD 0, arrays := arrays, spad := spad, bench := s3,
    s := (((Vector.replicate 64 (SReg.of 0)).set 1 (SReg.of s1)).set 2 (SReg.of s2)).set 3 (SReg.of s3),
    q := 1, pc := entry, levels := Vector.replicate 4 Level.reset, depth := 0, base := 0, rg := 0, rs := 0,
    sbase := 0, fmt := 0, fmtPend := [], srt := Vector.replicate 8 semEntry0, semPend := [],
    msk := Vector.replicate 16 0xFFFFFFFF, skew := false, blanks := 0, num := 0, stamp := 0, tag := none, flags := Flags.reset,
    records := [], exits := Vector.replicate 4 none, xflags := 0, rndseed := 0, stallTmo := 0x01000000, feq := 0,
    fetmo := 0x01000000, lscope := 5, barn := 1, cstk := Vector.replicate 16 0, csp := 0, trap := TrapRegs.reset,
    saved := none, docket := none, loads := [], wrote := [], rel := none, relFrank := [], flights := [],
    issued := [], advs := 0, vadvs := 0, kept := [], redo := false, mute := false, stall := none, face := none, arrived := none,
    waitEnd := none, precvEnd := none, drainFor := none, closing := none,
    phase := .issue, ueStore := [], intr := false, preempt := false, started := 0 }

/-- A quadrant at module reset (R132, R323). Log entry 6: DESIGN CHOICE. -/
def Quadrant.reset : Quadrant :=
  { thresh := 690, stretch := 6, hold := 64, count := 0, armed := true, stretching := false, holdOf := none, made := [] }

/-- A die at module reset. Log entry 6: DESIGN CHOICE. -/
def Die.reset : Die :=
  { alive := true, l2 := [], dlr := [], frozen := false, powerList := [], flashDlr := [],
    quads := Vector.replicate 4 Quadrant.reset }

/-- The module right after reset (INVENTORY.md, State). No task runs and no context exists. Log entry 5: DESIGN CHOICE.
Log entry 6: DESIGN CHOICE. Log entry 34: DESIGN CHOICE. Log entry 63: DEDUCED. -/
def State.reset : State :=
  { arrays := [], runs := [], dies := Vector.replicate 4 Die.reset, mem := [], llc := [], llcLines := [], llcTags := [],
    veil := [], unveiled := [], remote := [], poison := [], latent := [], tags := [],
    compressed := [], franks := [], hostLines := [], tlb := [], frames := [], autoSwap := false, swapInterval := 0,
    swapAt := 0, swaps := 0, requests := [], scrubs := [], budgets := #v[64, 256, 1024, 16384], chanCount := [],
    missed := [], corrected := [], tasks := [], nextTask := 0, contexts := [], lastBox := 0, cmds := [],
    nextCmd := 0, packets := [], postTurn := [], barriers := [], modId := 0, bootStat := 0, mcmd := Vector.replicate 8 0,
    mstat := 0, merr := 0, mkey := Vector.replicate 8 0, hcopy := 0, keys := [], age := 0, reserve := 0,
    fltTmo := 0, routes := [], portsDown := 0, portFails := [], pod := [], flash := [], hubImage := none, supImage := none, recovery := false,
    powered := true, hostMem := [], messages := [], hostReads := [], ticks := 1, cur := 0, sched := [],
    freeCtr := 0 }

end Sys2Proof.Machine
end

