-- ==== Sys2Proof/Machine/Tables.lean ====
section
/-!
DEFINITION. Operations on tables and lists of bytes: find, put and erase in a sorted table, and little-endian
words out of bytes (00_scope.md R4).
-/

namespace Sys2Proof.Machine

/-- The value that a table lists for a key. -/
def tabFind {α : Type} : Tab α → Nat → Option α
  | [], _ => none
  | (a, v) :: t, k => if a = k then some v else tabFind t k

/-- The value of a key, or the default. -/
def tabGet {α : Type} (d : α) (t : Tab α) (k : Nat) : α := (tabFind t k).getD d

/-- The table with one key set: the list stays in rising key order. -/
def tabPut {α : Type} : Tab α → Nat → α → Tab α
  | [], k, v => [(k, v)]
  | (a, w) :: t, k, v =>
    if k < a then (k, v) :: (a, w) :: t else if a = k then (k, v) :: t else (a, w) :: tabPut t k v

/-- The table without a key. -/
def tabErase {α : Type} (t : Tab α) (k : Nat) : Tab α := t.filter (fun e => e.1 != k)

/-- The table with one key set, where the default value is not listed: the canonical form. -/
def tabSet {α : Type} [DecidableEq α] (d : α) (t : Tab α) (k : Nat) (v : α) : Tab α :=
  if v = d then tabErase t k else tabPut t k v

/-- The keys rise strictly. -/
def tabSorted {α : Type} : Tab α → Bool
  | [] => true
  | [_] => true
  | (a, _) :: (b, w) :: t => decide (a < b) && tabSorted ((b, w) :: t)

/-- The canonical form of a table with a default: keys strictly rising, no entry equal to the default. -/
def tabWf {α : Type} [DecidableEq α] (d : α) (t : Tab α) : Bool :=
  tabSorted t && t.all (fun e => decide (e.2 ≠ d))

/-- A set of numbers, as a sorted list with one added. -/
def setAdd : List Nat → Nat → List Nat
  | [], k => [k]
  | a :: t, k => if k < a then k :: a :: t else if a = k then a :: t else a :: setAdd t k

/-- The set without a number. -/
def setDel (l : List Nat) (k : Nat) : List Nat := l.filter (fun a => a != k)

/-- The union of two sets. -/
def setUnion (a b : List Nat) : List Nat := b.foldl setAdd a

/-- The numbers from `a`, `n` of them. -/
def span (a n : Nat) : List Nat := (List.range n).map (a + ·)

/-- The number that little-endian bytes hold (R4). -/
def leNat : List Byte → Nat
  | [] => 0
  | b :: t => b.toNat + 256 * leNat t

/-- The `n` little-endian bytes of a number (R4). -/
def leBytes : Nat → Nat → List Byte
  | 0, _ => []
  | n + 1, x => BitVec.ofNat 8 x :: leBytes n (x / 256)

/-- A list of bytes cut into the numbers of `n`-byte little-endian words. -/
def leWords (n : Nat) : Nat → List Byte → List Nat
  | 0, _ => []
  | k + 1, bs => leNat (bs.take n) :: leWords n k (bs.drop n)

/-- The list with the element at an index replaced. -/
def listSet {α : Type} (l : List α) (i : Nat) (v : α) : List α := l.set i v

/-- The list with the elements that meet a test replaced. -/
def listUpd {α : Type} (l : List α) (p : α → Bool) (f : α → α) : List α := l.map (fun x => if p x then f x else x)

end Sys2Proof.Machine
end

