-- ==== Sys2Proof/Machine/Bits.lean ====
section
/-!
DEFINITION. Bit helpers: counts, sign extension, Philox4x32-10 (07_numbers.md R80) and CRC-32C (23_traps.md R302).
-/

namespace Sys2Proof.Machine

/-- A bit as a number. -/
def b2n (b : Bool) : Nat := if b then 1 else 0

/-- The one bits of a word. -/
def popCount {w : Nat} (x : BitVec w) : Nat := ((List.range w).filter (fun i => x.getLsbD i)).length

/-- The leading zero bits of a word. -/
def leadingZeros {w : Nat} (x : BitVec w) : Nat := if x = 0 then w else w - 1 - Nat.log2 x.toNat

/-- `n` low bits of a number read as two's complement. -/
def sext (n : Nat) (x : Nat) : Int := if x % 2 ^ n < 2 ^ (n - 1) then (x % 2 ^ n : Nat) else (x % 2 ^ n : Nat) - (2 ^ n : Nat)

/-- A number wrapped to `n` bits. -/
def wrap (n : Nat) (x : Int) : Nat := (x % (2 ^ n : Nat)).toNat

/-- The low `n` bits set. -/
def ones (n : Nat) : Nat := 2 ^ n - 1

/-- A 64-bit word of two halves. -/
def mkD (hi lo : Word) : DWord := hi ++ lo

/-- The low half. -/
def loW (x : DWord) : Word := x.extractLsb' 0 32
/-- The high half. -/
def hiW (x : DWord) : Word := x.extractLsb' 32 32

/-- One Philox round (R80): X0, X1, X2, X3 and the keys. -/
def philoxRound (x : Word × Word × Word × Word) (k0 k1 : Word) : Word × Word × Word × Word :=
  let p0 := 0xD2511F53 * x.1.toNat
  let p1 := 0xCD9E8D57 * x.2.2.1.toNat
  (BitVec.ofNat 32 (p1 / 2 ^ 32) ^^^ x.2.1 ^^^ k0, BitVec.ofNat 32 p1,
   BitVec.ofNat 32 (p0 / 2 ^ 32) ^^^ x.2.2.2 ^^^ k1, BitVec.ofNat 32 p0)

/-- `n` Philox rounds, the keys raised after each. -/
def philoxRounds : Nat → Word × Word × Word × Word → Word → Word → Word × Word × Word × Word
  | 0, x, _, _ => x
  | n + 1, x, k0, k1 => philoxRounds n (philoxRound x k0 k1) (k0 + 0x9E3779B9) (k1 + 0xBB67AE85)

/-- Philox4x32-10 (R80). -/
def philox (x0 x1 x2 x3 k0 k1 : Word) : Word × Word × Word × Word := philoxRounds 10 (x0, x1, x2, x3) k0 k1

/-- The key words of R80 for a seed and a bundle number. -/
def philoxKey (seed : DWord) (num : Nat) : Word × Word := (loW seed, hiW seed + BitVec.ofNat 32 num)

/-- One bit of CRC-32C, reflected. -/
def crcBit (c : Word) : Word := if c.getLsbD 0 then (c >>> 1) ^^^ 0x82F63B78 else c >>> 1

/-- `n` bits of CRC-32C. -/
def crcBits : Nat → Word → Word
  | 0, c => c
  | n + 1, c => crcBits n (crcBit c)

/-- One byte fed into CRC-32C (R302). -/
def crcByte (c : Word) (b : Byte) : Word := crcBits 8 (c ^^^ b.zeroExtend 32)

/-- Bytes fed into the running CRC-32C (R302). -/
def crcFeed (c : Word) (bs : List Byte) : Word := bs.foldl crcByte c

end Sys2Proof.Machine
end

