-- ==== Sys2Proof/Machine/Number.lean ====
section
/-!
DEFINITION. Numbers (07_numbers.md R74 to R86, R92): formats, exact values, rounding, overflow, flushing and
conversion. Every value that an instruction rounds is a whole number times a power of two, so it is held exactly.
-/

namespace Sys2Proof.Machine

/-- Exception flags of R84 by bit: INV 0, OVF 1, UNF 2, IND 3, SCL 4. -/
abbrev XFlags := BitVec 5
def xInv : XFlags := 1
def xOvf : XFlags := 2
def xUnf : XFlags := 4
def xInd : XFlags := 8
def xScl : XFlags := 16

/-- A number as read: NaN, an infinity, or (−1)^neg × m × 2^e. A zero keeps its sign. -/
inductive ExactNum where
  | nan
  | inf (neg : Bool)
  | fin (neg : Bool) (m : Nat) (e : Int)
  deriving DecidableEq, Repr

/-- A floating-point format (R74): its fraction bits, exponent bits and bias; `e4m3` has no infinities. -/
structure FloatFmt where
  fbits : Nat
  ebits : Nat
  bias : Nat
  e4m3 : Bool
  deriving DecidableEq, Repr

/-- FP32 (R74). -/
def fp32 : FloatFmt := ⟨23, 8, 127, false⟩
/-- FP16 (R74). -/
def fp16 : FloatFmt := ⟨10, 5, 15, false⟩
/-- BF16 (R74). -/
def bf16 : FloatFmt := ⟨7, 8, 127, false⟩
/-- E4M3 (R74). -/
def fpE4m3 : FloatFmt := ⟨3, 4, 7, true⟩
/-- E5M2 (R74). -/
def fpE5m2 : FloatFmt := ⟨2, 5, 15, false⟩
/-- binary64, for AFADD and the seals of R189. -/
def fp64 : FloatFmt := ⟨52, 11, 1023, false⟩

/-- All-ones exponent. -/
def FloatFmt.emax (f : FloatFmt) : Nat := 2 ^ f.ebits - 1
/-- Bits of the format. -/
def FloatFmt.width (f : FloatFmt) : Nat := 1 + f.ebits + f.fbits
/-- The canonical NaN (R74, R75). -/
def FloatFmt.nan (f : FloatFmt) : Nat :=
  if f.e4m3 then 0x7F else f.emax * 2 ^ f.fbits + 2 ^ (f.fbits - 1)
/-- The encoding of an infinity; the NaN of E4M3, which has none (R81). -/
def FloatFmt.infBits (f : FloatFmt) (neg : Bool) : Nat :=
  if f.e4m3 then 0x7F else b2n neg * 2 ^ (f.width - 1) + f.emax * 2 ^ f.fbits
/-- The encoding of the largest finite magnitude (R74). -/
def FloatFmt.maxBits (f : FloatFmt) : Nat :=
  if f.e4m3 then 0x7E else (f.emax - 1) * 2 ^ f.fbits + (2 ^ f.fbits - 1)

/-- The value of an encoding (R74). -/
def FloatFmt.read (f : FloatFmt) (bits : Nat) : ExactNum :=
  let neg := bits / 2 ^ (f.width - 1) % 2 == 1
  let e := bits / 2 ^ f.fbits % 2 ^ f.ebits
  let m := bits % 2 ^ f.fbits
  if f.e4m3 && e == f.emax && m == 7 then .nan
  else if !f.e4m3 && e == f.emax then (if m == 0 then .inf neg else .nan)
  else if e == 0 then .fin neg m (1 - (f.bias : Int) - f.fbits)
  else .fin neg (m + 2 ^ f.fbits) ((e : Int) - f.bias - f.fbits)

/-- An encoding is subnormal (R82): exponent 0, fraction not 0. -/
def FloatFmt.subnormal (f : FloatFmt) (bits : Nat) : Bool :=
  bits / 2 ^ f.fbits % 2 ^ f.ebits == 0 && bits % 2 ^ f.fbits != 0

/-- The value of an input under SUBN (R82): a subnormal reads as zero of its sign when SUBN = 2. -/
def FloatFmt.readIn (f : FloatFmt) (subn : Nat) (bits : Nat) : ExactNum :=
  if subn == 2 && f.subnormal bits then .fin (bits / 2 ^ (f.width - 1) % 2 == 1) 0 0 else f.read bits

/-- The rounding modes of R79. -/
inductive Mode where
  | rne | rz | ru | rd | sr
  deriving DecidableEq, Repr

/-- The mode of an RM code (R85). -/
def modeOf (c : Nat) : Mode :=
  match c with
  | 0 => .rne | 1 => .rz | 2 => .ru | 3 => .rd | _ => .sr

/-- How a result is rounded: mode, SAT, SUBN and the draw U of the result element (R80 to R82). -/
structure Rounding where
  mode : Mode
  sat : Bool
  subn : Nat
  draw : Nat
  deriving DecidableEq, Repr

/-- Round to nearest even, no saturation, subnormals kept: AFADD, collectives (R127, R188). -/
def roundPlain : Rounding := ⟨.rne, false, 0, 0⟩

/-- A magnitude m × 2^e in units of 2^u, rounded (R79, R80). -/
def roundUnits (md : Mode) (draw : Nat) (neg : Bool) (m : Nat) (e u : Int) : Nat :=
  if u ≤ e then m * 2 ^ (e - u).toNat
  else
    let sh := (u - e).toNat
    let q := m / 2 ^ sh
    let r := m % 2 ^ sh
    if r == 0 then q
    else
      let up : Bool := match md with
        | .rne => decide (2 ^ sh < 2 * r) || (2 * r == 2 ^ sh && q % 2 == 1)
        | .rz => false
        | .ru => !neg
        | .rd => neg
        | .sr => decide (draw * 2 ^ sh < r * 2 ^ 24)
      if up then q + 1 else q

/-- The exponent of the unit in the last place for a magnitude (R74): not below that of the subnormals. -/
def FloatFmt.unit (f : FloatFmt) (m : Nat) (e : Int) : Int :=
  max ((Nat.log2 m : Int) + e - f.fbits) (1 - (f.bias : Int) - f.fbits)

/-- The encoding of q × 2^u, where u is the unit of the value and q has at most fbits + 1 bits. -/
def FloatFmt.pack (f : FloatFmt) (neg : Bool) (q : Nat) (u : Int) : Nat :=
  let s := b2n neg * 2 ^ (f.width - 1)
  if q < 2 ^ f.fbits then s + q
  else s + (u + f.bias + f.fbits).toNat * 2 ^ f.fbits + (q - 2 ^ f.fbits)

/-- The overflowed result and its flag (R81). -/
def FloatFmt.overflow (f : FloatFmt) (r : Rounding) (neg : Bool) : Nat × XFlags :=
  let big := b2n neg * 2 ^ (f.width - 1) + f.maxBits
  let toMax := r.sat || r.mode == .rz || (r.mode == .rd && !neg) || (r.mode == .ru && neg)
  (if toMax then big else f.infBits neg, xOvf)

/-- Rounding of an exact value to a format, with its flags (R79 to R82). -/
def FloatFmt.round (f : FloatFmt) (r : Rounding) (x : ExactNum) : Nat × XFlags :=
  match x with
  | .nan => (f.nan, 0)
  | .inf neg =>
    if f.e4m3 then (if r.sat then b2n neg * 2 ^ (f.width - 1) + f.maxBits else f.nan, xOvf)
    else (f.infBits neg, 0)
  | .fin neg m e =>
    let sgn := b2n neg * 2 ^ (f.width - 1)
    if m == 0 then (sgn, 0)
    else
      let u0 := f.unit m e
      let q0 := roundUnits r.mode r.draw neg m e u0
      -- a round up to the next power of two
      let (q, u) := if q0 == 2 ^ (f.fbits + 1) then (2 ^ f.fbits, u0 + 1) else (q0, u0)
      if q < 2 ^ f.fbits then
        if r.subn == 0 then (sgn + q, 0) else (sgn, xUnf)
      else if decide (f.maxBits < (f.pack false q u)) then f.overflow r neg
      else (f.pack neg q u, 0)

/-- The value with its sign bit inverted. -/
def ExactNum.negate : ExactNum → ExactNum
  | .nan => .nan
  | .inf n => .inf (!n)
  | .fin n m e => .fin (!n) m e

/-- A zero of either sign. -/
def ExactNum.isZero : ExactNum → Bool
  | .fin _ m _ => m == 0
  | _ => false

/-- An infinity. -/
def ExactNum.isInf : ExactNum → Bool
  | .inf _ => true
  | _ => false

/-- The sign. -/
def ExactNum.sign : ExactNum → Bool
  | .nan => false
  | .inf n => n
  | .fin n _ _ => n

/-- The signed mantissa of a finite value in units of 2^u, for u at most its exponent. -/
def scaled (neg : Bool) (m : Nat) (e u : Int) : Int :=
  let x : Int := m * 2 ^ (e - u).toNat
  if neg then -x else x

/-- The exact sum of two finite values, and the sign of an exact zero (R79). -/
def addFin (rd : Bool) (n1 : Bool) (m1 : Nat) (e1 : Int) (n2 : Bool) (m2 : Nat) (e2 : Int) : ExactNum :=
  let u := min e1 e2
  let t := scaled n1 m1 e1 u + scaled n2 m2 e2 u
  if t == 0 then .fin (if n1 == n2 then n1 else rd) 0 0 else .fin (decide (t < 0)) t.natAbs u

/-- The exact sum; an infinity with the opposite one gives NaN and true (R144). -/
def ExactNum.add (rd : Bool) (x y : ExactNum) : ExactNum × Bool :=
  match x, y with
  | .nan, _ => (.nan, false)
  | _, .nan => (.nan, false)
  | .inf a, .inf b => if a == b then (.inf a, false) else (.nan, true)
  | .inf a, _ => (.inf a, false)
  | _, .inf b => (.inf b, false)
  | .fin a m e, .fin b n d => (addFin rd a m e b n d, false)

/-- The exact product; a zero with an infinity gives NaN and true (R144). -/
def ExactNum.mul (x y : ExactNum) : ExactNum × Bool :=
  match x, y with
  | .nan, _ => (.nan, false)
  | _, .nan => (.nan, false)
  | .inf a, .inf b => (.inf (a != b), false)
  | .inf a, .fin b m _ => if m == 0 then (.nan, true) else (.inf (a != b), false)
  | .fin a m _, .inf b => if m == 0 then (.nan, true) else (.inf (a != b), false)
  | .fin a m e, .fin b n d => (.fin (a != b) (m * n) (e + d), false)

/-- Numeric order, with −0 equal to +0; false when either is NaN. -/
def ExactNum.lt (x y : ExactNum) : Bool :=
  match x, y with
  | .nan, _ => false
  | _, .nan => false
  | .inf a, .inf b => a && !b
  | .inf a, .fin _ _ _ => a
  | .fin _ _ _, .inf b => !b
  | .fin a m e, .fin b n d => decide (scaled a m e (min e d) < scaled b n d (min e d))

/-- Numeric equality, with −0 equal to +0; false when either is NaN. -/
def ExactNum.eqv (x y : ExactNum) : Bool :=
  match x, y with
  | .nan, _ => false
  | _, .nan => false
  | _, _ => !(x.lt y) && !(y.lt x)

/-- The order of minimum and maximum: numeric, with −0 below +0 (R94, R144). -/
def ExactNum.below (x y : ExactNum) : Bool :=
  x.lt y || (x.isZero && y.isZero && x.sign && !y.sign)

/-- The minimum; NaN when either is NaN (R144). -/
def ExactNum.min (x y : ExactNum) : ExactNum :=
  match x, y with
  | .nan, _ => .nan
  | _, .nan => .nan
  | _, _ => if y.below x then y else x

/-- The maximum; NaN when either is NaN (R144). -/
def ExactNum.max (x y : ExactNum) : ExactNum :=
  match x, y with
  | .nan, _ => .nan
  | _, .nan => .nan
  | _, _ => if x.below y then y else x

/-- An integer as a number; zero is +0. -/
def numOfInt (i : Int) : ExactNum := .fin (decide (i < 0)) i.natAbs 0

/-- Rounding of a finite value to an integer (R83, R148). -/
def roundInt (md : Mode) (draw : Nat) (neg : Bool) (m : Nat) (e : Int) : Int :=
  let q := roundUnits md draw neg m e 0
  if neg then -(q : Int) else q

/-- Clamping to two's complement of `w` bits. -/
def clampInt (w : Nat) (i : Int) : Int := max (-(2 ^ (w - 1) : Nat) : Int) (min ((2 ^ (w - 1) : Nat) - 1 : Int) i)

/-- Conversion to an integer of `w` bits (R83): rounded, clamped, INV on a clamp; NaN gives 0 with INV. -/
def toIntFmt (w : Nat) (r : Rounding) (x : ExactNum) : Int × XFlags :=
  match x with
  | .nan => (0, xInv)
  | .inf neg => (if neg then -(2 ^ (w - 1) : Nat) else (2 ^ (w - 1) : Nat) - 1, xInv)
  | .fin neg m e =>
    let i := roundInt r.mode r.draw neg m e
    (clampInt w i, if clampInt w i == i then 0 else xInv)

/-- An integer result in `w` bits (R81): wrapped, or clamped with OVF under SAT. -/
def fitInt (w : Nat) (sat : Bool) (i : Int) : Int × XFlags :=
  if sat then (clampInt w i, if clampInt w i == i then 0 else xOvf) else (sext w (wrap w i), 0)

/-! ## The fields of FMT (R85) -/

def fmtA (f : BitVec 32) : Nat := (fld f 0 4).toNat
def fmtB (f : BitVec 32) : Nat := (fld f 4 4).toNat
def fmtAq (f : BitVec 32) : Nat := (fld f 8 4).toNat
def fmtBq (f : BitVec 32) : Nat := (fld f 12 4).toNat
def fmtAccInt (f : BitVec 32) : Bool := bit f 16
def fmtRm (f : BitVec 32) : Nat := (fld f 17 3).toNat
def fmtSubn (f : BitVec 32) : Nat := (fld f 20 2).toNat
def fmtSat (f : BitVec 32) : Bool := bit f 22
def fmtBse (f : BitVec 32) : Bool := bit f 23
/-- The flags that trap (R84, R85): INV, OVF and SCL under their TEN bits. -/
def fmtTraps (f : BitVec 32) : XFlags :=
  (if bit f 26 then xInv else 0) ||| (if bit f 25 then xOvf else 0) ||| (if bit f 24 then xScl else 0)

/-- The k of a fragment format (R78), for a format code and its plane count; 0 for an unassigned pair. -/
def fragK (code planes : Nat) : Nat :=
  match code with
  | 0 | 1 => 1
  | 2 | 3 | 4 => 2
  | 5 => match planes with | 2 => 8 | 4 => 4 | 8 => 2 | _ => 0
  | 6 => 16
  | _ => 0

/-- A valid FMT value (R86). -/
def fmtValid (f : BitVec 32) : Bool :=
  let a := fmtA f; let b := fmtB f
  let okQ (c q : Nat) := if c == 5 then q == 2 || q == 4 || q == 8 else q == 0
  fld f 27 5 == 0 && a ≤ 6 && b ≤ 6 && okQ a (fmtAq f) && okQ b (fmtBq f)
    && fragK a (fmtAq f) == fragK b (fmtBq f) && fmtRm f ≤ 4 && fmtSubn f != 3
    && (!fmtAccInt f || (4 ≤ a && 4 ≤ b))

/-- The rounding that an FMT value states, with a draw (R79 to R82). -/
def fmtRounding (f : BitVec 32) (draw : Nat) : Rounding := ⟨modeOf (fmtRm f), fmtSat f, fmtSubn f, draw⟩

/-- RD is in effect: the sign of an exact zero sum (R79). -/
def fmtDown (f : BitVec 32) : Bool := fmtRm f == 3

end Sys2Proof.Machine
end

