-- ==== Sys2Proof/Machine/Approx.lean ====
section
/-!
DEFINITION. FRCP, FRSQ, FEXP2, FLOG2 and FTANH (07_numbers.md R92, 11_cell_isa.md R146). Where the tables state the result,
it is that one. Elsewhere R92 states a bound and no value: the result is the free value `Config.approx` of the
operation and the input, kept to the bound by comparing it with an enclosure of the exact result; a free value
outside it is replaced by the middle of the enclosure, rounded to FP32 (log entry 7, DESIGN CHOICE).
-/

namespace Sys2Proof.Machine

/-- Bits after the point of the enclosures. -/
def encBits : Nat := 160

/-- A fixed-point value, in units of 2^−160, with the distance within which the exact result lies from it. -/
structure Enc where
  mid : Int
  err : Nat
  deriving DecidableEq, Repr

/-- ln 2 in units of 2^−160. -/
def ln2Fix : Nat := 0xB17217F7D1CF79ABC9E3B39803F2F6AF40F34326

/-- A finite value in units of 2^−160, toward −∞. -/
def toFix (neg : Bool) (m : Nat) (e : Int) : Int :=
  let x : Int := if 0 ≤ e + encBits then (m * 2 ^ (e + encBits).toNat : Nat) else (m / 2 ^ (-(e + encBits)).toNat : Nat)
  if neg then -x else x

/-- Terms of the exponential series: `t` is the last term, `k` its index. -/
def expTerms : Nat → Nat → Nat → Nat → Nat
  | 0, _, _, _ => 0
  | n + 1, x, t, k =>
    let t' := t * x / 2 ^ encBits / (k + 1)
    t' + expTerms n x t' (k + 1)

/-- 2^f for a fraction f, 0 ≤ f < 1, both in units of 2^−160. -/
def exp2Frac (f : Nat) : Nat :=
  let x := f * ln2Fix / 2 ^ encBits
  2 ^ encBits + expTerms 48 x (2 ^ encBits) 0

/-- Bits of log2 of a mantissa in [1, 2), by squaring: `n` bits, `w` the weight of the next, in units of 2^−160. -/
def log2Bits : Nat → Nat → Nat → Nat
  | 0, _, _ => 0
  | n + 1, m, w =>
    let s := m * m / 2 ^ 240
    if 2 ^ 241 ≤ s then w + log2Bits n (s / 2) (w / 2) else log2Bits n s (w / 2)

/-- 2^a: its exponent offset n and the enclosure of 2^(a − n), for a finite input. -/
def exp2Enc (neg : Bool) (m : Nat) (e : Int) : Int × Enc :=
  let x := toFix neg m e
  let n := x / (2 ^ encBits : Nat)
  (n, ⟨exp2Frac (x - n * (2 ^ encBits : Nat)).toNat, 2 ^ 20⟩)

/-- log2 of a positive finite value. -/
def log2Enc (m : Nat) (e : Int) : Enc :=
  let l := Nat.log2 m
  let f := log2Bits 100 (m * 2 ^ 240 / 2 ^ l) (2 ^ (encBits - 1))
  ⟨(e + l) * (2 ^ encBits : Nat) + f, 2 ^ 62⟩

/-- tanh of a positive finite magnitude above 2^−12: (y − 1) ÷ (y + 1) for y = 2^(2a ÷ ln 2). -/
def tanhEnc (m : Nat) (e : Int) : Enc :=
  let a := (toFix false m e).toNat
  if 32 * 2 ^ encBits ≤ a then ⟨(2 ^ encBits : Nat) - 1, 2 ^ 90⟩
  else
    let z := 2 * a * 2 ^ encBits / ln2Fix
    let n := z / 2 ^ encBits
    let y := exp2Frac (z % 2 ^ encBits) * 2 ^ n
    ⟨((y - 2 ^ encBits) * 2 ^ encBits / (y + 2 ^ encBits) : Nat), 2 ^ 90⟩

/-- A finite candidate lies within `n` ulp of an enclosed value times 2^off, wherever in the enclosure that lies (R92), where ulp is
2^(max(floor(log2 |y|), −126) − 23). -/
def withinUlp (n : Nat) (off : Int) (enc : Enc) (cand : ExactNum) : Bool :=
  match cand with
  | .fin cn cm ce =>
    -- the least exponent that the enclosure admits, so that the bound holds of every value in it
    let top := (Nat.log2 (enc.mid.natAbs - enc.err) : Int) - encBits + off
    let ulp := max top (-126) - 23
    -- compare in units of 2^u
    let u := min (min ce ulp) (off - encBits)
    let c := scaled cn cm ce u
    let y := enc.mid * 2 ^ (off - encBits - u).toNat
    let slack : Int := (n * 2 ^ (ulp - u).toNat : Nat) - (enc.err * 2 ^ (off - encBits - u).toNat : Nat)
    decide (y - slack ≤ c) && decide (c ≤ y + slack)
  | _ => false

/-- 1 ÷ a or 1 ÷ √a, enclosed: the quotient, or the root of it, in units of 2^−160 at an exponent that makes it
lie between 1/4 and 4. -/
def sqrtFix : Nat → Nat → Nat → Nat
  | 0, _, r => r
  | n + 1, x, r => let t := r + 2 ^ n; sqrtFix n x (if t * t ≤ x then t else r)

/-- 1 ÷ (m × 2^e): exponent offset and enclosure. -/
def rcpEnc (m : Nat) (e : Int) : Int × Enc :=
  let l := Nat.log2 m
  (-(e + l), ⟨(2 ^ (encBits + l) / m : Nat), 1⟩)

/-- 1 ÷ √(m × 2^e): exponent offset and enclosure. -/
def rsqEnc (m : Nat) (e : Int) : Int × Enc :=
  let l := Nat.log2 m
  let ex := e + l
  let h := ex / 2
  -- a = (m / 2^l) × 2^ex, and 2^ex = 2^(2h) × 2^(ex mod 2)
  let d := m * 2 ^ (ex % 2).toNat
  (-h, ⟨(sqrtFix (encBits + 2) (2 ^ (2 * encBits + l) / d) 0 : Nat), 2⟩)

/-- The free value of an operation and an input, kept to the bound of `n` ulp and to the sign of the exact result, then flushed under SUBN
(R82, R146): a zero stands for an exact result that is not zero, so that it is tiny. -/
def boundedApprox (op : Nat) (a : Word) (n : Nat) (neg : Bool) (off : Int) (enc : Enc) (subn : Nat) : Nat × XFlags :=
  let enc' : Enc := if neg then ⟨-enc.mid, enc.err⟩ else enc
  let cand := (Config.approx op a).toNat
  let c := fp32.read cand
  if withinUlp n off enc' c && (c.isZero || c.sign == neg) then
    (if c.isZero then (fp32.pack neg 0 0, if subn == 0 then 0 else xUnf) else fp32.round ⟨.rne, false, subn, 0⟩ c)
  else fp32.round ⟨.rne, false, subn, 0⟩ (.fin neg enc.mid.natAbs (off - encBits))

/-- A power of two: its exponent. -/
def pow2Exp (m : Nat) (e : Int) : Option Int := if m == 2 ^ Nat.log2 m then some (e + Nat.log2 m) else none

/-- A result that the tables of R146 state exactly, under SUBN. -/
def exactResult (subn : Nat) (x : ExactNum) : Nat × XFlags := fp32.round ⟨.rne, false, subn, 0⟩ x

/-- FRCP (R146). Log entry 7: DESIGN CHOICE. -/
def frcpOf (subn : Nat) (a : Word) : Nat × XFlags :=
  match fp32.readIn subn a.toNat with
  | .nan => (fp32.nan, 0)
  | .inf neg => (fp32.pack neg 0 0, 0)
  | .fin neg m e =>
    if m == 0 then (fp32.infBits neg, 0)
    else match pow2Exp m e with
      | some k => exactResult subn (.fin neg 1 (-k))
      | none =>
        let (off, enc) := rcpEnc m e
        -- a result of 2^128 or more overflows to infinity (R81), as RM and SAT are ignored
        if decide (129 ≤ off) then (fp32.infBits neg, xOvf) else boundedApprox 0 a 1 neg off enc subn

/-- FRSQ (R146). Log entry 7: DESIGN CHOICE. -/
def frsqOf (subn : Nat) (a : Word) : Nat × XFlags :=
  match fp32.readIn subn a.toNat with
  | .nan => (fp32.nan, 0)
  | .inf neg => if neg then (fp32.nan, xInv) else (0, 0)
  | .fin neg m e =>
    if m == 0 then (fp32.infBits neg, 0)
    else if neg then (fp32.nan, xInv)
    else match pow2Exp m e with
      | some k => if k % 2 == 0 then exactResult subn (.fin false 1 (-(k / 2)))
                  else let (off, enc) := rsqEnc m e; boundedApprox 1 a 1 false off enc subn
      | none => let (off, enc) := rsqEnc m e; boundedApprox 1 a 1 false off enc subn

/-- FEXP2 (R146): exact for whole inputs from −149 to 127, infinity with OVF from 128 up, zero below 2^−150. -/
def fexp2Of (subn : Nat) (a : Word) : Nat × XFlags :=
  match fp32.readIn subn a.toNat with
  | .nan => (fp32.nan, 0)
  | .inf neg => if neg then (0, 0) else (fp32.infBits false, 0)
  | .fin neg m e =>
    if m == 0 then exactResult subn (.fin false 1 0)
    else
      let x := ExactNum.fin neg m e
      let big := !x.lt (.fin false 128 0)
      let small := x.lt (.fin true 150 0)
      if big then (fp32.infBits false, xOvf)
      else if small then (0, if subn == 0 then 0 else xUnf)
      else if (decide (0 ≤ e) || m % 2 ^ (-e).toNat == 0) && !x.lt (.fin true 149 0) then
        exactResult subn (.fin false 1 (roundInt .rz 0 neg m e))
      else let (off, enc) := exp2Enc neg m e; boundedApprox 2 a 2 false off enc subn

/-- FLOG2 (R146). -/
def flog2Of (subn : Nat) (a : Word) : Nat × XFlags :=
  match fp32.readIn subn a.toNat with
  | .nan => (fp32.nan, 0)
  | .inf neg => if neg then (fp32.nan, xInv) else (fp32.infBits false, 0)
  | .fin neg m e =>
    if m == 0 then (fp32.infBits true, 0)
    else if neg then (fp32.nan, xInv)
    else match pow2Exp m e with
      | some k => exactResult subn (numOfInt k)
      | none =>
        let enc := log2Enc m e
        boundedApprox 3 a 2 (decide (enc.mid < 0)) 0 ⟨enc.mid.natAbs, enc.err⟩ subn

/-- tanh of a magnitude below 2^−12, as a ÷ 2^l for the mantissa's top bit l, in units of 2^−160: x − x a²/3 + 2 x a⁴/15, which lies below x by
one unit at least; the rest of the series is below x × 2^−74. -/
def tanhSmall (m : Nat) (e : Int) : Enc :=
  let x := m * 2 ^ encBits / 2 ^ Nat.log2 m
  let a := (toFix false m e).toNat
  let a2 := a * a / 2 ^ encBits
  let y := x - x * a2 / 2 ^ encBits / 3 + 2 * x * (a2 * a2 / 2 ^ encBits) / 2 ^ encBits / 15
  ⟨(min y (x - 1) : Nat), x / 2 ^ 74 + 4⟩

/-- FTANH (R146). -/
def ftanhOf (subn : Nat) (a : Word) : Nat × XFlags :=
  match fp32.readIn subn a.toNat with
  | .nan => (fp32.nan, 0)
  | .inf neg => (fp32.pack neg (2 ^ 23) (-23), 0)
  | .fin neg m e =>
    if m == 0 then (fp32.pack neg 0 0, 0)
    else if (ExactNum.fin false m e).lt (.fin false 1 (-12)) then
      boundedApprox 4 a 4 neg (e + Nat.log2 m) (tanhSmall m e) subn
    else boundedApprox 4 a 4 neg 0 (tanhEnc m e) subn

end Sys2Proof.Machine
end

