-- ==== Sys2Proof/Machine/Cipher.lean ====
section
/-!
DEFINITION. AES-256-XTS on a 64-byte line (25_device.md R314) and SHA-384 (25_device.md R325, R327). The specification
names these algorithms and states no more of them; they are those of FIPS 197, IEEE 1619 and FIPS 180-4 (log entry 8, PRESUMED).
-/

namespace Sys2Proof.Machine

/-! ## AES-256 -/

/-- The substitution table of AES, entry `i` in bits 8i + 7 to 8i. -/
def aesBox : Nat :=
  0x75B227EBE28012079A059618C323C7041531D871F1E5A534CCF73F362693FDB7C072A49CAFA2D4ADF04759FA7DC982CA76ABD7FE2B670130C56F6BF27B777C63 * 2 ^ 0
  + 0xD2F3FF1021DAB6BCF5389D928F40A351A89F3C507F02F94585334D43FBAAEFD0CF584C4A39BECB6A5BB1FC20ED00D153842FE329B3D63B52A05A6E1B1A2C8309 * 2 ^ 512
  + 0x08AE7A65EAF4566CA94ED58D6D37C8E779E4959162ACD3C25C2406490A3A32E0DB0B5EDE14B8EE4688902A22DC4F816073195D643D7EA7C41744975FEC130CCD * 2 ^ 1024
  + 0x16BB54B00F2D99416842E6BF0D89A18CDF2855CEE9871E9B948ED9691198F8E19E1DC186B95735610EF6034866B53E708A8BBD4B1F74DDE8C6B4A61C2E2578BA * 2 ^ 1536

/-- The inverse of the substitution table. -/
def aesBoxInv : Nat :=
  0x25D18B6D49A25B76B224D92866A12E084EC3FA420B954CEE3D23C2A632947B54CBE9DEC444438E3487FF2F9B8239E37CFBD7F3819EA340BF38A53630D56A0952 * 2 ^ 0
  + 0x6B8A130103BDAFC1020F3FCA8F1E2CD00645B3B80558E4F70AD3BC8C00ABD890849D8DA75746155EDAB9EDFD5048706C92B6655DCC5CA4D41698688664F6F872 * 2 ^ 512
  + 0xF45ACD78FEC0DB9A2079D2C64B3E56FC1BBE18AA0E62B76F89C5291D711AF1476EDF751CE837F9E28535ADE72274AC9673E6B4F0CECFF297EADC674F4111913A * 2 ^ 1024
  + 0x7D0C2155631469E126D677BA7E042B17619953833CBBEBC8B0F52AAE4D3BE0A0EF9CC9939F7AE52D0D4AB519A97F51605FEC8027591012B131C7078833A8DD1F * 2 ^ 1536

/-- An entry of a substitution table. -/
def boxAt (box : Nat) (b : Byte) : Byte := BitVec.ofNat 8 (box / 2 ^ (8 * b.toNat))

/-- A byte times x in the field of AES. -/
def xtime (b : Byte) : Byte := if bit b 7 then (b <<< 1) ^^^ 0x1B else b <<< 1

/-- A byte times a number below 16 in the field of AES. -/
def gmul (n : Nat) (b : Byte) : Byte :=
  let b2 := xtime b
  let b4 := xtime b2
  let b8 := xtime b4
  (if n.testBit 0 then b else 0) ^^^ (if n.testBit 1 then b2 else 0) ^^^ (if n.testBit 2 then b4 else 0) ^^^ (if n.testBit 3 then b8 else 0)

/-- Two lists of bytes added. -/
def xorBytes (a b : List Byte) : List Byte := a.zipWith (· ^^^ ·) b

/-- The next word of the key schedule, after `n` words in `ws`. -/
def aesNextWord (ws : List (List Byte)) (n : Nat) : List Byte :=
  let t := ws.getD (n - 1) []
  let rcon : List Byte := [BitVec.ofNat 8 (2 ^ (n / 8 - 1)), 0, 0, 0]
  let u :=
    if n % 8 == 0 then xorBytes ((t.drop 1 ++ t.take 1).map (boxAt aesBox)) rcon
    else if n % 8 == 4 then t.map (boxAt aesBox) else t
  xorBytes (ws.getD (n - 8) []) u

/-- The 15 round keys of a 32-byte key. -/
def aesRoundKeys (key : List Byte) : List (List Byte) :=
  let w0 := (List.range 8).map (fun i => (key.drop (4 * i)).take 4)
  let ws := (span 8 52).foldl (fun ws n => ws ++ [aesNextWord ws n]) w0
  (List.range 15).map (fun i => ((ws.drop (4 * i)).take 4).flatten)

/-- Row r of the block moves by r columns, forward or back. -/
def aesShift (back : Bool) (x : List Byte) : List Byte :=
  (List.range 16).map (fun i => x.getD ((if back then i + 12 * (i % 4) else i + 4 * (i % 4)) % 16) 0)

/-- Each column of the block times the matrix whose first row is given. -/
def aesMix (row : List Nat) (x : List Byte) : List Byte :=
  (List.range 16).map (fun i =>
    let c := i / 4 * 4
    (List.range 4).foldl (fun acc j => acc ^^^ gmul (row.getD ((j + 4 - i % 4) % 4) 0) (x.getD (c + j) 0)) 0)

/-- A block of 16 bytes enciphered under the round keys. -/
def aesEncrypt (rk : List (List Byte)) (x : List Byte) : List Byte :=
  let x0 := xorBytes x (rk.getD 0 [])
  let y := (span 1 13).foldl (fun x i => xorBytes (aesMix [2, 3, 1, 1] (aesShift false (x.map (boxAt aesBox)))) (rk.getD i [])) x0
  xorBytes (aesShift false (y.map (boxAt aesBox))) (rk.getD 14 [])

/-- A block of 16 bytes deciphered under the round keys. -/
def aesDecrypt (rk : List (List Byte)) (x : List Byte) : List Byte :=
  let x0 := ((aesShift true (xorBytes x (rk.getD 14 []))).map (boxAt aesBoxInv))
  let y := (span 1 13).foldl (fun x i =>
    (aesShift true (aesMix [14, 11, 13, 9] (xorBytes x (rk.getD (14 - i) [])))).map (boxAt aesBoxInv)) x0
  xorBytes y (rk.getD 0 [])

/-! ## XTS -/

/-- A tweak block times x in the field of XTS, little-endian. -/
def xtsDouble (t : BitVec 128) : BitVec 128 := if bit t 127 then (t <<< 1) ^^^ 0x87 else t <<< 1

/-- The tweak of block `j` of a data unit: its number enciphered under the second half of the key pair, times x to the j. -/
def xtsTweak (key : BitVec 512) (unit j : Nat) : List Byte :=
  let t := aesEncrypt (aesRoundKeys (leBytes 32 (key.toNat / 2 ^ 256))) (leBytes 16 unit)
  leBytes 16 ((List.range j).foldl (fun t _ => xtsDouble t) (BitVec.ofNat 128 (leNat t))).toNat

/-- Block `j` of data unit `unit` enciphered or deciphered under a key pair (R314; log entry 8, PRESUMED). -/
def xtsBlock (decipher : Bool) (key : BitVec 512) (unit j : Nat) (x : List Byte) : List Byte :=
  let t := xtsTweak key unit j
  let rk := aesRoundKeys (leBytes 32 key.toNat)
  xorBytes ((if decipher then aesDecrypt rk else aesEncrypt rk) (xorBytes x t)) t

/-! ## SHA-384 -/

/-- Round constants of SHA-384, part 0. -/
def shaK0 : List Nat :=
  [0x428A2F98D728AE22, 0x7137449123EF65CD, 0xB5C0FBCFEC4D3B2F, 0xE9B5DBA58189DBBC,
   0x3956C25BF348B538, 0x59F111F1B605D019, 0x923F82A4AF194F9B, 0xAB1C5ED5DA6D8118,
   0xD807AA98A3030242, 0x12835B0145706FBE, 0x243185BE4EE4B28C, 0x550C7DC3D5FFB4E2,
   0x72BE5D74F27B896F, 0x80DEB1FE3B1696B1, 0x9BDC06A725C71235, 0xC19BF174CF692694,
   0xE49B69C19EF14AD2, 0xEFBE4786384F25E3, 0x0FC19DC68B8CD5B5, 0x240CA1CC77AC9C65]

/-- Round constants of SHA-384, part 1. -/
def shaK1 : List Nat :=
  [0x2DE92C6F592B0275, 0x4A7484AA6EA6E483, 0x5CB0A9DCBD41FBD4, 0x76F988DA831153B5,
   0x983E5152EE66DFAB, 0xA831C66D2DB43210, 0xB00327C898FB213F, 0xBF597FC7BEEF0EE4,
   0xC6E00BF33DA88FC2, 0xD5A79147930AA725, 0x06CA6351E003826F, 0x142929670A0E6E70,
   0x27B70A8546D22FFC, 0x2E1B21385C26C926, 0x4D2C6DFC5AC42AED, 0x53380D139D95B3DF,
   0x650A73548BAF63DE, 0x766A0ABB3C77B2A8, 0x81C2C92E47EDAEE6, 0x92722C851482353B]

/-- Round constants of SHA-384, part 2. -/
def shaK2 : List Nat :=
  [0xA2BFE8A14CF10364, 0xA81A664BBC423001, 0xC24B8B70D0F89791, 0xC76C51A30654BE30,
   0xD192E819D6EF5218, 0xD69906245565A910, 0xF40E35855771202A, 0x106AA07032BBD1B8,
   0x19A4C116B8D2D0C8, 0x1E376C085141AB53, 0x2748774CDF8EEB99, 0x34B0BCB5E19B48A8,
   0x391C0CB3C5C95A63, 0x4ED8AA4AE3418ACB, 0x5B9CCA4F7763E373, 0x682E6FF3D6B2B8A3,
   0x748F82EE5DEFB2FC, 0x78A5636F43172F60, 0x84C87814A1F0AB72, 0x8CC702081A6439EC]

/-- Round constants of SHA-384, part 3. -/
def shaK3 : List Nat :=
  [0x90BEFFFA23631E28, 0xA4506CEBDE82BDE9, 0xBEF9A3F7B2C67915, 0xC67178F2E372532B,
   0xCA273ECEEA26619C, 0xD186B8C721C0C207, 0xEADA7DD6CDE0EB1E, 0xF57D4F7FEE6ED178,
   0x06F067AA72176FBA, 0x0A637DC5A2C898A6, 0x113F9804BEF90DAE, 0x1B710B35131C471B,
   0x28DB77F523047D84, 0x32CAAB7B40C72493, 0x3C9EBE0A15C9BEBC, 0x431D67C49C100D4C,
   0x4CC5D4BECB3E42B6, 0x597F299CFC657E2A, 0x5FCB6FAB3AD6FAEC, 0x6C44198C4A475817]

/-- The round constants of SHA-384. -/
def shaK : List Nat := shaK0 ++ shaK1 ++ shaK2 ++ shaK3

/-- The initial hash of SHA-384. -/
def shaInit : List DWord :=
  [0xCBBB9D5DC1059ED8, 0x629A292A367CD507, 0x9159015A3070DD17, 0x152FECD8F70E5939,
   0x67332667FFC00B31, 0x8EB44A8768581511, 0xDB0C2E0D64F98FA7, 0x47B5481DBEFA4FA4]

/-- The big-endian number of bytes. -/
def beNat (bs : List Byte) : Nat := leNat bs.reverse
/-- The `n` big-endian bytes of a number. -/
def beBytes (n x : Nat) : List Byte := (leBytes n x).reverse

/-- A 64-bit word rotated right. -/
def ror (x : DWord) (n : Nat) : DWord := x.rotateRight n

/-- The next word of a block's schedule, after `n` words in `w`. -/
def shaNextWord (w : List DWord) (n : Nat) : DWord :=
  let a := w.getD (n - 15) 0
  let b := w.getD (n - 2) 0
  w.getD (n - 16) 0 + (ror a 1 ^^^ ror a 8 ^^^ (a >>> 7)) + w.getD (n - 7) 0 + (ror b 19 ^^^ ror b 61 ^^^ (b >>> 6))

/-- One round on the eight working words. -/
def shaRound (x : List DWord) (kw : DWord) : List DWord :=
  let g (i : Nat) : DWord := x.getD i 0
  let e := g 4
  let a := g 0
  let t1 := g 7 + (ror e 14 ^^^ ror e 18 ^^^ ror e 41) + ((e &&& g 5) ^^^ (~~~e &&& g 6)) + kw
  let t2 := (ror a 28 ^^^ ror a 34 ^^^ ror a 39) + ((a &&& g 1) ^^^ (a &&& g 2) ^^^ (g 1 &&& g 2))
  [t1 + t2, a, g 1, g 2, g 3 + t1, e, g 5, g 6]

/-- One block of 128 bytes taken into the hash. -/
def shaBlock (h : List DWord) (bs : List Byte) : List DWord :=
  let w0 : List DWord := (List.range 16).map (fun i => BitVec.ofNat 64 (beNat ((bs.drop (8 * i)).take 8)))
  let w := (span 16 64).foldl (fun w n => w ++ [shaNextWord w n]) w0
  let y := (w.zip shaK).foldl (fun x e => shaRound x (e.1 + BitVec.ofNat 64 e.2)) h
  h.zipWith (· + ·) y

/-- Blocks of 128 bytes taken into the hash, `n` of them. -/
def shaBlocks : Nat → List DWord → List Byte → List DWord
  | 0, h, _ => h
  | n + 1, h, bs => shaBlocks n (shaBlock h (bs.take 128)) (bs.drop 128)

/-- SHA-384 of a message: 48 bytes (R325, R327; log entry 8, PRESUMED). -/
def sha384 (bs : List Byte) : List Byte :=
  let n := bs.length
  let fill := (239 - n % 128) % 128
  let pad := bs ++ [0x80] ++ List.replicate fill 0 ++ beBytes 16 (8 * n)
  ((shaBlocks (pad.length / 128) shaInit pad).map (fun h => beBytes 8 h.toNat)).flatten.take 48

end Sys2Proof.Machine
end

