-- ==== Sys2Proof/Machine/Memory.lean ====
section
/-!
DEFINITION. Memory (19_memory.md R241 to R265, 20_memory_notes.md R266, 25_device.md R308 to R315): places, the .pod point, caches, poison and key
tags, translation, and the write-backs and invalidations that releases, acquires and fences make. A store that
leaves a cache goes to the LLC bytes over HBM, which are part of memory for ordering (R254).
-/

namespace Sys2Proof.Machine

/-! ## Parts of the state -/

/-- The state of a module array. -/
def State.arr (s : State) (a : Nat) : ArrayState := tabGet ArrayState.reset s.arrays a
/-- The state with one array replaced. -/
def State.setArr (s : State) (a : Nat) (x : ArrayState) : State := { s with arrays := tabPut s.arrays a x }
/-- One die. -/
def State.die (s : State) (d : Nat) : Die := s.dies[d % 4]'(Nat.mod_lt d (by decide))
/-- The state with one die replaced. -/
def State.setDie (s : State) (d : Nat) (x : Die) : State :=
  { s with dies := s.dies.set (d % 4) x (Nat.mod_lt d (by decide)) }
/-- The die of a module array (R11). -/
def dieOf (a : Nat) : Nat := a / 16
/-- The context of a number. -/
def State.context (s : State) (c : Nat) : Option Context := s.contexts.find? (fun x => x.num == c)
/-- The key slot of a number (R314). -/
def State.keySlot (s : State) (k : Nat) : KeySlot := tabGet ⟨0, 0, false⟩ s.keys k
/-- The running task whose head is an array. -/
def State.run? (s : State) (h : Nat) : Option Run := tabFind s.runs h
/-- The state with a running task replaced. -/
def State.setRun (s : State) (r : Run) : State := { s with runs := tabPut s.runs r.head r }
/-- A face of an array: 0 west, 1 north, 2 east, 3 south. -/
def ArrayState.face (a : ArrayState) (side : Nat) : Face :=
  match side with | 0 => a.west | 1 => a.north | 2 => a.east | _ => a.south

/-- The array with one face replaced. -/
def ArrayState.setFace (a : ArrayState) (side : Nat) (f : Face) : ArrayState :=
  match side with
  | 0 => { a with west := f } | 1 => { a with north := f } | 2 => { a with east := f } | _ => { a with south := f }

/-- The running task whose bench holds an array. -/
def State.runOn (s : State) (a : Nat) : Option Run := (s.runs.map (·.2)).find? (fun r => r.arrays.contains a)

/-- The canonical form of everything that holds bytes by address: HBM, the LLC over it, face stores and host memory. -/
def Memory.wf (s : State) : Bool :=
  tabWf Config.powerOnByte s.mem && (tabSorted s.llc && tabSorted s.unveiled) && s.arrays.all (fun e => tabWf 0 e.2.store) && tabWf 0 s.hostMem

/-! ## Places (R244) -/

/-- Where a physical address lies (R244). -/
inductive Place where
  | hbm
  | face (array : Nat) (off : Nat)
  | nowhere
  deriving DecidableEq, Repr

/-- The place of a 54-bit physical address: HBM and face stores of this module and of the others of its pod (R241, R244). Log entry 60:
DESIGN CHOICE. -/
def State.place (s : State) (pa : Nat) : Place :=
  let m := pa / 2 ^ 44 % 1024
  let off := pa % 2 ^ 44
  if !(m == s.modId.toNat || s.pod.contains m) then .nowhere
  else if off < Config.hbmBytes then .hbm
  else if 2 ^ 40 ≤ off && off < 2 ^ 40 + 64 * 2 ^ 22 then
    .face ((off - 2 ^ 40) / 2 ^ 22 + (if m == s.modId.toNat then 0 else 64 * (m + 1))) (off % 2 ^ 22)
  else .nowhere

/-- The key of an HBM byte in the tables of the state: the offset in this module, or beyond it that of another. Log entry 60: DESIGN CHOICE. -/
def State.memKey (s : State) (pa : Nat) : Nat :=
  let m := pa / 2 ^ 44 % 1024
  if m == s.modId.toNat then pa % 2 ^ 44 else (m + 1) * 2 ^ 44 + pa % 2 ^ 44

/-- The module of a key. -/
def State.keyModule (s : State) (key : Nat) : Nat := if key < 2 ^ 44 then s.modId.toNat else key / 2 ^ 44 - 1

/-- The end of the scratchpad of an array with a size code (R27). -/
def spadEnd (code : Nat) : Nat := 0x300000 + 0x40000 * (code + 1)

/-- A face store offset that holds storage (R27, R244). -/
def storeOffOk (code f : Nat) : Bool := f < spadEnd code

/-! ## Requests (R309, R311) -/

/-- The frame of a region (R309). -/
def State.frame (s : State) (region : Nat) : Nat := tabGet region s.frames region

/-- Where an HBM offset lies in the stacks (R309). -/
structure HbmPlace where
  stack : Nat
  channel : Nat
  channelLine : Nat
  bankGroup : Nat
  bank : Nat
  burst : Nat
  row : Nat
  subChannel : Nat
  deriving DecidableEq, Repr

/-- The place of an HBM offset: every item of R309's table. -/
def State.hbmPlace (s : State) (p : Nat) : HbmPlace :=
  let f := s.frame (p / 2 ^ 21 % 2 ^ 18)
  let ln := p / 2 ^ 6 % 2 ^ 15
  let c := f % 2 ^ 15 * 2 ^ 10 + ln / 2 ^ 5
  { stack := f / 2 ^ 15 % 8, channel := (ln % 32) ^^^ (ln / 32 % 32) ^^^ (ln / 1024 % 32) ^^^ (f % 32), channelLine := c,
    bankGroup := (c % 4) ^^^ (c / 2 ^ 16 % 4), bank := (c / 4 % 4) ^^^ (c / 2 ^ 18 % 4), burst := c / 16 % 32, row := c / 2 ^ 9 % 2 ^ 16,
    subChannel := p / 16 % 4 }

/-- The stack of an HBM offset. -/
def State.stackAt (s : State) (p : Nat) : Nat := (s.hbmPlace p).stack

/-- The UNIT field of a receipt (R163). -/
def unitCode (d kind idx : Nat) : Nat := d % 4 * 2 ^ 14 + kind % 16 * 2 ^ 10 + idx % 2 ^ 10

/-- The unit that detects an uncorrectable error of a memory byte: its HBM stack, and beyond this module its module number (R163). Log entry 42:
DEDUCED. -/
def State.memUnit (s : State) (key : Nat) : Nat :=
  if key < Config.hbmBytes then unitCode (s.stackAt key / 2) 7 (s.stackAt key) else unitCode 0 7 (key / 2 ^ 44 - 1)

/-- The unit that detects an uncorrectable error at a place: that of a memory byte, and for a face store the unit that meets it (R163). Log entry
42: DEDUCED. -/
def State.detector (s : State) (acc : Access) (other : Nat) : Nat :=
  match acc with
  | .mem key _ _ _ _ => s.memUnit key
  | .store _ _ _ => other

/-- The UNIT of a drain face. R163 numbers the faces of a die nowhere: twice the array's place in the die, and 1 more for the south face (log entry
76, DESIGN CHOICE). -/
def drainUnit (a side : Nat) : Nat := unitCode (dieOf a) 3 (a % 16 * 2 + side % 2)

/-- The channel of an HBM offset: 32 channels in each of 8 stacks (R309). -/
def State.channelOf (s : State) (p : Nat) : Nat := (s.hbmPlace p).stack * 32 + (s.hbmPlace p).channel

/-- Requesters of R311 by number: sequencers 0 to 63, faces 64 to 319, couriers 320 to 351, Sorters 352 to 355, walkers
356 to 359, the host copy engine 360. The post ring is none of them. -/
def whoSeq (a : Nat) : Nat := a
def whoFace (a side : Nat) : Nat := 64 + 4 * a + side
def whoUnit (d u : Nat) : Nat := if u < 8 then 320 + 8 * d + u else if u == 8 then 352 + d else if u == 10 then 360 else 361
def whoWalk (d : Nat) : Nat := 356 + d
/-- No requester that R311 counts: write-backs, scrub and swap copies, aperture accesses, images. -/
def whoNone : Nat := 361

/-- The class of an access by a requester of an array: sequencers 0, faces 1 (R311). -/
def whoClass (who : Nat) : Nat := if who < 64 then 0 else 1

/-- The deadline of a request made now (R311). -/
def State.deadline (s : State) (cls : Nat) : Nat :=
  (s.ticks / 16 + (s.budgets[cls % 4]'(Nat.mod_lt cls (by decide))).toNat) % 2 ^ 16

/-- A request enters its channel's queue and counts there (R310, R311). Only this module's
channels are modelled. Log entry 33: DEDUCED. -/
def State.request (s : State) (key : Nat) (subs : BitVec 4) (cls who : Nat) : State :=
  if key < Config.hbmBytes then
    let ch := s.channelOf key
    let q : Request := { channel := ch, line := key / 64, subs := subs, cls := cls, deadline := s.deadline cls, made := s.ticks, who := who }
    { s with requests := s.requests ++ [q], chanCount := tabPut s.chanCount ch ((tabGet 0 s.chanCount ch + 1) % 2 ^ 32) }
  else s

/-! ## The bytes of HBM and the LLC -/

/-- Parts of an image that every pre-emption writes (R300). -/
def alwaysPart : Nat := 2 ^ 17

/-- An image has written a granule of its slot. -/
def Veil.writes (v : Veil) (g : Nat) : Bool :=
  v.lo ≤ g && g < v.lo + v.len &&
    (match Config.imagePart ((g - v.lo) % 2 ^ 19), v.parts.getD ((g - v.lo) / 2 ^ 19) (some []) with
     | none, _ => false
     | some _, none => true
     | some p, some l => p == alwaysPart || l.contains p)

/-- The latest image written over a granule. -/
def State.veilOf (s : State) (g : Nat) : Option Veil := s.veil.find? (fun v => v.writes g)

/-- The plain byte that HBM holds: that of an image written over it, when nothing was written there since. -/
def State.hbmByte (s : State) (key : Nat) : Byte :=
  match s.veilOf (key / 32) with
  | some v => tabGet (Config.imageByte v.seed key) s.unveiled key
  | none => tabGet Config.powerOnByte s.mem key

/-- A byte written into HBM. -/
def State.setHbm (s : State) (key : Nat) (b : Byte) : State :=
  if (s.veilOf (key / 32)).isSome then { s with unveiled := tabPut s.unveiled key b }
  else { s with mem := tabSet Config.powerOnByte s.mem key b }

/-- The plain byte at the .pod point: the LLC's byte, or that of HBM (R254, R312). -/
def State.podByte (s : State) (key : Nat) : Byte :=
  match tabFind s.llc key with
  | some b => b
  | none => s.hbmByte key

/-- A byte written at the .pod point: into the LLC (R312). -/
def State.putPod (s : State) (key : Nat) (b : Byte) : State := { s with llc := tabPut s.llc key b }

/-! ## Key tags and encryption (R314) -/

/-- The record of a granule as it stands at the .pod point: what the LLC's bytes will bring, or that in HBM. -/
def State.tagOf (s : State) (g : Nat) : Option KeyTag :=
  match tabFind s.llcTags g with
  | some t => t
  | none => tabFind s.tags g

/-- The generation that a key slot has now; 0 without encryption. -/
def State.genOf (s : State) (enc : Option Nat) : Nat := match enc with | some k => (s.keySlot k).gen.toNat | none => 0

/-- The record of a write made under a generation of its slot, or "none". -/
def State.tagAt (s : State) (enc : Option Nat) (gen key : Nat) : Option KeyTag :=
  enc.map (fun k => ⟨k, gen, (s.keySlot k).key, s.keyModule key⟩)

/-- The record that a write now makes: the slot and generation, or "none". -/
def State.tagNow (s : State) (enc : Option Nat) (key : Nat) : Option KeyTag := s.tagAt enc (s.genOf enc) key

/-- A cached line was filled under the key slot of an access and under the generation that the slot still has (R314). -/
def State.fits (s : State) (l : Line) (enc : Option Nat) : Bool := l.slot == enc && l.gen == s.genOf enc

/-- The key pair and the module number under which a tag enciphers. -/
def KeyTag.code (t : KeyTag) : BitVec 512 × Nat := (t.key, t.mod)

/-- The 16 bytes of the cipher block of a key, in plain text. -/
def State.podBlock (s : State) (block : Nat) : List Byte := (List.range 16).map (fun i => s.podByte (16 * block + i))

/-- A block enciphered or deciphered under a key pair and module number: the tweak is the module number with P[38:6] (R314). -/
def recodeBlock (decipher : Bool) (code : Option (BitVec 512 × Nat)) (block : Nat) (x : List Byte) : List Byte :=
  match code with
  | some (k, m) => xtsBlock decipher k (m * 2 ^ 33 + block / 4 % 2 ^ 33) (block % 4) x
  | none => x

/-- A byte at the .pod point as a reader under a record's key sees it (R314, R316): the plaintext under the granule's own key; else what HBM
holds, deciphered under that key. Log entry 8: PRESUMED. -/
def State.podByteAs (s : State) (want : Option KeyTag) (key : Nat) : Byte :=
  let held := (s.tagOf (key / 32)).map KeyTag.code
  if held == want.map KeyTag.code then s.podByte key
  else (recodeBlock true (want.map KeyTag.code) (key / 16) (recodeBlock false held (key / 16) (s.podBlock (key / 16)))).getD (key % 16) 0

/-- A byte of an access at the .pod point (R314, R316). -/
def State.podByteOf (s : State) (enc : Option Nat) (key : Nat) : Byte := s.podByteAs (s.tagNow enc key) key

/-- A byte as an access without encryption reads it: ciphertext of a granule recorded under a key (R316). -/
def State.plainByte (s : State) (key : Nat) : Byte := s.podByteOf none key

/-- The two 16-byte granules of an ECC granule in its line (R308). -/
def granSubs (g : Nat) : BitVec 4 := 3#4 <<< (2 * (g % 2))

/-- The LLC holds a part of an ECC granule (R312). -/
def State.inLlc (s : State) (g : Nat) : Bool :=
  match tabFind s.llcLines (g / 2) with
  | some e => e.held &&& granSubs g != 0
  | none => false

/-- A granule is marked poisoned, or holds an uncorrectable error in HBM that a read would meet (R166, R308, R312). -/
def State.spoiled (s : State) (g : Nat) : Bool := s.poison.contains g || (s.latent.contains g && !s.inLlc g)

/-- A granule written whole holds good data (R166). -/
def State.cured (s : State) (g : Nat) : State := { s with poison := setDel s.poison g, latent := setDel s.latent g }

/-- The data of a granule is dead for an access: it is recorded under another slot or generation, or as "none", or the slot holds no
key (R314, R315). -/
def State.isDead (s : State) (enc : Option Nat) (g : Nat) : Bool :=
  match enc with
  | some k =>
    let slot := s.keySlot k
    !(slot.loaded && (match s.tagOf g with | some t => t.slot == k && t.gen == slot.gen.toNat | none => false))
  | none => false

/-- The poison that a read of a granule meets (R166, R314). -/
def State.granPoison (s : State) (enc : Option Nat) (key : Nat) : Option Poison :=
  if s.isDead enc (key / 32) then some .keyDead else if s.spoiled (key / 32) then some .ue else none

/-- Before a write under a record goes into a granule that is recorded otherwise: the whole granule goes over to the record of the write, and its
other bytes become what its key reads there (R314). Log entry 8: PRESUMED. -/
def State.recodeTo (s : State) (want : Option KeyTag) (gran : Nat) : State :=
  if s.tagOf gran == want then s
  else
    let s2 := (span (32 * gran) 32).foldl (fun t key => t.putPod key (s.podByteAs want key)) s
    { s2 with llcTags := tabPut s2.llcTags gran want }

/-- The same for an access that writes now. -/
def State.recode (s : State) (enc : Option Nat) (gran : Nat) : State := s.recodeTo (s.tagNow enc (32 * gran)) gran

/-- The key of an encrypted access is dead: no key is loaded in its slot (R315). -/
def State.keyGone (s : State) (enc : Option Nat) : Bool :=
  match enc with
  | some k => !(s.keySlot k).loaded
  | none => false

/-! ## The LLC (R312) -/

/-- The record of a granule that the LLC writes back. -/
def State.settleTag (s : State) (g : Nat) : State :=
  match tabFind s.llcTags g with
  | none => s
  | some t =>
    { s with llcTags := tabErase s.llcTags g, tags := match t with | some x => tabPut s.tags g x | none => tabErase s.tags g }

/-- The LLC holds bytes of a granule that HBM does not. -/
def State.dirtyGran (s : State) (g : Nat) : Bool := (span (32 * g) 32).any (fun k => (tabFind s.llc k).isSome)

/-- Dirty LLC bytes of a granule written back to HBM, which then holds the whole of it without an error. -/
def State.cleanGran (s : State) (g : Nat) : State :=
  if !s.dirtyGran g then s
  else
    let s1 := (span (32 * g) 32).foldl
      (fun t k => match tabFind t.llc k with | some b => ({ t with llc := tabErase t.llc k } : State).setHbm k b | none => t) s
    ({ s1 with latent := setDel s1.latent g } : State).settleTag g

/-- LLC bytes of a line written back to HBM, which is a request of service class 3 without a requester (R311, R312). -/
def State.cleanLlc (s : State) (line : Nat) : State :=
  let s1 := if s.dirtyGran (2 * line) || s.dirtyGran (2 * line + 1) then s.request (64 * line) 15 3 whoNone else s
  (s1.cleanGran (2 * line)).cleanGran (2 * line + 1)

/-- A line written back and dropped from the LLC. -/
def State.dropLlc (s : State) (line : Nat) : State :=
  let s1 := s.cleanLlc line
  { s1 with llcLines := tabErase s1.llcLines line }

/-- There is room in the LLC for a line of this module: each stack's LLC has 2^17 sets of 16 ways (R26, R312). In a full set the new line itself
goes at once, unless the schedule has evicted another before. Log entry 67: DESIGN CHOICE. -/
def State.roomLlc (s : State) (line : Nat) : Bool :=
  let set (l : Nat) : Nat := s.stackAt (64 * l) * 2 ^ 17 + Config.llcSet l % 2 ^ 17
  s.llcLines.length < 16 || (s.llcLines.filter (fun e => set e.1 == set line)).length < 16

/-- The parts of a line that an access will find in the LLC under a key slot. -/
def State.llcHeld (s : State) (enc : Option Nat) (line : Nat) : BitVec 4 :=
  match tabFind s.llcLines line with
  | some e => if e.slot == enc then e.held else 0
  | none => 0

/-- Parts of a line of this module at the .pod point: brought into the LLC by a request when they are not there under the same key slot. A
latent error that the fill meets becomes a mark (R166, R312). -/
def State.podBring (s : State) (enc : Option Nat) (line : Nat) (want : BitVec 4) (cls who : Nat) : State :=
  if Config.hbmBytes ≤ 64 * line || s.llcHeld enc line &&& want == want then s
  else
    let s1 := s.request (64 * line) want cls who
    let met (g : Nat) : Bool := g / 2 == line && granSubs g &&& want != 0 && !s.dirtyGran g
    if (tabFind s.llcLines line).isSome || s.roomLlc line then
      { s1 with llcLines := tabPut s1.llcLines line ⟨enc, s.llcHeld enc line ||| want⟩,
                poison := setUnion s1.poison (s1.latent.filter met), latent := s1.latent.filter (fun g => !met g) }
    else s1

/-- What was written to a line that the LLC does not keep goes on to HBM (R312). -/
def State.podDone (s : State) (line : Nat) : State :=
  if Config.hbmBytes ≤ 64 * line || (tabFind s.llcLines line).isSome then s else s.cleanLlc line

/-- A line of this module at the .pod point: one burst of its channel (R308). -/
def State.podTouch (s : State) (enc : Option Nat) (line cls who : Nat) : State := s.podBring enc line 15 cls who

/-- What `n` bytes of one line bring: the line, or in a .G16 command each 16-byte granule by itself (R183). -/
def State.podReach (s : State) (enc : Option Nat) (key n : Nat) (fine : Bool) (cls who : Nat) : State :=
  if fine then (span (key / 16) ((key + n - 1) / 16 + 1 - key / 16)).foldl (fun t b => t.podBring enc (b / 4) (1#4 <<< (b % 4)) cls who) s
  else s.podTouch enc (key / 64) cls who

/-! ## Compression (R313) -/

/-- The state of a 2 KiB block that is stored: a write through a page with CMP = 1 compresses it, to a state that the specification
leaves open, all zero only when it is; any other leaves it uncompressed (R313). Log entry 26: DESIGN CHOICE. -/
def State.repack (s : State) (cmp : Bool) (block : Nat) : State :=
  if cmp then
    let zero := (span (2048 * block) 2048).all (fun k => s.podByte k == 0)
    { s with compressed := tabPut s.compressed block ((Config.freeWord s.freeCtr).toNat % (if zero then 4 else 3)), freeCtr := s.freeCtr + 1 }
  else { s with compressed := tabErase s.compressed block }

/-! ## Writes at the .pod point -/

/-- Bytes written at the .pod point under an access, one granule or less: a whole granule clears its poison mark; a
smaller write into a marked granule is not merged, and reports it (R166). A write under a destroyed key is
discarded (R315). -/
def State.podWriteGran (s : State) (enc : Option Nat) (key : Nat) (bs : List Byte) : State × Bool :=
  if s.keyGone enc then (s, false)
  else
    let whole := key % 32 == 0 && bs.length == 32
    let gran := key / 32
    if !whole && s.spoiled gran then (s, true)
    else
      let s1 := (List.range bs.length).foldl (fun t i => t.putPod (key + i) (bs.getD i 0)) (s.recode enc gran)
      (if whole then s1.cured gran else s1, false)

/-- Bytes cut at granule boundaries: (offset, length). -/
def granCuts : Nat → Nat → Nat → List (Nat × Nat)
  | 0, _, _ => []
  | fuel + 1, key, n =>
    if n == 0 then []
    else
      let k := min n (32 - key % 32)
      (key, k) :: granCuts fuel (key + k) (n - k)

/-- Bytes written at the .pod point, granule by granule; the first granule whose read-modify-write met an
uncorrectable error (R166). -/
def State.podWrite (s : State) (enc : Option Nat) (key : Nat) (bs : List Byte) : State × Option Nat :=
  (granCuts (bs.length + 1) key bs.length).foldl
    (fun (acc : State × Option Nat) (c : Nat × Nat) =>
      let (t, bad) := acc.1.podWriteGran enc c.1 ((bs.drop (c.1 - key)).take c.2)
      (t, acc.2.or (if bad then some (c.1 / 32 * 32) else none)))
    (s, none)

/-! ## Cache lines -/

/-- The dirty bytes of one half of a line written at the .pod point, under the record of the generation of the line's slot under which they were
written (R314). Into a spoiled granule they are not merged, and the granule is poisoned (R166; log entry 68, DEDUCED). -/
def State.halfToPod (acc : State × BitVec 2) (line : Nat) (l : Line) (h : Nat) : State × BitVec 2 :=
  let g := 2 * line + h
  if fld l.dirty (32 * h) 32 == 0 then acc
  else if acc.1.spoiled g then ({ acc.1 with poison := setAdd acc.1.poison g }, acc.2 ||| BitVec.ofNat 2 (2 ^ h))
  else
    ((span (32 * h) 32).foldl (fun t i => if bit l.dirty i then t.putPod (64 * line + i) (l.data.getD i 0) else t)
        (acc.1.recodeTo (acc.1.tagAt l.slot l.gen (32 * g)) g),
     acc.2)

/-- A dirty line written back at the .pod point: only the bytes that its agents wrote (R241). Under a dead key they are discarded (R315).
The second part marks the halves that were refused. -/
def State.lineToPod (s : State) (line : Nat) (l : Line) : State × BitVec 2 :=
  if s.keyGone l.slot then (s, 0)
  else
    let (s1, bad) := State.halfToPod (State.halfToPod (s.podTouch l.slot line 3 whoNone, 0) line l 0) line l 1
    ((s1.repack l.cmp (line / 32)).podDone line, bad)

/-- The line as filled from the .pod point (R241). -/
def State.podFill (s : State) (enc : Option Nat) (line : Nat) : Line :=
  let marks (f : Nat → Bool) : BitVec 2 := (if f (2 * line) then 1 else 0) ||| (if f (2 * line + 1) then 2 else 0)
  { data := (List.range 64).map (fun i => s.podByteOf enc (64 * line + i)), dirty := 0, poison := marks s.spoiled, dead := marks (s.isDead enc),
    slot := enc, gen := s.genOf enc, cmp := false, owner := none }

/-- The halves of a line that have a dirty byte. -/
def Line.dirtyHalves (l : Line) : BitVec 2 :=
  (if fld l.dirty 0 32 == 0 then 0 else 1) ||| (if fld l.dirty 32 32 == 0 then 0 else 2)

/-- A line with dirty bytes of another laid over it. -/
def Line.merge (base top : Line) : Line :=
  { base with
    data := (List.range 64).map (fun i => if bit top.dirty i then top.data.getD i 0 else base.data.getD i 0),
    dirty := base.dirty ||| top.dirty, dead := base.dead &&& ~~~top.dirtyHalves, cmp := top.cmp, owner := top.owner.or base.owner }

/-- The error of a write-back reported to the last writer of the line: MEM.UE.STORE to a sequencer, and to a face the error of its next
flush (R126, R175). Log entry 68: DEDUCED. -/
def State.storeError (s : State) (o : Owner) (unit half : Nat) : State :=
  let va := (o.va + 32 * half) % 2 ^ 55
  if o.who < 64 then
    match s.run? o.who with
    | some r => if r.task == o.task then s.setRun { r with ueStore := r.ueStore ++ [va] } else s
    | none => s
  else
    let a := (o.who - 64) / 4
    let x := s.arr a
    let f := x.face ((o.who - 64) % 4)
    let mine := match s.runOn a with | some r => r.task == o.task | none => false
    if mine then s.setArr a (x.setFace ((o.who - 64) % 4) { f with tally := { f.tally with err := f.tally.err.or (some (0x04, unit, va)) } }) else s

/-- What a write-back of a line reports of the refused halves. -/
def State.reportHalves (s : State) (line : Nat) (l : Line) (bad : BitVec 2) : State :=
  match l.owner with
  | none => s
  | some o =>
    let unit := s.memUnit (64 * line)
    let s1 := if bit bad 0 then s.storeError o unit 0 else s
    if bit bad 1 then s1.storeError o unit 1 else s1

/-- Write back of a line from L2 (R241). -/
def State.cleanL2 (s : State) (d line : Nat) : State :=
  match tabFind (s.die d).l2 line with
  | none => s
  | some l =>
    if l.dirty == 0 then s
    else
      let (s1, bad) := s.lineToPod line l
      (s1.setDie d { s1.die d with l2 := tabPut (s1.die d).l2 line { l with dirty := 0, poison := l.poison ||| bad, owner := none } }).reportHalves line l bad

/-- Write back and invalidation of a line in L2. -/
def State.dropL2 (s : State) (d line : Nat) : State :=
  let s1 := s.cleanL2 d line
  s1.setDie d { s1.die d with l2 := tabErase (s1.die d).l2 line }

/-- There is room in a die's L2 for a line: 64 slices of 32,768 lines (R13, R26, R241). A full slice keeps what it has. Log entry 67:
DESIGN CHOICE. -/
def State.roomL2 (s : State) (d line : Nat) : Bool :=
  let slice (l : Nat) : Nat := Config.l2Slice d l % 64
  (s.die d).l2.length < 32768 || ((s.die d).l2.filter (fun e => slice e.1 == slice line)).length < 32768

/-- A line put into a die's L2. -/
def State.putL2 (s : State) (d line : Nat) (l : Line) : State := s.setDie d { s.die d with l2 := tabPut (s.die d).l2 line l }

/-- The L2 line of an address, filled when absent, and kept where there is room. A line filled under another key slot or generation is written
back first (R314). -/
def State.withL2 (s : State) (d : Nat) (enc : Option Nat) (line cls who : Nat) : Line × State :=
  let fill (s : State) : Line × State :=
    let s1 := s.podTouch enc line cls who
    let l := s1.podFill enc line
    (l, if s1.roomL2 d line then s1.putL2 d line l else s1)
  match tabFind (s.die d).l2 line with
  | some l => if s.fits l enc then (l, s) else fill (s.dropL2 d line)
  | none => fill s

/-- Write back of a line from L1 into L2, or past it where it has no room, or where the key slot of its bytes has another generation since
they were written (R241, R314). -/
def State.cleanL1 (s : State) (a line : Nat) : State :=
  match tabFind (s.arr a).l1 line with
  | none => s
  | some l =>
    if l.dirty == 0 then s
    else
      let (m, s1) := s.withL2 (dieOf a) l.slot line 3 whoNone
      let (s2, bad) := if !s.fits l l.slot then (s.dropL2 (dieOf a) line).lineToPod line l
        else if (tabFind (s1.die (dieOf a)).l2 line).isSome then (s1.putL2 (dieOf a) line (m.merge l), 0) else s1.lineToPod line l
      (s2.setArr a { s2.arr a with
        l1 := tabPut (s2.arr a).l1 line { l with dirty := 0, poison := l.poison ||| bad, owner := none } }).reportHalves line l bad

/-- Write back and invalidation of a line in L1. -/
def State.dropL1 (s : State) (a line : Nat) : State :=
  let s1 := s.cleanL1 a line
  s1.setArr a { s1.arr a with l1 := tabErase (s1.arr a).l1 line }

/-- The lines of an array's L1: what the scratchpad leaves of 1 MiB; none when it takes the whole (R27). -/
def l1Lines (code : Nat) : Nat := 4096 * (3 - code)

/-- There is room in an array's L1 for a line. A full L1 keeps what it has. Log entry 67: DESIGN CHOICE. -/
def State.roomL1 (s : State) (a : Nat) : Bool := (s.arr a).l1.length < l1Lines (s.arr a).spad

/-- A line put into an array's L1. -/
def State.putL1 (s : State) (a line : Nat) (l : Line) : State := s.setArr a { s.arr a with l1 := tabPut (s.arr a).l1 line l }

/-- The L1 line of an address, filled from L2 when absent, and kept where there is room. -/
def State.withL1 (s : State) (a : Nat) (enc : Option Nat) (line cls who : Nat) : Line × State :=
  let fill (s : State) : Line × State :=
    let (l2, s1) := s.withL2 (dieOf a) enc line cls who
    let l := { l2 with dirty := 0, owner := none }
    (l, if s1.roomL1 a then s1.putL1 a line l else s1)
  match tabFind (s.arr a).l1 line with
  | some l => if s.fits l enc then (l, s) else fill (s.dropL1 a line)
  | none => fill s

/-! ## Accesses -/

/-- The access `n` bytes further on, within the page. -/
def Access.plus : Access → Nat → Access
  | .store a f o, n => .store a (f + n) o
  | .mem k o c e m, n => .mem (k + n) o c e m

/-- The access goes through the caches (R251). -/
def Access.cached : Access → Bool
  | .store _ _ _ => false
  | .mem _ ord cache _ _ => ord != 1 && cache

/-- The other module of the pod in which an access lies. -/
def Access.module? : Access → Option Nat
  | .store a _ _ => if a < 64 then none else some (a / 64 - 1)
  | .mem k _ _ _ _ => if k < Config.hbmBytes then none else some (k / 2 ^ 44 - 1)

/-- The page kind of an access (R251). -/
def Access.ord : Access → Nat
  | .store _ _ o => o
  | .mem _ o _ _ _ => o

/-- The line of an access in memory: what caches may hold. -/
def Access.line? : Access → Option Nat
  | .store _ _ _ => none
  | .mem k _ _ _ _ => some (k / 64)

/-- The place of an access for the franks of its line (R257): a line of memory, or, above 2^60, 64 bytes of a face store, which is its own
coherence point (R254). -/
def Access.place : Access → Nat
  | .store a f _ => 2 ^ 60 + (a * 2 ^ 22 + f) / 64
  | .mem k _ _ _ _ => k / 64

/-- The agents of R253 with their own path: a sequencer or face of an array, an engine of a die; `fine` says that an engine works on a
command of granule .G16 (R183). -/
inductive Agent where
  | array (a : Nat) (who : Nat)
  | engine (d : Nat) (who : Nat) (cls : Nat) (fine : Bool := false)
  deriving DecidableEq, Repr

/-- Bytes of the face store of an array. -/
def State.storeBytes (s : State) (a f n : Nat) : List Byte := (List.range n).map (fun i => tabGet 0 (s.arr a).store (f + i))

/-- Poison of face store granules that a read touches. -/
def State.storePoison (s : State) (a f n : Nat) : Option Poison :=
  if (s.arr a).storePoison.any (fun g => f / 32 ≤ g && g ≤ (f + n - 1) / 32) then some .ue else none

/-- Bytes written to the face store of an array. A whole granule clears its poison; a smaller write into a poisoned
granule is not merged (R166). The block is dirty from then on (R300). -/
def State.storeWrite (s : State) (a f : Nat) (bs : List Byte) : State × Option Nat :=
  (granCuts (bs.length + 1) f bs.length).foldl
    (fun (acc : State × Option Nat) (c : Nat × Nat) =>
      let x := acc.1.arr a
      let whole := c.2 == 32
      if !whole && x.storePoison.contains (c.1 / 32) then (acc.1, acc.2.or (some (c.1 / 32 * 32)))
      else
        let st := (List.range c.2).foldl (fun t i => tabSet 0 t (c.1 + i) (bs.getD (c.1 - f + i) 0)) x.store
        let ps := if whole then setDel x.storePoison (c.1 / 32) else x.storePoison
        (acc.1.setArr a { x with store := st, storePoison := ps, blocks := setAdd x.blocks (c.1 / 4096) }, acc.2))
    (s, none)

/-- The halves of a line that `n` bytes from byte `o` touch. -/
def halvesOf (o n : Nat) : BitVec 2 := (if o < 32 then 1 else 0) ||| (if 32 ≤ o + n - 1 then 2 else 0)

/-- The poison that `n` bytes of a line from byte `o` carry: that of the first poisoned granule. -/
def Line.poisonOf (l : Line) (o n : Nat) : Option Poison :=
  let h := halvesOf o n
  let half (i : Nat) : Option Poison :=
    if !bit h i then none else if bit l.dead i then some .keyDead else if bit l.poison i then some .ue else none
  (half 0).or (half 1)

/-- The first poison among the granules of `n` bytes. -/
def State.podPoison (s : State) (enc : Option Nat) (key n : Nat) : Option Poison :=
  (granCuts (n + 1) key n).findSome? (fun c => s.granPoison enc c.1)

/-- What a read of at most one line gives: the bytes, the poison met, whether it came from the scratchpad or L1 (R22),
and the state. -/
structure ReadOut where
  bytes : List Byte
  poison : Option Poison
  near : Bool
  st : State

/-- An agent of an array reaches past its caches (R251): its array's L1 and its die's L2 write the line back and drop it, so that it sees the writes
of its own that they hold, and so that no copy there stands for an older write afterwards (R258). -/
def State.past (s : State) (a line : Nat) : State :=
  if (tabFind (s.arr a).l1 line).isNone && (tabFind (s.die (dieOf a)).l2 line).isNone then s
  else (s.dropL1 a line).dropL2 (dieOf a) line

/-- A byte of a line that an agent of an array finds past its caches, when `t` is the state with their copies written back: what they have of it
dirty, else what lies at the .pod point. -/
def State.pastByte (s t : State) (a : Nat) (enc : Option Nat) (line key : Nat) : Byte :=
  let near := tabFind (s.arr a).l1 line
  let far := tabFind (s.die (dieOf a)).l2 line
  let dirty (c : Option Line) : Option Line := c.filter (fun l => bit l.dirty (key % 64))
  if !(near.all (s.fits · enc) && far.all (s.fits · enc)) then t.podByteOf enc key
  else match (dirty near).or (dirty far) with
    | some l => l.data.getD (key % 64) 0
    | none => s.podByteOf enc key

/-- A read of `n` bytes that lie in one line (R254); under a dead key also a cached line gives poison (R315), and one that was filled under an
earlier generation of its slot is read anew (R314). A load from a face store, of whichever array, counts as one from the scratchpad for R22
(log entry 58, DESIGN CHOICE). -/
def State.read (s : State) (ag : Agent) (acc : Access) (n : Nat) : ReadOut :=
  match acc with
  | .store a f _ => { bytes := s.storeBytes a f n, poison := s.storePoison a f n, near := true, st := s }
  | .mem key ord cache enc _ =>
    let line := key / 64
    let o := key % 64
    let direct (s : State) (who cls : Nat) (fine : Bool) : ReadOut :=
      let t := s.podReach enc key n fine cls who
      { bytes := (List.range n).map (fun i => t.podByteOf enc (key + i)), poison := t.podPoison enc key n, near := false, st := t }
    let ofLine (l : Line) (near : Bool) (t : State) : ReadOut :=
      { bytes := (l.data.drop o).take n, poison := if s.keyGone enc then some .keyDead else l.poisonOf o n, near := near, st := t }
    match ag with
    | .array a who =>
      if ord == 1 || !cache then
        let t := (s.past a line).podReach enc key n false (whoClass who) who
        { bytes := (List.range n).map (fun i => s.pastByte t a enc line (key + i)), poison := t.podPoison enc key n, near := false, st := t }
      else
        let near := match tabFind (s.arr a).l1 line with | some l => s.fits l enc | none => false
        let (l, t) := s.withL1 a enc line (whoClass who) who
        ofLine l near t
    | .engine d who cls fine =>
      match (if ord == 1 || !cache then none else tabFind (s.die d).l2 line) with
      | some l => if s.fits l enc then ofLine l false s else direct (s.dropL2 d line) who cls fine
      | none => direct s who cls fine

/-- A line with bytes written from byte `o` by an access: a granule that was dead is recorded under the key of the write (R314). -/
def Line.overlay (l : Line) (o : Nat) (bs : List Byte) (cmp : Bool) : Line :=
  { l with
    data := (List.range 64).map (fun i => if o ≤ i && i < o + bs.length then bs.getD (i - o) 0 else l.data.getD i 0),
    dirty := l.dirty ||| (BitVec.ofNat 64 (ones bs.length) <<< o), dead := l.dead &&& ~~~halvesOf o bs.length, cmp := cmp }

/-- A write of bytes that lie in one line. The second part is the granule whose read-modify-write met an
uncorrectable error (R126, R166). A write under a dead key is discarded (R315). -/
def State.write (s : State) (ag : Agent) (acc : Access) (bs : List Byte) : State × Option Nat :=
  match acc with
  | .store a f _ => s.storeWrite a f bs
  | .mem key ord cache enc cmp =>
    let line := key / 64
    let o := key % 64
    let atPod (s : State) : State × Option Nat :=
      let (t, bad) := s.podWrite enc key bs
      ((t.repack cmp (key / 2048)).podDone line, bad)
    let direct (s : State) (who cls : Nat) (fine : Bool) : State × Option Nat := atPod (s.podReach enc key bs.length fine cls who)
    if s.keyGone enc then (s, none)
    else match ag with
    | .array a who =>
      if ord == 1 || !cache then direct (s.past a line) who (whoClass who) false
      else
        let (l, t) := s.withL1 a enc line (whoClass who) who
        if (l.poison &&& halvesOf o bs.length) != 0 then (t, some (key / 32 * 32))
        else match tabFind (t.arr a).l1 line, tabFind (t.die (dieOf a)).l2 line with
          | some _, _ => (t.putL1 a line (l.overlay o bs cmp), none)
          | none, some m => (t.putL2 (dieOf a) line (m.overlay o bs cmp), none)
          | none, none => atPod t
    | .engine d who cls fine =>
      -- an engine's write updates the L2 copy, if any, and the .pod point (R254)
      match tabFind (s.die d).l2 line with
      | none => direct s who cls fine
      | some l =>
        if !s.fits l enc then direct (s.dropL2 d line) who cls fine
        else
          let (t, bad) := direct s who cls fine
          if bad.isSome then direct (s.dropL2 d line) who cls fine
          else
            let m := t.podFill enc line
            let l1 := l.overlay o bs cmp
            (t.putL2 d line { l1 with dirty := l.dirty &&& ~~~(BitVec.ofNat 64 (ones bs.length) <<< o), poison := m.poison &&& l.poison,
                                      dead := m.dead &&& l.dead }, bad)

/-- The last writer of a line that an agent of an array has just written in a cache (R126, R175). -/
def State.own (s : State) (a : Nat) (acc : Access) (o : Owner) : State :=
  match acc.line?, acc.cached with
  | some line, true =>
    match tabFind (s.arr a).l1 line, tabFind (s.die (dieOf a)).l2 line with
    | some l, _ => s.putL1 a line { l with owner := some o }
    | none, some l => s.putL2 (dieOf a) line { l with owner := some o }
    | none, none => s
  | _, _ => s

/-- A poison mark put on a granule of memory or of a face store (R166). -/
def State.mark (s : State) (acc : Access) : State :=
  match acc with
  | .store a f _ => s.setArr a { s.arr a with storePoison := setAdd (s.arr a).storePoison (f / 32) }
  | .mem key _ _ _ _ => { s with poison := setAdd s.poison (key / 32) }

/-! ## Translation (R242 to R250) -/

/-- What an access needs of its page (R249). -/
inductive Need where
  | fetch | read | write | both
  deriving DecidableEq, Repr

/-- The cause codes of translation (R287). -/
def xMiss : Nat := 0x100
def xFormat : Nat := 0x101
def xPerm : Nat := 0x102
def xRange : Nat := 0x103
def xPhys : Nat := 0x104
def xUe : Nat := 0x1D1

/-- The first byte of the bench window (R242). -/
def windowBase : Nat := 0x7FFFFFFE000000

/-- Permissions of a leaf (R247, R249). -/
def permitted (leaf : DWord) (need : Need) : Bool :=
  match need with
  | .fetch => bit leaf 3
  | .read => bit leaf 1
  | .write => bit leaf 2
  | .both => bit leaf 1 && bit leaf 2

/-- The physical address of a leaf's page, and the page kind fields. -/
def leafPa (leaf : DWord) : Nat := (fld leaf 16 38).toNat * 2 ^ 16
def leafOrd (leaf : DWord) : Nat := (fld leaf 4 2).toNat
def leafKey (leaf : DWord) : Option Nat := if bit leaf 8 then some (fld leaf 56 8).toNat else none

/-- The members of a 2 MiB span are the pages with the same bits above the low five (R248). -/
def sameSpan (a b : Nat) : Bool := a / 32 == b / 32

/-- The entry of a translation cache that serves a page: its own, a block, or a member of its span. -/
def tlbServes (e : TlbEntry) (vpage : Nat) : Bool :=
  if e.block then e.vpage / 8192 == vpage / 8192
  else e.vpage == vpage || (bit e.leaf 9 && sameSpan e.vpage vpage)

/-- The physical address that an entry gives for a virtual address (R248). -/
def tlbPa (e : TlbEntry) (va : Nat) : Nat :=
  if e.block then leafPa e.leaf / 2 ^ 29 * 2 ^ 29 + va % 2 ^ 29
  else leafPa e.leaf + va / 2 ^ 16 * 2 ^ 16 - e.vpage * 2 ^ 16 + va % 2 ^ 16

/-- The physical address of a span member page below the entry's own. -/
def tlbPaSpan (e : TlbEntry) (va : Nat) : Nat :=
  if !e.block && va / 2 ^ 16 < e.vpage then leafPa e.leaf - (e.vpage - va / 2 ^ 16) * 2 ^ 16 + va % 2 ^ 16 else tlbPa e va

/-- A read of a page table entry at the .pod point (R246, R249). -/
def State.readEntry (s : State) (table idx : Nat) : Except Nat DWord :=
  let pa := table + 8 * idx
  if table % 2 ^ 44 < Config.hbmBytes && s.place pa == .hbm then
    let key := s.memKey pa
    if (s.granPoison none key).isSome then .error xUe
    else .ok (BitVec.ofNat 64 (leNat ((List.range 8).map (fun i => s.plainByte (key + i)))))
  else .error xPhys

/-- A table pointer with its reserved bits clear (R247). -/
def pointerOk (e : DWord) : Bool := fld e 1 9 == 0 && fld e 56 8 == 0 && fld e 11 5 == 0 && fld e 54 2 == 0
/-- A leaf with its reserved bits clear and a valid kind, under the context's key slot (R247, R249). -/
def leafOk (e : DWord) (slot : Nat) : Bool :=
  fld e 11 5 == 0 && fld e 54 2 == 0 && leafOrd e != 3 && (leafKey e == none || leafKey e == some slot)

/-- The walk (R248, R249): the leaf, and whether it is a block. -/
def State.walk (s : State) (ctx : Context) (va : Nat) : Except Nat (DWord × Bool) :=
  match s.readEntry ctx.root (va / 2 ^ 42 % 8192) with
  | .error c => .error c
  | .ok e0 =>
    if !bit e0 0 then .error xMiss
    else if bit e0 10 || !pointerOk e0 then .error xFormat
    else match s.readEntry (leafPa e0) (va / 2 ^ 29 % 8192) with
      | .error c => .error c
      | .ok e1 =>
        if !bit e1 0 then .error xMiss
        else if bit e1 10 then
          (if !leafOk e1 ctx.slot || leafPa e1 % 2 ^ 29 != 0 then .error xFormat else .ok (e1, true))
        else if !pointerOk e1 then .error xFormat
        else match s.readEntry (leafPa e1) (va / 2 ^ 16 % 8192) with
          | .error c => .error c
          | .ok e2 =>
            if !bit e2 0 then .error xMiss
            else if !bit e2 10 || !leafOk e2 ctx.slot then .error xFormat
            else .ok (e2, false)

/-- The lines of the entries that a walk reads, in order (R246, R248). -/
def State.walkLines (s : State) (ctx : Context) (va : Nat) : List Nat :=
  let line (table idx : Nat) : Nat := s.memKey (table + 8 * idx) / 64
  let l0 := va / 2 ^ 42 % 8192
  let l1 := va / 2 ^ 29 % 8192
  line ctx.root l0 ::
    match s.readEntry ctx.root l0 with
    | .error _ => []
    | .ok e0 =>
      if !bit e0 0 || bit e0 10 || !pointerOk e0 then []
      else line (leafPa e0) l1 ::
        match s.readEntry (leafPa e0) l1 with
        | .error _ => []
        | .ok e1 => if !bit e1 0 || bit e1 10 || !pointerOk e1 then [] else [line (leafPa e1) (va / 2 ^ 16 % 8192)]

/-- Translation caches hold 256 entries, the die's 16,384 (R250); the oldest is dropped for a new one. -/
def tlbRoom (u : TlbUnit) : Nat := match u with | .die _ => 16384 | _ => 256

/-- An entry put into a translation cache. -/
def tlbAdd (l : List TlbEntry) (e : TlbEntry) : List TlbEntry :=
  if (l.filter (fun x => x.unit == e.unit)).length < tlbRoom e.unit then l ++ [e]
  else
    let i := l.findIdx (fun x => x.unit == e.unit)
    l.eraseIdx i ++ [e]

/-- The entry that serves a page: of the unit's cache, of the die's cache, or of a walk, with the caches as they are
then left (R250). -/
def State.lookup (s : State) (u : TlbUnit) (d : Nat) (ctx : Context) (va : Nat) : Except Nat TlbEntry × State :=
  let vp := va / 2 ^ 16
  let hit (w : TlbUnit) : Option TlbEntry :=
    s.tlb.find? (fun e => e.unit == w && e.ctx == ctx.num && tlbServes e vp)
  match hit u with
  | some e => (.ok e, s)
  | none =>
    match hit (.die d) with
    | some e => (.ok e, { s with tlb := tlbAdd s.tlb { e with unit := u } })
    | none =>
      let t := (s.walkLines ctx va).foldl (fun t l => t.podTouch none l 0 (whoWalk d)) s
      match s.walk ctx va with
      | .error c => (.error c, t)
      | .ok (leaf, blk) =>
        let e : TlbEntry := { unit := u, ctx := ctx.num, vpage := vp, block := blk, leaf := leaf }
        (.ok e, { t with tlb := tlbAdd (if u == .die d then t.tlb else tlbAdd t.tlb { e with unit := .die d }) e })

/-- The scratchpad size code of a face store that a context may reach by its physical address: that of an array which runs a task of the
context, here or on another module of the pod (R244). -/
def State.reaches (s : State) (ctx a : Nat) : Option Nat :=
  if a < 64 then (match s.runOn a with | some r => if r.ctx == ctx then some (s.arr a).spad else none | none => none)
  else (tabFind s.remote a).bind (fun e => if e.1 == ctx then some e.2 else none)

/-- The translation of a virtual address for an access (R242 to R250). `arrays` are those of the bench of the
issuing task, for its window. A bundle fetch from the window meets XLATE.RANGE where the bench has no such array, and else XLATE.PERM, also at
offsets past the scratchpad (log entry 71, DEDUCED). -/
def State.translate (s : State) (u : TlbUnit) (d : Nat) (ctx : Nat) (arrays : List Nat) (va : Nat) (need : Need) :
    Except Nat Access × State :=
  let va := va % 2 ^ 55
  if windowBase ≤ va then
    let m := (va - windowBase) / 2 ^ 22
    let f := va % 2 ^ 22
    match arrays[m]? with
    | none => (.error xRange, s)
    | some a =>
      if need == .fetch then (.error xPerm, s)
      else if storeOffOk (s.arr a).spad f then (.ok (.store a f 0), s) else (.error xRange, s)
  else
    match s.context ctx with
    | none => (.error xMiss, s)
    | some c =>
      match s.lookup u d c va with
      | (.error e, t) => (.error e, t)
      | (.ok e, t) =>
        if !permitted e.leaf need then (.error xPerm, t)
        else
          let pa := tlbPaSpan e va
          match s.place pa with
          | .hbm => (.ok (.mem (s.memKey pa) (leafOrd e.leaf) (bit e.leaf 6) (leafKey e.leaf) (bit e.leaf 7)), t)
          | .face a f =>
            match s.reaches ctx a with
            | some code => if storeOffOk code f then (.ok (.store a f (leafOrd e.leaf)), t) else (.error xPhys, t)
            | none => (.error xPhys, t)
          | .nowhere => (.error xPhys, t)

/-! ## Scopes, releases, acquires and fences (R254 to R264) -/

/-- Scope codes of R62: 0 .array, 1 .quad, 2 .die, 3 .pkg, 4 .pod, 5 .sys. A scope from .quad up has L1 below its
point, a scope from .pkg up has L2 as well (R254). -/
def belowL1 (scope : Nat) : Bool := 1 ≤ scope
def belowL2 (scope : Nat) : Bool := 3 ≤ scope

/-- Write back of one line in the caches of an array below a scope's point. -/
def State.cleanBelow (s : State) (a scope line : Nat) : State :=
  let s1 := if belowL1 scope then s.cleanL1 a line else s
  if belowL2 scope then s1.cleanL2 (dieOf a) line else s1

/-- Write back and invalidation of one line in the caches of an array below a scope's point. -/
def State.dropBelow (s : State) (a scope line : Nat) : State :=
  let s1 := if belowL1 scope then s.dropL1 a line else s
  if belowL2 scope then s1.dropL2 (dieOf a) line else s1

/-- A record that an agent wrote a line (R256): for every scope, not yet released. -/
def wroteAdd (w : Tab (BitVec 6)) (line : Nat) : Tab (BitVec 6) := tabPut w line 0x3F

/-- The lines not yet released at a scope. -/
def wroteAt (w : Tab (BitVec 6)) (scope : Nat) : List Nat := (w.filter (fun e => bit e.2 scope)).map (·.1)

/-- The lines after a release at a scope: released there and at every narrower one. -/
def wroteClear (w : Tab (BitVec 6)) (scope : Nat) : Tab (BitVec 6) :=
  (w.map (fun e => (e.1, e.2 &&& ~~~(BitVec.ofNat 6 (ones (scope + 1)))))).filter (fun e => e.2 != 0)

/-- The frank that a place carries (R257). Log entry 19: DESIGN CHOICE. -/
def State.frankOf (s : State) (place : Nat) : List Nat := tabGet [] s.franks place

/-- A frank attached to a synchronising write's place (R256, R257). Log entry 19: DESIGN CHOICE. -/
def State.attach (s : State) (place : Nat) (frank : List Nat) : State :=
  if frank.isEmpty then s else { s with franks := tabPut s.franks place (setUnion (s.frankOf place) frank) }

/-- The place of a face store's 64 bytes as an array and a unit of it; none for a line of memory. -/
def facePlace (place : Nat) : Option (Nat × Nat) := if place < 2 ^ 60 then none else some ((place - 2 ^ 60) / 2 ^ 16, place % 2 ^ 16)

/-- The franks of places in the face stores of a bench: the array's place in the bench, the unit and the frank. -/
def State.benchFranks (s : State) (arrays : List Nat) : List (Nat × Nat × List Nat) :=
  s.franks.filterMap (fun e => (facePlace e.1).bind (fun p => (arrays.findIdx? (· == p.1)).map (fun m => (m, p.2, e.2))))

/-- Nothing is attached to places in the face stores of a bench. -/
def State.dropFranks (s : State) (arrays : List Nat) : State :=
  { s with franks := s.franks.filter (fun e => match facePlace e.1 with | some p => !arrays.contains p.1 | none => true) }

/-- The franks of a bench put at the same places of another bench's face stores (R257). -/
def State.putFranks (s : State) (arrays : List Nat) (l : List (Nat × Nat × List Nat)) : State :=
  l.foldl (fun t e => { t with franks := tabPut t.franks (2 ^ 60 + arrays.getD e.1 0 * 2 ^ 16 + e.2.1) e.2.2 }) (s.dropFranks arrays)

/-- An array lies in the scope instance of another (R12): 0 .array, 1 .quad, 2 .die, wider ones whole. -/
def inScope (scope a b : Nat) : Bool :=
  match scope with | 0 => a == b | 1 => a / 4 == b / 4 | 2 => a / 16 == b / 16 | _ => true

/-- The write-backs of a release at a scope by an agent of array `a` (R256). -/
def State.releaseLines (s : State) (a scope : Nat) (lines : List Nat) : State :=
  lines.foldl (fun t l => t.cleanBelow a scope l) s

/-- The invalidations of an acquire at a scope that took a frank (R257). Log entry 19: DESIGN CHOICE. -/
def State.acquireLines (s : State) (a scope : Nat) (frank : List Nat) : State :=
  frank.foldl (fun t l => t.dropBelow a scope l) s

/-- Stale copies of lines leave the caches of the bench's arrays past the head that lie in a scope of it, so that their faces read what the
sequencer has released (R260). -/
def State.forkLines (s : State) (head : Nat) (arrays : List Nat) (scope : Nat) (lines : List Nat) : State :=
  arrays.foldl (fun t a => if a == head || !inScope scope head a then t else t.acquireLines a scope lines) s

/-- FENCE.ST, for the lines that the agent wrote (R259). -/
def State.fenceSt (s : State) (a scope : Nat) (w : Tab (BitVec 6)) : State := s.releaseLines a scope (w.map (·.1))

/-- FENCE.LD: every line in the caches below the point written back and invalidated (R259). -/
def State.fenceLd (s : State) (a scope : Nat) : State :=
  let s1 := if belowL1 scope then ((s.arr a).l1.map (·.1)).foldl (fun t l => t.dropL1 a l) s else s
  if belowL2 scope then ((s1.die (dieOf a)).l2.map (·.1)).foldl (fun t l => t.dropL2 (dieOf a) l) s1 else s1

/-- FENCE.LD of a bench's sequencer: also in the bench's other arrays that lie in the scope, whose faces' accesses come after the fence (R258 to
R260). -/
def State.fenceLdBench (s : State) (head : Nat) (arrays : List Nat) (scope : Nat) : State :=
  arrays.foldl (fun t a => if a == head || !inScope scope head a then t else t.fenceLd a scope) (s.fenceLd head scope)

end Sys2Proof.Machine
end

