-- ==== Sys2Proof/Machine/Operands.lean ====
section
/-!
DEFINITION. Operand forms: scalar registers with rotation, full bits and poison (01_machine.md R21, R22; 17_loops.md R232),
and the operand codes of cell slots (05_encoding.md R55) read in a cell at its step.
-/

namespace Sys2Proof.Machine

/-- An element of a vector, or a default beyond its end. -/
def vget {α : Type} {n : Nat} (v : Vector α n) (i : Nat) (d : α) : α := v[i]?.getD d
/-- A vector with one element replaced; an index beyond the end changes nothing. -/
def vset {α : Type} {n : Nat} (v : Vector α n) (i : Nat) (x : α) : Vector α n := v.setIfInBounds i x

/-! ## Rotation (R232) -/

/-- The physical register of a name in a region with first register `f`, size `sz` and base `b` (R232). -/
def rotName (f sz b x : Nat) : Nat := if sz != 0 && f ≤ x && x < f + sz then f + (x - f + b) % sz else x

/-- The physical s register of a name. -/
def Run.sPhys (r : Run) (n : Nat) : Nat := rotName (64 - r.rs) r.rs r.sbase n

/-! ## Scalar registers (R21, R22) -/

/-- The register of a name; s0 reads zero and is always full (R22). -/
def Run.sreg (r : Run) (n : Nat) : SReg := if n == 0 then SReg.of 0 else vget r.s (r.sPhys n) (SReg.of 0)

/-- The value of a name. -/
def Run.sval (r : Run) (n : Nat) : DWord := (r.sreg n).val

/-- A write to a name: the register becomes full and unmarked, and the data of an outstanding load to it will be
discarded (R22, R126). A write to s0 is discarded. -/
def Run.setS (r : Run) (n : Nat) (v : DWord) : Run :=
  if n == 0 then r
  else
    let p := r.sPhys n
    { r with s := vset r.s p (SReg.of v),
             loads := r.loads.map (fun l => if l.dst == some p then { l with dst := none } else l) }

/-- A load takes a name as its destination: the register is marked empty, with the data it held (R22, R103). -/
def Run.emptyS (r : Run) (n : Nat) : Run :=
  if n == 0 then r
  else
    let p := r.sPhys n
    { r with s := vset r.s p { vget r.s p (SReg.of 0) with full := false, poison := none },
             loads := r.loads.map (fun l => if l.dst == some p then { l with dst := none } else l) }

/-- A predicate q; q0 reads 1 (R21). -/
def Run.qval (r : Run) (n : Nat) : Bool := n == 0 || bit r.q n

/-- A write to a predicate q; a write to q0 is discarded (R21). -/
def Run.setQ (r : Run) (n : Nat) (b : Bool) : Run :=
  if n == 0 then r
  else { r with q := if b then r.q ||| (1#8 <<< n) else r.q &&& ~~~(1#8 <<< n) }

/-- A guard of a sequencer slot (R53). -/
def Run.guard (r : Run) (g : QGuard) : Bool := r.qval g.pred.toNat != g.neg

/-- A selector mask; msk0 reads all ones (R21). -/
def Run.mask (r : Run) (n : Nat) : Word := if n == 0 then 0xFFFFFFFF else vget r.msk n 0xFFFFFFFF

/-- A write to a selector mask; a write to msk0 is discarded (R21, R130). -/
def Run.setMask (r : Run) (n : Nat) (v : Word) : Run := if n == 0 then r else { r with msk := vset r.msk n v }

/-- A semiring entry's image: entries 0 to 7 are fixed, 8 to 15 held (R93). -/
def Run.entry (r : Run) (n : Nat) : DWord :=
  match n with
  | 0 => 0x00003F8000000800
  | 1 => 0x7F80000000000011
  | 2 => 0xFF80000000000012
  | 3 => 0x00003F8000000902
  | 4 => 0x0000000100000B43
  | 5 => 0x0000000100000B44
  | 6 => 0xFF807F8000000022
  | 7 => 0x7F80FF8000000031
  | _ => vget r.srt (n - 8) semEntry0

/-! ## Cell operands (R55) -/

/-- What a cell reads at its step: itself, its neighbours or stream elements, and what the bundle carries. `bad` lists the operand codes 44 to
51 that name a neighbour's register with an uncorrectable error (R287). -/
structure CellIn where
  cell : Cell
  north : VPair
  south : VPair
  east : VPair
  west : VPair
  bad : List Nat
  rowid : Nat
  colid : Nat
  lidx : Word
  ws : DWord
  rg : Nat
  deriving Repr

/-- A word that reads with V = 1 (R18). -/
def vOk (x : Word) : VWord := ⟨x, true⟩

/-- The physical g register of a name in the cell's row (R232). -/
def gPhys (rg gbase n : Nat) : Nat := rotName (44 - rg) rg gbase n

/-- The physical predicate of a name in the cell's row (R232). -/
def pPhys (pbase n : Nat) : Nat := rotName 8 8 pbase n

/-- The word that an operand code names (R55). -/
def CellIn.word (x : CellIn) (code : Nat) : VWord :=
  if code < 44 then vget x.cell.g (gPhys x.rg x.cell.gbase code) VWord.zero
  else match code with
    | 44 => x.north.lo | 45 => x.north.hi | 46 => x.south.lo | 47 => x.south.hi
    | 48 => x.east.lo | 49 => x.east.hi | 50 => x.west.lo | 51 => x.west.hi
    | 52 => x.cell.ch.lo | 53 => x.cell.ch.hi | 54 => x.cell.cv.lo | 55 => x.cell.cv.hi
    | 56 => vOk (loW x.ws) | 57 => vOk (hiW x.ws)
    | 58 => vOk x.lidx | 59 => vOk (BitVec.ofNat 32 x.rowid) | 60 => vOk (BitVec.ofNat 32 x.colid)
    | _ => vOk 0

/-- The pair that an operand code names (R55). -/
def CellIn.pair (x : CellIn) (code : Nat) : VPair := ⟨x.word code, x.word (code + 1)⟩

/-- A predicate; p0 reads 1 (R16). -/
def CellIn.pred (x : CellIn) (n : Nat) : Bool := n == 0 || bit x.cell.p (pPhys x.cell.pbase n)

/-- A guard of a cell slot (R53). -/
def CellIn.guard (x : CellIn) (g : PGuard) : Bool := x.pred g.pred.toNat != g.neg

/-- The place of a destination code (R233): the physical g register, or the half of ch or cv. -/
def CellIn.place (x : CellIn) (code : Nat) : Nat := if code < 44 then gPhys x.rg x.cell.gbase code else code

/-- The half of ch or cv set. -/
def VPair.setLo (p : VPair) (w : VWord) : VPair := { p with lo := w }
def VPair.setHi (p : VPair) (w : VWord) : VPair := { p with hi := w }

/-- A word of a cell set: a g register, or a half of ch or cv. -/
def Cell.setWord (c : Cell) (reg : Nat) (w : VWord) : Cell :=
  if reg < 44 then { c with g := vset c.g reg w }
  else match reg with
    | 52 => { c with ch := c.ch.setLo w }
    | 53 => { c with ch := c.ch.setHi w }
    | 54 => { c with cv := c.cv.setLo w }
    | 55 => { c with cv := c.cv.setHi w }
    | _ => c

/-- The physical word of a cell. -/
def Cell.getWord (c : Cell) (reg : Nat) : VWord :=
  if reg < 44 then vget c.g reg VWord.zero
  else match reg with
    | 52 => c.ch.lo | 53 => c.ch.hi | 54 => c.cv.lo | 55 => c.cv.hi | _ => VWord.zero

/-- One predicate bit set; a write to p0 is discarded (R16). -/
def setPred (p : BitVec 16) (n : Nat) (b : Bool) : BitVec 16 :=
  if n == 0 then p else if b then p ||| (1#16 <<< n) else p &&& ~~~(1#16 <<< n)

/-- The accumulator of a cell. -/
def Cell.accum (c : Cell) (a : Nat) : Acc := vget c.acc a ⟨Vector.replicate 16 0, false⟩

/-- What a landing writes, which is free of an error from then on (R39, R137, R205, R206, R287). One that only changes V keeps the value that the word
has: also the value of an earlier issue that lands at the same step, of which it takes V alone (R40; log entry 71, DEDUCED). -/
def Cell.land1 (c : Cell) (l : Landing) : Cell :=
  match l with
  | .word reg val v =>
    let c1 := c.setWord reg ⟨val.getD (c.getWord reg).val, v⟩
    if val.isSome then { c1 with ue := setDel c1.ue reg } else c1
  | .pred reg b => { c with p := setPred c.p reg b, ue := setDel c.ue (512 + reg) }
  | .acc a elems v =>
    let old := c.accum a
    let es := elems.foldl (fun (e : Vector Word 16) (x : Nat × Word) => vset e x.1 x.2) old.elems
    { c with acc := vset c.acc a ⟨es, v⟩, ue := if elems.length == 16 then setDel c.ue (64 + a) else c.ue }

/-- The landings of one latch, in order. -/
def Cell.landAll (c : Cell) (ls : List Landing) : Cell := ls.foldl Cell.land1 c

/-! ## The cell store (R19, R153) -/

/-- A word of the store space. -/
def Cell.load4 (c : Cell) (a : Nat) : Word :=
  BitVec.ofNat 32 (leNat ((List.range 4).map (fun i => tabGet 0 c.store (a + i))))

/-- A word stored in the store space. -/
def Cell.store4 (c : Cell) (a : Nat) (w : Word) : Cell :=
  { c with store := (List.range 4).foldl (fun t i => tabSet 0 t (a + i) ((leBytes 4 w.toNat).getD i 0)) c.store }

end Sys2Proof.Machine
end

