-- ==== Sys2Proof/Machine/Flags.lean ====
section
/-!
DEFINITION. Flags: the aggregate flag records and the flag state (03_wave.md R46 to R48), exit states (17_loops.md R236), XFLAGS
(07_numbers.md R84) and the conditions of BR, CALL, CMP, ICMP and FCMP.
-/

namespace Sys2Proof.Machine

/-! ## Latencies of the bench -/

/-- The seam latency between two arrays of a bench (R32): 2 on one die, 6 across dies. -/
def seam (a b : Nat) : Nat := if dieOf a == dieOf b then 2 else 6

/-- The offsets O_m of the arrays of a bench (R32). -/
def benchOffsets : List Nat → Nat → List Nat
  | [], _ => []
  | [_], o => [o]
  | a :: b :: t, o => o :: benchOffsets (b :: t) (o + 32 + seam a b)

/-- The flag latency L of a bundle (R47): 32n + Σs + 2, and 32 more in a skew wave. -/
def flagLatency (arrays : List Nat) (skew : Bool) : Nat :=
  (benchOffsets arrays 0).getLastD 0 + 34 + (if skew then 32 else 0)

/-! ## Records (R46 to R48, R84, R235) -/

/-- A record with nothing contributed: OR 0, AND 1 (R46, R130). -/
def Flags.none : Flags := ⟨false, true, 0, 0xFFFFFFFF⟩

/-- One cell's contribution in a row (R46, R130). -/
def Flags.contribute (f : Flags) (row : Nat) (b : Bool) : Flags :=
  { any := f.any || b, all := f.all && b,
    rowOr := if b then f.rowOr ||| (1#32 <<< row) else f.rowOr,
    rowAnd := if b then f.rowAnd else f.rowAnd &&& ~~~(1#32 <<< row) }

/-- The record is readable by the bundle about to issue (R47, R48). -/
def Record.readable (r : Record) : Bool := r.left ≤ 1 || r.advs == 0

/-- The raises are in XFLAGS for the bundle about to issue (R84). -/
def Record.raised (r : Record) : Bool := r.left ≤ 1

/-- Readable records folded into the flag state, the exit states and XFLAGS, in bundle order (R48, R84, R236): the record of a later bundle
stands, so an older one that is not readable yet loses its place. A record that both is readable and has no raises still to show is dropped. -/
def Run.foldRecords (r : Run) : Run :=
  r.records.foldl
    (fun (t : Run) (c : Record) =>
      let t1 := if c.readable then
          let t2 := match c.flags with
            | some f => { t with flags := f, records := t.records.map (fun x => { x with flags := none }) }
            | none => t
          match c.exit with
          | some (l, b) =>
            { t2 with exits := vset t2.exits l (some b),
                      records := t2.records.map (fun x => if x.exit.map (·.1) == some l then { x with exit := none } else x) }
          | none => t2
        else t
      let t3 := if c.raised then { t1 with xflags := t1.xflags ||| c.raises } else t1
      if c.readable && c.raised then t3
      else
        let c1 := if c.readable then { c with flags := none, exit := none } else c
        { t3 with records := t3.records ++ [if c.raised then { c1 with raises := 0 } else c1] })
    { r with records := [] }

/-- The record of the latest flag bundle is readable: none waits (R111). -/
def Run.flagsReady (r : Run) : Bool := !r.records.any (fun x => x.flags.isSome)

/-- One advance seen by the records: an issue counts a bundle and an advance, a drain advance only an advance, a blank
advance nothing (R48). -/
def Run.countRecords (r : Run) (issue blank : Bool) : Run :=
  if blank then r
  else { r with records := r.records.map (fun c =>
    { c with left := if issue then c.left - 1 else c.left, advs := c.advs - 1 }) }

/-- A change to the record of a bundle. -/
def Run.updRecord (r : Run) (num : Nat) (handler : Bool) (f : Record → Record) : Run :=
  { r with records := r.records.map (fun c => if c.num == num && c.handler == handler then f c else c) }

/-! ## Conditions -/

/-- The condition of BR and CALL (R105). -/
def flagCond (f : Flags) (c : Nat) : Bool :=
  match c with
  | 0 => true
  | 1 => f.any
  | 2 => !f.any
  | 3 => f.all
  | _ => !f.all

/-- The condition of CMP, CMPI and ICMP (R125, R142). -/
def intCond {w : Nat} (c : Nat) (a b : BitVec w) : Bool :=
  match c with
  | 0 => a == b
  | 1 => a != b
  | 2 => a.slt b
  | 3 => !a.slt b
  | 4 => a.ult b
  | 5 => !a.ult b
  | 6 => (a &&& b) != 0
  | _ => (a &&& b) == 0

/-- The condition of FCMP and whether a NaN word raises INV (R145). -/
def floatCond (c : Nat) (a b : ExactNum) : Bool × Bool :=
  let n := a == .nan || b == .nan
  match c with
  | 0 => (a.eqv b, false)
  | 1 => (!a.eqv b, false)
  | 2 => (a.lt b, n)
  | 3 => (!n && !a.lt b, n)
  | 4 => (!n && !b.lt a, n)
  | 5 => (b.lt a, n)
  | 6 => (n, false)
  | _ => (!n, false)

/-- The condition of VTEST (R151). -/
def validCond (c : Nat) (a b : Bool) : Bool :=
  match c with
  | 0 => a
  | 1 => !a
  | 2 => a && b
  | _ => a || b

/-- The cell fault of a set of raises: the first of INV, OVF and SCL that TEN enables, then IND under TRAPIND (R84,
R138). -/
def raiseFault (traps raises : XFlags) (trapInd : Bool) : Option Nat :=
  let t := raises &&& traps
  if bit t 0 then some 0x042 else if bit t 1 then some 0x043 else if bit t 4 then some 0x044
  else if trapInd && bit raises 3 then some 0x045 else none

end Sys2Proof.Machine
end

