-- ==== Sys2Proof/Machine/Static.lean ====
section
/-!
DEFINITION. What a slot names, read from its fields alone: the words that a cell slot reads and writes, its predicate and
accumulator destinations and its latency (11_cell_isa.md R134 to R136, 15_semiring_isa.md R207 to R209), the s, q and mask
registers of a sequencer slot (05_encoding.md R58 to R64), and the conflicts of two slots of a bundle (R66 to R68).
-/

namespace Sys2Proof.Machine

/-! ## Cell slots -/

/-- The words of a pair code. A code that is illegal in a pair position names none (R55, R66; log entry 44, DEDUCED). -/
def pairWords (c : BitVec 6) : List Nat := if pairSrc c then [c.toNat, c.toNat + 1] else []

/-- The words of a quad, by its number (R207); an illegal quad names none (log entry 44, DEDUCED). -/
def quadWords (b : BitVec 4) : List Nat := if b.toNat ≤ 10 then span (4 * b.toNat) 4 else []

/-- The accumulator that an accumulator code of SCMPR names: 0 or 2 (R218). -/
def scmprAcc (c : Bool) : Nat := if c then 2 else 0

/-- The words that a cell slot reads as inputs (R136, R155, R208). -/
def cellSrcs : Instr → List Nat
  | .iadd _ _ a b | .isub _ _ a b | .imul _ _ a b | .imulh _ _ a b _ | .iand _ _ a b | .ior _ _ a b
  | .ixor _ _ a b | .ishl _ _ a b | .ishr _ _ a b | .isra _ _ a b | .imin _ _ a b _ | .imax _ _ a b _
  | .isel _ _ a b | .fadd _ _ a b | .fsub _ _ a b | .fmul _ _ a b | .fmin _ _ a b | .fmax _ _ a b
  | .hadd2 _ _ a b | .hmul2 _ _ a b | .vsel _ _ a b | .icmp _ _ a b _ | .fcmp _ _ a b _ => [a.toNat, b.toNat]
  | .ffma _ d a b | .bfma _ d a b _ | .hfma2 _ d a b => [a.toNat, b.toNat, d.toNat]
  | .iaddi _ d _ | .movhi _ d _ => [d.toNat]
  | .movCell _ _ a | .fabs _ _ a | .fneg _ _ a | .frcp _ _ a | .frsq _ _ a | .fexp2 _ _ a | .flog2 _ _ a
  | .ftanh _ _ a | .vmov _ _ a | .rand _ _ a _ | .frnd _ _ a _ => [a.toNat]
  | .fcvt _ _ a b m => if m == 2 || m == 3 || m == 6 || m == 7 then [a.toNat, b.toNat] else [a.toNat]
  | .vtest _ _ a b c => if c.toNat ≤ 1 then [a.toNat] else [a.toNat, b.toNat]
  | .ldc _ _ b _ | .ldca _ _ b _ | .ldc2 _ _ b _ => [b.toNat]
  | .stc _ d b _ | .stca _ d b _ => [b.toNat, d.toNat]
  | .stc2 _ d b _ => b.toNat :: pairWords d
  | .comm _ _ a m => if m == 2 then (pairWords a).take 1 else if m == 3 then (pairWords a).drop 1 else pairWords a
  | .smm _ _ _ a b _ | .smms _ _ _ a b _ => pairWords a ++ pairWords b
  | .sexpn _ _ _ a b _ => pairWords a ++ quadWords b
  | .smwr _ a _ _ | .bunpk _ a _ _ _ => pairWords a
  | .scmpr _ _ a _ _ => [a.toNat]
  | _ => []

/-- The words that a cell slot writes (R66, R67, R208). -/
def cellDests : Instr → List Nat
  | .iadd _ d _ _ | .isub _ d _ _ | .imul _ d _ _ | .imulh _ d _ _ _ | .iand _ d _ _ | .ior _ d _ _
  | .ixor _ d _ _ | .ishl _ d _ _ | .ishr _ d _ _ | .isra _ d _ _ | .imin _ d _ _ _ | .imax _ d _ _ _
  | .isel _ d _ _ | .fadd _ d _ _ | .fsub _ d _ _ | .fmul _ d _ _ | .fmin _ d _ _ | .fmax _ d _ _
  | .hadd2 _ d _ _ | .hmul2 _ d _ _ | .vsel _ d _ _ | .ffma _ d _ _ | .bfma _ d _ _ _ | .hfma2 _ d _ _
  | .iaddi _ d _ | .movhi _ d _ | .movi _ d _ | .movCell _ d _ | .fabs _ d _ | .fneg _ d _ | .frcp _ d _
  | .frsq _ d _ | .fexp2 _ d _ | .flog2 _ d _ | .ftanh _ d _ | .vmov _ d _ | .rand _ d _ _ | .frnd _ d _ _
  | .fcvt _ d _ _ _ | .vset _ d | .vclr _ d | .ldc _ d _ _ | .ldca _ d _ _ | .scmpr _ d _ _ _
  | .scmprPair _ d _ _ => [d.toNat]
  | .ldc2 _ d _ _ | .comm _ d _ _ | .smrd _ d _ _ | .bpack _ d _ _ _ _ => pairWords d
  | .smout _ _ _ _ f => if f then [54, 55] else [52, 53]
  | _ => []

/-- The predicate that a cell slot writes (R46, R152, R217). -/
def cellPred : Instr → Option Nat
  | .icmp _ p _ _ _ | .fcmp _ p _ _ _ | .vtest _ p _ _ _ | .pand _ p _ _ | .por _ p _ _ | .pxor _ p _ _
  | .pnot _ p _ | .pmov _ p _ | .smcmp _ _ _ _ p _ => some p.toNat
  | _ => none

/-- The predicates that a cell slot reads besides its guard (R152). -/
def cellPredSrcs : Instr → List Nat
  | .pand _ _ q r | .por _ _ q r | .pxor _ _ q r => [q.toNat, r.toNat]
  | .pnot _ _ q | .pmov _ _ q => [q.toNat]
  | _ => []

/-- The accumulators that a tile instruction writes (R207). -/
def cellAccs : Instr → List Nat
  | .smm _ c _ _ _ _ | .smms _ c _ _ _ _ | .smz _ c _ | .smadd _ c _ _ | .smwr _ _ c _ | .sexpn _ c _ _ _ _
  | .bunpk _ _ c _ _ | .smred _ c _ _ _ => [c.toNat]
  | .scmpr _ _ _ c _ | .scmprPair _ _ c _ => [scmprAcc c, scmprAcc c + 1]
  | _ => []

/-- The latency of a cell slot in steps (R134, R207). -/
def latency : Instr → Nat
  | .fadd .. | .fsub .. | .fmul .. | .ffma .. | .fcvt .. | .frnd .. | .bfma .. | .hadd2 .. | .hmul2 ..
  | .hfma2 .. | .rand .. | .smm .. | .smms .. | .smz .. | .smadd .. | .smwr .. | .scmpr .. | .scmprPair ..
  | .sexpn .. | .bpack .. | .bunpk .. | .smred .. => 4
  | .frcp .. | .frsq .. | .fexp2 .. | .flog2 .. | .ftanh .. => 8
  | .ldc .. | .ldc2 .. | .ldca .. => 2
  | _ => 1

/-- The guard of a cell slot. -/
def cellGuard : Instr → PGuard
  | .nopCell g | .iadd g _ _ _ | .isub g _ _ _ | .imul g _ _ _ | .imulh g _ _ _ _ | .iand g _ _ _ | .ior g _ _ _
  | .ixor g _ _ _ | .ishl g _ _ _ | .ishr g _ _ _ | .isra g _ _ _ | .imin g _ _ _ _ | .imax g _ _ _ _
  | .icmp g _ _ _ _ | .isel g _ _ _ | .iaddi g _ _ | .movi g _ _ | .movhi g _ _ | .movCell g _ _
  | .fadd g _ _ _ | .fsub g _ _ _ | .fmul g _ _ _ | .ffma g _ _ _ | .fmin g _ _ _ | .fmax g _ _ _
  | .fcmp g _ _ _ _ | .fabs g _ _ | .fneg g _ _ | .frcp g _ _ | .frsq g _ _ | .fexp2 g _ _ | .flog2 g _ _
  | .ftanh g _ _ | .fcvt g _ _ _ _ | .frnd g _ _ _ | .bfma g _ _ _ _ | .hadd2 g _ _ _ | .hmul2 g _ _ _
  | .hfma2 g _ _ _ | .vset g _ | .vclr g _ | .vtest g _ _ _ _ | .vsel g _ _ _ | .vmov g _ _ | .pand g _ _ _
  | .por g _ _ _ | .pxor g _ _ _ | .pnot g _ _ | .pmov g _ _ | .rand g _ _ _ | .lexit g | .ldc g _ _ _
  | .stc g _ _ _ | .ldc2 g _ _ _ | .stc2 g _ _ _ | .ldca g _ _ _ | .stca g _ _ _ | .comm g _ _ _
  | .smm g _ _ _ _ _ | .smms g _ _ _ _ _ | .smz g _ _ | .smadd g _ _ _ | .smrd g _ _ _ | .smwr g _ _ _
  | .smout g _ _ _ _ | .smcmp g _ _ _ _ _ | .scmpr g _ _ _ _ | .scmprPair g _ _ _ | .sexpn g _ _ _ _ _
  | .bpack g _ _ _ _ _ | .bunpk g _ _ _ _ | .smred g _ _ _ _ => g
  | _ => ⟨false, 0⟩

/-- The semiring entry that a tile instruction names (R98, R210). -/
def tileEntry : Instr → Option Nat
  | .smm _ _ e _ _ _ | .smms _ _ e _ _ _ | .smz _ _ e | .smadd _ _ e _ | .smcmp _ _ e _ _ _ | .scmpr _ _ _ _ e
  | .scmprPair _ _ _ e | .sexpn _ _ e _ _ _ | .bpack _ _ _ e _ _ | .smred _ _ e _ _ => some e.toNat
  | _ => none

/-- ISEL, which its guard does not nullify (R53). -/
def isIsel : Instr → Bool
  | .isel .. => true
  | _ => false

/-- A NOP of a cell slot. -/
def isNopCell : Instr → Bool
  | .nopCell _ => true
  | _ => false

/-- LEXIT (R158). -/
def isLexit : Instr → Bool
  | .lexit _ => true
  | _ => false

/-! ## Sequencer slots -/

/-- The guard of an S0, S1, S5, S6 or S7 slot; S4 has none. -/
def seqGuard : Instr → QGuard
  | .nopControl g | .br g _ _ | .call g _ _ | .calli g _ | .ret g | .jmpi g _ | .loop g _ _ _ _ | .loops g _ _ _ _
  | .lbrk g | .lbrka g | .rotcfg g _ _ | .wave g _ | .fmtset g _ | .semset g _ _ | .waitf g _ _ | .waitr g _ _ _
  | .drain g _ _ _ | .fence g _ _ | .rel g _ | .acq g _ _ | .acqW g _ _ _ _ | .bar g _ _ _ | .launch g _
  | .signal g _ | .yield g | .done g | .trap g _ | .rft g | .sysrd g _ _ | .syswr g _ _ | .docket g _ _
  | .dcheck g | .stamp g _ | .stampS g _
  | .nopScalar g | .add g _ _ _ _ _ | .sub g _ _ _ _ _ | .addi g _ _ | .mul g _ _ _ _ _ | .mulh g _ _ _ _ _
  | .mulhu g _ _ _ _ _ | .div g _ _ _ _ _ | .divu g _ _ _ _ _ | .rem g _ _ _ _ _ | .remu g _ _ _ _ _
  | .and g _ _ _ _ _ | .or g _ _ _ _ _ | .xor g _ _ _ _ _ | .andi g _ _ | .ori g _ _ | .xori g _ _
  | .shl g _ _ _ _ _ | .shr g _ _ _ _ _ | .sra g _ _ _ _ _ | .shli g _ _ | .shri g _ _ | .srai g _ _
  | .min g _ _ _ _ _ | .max g _ _ _ _ _ | .minu g _ _ _ _ _ | .maxu g _ _ _ _ _ | .selScalar g _ _ _ _ _
  | .cmp g _ _ _ _ _ _ | .cmpi g _ _ _ _ | .li g _ _ | .lui g _ _ | .movScalar g _ _ _ | .clz g _ _ _
  | .popc g _ _ _ | .lea g _ _ _ _ _ _ | .ld g _ _ _ _ | .st g _ _ _ _ | .lda g _ _ _ _ | .stl g _ _ _ _
  | .ldlast g _ _ _ _ | .pref g _ _ _ _ | .aadd g _ _ _ _ _ _ | .amin g _ _ _ _ _ _ | .amax g _ _ _ _ _ _
  | .aand g _ _ _ _ _ _ | .aor g _ _ _ _ _ _ | .axor g _ _ _ _ _ _ | .aswap g _ _ _ _ _ _
  | .acas g _ _ _ _ _ _ | .afadd g _ _ _ _ _ _
  | .nopInject g | .ficfg g _ _ | .figo g _ _ | .fihalt g _ | .fipad g _ _ _ | .fisel g _ _ | .fiqb g _ _ _ _
  | .nopDrain g | .fdcfg g _ _ | .fdgo g _ | .fdhalt g _ | .fdchain g _ _ | .fdflush g _ _
  | .nopEngine g | .cpy g _ _ _ _ | .cpya g _ _ _ _ | .gath g _ _ _ _ _ | .scat g _ _ _ _ _ | .red g _ _ _ _
  | .ared g _ _ _ _ | .bcst g _ _ _ _ | .fill g _ _ _ _ | .ccan g _ _ _ | .ckpt g _ _ _ _ | .sortb g _ _
  | .sortl g _ _ | .sortm g _ _ | .sortd g _ _ | .post g _ _ _ | .precv g _ _ _ _ => g
  | _ => ⟨false, 0⟩

/-- The s registers that a slot reads, each with its mode: true for trapping mode (R58, R59). SEL reads the source that
its guard selects (R101); `guard` is the guard's value. -/
def seqReads (guard : Bool) : Instr → List (Nat × Bool)
  | .add _ _ a b y x | .sub _ _ a b y x | .mul _ _ a b y x | .mulh _ _ a b y x | .mulhu _ _ a b y x
  | .div _ _ a b y x | .divu _ _ a b y x | .rem _ _ a b y x | .remu _ _ a b y x | .and _ _ a b y x
  | .or _ _ a b y x | .xor _ _ a b y x | .shl _ _ a b y x | .shr _ _ a b y x | .sra _ _ a b y x
  | .min _ _ a b y x | .max _ _ a b y x | .minu _ _ a b y x | .maxu _ _ a b y x | .cmp _ _ _ a b y x
  | .lea _ _ a b _ y x | .aadd _ _ a b _ y x | .amin _ _ a b _ y x | .amax _ _ a b _ y x | .aand _ _ a b _ y x
  | .aor _ _ a b _ y x | .axor _ _ a b _ y x | .aswap _ _ a b _ y x | .afadd _ _ a b _ y x =>
    [(a.toNat, x), (b.toNat, y)]
  | .acas _ d a b _ y x => [(a.toNat, x), (b.toNat, y), (d.toNat, false)]
  | .selScalar _ _ a b y x => if guard then [(a.toNat, x)] else [(b.toNat, y)]
  | .movScalar _ _ a x | .clz _ _ a x | .popc _ _ a x => [(a.toNat, x)]
  | .addi _ d _ | .andi _ d _ | .ori _ d _ | .xori _ d _ | .shli _ d _ | .shri _ d _ | .srai _ d _
  | .lui _ d _ => [(d.toNat, false)]
  | .cmpi _ _ _ a _ => [(a.toNat, false)]
  | .ld _ _ b _ _ | .lda _ _ b _ _ | .ldlast _ _ b _ _ | .pref _ _ b _ _ => [(b.toNat, false)]
  | .st _ d b _ _ | .stl _ d b _ _ => [(b.toNat, false), (d.toNat, false)]
  | .calli _ s | .jmpi _ s | .loop _ s _ _ _ | .fmtset _ s | .semset _ _ s | .launch _ s | .signal _ s
  | .syswr _ s _ => [(s.toNat, false)]
  | .waitf _ t _ | .drain _ _ t _ | .bar _ _ t _ => [(t.toNat, false)]
  | .waitr _ a t _ => [(a.toNat, false), (t.toNat, false)]
  | .acq _ _ a => [(a.toNat, false)]
  | .acqW _ _ a t _ => [(a.toNat, false), (t.toNat, false)]
  | .docket _ a b => [(a.toNat, false), (b.toNat, false)]
  | .selSelector _ _ s _ _ | .mset _ _ s _ | .tscale _ _ s _ => [(s.toNat, false)]
  | .ficfg _ s _ | .fdcfg _ s _ | .fdchain _ s _ | .fdflush _ s _ => [(s.toNat, false)]
  | .fipad _ s _ m => if m == 2 then [] else [(s.toNat, false)]
  | .fiqb _ a t _ _ => [(a.toNat, false), (t.toNat, false)]
  | .cpy _ d r t _ | .cpya _ d r t _ | .gath _ d r t _ _ | .scat _ d r t _ _ | .red _ d r t _ | .ared _ d r t _
  | .bcst _ d r t _ | .fill _ d r t _ | .ckpt _ d r t _ => [(d.toNat, false), (r.toNat, false), (t.toNat, false)]
  | .ccan _ t r _ => [(t.toNat, false), (r.toNat, false)]
  | .sortb _ d r | .sortl _ d r | .sortm _ d r | .sortd _ d r => [(d.toNat, false), (r.toNat, false)]
  | .post _ a h r => [(a.toNat, false), (h.toNat, false), (r.toNat, false)]
  | .precv _ d t _ _ => [(d.toNat, false), (t.toNat, false)]
  | _ => []

/-- The s register that a slot writes (R66). -/
def seqDest : Instr → Option Nat
  | .add _ d _ _ _ _ | .sub _ d _ _ _ _ | .mul _ d _ _ _ _ | .mulh _ d _ _ _ _ | .mulhu _ d _ _ _ _
  | .div _ d _ _ _ _ | .divu _ d _ _ _ _ | .rem _ d _ _ _ _ | .remu _ d _ _ _ _ | .and _ d _ _ _ _
  | .or _ d _ _ _ _ | .xor _ d _ _ _ _ | .shl _ d _ _ _ _ | .shr _ d _ _ _ _ | .sra _ d _ _ _ _
  | .min _ d _ _ _ _ | .max _ d _ _ _ _ | .minu _ d _ _ _ _ | .maxu _ d _ _ _ _ | .selScalar _ d _ _ _ _
  | .lea _ d _ _ _ _ _ | .aadd _ d _ _ _ _ _ | .amin _ d _ _ _ _ _ | .amax _ d _ _ _ _ _
  | .aand _ d _ _ _ _ _ | .aor _ d _ _ _ _ _ | .axor _ d _ _ _ _ _ | .aswap _ d _ _ _ _ _
  | .acas _ d _ _ _ _ _ | .afadd _ d _ _ _ _ _ | .addi _ d _ | .andi _ d _ | .ori _ d _ | .xori _ d _
  | .shli _ d _ | .shri _ d _ | .srai _ d _ | .li _ d _ | .lui _ d _ | .movScalar _ d _ _ | .clz _ d _ _
  | .popc _ d _ _ | .ld _ d _ _ _ | .lda _ d _ _ _ | .ldlast _ d _ _ _ | .sysrd _ d _ | .stamp _ d
  | .stampS _ d => some d.toNat
  | .precv _ _ _ h _ => some h.toNat
  | _ => none

/-- The q register that a slot writes (R66). -/
def seqQ : Instr → Option Nat
  | .cmp _ _ q _ _ _ _ | .cmpi _ _ q _ _ | .waitf _ _ q | .waitr _ _ _ q | .drain _ _ _ q | .acqW _ _ _ _ q
  | .bar _ _ _ q | .precv _ _ _ _ q => some q.toNat
  | _ => none

/-- SEL of S1, which its guard does not nullify (R101). -/
def isSelScalar : Instr → Bool
  | .selScalar .. => true
  | _ => false

/-! ## Conflicts (R66 to R68) -/

/-- Two slots name one register that is not register 0 (R66). -/
def sameReg (a b : Option Nat) : Bool :=
  match a, b with
  | some x, some y => x == y && x != 0
  | _, _ => false

/-- The distinct words that use a read or write port: g0 to g43, ch and cv (R67). -/
def portWords (l : List Nat) : List Nat := (l.filter (fun c => c < 44 || (52 ≤ c && c ≤ 55))).eraseDups

/-- The words written, as ports: one per word. -/
def writePorts (i : Instr) : Nat := (portWords (cellDests i)).length

/-- The pushes of a cell slot: into the east face, into the south face (R68). -/
def pushesE (i : Instr) : Bool := (cellDests i).any (fun c => c == 52 || c == 53)
def pushesS (i : Instr) : Bool := (cellDests i).any (fun c => c == 54 || c == 55)

/-- The two cell slots conflict: they name one destination (R66), push into one face with two different registers'
writes counted per R68, or exceed the ports together while neither does alone (R67). -/
def cellConflict (a b : Instr) : Bool :=
  (cellDests a).any (fun x => (cellDests b).contains x) || sameReg (cellPred a) (cellPred b)

/-- A cell slot that exceeds a port limit by itself (R67). -/
def overPorts (i : Instr) : Bool := 4 < (portWords (cellSrcs i)).length || 2 < writePorts i

/-- The two cell slots exceed a limit together (R67). -/
def overTogether (a b : Instr) : Bool :=
  4 < (portWords (cellSrcs a ++ cellSrcs b)).length || 2 < writePorts a + writePorts b

/-- Two cell instructions push into one face (R68): both write ch, or both write cv, other than by the two halves of
one register (R43). -/
def pushConflict (a b : Instr) : Bool :=
  let two (e : Bool) : Bool :=
    let x := (cellDests a).filter (fun c => if e then c == 52 || c == 53 else c == 54 || c == 55)
    let y := (cellDests b).filter (fun c => if e then c == 52 || c == 53 else c == 54 || c == 55)
    !x.isEmpty && !y.isEmpty && (x.length == 2 || y.length == 2)
  two true || two false

/-- The slots that conflict in a bundle (R66 to R68), as a mask. -/
def conflicts (b : Slots) : BitVec 8 :=
  let seq : List (Nat × Instr) := [(0, b.s0), (1, b.s1), (4, b.s4), (5, b.s5), (6, b.s6), (7, b.s7)]
  let m1 : BitVec 8 := seq.foldl (fun m x =>
    if seq.any (fun y => x.1 != y.1 && (sameReg (seqDest x.2) (seqDest y.2) || sameReg (seqQ x.2) (seqQ y.2)))
    then m ||| (1#8 <<< x.1) else m) 0
  let m2 : BitVec 8 := if cellConflict b.s2 b.s3 || pushConflict b.s2 b.s3 then 0x0C else 0
  let oa := overPorts b.s2
  let ob := overPorts b.s3
  let m3 : BitVec 8 := if oa || ob then (if oa then 0x04 else 0) ||| (if ob then 0x08 else 0)
    else if overTogether b.s2 b.s3 then 0x0C else 0
  m1 ||| m2 ||| m3

/-- A legal bundle's slots, or the mask of the slots that offend (R54, R65 to R69). A slot that offends by itself still takes part in
conflicts with what it names. -/
def legal (w : Bundle) : Except (BitVec 8) Slots :=
  let slot (c : SlotClass) : Instr := (namesOf c (slotWord w c)).getD (nopOf c)
  let b : Slots :=
    { s0 := slot .control, s1 := slot .scalar, s2 := slot .cellA, s3 := slot .cellB, s4 := slot .selector,
      s5 := slot .inject, s6 := slot .drain, s7 := slot .engine }
  match decodeBundle w with
  | .ok b => if conflicts b == 0 then .ok b else .error (conflicts b)
  | .error m => .error (m ||| conflicts b)

end Sys2Proof.Machine
end

