-- ==== Sys2Proof/Machine/Lane.lean ====
section
/-!
DEFINITION. Lane, cell store and communication instructions in one cell (11_cell_isa.md R135 to R159): what a slot that
reaches a selected, loop-active cell leaves there. One value function for each instruction; the rows of R135 are
applied once, for all of them.
-/

namespace Sys2Proof.Machine

/-- What a cell slot does in a cell (R135): landings after `lat` steps, whether a write of ch or cv pushes, stores at
the end of the step, the contribution to the flags, raises, the loop exit, or a cell fault. -/
structure SlotOut where
  lat : Nat := 1
  lands : List Landing := []
  pushes : Bool := false
  stores : List (Nat × Word) := []
  contrib : Option Bool := none
  raises : XFlags := 0
  exits : Bool := false
  fault : Option Nat := none
  deriving Repr

/-- What a cell slot computes with: the cell's reads, the FMT that the bundle carries, the draw U of each result
element (R80), the words of RAND for a tag (R157), the image of the semiring entry, and the loop level that LEXIT
clears, if any. -/
structure LaneIn where
  inp : CellIn
  fmt : BitVec 32
  draw : Nat → Nat
  random : Word → Word × Word × Word × Word
  entry : DWord
  level : Option Nat

/-- A cell fault in place of every result (R138). -/
def SlotOut.faulted (cause : Nat) : SlotOut := { fault := some cause }

/-- The slot's outcome with the traps of R84 applied: a raise that TEN enables faults. -/
def LaneIn.trapped (x : LaneIn) (o : SlotOut) : SlotOut :=
  match raiseFault (fmtTraps x.fmt) o.raises false with
  | some c => SlotOut.faulted c
  | none => o

/-- A word result in a destination code. -/
def LaneIn.wordOut (x : LaneIn) (d : BitVec 6) (lat : Nat) (v : Word × XFlags) : SlotOut :=
  x.trapped { lat := lat, lands := [.word (x.inp.place d.toNat) (some v.1) true], pushes := true, raises := v.2 }

/-- Nullification by validity (R135 row 4): V := 0 on the words written, with a push; 0 to the predicate, and a
contribution of 0. -/
def LaneIn.invalid (x : LaneIn) (i : Instr) : SlotOut :=
  match cellPred i with
  | some p => { lat := latency i, lands := [.pred (pPhys x.inp.cell.pbase p) false], contrib := some false }
  | none =>
    { lat := latency i, lands := (cellDests i).map (fun c => .word (x.inp.place c) none false), pushes := true }

/-- Nullification by the guard (R135 row 3): V := 0 on the words and accumulators written, nothing else. It takes effect after the instruction's
latency (R137), but for ch and cv after 1 step (R156). Log entry 69: DEDUCED. -/
def LaneIn.guardedOff (x : LaneIn) (i : Instr) : SlotOut :=
  { lat := if (cellDests i).any (fun c => 52 ≤ c && c ≤ 55) then 1 else latency i,
    lands := (cellDests i).map (fun c => .word (x.inp.place c) none false) ++ (cellAccs i).map (fun a => .acc a [] false) }

/-- A predicate result with its contribution (R46). -/
def LaneIn.predOut (x : LaneIn) (p : BitVec 4) (b : Bool) (raises : XFlags) : SlotOut :=
  x.trapped { lands := [.pred (pPhys x.inp.cell.pbase p.toNat) b], contrib := some b, raises := raises }

/-! ## Integer values (R139 to R142) -/

/-- An integer result that FMT.SAT clamps (R81, R139). -/
def satWord (fmt : BitVec 32) (i : Int) : Word × XFlags :=
  let r := fitInt 32 (fmtSat fmt) i
  (BitVec.ofInt 32 r.1, r.2)

def iaddVal (fmt : BitVec 32) (a b : Word) : Word × XFlags := satWord fmt (a.toInt + b.toInt)
def isubVal (fmt : BitVec 32) (a b : Word) : Word × XFlags := satWord fmt (a.toInt - b.toInt)
def imulVal (fmt : BitVec 32) (a b : Word) : Word × XFlags := satWord fmt (a.toInt * b.toInt)
def imulhVal (u : Bool) (a b : Word) : Word :=
  if u then BitVec.ofNat 32 (a.toNat * b.toNat / 2 ^ 32) else BitVec.ofInt 32 (a.toInt * b.toInt / 2 ^ 32)
def iandVal (a b : Word) : Word := a &&& b
def iorVal (a b : Word) : Word := a ||| b
def ixorVal (a b : Word) : Word := a ^^^ b
def ishlVal (a b : Word) : Word := a <<< (fld b 0 5).toNat
def ishrVal (a b : Word) : Word := a >>> (fld b 0 5).toNat
def israVal (a b : Word) : Word := a.sshiftRight (fld b 0 5).toNat
def iminVal (u : Bool) (a b : Word) : Word := if (if u then b.ult a else b.slt a) then b else a
def imaxVal (u : Bool) (a b : Word) : Word := if (if u then a.ult b else a.slt b) then b else a
def iaddiVal (fmt : BitVec 32) (d : Word) (i : BitVec 15) : Word × XFlags := satWord fmt (d.toInt + i.toInt)
def moviVal (i : BitVec 15) : Word := i.signExtend 32
def movhiVal (d : Word) (i : BitVec 15) : Word := (d <<< 15) ||| i.zeroExtend 32

/-! ## FP32 values (R143 to R148) -/

/-- A word read as FP32 under SUBN (R82, R143). -/
def rdF (fmt : BitVec 32) (w : Word) : ExactNum := fp32.readIn (fmtSubn fmt) w.toNat

/-- A rounded FP32 result, with INV when the operation was invalid. -/
def rndF (x : LaneIn) (v : ExactNum) (inv : Bool) : Word × XFlags :=
  let r := fp32.round (fmtRounding x.fmt (x.draw 0)) v
  (BitVec.ofNat 32 r.1, if inv then r.2 ||| xInv else r.2)

def faddVal (x : LaneIn) (a b : Word) : Word × XFlags :=
  let s := (rdF x.fmt a).add (fmtDown x.fmt) (rdF x.fmt b)
  rndF x s.1 s.2
def fsubVal (x : LaneIn) (a b : Word) : Word × XFlags :=
  let s := (rdF x.fmt a).add (fmtDown x.fmt) (rdF x.fmt b).negate
  rndF x s.1 s.2
def fmulVal (x : LaneIn) (a b : Word) : Word × XFlags :=
  let s := (rdF x.fmt a).mul (rdF x.fmt b)
  rndF x s.1 s.2
/-- FFMA: a NaN source raises no INV (R144). -/
def ffmaVal (x : LaneIn) (a b d : Word) : Word × XFlags :=
  let z := rdF x.fmt d
  let p := (rdF x.fmt a).mul (rdF x.fmt b)
  let s := p.1.add (fmtDown x.fmt) z
  rndF x s.1 ((p.2 || s.2) && z != .nan)

/-- The word that FMIN, FMAX, FABS and FNEG give of one of their sources: a subnormal becomes zero of its sign under SUBN = 1 and 2 (R82, R143),
without UNF, since these instructions raise no flag (R143; log entry 69, DEDUCED). -/
def tinyWord (fmt : BitVec 32) (w : Word) : Word :=
  if fmtSubn fmt != 0 && fp32.subnormal w.toNat then w &&& 0x80000000 else w

/-- The canonical NaN of FP32. -/
def nanW : Word := 0x7FC00000

def fminVal (fmt : BitVec 32) (a b : Word) : Word :=
  let x := rdF fmt a; let y := rdF fmt b
  if x == .nan || y == .nan then nanW else if y.below x then tinyWord fmt b else tinyWord fmt a
def fmaxVal (fmt : BitVec 32) (a b : Word) : Word :=
  let x := rdF fmt a; let y := rdF fmt b
  if x == .nan || y == .nan then nanW else if x.below y then tinyWord fmt b else tinyWord fmt a
def fabsVal (fmt : BitVec 32) (a : Word) : Word :=
  if rdF fmt a == .nan then nanW else tinyWord fmt a &&& 0x7FFFFFFF
def fnegVal (fmt : BitVec 32) (a : Word) : Word :=
  if rdF fmt a == .nan then nanW else tinyWord fmt a ^^^ 0x80000000

/-- A special function's result as a word. -/
def asWord (r : Nat × XFlags) : Word × XFlags := (BitVec.ofNat 32 r.1, r.2)

def frcpVal (fmt : BitVec 32) (a : Word) : Word × XFlags := asWord (frcpOf (fmtSubn fmt) a)
def frsqVal (fmt : BitVec 32) (a : Word) : Word × XFlags := asWord (frsqOf (fmtSubn fmt) a)
def fexp2Val (fmt : BitVec 32) (a : Word) : Word × XFlags := asWord (fexp2Of (fmtSubn fmt) a)
def flog2Val (fmt : BitVec 32) (a : Word) : Word × XFlags := asWord (flog2Of (fmtSubn fmt) a)
def ftanhVal (fmt : BitVec 32) (a : Word) : Word × XFlags := asWord (ftanhOf (fmtSubn fmt) a)

/-- Two narrow results of FCVT packed: that of a below that of b (R147). -/
def cvtPair (x : LaneIn) (f : FloatFmt) (a b : Word) : Word × XFlags :=
  let ra := f.round (fmtRounding x.fmt (x.draw 0)) (rdF x.fmt a)
  let rb := f.round (fmtRounding x.fmt (x.draw 1)) (rdF x.fmt b)
  (BitVec.ofNat 32 (rb.1 * 2 ^ f.width + ra.1), ra.2 ||| rb.2)

/-- FCVT by its mod field (R147). Widening conversions flush under SUBN as every result does (R82, log entry 11, DEDUCED). -/
def fcvtVal (x : LaneIn) (m : Nat) (a b : Word) : Word × XFlags :=
  match m with
  | 0 => let r := toIntFmt 32 (fmtRounding x.fmt (x.draw 0)) (rdF x.fmt a); (BitVec.ofInt 32 r.1, r.2)
  | 1 => rndF x (numOfInt a.toInt) false
  | 2 => cvtPair x bf16 a b
  | 3 => cvtPair x fp16 a b
  | 4 => rndF x (bf16.readIn (fmtSubn x.fmt) (a.toNat % 2 ^ 16)) false
  | 5 => rndF x (fp16.readIn (fmtSubn x.fmt) (a.toNat % 2 ^ 16)) false
  | 6 => cvtPair x fpE4m3 a b
  | _ => cvtPair x fpE5m2 a b

/-- FRND: the mode of FMT for mod 0, otherwise the one named; no flag (R148). A non-zero a that rounds to zero gives zero of its own sign, of
which R148 says nothing (log entry 76, DESIGN CHOICE). -/
def frndVal (x : LaneIn) (m : Nat) (a : Word) : Word :=
  match rdF x.fmt a with
  | .nan => nanW
  | .inf _ => a
  | .fin neg mm e =>
    let md : Mode := match m with
      | 0 => modeOf (fmtRm x.fmt) | 1 => .rne | 2 => .rz | 3 => .ru | _ => .rd
    BitVec.ofNat 32 (fp32.round roundPlain (.fin neg (roundUnits md (x.draw 0) neg mm e 0) 0)).1

/-! ## BF16 pairs (R149, R150) -/

/-- Element `e` of a word read as BF16. -/
def rdB (fmt : BitVec 32) (w : Word) (e : Nat) : ExactNum := bf16.readIn (fmtSubn fmt) (w.toNat / 2 ^ (16 * e) % 2 ^ 16)

/-- Two BF16 results packed, each rounded with its own draw (R149). -/
def packB (x : LaneIn) (f : Nat → ExactNum × Bool) : Word × XFlags :=
  let one (e : Nat) : Nat × XFlags :=
    let v := f e
    let r := bf16.round (fmtRounding x.fmt (x.draw e)) v.1
    (r.1, if v.2 then r.2 ||| xInv else r.2)
  let lo := one 0; let hi := one 1
  (BitVec.ofNat 32 (hi.1 * 2 ^ 16 + lo.1), lo.2 ||| hi.2)

def hadd2Val (x : LaneIn) (a b : Word) : Word × XFlags :=
  packB x (fun e => (rdB x.fmt a e).add (fmtDown x.fmt) (rdB x.fmt b e))
def hmul2Val (x : LaneIn) (a b : Word) : Word × XFlags := packB x (fun e => (rdB x.fmt a e).mul (rdB x.fmt b e))
/-- Log entry 49: DEDUCED. -/
def hfma2Val (x : LaneIn) (a b d : Word) : Word × XFlags :=
  packB x (fun e =>
    let p := (rdB x.fmt a e).mul (rdB x.fmt b e)
    let s := p.1.add (fmtDown x.fmt) (rdB x.fmt d e)
    (s.1, p.2 || s.2))
/-- BFMA: mod selects the elements: 0 low and low, 1 high and high, 2 low and high, 3 high and low (R150). Log entry 49: DEDUCED. -/
def bfmaVal (x : LaneIn) (m : Nat) (a b d : Word) : Word × XFlags :=
  let ea := if m == 1 || m == 3 then 1 else 0
  let eb := if m == 1 || m == 2 then 1 else 0
  let p := (rdB x.fmt a ea).mul (rdB x.fmt b eb)
  let s := p.1.add (fmtDown x.fmt) (rdF x.fmt d)
  rndF x s.1 (p.2 || s.2)

/-- RAND: word `w` of the generator (R157). -/
def randVal (x : LaneIn) (w : Nat) (a : Word) : Word :=
  let o := x.random (a &&& 0x7FFFFFFF)
  match w with | 0 => o.1 | 1 => o.2.1 | 2 => o.2.2.1 | _ => o.2.2.2

/-! ## The cell store (R153) -/

/-- The byte address of a cell store access, exact (R153). -/
def cellAddr (base : Word) (off : BitVec 9) (n : Nat) : Int := base.toNat + n * off.toInt
/-- The byte address of LDCA and STCA: the offset raised by lidx, in words (R153). -/
def cellAddrA (base : Word) (off : BitVec 9) (lidx : Word) : Int := base.toNat + 4 * (off.toInt + lidx.toNat)

/-- The fault of an address (R19, R153). -/
def cellAddrFault (addr : Int) (n : Nat) : Option Nat :=
  if addr < 0 ∨ 0x2100 < addr + n then some 0x040 else if addr % n ≠ 0 then some 0x041 else none

/-- A store place of an uncorrectable error. -/
def LaneIn.storeUe (x : LaneIn) (a n : Nat) : Bool :=
  x.inp.cell.ue.any (fun p => 128 ≤ p && a / 32 ≤ p - 128 && p - 128 ≤ (a + n - 1) / 32)

/-- A load of one word or of a pair (R153). Of the errors of R287, that of a register comes first, and that of the store after CELL.RANGE and
CELL.ALIGN, which R138 does not order (log entry 69, DEDUCED). -/
def LaneIn.cellLoad (x : LaneIn) (d : BitVec 6) (addr : Int) (n : Nat) : SlotOut :=
  match cellAddrFault addr n with
  | some c => SlotOut.faulted c
  | none =>
    let a := addr.toNat
    if x.storeUe a n then SlotOut.faulted 0x1D1
    else
      let w (k : Nat) : Landing := .word (x.inp.place (d.toNat + k)) (some (x.inp.cell.load4 (a + 4 * k))) true
      { lat := 2, lands := if n == 4 then [w 0] else [w 0, w 1], pushes := true }

/-- A store of the valid words (R136, R153). -/
def cellStore (addr : Int) (n : Nat) (words : List VWord) : SlotOut :=
  if !(words.any (·.v)) then {}
  else match cellAddrFault addr n with
    | some c => SlotOut.faulted c
    | none =>
      { stores := (words.zipIdx.filter (fun w => w.1.v)).map (fun w => (addr.toNat + 4 * w.2, w.1.val)) }

/-! ## One slot in one cell -/

/-- The words that an executing instruction tests for validity (R135 row 4, R136). -/
def testedWords : Instr → Option (List Nat)
  | .vset .. | .vclr .. | .vmov .. | .vsel .. | .vtest .. | .isel .. | .lexit .. | .pand .. | .por .. | .pxor ..
  | .pnot .. | .pmov .. => none
  | .stc _ _ b _ | .stca _ _ b _ | .stc2 _ _ b _ => some [b.toNat]
  | i => some (cellSrcs i)

/-- A slot that executes with its tested words valid (R135 row 5). -/
def LaneIn.compute (x : LaneIn) (i : Instr) : SlotOut :=
  let w (c : BitVec 6) : Word := (x.inp.word c.toNat).val
  let vw (c : BitVec 6) : VWord := x.inp.word c.toNat
  let plain (d : BitVec 6) (v : Word) : SlotOut := x.wordOut d (latency i) (v, 0)
  let full (d : BitVec 6) (v : Word × XFlags) : SlotOut := x.wordOut d (latency i) v
  let vout (d : BitVec 6) (v : Option Word) (ok : Bool) : SlotOut :=
    { lands := [.word (x.inp.place d.toNat) v ok], pushes := true }
  match i with
  | .iadd _ d a b => full d (iaddVal x.fmt (w a) (w b))
  | .isub _ d a b => full d (isubVal x.fmt (w a) (w b))
  | .imul _ d a b => full d (imulVal x.fmt (w a) (w b))
  | .imulh _ d a b u => plain d (imulhVal u (w a) (w b))
  | .iand _ d a b => plain d (iandVal (w a) (w b))
  | .ior _ d a b => plain d (iorVal (w a) (w b))
  | .ixor _ d a b => plain d (ixorVal (w a) (w b))
  | .ishl _ d a b => plain d (ishlVal (w a) (w b))
  | .ishr _ d a b => plain d (ishrVal (w a) (w b))
  | .isra _ d a b => plain d (israVal (w a) (w b))
  | .imin _ d a b u => plain d (iminVal u (w a) (w b))
  | .imax _ d a b u => plain d (imaxVal u (w a) (w b))
  | .icmp _ p a b c => x.predOut p (intCond c.toNat (w a) (w b)) 0
  | .isel g d a b =>
    let src := if x.inp.guard g then vw a else vw b
    vout d (if src.v then some src.val else none) src.v
  | .iaddi _ d n => full d (iaddiVal x.fmt (w d) n)
  | .movi _ d n => plain d (moviVal n)
  | .movhi _ d n => plain d (movhiVal (w d) n)
  | .movCell _ d a => plain d (w a)
  | .fadd _ d a b => full d (faddVal x (w a) (w b))
  | .fsub _ d a b => full d (fsubVal x (w a) (w b))
  | .fmul _ d a b => full d (fmulVal x (w a) (w b))
  | .ffma _ d a b => full d (ffmaVal x (w a) (w b) (w d))
  | .fmin _ d a b => plain d (fminVal x.fmt (w a) (w b))
  | .fmax _ d a b => plain d (fmaxVal x.fmt (w a) (w b))
  | .fcmp _ p a b c =>
    let r := floatCond c.toNat (rdF x.fmt (w a)) (rdF x.fmt (w b))
    x.predOut p r.1 (if r.2 then xInv else 0)
  | .fabs _ d a => plain d (fabsVal x.fmt (w a))
  | .fneg _ d a => plain d (fnegVal x.fmt (w a))
  | .frcp _ d a => full d (frcpVal x.fmt (w a))
  | .frsq _ d a => full d (frsqVal x.fmt (w a))
  | .fexp2 _ d a => full d (fexp2Val x.fmt (w a))
  | .flog2 _ d a => full d (flog2Val x.fmt (w a))
  | .ftanh _ d a => full d (ftanhVal x.fmt (w a))
  | .fcvt _ d a b m => full d (fcvtVal x m.toNat (w a) (w b))
  | .frnd _ d a m => plain d (frndVal x m.toNat (w a))
  | .bfma _ d a b m => full d (bfmaVal x m.toNat (w a) (w b) (w d))
  | .hadd2 _ d a b => full d (hadd2Val x (w a) (w b))
  | .hmul2 _ d a b => full d (hmul2Val x (w a) (w b))
  | .hfma2 _ d a b => full d (hfma2Val x (w a) (w b) (w d))
  | .vset _ d => vout d none true
  | .vclr _ d => vout d none false
  | .vtest _ p a b c => x.predOut p (validCond c.toNat (vw a).v (vw b).v) 0
  | .vsel _ d a b =>
    let src := if (vw a).v then vw a else vw b
    vout d (some src.val) src.v
  | .vmov _ d a => vout d (some (w a)) (vw a).v
  | .pand _ p q r => x.predOut p (x.inp.pred q.toNat && x.inp.pred r.toNat) 0
  | .por _ p q r => x.predOut p (x.inp.pred q.toNat || x.inp.pred r.toNat) 0
  | .pxor _ p q r => x.predOut p (x.inp.pred q.toNat != x.inp.pred r.toNat) 0
  | .pnot _ p q => x.predOut p (!x.inp.pred q.toNat) 0
  | .pmov _ p q => x.predOut p (x.inp.pred q.toNat) 0
  | .rand _ d a n => plain d (randVal x n.toNat (w a))
  | .lexit _ => { exits := x.level.isSome }
  | .ldc _ d b o => x.cellLoad d (cellAddr (w b) o 4) 4
  | .ldc2 _ d b o => x.cellLoad d (cellAddr (w b) o 8) 8
  | .ldca _ d b o => x.cellLoad d (cellAddrA (w b) o x.inp.lidx) 4
  | .stc _ d b o => cellStore (cellAddr (w b) o 4) 4 [vw d]
  | .stca _ d b o => cellStore (cellAddrA (w b) o x.inp.lidx) 4 [vw d]
  | .stc2 _ d b o => cellStore (cellAddr (w b) o 8) 8 [vw d, x.inp.word (d.toNat + 1)]
  | .comm _ d a m =>
    let p := x.inp.pair a.toNat
    let (hi, lo) := match m.toNat with
      | 0 => (p.hi.val, p.lo.val) | 1 => (p.lo.val, p.hi.val) | 2 => (p.lo.val, p.lo.val) | _ => (p.hi.val, p.hi.val)
    { lands := [.word (x.inp.place d.toNat) (some lo) true, .word (x.inp.place (d.toNat + 1)) (some hi) true],
      pushes := true }
  | _ => {}

/-- A predicate of the cell carries an uncorrectable error; p0, which is fixed, carries none (R16, R287). -/
def LaneIn.predUe (x : LaneIn) (n : Nat) : Bool := n != 0 && x.inp.cell.ue.contains (512 + pPhys x.inp.cell.pbase n)

/-- The guard of a slot reads a predicate with an uncorrectable error (R287). -/
def LaneIn.guardUe (x : LaneIn) (i : Instr) : Bool := x.predUe (cellGuard i).pred.toNat

/-- A place that a slot reads carries an uncorrectable error (R287: UE.CONSUMED at the cell): a register of the cell, a neighbour's ch or
cv, a predicate, its guard's too, or a tensor scale of SMMS. -/
def LaneIn.readsUe (x : LaneIn) (i : Instr) : Bool :=
  (cellSrcs i).any (fun c => ((c < 44 || (52 ≤ c && c ≤ 55)) && x.inp.cell.ue.contains (x.inp.place c)) || x.inp.bad.contains c)
    || x.guardUe i || (cellPredSrcs i).any x.predUe
    || (match i with | .smms .. => x.inp.cell.ue.contains 528 || x.inp.cell.ue.contains 529 | _ => false)

/-- A lane slot in a selected, loop-active cell (R135 rows 3 to 5). A source with an uncorrectable error faults before the validity of the
other sources is tested, and a guard with one before the guard's value is (R287; log entry 69, DEDUCED). -/
def LaneIn.lane (x : LaneIn) (i : Instr) : SlotOut :=
  if isNopCell i then {}
  else if x.guardUe i then SlotOut.faulted 0x1D1
  else if !x.inp.guard (cellGuard i) && !isIsel i then x.guardedOff i
  else if x.readsUe i then SlotOut.faulted 0x1D1
  else
    match testedWords i with
    | some ws => if ws.all (fun c => (x.inp.word c).v) then x.compute i else
        (match i with
        | .stc .. | .stca .. | .stc2 .. => {}
        | _ => x.invalid i)
    | none => x.compute i

end Sys2Proof.Machine
end

