-- ==== Sys2Proof/Machine/Semiring.lean ====
section
/-!
DEFINITION. Semirings (07_numbers.md R89 to R99): entries, fragments, ⊗ and ⊕ on exact values, RoundAcc, and the order of
significance. Integers and Boolean values are held as whole numbers, so one kind of value serves every domain.
-/

namespace Sys2Proof.Machine

/-! ## Entries (R96, R97) -/

def semPlus (e : DWord) : Nat := (fld e 0 4).toNat
def semTimes (e : DWord) : Nat := (fld e 4 4).toNat
def semDomain (e : DWord) : Nat := (fld e 8 2).toNat
def semLoses (e : DWord) : Bool := bit e 10
def semSkip (e : DWord) : Bool := bit e 11
def semTrap (e : DWord) : Bool := bit e 12
/-- A real or non-negative real domain. -/
def semReal (e : DWord) : Bool := semDomain e ≤ 1

/-- A ZERO16 or ONE16 field of an integer or Boolean domain (R96). -/
def semInt16 (x : BitVec 16) : Int :=
  if x == 0x7FFF then 0x7FFFFFFF else if x == 0x8000 then -0x80000000 else x.toInt

/-- The value of a ZERO16 or ONE16 field (R96). -/
def semConst (e : DWord) (x : BitVec 16) : ExactNum :=
  if semReal e then fp32.read (x.toNat * 2 ^ 16) else numOfInt (semInt16 x)

/-- E.ZERO. -/
def semZero (e : DWord) : ExactNum := semConst e (fld e 48 16)

/-- A SEMSET image is valid (R97). -/
def semValid (e : DWord) : Bool :=
  let p := semPlus e; let t := semTimes e; let d := semDomain e
  let z : BitVec 16 := fld e 48 16; let o : BitVec 16 := fld e 32 16
  fld e 13 19 == 0 && p ≤ 4 && t ≤ 4
    && (!semReal e || (p ≤ 2 && t ≤ 3 && semConst e z != .nan && semConst e o != .nan))
    && (d != 3 || (1 ≤ p && 2 ≤ t && z.toNat ≤ 1 && o.toNat ≤ 1))

/-- The check of R98, of the FMT value, the entry and whether the instruction is SMMS. -/
def semMismatch (fmt : BitVec 32) (e : DWord) (smms : Bool) : Bool :=
  let d := semDomain e
  (d ≤ 1 && fmtAccInt fmt)
    || (d == 2 && (!fmtAccInt fmt || fmtA fmt ≤ 3 || fmtB fmt ≤ 3))
    || (d == 3 && (fmtA fmt != 6 || fmtB fmt != 6))
    || (smms && semTimes e != 0)

/-! ## Values as read -/

/-- A 32-bit accumulator word as read under ACCF and SUBN (R82, R88). -/
def accValue (fmt : BitVec 32) (w : Word) : ExactNum :=
  if fmtAccInt fmt then numOfInt w.toInt else rdF fmt w

/-- A value that a Boolean domain counts as 0 or 1 (R94). -/
def boolValue (x : ExactNum) : ExactNum := numOfInt (if x.isZero then 0 else 1)

/-- An accumulator element, or a term, as the entry's ⊕ reads it (R94, R95). -/
def accRead (e : DWord) (x : ExactNum) : ExactNum :=
  if semDomain e == 3 then boolValue x else if x == .nan && semLoses e then semZero e else x

/-- An input element as the entry reads it, with IND of a domain violation (R91, R95). -/
def elemRead (e : DWord) (x : ExactNum) : ExactNum × XFlags :=
  if semDomain e == 3 then (boolValue x, 0)
  else
    let neg := semDomain e == 1 && x.sign && !x.isZero
    let y := if neg then .nan else x
    (if y == .nan && semLoses e then semZero e else y, if neg then xInd else 0)

/-- A value as read equals ZERO (R91). -/
def isSemZero (e : DWord) (x : ExactNum) : Bool := x.eqv (semZero e)

/-- The integer that a value is, when it is one. -/
def ExactNum.whole? : ExactNum → Option Int
  | .fin n m e =>
    if 0 ≤ e then some (if n then -(m * 2 ^ e.toNat : Nat) else (m * 2 ^ e.toNat : Nat))
    else if m % 2 ^ (-e).toNat == 0 then
      some (if n then -(m / 2 ^ (-e).toNat : Nat) else (m / 2 ^ (-e).toNat : Nat))
    else none
  | _ => none

/-- A bitwise operator on two's-complement integers. 512 bits hold every term that R90 can form. -/
def intBits (f : BitVec 512 → BitVec 512 → BitVec 512) (a b : Int) : Int :=
  (f (BitVec.ofInt 512 a) (BitVec.ofInt 512 b)).toInt

/-! ## ⊗ and ⊕ (R94, R95) -/

/-- Times of two elements as read, with IND (R95). -/
def semTimesOf (e : DWord) (down : Bool) (x y : ExactNum) : ExactNum × XFlags :=
  let zx := isSemZero e x
  let zy := isSemZero e y
  if zx || zy then
    let other := if zx then y else x
    (semZero e,
     if semReal e && semTimes e ≤ 1 && other.isInf && !isSemZero e other then xInd else 0)
  else
    match semTimes e with
    | 0 => let r := x.mul y; (r.1, if r.2 then xInd else 0)
    | 1 => let r := x.add down y; (r.1, if r.2 then xInd else 0)
    | 2 => (x.min y, 0)
    | 3 => (x.max y, 0)
    | _ => (numOfInt (intBits (· &&& ·) (x.whole?.getD 0) (y.whole?.getD 0)), 0)

/-- A value as the numbers that the free value of an unstated ⊕ depends on. -/
def ExactNum.code : ExactNum → Int × Int
  | .nan => (0, -10000)
  | .inf n => (if n then -1 else 1, 10000)
  | .fin n m e => (if n then -(m : Int) else m, e)

/-- A bitwise ⊕ on whole numbers; on values that are not, R90 states no result (log entry 12, DESIGN CHOICE). -/
def bitwisePlus (e : DWord) (f : BitVec 512 → BitVec 512 → BitVec 512) (vs : List ExactNum) : ExactNum :=
  if vs.all (fun v => v.whole?.isSome) then
    numOfInt (vs.foldl (fun (a : Int) v => intBits f a (v.whole?.getD 0)) 0)
  else numOfInt (Config.bitwise (semPlus e) (vs.map ExactNum.code)).toInt

/-- ⊕ = + over values, with whether +∞ met −∞. -/
def sumAll (down : Bool) : List ExactNum → ExactNum × Bool
  | [] => (.fin false 0 0, false)
  | v :: vs => vs.foldl (fun (a : ExactNum × Bool) w => let r := a.1.add down w; (r.1, a.2 || r.2)) (v, false)

/-- PlusAll of the accumulator element and the terms (R91, R94, R95). With ⊕ = +, infinities of both signs set IND, beside a NaN too. -/
def plusAll (e : DWord) (down : Bool) (acc : ExactNum) (terms : List ExactNum) : ExactNum × XFlags :=
  let vs := (acc :: terms).map (accRead e)
  if vs.any (· == .nan) then (.nan, if semPlus e == 0 && vs.contains (.inf false) && vs.contains (.inf true) then xInd else 0)
  else
    match semPlus e with
    | 0 =>
      let r := sumAll down vs
      if r.2 then (if semLoses e then semZero e else .nan, xInd) else (r.1, 0)
    | 1 => (vs.tail.foldl ExactNum.min (vs.headD .nan), 0)
    | 2 => (vs.tail.foldl ExactNum.max (vs.headD .nan), 0)
    | 3 => (bitwisePlus e (· ||| ·) vs, 0)
    | _ => (bitwisePlus e (· ^^^ ·) vs, 0)

/-- RoundAcc (R91, R94): one rounding, to FP32 or, with the wrap or clamp of R81, to INT32. -/
def roundAcc (fmt : BitVec 32) (draw : Nat) (x : ExactNum) : Word × XFlags :=
  if fmtAccInt fmt then
    match x with
    | .fin n m e => satWord fmt (roundInt (modeOf (fmtRm fmt)) draw n m e)
    | _ => let r := toIntFmt 32 (fmtRounding fmt draw) x; (BitVec.ofInt 32 r.1, r.2)
  else asWord (fp32.round (fmtRounding fmt draw) x)

/-- E.ZERO as an accumulator word of the bundle's format (R214); it is exact in FP32. -/
def zeroWord (fmt : BitVec 32) (e : DWord) : Word :=
  if fmtAccInt fmt then (match semZero e with
    | .fin n m x => BitVec.ofInt 32 (clampInt 32 (roundInt (modeOf (fmtRm fmt)) 0 n m x))
    | z => BitVec.ofInt 32 (toIntFmt 32 roundPlain z).1)
  else BitVec.ofNat 32 (fp32.round roundPlain (semZero e)).1

/-! ## Fragments (R77, R78) -/

/-- The element width of a format other than planes. -/
def fragWidth (code : Nat) : Nat := if code ≤ 1 then 16 else if code == 6 then 1 else 8

/-- The floating-point format of a code. -/
def fragFloat (code : Nat) : FloatFmt :=
  match code with | 0 => bf16 | 1 => fp16 | 2 => fpE4m3 | _ => fpE5m2

/-- Element `i` of a fragment with `n` elements, as read (R78, R82). -/
def fragElem (fmt : BitVec 32) (code planes n : Nat) (f : DWord) (i : Nat) : ExactNum :=
  if code == 5 then
    numOfInt (sext planes ((List.range planes).foldl (fun v j => 2 * v + b2n (bit f (n * j + i))) 0))
  else
    let w := fragWidth code
    let x := f.toNat / 2 ^ (w * i) % 2 ^ w
    if code ≤ 3 then (fragFloat code).readIn (fmtSubn fmt) x
    else if code == 4 then numOfInt (sext 8 x)
    else numOfInt x

/-- The k of a bundle's FMT. -/
def fmtK (fmt : BitVec 32) : Nat := fragK (fmtA fmt) (fmtAq fmt)

/-- A(r, c) and B(c, n) of the fragments under the bundle's FMT (R78). -/
def elemA (fmt : BitVec 32) (f : DWord) (r c : Nat) : ExactNum :=
  fragElem fmt (fmtA fmt) (fmtAq fmt) (4 * fmtK fmt) f (r * fmtK fmt + c)
def elemB (fmt : BitVec 32) (f : DWord) (c n : Nat) : ExactNum :=
  fragElem fmt (fmtB fmt) (fmtBq fmt) (4 * fmtK fmt) f (4 * c + n)

/-- A value converted to a fragment element of a format, under a rounding and SAT (R83, R174, R222). `whole` says that
the value is an integer of the accumulator or of the domain. -/
def toFrag (r : Rounding) (code planes : Nat) (whole : Bool) (x : ExactNum) : Nat × XFlags :=
  let w := if code == 4 then 8 else planes
  if code == 6 then (b2n (!x.isZero), 0)
  else if code ≤ 3 then (fragFloat code).round r x
  else if whole then let v := fitInt w r.sat (x.whole?.getD 0); (wrap w v.1, v.2)
  else let v := toIntFmt w r x; (wrap w v.1, v.2)

/-- Elements laid out as a fragment (R78). -/
def layFrag (code planes : Nat) (es : List Nat) : DWord :=
  let n := es.length
  let put (x : Nat) (i : Nat) : Nat :=
    if code == 5 then
      (List.range planes).foldl (fun a j => a + (x / 2 ^ (planes - 1 - j) % 2) * 2 ^ (n * j + i)) 0
    else x * 2 ^ (fragWidth code * i)
  BitVec.ofNat 64 ((es.zipIdx.map (fun p => put p.1 p.2)).foldl (· + ·) 0)

/-! ## Scaled terms (R89, R90) -/

/-- The scales of SMMS: tsa, tsb and the block scales of the row and the column, if BSE is set. -/
structure Scales where
  tsa : Word
  tsb : Word
  block : Option (Byte × Byte)

/-- A scaled term, neither element equal to ZERO (R90). -/
def scaledTerm (s : Scales) (x y : ExactNum) : ExactNum × XFlags :=
  let bs : List Byte := match s.block with | some (a, b) => [a, b] | none => []
  let bad := bs.any (fun b => bit b 7 || b == 0x7F)
  let fs := [x, y, fp32.read s.tsa.toNat, fp32.read s.tsb.toNat] ++ bs.map (fun b => fpE4m3.read b.toNat)
  if bad || fs.any (· == .nan) then (.nan, if bad then xScl else 0)
  else if fs.any ExactNum.isZero then (.fin false 0 0, if fs.any ExactNum.isInf then xInd else 0)
  else (fs.tail.foldl (fun a b => (a.mul b).1) (fs.headD .nan), 0)

/-- One term of R91: `none` when it is skipped. Log entry 49: DEDUCED. -/
def termOf (e : DWord) (down : Bool) (scales : Option Scales) (x y : ExactNum) : Option (ExactNum × XFlags) :=
  let a := elemRead e x
  let b := elemRead e y
  let z := isSemZero e a.1 || isSemZero e b.1
  if semSkip e && z then none
  else
    let t := match scales with
      | some s => if z then semTimesOf e down a.1 b.1 else scaledTerm s a.1 b.1
      | none => semTimesOf e down a.1 b.1
    some (t.1, a.2 ||| b.2 ||| t.2)

/-- One element of R91 from its terms. -/
def combine (e : DWord) (fmt : BitVec 32) (draw : Nat) (acc : ExactNum) (ts : List (ExactNum × XFlags)) : Word × XFlags :=
  let p := plusAll e (fmtDown fmt) acc (ts.map (·.1))
  let r := roundAcc fmt draw p.1
  (r.1, ts.foldl (fun f t => f ||| t.2) (p.2 ||| r.2))

/-! ## Significance (R99) -/

/-- A value as the ranking takes it. -/
def rankRead (e : DWord) (x : ExactNum) : ExactNum := if semDomain e == 3 then boolValue x else x

/-- One value is more significant than another (R99). -/
def moreSig (e : DWord) (x y : ExactNum) : Bool :=
  let a := rankRead e x
  let b := rankRead e y
  if b == .nan then false
  else if a == .nan then true
  else
    let mag (v : ExactNum) : ExactNum := if v.sign then v.negate else v
    match semPlus e with
    | 1 => !isSemZero e a && (isSemZero e b || a.lt b)
    | 2 => b.lt a
    | _ => (mag b).lt (mag a)

/-- How many of the others come before element `i` in the order of R99. -/
def rankOf (e : DWord) (vs : List ExactNum) (i : Nat) : Nat :=
  let x := vs.getD i .nan
  (vs.zipIdx.filter (fun p => p.2 != i && (moreSig e p.1 x || (!moreSig e x p.1 && p.2 < i)))).length

end Sys2Proof.Machine
end

