-- ==== Sys2Proof/Machine/Tile.lean ====
section
/-!
DEFINITION. Tile instructions in one cell (15_semiring_isa.md R204 to R224): one function for each, and the rows of R209.
-/

namespace Sys2Proof.Machine

/-- The cell's accumulator. -/
def LaneIn.accOf (x : LaneIn) (a : Nat) : Acc := x.inp.cell.accum a

/-- An element of the data as stored, as read under the bundle's FMT. -/
def LaneIn.stored (x : LaneIn) (a i : Nat) : ExactNum := accValue x.fmt (vget (x.accOf a).elems i 0)

/-- An accumulator element as an instruction that names an entry reads it: ZERO when V is 0 (R204). -/
def LaneIn.accElem (x : LaneIn) (a i : Nat) : ExactNum :=
  if (x.accOf a).v then x.stored a i else semZero x.entry

/-- The 64 bits of a pair source, and whether both words are valid. -/
def LaneIn.pairBits (x : LaneIn) (c : Nat) : DWord × Bool :=
  let p := x.inp.pair c
  (mkD p.hi.val p.lo.val, p.lo.v && p.hi.v)

/-- An outcome with the traps of R210 applied. -/
def LaneIn.tileTrap (x : LaneIn) (o : SlotOut) : SlotOut :=
  match raiseFault (fmtTraps x.fmt) o.raises (semTrap x.entry) with
  | some c => SlotOut.faulted c
  | none => o

/-- The sixteen results of a full writer, trapped as R210 says (R206). -/
def LaneIn.accOut (x : LaneIn) (c : Nat) (f : Nat → Word × XFlags) : SlotOut :=
  let rs := (List.range 16).map f
  x.tileTrap { lat := 4, lands := [.acc c (rs.zipIdx.map (fun p => (p.2, p.1.1))) true],
               raises := rs.foldl (fun a r => a ||| r.2) 0 }

/-- A product instruction: every element combines its initial value with its terms (R91, R211 to R213). -/
def LaneIn.product (x : LaneIn) (c : Nat) (z : Bool) (terms : Nat → Nat → List (ExactNum × XFlags)) : SlotOut :=
  x.accOut c (fun i =>
    combine x.entry x.fmt (x.draw i) (if z then semZero x.entry else x.accElem c i) (terms (i / 4) (i % 4)))

/-- The terms of SMM and SMMS for element (r, n) (R91, R212). -/
def LaneIn.smmTerms (x : LaneIn) (scales : Nat → Nat → Option Scales) (a b : DWord) (r n : Nat) :
    List (ExactNum × XFlags) :=
  (List.range (fmtK x.fmt)).filterMap (fun c =>
    termOf x.entry (fmtDown x.fmt) (scales r n) (elemA x.fmt a r c) (elemB x.fmt b c n))

/-- A byte of the scale store. -/
def LaneIn.scaleByte (x : LaneIn) (a : Nat) : Byte := tabGet 0 x.inp.cell.store (0x2000 + a)

/-- The scales of SMMS for element (r, n) (R89, R212). -/
def LaneIn.scalesOf (x : LaneIn) (r n : Nat) : Scales :=
  let b := fmtK x.fmt * x.inp.lidx.toNat / 32 % 32
  { tsa := x.inp.cell.tsa, tsb := x.inp.cell.tsb,
    block := if fmtBse x.fmt then some (x.scaleByte (8 * b + r), x.scaleByte (8 * b + 4 + n)) else none }

/-- A selection bit of SEXPN (R213). -/
def LaneIn.selBit (x : LaneIn) (c r k : Nat) : Nat :=
  let kk := fmtK x.fmt
  let m := 4 * x.inp.lidx.toNat + c
  let o := 4 * kk * (m % (512 / kk)) + (r * kk + k)
  b2n (bit (x.scaleByte (o / 8)) (o % 8))

/-- The block scales that SMMS reads carry an uncorrectable error (R287). -/
def LaneIn.scalesBad (x : LaneIn) : Bool := fmtBse x.fmt && x.storeUe (0x2000 + 8 * (fmtK x.fmt * x.inp.lidx.toNat / 32 % 32)) 8

/-- The selection bits that SEXPN reads carry an uncorrectable error (R287). -/
def LaneIn.selBad (x : LaneIn) (c : Nat) : Bool :=
  let kk := fmtK x.fmt
  x.storeUe (0x2000 + 4 * kk * ((4 * x.inp.lidx.toNat + c) % (512 / kk)) / 8) ((4 * kk + 7) / 8)

/-- The terms of SEXPN for element (r, n) (R213). -/
def LaneIn.sexpnTerms (x : LaneIn) (acc : Nat) (a b0 b1 : DWord) (r n : Nat) : List (ExactNum × XFlags) :=
  let k := fmtK x.fmt
  (List.range k).filterMap (fun c =>
    let pos := 2 * c + x.selBit acc r c
    let y := if pos < k then elemB x.fmt b0 pos n else elemB x.fmt b1 (pos - k) n
    termOf x.entry (fmtDown x.fmt) none (elemA x.fmt a r c) y)

def LaneIn.smm (x : LaneIn) (c : Nat) (a b : DWord) (z : Bool) : SlotOut :=
  x.product c z (x.smmTerms (fun _ _ => none) a b)
def LaneIn.smms (x : LaneIn) (c : Nat) (a b : DWord) (z : Bool) : SlotOut :=
  x.product c z (x.smmTerms (fun r n => some (x.scalesOf r n)) a b)
def LaneIn.sexpn (x : LaneIn) (c : Nat) (a b0 b1 : DWord) (z : Bool) : SlotOut :=
  x.product c z (x.sexpnTerms c a b0 b1)

/-- SMZ (R214). -/
def LaneIn.smz (x : LaneIn) (c : Nat) : SlotOut := x.accOut c (fun _ => (zeroWord x.fmt x.entry, 0))

/-- SMADD (R215). -/
def LaneIn.smadd (x : LaneIn) (c d : Nat) : SlotOut :=
  x.accOut c (fun i => combine x.entry x.fmt (x.draw i) (x.accElem c i) [(x.accElem d i, 0)])

/-- The elements that SMRED combines into element `i`; none where it writes ZERO (R216). -/
def redGroup (m i : Nat) : List Nat :=
  match m with
  | 0 => if i % 4 == 0 then span i 4 else []
  | 1 => if i < 4 then [i, i + 4, i + 8, i + 12] else []
  | _ => if i == 0 then List.range 16 else []

/-- SMRED (R216). -/
def LaneIn.smred (x : LaneIn) (c d m : Nat) : SlotOut :=
  x.accOut c (fun i => match redGroup m i with
    | [] => (zeroWord x.fmt x.entry, 0)
    | j :: js => combine x.entry x.fmt (x.draw i) (x.accElem d j) (js.map (fun k => (x.accElem d k, 0))))

/-- SMCMP's bit (R217). -/
def LaneIn.smcmpBit (x : LaneIn) (c d m : Nat) : Bool :=
  let same (i : Nat) : Bool :=
    let a := x.accElem c i; let b := x.accElem d i
    (a == .nan && b == .nan) || a.eqv b
  let eq := (List.range 16).all same
  let sig := (List.range 16).any (fun i => moreSig x.entry (x.accElem c i) (x.accElem d i))
  match m with | 0 => eq | 1 => !eq | 2 => sig | _ => !sig

/-- The elements of a 32-group (R218). -/
def LaneIn.group (x : LaneIn) (c : Nat) : List ExactNum :=
  (List.range 32).map (fun i => x.accElem (c + i / 16) (i % 16))

/-- The result of SCMPR for a set of kept elements: both accumulators and the mask (R218). -/
def LaneIn.scmprOut (x : LaneIn) (d : BitVec 6) (c : Nat) (keep : Nat → Bool) : SlotOut :=
  let wordAt (i : Nat) : Word :=
    if keep i && (x.accOf (c + i / 16)).v then vget (x.accOf (c + i / 16)).elems (i % 16) 0
    else zeroWord x.fmt x.entry
  let half (h : Nat) : Landing := .acc (c + h) ((List.range 16).map (fun i => (i, wordAt (16 * h + i)))) true
  let m := ((List.range 32).filter keep).foldl (fun a i => a + 2 ^ i) 0
  { lat := 4, lands := [half 0, half 1, .word (x.inp.place d.toNat) (some (BitVec.ofNat 32 m)) true], pushes := true }

/-- SCMPR with N (R218). -/
def LaneIn.scmpr (x : LaneIn) (d : BitVec 6) (n : Word) (c : Nat) : SlotOut :=
  x.scmprOut d c (fun i => rankOf x.entry (x.group c) i < min n.toNat 32)

/-- SCMPR.PAIR (R218). -/
def LaneIn.scmprPair (x : LaneIn) (d : BitVec 6) (c : Nat) : SlotOut :=
  let v (i : Nat) : ExactNum := (x.group c).getD i .nan
  x.scmprOut d c (fun i =>
    if i % 2 == 0 then !moreSig x.entry (v (i + 1)) (v i) else moreSig x.entry (v i) (v (i - 1)))

/-- Two words written to a pair of places with one V. -/
def LaneIn.pairOut (x : LaneIn) (d lat : Nat) (w : DWord) (v : Bool) (raises : XFlags) : SlotOut :=
  let o : SlotOut :=
    { lat := lat,
      lands := [.word (x.inp.place d) (some (loW w)) v, .word (x.inp.place (d + 1)) (some (hiW w)) v],
      pushes := true, raises := if v then raises else 0 }
  if v then x.tileTrap o else o

/-- Elements 2e and 2e + 1 as stored. -/
def LaneIn.part (x : LaneIn) (c e : Nat) : DWord :=
  mkD (vget (x.accOf c).elems (2 * e + 1) 0) (vget (x.accOf c).elems (2 * e) 0)

/-- SMRD (R219). -/
def LaneIn.smrd (x : LaneIn) (d : BitVec 6) (c e : Nat) : SlotOut :=
  x.pairOut d.toNat 1 (x.part c e) (x.accOf c).v 0

/-- SMOUT (R221): the entry field is reserved, so only TEN traps. -/
def LaneIn.smout (x : LaneIn) (c e : Nat) (bf south : Bool) : SlotOut :=
  let d := if south then 54 else 52
  let y := { x with entry := semEntry0 }
  if bf then
    let rs := (List.range 4).map (fun n => bf16.round (fmtRounding x.fmt (x.draw n)) (x.stored c (4 * e + n)))
    y.pairOut d 1 (layFrag 0 0 (rs.map (·.1))) (x.accOf c).v (rs.foldl (fun a r => a ||| r.2) 0)
  else y.pairOut d 1 (x.part c e) (x.accOf c).v 0

/-- SMWR (R220). -/
def LaneIn.smwr (_ : LaneIn) (w : DWord) (c e : Nat) : SlotOut :=
  { lat := 4, lands := [.acc c [(2 * e, loW w), (2 * e + 1, hiW w)] true] }

/-- The tile element that fragment element `i` stands for: flat index, when it lies in the tile (R222). -/
def tilePos (k : Nat) (s : Bool) (j i : Nat) : Option Nat :=
  if s then (if j * k + i / 4 < 4 then some (4 * (j * k + i / 4) + i % 4) else none)
  else if j * k + i % k < 4 then some (4 * (i / k) + (j * k + i % k)) else none

/-- The format and planes of an orientation (R222). -/
def sideCode (fmt : BitVec 32) (s : Bool) : Nat × Nat :=
  if s then (fmtB fmt, fmtBq fmt) else (fmtA fmt, fmtAq fmt)

/-- BPACK (R222): the data as stored, whatever V holds. -/
def LaneIn.bpack (x : LaneIn) (d : BitVec 6) (c : Nat) (s : Bool) (j : Nat) : SlotOut :=
  let k := fmtK x.fmt
  let (code, q) := sideCode x.fmt s
  let rs : List (Nat × XFlags) := (List.range (4 * k)).map (fun i =>
    match tilePos k s j i with
    | some p => toFrag (fmtRounding x.fmt (x.draw i)) code q (fmtAccInt x.fmt) (x.stored c p)
    | none => toFrag (fmtRounding x.fmt (x.draw i)) code q (!semReal x.entry) (semZero x.entry))
  x.pairOut d.toNat 4 (layFrag code q (rs.map (·.1))) (x.accOf c).v (rs.foldl (fun a r => a ||| r.2) 0)

/-- A fragment element widened into the accumulator format (R223): exact into FP32, where a subnormal is flushed under SUBN as every tiny result
is (R82; log entry 11, DEDUCED), and by R83 into INT32. -/
def widen (fmt : BitVec 32) (draw : Nat) (v : ExactNum) : Word × XFlags :=
  if fmtAccInt fmt then let r := toIntFmt 32 (fmtRounding fmt draw) v; (BitVec.ofInt 32 r.1, r.2)
  else asWord (fp32.round (fmtRounding fmt draw) v)

/-- BUNPK (R223): the entry field is reserved, so only TEN traps. -/
def LaneIn.bunpk (x : LaneIn) (w : DWord) (c : Nat) (s : Bool) (j : Nat) : SlotOut :=
  let k := fmtK x.fmt
  let (code, q) := sideCode x.fmt s
  let rs : List (Nat × Word × XFlags) := (List.range (4 * k)).filterMap (fun i =>
    (tilePos k s j i).map (fun p => (p, widen x.fmt (x.draw i) (fragElem x.fmt code q (4 * k) w i))))
  let y := { x with entry := semEntry0 }
  y.tileTrap
    { lat := 4, lands := [.acc c (rs.map (fun r => (r.1, r.2.1))) true],
      raises := rs.foldl (fun a r => a ||| r.2.2) 0 }

/-- The accumulators that an executing tile instruction reads. -/
def accReads : Instr → List Nat
  | .smm _ c _ _ _ z | .smms _ c _ _ _ z | .sexpn _ c _ _ _ z => if z then [] else [c.toNat]
  | .smadd _ c _ k => [c.toNat, k.toNat]
  | .smred _ _ _ k _ => [k.toNat]
  | .smcmp _ c _ k _ _ => [c.toNat, k.toNat]
  | .scmpr _ _ _ c _ | .scmprPair _ _ c _ => [scmprAcc c, scmprAcc c + 1]
  | .smrd _ _ c _ | .smout _ c _ _ _ | .bpack _ _ c _ _ _ => [c.toNat]
  | _ => []

/-- A tile slot whose guard is true (R209 rows 4 and 5). -/
def LaneIn.tileCompute (x : LaneIn) (i : Instr) : SlotOut :=
  match i with
  | .smm _ c _ a b z =>
    let p := x.pairBits a.toNat; let q := x.pairBits b.toNat
    if p.2 && q.2 then x.smm c.toNat p.1 q.1 z else {}
  | .smms _ c _ a b z =>
    let p := x.pairBits a.toNat; let q := x.pairBits b.toNat
    if !(p.2 && q.2) then {} else if x.scalesBad then SlotOut.faulted 0x1D1 else x.smms c.toNat p.1 q.1 z
  | .sexpn _ c _ a b z =>
    let p := x.pairBits a.toNat; let q := x.pairBits (4 * b.toNat); let r := x.pairBits (4 * b.toNat + 2)
    if !(p.2 && q.2 && r.2) then {} else if x.selBad c.toNat then SlotOut.faulted 0x1D1 else x.sexpn c.toNat p.1 q.1 r.1 z
  | .smz _ c _ => x.smz c.toNat
  | .smadd _ c _ k => x.smadd c.toNat k.toNat
  | .smred _ c _ k m => x.smred c.toNat k.toNat m.toNat
  | .smcmp _ c _ k p m =>
    let b := x.smcmpBit c.toNat k.toNat m.toNat
    { lands := [.pred (pPhys x.inp.cell.pbase p.toNat) b], contrib := some b }
  | .scmpr _ d a c _ =>
    let w := x.inp.word a.toNat
    if w.v then x.scmpr d w.val (scmprAcc c)
    else { lat := 4,
           lands := [.acc (scmprAcc c) [] false, .acc (scmprAcc c + 1) [] false,
                     .word (x.inp.place d.toNat) none false], pushes := true }
  | .scmprPair _ d c _ => x.scmprPair d (scmprAcc c)
  | .smrd _ d c e => x.smrd d c.toNat e.toNat
  | .smwr _ a c e =>
    let p := x.pairBits a.toNat
    if p.2 then x.smwr p.1 c.toNat e.toNat else { lat := 4, lands := [.acc c.toNat [] false] }
  | .smout _ c e b f => x.smout c.toNat e.toNat b f
  | .bpack _ d c _ s j => x.bpack d c.toNat s j.toNat
  | .bunpk _ a c s j =>
    let p := x.pairBits a.toNat
    if p.2 then x.bunpk p.1 c.toNat s j.toNat else { lat := 4, lands := [.acc c.toNat [] false] }
  | _ => {}

/-- A tile slot in a selected, loop-active cell (R209 rows 3 to 5). -/
def LaneIn.tile (x : LaneIn) (i : Instr) : SlotOut :=
  if x.guardUe i then SlotOut.faulted 0x1D1
  else if !x.inp.guard (cellGuard i) then x.guardedOff i
  else if x.readsUe i || (accReads i).any (fun a => x.inp.cell.ue.contains (64 + a)) then SlotOut.faulted 0x1D1
  else x.tileCompute i

/-- The instruction is a tile instruction. -/
def isTile : Instr → Bool
  | .smm .. | .smms .. | .smz .. | .smadd .. | .smrd .. | .smwr .. | .smout .. | .smcmp .. | .scmpr ..
  | .scmprPair .. | .sexpn .. | .bpack .. | .bunpk .. | .smred .. => true
  | _ => false

/-- A cell slot in a selected, loop-active cell. -/
def LaneIn.slot (x : LaneIn) (i : Instr) : SlotOut := if isTile i then x.tile i else x.lane i

end Sys2Proof.Machine
end

