-- ==== Sys2Proof/Machine/Faces.lean ====
section
/-!
DEFINITION. Faces (13_faces_engines.md R161, R167 to R179): patterns, the streams that a lane sees at a bundle, takes, pushes,
fetches ahead, drain chains and drain writes.
-/

namespace Sys2Proof.Machine

/-! ## Parts -/

/-- A face of the module. -/
def State.face (s : State) (a side : Nat) : Face := (s.arr a).face side
/-- The state with one face replaced. -/
def State.setFace (s : State) (a side : Nat) (f : Face) : State := s.setArr a ((s.arr a).setFace side f)

/-- A lane of a face. -/
def Face.lane (f : Face) (l : Nat) : Lane := tabGet Lane.reset f.lanes l
/-- The face with one lane replaced. -/
def Face.setLane (f : Face) (l : Nat) (x : Lane) : Face := { f with lanes := tabPut f.lanes l x }

/-! ## Patterns (R167, R168) -/

/-- A pattern descriptor's words as a pattern, or none where its content is invalid (R167, R175). A BASE of SRC = 0 beyond the store is valid
content: it gives FACE.RANGE at the take. Log entry 73: DEDUCED. -/
def parsePattern (w : List Nat) (src drain : Bool) : Option Pattern :=
  let g (i : Nat) : Nat := w.getD i 0
  let level (i : Nat) : Nat := g (2 + i)
  let lanes := g 1 / 2 ^ 32 % 64
  let counts := (List.range 4).map (fun i => level i % 2 ^ 32)
  let pq := g 6 / 2 ^ 32 % 16
  let bad := g 0 / 2 ^ 55 != 0 || g 1 / 2 ^ 38 % 2 ^ 10 != 0 || g 6 / 2 ^ 36 != 0 || g 7 != 0
    || counts.contains 0 || lanes == 0 || 32 < lanes
    || !(pq == 0 || pq == 2 || pq == 4 || pq == 8) || (pq != 0 && !src)
    || (drain && (g 1 / 2 ^ 48 != 0 || pq != 0))
  if bad then none
  else some
    { src := src, base := g 0, padn := g 1 / 2 ^ 48, lanes := lanes, lstride := sext 32 (g 1),
      rev := (List.range 4).map (fun i => level i / 2 ^ 63 == 1),
      stride := (List.range 4).map (fun i => sext 31 (level i / 2 ^ 32)),
      count := counts, pq := pq, pstride := g 6 % 2 ^ 32 }

/-- The steps before the padding steps. -/
def Pattern.body (p : Pattern) : Nat := p.count.foldl (· * ·) 1
/-- N (R168). -/
def Pattern.steps (p : Pattern) : Nat := p.body + p.padn

/-- The sum of the level offsets for step `m` (R168). -/
def levelOffsets : List Nat → List Int → List Bool → Nat → Int
  | c :: cs, st :: sts, rv :: rvs, m =>
    let i := if rv then c - 1 - m % c else m % c
    i * st + levelOffsets cs sts rvs (m / c)
  | _, _, _, _ => 0

/-- The address of step `n` in lane `l`, exact (R168). -/
def Pattern.addr (p : Pattern) (l n : Nat) : Int :=
  p.base + l * p.lstride + levelOffsets p.count p.stride p.rev n

/-- The lanes that share a bank with another in step `n`, as a mask (R170). -/
def Pattern.bankMask (p : Pattern) (n : Nat) : Word :=
  let bank (l : Nat) : Int := p.addr l n / 8 % 32
  (List.range p.lanes).foldl
    (fun m l => if (List.range p.lanes).any (fun k => k != l && bank k == bank l) then m ||| (1#32 <<< l) else m) 0

/-! ## Streams (R161, R172) -/

/-- The patterns that a lane sees at a bundle: those placed since the last halt at or before it (R161). -/
def streamAt : List (Nat × FaceOp) → Nat → List (Nat × Pattern)
  | log, k => log.foldl
      (fun acc (e : Nat × FaceOp) =>
        if k < e.1 then acc
        else match e.2 with
          | .go pid p => acc ++ [(pid, p)]
          | .halt => []
          | _ => acc) []

/-- The padding element at a bundle (R174). -/
def padAt (log : List (Nat × FaceOp)) (k : Nat) : VPair :=
  log.foldl (fun acc (e : Nat × FaceOp) =>
    if k < e.1 then acc else match e.2 with | .pad p => p | _ => acc) VPair.zero

/-- The chain at a bundle (R179). -/
def chainAt (log : List (Nat × FaceOp)) (k : Nat) : Option Chain :=
  log.foldl (fun acc (e : Nat × FaceOp) =>
    if k < e.1 then acc else match e.2 with | .chain c => c | _ => acc) none

/-- The steps of a pattern that a lane has taken. -/
def Lane.took (x : Lane) (pid : Nat) : Nat := tabGet 0 x.taken pid

/-- The pattern at which a lane stands, of those it sees (R172). -/
def Lane.current (x : Lane) (ps : List (Nat × Pattern)) : Option (Nat × Pattern) :=
  ps.find? (fun p => x.took p.1 < p.2.steps)

/-- Every lane has left the pattern (R172). -/
def Face.left (f : Face) (p : Nat × Pattern) : Bool :=
  (List.range 32).all (fun l => p.2.steps ≤ (f.lane l).took p.1)

/-- The patterns that a face holds after its last command: running, then next (R172). -/
def Face.held (f : Face) : List (Nat × Pattern) :=
  (streamAt f.log (f.log.foldl (fun a e => max a e.1) 0)).filter (fun p => !f.left p)

/-! ## Takes (R45, R169 to R174) -/

/-- What a take meets: an element with the pattern and step it comes from, an empty stream, or a face fault with its
cause, its address and its lane mask. -/
inductive Take where
  | elem (pid step : Nat) (e : VPair)
  | empty
  | fault (cause : Nat) (addr : Nat) (lanes : Word)
  deriving DecidableEq, Repr

/-- The take of a lane at a bundle with stamp `k`. Of a marked step FACE.BANK comes before what its elements are, for which the spec gives no order
(R169, R170; log entry 76, DESIGN CHOICE). -/
def Face.take (f : Face) (k l : Nat) : Take :=
  match (f.lane l).current (streamAt f.log k) with
  | none => .fault 0x0A1 0 0
  | some (pid, p) =>
    let n := (f.lane l).took pid
    if p.lanes ≤ l || p.body ≤ n then .elem pid n (padAt f.log k)
    else
      let mask := if p.src then 0 else p.bankMask n
      if mask != 0 && (List.range p.lanes).all (fun m => (f.lane m).took pid ≤ n) then
        .fault 0x0A2 (wrap 55 (p.addr l n)) mask
      else
        match (f.lane l).buf.find? (fun b => b.pid == pid && b.step == n) with
        | none => .empty
        | some b => match b.val with
          | .elem e => .elem pid n e
          | .fault c a => .fault c a 0

/-- A step taken: the lane moves on and its buffer gives up the element. -/
def Face.taken (f : Face) (l pid step : Nat) : Face :=
  let x := f.lane l
  f.setLane l { x with taken := tabPut x.taken pid (step + 1),
                       buf := x.buf.filter (fun b => !(b.pid == pid && b.step ≤ step)) }

/-- Faulted elements leave the buffers, so that they are fetched again (R169). Log entry 41: DEDUCED. -/
def Face.refetch (f : Face) : Face :=
  { f with lanes := f.lanes.map (fun e =>
      (e.1, { e.2 with buf := e.2.buf.filter (fun b => match b.val with | .fault _ _ => false | _ => true) })) }

/-! ## Fetching ahead (R169, R171, R172) -/

/-- The number that a list of bytes holds, as a valid pair. -/
def pairOf (x : Nat) : VPair := ⟨⟨BitVec.ofNat 32 x, true⟩, ⟨BitVec.ofNat 32 (x / 2 ^ 32), true⟩⟩

/-- The cause of a poisoned element. -/
def poisonCause (p : Poison) (ue : Nat) : Nat := match p with | .ue => ue | .keyDead => 0x1D3

/-- The cause of a face whose address does not translate: FACE.UE for an unreadable page table, else FACE.XLATE, for a missing permission with
512 added, so that a task which fails on it gets CLASS PERM (R169, R298). -/
def faceCause (c : Nat) : Nat := if c == xUe then 0x0A5 else if c == xPerm then 0x0A4 + 512 else 0x0A4

/-- A read of `n` bytes at a virtual address by an inject face (R169). -/
def State.faceRead (s : State) (a side ctx : Nat) (arrays : List Nat) (va : Int) (n : Nat) :
    Except (Nat × Nat) Nat × State :=
  if va < 0 ∨ 2 ^ 55 ≤ va then (.error (0x0A4, wrap 55 va), s)
  else
    let v := va.toNat
    match s.translate (.face a side) (dieOf a) ctx arrays v .read with
    | (.error c, t) => (.error (faceCause c, v), t)
    | (.ok acc, t) =>
      let o := t.read (.array a (whoFace a side)) acc n
      match o.poison with
      | some p => (.error (poisonCause p 0x0A5, v), o.st)
      | none => (.ok (leNat o.bytes), o.st)

/-- The plane chunks of an element, lowest first (R171). -/
def State.faceChunks (s : State) (a side ctx : Nat) (arrays : List Nat) (p : Pattern) (va : Int) :
    Nat → Nat → Except (Nat × Nat) Nat × State
  | 0, _ => (.ok 0, s)
  | left + 1, j =>
    let n := 8 / p.pq
    let ca := va + j * p.pstride
    if ca % n ≠ 0 then (.error (0x0A3, wrap 55 ca), s)
    else match s.faceRead a side ctx arrays ca n with
      | (.error e, t) => (.error e, t)
      | (.ok x, t) =>
        match t.faceChunks a side ctx arrays p va left (j + 1) with
        | (.error e, u) => (.error e, u)
        | (.ok y, u) => (.ok (x * 2 ^ (8 * n * j) + y), u)

/-- The page that the lane goes on to from element `n`: the one beside the element's page, in the direction in which its next step lies. Which page
is the one ahead R169 does not say (log entry 76, DESIGN CHOICE). -/
def Pattern.aheadPage (p : Pattern) (l n : Nat) : Option Nat :=
  let page := p.addr l n / 2 ^ 16 + (if p.addr l (n + 1) < p.addr l n then -1 else 1)
  if page < 0 ∨ 2 ^ 39 ≤ page then none else some page.toNat

/-- The face translates one page ahead of the element that it fetches, and keeps what it finds (R169, R250). -/
def State.lookAhead (s : State) (a side ctx : Nat) (arrays : List Nat) (p : Pattern) (l n : Nat) : State :=
  match p.aheadPage l n with
  | some page => (s.translate (.face a side) (dieOf a) ctx arrays (page * 2 ^ 16) .read).2
  | none => s

/-- Element `n` of a pattern in lane `l`, read now (R168 to R171). -/
def State.fetchElem (s : State) (a side ctx : Nat) (arrays : List Nat) (p : Pattern) (l n : Nat) : Fetched × State :=
  let va := p.addr l n
  let out (r : Except (Nat × Nat) Nat × State) : Fetched × State :=
    match r with
    | (.error e, t) => (.fault e.1 e.2, t)
    | (.ok x, t) => (.elem (pairOf x), t.lookAhead a side ctx arrays p l n)
  if !p.src then
    if va % 8 ≠ 0 ∨ va < 0 ∨ 0x180000 ≤ va then (.fault 0x0A3 (wrap 55 va), s)
    else
      let o := s.read (.array a (whoFace a side)) (.store a (0x180000 * side + va.toNat) 0) 8
      match o.poison with
      | some q => (.fault (poisonCause q 0x0A5) va.toNat, s)
      | none => (.elem (pairOf (leNat o.bytes)), s)
  else if p.pq == 0 then
    if va % 8 ≠ 0 then (.fault 0x0A3 (wrap 55 va), s) else out (s.faceRead a side ctx arrays va 8)
  else out (s.faceChunks a side ctx arrays p va p.pq 0)

/-- The next element that a lane may fetch: of the patterns placed, oldest first, then of the banks (R172). -/
def Face.nextFetch (f : Face) (l : Nat) : Option (Nat × Pattern × Nat) :=
  let x := f.lane l
  let placed := f.log.filterMap (fun e => match e.2 with | .go pid p => some (pid, p) | _ => none)
  let live := f.held.map (·.1) ++ (f.bank0.toList ++ f.bank1.toList).map (·.pid)
  let cands := placed ++ (f.bank0.toList ++ f.bank1.toList).map (fun b => (b.pid, b.pat))
  cands.findSome? (fun (pid, p) =>
    let n := x.took pid + (x.buf.filter (fun b => b.pid == pid)).length
    let used := (x.buf.filter (fun b => b.pid == pid || (live.contains pid && live.contains b.pid))).length
    if l < p.lanes && n < p.body && used < 16
        && !x.buf.any (fun b => b.pid == pid && (match b.val with | .fault _ _ => true | _ => false))
    then some (pid, p, n) else none)

/-! ## Drain chains (R177, R178) -/

/-- The instructions that a stage may hold (R177). -/
def stageOp : Instr → Bool
  | .iadd .. | .isub .. | .imul .. | .iand .. | .ior .. | .ixor .. | .ishl .. | .ishr .. | .isra .. | .imin ..
  | .imax .. | .movCell .. | .fadd .. | .fsub .. | .fmul .. | .ffma .. | .fmin .. | .fmax .. | .fabs .. | .fneg ..
  | .fcvt .. | .hadd2 .. | .hmul2 .. | .hfma2 .. => true
  | _ => false

/-- A stage word as an instruction whose register codes are those of R177. -/
def parseStage (w : Word) : Option Instr :=
  match decodeSlot .cellA w with
  | none => none
  | some i =>
    if stageOp i && cellGuard i == ⟨false, 0⟩ && (cellDests i).all (· ≤ 3)
        && (cellSrcs i).all (fun c => c ≤ 5 || c == 63) then some i else none

/-- A chain descriptor's bytes (R177): `some none` when NST = 0 removes the chain. -/
def parseChain (bs : List Byte) (fmt : BitVec 32) : Option (Option Chain) :=
  let b (i : Nat) : Nat := (bs.getD i 0).toNat
  let nst := b 32 % 16
  if b 32 / 16 != 0 || 8 < nst || (span 33 7).any (fun i => b i != 0) || (span 48 16).any (fun i => b i != 0) then none
  else
    let word (o : Nat) : Word := BitVec.ofNat 32 (leNat ((bs.drop o).take 4))
    let st := (List.range nst).map (fun i => parseStage (word (4 * i)))
    if st.any (·.isNone) then none
    else some (if nst == 0 then none else
      some { stages := st.filterMap id, k0 := word 40, k1 := word 44, fmt := fmt })

/-- The draw of a chain stage (R178). -/
def chainDraw (seed : DWord) (num m lane side stage e : Nat) : Nat :=
  let k := philoxKey seed num
  (philox (BitVec.ofNat 32 (lane + 32 * m)) (BitVec.ofNat 32 (side - 2)) 0
    (BitVec.ofNat 32 (0xC0000000 + 16 * stage + e)) k.1 k.2).1.toNat / 256

/-- One stage: the pair of pairs x and t with the constants, as the registers 0 to 5 of a cell (R178). -/
def runStage (c : Chain) (draw : Nat → Nat) (cell : Cell) (i : Instr) : Cell × XFlags :=
  let inp : CellIn :=
    { cell := cell, north := VPair.zero, south := VPair.zero, east := VPair.zero, west := VPair.zero, bad := [],
      rowid := 0, colid := 0, lidx := 0, ws := 0, rg := 0 }
  let x : LaneIn :=
    { inp := inp, fmt := c.fmt &&& 0xF8FFFFFF, draw := draw, random := fun _ => (0, 0, 0, 0), entry := semEntry0,
      level := none }
  let o := x.lane i
  (cell.landAll o.lands, o.raises &&& (xInv ||| xOvf ||| xUnf))

/-- The stages in order (R178). -/
def runStages (c : Chain) (draw : Nat → Nat → Nat) : List Instr → Nat → Cell × XFlags → Cell × XFlags
  | [], _, acc => acc
  | i :: is, n, acc =>
    let r := runStage c (draw n) acc.1 i
    runStages c draw is (n + 1) (r.1, acc.2 ||| r.2)

/-- A chain run on an element (R178). -/
def runChain (c : Chain) (draw : Nat → Nat → Nat) (e : VPair) : VPair × XFlags :=
  let g := ((((Cell.reset.g.set 0 e.lo).set 1 e.hi).set 4 (vOk c.k0)).set 5 (vOk c.k1))
  let r := runStages c draw c.stages 0 ({ Cell.reset with g := g }, 0)
  (⟨vget r.1.g 0 VWord.zero, vget r.1.g 1 VWord.zero⟩, r.2)

/-! ## Pushes and drain writes (R175, R176, R179) -/

/-- What a push meets. -/
inductive Push where
  | discard
  | overrun
  | pass (pid step : Nat)
  | full
  | elem (pid step : Nat) (acc : Access) (addr : Nat)
  | fault (cause : Nat) (addr : Nat)
  deriving DecidableEq, Repr

/-- The push of a lane at a bundle with stamp `k`, when `queued` elements stand in its queue. The face counts as one that holds a pattern until a
halt: once every lane has used up its patterns, which R172 then lets the face release, a push is still DRAIN.OVER (R176; log entry 76, DESIGN
CHOICE). -/
def State.push (s : State) (a side ctx : Nat) (arrays : List Nat) (f : Face) (k l queued : Nat) : Push :=
  let ps := streamAt f.log k
  if ps.isEmpty then .discard
  else match (f.lane l).current ps with
    | none => .overrun
    | some (pid, p) =>
      let n := (f.lane l).took pid
      if p.lanes ≤ l then .pass pid n
      else if 16 ≤ queued then .full
      else
        let va := p.addr l n
        if va % 8 ≠ 0 then .fault 0x0A3 (wrap 55 va)
        else if va < 0 ∨ 2 ^ 55 ≤ va then .fault 0x0A4 (wrap 55 va)
        else match (s.translate (.face a side) (dieOf a) ctx arrays va.toNat .write).1 with
          | .error c => .fault (faceCause c) va.toNat
          | .ok acc => .elem pid n acc va.toNat

/-- A change to what the next FDFLUSH of a face reports about an element of a bundle with stamp `k`. -/
def Face.credit (f : Face) (k : Nat) (u : Flush → Flush) : Face :=
  match f.flushes.findIdx? (fun x => k < x.stamp) with
  | some i => { f with flushes := f.flushes.modify i u }
  | none => { f with tally := u f.tally }

/-- A push taken in by the face of a unit. -/
def Face.pushed (f : Face) (unit k l : Nat) (p : Push) (e : PushElem) : Face :=
  let x := f.lane l
  match p with
  | .overrun => f.credit k (fun u => { u with overrun := u.overrun.or (some unit) })
  | .pass pid n => f.setLane l { x with taken := tabPut x.taken pid (n + 1) }
  | .elem pid n acc addr =>
    f.setLane l { x with taken := tabPut x.taken pid (n + 1),
                         queue := x.queue ++ [{ e with acc := acc, addr := addr, chain := chainAt f.log k }] }
  | _ => f

/-- The write of the first element of a drain lane's queue: the chain, then each valid half (R175, R178). The flags that
the chain raises go to the second part. -/
def State.drainWrite (s : State) (a side l : Nat) : State × XFlags :=
  let f := s.face a side
  let task := match s.runOn a with | some r => r.task | none => 0
  let x := f.lane l
  match x.queue with
  | [] => (s, 0)
  | q :: rest =>
    let (e, raises) := match q.chain with
      | some c => runChain c (fun st el => chainDraw q.seed q.num q.m l side st el) q.e
      | none => (q.e, 0)
    let put (t : State × Option Nat) (w : VWord) (o : Nat) : State × Option Nat :=
      if !w.v then t
      else
        let (t1, bad) := t.1.write (.array a (whoFace a side)) (q.acc.plus o) (leBytes 4 w.val.toNat)
        match bad with
        | some _ => (t1.mark (q.acc.plus o), t.2.or (some (q.addr / 32 * 32)))
        | none => (t1.own a q.acc ⟨whoFace a side, task, q.addr / 64 * 64⟩, t.2)
    let (s1, bad) := put (put (s, none) e.lo 0) e.hi 4
    let line := (q.acc.line?).toList
    let f1 := (s1.face a side).setLane l { x with queue := rest }
    let f2 := f1.credit q.stamp (fun u =>
      { u with written := if bad.isSome then u.written else u.written + 1,
               err := u.err.or (bad.map (fun b => (0x04, s1.detector q.acc (drainUnit a side), b))), lines := setUnion u.lines line })
    (s1.setFace a side f2, raises)

/-! ## Commands at issue (R173, R179) -/

/-- A command put in the log at a bundle's stamp. -/
def Face.add (f : Face) (k : Nat) (op : FaceOp) : Face := { f with log := f.log ++ [(k, op)] }

/-- The face without the buffered elements of a bank's pattern. -/
def Face.dropBuf (f : Face) (b : Option Bank) : Face :=
  match b with
  | none => f
  | some k => { f with lanes := f.lanes.map (fun x => (x.1, { x.2 with buf := x.2.buf.filter (fun e => e.pid != k.pid) })) }

/-- A bank of an inject face. -/
def Face.bank (f : Face) (b : Bool) : Option Bank := if b then f.bank1 else f.bank0
def Face.setBank (f : Face) (b : Bool) (x : Option Bank) : Face :=
  if b then { f with bank1 := x } else { f with bank0 := x }

/-- FICFG: everything discarded, SRC set. -/
def Face.cfg (f : Face) (k : Nat) (src : Bool) : Face :=
  { ((f.dropBuf f.bank0).dropBuf f.bank1).add k .halt with src := src, bank0 := none, bank1 := none }

/-- FIQB: a bank loaded; what it held is replaced. -/
def Face.load (f : Face) (b : Bool) (p : Pattern) (tag : BitVec 48) : Face :=
  let f1 := f.dropBuf (f.bank b)
  { f1.setBank b (some ⟨f.nextPid, p, tag⟩) with nextPid := f.nextPid + 1 }

/-- FIGO may act: the bank is loaded and no next pattern is held. -/
def Face.goOk (f : Face) (b : Bool) : Bool := (f.bank b).isSome && f.held.length < 2

/-- FIGO. -/
def Face.go (f : Face) (k : Nat) (b : Bool) : Face :=
  match f.bank b with
  | none => f
  | some x => (f.setBank b none).add k (.go x.pid x.pat)

/-- FISEL: FIGO on the chosen bank; the other is emptied. -/
def Face.sel (f : Face) (k : Nat) (b : Bool) : Face :=
  let g := f.go k b
  (g.dropBuf (g.bank !b)).setBank (!b) none

/-- FDGO may act. -/
def Face.drainGoOk (f : Face) : Bool := f.pending.isSome && f.held.length < 2

/-- FDGO. -/
def Face.drainGo (f : Face) (k : Nat) : Face :=
  match f.pending with
  | none => f
  | some p => { f.add k (.go f.nextPid p) with pending := none, nextPid := f.nextPid + 1 }

/-- FDFLUSH: the counts since the FDFLUSH before it, and of the elements of earlier bundles still to come (R179). Log entry 55: DEDUCED.
Log entry 73: DEDUCED. -/
def Face.flush (f : Face) (k : Nat) (rcpt : Access) (va head ctx : Nat) : Face :=
  { f with flushes := f.flushes ++ [{ f.tally with stamp := k, rcpt := rcpt, va := va, head := head, ctx := ctx }],
           tally := Flush.zero }

/-- The log without what no bundle with a stamp of at least `k` can see: commands before the last halt, older paddings and
chains; and with the lanes' places in patterns that are gone. -/
def Face.prune (f : Face) (k : Nat) : Face :=
  let isHalt (o : FaceOp) : Bool := match o with | .halt => true | _ => false
  let old := f.log.filter (fun e => e.1 ≤ k)
  let new := f.log.filter (fun e => k < e.1)
  let ps := (streamAt old k)
  let keep := (ps.filter (fun p => !f.left p || ps.getLast?.map (·.1) == some p.1)).map (fun p => (0, FaceOp.go p.1 p.2))
  let pad : List (Nat × FaceOp) := if padAt old k == VPair.zero then [] else [(0, .pad (padAt old k))]
  let chain : List (Nat × FaceOp) := match chainAt old k with | none => [] | some c => [(0, .chain (some c))]
  let log := keep ++ pad ++ chain ++ new
  let pids := log.filterMap (fun e => match e.2 with | .go pid _ => some pid | _ => none)
    ++ (f.bank0.toList ++ f.bank1.toList).map (·.pid)
  let clean (x : Lane) : Lane :=
    { x with taken := x.taken.filter (fun e => pids.contains e.1), buf := x.buf.filter (fun b => pids.contains b.pid) }
  if old.isEmpty || (old.length == keep.length + pad.length + chain.length && !old.any (fun e => isHalt e.2)) then f
  else { f with log := log, lanes := (f.lanes.map (fun e => (e.1, clean e.2))).filter (fun e => e.2 != Lane.reset) }

/-- The padding element of FIPAD .ZERO (R174): ZERO of an entry in every position of the face's format, by R83 with SAT
and RNE. -/
def padZero (fmt : BitVec 32) (entry : DWord) (north : Bool) : VPair :=
  let (code, q) := sideCode fmt north
  let v := (toFrag ⟨.rne, true, fmtSubn fmt, 0⟩ code q (!semReal entry) (semZero entry)).1
  pairOf (layFrag code q (List.replicate (4 * fmtK fmt) v)).toNat

end Sys2Proof.Machine
end

