-- ==== Sys2Proof/Machine/Wave.lean ====
section
/-!
DEFINITION. One advance of the wave (03_wave.md R30 to R46, 17_loops.md R229 to R235, 23_traps.md R288 to R291): which cells each
bundle reaches, what a cell reads and leaves, takes and pushes, stalls, faults, and the commit.
-/

namespace Sys2Proof.Machine

/-! ## Positions (R32) -/

/-- The position of a cell: the advances after issue at which a bundle of a shape reaches it (R32). -/
def cellPos (offs : List Nat) (skew : Bool) (m i j : Nat) : Nat := offs.getD m 0 + i + (if skew then j else 0)

/-- The position of the last cells that a bundle reaches. -/
def endPos (offs : List Nat) (skew : Bool) : Nat := offs.getLastD 0 + 31 + (if skew then 31 else 0)

/-- The cells of one array that stand at a distance from its first (R32). -/
def cellsAt (skew : Bool) (m d : Nat) : List (Nat × Nat × Nat) :=
  if skew then (List.range 32).filterMap (fun i => if i ≤ d && d - i < 32 then some (m, i, d - i) else none)
  else if d < 32 then (List.range 32).map (fun j => (m, d, j)) else []

/-- The cells that a bundle reaches at its `adv`-th advance. -/
def arrivals (offs : List Nat) (skew : Bool) (adv : Nat) : List (Nat × Nat × Nat) :=
  (offs.zipIdx.flatMap (fun o => if o.1 + 1 ≤ adv then cellsAt skew o.2 (adv - 1 - o.1) else []))

/-- A cell of the bench. -/
def State.cellAt (s : State) (r : Run) (m i j : Nat) : Cell :=
  tabGet Cell.reset (s.arr (r.arrays.getD m 0)).cells (32 * i + j)

/-! ## Neighbours (R41, R42, R289) -/

/-- The main bundles in flight: those kept for a return while a handler runs. -/
def Run.mainFlights (r : Run) : List Flight :=
  match r.saved with
  | some v => v.flights
  | none => r.flights

/-- The number of the next main bundle. -/
def Run.mainNum (r : Run) : Nat := match r.saved with | some v => v.num | none => r.num

/-- The main bundles that a cell has executed, counted from bundle 0. -/
def Run.executed (r : Run) (offs : List Nat) (m i j : Nat) : Nat :=
  match r.mainFlights.find? (fun f => f.adv ≤ cellPos offs f.skew m i j) with
  | some f => f.num
  | none => r.mainNum

/-- The bundle count after which R42 reads a neighbour at position `nb` (of each shape): the bundles that had reached it
before the reader's advance, drain advances not counted. -/
def Run.namedCount (r : Run) (f : Flight) (here : Nat) (nb : Bool → Nat) : Nat :=
  r.issued.foldl (fun n e => if e.2.1 + nb e.2.2 < f.vadv + here && e.1 ≤ f.num then max n (e.1 + 1) else n) 0

/-- The history entry that holds ch and cv of a cell as they were after its first `n` main bundles, when they have changed since (R289). -/
def Cell.after (c : Cell) (done n : Nat) : Option HistEntry :=
  if done ≤ n then none else c.hist.find? (fun h => !h.handler && n ≤ h.num)

/-- The same after a handler's bundle `k` (R289). -/
def Cell.afterHandler (c : Cell) (k : Nat) : Option HistEntry := c.hist.find? (fun h => h.handler && k < h.num)

/-- The history entry that a bundle reads of a neighbour; none for the registers as they stand. `exact` is a read across a seam from the
array before, which the seam carries beside the bundle (R42). A handler bundle reads the registers as they stand, whatever drain advances
a wait of the handler has made since (R289; log entry 69, DEDUCED). -/
def State.neighbourPast (s : State) (r : Run) (offs : List Nat) (f : Flight) (here m i j : Nat) (exact : Bool) : Option HistEntry :=
  let c := s.cellAt r m i j
  if f.handler then (if exact then c.afterHandler f.num else none)
  else
    let n := if exact then f.num + 1 else r.namedCount f here (fun sk => cellPos offs sk m i j)
    c.after (r.executed offs m i j) n

/-- What a bundle reads of a neighbour: ch and cv. -/
def State.neighbour (s : State) (r : Run) (offs : List Nat) (f : Flight) (here m i j : Nat) (exact : Bool) : VPair × VPair :=
  match s.neighbourPast r offs f here m i j exact with
  | some h => (h.ch, h.cv)
  | none => ((s.cellAt r m i j).ch, (s.cellAt r m i j).cv)

/-- The halves of a neighbour's ch (52, 53) or cv (54, 55) that a bundle would read with an uncorrectable error, as operand codes from
`code` (R287). -/
def State.neighbourBad (s : State) (r : Run) (offs : List Nat) (f : Flight) (here m i j : Nat) (exact : Bool) (reg code : Nat) : List Nat :=
  let ue := match s.neighbourPast r offs f here m i j exact with
    | some h => h.bad
    | none => (s.cellAt r m i j).ue
  (if ue.contains reg then [code] else []) ++ (if ue.contains (reg + 1) then [code + 1] else [])

/-! ## Loop tags (R230) -/

/-- The event of a tag, in one cell of the row. A predicate or loop-active bit that it writes is free of an error from then on (R287).
Log entry 50: DEDUCED. -/
def Cell.tagged (c : Cell) (rg : Nat) (t : Option Tag) : Cell :=
  match t with
  | none => c
  | some t =>
    match t.kind with
    | .opens =>
      if bit t.rot 0 then
        { c with p := (c.p &&& 0x00FF) ||| (1#16 <<< pPhys c.pbase 8), ue := c.ue.filter (fun e => !(520 ≤ e && e < 528)) }
      else c
    | .rotate stage =>
      let c1 := if bit t.rot 2 && rg != 0 then { c with gbase := (c.gbase + rg - 1) % rg } else c
      if bit t.rot 0 then
        let b := (c.pbase + 7) % 8
        { c1 with pbase := b, p := setPred c1.p (pPhys b 8) stage, ue := setDel c1.ue (512 + pPhys b 8) }
      else c1
    | .close => { c with active := c.active ||| (1#4 <<< t.level), ue := setDel c.ue (530 + t.level) }

/-- Every level that the bundle carries is active in the cell (R135 row 2, R295). -/
def Flight.loopActive (f : Flight) (c : Cell) : Bool :=
  (span f.base (f.depth - f.base)).all (fun l => bit c.active l)

/-- A loop-active bit that the cell reads for the bundle carries an uncorrectable error (R287). -/
def Flight.activeUe (f : Flight) (c : Cell) : Bool := (span f.base (f.depth - f.base)).any (fun l => c.ue.contains (530 + l))

/-- The cell is selected (R37). -/
def Flight.selects (f : Flight) (m i j : Nat) : Bool :=
  bit f.rowMask i && bit f.colMask j && (f.arrays == 0 || bit f.arrays m)

/-- The innermost level that LEXIT acts on (R158, R234). -/
def Flight.inner (f : Flight) : Option Nat := if f.base < f.depth then some (f.depth - 1) else none

/-! ## One cell at one step -/

/-- The draws of R80 for a slot of a bundle in a cell. -/
def Flight.draw (f : Flight) (m i j slot e : Nat) : Nat :=
  let k := philoxKey f.seed f.num
  (philox (BitVec.ofNat 32 (i + 32 * m)) (BitVec.ofNat 32 j) (f.lv1 ++ f.lv0)
    (BitVec.ofNat 32 (0x80000000 + 16 * slot + e)) k.1 k.2).1.toNat / 256

/-- The generator's output for RAND (R157). -/
def Flight.random (f : Flight) (m i j : Nat) (tag : Word) : Word × Word × Word × Word :=
  let k := philoxKey f.seed f.num
  philox (BitVec.ofNat 32 (i + 32 * m)) (BitVec.ofNat 32 j) (f.lv1 ++ f.lv0) tag k.1 k.2

/-- One push that lands: its face, lane and element, and the slot whose result lands. -/
structure Pushed where
  side : Nat
  lane : Nat
  slot : Nat
  elem : PushElem
  outcome : Push

/-- What one cell does at one step; `s3Takes` are the sides whose element S3 alone takes. -/
structure CellRes where
  f : Flight
  m : Nat
  i : Nat
  j : Nat
  cell : Cell
  touched : Bool
  takes : List (Nat × Take)
  s3Takes : List Nat
  pushes : List Pushed
  contrib : List Bool
  raises : XFlags
  exitBit : Option Bool
  fault : Option TrapInfo

/-- A slot executes in the cell and reads the port: it takes an element (R44). -/
def takesPort (x : CellIn) (i : Instr) (lo : Nat) : Bool :=
  (x.guard (cellGuard i) || isIsel i) && (cellSrcs i).any (fun c => c == lo || c == lo + 1)

/-- The report of a cell or face fault. -/
def cellFault (m i j : Nat) (cause addr : Nat) (slot : Bool) (face : Nat) (lanes : Word) : TrapInfo :=
  { TrapInfo.zero with
    perm := 512 ≤ cause,
    cause := BitVec.ofNat 9 cause, addr := BitVec.ofNat 55 addr, cellArr := BitVec.ofNat 3 m,
    cellRow := BitVec.ofNat 5 i, cellCol := BitVec.ofNat 5 j, cellSlot := slot, laneFace := BitVec.ofNat 2 face,
    lanes := lanes, atCell := true }

/-- The lane mask of one lane (R294). -/
def laneBit (l : Nat) : Word := 1#32 <<< l

/-- The latches of a cell with one step passed: those that land, in the order of their issue (R40), and those that wait. While a handler
runs, only its own count (R295). Results that a handler leaves at its return are of later issue than those of the task's bundles before it, and
of earlier issue than those after it. -/
def stepLatches (handler : Bool) (ls : List Latch) : List Latch × List Latch :=
  let counts (l : Latch) : Bool := l.handler || !handler
  let before (a b : Latch) : Bool := a.stamp < b.stamp || (a.stamp == b.stamp && a.slot ≤ b.slot)
  let ins (l : Latch) (acc : List Latch) : List Latch := acc.takeWhile (before · l) ++ l :: acc.dropWhile (before · l)
  ((ls.filter (fun l => counts l && l.rem ≤ 1)).foldl (fun acc l => ins l acc) [],
   ls.filterMap (fun l => if !counts l then some l else if l.rem ≤ 1 then none else some { l with rem := l.rem - 1 }))

/-- A landing writes ch (52, 53) or cv (54, 55). -/
def landsOn (lo : Nat) (ls : List Landing) : Bool :=
  ls.any (fun l => match l with | .word r _ _ => r == lo || r == lo + 1 | _ => false)

/-- The latches that the two slots of a bundle leave. The later landing of a register makes the bundle's push (R43). -/
def newLatches (f : Flight) (a b : SlotOut) : List Latch :=
  let mk (slot : Nat) (o q : SlotOut) : List Latch :=
    let wins (lo : Nat) : Bool :=
      o.pushes && landsOn lo o.lands
        && !(q.pushes && landsOn lo q.lands && (o.lat < q.lat || (o.lat == q.lat && slot == 0)))
    if o.lands.isEmpty then []
    else [{ rem := o.lat, num := f.num, stamp := f.stamp, slot := slot, handler := f.handler, seed := f.seed,
            pushE := wins 52, pushS := wins 54, lands := o.lands }]
  mk 0 a b ++ mk 1 b a

/-- What the landing of a latch pushes: the register after every landing of the latch's own bundle at this step, those of `later` among them
(R43; log entry 69, DEDUCED). -/
def Latch.pushed (l : Latch) (m i j last : Nat) (later : List Latch) (c : Cell) : List (Nat × Nat × Nat × PushElem) :=
  let c1 := ((later.takeWhile (fun x => x.stamp == l.stamp)).map (·.lands)).foldl Cell.landAll c
  let el (e : VPair) : PushElem :=
    { num := l.num, stamp := l.stamp, seed := l.seed, m := m, acc := .store 0 0 0, addr := 0, e := e, chain := none }
  (if l.pushE && j == 31 then [(2, i, l.slot, el c1.ch)] else [])
    ++ (if l.pushS && i == 31 && m == last then [(3, j, l.slot, el c1.cv)] else [])

/-- The landings of one step in a cell: the cell after them and what they push. -/
def landStep (m i j last : Nat) : List Latch → Cell → Cell × List (Nat × Nat × Nat × PushElem)
  | [], c => (c, [])
  | l :: ls, c =>
    let c1 := c.landAll l.lands
    let (c2, out) := landStep m i j last ls c1
    (c2, l.pushed m i j last ls c1 ++ out)

/-- The pushes of one cell, met in order by their faces. -/
def State.meetPushes (s : State) (r : Run) (a : Nat) : List (Nat × Nat × Nat × PushElem) → Face → Face → List Pushed
  | [], _, _ => []
  | (side, lane, slot, e) :: t, fe, fs =>
    let f := if side == 2 then fe else fs
    let o := s.push a side r.ctx r.arrays f e.stamp lane (f.lane lane).queue.length
    let f1 := f.pushed (drainUnit a side) e.stamp lane o e
    ⟨side, lane, slot, e, o⟩ :: (if side == 2 then s.meetPushes r a t f1 fs else s.meetPushes r a t fe f1)

/-- The halves of ch and cv that carry an uncorrectable error (R287). -/
def Cell.badNear (c : Cell) : List Nat := c.ue.filter (fun p => 52 ≤ p && p < 56)

/-- The history of a cell after a step that may have changed ch or cv (R289). -/
def Cell.record (old new : Cell) (f : Flight) (done : Nat) : List HistEntry :=
  if old.ch == new.ch && old.cv == new.cv && old.badNear == new.badNear then old.hist
  else
    let e (h : Bool) (n : Nat) : HistEntry := ⟨n, h, old.ch, old.cv, old.badNear⟩
    let live := old.hist.filter (fun x => x.handler != f.handler || f.num < x.num + 8)
    if f.handler then
      live ++ (if live.any (fun x => !x.handler && x.num == done) then [] else [e false done]) ++ [e true f.num]
    else live ++ [e false f.num]

/-- A cell when a bundle reaches it, after the loop tag that the bundle carries (R230). -/
def State.cellThen (s : State) (r : Run) (f : Flight) (m i j : Nat) : Cell := (s.cellAt r m i j).tagged r.rg f.tag

/-- The cell is selected, and reads a loop-active bit that carries an uncorrectable error (R287). -/
def State.activeBad (s : State) (r : Run) (f : Flight) (m i j : Nat) : Bool :=
  f.selects m i j && f.activeUe (s.cellThen r f m i j)

/-- The bundle executes in the cell: the cell is selected, and every loop level that the bundle carries is active there (R135). -/
def State.runsIn (s : State) (r : Run) (f : Flight) (m i j : Nat) : Bool :=
  f.selects m i j && !s.activeBad r f m i j && f.loopActive (s.cellThen r f m i j)

/-- What a cell reads of its neighbours and of what the bundle carries (R41, R42). A cell without a neighbour on a side, and one that
executes nothing, has nothing there. -/
def State.cellBase (s : State) (r : Run) (offs : List Nat) (f : Flight) (m i j : Nat) : CellIn :=
  let last := r.arrays.length - 1
  let here := cellPos offs f.skew m i j
  let nb (m i j : Nat) (exact : Bool) : VPair × VPair := s.neighbour r offs f here m i j exact
  let bad (m i j : Nat) (exact : Bool) (reg code : Nat) : List Nat := s.neighbourBad r offs f here m i j exact reg code
  let busy := s.runsIn r f m i j && !(isNopCell f.s2 && isNopCell f.s3)
  { cell := s.cellThen r f m i j,
    north := if !busy then VPair.zero else if i != 0 then (nb m (i - 1) j false).2
      else if m != 0 then (nb (m - 1) 31 j true).2 else VPair.zero,
    south := if !busy then VPair.zero else if i != 31 then (nb m (i + 1) j false).2
      else if m != last then (nb (m + 1) 0 j false).2 else VPair.zero,
    east := if busy && j != 31 then (nb m i (j + 1) false).1 else VPair.zero,
    west := if busy && j != 0 then (nb m i (j - 1) false).1 else VPair.zero,
    bad := if !busy then [] else
      (if i != 0 then bad m (i - 1) j false 54 44 else if m != 0 then bad (m - 1) 31 j true 54 44 else [])
        ++ (if i != 31 then bad m (i + 1) j false 54 46 else if m != last then bad (m + 1) 0 j false 54 46 else [])
        ++ (if j != 31 then bad m i (j + 1) false 52 48 else []) ++ (if j != 0 then bad m i (j - 1) false 52 50 else []),
    rowid := i, colid := j, lidx := f.lidx, ws := f.ws, rg := r.rg }

/-- What a cell takes from an inject face (R44): the west face serves column 0, and the north face row 0 of the first array. An element that a
withdrawn advance has taken is kept for it (R290). -/
def State.cellTakes (s : State) (r : Run) (offs : List Nat) (f : Flight) (m i j side : Nat) : List (Nat × Take) :=
  let base := s.cellBase r offs f m i j
  let lo := if side == 0 then 50 else 44
  let lane := if side == 0 then i else j
  let edge := if side == 0 then j == 0 else i == 0 && m == 0
  let busy := s.runsIn r f m i j && !(isNopCell f.s2 && isNopCell f.s3)
  if edge && busy && (takesPort base f.s2 lo || takesPort base f.s3 lo) then
    match r.kept.find? (fun t => t.m == m && t.row == i && t.col == j && t.side == side) with
    | some t => [(side, .elem 0 0 t.e)]
    | none => [(side, (s.face (r.arrays.getD m 0) side).take f.stamp lane)]
  else []

/-- The inject faces whose element S3 takes, where S2 takes none. -/
def State.s3Takes (s : State) (r : Run) (offs : List Nat) (f : Flight) (m i j : Nat) : List Nat :=
  [0, 1].filter (fun side => !takesPort (s.cellBase r offs f m i j) f.s2 (if side == 0 then 50 else 44))

/-- The element taken, or what stood there before. -/
def takenOr (t : List (Nat × Take)) (d : VPair) : VPair :=
  match t with | (_, .elem _ _ e) :: _ => e | _ => d

/-- What a cell reads at its step of a bundle. -/
def State.cellInput (s : State) (r : Run) (offs : List Nat) (f : Flight) (m i j : Nat) : CellIn :=
  let base := s.cellBase r offs f m i j
  { base with
    west := takenOr (s.cellTakes r offs f m i j 0) base.west, north := takenOr (s.cellTakes r offs f m i j 1) base.north }

/-- What a slot of the bundle computes with in the cell: slot 0 is S2, slot 1 is S3. -/
def Flight.laneIn (f : Flight) (inp : CellIn) (m i j slot : Nat) : LaneIn :=
  { inp := inp, fmt := f.fmt, draw := f.draw m i j slot, random := f.random m i j, entry := f.entry, level := f.inner }

/-- What a slot of the bundle does in the cell: nothing where the bundle does not execute, and a fault where its loop-active bits cannot be read
(R287). -/
def State.slotOut (s : State) (r : Run) (offs : List Nat) (f : Flight) (m i j slot : Nat) (x : Instr) : SlotOut :=
  if s.runsIn r f m i j then (f.laneIn (s.cellInput r offs f m i j) m i j slot).slot x
  else if s.activeBad r f m i j && !isNopCell x then SlotOut.faulted 0x1D1 else {}

/-- A cell after the landings of its step: those that are due of the latches that it held and of those that the bundle leaves (R39, R40). -/
def Cell.afterLatches (c : Cell) (f : Flight) (m i j last : Nat) (o2 o3 : SlotOut) : Cell × List (Nat × Nat × Nat × PushElem) :=
  let (landing, waiting) := stepLatches f.handler (c.latches ++ newLatches f o2 o3)
  landStep m i j last landing { c with latches := waiting }

/-- The tensor scales that the bundle writes, free of an error from then on (R131, R287). -/
def Flight.scales (f : Flight) (sel : Bool) (c : Cell) : Cell :=
  match f.tscale with
  | some (t, x) =>
    if !sel then c
    else if t == 1 then { c with tsa := loW x, ue := setDel c.ue 528 } else if t == 2 then { c with tsb := loW x, ue := setDel c.ue 529 }
    else { c with tsa := loW x, tsb := hiW x, ue := setDel (setDel c.ue 528) 529 }
  | none => c

/-- The exit of the cell from the innermost loop of the bundle (R158). -/
def Flight.exitsCell (f : Flight) (out : Bool) (c : Cell) : Cell :=
  match f.inner with
  | some l => if out then { c with active := c.active &&& ~~~(1#4 <<< l) } else c
  | none => c

/-- The stores of a step (R153). -/
def Cell.afterStores (c : Cell) (l : List (Nat × Word)) : Cell := l.foldl (fun c w => c.store4 w.1 w.2) c

/-- The history entry of a step added (R289). -/
def Cell.recorded (new old : Cell) (f : Flight) (done : Nat) : Cell := { new with hist := Cell.record old new f done }

/-- The part of the image that a landing writes (R300). -/
def Landing.part : Landing → Nat
  | .word reg _ _ => if reg < 44 then reg / 11 else 8
  | .pred _ _ => 9
  | .acc a _ _ => 4 + a

/-- The parts of the image that a step of a bundle writes in a cell (R300). A tag, an exit, a scale and every latch belong to part 9. -/
def Cell.partsOf (c : Cell) (f : Flight) (sel : Bool) (o2 o3 : SlotOut) : List Nat :=
  let ls := c.latches ++ newLatches f o2 o3
  ((stepLatches f.handler ls).1.flatMap (fun l => l.lands.map Landing.part))
    ++ (o2.stores ++ o3.stores).map (fun w => if w.1 < 0x2000 then 10 + w.1 / 256 else 42)
    ++ (if !ls.isEmpty || f.tag.isSome || o2.exits || o3.exits || (sel && f.tscale.isSome) then [9] else [])

/-- The same cell with more parts dirty. -/
def Cell.touch (c : Cell) (l : List Nat) : Cell := { c with touched := setUnion c.touched l }

/-- A cell after its step of a bundle, from what the bundle's two slots do there. -/
def Cell.stepped (c : Cell) (f : Flight) (sel : Bool) (m i j last done : Nat) (o2 o3 : SlotOut) : Cell :=
  ((f.exitsCell (o2.exits || o3.exits)
    (f.scales sel ((c.afterLatches f m i j last o2 o3).1.afterStores (o2.stores ++ o3.stores)))).recorded c f done).touch (c.partsOf f sel o2 o3)

/-- What a cell reports of its exit from the innermost loop (R235). -/
def Flight.exitBit (f : Flight) (m i j : Nat) (c : Cell) : Option Bool :=
  if f.selects m i j && (isLexit f.s2 || isLexit f.s3) then f.inner.map (fun l => !bit c.active l) else none

/-- The bundle leaves something in the cell, or the cell's own latches count. -/
def State.marksCell (s : State) (r : Run) (f : Flight) (m i j : Nat) : Bool :=
  ((s.runsIn r f m i j || s.activeBad r f m i j) && !(isNopCell f.s2 && isNopCell f.s3)) || f.tag.isSome || (f.selects m i j && f.tscale.isSome)
    || !(s.cellAt r m i j).latches.isEmpty

/-- The first fault of the takes, with the slot that takes: S3 at the sides `s3`. -/
def takeFault (m i j : Nat) (s3 : List Nat) (l : List (Nat × Take)) : Option TrapInfo :=
  l.findSome? (fun t => match t.2 with
    | .fault c x ls => some (cellFault m i j c x (s3.contains t.1) t.1 (if ls == 0 then laneBit (if t.1 == 0 then i else j) else ls))
    | _ => none)

/-- The first fault of the pushes, with the slot whose result is pushed. -/
def pushFault (m i j : Nat) (l : List Pushed) : Option TrapInfo :=
  l.findSome? (fun p => match p.outcome with | .fault c x => some (cellFault m i j c x (p.slot == 1) p.side (laneBit p.lane)) | _ => none)

/-- One cell at its step of a bundle (R135, R159). -/
def State.cellStep (s : State) (r : Run) (offs : List Nat) (f : Flight) (m i j : Nat) : CellRes :=
  let c0 := s.cellAt r m i j
  if !s.marksCell r f m i j then
    { f := f, m := m, i := i, j := j, cell := c0, touched := false, takes := [], s3Takes := [], pushes := [], contrib := [],
      raises := 0, exitBit := f.exitBit m i j c0, fault := none }
  else
    let a := r.arrays.getD m 0
    let last := r.arrays.length - 1
    let c1 := s.cellThen r f m i j
    let takes := s.cellTakes r offs f m i j 0 ++ s.cellTakes r offs f m i j 1
    let o2 := s.slotOut r offs f m i j 0 f.s2
    let o3 := s.slotOut r offs f m i j 1 f.s3
    let c2 := c1.stepped f (f.selects m i j) m i j last (r.executed offs m i j) o2 o3
    let pushes := s.meetPushes r a (c1.afterLatches f m i j last o2 o3).2 (s.face a 2) (s.face a 3)
    let s3 := if takes.isEmpty then [] else s.s3Takes r offs f m i j
    let slotFault (o : SlotOut) (b : Bool) : Option TrapInfo := o.fault.map (fun c => cellFault m i j c 0 b 0 0)
    { f := f, m := m, i := i, j := j, cell := c2, touched := true, takes := takes, s3Takes := s3, pushes := pushes,
      contrib := o2.contrib.toList ++ o3.contrib.toList, raises := o2.raises ||| o3.raises,
      exitBit := f.exitBit m i j c2,
      fault := (takeFault m i j s3 takes).or ((pushFault m i j pushes).or ((slotFault o2 false).or (slotFault o3 true))) }

/-! ## One advance -/

/-- The outcome of an attempted advance: a stall of a stream, with the report of FACE.STALL (R45), a fault that withdraws it (R290), or the advance. -/
inductive Advance where
  | stalled (info : TrapInfo)
  | fault (info : TrapInfo) (s : State) (r : Run)
  | moved (s : State) (r : Run)

/-- A stream stalls the cell: an inject lane is empty or a drain lane is full. -/
def CellRes.stalls (c : CellRes) : Bool :=
  c.takes.any (fun t => match t.2 with | .empty => true | _ => false)
    || c.pushes.any (fun p => match p.outcome with | .full => true | _ => false)

/-- The takes of a cell as the faces see them. `kept` elements have already left the lanes. -/
def State.takeAll (s : State) (r : Run) (c : CellRes) : State :=
  let a := r.arrays.getD c.m 0
  c.takes.foldl
    (fun t x =>
      if r.kept.any (fun k => k.m == c.m && k.row == c.i && k.col == c.j && k.side == x.1) then t
      else
        let lane := if x.1 == 0 then c.i else c.j
        match x.2 with
        | .elem pid n _ => t.setFace a x.1 ((t.face a x.1).taken lane pid n)
        | .fault _ _ _ | .empty => t) s

/-- The elements that a cell has taken, for a wave capture (R290). -/
def CellRes.keeps (c : CellRes) : List Taken :=
  c.takes.filterMap (fun t => match t.2 with | .elem _ _ e => some ⟨c.m, c.i, c.j, t.1, e⟩ | _ => none)

/-- The pushes of a cell taken in by their faces; a translation made stays in the face's cache. -/
def State.pushAll (s : State) (r : Run) (c : CellRes) : State :=
  let a := r.arrays.getD c.m 0
  c.pushes.foldl
    (fun t p =>
      let t1 := match p.outcome with
        | .elem _ _ _ va => (t.translate (.face a p.side) (dieOf a) r.ctx r.arrays va .write).2
        | _ => t
      t1.setFace a p.side ((t1.face a p.side).pushed (drainUnit a p.side) p.elem.stamp p.lane p.outcome p.elem)) s

/-- The commit of one cell: cell, faces, and FRONT of its row (R290). -/
def State.commitCell (s : State) (r : Run) (c : CellRes) : State :=
  let a := r.arrays.getD c.m 0
  let s1 := (s.takeAll r c).pushAll r c
  let s2 := if c.touched then
      let x := s1.arr a
      s1.setArr a { x with cells := tabPut x.cells (32 * c.i + c.j) c.cell }
    else s1
  if c.j == 0 && !c.f.handler then
    let x := s2.arr a
    s2.setArr a { x with front := tabPut x.front c.i (BitVec.ofNat 32 c.f.num) }
  else s2

/-- What a cell contributes to the records of its bundle (R46, R84, R235). -/
def Run.contribute (r : Run) (c : CellRes) : Run :=
  if c.contrib.isEmpty && c.raises == 0 && c.exitBit.isNone then r
  else r.updRecord c.f.num c.f.handler (fun x =>
    { x with
      flags := x.flags.map (fun fl => c.contrib.foldl (fun g b => g.contribute c.i b) fl),
      raises := x.raises ||| c.raises,
      exit := match x.exit, c.exitBit with
        | some (l, all), some b => some (l, all && b)
        | e, _ => e })

/-- The bytes of a bundle's S2 and S3 words, for the docket (R302). -/
def Flight.docketBytes (f : Flight) : List Byte := leBytes 4 f.w2.toNat ++ leBytes 4 f.w3.toNat

/-- A bundle that has left the bench, counted by the docket (R302). -/
def Run.leave (r : Run) (f : Flight) : Run :=
  if f.docket then
    { r with docket := r.docket.map (fun d => { d with count := d.count + 1, crc := crcFeed d.crc f.docketBytes }) }
  else r

/-- The oldest stamp whose takes or pushes are still to come: of a bundle in flight, or of a latch that will push (R161, R179). -/
def State.oldestStamp (s : State) (r : Run) : Nat :=
  let fs := r.flights ++ (match r.saved with | some v => v.flights | none => [])
  let inCell (n : Nat) (c : Cell) : Nat := c.latches.foldl (fun n l => if l.pushE || l.pushS then min n l.stamp else n) n
  r.arrays.foldl (fun n a => (s.arr a).cells.foldl (fun n e => inCell n e.2) n) (fs.foldl (fun a f => min a f.stamp) r.stamp)

/-- The first of the cells that meet a test, in the order array, row, column (R290). -/
def firstCell (l : List CellRes) (p : CellRes → Bool) : Option CellRes :=
  let before (x y : CellRes) : Bool := x.m < y.m || (x.m == y.m && (x.i < y.i || (x.i == y.i && x.j < y.j)))
  (l.filter p).foldl (fun b c => match b with | none => some c | some d => if before c d then some c else some d) none

/-- The FACE.STALL that a stalled cell raises (R45, R294). -/
def CellRes.stallInfo (c : CellRes) : TrapInfo :=
  match c.takes.find? (fun t => match t.2 with | .empty => true | _ => false) with
  | some t => cellFault c.m c.i c.j 0x0A0 0 (c.s3Takes.contains t.1) t.1 (laneBit (if t.1 == 0 then c.i else c.j))
  | none =>
    match c.pushes.find? (fun p => match p.outcome with | .full => true | _ => false) with
    | some p => cellFault c.m c.i c.j 0x0A0 0 (p.slot == 1) p.side (laneBit p.lane)
    | none => cellFault c.m c.i c.j 0x0A0 0 false 0 0

/-- The stall that a trap or a pre-emption has cut short would have made this drain advance itself: a WAITF until its record is readable, a
DCHECK until the segment's last bundle has left, the others until no bundle is in flight (R331). -/
def Run.drainsAnyway (r : Run) : Bool :=
  match r.drainFor with
  | some 7 => !r.foldRecords.flagsReady
  | some 9 => r.flights.any (·.docket)
  | some _ => true
  | none => false

/-- Records count an advance: not a blank one, and of the drain of a trap, a pre-emption or a YIELD only the advances that the bundle in
issue would have made in its own wait, so that they are read afterwards as they would have been without it. An advance that a fault has
withdrawn counts as the one that it was (R48, R240, R296, R331; log entry 46, DEDUCED). -/
def Run.recordsCount (r : Run) (blank : Bool) : Bool :=
  if r.redo then !r.mute
  else !blank && (match r.phase with | .drain _ | .preempt => r.drainsAnyway | .yielded => false | _ => true)

/-- An attempted advance of the wave. `new` is the bundle that enters; `blank` says that the advance is blank (R33). Where at one advance the
stream of one cell stalls and another cell or face faults, the advance stalls first, and the fault is raised when the streams can move
(R45; log entry 69, DEDUCED). Log entry 46: DEDUCED. -/
def State.advance (s : State) (r : Run) (new : Option Flight) (blank : Bool) : Advance :=
  let offs := benchOffsets r.arrays 0
  let fl := r.flights.map (fun f => { f with adv := f.adv + 1 }) ++ (new.map (fun f => { f with adv := 1 })).toList
  let res := fl.flatMap (fun f => (arrivals offs f.skew f.adv).map (fun c => s.cellStep r offs f c.1 c.2.1 c.2.2))
  match firstCell res CellRes.stalls with
  | some c => .stalled c.stallInfo
  | none =>
    match firstCell res (fun c => c.fault.isSome) with
    | some c =>
      let s1 := res.foldl (fun t x => t.takeAll r x) s
      .fault (c.fault.getD TrapInfo.zero) s1
        { r with kept := res.flatMap CellRes.keeps, redo := true, mute := !r.recordsCount blank,
                 flights := r.flights ++ (new.map (fun f => { f with adv := 0 })).toList }
    | none =>
      let s1 := res.foldl (fun t x => t.commitCell r x) s
      let r1 := res.foldl Run.contribute r
      let gone (f : Flight) : Bool := endPos offs f.skew < f.adv
      let r2 := (fl.filter gone).foldl Run.leave { r1 with flights := fl.filter (fun f => !gone f) }
      let low := r2.flights.foldl (fun a f => min a f.num) r2.num
      .moved s1
        { (r2.countRecords new.isSome (!r2.recordsCount blank)) with
          kept := [], redo := false, mute := false, face := none, advs := r2.advs + 1,
          issued := r2.issued.filter (fun e => low ≤ e.1 + 16) }

end Sys2Proof.Machine
end

