-- ==== Sys2Proof/Machine/Ops.lean ====
section
/-!
DEFINITION. Named operations of the module: receipts, dead-letter entries and context interrupts (13_faces_engines.md R163,
23_traps.md R304 and R305, 25_device.md R317), tokens and the ends of tasks (21_tasks.md R270, R275, R276, R283), and
taking a trap and returning from it (23_traps.md R288 to R298).
-/

namespace Sys2Proof.Machine

/-! ## Receipts -/

/-- Receipt states of R163. -/
def stAccepted : Nat := 1
def stStarted : Nat := 2
def stComplete : Nat := 3
def stFailed : Nat := 4
def stCancelled : Nat := 5
def stPartial : Nat := 6

/-- The 16 bytes of a receipt (R163). A command's receipt that reports no error names the unit of the command (log entry 14, DEDUCED). -/
def receiptBytes (state cls unit prog addr : Nat) : List Byte :=
  let u : BitVec 16 := BitVec.ofNat 16 unit
  [BitVec.ofNat 4 cls ++ BitVec.ofNat 4 state, fld u 0 4 ++ BitVec.ofNat 4 (cls / 16), fld u 4 8, (fld u 12 4).zeroExtend 8]
    ++ leBytes 4 prog ++ leBytes 8 addr

/-- A receipt written, with the frank of a terminal state attached to its place, on a page of any kind (R164, R256, R260). Log entry 14:
DEDUCED. -/
def State.writeReceipt (s : State) (ag : Agent) (acc : Access) (state cls unit prog addr : Nat) (frank : List Nat) :
    State :=
  (s.write ag acc (receiptBytes state cls unit prog addr)).1.attach acc.place frank

/-! ## Reports -/

/-- An entry put into a die's dead-letter record (R305): none while the record is frozen (R306). -/
def State.deadLetter (s : State) (d : Nat) (e : Dlr) : State :=
  let x := s.die d
  if x.frozen then s
  else s.setDie d { x with dlr := (if x.dlr.length < 4096 then x.dlr else x.dlr.drop 1) ++ [e] }

/-- An entry of a kind, made now. -/
def State.dlrEntry (s : State) (addr pc unit kind array ctx cause : Nat) : Dlr :=
  { addr := BitVec.ofNat 64 addr, pc := BitVec.ofNat 64 pc, unit := BitVec.ofNat 16 unit, kind := BitVec.ofNat 8 kind,
    array := BitVec.ofNat 6 array, ctx := BitVec.ofNat 16 ctx, cause := BitVec.ofNat 9 cause,
    ticks := BitVec.ofNat 64 s.ticks }

/-- The state with a context replaced. -/
def State.setContext (s : State) (c : Context) : State :=
  { s with contexts := listUpd s.contexts (fun x => x.num == c.num) (fun _ => c) }

/-- A CTXISR bit set; the vector's message is sent when the OR of the bits rises (R317). Log entry 53: DEDUCED. Log entry 62: DEDUCED. -/
def State.raiseIsr (s : State) (ctx b : Nat) : State :=
  match s.context ctx with
  | none => s
  | some c =>
    let s1 := s.setContext { c with isr := c.isr ||| (1#4 <<< b) }
    if c.isr == 0 then { s1 with messages := s1.messages ++ [c.irq] } else s1

/-! ## Tokens and ends of tasks -/

/-- A token of a context (R275). -/
def Context.token (c : Context) (tag : BitVec 48) : Option Token := c.tokens.find? (fun t => t.tag == tag)

/-- A token ripened: the first ripening decides (R275). -/
def Context.ripen (c : Context) (tag : BitVec 48) (ok : Bool) (frank : List Nat) : Context :=
  if (c.token tag).isSome then c else { c with tokens := c.tokens ++ [⟨tag, ok, frank⟩] }

/-- The free entries of a context's token store: those that neither a token nor an accepted task's output takes (R274). -/
def State.tokensFree (s : State) (c : Context) : Nat :=
  c.tokcap - c.tokens.length - ((s.tasks.filter (fun t => t.ctx == c.num)).map (fun t => t.desc.outs.length)).sum

/-- A token of a context of the module ripened. -/
def State.ripen (s : State) (ctx : Nat) (tag : BitVec 48) (ok : Bool) (frank : List Nat) : State :=
  match s.context ctx with
  | none => s
  | some c => s.setContext (c.ripen tag ok frank)

/-- The dispatcher of a die as a memory agent. Log entry 65: DESIGN CHOICE. -/
def dispatcher (d : Nat) : Agent := .engine d (whoWalk d) 0

/-- A task receipt written through the context's translation (R270, R304). UNIT holds a free value when there is no error.
Log entry 14: DEDUCED. -/
def State.taskReceipt (s : State) (t : Task) (state cls unit prog addr : Nat) (frank : List Nat) : State :=
  match s.translate (.die t.die) t.die t.ctx [] t.desc.rcpt.toNat .write with
  | (.ok acc, s1) => s1.writeReceipt (dispatcher t.die) acc state cls (if cls == 0 then (Config.quietUnit state).toNat else unit) prog addr frank
  | (.error _, s1) => s1

/-- The terminal receipt of a task, its dead-letter entry, its output tokens and its interrupt, in that order (R283, R304). `head` is the
head array of its bench. The dependency entry is freed. -/
def State.endTask (s : State) (t : Task) (head state cls unit prog addr : Nat) (frank : List Nat) : State :=
  let s1 := s.taskReceipt t state cls unit prog addr frank
  let s2 := if state == stComplete then s1
    else s1.deadLetter t.die (s1.dlrEntry addr t.desc.rcpt.toNat unit 1 head t.ctx 0)
  let s3 := t.desc.outs.foldl (fun x tag => x.ripen t.ctx tag (state == stComplete) frank) s2
  let s4 := if t.desc.irq then s3.raiseIsr t.ctx 0 else s3
  { s4 with tasks := s4.tasks.filter (fun x => x.id != t.id) }

/-- What the input tokens of a task say: some poisoned, or all ripe (R276). -/
def State.inputs (s : State) (t : Task) : Option Bool :=
  match s.context t.ctx with
  | none => none
  | some c =>
    let st := t.desc.ins.map (fun tag => (c.token tag).map (·.ripe))
    if st.contains (some false) then some false
    else if st.all (· == some true) then some true else none

/-- The franks that a task's first bundle acquires from its tokens (R262). -/
def State.inputFrank (s : State) (t : Task) : List Nat :=
  match s.context t.ctx with
  | none => []
  | some c => t.desc.ins.foldl (fun f tag => setUnion f (((c.token tag).map (·.frank)).getD [])) []

/-- Accepted tasks of which the tokens have decided: ready, or ended with DEPEND, which poisons their outputs in turn (R276). -/
def State.settle : Nat → State → State
  | 0, s => s
  | n + 1, s =>
    match s.tasks.find? (fun t => t.phase == .accepted && (s.inputs t).isSome) with
    | none => s
    | some t =>
      if s.inputs t == some true then
        let ready (x : Task) : Task :=
          { x with phase := .ready, readyAt := s.ticks, frank := setUnion x.frank (s.inputFrank x) }
        State.settle n { s with tasks := listUpd s.tasks (fun x => x.id == t.id) ready }
      else State.settle n (s.endTask t (16 * t.die) stFailed 0x12 (unitCode t.die 4 0) 0 0 [])

/-- Every task settled. -/
def State.settleAll (s : State) : State := s.settle (s.tasks.length + 1)

/-- The task of a number. -/
def State.task (s : State) (id : Nat) : Option Task := s.tasks.find? (fun t => t.id == id)
/-- A change to the task of a number. -/
def State.updTask (s : State) (id : Nat) (f : Task → Task) : State :=
  { s with tasks := listUpd s.tasks (fun t => t.id == id) f }

/-! ## Stopping (R288, R290) -/

/-- A trap report of an issue cause. -/
def issueFault (cause : Nat) (addr : Nat) : TrapInfo :=
  { TrapInfo.zero with cause := BitVec.ofNat 9 cause, addr := BitVec.ofNat 55 addr }

/-- The causes that the die supervisor handles (R287). -/
def supervised (cause : Nat) : Bool :=
  cause == 0x0A4 || cause == 0x0A5 || (0x100 ≤ cause && cause ≤ 0x105) || cause == 0x1D0 || cause == 0x1D1
    || cause == 0x1D3

/-- A kind of stall in which the bench makes drain advances (R331). -/
def drainKind (kind : Nat) : Bool := [2, 5, 7, 8, 9].contains kind

/-- A bundle that waited has not issued, and its waits start anew (R104). The kind of the stall is kept while its drain advances go on (R331). -/
def Run.cutShort (r : Run) : Run :=
  { r with
    stall := none, face := none, waitEnd := none, precvEnd := none,
    drainFor := match r.stall with | some (k, _) => if drainKind k then some k else none | none => none }

/-- Issue stops for an event, and the wave drains (R288, R289). -/
def Run.stopFor (r : Run) (why : TrapInfo) : Run := { r.cutShort with phase := .drain { why with tpc := r.pc } }

/-- Issue stops for a pre-emption, and the wave drains (R282). -/
def Run.stopPreempt (r : Run) : Run := { r.cutShort with phase := .preempt }

/-- The wave has drained, or a capture is held, and every sequencer access has returned (R289, R290, R292). -/
def Run.settled (r : Run) (why : TrapInfo) : Bool := (r.flights.isEmpty || why.atCell) && r.loads.isEmpty

/-- The module die of a run. -/
def Run.die (r : Run) : Nat := dieOf r.head

/-- A run that has failed: issue is over, and what was in flight is dropped (R270, R283). -/
def State.closeRun (s : State) (r : Run) (cls unit addr : Nat) : State :=
  (s.updTask r.task (fun t => { t with phase := .failed cls unit addr })).setRun
    { r with phase := .ended, flights := [], kept := [], redo := false, stall := none, face := none, waitEnd := none,
             precvEnd := none, closing := none, ueStore := [], intr := false, preempt := false }

/-- The unit of a supervisor event: the detector of an uncorrectable error, or the task itself (R163, R304). Log entry 42: DEDUCED. -/
def State.eventUnit (s : State) (r : Run) (c va : Nat) : Nat :=
  let own := unitCode r.die 10 c
  if c == 0x105 || c == 0x1D1 || c == 0x0A5 then
    match (s.translate (.seq r.head) r.die r.ctx r.arrays va .read).1 with
    | .ok acc => s.detector acc own
    | .error _ => own
  else own

/-- A pending MEM.UE.STORE is recorded as the task fails (R297); a pending interrupt ends with the task. -/
def State.reportStores (s : State) (r : Run) : State :=
  (r.ueStore ++ (match r.saved with | some v => v.ueStore | none => [])).foldl
    (fun t va => (t.deadLetter r.die (t.dlrEntry va r.pc.toNat (t.eventUnit r 0x105 va) 0 r.head r.ctx 0x105)).raiseIsr r.ctx 2) s

/-- A run that fails, with what is still pending recorded. -/
def State.failRun (s : State) (r : Run) (cls unit addr : Nat) : State := (s.reportStores r).closeRun r cls unit addr

/-- The CLASS of a task that fails on a cause; `perm` says that a FACE.XLATE met a missing permission (R270, R298). Log entry 43: DEDUCED. -/
def faultClass (cause : Nat) (perm : Bool) : Nat :=
  if cause == 0x1D3 then 0x0B else if cause == 0x102 || (cause == 0x0A4 && perm) then 0x02
  else if cause == 0x0A4 || (0x100 ≤ cause && cause ≤ 0x104) then 0x01 else 0x10

/-- The supervisor fails the task on a cause (R293, R298). Log entry 48: DEDUCED. -/
def State.failFault (s : State) (r : Run) (why : TrapInfo) : State :=
  s.failRun r (faultClass why.cause.toNat why.perm) (unitCode r.die 10 why.cause.toNat) why.addr.toNat

/-! ## The user handler (R293 to R295) -/

/-- The offset of the frame in the head array's face store, when the whole of it lies in the scratchpad (R293). -/
def State.frameOff (s : State) (r : Run) : Option Nat :=
  let a := r.trap.tfp.toNat
  if windowBase + 0x300000 ≤ a && a + 0x240 ≤ windowBase + spadEnd (s.arr r.head).spad then some (a - windowBase) else none

/-- The trap frame (R293). -/
def Run.frameBytes (r : Run) : List Byte :=
  let marks := (span 1 63).foldl (fun m n => if (r.sreg n).poison.isSome then m + 2 ^ n else m) 0
  (span 1 63).flatMap (fun n => leBytes 8 (r.sval n).toNat) ++ leBytes 8 marks
    ++ leBytes 8 (r.q.toNat / 2 * 2) ++ List.replicate 56 0

/-- The rotation bases of the cells of a bench, where they are not 0. -/
def State.basesOf (s : State) (r : Run) : List (Nat × Nat × Nat × Nat) :=
  r.arrays.zipIdx.flatMap (fun a =>
    (s.arr a.1).cells.filterMap (fun c =>
      if c.2.gbase == 0 && c.2.pbase == 0 then none else some (a.2, c.1, c.2.gbase, c.2.pbase)))

/-- What a trap saves for its return (R239, R290, R296). -/
def State.saveOf (s : State) (r : Run) : Saved :=
  { flights := r.flights, kept := r.kept, redo := r.redo, mute := r.mute, fmt := r.fmt, fmtPend := r.fmtPend, semPend := r.semPend,
    flags := r.flags, records := r.records, exits := r.exits, rg := r.rg, rs := r.rs, sbase := r.sbase,
    bases := s.basesOf r, skew := r.skew, blanks := r.blanks, tag := r.tag, num := r.num, issued := r.issued,
    vadvs := r.vadvs, levels := r.levels, depth := r.depth, docket := r.docket, arrived := r.arrived, closing := r.closing,
    ueStore := r.ueStore }

/-- The trap is taken by the task's handler (R293, R294). It sees none of the task's flag records: a WAITF of the handler does not wait for one that
the task has made and that is not readable yet, of which R48 says nothing (log entry 78, DESIGN CHOICE). -/
def State.enterHandler (s : State) (r : Run) (why : TrapInfo) (off : Nat) : State :=
  let s1 := (s.storeWrite r.head off r.frameBytes).1
  let async := bit why.cause 8 && why.async
  s1.setRun
    { r with
      phase := .issue, saved := some (s.saveOf r), flights := [], kept := [], redo := false, mute := false, records := [],
      fmtPend := [], semPend := [], issued := [], blanks := 0, tag := none, base := r.depth, stall := none, face := none,
      arrived := none, closing := none, ueStore := [],
      waitEnd := none, precvEnd := none, intr := if why.cause == 0x1F0 then false else r.intr,
      pc := r.trap.tvec.extractLsb' 0 55,
      trap := { r.trap with
        info := { why with async := async }, active := true, cap := !r.flights.isEmpty,
        tbun := BitVec.ofNat 64 r.num, ncap := BitVec.ofNat 9 r.flights.length, tpc := why.tpc.zeroExtend 64 } }

/-- The trap is taken: by the handler of the task, or, where it has none that can take it, by the supervisor, which fails the
task (R293, R295). Log entry 48: DEDUCED. -/
def State.takeTrap (s : State) (r : Run) (why : TrapInfo) : State :=
  match s.frameOff r with
  | some off =>
    if r.trap.tvec != 0 && !r.trap.active then s.enterHandler r why off else s.failFault r why
  | none => s.failFault r why

/-! ## The return (R296) -/

/-- What a run does when it goes on: it issues, unless its DONE or YIELD has issued (R119). -/
def goOn (closing : Option Bool) : Phase :=
  match closing with | none => .issue | some true => .ended | some false => .yielded

/-- Every cell of a bench changed. -/
def State.mapCells (s : State) (r : Run) (f : Nat → Nat → Cell → Cell) : State :=
  r.arrays.zipIdx.foldl
    (fun t a =>
      let x := t.arr a.1
      t.setArr a.1 { x with cells := x.cells.map (fun c => (c.1, f a.2 c.1 c.2)) }) s

/-- The row bases as a trap saved them (R239); entries of the handler leave the neighbour histories. -/
def State.restoreBases (s : State) (r : Run) (bs : List (Nat × Nat × Nat × Nat)) : State :=
  s.mapCells r (fun m k c =>
    let c1 := { c with hist := c.hist.filter (fun h => !h.handler) }
    match bs.find? (fun b => b.1 == m && b.2.1 == k) with
    | some b => { c1 with gbase := b.2.2.1, pbase := b.2.2.2 }
    | none => { c1 with gbase := 0, pbase := 0 })

/-- The s and q registers of a frame loaded (R296 step 4). -/
def Run.loadFrame (r : Run) (bs : List Byte) : Run :=
  let marks := leNat ((bs.drop 0x1F8).take 8)
  let r1 := (span 1 63).foldl
    (fun (t : Run) n =>
      let v : DWord := BitVec.ofNat 64 (leNat ((bs.drop (8 * (n - 1))).take 8))
      let p := t.sPhys n
      let old := vget t.s p (SReg.of 0)
      let x : SReg := if marks / 2 ^ n % 2 == 1 then ⟨v, false, some (old.poison.getD .ue)⟩ else SReg.of v
      { t with s := vset t.s p x }) r
  { r1 with q := BitVec.ofNat 8 (leNat ((bs.drop 0x200).take 1)) ||| 1 }

/-- After a return, the elements that faulted are fetched again, with the faults of other cells (R169, R290). Log entry 41: DEDUCED. -/
def State.refetchFaces (s : State) (r : Run) : State :=
  r.arrays.foldl (fun t a => (t.setFace a 0 (t.face a 0).refetch).setFace a 1 (t.face a 1).refetch) s

/-- Raises of the handler's bundles that are not in XFLAGS yet: they still come there after the return (R84). Their records stand apart from
those of bundles to come. The latency L of such a raise goes on to be counted in the bundles that the task issues after the return, and the
bundle of the RFT is not one of them (log entry 72, DEDUCED). -/
def Run.lateRaises (r : Run) : List Record :=
  (r.records.filter (fun c => c.raises != 0)).map (fun c => { c with num := c.num + 2 ^ 64, flags := none, exit := none })

/-- The return from a trap: what it saved is put back, and issue resumes at TPC (R296 steps 4 to 7). Log entry 46: DEDUCED. A result of the handler
that has not landed yet goes on to its landing over the task's steps after the return: R39 gives no step for it, since the task takes its
numbers back (log entry 78, DESIGN CHOICE). -/
def State.returnTrap (s : State) (r : Run) (v : Saved) (frame : List Byte) : State :=
  let r1 := { r with
    rs := v.rs, sbase := v.sbase, rg := v.rg, fmt := v.fmt, fmtPend := v.fmtPend, semPend := v.semPend, flags := v.flags,
    records := v.records ++ r.lateRaises, exits := v.exits, skew := v.skew, blanks := v.blanks, tag := v.tag, num := v.num,
    issued := v.issued, vadvs := v.vadvs, levels := v.levels, depth := v.depth, docket := v.docket, arrived := v.arrived, closing := v.closing,
    flights := v.flights, kept := v.kept, redo := v.redo, mute := v.mute, base := 0, saved := none, stall := none, face := none,
    waitEnd := none, precvEnd := none,
    phase := goOn v.closing, ueStore := r.ueStore ++ v.ueStore,
    pc := r.trap.tpc.extractLsb' 0 55, trap := { r.trap with active := false, cap := false } }
  ((s.restoreBases r v.bases).refetchFaces r).setRun (r1.loadFrame frame)

/-! ## The supervisor (R298) -/

/-- A supervisor cause: recorded, its event raised to the host, and the task held; or failed at once where the cause is never
resumed (R298, R304, R317). Log entry 53: DEDUCED. -/
def State.takeSupervisor (s : State) (r : Run) (why : TrapInfo) : State :=
  let c := why.cause.toNat
  let s1 := s.deadLetter r.die (s.dlrEntry why.addr.toNat why.tpc.toNat (s.eventUnit r c why.addr.toNat) 0 r.head r.ctx c)
  let s2 := s1.raiseIsr r.ctx 2
  let r := if c == 0x105 then { r with ueStore := r.ueStore.drop 1 } else r
  if r.trap.active && why.atCell then s2.failRun r 0x10 (unitCode r.die 10 c) why.addr.toNat
  else if c == 0x105 || c == 0x0A4 || (0x100 ≤ c && c ≤ 0x104) then
    s2.setRun { r with phase := .held why s.ticks }
  else s2.failFault r why

/-- The supervisor resumes a held task: issue goes on, and a withdrawn advance is made again (R169, R296, R298). -/
def State.resumeHeld (s : State) (r : Run) : State := (s.refetchFaces r).setRun { r with phase := goOn r.closing }

end Sys2Proof.Machine
end

