-- ==== Sys2Proof/Machine/Seq.lean ====
section
/-!
DEFINITION. What the sequencer slots of a bundle work on (09_sequencer_isa.md R100 to R104): they read the run as it stood before
the bundle, and what they do gathers in one record. Also the accesses of the sequencer, its releases and acquires
(19_memory.md R254 to R265, 20_memory_notes.md R266), and the coherence of registers with outstanding loads (01_machine.md R22).
-/

namespace Sys2Proof.Machine

/-- What the slots of a bundle have done so far: memory and module, the run, the target of a taken transfer, the tag of the
next bundle, whether a LOOP or LOOPS with count 0 asks for the back-edge decision, how the run ends, whether it returns from
a trap, the sizes that ROTCFG sets, and how a wait has ended at this attempt. -/
structure Ctl where
  s : State
  r : Run
  jump : Option Nat
  tag : Option Tag
  back : Bool
  ending : Option Phase
  rft : Bool
  rot : Option (Nat × Nat)
  judged : Option Bool

/-- The outcome of one slot at issue: done; a sequencer fault (R102); or a wait of a kind (`Run.stall`), with what the
wait itself has done. -/
inductive Res where
  | ok (c : Ctl)
  | fault (t : TrapInfo)
  | wait (kind : Nat) (c : Ctl)

/-- One slot: the run before the bundle, and the bundle so far. -/
abbrev Slot := Run → Ctl → Res

/-- A fault of a cause without an address. -/
def Res.raise (cause : Nat) : Res := .fault (issueFault cause 0)

/-- The next step, when this one is done. -/
def Res.andThen (x : Res) (f : Ctl → Res) : Res :=
  match x with
  | .ok c => f c
  | .fault t => .fault t
  | .wait k c => .wait k c

/-- The bundle's run changed. -/
def Ctl.upd (c : Ctl) (f : Run → Run) : Ctl := { c with r := f c.r }

/-- A write to an s register. -/
def Ctl.setS (c : Ctl) (d : BitVec 6) (v : DWord) : Res := .ok (c.upd (fun r => r.setS d.toNat v))

/-- A write to a q register. -/
def Ctl.setQ (c : Ctl) (q : BitVec 3) (b : Bool) : Ctl := c.upd (fun r => r.setQ q.toNat b)

/-- An s register as it stood before the bundle. -/
def Run.x (old : Run) (n : BitVec 6) : DWord := old.sval n.toNat

/-- A result of a slot under its guard: nothing when the guard is false (R101). -/
def guarded (g : QGuard) (f : Slot) : Slot := fun old c => if old.guard g then f old c else .ok c

/-- The ticks since the slots of the bundle began to wait (R104). -/
def Ctl.waited (c : Ctl) (old : Run) : Nat :=
  match old.stall with
  | some (k, since) => if k == 0 then 0 else c.s.ticks - since
  | none => 0

/-- A wait (R104): with its condition met it goes on as `met` with q = 0; with its timeout run out, with q = 1 and nothing else; else issue
stalls, by the kind of the wait. `gone` is what a timeout undoes, as it runs out. A wait that has ended as `ended` says, while something else
withheld its bundle, stays as it ended. -/
def Ctl.awaitAs (c : Ctl) (ended : Option Bool) (kind : Nat) (old : Run) (t : BitVec 6) (q : BitVec 3) (cond : Bool) (met : Ctl)
    (gone : Ctl → Ctl) : Res :=
  match ended with
  | some true => .ok (met.setQ q false)
  | some false => .ok (c.setQ q true)
  | none =>
    if cond then .ok ({ met with judged := some true }.setQ q false)
    else if (old.x t).toNat ≤ c.waited old then .ok ({ gone c with judged := some false }.setQ q true)
    else .wait kind c

/-- A wait of S0. -/
def Ctl.awaitKind (c : Ctl) (kind : Nat) (old : Run) (t : BitVec 6) (q : BitVec 3) (cond : Bool) (met : Ctl) (gone : Ctl → Ctl) : Res :=
  c.awaitAs old.waitEnd kind old t q cond met gone

/-- A wait of S0 during which the wave stands still. -/
def Ctl.await (c : Ctl) (old : Run) (t : BitVec 6) (q : BitVec 3) (cond : Bool) (met : Ctl) : Res := c.awaitKind 1 old t q cond met id

/-! ## Accesses of the sequencer -/

/-- The sequencer as an agent. -/
def Run.agent (r : Run) : Agent := .array r.head (whoSeq r.head)

/-- A translation by the sequencer (R242 to R250). -/
def Ctl.translate (c : Ctl) (va : Nat) (need : Need) : Except Nat Access × Ctl :=
  let t := c.s.translate (.seq c.r.head) c.r.die c.r.ctx c.r.arrays va need
  (t.1, { c with s := t.2 })

/-- The fault of an address that does not translate. -/
def Res.xlate (cause va : Nat) : Res := .fault (issueFault (if cause == xUe then 0x1D1 else cause) va)

/-- The access at an address of an aligned operand of `n` bytes, handed on, or the fault of R126 and R249. -/
def Ctl.access (c : Ctl) (va : DWord) (n : Nat) (need : Need) (f : Access → Ctl → Res) : Res :=
  let a := va.toNat % 2 ^ 55
  if a % n ≠ 0 then .fault (issueFault 0x002 a)
  else match c.translate a need with
    | (.error e, _) => .xlate e a
    | (.ok acc, c1) => f acc c1

/-- Load data for a name: written at once when it comes from the scratchpad or L1, otherwise outstanding (R22, R126).
Log entry 58: DESIGN CHOICE. -/
def Run.loadTo (r : Run) (d : BitVec 6) (acc : Access) (v : DWord) (poison : Option Poison) (near : Bool) : Run :=
  if d == 0 then r
  else
    let p := r.sPhys d.toNat
    if near then
      match poison with
      | none => r.setS d.toNat v
      | some q =>
        let r1 := r.setS d.toNat v
        { r1 with s := vset r1.s p ⟨(vget r.s p (SReg.of 0)).val, false, some q⟩ }
    else
      let r1 := r.emptyS d.toNat
      { r1 with loads := r1.loads ++ [⟨some p, acc, v, poison, r.trap.active⟩] }

/-- The bytes of a read as a register. -/
def wordOf (bs : List Byte) : DWord := BitVec.ofNat 64 (leNat bs)

/-! ## Releases and acquires (R256, R257, R266) -/

/-- An access is ordered by releases and acquires as a synchronising write: to an RC or SO page, or to the bench window, which is of kind
RC (R243, R256). -/
def Access.syncs : Access → Bool
  | .store _ _ ord => ord != 2
  | .mem _ ord _ _ _ => ord != 2

/-- A line that the agent wrote. -/
def Ctl.wrote (c : Ctl) (acc : Access) : Ctl :=
  match acc.line? with
  | some l => c.upd (fun r => { r with wrote := wroteAdd r.wrote l })
  | none => c

/-- The scope of a release, widened to that of a waiting REL, which it serves (R256). -/
def Run.relScope (r : Run) (scope : Nat) : Nat := max scope (r.rel.getD scope)

/-- The frank of a release at a scope: the lines that the agent wrote or acquired since its last release there (R256, R266). -/
def Run.frankAt (r : Run) (scope : Nat) : List Nat := setUnion (wroteAt r.wrote (r.relScope scope)) r.relFrank

/-- The run after a release at a scope. -/
def Run.released (r : Run) (scope : Nat) : Run := { r with wrote := wroteClear r.wrote (r.relScope scope), rel := none, relFrank := [] }

/-- What a release does to memory: its lines are written back below the point, and the bench's other arrays that the scope includes lose
stale copies, since their faces fork after it (R256, R260). -/
def State.releaseAt (s : State) (r : Run) (scope : Nat) : State :=
  (s.releaseLines r.head (r.relScope scope) (wroteAt r.wrote (r.relScope scope))).forkLines r.head r.arrays (r.relScope scope) (r.frankAt scope)

/-- A release at a scope: its frank, and what it leaves (R256). -/
def Ctl.release (c : Ctl) (scope : Nat) : List Nat × Ctl :=
  (c.r.frankAt scope, { c with s := c.s.releaseAt c.r scope, r := c.r.released scope })

/-- A frank attached to a synchronising write, which is made at the scope's point; a write to a UO page carries none (R251, R256). -/
def Ctl.sync (c : Ctl) (scope : Nat) (frank : List Nat) (acc : Access) : Ctl :=
  let s1 := match acc.line? with | some l => c.s.cleanBelow c.r.head scope l | none => c.s
  { c with s := if acc.syncs then s1.attach acc.place frank else s1 }

/-- An acquire at a scope that took a frank: stale copies go, and what it names counts as written (R257, R266). -/
def Ctl.acquire (c : Ctl) (scope : Nat) (frank : List Nat) : Ctl :=
  let s1 := c.s.acquireLines c.r.head scope frank
  { c with s := s1, r := { c.r with wrote := frank.foldl wroteAdd c.r.wrote } }

/-- A read of at most one line at a scope's point. -/
def Ctl.pointRead (c : Ctl) (scope : Nat) (acc : Access) (n : Nat) : ReadOut × Ctl :=
  let s1 := match acc.line? with | some l => c.s.dropBelow c.r.head scope l | none => c.s
  let o := s1.read c.r.agent acc n
  (o, { c with s := o.st })

/-- The acquire of the frank that the place of an access carries (R257): of memory or of a face store, on a page of any kind, since only
synchronising writes and receipts attach franks (R256, R260). -/
def Ctl.take (c : Ctl) (scope : Nat) (acc : Access) : Ctl := c.acquire scope (c.s.frankOf acc.place)

/-- An acquire read of at most one line: the read at the scope's point, and the acquire of its frank (R257). -/
def Ctl.acquireRead (c : Ctl) (scope : Nat) (acc : Access) (n : Nat) : ReadOut × Ctl :=
  let (o, c1) := c.pointRead scope acc n
  (o, c1.take scope acc)

/-- A store's write with its asynchronous error (R126): the granule is poisoned. -/
def Ctl.store (c : Ctl) (acc : Access) (va : Nat) (bs : List Byte) : Ctl :=
  match c.s.write c.r.agent acc bs with
  | (s1, some _) =>
    let c1 := { c with s := s1.mark acc }
    c1.upd (fun r => { r with ueStore := r.ueStore ++ [va % 2 ^ 55 / 32 * 32] })
  | (s1, none) => Ctl.wrote { c with s := s1.own c.r.head acc ⟨whoSeq c.r.head, c.r.task, va % 2 ^ 55 / 64 * 64⟩ } acc

/-- A write that serves a waiting REL as its synchronising write (R256). -/
def Ctl.serve (c : Ctl) (acc : Access) : Ctl :=
  match c.r.rel with
  | some sc =>
    if acc.syncs then (c.sync sc c.r.relFrank acc).upd (fun r => { r with rel := none, relFrank := [] }) else c
  | none => c

/-- A store that may serve a waiting REL (R256). -/
def Ctl.syncStore (c : Ctl) (acc : Access) (va : Nat) (bs : List Byte) : Ctl := (c.store acc va bs).serve acc

end Sys2Proof.Machine
end

