-- ==== Sys2Proof/Machine/Commands.lean ====
section
/-!
DEFINITION. The face slots S5 and S6 at issue (13_faces_engines.md R160 to R162, R173, R174, R177, R179): descriptors, checks, and
the commands put in the logs of the faces under the stamp of their bundle.
-/

namespace Sys2Proof.Machine

/-- The cause of a sequencer read that met poison (R162, R287). -/
def poisonFault (p : Poison) : Nat := match p with | .ue => 0x1D1 | .keyDead => 0x1D3

/-- A descriptor of `n` bytes, at most a line, read at issue (R162). -/
def Ctl.descriptor (c : Ctl) (va : DWord) (n : Nat) (f : List Byte → Ctl → Res) : Res :=
  c.access va n .read (fun acc c =>
    let o := c.s.read c.r.agent acc n
    match o.poison with
    | some p => .fault (issueFault (poisonFault p) (va.toNat % 2 ^ 55))
    | none => f o.bytes { c with s := o.st })

/-- The faces of a side that a command acts on, by array: every array of the bench for the west, north and east (R173); the tail
alone for the south, whose cells alone push there (R43; log entry 13, DEDUCED). -/
def Run.facesOf (r : Run) (side : Nat) : List Nat := if side == 3 then r.arrays.drop (r.arrays.length - 1) else r.arrays

/-- A face command: it checks every face that it acts on, and then acts on each (R173). -/
def Ctl.faces (c : Ctl) (side : Nat) (ok : Face → Bool) (f : Face → Face) : Res :=
  let l := c.r.facesOf side
  if l.all (fun a => ok (c.s.face a side)) then
    .ok { c with s := l.foldl (fun s a => s.setFace a side (f (s.face a side))) c.s }
  else .raise 0x0A6

/-- The side of an inject face: west or north. -/
def injSide (f : Bool) : Nat := if f then 1 else 0
/-- The side of a drain face: east or south. -/
def drnSide (f : Bool) : Nat := if f then 3 else 2

/-! ## S5 (R173, R174) -/

def ficfgSlot (g : QGuard) (a : BitVec 6) (f : Bool) : Slot :=
  guarded g (fun old c =>
    c.faces (injSide f) (fun _ => old.x a >>> 1 == 0) (fun x => x.cfg old.stamp (bit (old.x a) 0)))

def figoSlot (g : QGuard) (f b : Bool) : Slot :=
  guarded g (fun old c => c.faces (injSide f) (fun x => x.goOk b) (fun x => x.go old.stamp b))

def fihaltSlot (g : QGuard) (f : Bool) : Slot :=
  guarded g (fun old c => c.faces (injSide f) (fun _ => true) (fun x => x.add old.stamp .halt))

def fipadSlot (g : QGuard) (a : BitVec 6) (f : Bool) (m : BitVec 2) : Slot :=
  guarded g (fun old c =>
    let put (ok : Bool) (e : VPair) : Res := c.faces (injSide f) (fun _ => ok) (fun x => x.add old.stamp (.pad e))
    match m.toNat with
    | 0 => put true (pairOf (old.x a).toNat)
    | 1 => put (old.x a >>> 4 == 0) (padZero old.fmt (old.entry (old.x a).toNat) f)
    | _ => put true VPair.zero)

def fiselSlot (g : QGuard) (f : Bool) (q : BitVec 3) : Slot :=
  guarded g (fun old c =>
    let b := old.qval q.toNat
    c.faces (injSide f) (fun x => x.bank0.isSome && x.bank1.isSome && x.goOk b) (fun x => x.sel old.stamp b))

/-- The 64-bit words of a descriptor. -/
def descWords (bs : List Byte) : List Nat := leWords 8 8 bs

def fiqbSlot (g : QGuard) (a t : BitVec 6) (f b : Bool) : Slot :=
  guarded g (fun old c =>
    c.descriptor (old.x a) 64 (fun bs c =>
      let pat (x : Face) : Option Pattern := parsePattern (descWords bs) x.src false
      c.faces (injSide f) (fun x => (pat x).isSome) (fun x =>
        match pat x with
        | some p => x.load b p ((old.x t).extractLsb' 0 48)
        | none => x)))

/-! ## S6 (R177, R179) -/

def fdcfgSlot (g : QGuard) (a : BitVec 6) (f : Bool) : Slot :=
  guarded g (fun old c =>
    c.descriptor (old.x a) 64 (fun bs c =>
      match parsePattern (descWords bs) true true with
      | some p => c.faces (drnSide f) (fun _ => true) (fun x => { x with pending := some p })
      | none => .raise 0x0A6))

def fdgoSlot (g : QGuard) (f : Bool) : Slot :=
  guarded g (fun old c => c.faces (drnSide f) Face.drainGoOk (fun x => x.drainGo old.stamp))

def fdhaltSlot (g : QGuard) (f : Bool) : Slot :=
  guarded g (fun old c => c.faces (drnSide f) (fun _ => true) (fun x => x.add old.stamp .halt))

def fdchainSlot (g : QGuard) (a : BitVec 6) (f : Bool) : Slot :=
  guarded g (fun old c =>
    c.descriptor (old.x a) 64 (fun bs c =>
      match parseChain bs old.fmt with
      | some ch => c.faces (drnSide f) (fun _ => true) (fun x => x.add old.stamp (.chain ch))
      | none => .raise 0x0A6))

/-- One receipt for the faces that the command acts on; each keeps its counts (R179). -/
def fdflushSlot (g : QGuard) (a : BitVec 6) (f : Bool) : Slot :=
  guarded g (fun old c =>
    let va := (old.x a).toNat % 2 ^ 55
    c.access (old.x a) 16 .write (fun acc c =>
      c.faces (drnSide f) (fun _ => true) (fun x => x.flush old.stamp acc va old.head old.ctx)))

/-- The inject slot of a bundle. -/
def injectSlot : Instr → Slot
  | .ficfg g a f => ficfgSlot g a f
  | .figo g f b => figoSlot g f b
  | .fihalt g f => fihaltSlot g f
  | .fipad g a f m => fipadSlot g a f m
  | .fisel g f q => fiselSlot g f q
  | .fiqb g a t f b => fiqbSlot g a t f b
  | _ => fun _ c => .ok c

/-- The drain slot of a bundle. -/
def drainSlotOf : Instr → Slot
  | .fdcfg g a f => fdcfgSlot g a f
  | .fdgo g f => fdgoSlot g f
  | .fdhalt g f => fdhaltSlot g f
  | .fdchain g a f => fdchainSlot g a f
  | .fdflush g a f => fdflushSlot g a f
  | _ => fun _ c => .ok c

end Sys2Proof.Machine
end

