-- ==== Sys2Proof/Machine/Barrier.lean ====
section
/-!
DEFINITION. Barriers (09_sequencer_isa.md R114, 19_memory.md R261, 25_device.md R317): arrivals, withdrawal, completion.
-/

namespace Sys2Proof.Machine

/-- The instance of a scope that a bench lies in, by its head (R12). -/
def barInst (scope head : Nat) : Nat := if scope == 1 then head / 4 else if scope == 2 then dieOf head else 0

/-- An open generation: nobody has completed in it yet. -/
def Barrier.isOpen (b : Barrier) : Bool := b.done.isEmpty

/-- The barrier of a scope instance, for tasks of one context. -/
def Barrier.at (b : Barrier) (ctx scope inst : Nat) : Bool := b.ctx == ctx && b.scope == scope && b.inst == inst

/-- The open generation that an arrival joins. -/
def State.openBar (s : State) (ctx scope head : Nat) : Option Barrier :=
  s.barriers.find? (fun b => b.isOpen && b.at ctx scope (barInst scope head))

/-- A generation whose arrivals have reached their count; host arrivals alone complete none (R317). -/
def Barrier.full (b : Barrier) : Bool :=
  b.isOpen && !b.arrived.isEmpty && b.count.toNat ≤ b.arrived.length + b.hosts

/-- A full generation completes: every participant may go on, with the franks of all. Host arrivals beyond the count open the
next generation. A .sys generation is counted and reported to the host (R317). Log entry 45: DEDUCED. -/
def State.completeBar (s : State) (i : Nat) : State :=
  match s.barriers[i]? with
  | none => s
  | some b =>
    if !b.full then s
    else
      let b1 := { b with done := b.arrived.map (·.1), frank := b.arrived.foldl (fun f a => setUnion f a.2) [], hosts := 0 }
      let more := b.arrived.length + b.hosts - b.count.toNat
      let next : List Barrier := if more == 0 then [] else [{ b with arrived := [], count := 0, hosts := more }]
      let s1 := { s with barriers := s.barriers.set i b1 ++ next }
      if b.scope != 5 then s1
      else match s1.context b.ctx with
        | none => s1
        | some c => (s1.setContext { c with barGen := c.barGen + 1 }).raiseIsr b.ctx 3

/-- Every full generation completed. -/
def State.completeBars (s : State) : State :=
  match s.barriers.findIdx? Barrier.full with
  | some i => s.completeBar i
  | none => s

/-- The participant that a run is at barriers: its task, and apart from it the handler of a trap that it has taken (R114, R295).
Log entry 45: DEDUCED. -/
def Run.party (r : Run) : Nat := 2 * r.task + b2n r.trap.active

/-- An arrival of a participant whose bench has a head, with its count and the frank of its release. Log entry 45: DEDUCED. -/
def State.arriveBar (s : State) (ctx scope head party : Nat) (count : BitVec 32) (frank : List Nat) : State :=
  let mine (b : Barrier) : Bool := b.isOpen && b.at ctx scope (barInst scope head)
  let s1 : State :=
    if s.barriers.any mine then
      { s with barriers := listUpd s.barriers mine (fun b =>
          { b with count := if b.arrived.isEmpty then count else b.count, arrived := b.arrived ++ [(party, frank)] }) }
    else
      { s with barriers := s.barriers ++
          [{ ctx := ctx, scope := scope, inst := barInst scope head, count := count, arrived := [(party, frank)], hosts := 0,
             done := [], frank := [] }] }
  s1.completeBars

/-- A host arrival at the .sys barrier of a context (R317). Log entry 45: DEDUCED. -/
def State.hostArrive (s : State) (ctx : Nat) : State :=
  let mine (b : Barrier) : Bool := b.isOpen && b.at ctx 5 0
  let s1 : State :=
    if s.barriers.any mine then
      { s with barriers := listUpd s.barriers mine (fun b => { b with hosts := b.hosts + 1 }) }
    else
      { s with barriers := s.barriers ++
          [{ ctx := ctx, scope := 5, inst := 0, count := 0, arrived := [], hosts := 1, done := [], frank := [] }] }
  s1.completeBars

/-- An arrival withdrawn from a generation that has not completed (R114). Log entry 45: DEDUCED. -/
def State.withdrawBar (s : State) (party : Nat) : State :=
  let out (b : Barrier) : Barrier := { b with arrived := if b.isOpen then b.arrived.filter (fun a => a.1 != party) else b.arrived }
  let left := (s.barriers.map out).filter (fun b => !(b.arrived.isEmpty && b.hosts == 0))
  { s with barriers := left }

/-- The completed generation that a participant may leave. -/
def State.doneBar (s : State) (party : Nat) : Option Barrier := s.barriers.find? (fun b => b.done.contains party)

/-- A participant leaves its completed generation. -/
def State.leaveBar (s : State) (party : Nat) : State :=
  let out (b : Barrier) : Option Barrier :=
    let d := b.done.filter (· != party)
    if b.isOpen then some b else if d.isEmpty then none else some { b with done := d }
  let left := s.barriers.filterMap out
  { s with barriers := left }

/-- No barrier holds a participant any more: it takes no part in an earlier generation when it arrives anew, or ends. Log entry 45: DEDUCED. -/
def State.quitBar (s : State) (party : Nat) : State := (s.withdrawBar party).leaveBar party

/-- The barriers without a task that has ended, and without its handler. Log entry 45: DEDUCED. -/
def State.quitTask (s : State) (task : Nat) : State := (s.quitBar (2 * task)).quitBar (2 * task + 1)

/-- What the arrival of a BAR has released, taken back with the arrival: the next release carries it (R104, R114, R256). Log entry 45: DEDUCED. -/
def Run.unarrive (r : Run) : Run :=
  match r.arrived with
  | none => r
  | some o =>
    { r with
      arrived := none, wrote := o.wrote.foldl (fun w e => tabPut w e.1 (tabGet 0 w e.1 ||| e.2)) r.wrote,
      rel := match o.rel, r.rel with | some a, some b => some (max a b) | x, y => x.or y, relFrank := setUnion o.relFrank r.relFrank }

/-- The arrival of a stopped wait is withdrawn: its bundle has not issued and arrives anew (R104). A generation that has
completed keeps it. Log entry 45: DEDUCED. -/
def State.stopBar (s : State) (r : Run) : State × Run :=
  if r.arrived.isNone || (s.doneBar r.party).isSome then (s, r) else (s.withdrawBar r.party, r.unarrive)

end Sys2Proof.Machine
end

