-- ==== Sys2Proof/Machine/System.lean ====
section
/-!
DEFINITION. The system registers (09_sequencer_isa.md R121, R132, R133, 23_traps.md R294): what SYSRD reads and what SYSWR writes.
-/

namespace Sys2Proof.Machine

/-- The bench word of s3 and BENCH (R24). -/
def benchWord (head shape : Nat) : DWord := BitVec.ofNat 64 (head % 64 + shape % 4 * 2 ^ 8)

/-- The quadrant that holds an array (R323). -/
def State.quadOf (s : State) (a : Nat) : Quadrant := vget (s.die (dieOf a)).quads (a % 16 / 4) Quadrant.reset

/-- XFLAGS (R84). -/
def xflagsWord (x : BitVec 5) : DWord := x.zeroExtend 64

/-- FECTL (R133). -/
def Run.fectl (r : Run) : DWord := (r.feq ++ r.fetmo : BitVec 35).zeroExtend 64

/-- FLAGS and FLAGROW (R133). -/
def Flags.word (f : Flags) : DWord := BitVec.ofNat 64 (2 * b2n f.any + b2n f.all)
def Flags.rows (f : Flags) : DWord := mkD f.rowAnd f.rowOr

/-- A register of a loop level: A, B, C or D (R133). -/
def Level.word (l : Level) (k : Nat) : DWord :=
  match k with
  | 0 => mkD l.index l.count
  | 1 => l.start.zeroExtend 64
  | 2 => l.stop.zeroExtend 64
  | _ => BitVec.ofNat 64 (128 * b2n l.isOpen + 16 * l.rot.toNat + l.stages.toNat)

/-- TCAUSE (R294). -/
def Run.tcause (r : Run) : DWord :=
  let i := r.trap.info
  (i.smask ++ i.ucode ++ (0 : BitVec 4) ++ BitVec.ofBool r.trap.active ++ BitVec.ofBool r.trap.cap
    ++ BitVec.ofBool i.async ++ BitVec.ofBool r.intr ++ (0 : BitVec 7) ++ i.cause : BitVec 40).zeroExtend 64

/-- TCELL (R294). -/
def TrapInfo.cell (i : TrapInfo) : DWord :=
  (i.cellArr ++ (0 : BitVec 3) ++ i.cellRow ++ BitVec.ofBool i.cellSlot ++ (0 : BitVec 2) ++ i.cellCol : BitVec 19).zeroExtend 64

/-- The latches that a row holds; those of a handler do not count as held (R291, R295). -/
def State.rowLatches (s : State) (r : Run) (m i : Nat) : Nat :=
  ((List.range 32).map (fun j => ((s.cellAt r m i j).latches.filter (fun l => !l.handler)).length)).sum

/-- TROW: the row that TRSEL selects; 0 for an array that the bench lacks (R294). Log entry 50: DEDUCED. -/
def State.trow (s : State) (r : Run) : DWord :=
  let m := r.trap.trselArr.toNat
  let i := r.trap.trselRow.toNat
  match r.arrays[m]? with
  | none => 0
  | some a =>
    let c := s.cellAt r m i 0
    let w := r.trap.info
    let fault := w.atCell && w.cellArr.toNat == m && w.cellRow.toNat == i
    (BitVec.ofBool fault ++ (0 : BitVec 6) ++ BitVec.ofNat 9 (s.rowLatches r m i) ++ (0 : BitVec 5)
      ++ BitVec.ofNat 3 c.pbase ++ (0 : BitVec 3) ++ BitVec.ofNat 5 c.gbase ++ tabGet 0 (s.arr a).front i : BitVec 64)

/-- A trap register (R294). -/
def State.trapReg (s : State) (r : Run) (n : Nat) : DWord :=
  let t := r.trap
  match n with
  | 0 => t.tvec
  | 1 => t.tfp
  | 2 => r.tcause
  | 3 => t.tpc
  | 4 => t.info.addr.zeroExtend 64
  | 5 => t.info.cell
  | 6 => (t.info.laneFace ++ t.info.lanes : BitVec 34).zeroExtend 64
  | 7 => t.tbun
  | 8 => (t.trselArr ++ (0 : BitVec 3) ++ t.trselRow : BitVec 11).zeroExtend 64
  | 9 => s.trow r
  | _ => t.ncap.zeroExtend 64

/-- What SYSRD reads (R132). BENCH stays as s3 was at task start, on whichever arrays the task goes on (R24, R280). -/
def State.sysRead (s : State) (r : Run) (n : Nat) : DWord :=
  if n < 0x010 then
    match n with
    | 0 => r.fmt.zeroExtend 64
    | 1 => xflagsWord r.xflags
    | 2 => r.rndseed
    | 3 => r.stallTmo.zeroExtend 64
    | 4 => r.fectl
    | 5 => r.lscope.zeroExtend 64
    | 6 => r.barn.zeroExtend 64
    | 7 => r.flags.word
    | _ => r.flags.rows
  else if n < 0x020 then
    (if n == 0x010 then BitVec.ofNat 64 r.ctx else r.bench)
  else if n < 0x030 then vget r.cstk (n - 0x020) 0
  else if n == 0x030 then BitVec.ofNat 64 r.csp
  else if n < 0x050 then (vget r.levels ((n - 0x040) / 4) Level.reset).word (n % 4)
  else if n == 0x050 then BitVec.ofNat 64 r.depth
  else if n < 0x064 then
    let q := s.quadOf r.head
    match n - 0x060 with
    | 0 => q.thresh.zeroExtend 64
    | 1 => q.stretch.zeroExtend 64
    | 2 => q.hold.zeroExtend 64
    | _ => q.count.zeroExtend 64
  else s.trapReg r (n - 0x100)

/-- The source holds an unassigned code in an RW field (R121, R132, R133). -/
def sysInvalid (n : Nat) (v : DWord) : Bool :=
  if n == 0x005 then 6 ≤ (fld v 0 3).toNat
  else if n == 0x006 then loW v == 0
  else if n == 0x030 then 16 < (fld v 0 5).toNat
  else (0x020 ≤ n && n < 0x030) && 5 ≤ (fld v 61 3).toNat

/-- What SYSWR writes (R121): RW fields take the source, W1C fields clear, the rest stays. -/
def Run.sysWrite (r : Run) (n : Nat) (v : DWord) : Run :=
  if n < 0x020 then
    match n with
    | 1 => { r with xflags := r.xflags &&& ~~~(v.extractLsb' 0 5) }
    | 2 => { r with rndseed := v }
    | 3 => { r with stallTmo := loW v }
    | 4 => { r with feq := v.extractLsb' 32 3, fetmo := loW v }
    | 5 => { r with lscope := v.extractLsb' 0 3 }
    | 6 => { r with barn := loW v }
    | _ => r
  else if n < 0x030 then { r with cstk := vset r.cstk (n - 0x020) (v &&& 0xE07FFFFFFFFFFFE0) }
  else if n == 0x030 then { r with csp := (fld v 0 5).toNat }
  else
    match n with
    | 0x100 => { r with trap := { r.trap with tvec := v &&& 0x007FFFFFFFFFFFE0 } }
    | 0x101 => { r with trap := { r.trap with tfp := v &&& 0x007FFFFFFFFFFFC0 } }
    | 0x103 => { r with trap := { r.trap with tpc := v &&& 0x007FFFFFFFFFFFE0 } }
    | 0x108 => { r with trap := { r.trap with trselArr := v.extractLsb' 8 3, trselRow := v.extractLsb' 0 5 } }
    | _ => r

def sysrdSlot (g : QGuard) (d : BitVec 6) (n : BitVec 12) : Slot :=
  guarded g (fun old c => c.setS d (c.s.sysRead old n.toNat))

def syswrSlot (g : QGuard) (a : BitVec 6) (n : BitVec 12) : Slot :=
  guarded g (fun old c =>
    if sysInvalid n.toNat (old.x a) then .raise 0x00A else .ok (c.upd (fun r => r.sysWrite n.toNat (old.x a))))

end Sys2Proof.Machine
end

