-- ==== Sys2Proof/Machine/Control.lean ====
section
/-!
DEFINITION. The control slot S0 but for the submission of tasks (09_sequencer_isa.md R105 to R123, 17_loops.md R225 to R239, 23_traps.md
R296, R302, R303): what each instruction does to the bundle's record.
-/

namespace Sys2Proof.Machine

/-! ## Control flow (R105 to R107) -/

/-- The innermost open level of the current loop frame (R239). -/
def Run.inner? (r : Run) : Option Level :=
  if r.base < r.depth then some (vget r.levels (r.depth - 1) Level.reset) else none

/-- The bundle number of an address (R23). -/
def bundleNo (a : Nat) : Nat := a % 2 ^ 55 / 32

/-- An address lies within the innermost body of the frame, or there is none (R237). -/
def Run.inBody (r : Run) (target : Nat) : Bool :=
  match r.inner? with
  | none => true
  | some l => l.start.toNat ≤ bundleNo target && bundleNo target ≤ l.stop.toNat

/-- The PC is at the END of the innermost body of the frame. -/
def Run.atEnd (r : Run) : Bool :=
  match r.inner? with
  | none => false
  | some l => bundleNo r.pc.toNat == l.stop.toNat

/-- A taken branch (R105, R237). -/
def Ctl.branch (c : Ctl) (old : Run) (target : Nat) : Res :=
  if old.inBody target then .ok { c with jump := some (target % 2 ^ 55) } else .raise 0x004

/-- A taken call (R106, R237). -/
def Ctl.doCall (c : Ctl) (old : Run) (target : Nat) : Res :=
  if old.csp == 16 then .raise 0x005
  else if !old.inBody target || old.atEnd then .raise 0x004
  else
    let entry : DWord := BitVec.ofNat 3 old.depth ++ (0 : BitVec 6) ++ (old.pc + 32)
    .ok { c.upd (fun r => { r with cstk := vset r.cstk old.csp entry, csp := old.csp + 1 }) with jump := some (target % 2 ^ 55) }

/-- The target of a relative branch (R105). -/
def Run.relative (r : Run) (o : BitVec 20) : Nat := wrap 55 (r.pc.toNat + 32 * o.toInt)

def brSlot (g : QGuard) (cond : BitVec 3) (o : BitVec 20) : Slot :=
  guarded g (fun old c => if flagCond old.flags cond.toNat then c.branch old (old.relative o) else .ok c)

/-- CALL (R106): one that is not taken does nothing, in the END bundle of a level too. Log entry 44: DEDUCED. -/
def callSlot (g : QGuard) (cond : BitVec 3) (o : BitVec 20) : Slot :=
  guarded g (fun old c => if flagCond old.flags cond.toNat then c.doCall old (old.relative o) else .ok c)

/-- An indirect target, which must be a multiple of 32 (R107). Of the faults of one CALLI, ALIGN comes first, then CALL.DEPTH, then the loop
nesting fault (log entry 44, DEDUCED). -/
def Run.indirect (old : Run) (a : BitVec 6) (f : Nat → Res) : Res :=
  let t := (old.x a).toNat % 2 ^ 55
  if t % 32 ≠ 0 then .fault (issueFault 0x002 t) else f t

def calliSlot (g : QGuard) (a : BitVec 6) : Slot := guarded g (fun old c => old.indirect a (c.doCall old))
def jmpiSlot (g : QGuard) (a : BitVec 6) : Slot := guarded g (fun old c => old.indirect a (c.branch old))

def retSlot (g : QGuard) : Slot :=
  guarded g (fun old c =>
    if old.csp == 0 then .raise 0x006
    else
      let e := vget old.cstk (old.csp - 1) 0
      if (fld e 61 3).toNat ≠ old.depth then .raise 0x004
      else .ok { c.upd (fun r => { r with csp := old.csp - 1 }) with jump := some (e.toNat % 2 ^ 55) })

/-! ## Loops (R225 to R236) -/

/-- A level opened with a count above 0 (R226). -/
def Ctl.openLevel (c : Ctl) (old : Run) (n stages : Nat) (rot : BitVec 3) (off : Nat) : Ctl :=
  let j := bundleNo old.pc.toNat
  let lv : Level :=
    { isOpen := true, count := BitVec.ofNat 32 (n - 1), index := 0, start := BitVec.ofNat 50 (j + 1),
      stop := BitVec.ofNat 50 (j + off), stages := BitVec.ofNat 4 stages, rot := rot }
  let c1 := c.upd (fun r =>
    { r with levels := vset r.levels old.depth lv, depth := old.depth + 1, exits := vset r.exits old.depth none,
             records := r.records.map (fun x => if x.exit.map (·.1) == some old.depth then { x with exit := none } else x) })
  { c1 with tag := some ⟨.opens, old.depth, rot⟩ }

/-- LOOP and LOOPS (R226). -/
def Ctl.doLoop (c : Ctl) (old : Run) (n stages : Nat) (rot : BitVec 3) (off : Nat) : Res :=
  let last := bundleNo old.pc.toNat + off
  let outer := old.inner?.map (fun l => l.stop.toNat)
  if old.depth == 4 || (match outer with | some e => e < last | none => false) then .raise 0x004
  else if n == 0 then
    (if outer == some last then .ok { c with back := true } else .ok { c with jump := some (32 * (last + 1) % 2 ^ 55) })
  else .ok (c.openLevel old n stages rot off)

def loopSlot (g : QGuard) (a : BitVec 6) (k rot : BitVec 3) (e : BitVec 11) : Slot :=
  guarded g (fun old c => c.doLoop old (loW (old.x a)).toNat (k.toNat + 1) rot e.toNat)
def loopsSlot (g : QGuard) (i : BitVec 8) (k rot : BitVec 3) (e : BitVec 9) : Slot :=
  guarded g (fun old c => c.doLoop old i.toNat (k.toNat + 1) rot e.toNat)

/-- A level closed: the bundle after its END is next and carries the close tag (R228, R236). -/
def Ctl.closeLevel (c : Ctl) (l : Nat) : Ctl :=
  let lv := vget c.r.levels l Level.reset
  { c.upd (fun r => { r with levels := vset r.levels l { lv with isOpen := false }, depth := l }) with
    tag := some ⟨.close, l, lv.rot⟩, jump := some (32 * (lv.stop.toNat + 1) % 2 ^ 55) }

/-- LBRK, and LBRKA when it closes. -/
def Ctl.breakLevel (c : Ctl) (old : Run) (when : Nat → Bool) : Res :=
  if old.depth ≤ old.base then .raise 0x004
  else if when (old.depth - 1) then .ok (c.closeLevel (old.depth - 1)) else .ok c

def lbrkSlot (g : QGuard) : Slot := guarded g (fun old c => c.breakLevel old (fun _ => true))
def lbrkaSlot (g : QGuard) : Slot :=
  guarded g (fun old c => c.breakLevel old (fun l => vget old.exits l none == some true))

/-- The back-edge decision for the innermost level of the frame (R228). -/
def Ctl.backEdge (c : Ctl) : Ctl :=
  if c.r.depth ≤ c.r.base then c
  else
    let l := c.r.depth - 1
    let lv := vget c.r.levels l Level.reset
    let again (lv : Level) (stage : Bool) : Ctl :=
      let rotS (r : Run) : Nat := if bit lv.rot 1 && r.rs != 0 then (r.sbase + r.rs - 1) % r.rs else r.sbase
      { c.upd (fun r => { r with levels := vset r.levels l { lv with index := lv.index + 1 }, sbase := rotS r }) with
        tag := some ⟨.rotate stage, l, lv.rot⟩, jump := some (32 * lv.start.toNat) }
    if lv.count != 0 then again { lv with count := lv.count - 1 } true
    else if 1 < lv.stages.toNat then again { lv with stages := lv.stages - 1 } false
    else c.closeLevel l

/-- The wave and every access of the sequencer have finished (R119, R296). -/
def Run.quiet (r : Run) : Bool := r.flights.isEmpty && r.loads.isEmpty

/-- The sizes that ROTCFG names (R231). -/
def rotSizes (x y : BitVec 2) : Nat × Nat := (8 * x.toNat, 8 * y.toNat)

/-- ROTCFG waits until no bundle is in flight: in a skew wave `reached every row` is taken to mean every cell of the row. Log entry 50:
DEDUCED. -/
def rotcfgSlot (g : QGuard) (x y : BitVec 2) : Slot :=
  guarded g (fun old c =>
    if old.base < old.depth then .raise 0x004
    else if !old.flights.isEmpty then .wait 5 c
    else .ok { c with rot := some (rotSizes x y) })

/-- ROTCFG takes effect: the sizes, and every base (R231). -/
def Ctl.applyRot (c : Ctl) : Ctl :=
  match c.rot with
  | none => c
  | some (g, n) =>
    let s1 := c.s.mapCells c.r (fun _ _ x => { x with gbase := 0, pbase := 0 })
    { c with s := s1, r := { c.r with rg := g, rs := n, sbase := 0 } }

/-! ## Shape, formats and semirings (R108 to R110) -/

def waveSlot (g : QGuard) (w : Bool) : Slot :=
  guarded g (fun old c => .ok (c.upd (fun r => { r with skew := w, blanks := if old.skew && !w then 31 else r.blanks })))

def fmtsetSlot (g : QGuard) (a : BitVec 6) : Slot :=
  guarded g (fun old c =>
    if !fmtValid (loW (old.x a)) then .raise 0x007
    else .ok (c.upd (fun r => { r with fmtPend := r.fmtPend ++ [(4, loW (old.x a))] })))

def semsetSlot (g : QGuard) (e : BitVec 4) (a : BitVec 6) : Slot :=
  guarded g (fun old c =>
    if !semValid (old.x a) then .raise 0x008
    else .ok (c.upd (fun r => { r with semPend := r.semPend ++ [(4, e.toNat - 8, old.x a)] })))

/-! ## Waits (R111 to R114, R116) -/

def waitfSlot (g : QGuard) (t : BitVec 6) (q : BitVec 3) : Slot :=
  guarded g (fun old c => c.awaitKind 7 old t q old.flagsReady c id)

/-- The STATE of a receipt is terminal (R112). Log entry 37: DEDUCED. -/
def terminalByte (bs : List Byte) : Bool := let x := leNat (bs.take 1) % 16; 3 ≤ x && x ≤ 6

def waitrSlot (g : QGuard) (a t : BitVec 6) (q : BitVec 3) : Slot :=
  guarded g (fun old c =>
    c.access (old.x a) 16 .read (fun acc c =>
      let (o, d) := c.pointRead 5 acc 16
      c.await old t q (terminalByte o.bytes && o.poison.isNone) (d.take 5 acc)))

/-- The copy commands of R184. -/
def isCopy : Instr → Bool
  | .cpy .. | .cpya .. | .gath .. | .scat .. | .fill .. | .ckpt .. | .red .. | .ared .. | .bcst .. => true
  | _ => false

/-- The copy commands of a task that a path covers (R113): those whose destination it holds, and those whose destination is not
known. -/
def State.covered (s : State) (r : Run) (path : Nat) : List Cmd :=
  s.cmds.filter (fun x => x.task == some r.task && isCopy x.op && (match x.level with | some l => l ≤ path | none => true))

/-- The join of commands: each one's receipt is read at its point, and the frank there is acquired (R257, R260). -/
def Ctl.joinAll (c : Ctl) (l : List Cmd) : Ctl :=
  l.foldl (fun d x => match x.racc with | some acc => (d.acquireRead 5 acc 16).2 | none => d) c

def drainSlot (g : QGuard) (p : BitVec 2) (t : BitVec 6) (q : BitVec 3) : Slot :=
  guarded g (fun old c =>
    let l := c.s.covered old p.toNat
    c.await old t q (l.all (·.terminal)) (c.joinAll l))

def acqSlot (g : QGuard) (sc : BitVec 3) (a : BitVec 6) : Slot :=
  guarded g (fun old c =>
    c.access (old.x a) 8 .read (fun acc c => .ok (c.acquireRead sc.toNat acc 8).2))

/-- Log entry 37: DEDUCED. -/
def acqWSlot (g : QGuard) (sc : BitVec 3) (a t : BitVec 6) (q : BitVec 3) : Slot :=
  guarded g (fun old c =>
    c.access (old.x a) 8 .read (fun acc c =>
      let (o, d) := c.pointRead sc.toNat acc 8
      c.await old t q (wordOf o.bytes != 0 && o.poison.isNone) (d.take sc.toNat acc)))

/-- The arrival of a BAR with its release (R114, R256). What it has released is kept with it, so that one which is withdrawn has released nothing
(R104). Log entry 45: DEDUCED. -/
def Ctl.barArrive (c : Ctl) (scope : Nat) (count : BitVec 32) : Ctl :=
  let (frank, d) := c.release scope
  { d with
    s := (d.s.quitBar c.r.party).arriveBar c.r.ctx scope c.r.head c.r.party count frank,
    r := { d.r with arrived := some ⟨c.r.num, c.r.pc, scope, c.r.wrote, c.r.rel, c.r.relFrank⟩ } }

/-- The run has arrived with the BAR at PC at a scope, and not with one that a trap has left behind (R114, R296). Log entry 45: DEDUCED. -/
def Run.arrivedAt (r : Run) (scope : Nat) : Bool :=
  match r.arrived with
  | some o => o.num == r.num && o.pc == r.pc && o.scope == scope
  | none => false

/-- A BAR: at .array it waits until no bundle is in flight, which in a skew wave takes `reached every row` to mean every cell of the row, and
acquires what its own arrival released; at a wider scope it arrives at its first attempt, and then waits for its generation (R114). Log entry 45:
DEDUCED. -/
def barSlot (g : QGuard) (sc : BitVec 3) (t : BitVec 6) (q : BitVec 3) : Slot :=
  guarded g (fun old c =>
    let scope := sc.toNat
    if scope == 0 then
      let (frank, d) := c.release 0
      c.awaitKind 2 old t q old.flights.isEmpty (d.acquire 0 frank) id
    else if old.waitEnd != some false && !old.arrivedAt scope then
      match c.s.openBar old.ctx scope old.head with
      | some b => if !b.arrived.isEmpty && b.count != old.barn then .raise 0x00B else .wait 1 (c.barArrive scope old.barn)
      | none => .wait 1 (c.barArrive scope old.barn)
    else
      let b := c.s.doneBar old.party
      c.awaitKind 1 old t q b.isSome
        (({ c with s := c.s.leaveBar old.party, r := { c.r with arrived := none } }).acquire scope ((b.map Barrier.frank).getD []))
        (fun d => { d with s := d.s.withdrawBar old.party, r := d.r.unarrive }))

/-! ## Ordering (R115, R259, R256) -/

def fenceSlot (g : QGuard) (sc : BitVec 3) (k : BitVec 2) : Slot :=
  guarded g (fun old c =>
    if k != 2 && !old.loads.isEmpty then .wait 6 c
    else
      let s1 := if k != 1 then (c.s.fenceSt old.head sc.toNat old.wrote).forkLines old.head old.arrays sc.toNat (old.wrote.map (·.1)) else c.s
      .ok { c with s := if k != 2 then s1.fenceLdBench old.head old.arrays sc.toNat else s1 })

def relSlot (g : QGuard) (sc : BitVec 3) : Slot :=
  guarded g (fun old c =>
    let scope := max sc.toNat (old.rel.getD 0)
    let (frank, d) := c.release sc.toNat
    .ok (d.upd (fun r => { r with rel := some scope, relFrank := frank })))

/-! ## Tokens, ends of runs, traps (R118 to R120, R296) -/

def signalSlot (g : QGuard) (a : BitVec 6) : Slot :=
  guarded g (fun old c =>
    let tag := (old.x a).extractLsb' 0 48
    match c.s.context old.ctx with
    | none => .ok c
    | some x =>
      if (x.token tag).isNone && c.s.tokensFree x == 0 then .raise 0x1A2
      else
        let (frank, d) := c.release 2
        .ok { d with s := (d.s.ripen old.ctx tag true frank).settleAll })

def yieldSlot (g : QGuard) : Slot :=
  guarded g (fun old c => if old.quiet then .ok { c with ending := some .yielded } else .wait 8 c)
def doneSlot (g : QGuard) : Slot :=
  guarded g (fun old c => if old.quiet then .ok { c with ending := some .ended } else .wait 8 c)

def trapSlot (g : QGuard) (code : BitVec 8) : Slot :=
  guarded g (fun _ _ => .fault { issueFault 0x00F 0 with ucode := code })

/-- Log entry 48: DEDUCED. -/
def rftSlot (g : QGuard) : Slot :=
  guarded g (fun old c =>
    if !old.trap.active then .raise 0x00E
    else if !old.quiet then .wait 5 c
    else if old.depth ≠ old.base then .raise 0x004
    else .ok { c with rft := true })

/-! ## Dockets and stamps (R122, R123, R302, R303) -/

def docketSlot (g : QGuard) (a b : BitVec 6) : Slot :=
  guarded g (fun old c =>
    if old.docket.isSome then .raise 0x00C
    else
      let d : Docket := { steps := loW (old.x a), sig := loW (old.x b), count := 0, crc := 0xFFFFFFFF }
      .ok (c.upd (fun r => { r with docket := some d })))

/-- The segment's last bundle has left, and both values agree (R303). -/
def dcheckSlot (g : QGuard) : Slot :=
  guarded g (fun old c =>
    match old.docket with
    | none => .raise 0x00D
    | some d =>
      if old.flights.any (·.docket) then .wait 9 c
      else if d.count != d.steps || ~~~d.crc != d.sig then .raise 0x1D0
      else .ok (c.upd (fun r => { r with docket := none })))

def stampSlot (g : QGuard) (d : BitVec 6) : Slot := guarded g (fun _ c => c.setS d (BitVec.ofNat 64 c.s.ticks))
def stampSSlot (g : QGuard) (d : BitVec 6) : Slot := guarded g (fun old c => c.setS d (BitVec.ofNat 64 old.num))

end Sys2Proof.Machine
end

