-- ==== Sys2Proof/Machine/Scalar.lean ====
section
/-!
DEFINITION. The scalar slot S1 (09_sequencer_isa.md R124 to R127, 19_memory.md R263, R264): what each instruction does to the
bundle's record. Sources are read as they stood before the bundle (R100).
-/

namespace Sys2Proof.Machine

/-! ## Arithmetic (R124) -/

/-- An arithmetic result under a guard. -/
def scalarOp (g : QGuard) (d : BitVec 6) (f : Run → DWord) : Slot := guarded g (fun old c => c.setS d (f old))

def addVal (a b : DWord) : DWord := a + b
def subVal (a b : DWord) : DWord := a - b
def mulVal (a b : DWord) : DWord := a * b
def mulhVal (a b : DWord) : DWord := BitVec.ofInt 64 (a.toInt * b.toInt / 2 ^ 64)
def mulhuVal (a b : DWord) : DWord := BitVec.ofNat 64 (a.toNat * b.toNat / 2 ^ 64)
def divVal (a b : DWord) : DWord := a.sdiv b
def divuVal (a b : DWord) : DWord := a.udiv b
def remVal (a b : DWord) : DWord := a.srem b
def remuVal (a b : DWord) : DWord := a.umod b
def shlVal (a : DWord) (n : BitVec 6) : DWord := a <<< n.toNat
def shrVal (a : DWord) (n : BitVec 6) : DWord := a >>> n.toNat
def sraVal (a : DWord) (n : BitVec 6) : DWord := a.sshiftRight n.toNat
def minVal (a b : DWord) : DWord := if b.slt a then b else a
def maxVal (a b : DWord) : DWord := if a.slt b then b else a
def minuVal (a b : DWord) : DWord := if b.ult a then b else a
def maxuVal (a b : DWord) : DWord := if a.ult b then b else a
def luiVal (a : DWord) (i : BitVec 16) : DWord := a.extractLsb' 0 48 ++ i
def clzVal (a : DWord) : DWord := BitVec.ofNat 64 (leadingZeros a)
def popcVal (a : DWord) : DWord := BitVec.ofNat 64 (popCount a)
/-- The shift of LEA: 0, 2, 3 or 5. -/
def leaShift (h : BitVec 2) : Nat := match h.toNat with | 0 => 0 | 1 => 2 | 2 => 3 | _ => 5
def leaVal (a b : DWord) (h : BitVec 2) : DWord := a + (b <<< leaShift h)

/-- The shift count B[5:0]. -/
def shiftCount (b : DWord) : BitVec 6 := b.extractLsb' 0 6

def addSlot (g : QGuard) (d a b : BitVec 6) : Slot := scalarOp g d (fun o => addVal (o.x a) (o.x b))
def subSlot (g : QGuard) (d a b : BitVec 6) : Slot := scalarOp g d (fun o => subVal (o.x a) (o.x b))
def addiSlot (g : QGuard) (d : BitVec 6) (i : BitVec 16) : Slot := scalarOp g d (fun o => addVal (o.x d) (i.signExtend 64))
def mulSlot (g : QGuard) (d a b : BitVec 6) : Slot := scalarOp g d (fun o => mulVal (o.x a) (o.x b))
def mulhSlot (g : QGuard) (d a b : BitVec 6) : Slot := scalarOp g d (fun o => mulhVal (o.x a) (o.x b))
def mulhuSlot (g : QGuard) (d a b : BitVec 6) : Slot := scalarOp g d (fun o => mulhuVal (o.x a) (o.x b))

/-- A division: B = 0 raises DIV.ZERO. -/
def divOp (g : QGuard) (d a b : BitVec 6) (f : DWord → DWord → DWord) : Slot :=
  guarded g (fun old c => if old.x b == 0 then .raise 0x003 else c.setS d (f (old.x a) (old.x b)))

def divSlot (g : QGuard) (d a b : BitVec 6) : Slot := divOp g d a b divVal
def divuSlot (g : QGuard) (d a b : BitVec 6) : Slot := divOp g d a b divuVal
def remSlot (g : QGuard) (d a b : BitVec 6) : Slot := divOp g d a b remVal
def remuSlot (g : QGuard) (d a b : BitVec 6) : Slot := divOp g d a b remuVal
def andSlot (g : QGuard) (d a b : BitVec 6) : Slot := scalarOp g d (fun o => o.x a &&& o.x b)
def orSlot (g : QGuard) (d a b : BitVec 6) : Slot := scalarOp g d (fun o => o.x a ||| o.x b)
def xorSlot (g : QGuard) (d a b : BitVec 6) : Slot := scalarOp g d (fun o => o.x a ^^^ o.x b)
def andiSlot (g : QGuard) (d : BitVec 6) (i : BitVec 16) : Slot := scalarOp g d (fun o => o.x d &&& i.zeroExtend 64)
def oriSlot (g : QGuard) (d : BitVec 6) (i : BitVec 16) : Slot := scalarOp g d (fun o => o.x d ||| i.zeroExtend 64)
def xoriSlot (g : QGuard) (d : BitVec 6) (i : BitVec 16) : Slot := scalarOp g d (fun o => o.x d ^^^ i.zeroExtend 64)
def shlSlot (g : QGuard) (d a b : BitVec 6) : Slot := scalarOp g d (fun o => shlVal (o.x a) (shiftCount (o.x b)))
def shrSlot (g : QGuard) (d a b : BitVec 6) : Slot := scalarOp g d (fun o => shrVal (o.x a) (shiftCount (o.x b)))
def sraSlot (g : QGuard) (d a b : BitVec 6) : Slot := scalarOp g d (fun o => sraVal (o.x a) (shiftCount (o.x b)))
def shliSlot (g : QGuard) (d i : BitVec 6) : Slot := scalarOp g d (fun o => shlVal (o.x d) i)
def shriSlot (g : QGuard) (d i : BitVec 6) : Slot := scalarOp g d (fun o => shrVal (o.x d) i)
def sraiSlot (g : QGuard) (d i : BitVec 6) : Slot := scalarOp g d (fun o => sraVal (o.x d) i)
def minSlot (g : QGuard) (d a b : BitVec 6) : Slot := scalarOp g d (fun o => minVal (o.x a) (o.x b))
def maxSlot (g : QGuard) (d a b : BitVec 6) : Slot := scalarOp g d (fun o => maxVal (o.x a) (o.x b))
def minuSlot (g : QGuard) (d a b : BitVec 6) : Slot := scalarOp g d (fun o => minuVal (o.x a) (o.x b))
def maxuSlot (g : QGuard) (d a b : BitVec 6) : Slot := scalarOp g d (fun o => maxuVal (o.x a) (o.x b))
/-- SEL is not nullified by its guard, which chooses the source (R53, R101). -/
def selScalarSlot (g : QGuard) (d a b : BitVec 6) : Slot :=
  fun old c => c.setS d (if old.guard g then old.x a else old.x b)
def liSlot (g : QGuard) (d : BitVec 6) (i : BitVec 16) : Slot := scalarOp g d (fun _ => i.signExtend 64)
def luiSlot (g : QGuard) (d : BitVec 6) (i : BitVec 16) : Slot := scalarOp g d (fun o => luiVal (o.x d) i)
def movScalarSlot (g : QGuard) (d a : BitVec 6) : Slot := scalarOp g d (fun o => o.x a)
def clzSlot (g : QGuard) (d a : BitVec 6) : Slot := scalarOp g d (fun o => clzVal (o.x a))
def popcSlot (g : QGuard) (d a : BitVec 6) : Slot := scalarOp g d (fun o => popcVal (o.x a))
def leaSlot (g : QGuard) (d a b : BitVec 6) (h : BitVec 2) : Slot := scalarOp g d (fun o => leaVal (o.x a) (o.x b) h)

/-! ## Compares (R125) -/

def cmpSlot (g : QGuard) (cond q : BitVec 3) (a b : BitVec 6) : Slot :=
  guarded g (fun old c => .ok (c.setQ q (intCond cond.toNat (old.x a) (old.x b))))
def cmpiSlot (g : QGuard) (cond q : BitVec 3) (a : BitVec 6) (i : BitVec 10) : Slot :=
  guarded g (fun old c => .ok (c.setQ q (intCond cond.toNat (old.x a) (i.signExtend 64))))

/-! ## Memory (R126, R264) -/

/-- The address of a scalar access: the base and the offset in units of the size. -/
def scalarAddr (base : DWord) (off : BitVec 8) (size : Nat) : DWord := base + (off.signExtend 64 <<< size)

/-- What a load delivers. -/
def Ctl.deliver (c : Ctl) (d : BitVec 6) (acc : Access) (o : ReadOut) : Res :=
  .ok ({ c with s := o.st }.upd (fun r => r.loadTo d acc (wordOf o.bytes) o.poison o.near))

def ldSlot (g : QGuard) (d b : BitVec 6) (o : BitVec 8) (z : BitVec 2) : Slot :=
  guarded g (fun old c =>
    c.access (scalarAddr (old.x b) o z.toNat) (2 ^ z.toNat) .read (fun acc c =>
      c.deliver d acc (c.s.read c.r.agent acc (2 ^ z.toNat))))

def stSlot (g : QGuard) (d b : BitVec 6) (o : BitVec 8) (z : BitVec 2) : Slot :=
  guarded g (fun old c =>
    let va := scalarAddr (old.x b) o z.toNat
    c.access va (2 ^ z.toNat) .write (fun acc c =>
      .ok (c.syncStore acc (va.toNat % 2 ^ 55) (leBytes (2 ^ z.toNat) (old.x d).toNat))))

/-- The size of LDA and STL: .W or .D. -/
def wideSize (z : Bool) : Nat := if z then 3 else 2

def ldaSlot (g : QGuard) (d b : BitVec 6) (o : BitVec 8) (z : Bool) : Slot :=
  guarded g (fun old c =>
    c.access (scalarAddr (old.x b) o (wideSize z)) (2 ^ wideSize z) .read (fun acc c =>
      let (out, c1) := c.acquireRead old.lscope.toNat acc (2 ^ wideSize z)
      c1.deliver d acc { out with st := c1.s }))

/-- A release at ORDCTL.LSCOPE, of which the store is the synchronising write; it serves a waiting REL as well (R256). -/
def stlSlot (g : QGuard) (d b : BitVec 6) (o : BitVec 8) (z : Bool) : Slot :=
  guarded g (fun old c =>
    let va := scalarAddr (old.x b) o (wideSize z)
    c.access va (2 ^ wideSize z) .write (fun acc c =>
      let rel := c.r.rel
      let held := if acc.syncs then c else c.upd (fun r => { r with rel := none })
      let scope := max old.lscope.toNat (held.r.rel.getD 0)
      let (frank, c1) := held.release old.lscope.toNat
      let c2 := (c1.store acc (va.toNat % 2 ^ 55) (leBytes (2 ^ wideSize z) (old.x d).toNat)).sync scope frank acc
      .ok (if acc.syncs then c2 else c2.upd (fun r => { r with rel := rel, relFrank := c.r.relFrank }))))

/-- The line leaves L1 and L2 without its dirty bytes (R264). -/
def State.discardLine (s : State) (a line : Nat) : State :=
  let s1 := s.setArr a { s.arr a with l1 := tabErase (s.arr a).l1 line }
  s1.setDie (dieOf a) { s1.die (dieOf a) with l2 := tabErase (s1.die (dieOf a)).l2 line }

def ldlastSlot (g : QGuard) (d b : BitVec 6) (o : BitVec 8) (z : BitVec 2) : Slot :=
  guarded g (fun old c =>
    c.access (scalarAddr (old.x b) o z.toNat) (2 ^ z.toNat) .read (fun acc c =>
      let out := c.s.read c.r.agent acc (2 ^ z.toNat)
      match acc.line?, acc.cached with
      | some l, true => c.deliver d acc { out with st := out.st.discardLine c.r.head l }
      | _, _ => c.deliver d acc out))

def prefSlot (g : QGuard) (h b : BitVec 6) (o : BitVec 8) (z : BitVec 2) : Slot :=
  guarded g (fun old c =>
    match c.translate ((scalarAddr (old.x b) o z.toNat).toNat % 2 ^ 55) .read with
    | (.ok (.mem key ord cache enc cmp), c1) =>
      if !(Access.mem key ord cache enc cmp).cached then .ok c1
      else
        let who := whoSeq c.r.head
        .ok { c1 with s := match h.toNat with
          | 0 => (c1.s.withL1 c.r.head enc (key / 64) 3 who).2
          | 1 => (c1.s.withL2 (dieOf c.r.head) enc (key / 64) 3 who).2
          | _ => c1.s.podTouch enc (key / 64) 3 who }
    | (_, c1) => .ok c1)

/-! ## Atomics (R127, R263) -/

/-- The word of an atomic: its low 4 or 8 bytes. -/
def atomWidth (w : Bool) : Nat := if w then 8 else 4

/-- A word of an atomic read as signed. -/
def atomInt (w : Bool) (x : DWord) : Int := sext (8 * atomWidth w) x.toNat
/-- The low bytes of a word, zero-extended. -/
def atomWord (w : Bool) (x : DWord) : DWord := if w then x else (loW x).zeroExtend 64

def aaddVal (old b : DWord) : DWord := old + b
def aminVal (w : Bool) (old b : DWord) : DWord := if atomInt w b < atomInt w old then b else old
def amaxVal (w : Bool) (old b : DWord) : DWord := if atomInt w old < atomInt w b then b else old
def aandVal (old b : DWord) : DWord := old &&& b
def aorVal (old b : DWord) : DWord := old ||| b
def axorVal (old b : DWord) : DWord := old ^^^ b
def acasVal (w : Bool) (old b d : DWord) : DWord := if old == atomWord w d then b else old
/-- AFADD: FP32 or binary64, nearest-even, subnormals kept, the canonical NaN. -/
def afaddVal (w : Bool) (old b : DWord) : DWord :=
  let f := if w then fp64 else fp32
  let n := 2 ^ (8 * atomWidth w)
  BitVec.ofNat 64 (f.round roundPlain ((f.read (old.toNat % n)).add false (f.read (b.toNat % n))).1).1

/-- The access of an atomic acts at the .pod point: the agent's copies of the line are written back and go (R263). -/
def Ctl.atomicAt (c : Ctl) (acc : Access) : Access × Ctl :=
  match acc with
  | .store a f o => (.store a f o, c)
  | .mem key _ _ enc cmp => (.mem key 1 false enc cmp, { c with s := c.s.dropBelow c.r.head 4 (key / 64) })

/-- An atomic: one read and one write; nothing is written when the read meets an uncorrectable error (R127). -/
def atomicOp (g : QGuard) (d a : BitVec 6) (w : Bool) (f : Run → DWord → DWord) : Slot :=
  guarded g (fun old c =>
    let n := atomWidth w
    c.access (old.x a) n .both (fun acc c =>
      let (pt, c1) := c.atomicAt acc
      let out := c1.s.read c1.r.agent pt n
      let val := wordOf out.bytes
      let c2 := { c1 with s := out.st }
      let c3 := if out.poison.isSome then c2
        else (({ c2 with s := (c2.s.write c2.r.agent pt (leBytes n (f old val).toNat)).1 }).wrote acc).serve acc
      c3.deliver d acc { out with st := c3.s }))

def aaddSlot (g : QGuard) (d a b : BitVec 6) (w : Bool) : Slot := atomicOp g d a w (fun o m => aaddVal m (o.x b))
def aminSlot (g : QGuard) (d a b : BitVec 6) (w : Bool) : Slot := atomicOp g d a w (fun o m => aminVal w m (o.x b))
def amaxSlot (g : QGuard) (d a b : BitVec 6) (w : Bool) : Slot := atomicOp g d a w (fun o m => amaxVal w m (o.x b))
def aandSlot (g : QGuard) (d a b : BitVec 6) (w : Bool) : Slot := atomicOp g d a w (fun o m => aandVal m (o.x b))
def aorSlot (g : QGuard) (d a b : BitVec 6) (w : Bool) : Slot := atomicOp g d a w (fun o m => aorVal m (o.x b))
def axorSlot (g : QGuard) (d a b : BitVec 6) (w : Bool) : Slot := atomicOp g d a w (fun o m => axorVal m (o.x b))
def aswapSlot (g : QGuard) (d a b : BitVec 6) (w : Bool) : Slot := atomicOp g d a w (fun o _ => o.x b)
def acasSlot (g : QGuard) (d a b : BitVec 6) (w : Bool) : Slot := atomicOp g d a w (fun o m => acasVal w m (o.x b) (o.x d))
def afaddSlot (g : QGuard) (d a b : BitVec 6) (w : Bool) : Slot := atomicOp g d a w (fun o m => afaddVal w m (o.x b))

/-- The scalar slot of a bundle. -/
def scalarSlot : Instr → Slot
  | .add g d a b _ _ => addSlot g d a b
  | .sub g d a b _ _ => subSlot g d a b
  | .addi g d i => addiSlot g d i
  | .mul g d a b _ _ => mulSlot g d a b
  | .mulh g d a b _ _ => mulhSlot g d a b
  | .mulhu g d a b _ _ => mulhuSlot g d a b
  | .div g d a b _ _ => divSlot g d a b
  | .divu g d a b _ _ => divuSlot g d a b
  | .rem g d a b _ _ => remSlot g d a b
  | .remu g d a b _ _ => remuSlot g d a b
  | .and g d a b _ _ => andSlot g d a b
  | .or g d a b _ _ => orSlot g d a b
  | .xor g d a b _ _ => xorSlot g d a b
  | .andi g d i => andiSlot g d i
  | .ori g d i => oriSlot g d i
  | .xori g d i => xoriSlot g d i
  | .shl g d a b _ _ => shlSlot g d a b
  | .shr g d a b _ _ => shrSlot g d a b
  | .sra g d a b _ _ => sraSlot g d a b
  | .shli g d i => shliSlot g d i
  | .shri g d i => shriSlot g d i
  | .srai g d i => sraiSlot g d i
  | .min g d a b _ _ => minSlot g d a b
  | .max g d a b _ _ => maxSlot g d a b
  | .minu g d a b _ _ => minuSlot g d a b
  | .maxu g d a b _ _ => maxuSlot g d a b
  | .selScalar g d a b _ _ => selScalarSlot g d a b
  | .cmp g c q a b _ _ => cmpSlot g c q a b
  | .cmpi g c q a i => cmpiSlot g c q a i
  | .li g d i => liSlot g d i
  | .lui g d i => luiSlot g d i
  | .movScalar g d a _ => movScalarSlot g d a
  | .clz g d a _ => clzSlot g d a
  | .popc g d a _ => popcSlot g d a
  | .lea g d a b h _ _ => leaSlot g d a b h
  | .ld g d b o z => ldSlot g d b o z
  | .st g d b o z => stSlot g d b o z
  | .lda g d b o z => ldaSlot g d b o z
  | .stl g d b o z => stlSlot g d b o z
  | .ldlast g d b o z => ldlastSlot g d b o z
  | .pref g h b o z => prefSlot g h b o z
  | .aadd g d a b w _ _ => aaddSlot g d a b w
  | .amin g d a b w _ _ => aminSlot g d a b w
  | .amax g d a b w _ _ => amaxSlot g d a b w
  | .aand g d a b w _ _ => aandSlot g d a b w
  | .aor g d a b w _ _ => aorSlot g d a b w
  | .axor g d a b w _ _ => axorSlot g d a b w
  | .aswap g d a b w _ _ => aswapSlot g d a b w
  | .acas g d a b w _ _ => acasSlot g d a b w
  | .afadd g d a b w _ _ => afaddSlot g d a b w
  | _ => fun _ c => .ok c

end Sys2Proof.Machine
end

