-- ==== Sys2Proof/Machine/Selector.lean ====
section
/-!
DEFINITION. The selector slot S4 (03_wave.md R37, 09_sequencer_isa.md R128 to R131): what each instruction gives the bundle to
carry, and what it writes.
-/

namespace Sys2Proof.Machine

/-- What S4 gives its bundle (R31, R37, R129, R131): masks, array enable, wave scalar, tensor scales. -/
structure Selection where
  rowMask : Word
  colMask : Word
  arrays : BitVec 8
  ws : DWord
  tscale : Option (BitVec 2 × DWord)
  deriving DecidableEq, Repr

/-- A selection with two masks, every array and ws = 0 (R63). -/
def Run.selectBy (r : Run) (row col : BitVec 4) : Selection :=
  { rowMask := r.mask row.toNat, colMask := r.mask col.toNat, arrays := 0, ws := 0, tscale := none }

/-- The wave scalar placed (R129). -/
def placeWs (p : BitVec 2) (x : DWord) : DWord :=
  match p.toNat with
  | 0 => x
  | 1 => mkD (loW x) (loW x)
  | 2 => mkD (hiW x) (hiW x)
  | _ => mkD (loW x) (hiW x)

/-- The selection of a bundle. -/
def Run.selection (r : Run) : Instr → Selection
  | .selSelector row col a p arrays => { r.selectBy row col with arrays := arrays, ws := placeWs p (r.x a) }
  | .mset row col _ _ | .mrange row col _ _ _ | .mop row col _ _ _ _ | .mflag row col _ _ => r.selectBy row col
  | .tscale row col a t => { r.selectBy row col with tscale := some (t, r.x a) }
  | _ => r.selectBy 0 0

/-- MRANGE: bits lo to hi (R130). -/
def rangeMask (lo hi : Nat) : Word := BitVec.ofNat 32 (((List.range 32).filter (fun i => lo ≤ i && i ≤ hi)).foldl (fun m i => m + 2 ^ i) 0)

/-- Bit n to bit 31 − n (R130). -/
def reverseMask (a : Word) : Word := BitVec.ofNat 32 ((List.range 32).foldl (fun m i => if bit a i then m + 2 ^ (31 - i) else m) 0)

/-- MOP (R130). -/
def mopVal (op : Nat) (a b : Word) : Word :=
  match op with
  | 0 => a &&& b
  | 1 => a ||| b
  | 2 => a ^^^ b
  | 3 => a &&& ~~~b
  | 4 => ~~~a
  | 5 => a <<< 1
  | 6 => a >>> 1
  | _ => reverseMask a

/-- MFLAG (R130). -/
def mflagVal (k : Nat) (f : Flags) : Word :=
  match k with
  | 0 => f.rowOr
  | 1 => f.rowAnd
  | 2 => if f.any then 0xFFFFFFFF else 0
  | _ => if f.all then 0xFFFFFFFF else 0

/-- A mask written. -/
def Ctl.setMask (c : Ctl) (d : BitVec 4) (v : Word) : Res := .ok (c.upd (fun r => r.setMask d.toNat v))

def msetSlot (a : BitVec 6) (d : BitVec 4) : Slot := fun old c => c.setMask d (loW (old.x a))
def mrangeSlot (lo hi : BitVec 5) (d : BitVec 4) : Slot := fun _ c => c.setMask d (rangeMask lo.toNat hi.toNat)
def mopSlot (a b op d : BitVec 4) : Slot := fun old c => c.setMask d (mopVal op.toNat (old.mask a.toNat) (old.mask b.toNat))
def mflagSlot (k : BitVec 2) (d : BitVec 4) : Slot := fun old c => c.setMask d (mflagVal k.toNat old.flags)

/-- The selector slot of a bundle: what it writes. SEL and TSCALE act through the selection alone. -/
def selectorSlot : Instr → Slot
  | .mset _ _ a d => msetSlot a d
  | .mrange _ _ lo hi d => mrangeSlot lo hi d
  | .mop _ _ a b op d => mopSlot a b op d
  | .mflag _ _ k d => mflagSlot k d
  | _ => fun _ c => .ok c

end Sys2Proof.Machine
end

