-- ==== Sys2Proof/Machine/Tasks.lean ====
section
/-!
DEFINITION. Task descriptors and their acceptance (21_tasks.md R269, R273, R274), and LAUNCH (09_sequencer_isa.md R117).
-/

namespace Sys2Proof.Machine

/-! ## Descriptors (R269) -/

/-- The 64-bit word of a block of bytes at an offset. -/
def qword (bs : List Byte) (o : Nat) : DWord := BitVec.ofNat 64 (leNat ((bs.drop o).take 8))

/-- The fields of a task descriptor. -/
def parseDesc (bs : List Byte) : Desc :=
  let w := qword bs 0x10
  let tags (o n : Nat) : List (BitVec 48) := (List.range n).map (fun i => fld (qword bs (o + 8 * i)) 0 48)
  { entry := fld (qword bs 0) 0 55, args := fld (qword bs 8) 0 55, argLen := (fld w 0 13).toNat,
    shape := (fld w 16 2).toNat, prio := (fld w 20 2).toNat, spad := (fld w 24 2).toNat, aff := (fld w 28 2).toNat,
    target := (fld w 32 6).toNat, restart := bit w 40, retry := (fld w 41 3).toNat, irq := bit w 44,
    rcpt := fld (qword bs 0x18) 0 55, ins := tags 0x20 (min (fld w 48 4).toNat 8),
    outs := tags 0x60 (min (fld w 52 3).toNat 4) }

/-- A descriptor is valid for a context with `tokcap` token entries (R269). TARGET bits that AFF gives no meaning to must be 0.
Log entry 75: DEDUCED. -/
def descValid (bs : List Byte) (tokcap : Nat) : Bool :=
  let d := parseDesc bs
  let w := qword bs 0x10
  let high (o : Nat) : Bool := fld (qword bs o) 55 9 == 0
  let tagHigh (o n : Nat) : Bool := (List.range n).all (fun i => fld (qword bs (o + 8 * i)) 48 16 == 0)
  high 0 && high 8 && high 0x18
    && fld w 13 3 == 0 && fld w 18 2 == 0 && fld w 22 2 == 0 && fld w 26 2 == 0 && fld w 30 2 == 0 && fld w 38 2 == 0
    && fld w 45 3 == 0 && fld w 55 9 == 0
    && d.entry.toNat % 32 == 0 && (d.argLen == 0 || d.args.toNat % 16 == 0) && d.argLen ≤ 4096
    && (fld w 48 4).toNat ≤ 8 && (fld w 52 3).toNat ≤ 4
    && d.aff != 3 && (d.aff != 0 || d.target == 0) && (d.aff != 1 || d.target % 16 == 0)
    && (d.aff != 2 || d.target % (min (2 ^ d.shape) 4) == 0)
    && d.outs.length ≤ tokcap && tagHigh 0x20 d.ins.length && tagHigh 0x60 d.outs.length

/-! ## Acceptance (R273, R274) -/

/-- The dependency entries of a die that are taken. -/
def State.entries (s : State) (d : Nat) : Nat := (s.tasks.filter (fun t => t.die == d)).length

/-- Each die's dependency table holds 4,096 tasks (R274). -/
def tableSize : Nat := 4096

/-- The die that works with the most free entries, the lower number on a tie (R274). Log entry 51: DESIGN CHOICE. -/
def State.freestDie (s : State) : Nat :=
  ((List.range 4).filter (fun d => (s.die d).alive)).foldl
    (fun b d => if s.entries d < s.entries b || !(s.die b).alive then d else b) 0

/-- The die of a descriptor (R274): the one that TARGET names, or the submitter's own. -/
def Desc.dieOr (d : Desc) (own : Nat) : Nat := if d.aff == 1 || d.aff == 2 then d.target / 16 else own

/-- What a submission meets (R273, R274). -/
inductive Submission where
  | accepted (s : State)
  | refused (s : State)
  | badReceipt
  | full
  deriving Repr

/-- The receipt of a descriptor translates with write permission (R273). Log entry 54: DEDUCED. -/
def State.receiptOk (s : State) (ctx die : Nat) (d : Desc) : Bool × State :=
  if d.rcpt.toNat % 16 ≠ 0 then (false, s)
  else match s.translate (.die die) die ctx [] d.rcpt.toNat .write with
    | (.ok _, t) => (true, t)
    | (.error _, t) => (false, t)

/-- A refusal in the dead-letter record, with the context's interrupt (R273, R304, R317). Log entry 53: DEDUCED. -/
def State.refuse (s : State) (ctx die rcpt : Nat) : State :=
  (s.deadLetter die (s.dlrEntry 0 rcpt (unitCode die 4 0) 2 (16 * die) ctx 0)).raiseIsr ctx 1

/-- An invalid descriptor: its FAILED receipt, whose entry R304 asks for as of every failed receipt, and its refusal (R273). CTXISR[1] reports
it; its IRQ, a field of a descriptor that was not accepted, sets no CTXISR[0]. Log entry 75: DEDUCED. -/
def State.refuseInvalid (s : State) (t : Task) : State :=
  let unit := unitCode t.die 4 0
  let rcpt := t.desc.rcpt.toNat
  let s1 := s.taskReceipt t stFailed 0x07 unit 0 0 []
  (s1.deadLetter t.die (s1.dlrEntry 0 rcpt unit 1 (16 * t.die) t.ctx 0)).refuse t.ctx t.die rcpt

/-- A task entry as it is accepted. -/
def newTask (id die : Nat) (c : Context) (d : Desc) (prio : Nat) (patch : Option (Nat × Nat)) (frank : List Nat) (host : Bool) : Task :=
  { id := id, die := die, ctx := c.num, desc := d, prio := min prio c.ceiling, eff := min prio c.ceiling, phase := .accepted,
    readyAt := 0, passedAt := none, reserved := none, started := false, args := none, reruns := 0, image := none,
    frank := frank, lastProg := 0, patch := patch, fromHost := host, slot := none }

/-- A descriptor submitted to a die's dispatcher: refused, accepted with its entries reserved and ACCEPTED written, or without
room (R273, R274). Log entry 51: DESIGN CHOICE. -/
def State.submit (s : State) (c : Context) (die : Nat) (bs : List Byte) (prio : Nat) (patch : Option (Nat × Nat))
    (frank : List Nat) (host : Bool) : Submission :=
  let d := parseDesc bs
  let t := newTask s.nextTask die c d prio patch frank host
  match s.receiptOk c.num die d with
  | (false, _) => .badReceipt
  | (true, s1) =>
    if !descValid bs c.tokcap then
      .refused (s1.refuseInvalid t)
    else if tableSize ≤ s1.entries die || s1.tokensFree c < d.outs.length || !(s1.die die).alive then .full
    else
      let s2 := { s1 with tasks := s1.tasks ++ [t], nextTask := s1.nextTask + 1 }
      .accepted (s2.taskReceipt t stAccepted 0 0 0 0 []).settleAll

/-! ## LAUNCH (R117) -/

/-- The scope of the release of a launch: .die for a child pinned to the parent's die by AFF = 1 or AFF = 2, else .pkg (R117). -/
def launchScope (d : Desc) (die : Nat) : Nat := if (d.aff == 1 || d.aff == 2) && d.target / 16 == die then 2 else 3

/-- The rest of a block of memory after its first line, for a reader of whole lines. -/
def Ctl.readBlock (c : Ctl) (acc : Access) : Nat → Nat → Except Poison (List Byte) × Ctl
  | 0, _ => (.ok [], c)
  | n + 1, o =>
    let out := c.s.read c.r.agent (acc.plus o) 64
    match out.poison with
    | some p => (.error p, { c with s := out.st })
    | none =>
      match Ctl.readBlock { c with s := out.st } acc n (o + 64) with
      | (.ok bs, c1) => (.ok (out.bytes ++ bs), c1)
      | e => e

def launchSlot (g : QGuard) (a : BitVec 6) : Slot :=
  guarded g (fun old c =>
    c.access (old.x a) 128 .read (fun acc c =>
      let va := (old.x a).toNat % 2 ^ 55
      match c.readBlock acc 2 0, c.s.context old.ctx with
      | (.error .ue, _), _ => .fault (issueFault 0x1D1 va)
      | (.error .keyDead, _), _ => .fault (issueFault 0x1D3 va)
      | (.ok bs, c1), some x =>
        let d := parseDesc bs
        let (frank, c2) := c1.release (launchScope d old.die)
        match c2.s.submit x (d.dieOr old.die) bs d.prio none frank false with
        | .accepted s => .ok { c2 with s := s }
        | .refused s => .ok { c2 with s := s }
        | .badReceipt => .fault (issueFault 0x1A1 d.rcpt.toNat)
        | .full => .wait 4 c1
      | (.ok _, c1), none => .ok c1))

end Sys2Proof.Machine
end

