-- ==== Sys2Proof/Machine/Engine.lean ====
section
/-!
DEFINITION. Engine commands (13_faces_engines.md R162 to R166, R180 to R186, R193 to R197, 19_memory.md R245, R260): the accesses of
a command, one unit of work of a courier or of the Sorter, and the receipts.
-/

namespace Sys2Proof.Machine

/-! ## A command and its accesses -/

/-- An error of a command: its class, the unit that detected it, its address (R163, R165). -/
abbrev EngErr := Nat × Nat × Nat

/-- A command at work: the state, the command, and the error that ends it. -/
structure Work where
  s : State
  x : Cmd
  err : Option EngErr

/-- A GATH or SCAT of granule .G16 (R183). -/
def isG16 : Instr → Bool
  | .gath _ _ _ _ u _ | .scat _ _ _ _ u _ => u
  | _ => false

/-- The engine of a command as a memory agent; engine commands are of service class 2 (R253, R311). -/
def Cmd.agent (x : Cmd) : Agent := .engine x.die (whoUnit x.die x.unit) 2 (isG16 x.op)

/-- The UNIT code of a command's engine (R163, R320). -/
def Cmd.code (x : Cmd) : Nat :=
  if x.unit < 8 then unitCode x.die 0 x.unit else if x.unit == 8 then unitCode x.die 1 0
  else if x.unit == 9 then unitCode x.die 9 (x.array % 16 / 2) else unitCode 0 11 0

/-- A word of the descriptor. -/
def Cmd.w (x : Cmd) (i : Nat) : Nat := x.words.getD i 0

/-- The class of a translation fault (R165, R244). Log entry 43: DEDUCED. -/
def xlateClass (c : Nat) : Nat := if c == xPerm || c == xPhys then 0x02 else if c == xUe then 0x03 else 0x01

/-- The running task that issued a command. -/
def State.runOf (s : State) (x : Cmd) : Option Run :=
  match x.task with
  | none => none
  | some t => (s.runs.map (·.2)).find? (fun r => r.task == t)

/-- A face store is closed to the commands of other tasks once its run stops for a pre-emption or an end (R245). -/
def State.shut (s : State) (x : Cmd) (a : Nat) : Bool :=
  match s.runOn a with
  | some r => some r.task != x.task && (r.phase == .preempt || r.phase == .ended || r.phase == .yielded || r.phase == .closed)
  | none => false

/-- The translation of an address of a command (R165, R245). The window of the issuing task follows it to its present bench. -/
def State.cmdAccess (s : State) (x : Cmd) (va : Int) (need : Need) : Except EngErr Access × State :=
  if va < 0 ∨ 2 ^ 55 ≤ va then (.error (0x01, x.code, wrap 64 va), s)
  else
    let arrays := match s.runOf x with | some r => r.arrays | none => x.arrays
    match s.translate (.die x.die) x.die x.ctx arrays va.toNat need with
    | (.error c, t) => (.error (xlateClass c, x.code, va.toNat), t)
    | (.ok (.store a f o), t) => if t.shut x a then (.error (0x02, x.code, va.toNat), t) else (.ok (.store a f o), t)
    | (.ok acc, t) => (.ok acc, t)

/-- The class of poison (R165). -/
def poisonClass (p : Poison) : Nat := match p with | .ue => 0x03 | .keyDead => 0x0B

/-- A read of bytes of one granule. -/
def State.cmdPiece (s : State) (x : Cmd) (va : Int) (n : Nat) : Except EngErr (List Byte) × State :=
  match s.cmdAccess x va .read with
  | (.error e, t) => (.error e, t)
  | (.ok acc, t) =>
    let o := t.read x.agent acc n
    match o.poison with
    | some p => (.error (poisonClass p, o.st.detector acc x.code, va.toNat), o.st)
    | none => (.ok o.bytes, o.st)

/-- Bytes cut at granule boundaries: address and length of each piece. -/
def granPieces (va : Int) (n : Nat) : List (Int × Nat) :=
  let o := (va % 32).toNat
  (granCuts (n + 1) o n).map (fun c => (va + (c.1 - o : Nat), c.2))

/-- A read of any length, granule by granule; it ends at the first error. -/
def State.cmdRead (s : State) (x : Cmd) (va : Int) (n : Nat) : Except EngErr (List Byte) × State :=
  (granPieces va n).foldl
    (fun acc p =>
      match acc with
      | (.error e, t) => (.error e, t)
      | (.ok bs, t) =>
        match t.cmdPiece x p.1 p.2 with
        | (.error e, u) => (.error e, u)
        | (.ok cs, u) => (.ok (bs ++ cs), u))
    (.ok [], s)

/-- The access `o` bytes below. -/
def Access.back (a : Access) (o : Nat) : Access :=
  match a with
  | .store r f ord => .store r (f - o) ord
  | .mem k ord c e m => .mem (k - o) ord c e m

/-- Bytes kept for a poisoned granule until the command has all 32, which then go in one access (R166). -/
def Work.part (w : Work) (acc : Access) (va : Nat) (bs : List Byte) : Work :=
  let g := va / 32 * 32
  let base := acc.back (va % 32)
  let old := (w.x.parts.find? (fun p => p.va == g)).getD { acc := base, va := g, unit := w.x.prog, bytes := [] }
  let bytes := (List.range bs.length).foldl (fun t i => tabPut t (va % 32 + i) (bs.getD i 0)) old.bytes
  let rest := w.x.parts.filter (fun p => p.va != g)
  if bytes.length == 32 then
    { w with s := (w.s.write w.x.agent base (bytes.map (·.2))).1, x := { w.x with parts := rest } }
  else { w with x := { w.x with parts := rest ++ [{ old with bytes := bytes }] } }

/-- The command has written at a place. -/
def Cmd.wroteAt (x : Cmd) (acc : Access) : Cmd :=
  { x with wrote := true, lines := match acc.line? with | some l => setAdd x.lines l | none => x.lines }

/-- A write of bytes of one granule. `merge` says that the command writes whole granules in one access (R166). -/
def Work.put (w : Work) (merge : Bool) (va : Int) (bs : List Byte) : Work :=
  if w.err.isSome then w
  else match w.s.cmdAccess w.x va .write with
    | (.error e, t) => { w with s := t, err := some e }
    | (.ok acc, t) =>
      let x := w.x.wroteAt acc
      match t.write x.agent acc bs with
      | (t1, none) => { s := t1, x := x, err := none }
      | (t1, some _) =>
        let w1 : Work := { s := t1, x := x, err := none }
        if merge then w1.part acc va.toNat bs
        else { w1 with s := t1.mark acc, err := some (0x04, t1.detector acc x.code, va.toNat / 32 * 32) }

/-- A write of any length. -/
def Work.puts (w : Work) (merge : Bool) (va : Int) (bs : List Byte) : Work :=
  (granPieces va bs.length).foldl (fun w p => w.put merge p.1 ((bs.drop (p.1 - va).toNat).take p.2)) w

/-- The granule that would receive data with an error is poisoned (R166). -/
def Work.taint (w : Work) (dst : Int) : Work :=
  match w.s.cmdAccess w.x dst .write with
  | (.error _, t) => { w with s := t }
  | (.ok acc, t) => { w with s := t.mark acc, x := w.x.wroteAt acc }

/-- An address of a command translates, so an error there is one of the data and not of the walk (R166, R249). -/
def State.mapped (s : State) (x : Cmd) (va : Int) : Bool := match (s.cmdAccess x va .read).1 with | .ok _ => true | .error _ => false

/-- A piece of a copy, within one granule on both sides. An error of the source's data poisons every granule that would receive it; an error of
its walk ends the command and poisons nothing (R166, R249). -/
def Work.piece (w : Work) (merge : Bool) (src dst : Int) (n : Nat) : Work :=
  match w.err with
  | some e => if e.1 == 0x03 && (e.2.2 / 32 : Nat) == src / 32 && w.s.mapped w.x src then w.taint dst else w
  | none =>
    match w.s.cmdPiece w.x src n with
    | (.ok bs, t) => { w with s := t }.put merge dst bs
    | (.error e, t) =>
      let w1 : Work := { w with s := t, err := some e }
      if e.1 == 0x03 && t.mapped w.x src then w1.taint dst else w1

/-- A copy cut at the granules of both sides. -/
def moveCuts : Nat → Int → Int → Nat → List (Int × Int × Nat)
  | 0, _, _, _ => []
  | fuel + 1, src, dst, n =>
    if n == 0 then []
    else
      let k := min n (min (32 - (src % 32).toNat) (32 - (dst % 32).toNat))
      (src, dst, k) :: moveCuts fuel (src + k) (dst + k) (n - k)

/-- A copy of contiguous bytes, in rising order. -/
def Work.move (w : Work) (merge : Bool) (src dst : Int) (n : Nat) : Work :=
  (moveCuts (n + 1) src dst n).foldl (fun w p => w.piece merge p.1 p.2.1 p.2.2) w

/-! ## Receipts (R164) -/

/-- The command of a number. -/
def State.cmd (s : State) (id : Nat) : Option Cmd := s.cmds.find? (fun x => x.id == id)

/-- The state with a command replaced. -/
def State.setCmd (s : State) (x : Cmd) : State := { s with cmds := listUpd s.cmds (fun y => y.id == x.id) (fun _ => x) }

/-- A receipt of a command. Log entry 14: DEDUCED. -/
def State.cmdReceipt (s : State) (x : Cmd) (state cls unit prog addr : Nat) (frank : List Nat) : State :=
  match x.racc with
  | some acc => s.writeReceipt x.agent acc state cls unit prog addr frank
  | none => s

/-- RED, ARED or BCST. -/
def isCollective : Instr → Bool
  | .red .. | .ared .. | .bcst .. => true
  | _ => false

/-- A terminal command is still needed: by DRAIN while its task lives, and by the members of its group that are still at work (R187). -/
def State.keepsCmd (s : State) (x : Cmd) : Bool :=
  !x.terminal || s.tasks.any (fun t => some t.id == x.task)
    || (isCollective x.op && s.cmds.any (fun y => isCollective y.op && y.started && y.gen == x.gen && !y.terminal))

/-- Terminal commands that nothing needs any more leave. Log entry 64: DEDUCED. -/
def State.sweepCmds (s : State) : State := { s with cmds := s.cmds.filter s.keepsCmd }

/-- The terminal receipt of a command, with its release at .sys; a failed or partial one makes a dead-letter entry (R164, R256, R304).
Log entry 64: DEDUCED. -/
def State.cmdEnd (s : State) (x : Cmd) (state cls unit prog addr : Nat) : State :=
  let s1 := s.cmdReceipt x state cls unit prog addr (setUnion x.lines x.frank)
  let s2 := if state == stFailed || state == stPartial then
      s1.deadLetter x.die (s1.dlrEntry addr x.rcpt unit 1 x.array x.ctx 0)
    else s1
  (s2.setCmd { x with terminal := true }).sweepCmds

/-- A command ended by an error, with the units wholly complete before it. -/
def State.cmdFail (s : State) (x : Cmd) (e : EngErr) : State :=
  let prog := x.parts.foldl (fun p q => min p q.unit) x.prog
  s.cmdEnd x stFailed e.1 e.2.1 prog e.2.2

/-! ## Descriptors (R180 to R186, R193 to R197) -/

/-- An address word with its reserved bits clear. -/
def addrOk (a : Nat) : Bool := a < 2 ^ 55

/-- The words of a descriptor from `i` on are 0. -/
def Cmd.restZero (x : Cmd) (i : Nat) : Bool := (x.words.drop i).all (· == 0)

/-- LEN of a copy or fill (R180, R181). -/
def lenOk (n : Nat) : Bool := 1 ≤ n && n < 2 ^ 40

/-- The element size of CPYA, and of GATH and SCAT (R182, R183). -/
def Cmd.cpyaE (x : Cmd) : Nat := x.w 0 / 2 ^ 56 % 16
def Cmd.gathE (x : Cmd) : Nat := x.w 3 / 2 ^ 32 % 16

/-- The counts and the strides of CPYA (R182). -/
def Cmd.counts (x : Cmd) : List Nat := [x.w 2 % 2 ^ 32, x.w 2 / 2 ^ 32, x.w 3 % 2 ^ 32, x.w 3 / 2 ^ 32]
def Cmd.strides (x : Cmd) (i : Nat) : List Int :=
  [sext 32 (x.w i), sext 32 (x.w i / 2 ^ 32), sext 32 (x.w (i + 1)), sext 32 (x.w (i + 1) / 2 ^ 32)]

/-- The grid of SORTD (R196). -/
def Cmd.dims (x : Cmd) : Nat × Nat × Nat := (x.w 3 % 2 ^ 16, x.w 3 / 2 ^ 16 % 2 ^ 16, x.w 3 / 2 ^ 32 % 2 ^ 16)

/-- The descriptor of a copy, a Sorter command or a host copy is valid in its content (R180 to R186, R194 to R197, R320). Log entry 56: DEDUCED. -/
def Cmd.valid (x : Cmd) : Bool :=
  match x.op with
  | .cpy .. => addrOk (x.w 0) && addrOk (x.w 1) && lenOk (x.w 2) && x.restZero 3
  | .cpya .. =>
    x.w 0 / 2 ^ 55 % 2 == 0 && x.w 0 / 2 ^ 60 == 0 && x.cpyaE ≤ 6 && addrOk (x.w 1) && !x.counts.contains 0
  | .gath .. | .scat .. =>
    addrOk (x.w 0) && addrOk (x.w 1) && addrOk (x.w 2) && 1 ≤ x.w 3 % 2 ^ 32 && x.w 3 % 2 ^ 32 ≤ 2 ^ 24 && x.gathE ≤ 6
      && x.w 3 / 2 ^ 37 == 0 && x.restZero 4
  | .fill .. => addrOk (x.w 0) && lenOk (x.w 1) && x.restZero 3
  | .ckpt .. => addrOk (x.w 0) && addrOk (x.w 1) && x.w 2 % 8 == 0 && x.restZero 4
  | .sortb .. =>
    addrOk (x.w 0) && 1 ≤ x.w 1 && x.w 1 ≤ 2 ^ 24 && addrOk (x.w 2) && x.w 3 < 2 ^ 32 && x.restZero 4
  | .sortm .. => addrOk (x.w 0) && addrOk (x.w 1) && addrOk (x.w 2) && x.w 3 < 2 ^ 32 && x.restZero 4
  | .sortd .. =>
    let (a, b, c) := x.dims
    addrOk (x.w 0) && addrOk (x.w 1) && x.w 2 < 2 ^ 32 && x.w 3 < 2 ^ 48 && 1 ≤ a * b * c && a * b * c ≤ 2 ^ 24
      && x.w 4 < 2 ^ 16 && x.restZero 5
  | .sortl .. => addrOk (x.w 0) && addrOk (x.w 1) && x.w 2 < 2 ^ 12 && x.w 2 % 4 == 0 && x.restZero 3
  | .hcopyWrite .. => addrOk (x.w 1) && lenOk (x.w 2) && x.w 3 < 2 ^ 17 && addrOk (x.w 4) && x.restZero 5
  | _ => true

/-! ## Couriers (R181 to R186) -/

/-- The units of a copy of `n` bytes (R164). -/
def pages4k (n : Nat) : Nat := (n + 4095) / 4096

/-- The elements of CPYA. -/
def Cmd.cpyaN (x : Cmd) : Nat := x.counts.foldl (· * ·) 1

/-- The units of a courier command or a host copy (R164): of CKPT those of its data, without the header. Log entry 73: DEDUCED. -/
def Cmd.units (x : Cmd) : Nat :=
  match x.op with
  | .cpy .. | .ckpt .. | .hcopyWrite .. => pages4k (x.w 2)
  | .cpya .. => pages4k (x.cpyaN * 2 ^ x.cpyaE)
  | .fill .. => pages4k (x.w 1)
  | .gath .. | .scat .. => x.w 3 % 2 ^ 32
  | _ => 0

/-- The address of element `n` of CPYA on a side. -/
def Cmd.cpyaAddr (x : Cmd) (base i n : Nat) : Int :=
  (base % 2 ^ 55 : Nat) + levelOffsets x.counts (x.strides i) [false, false, false, false] n

/-- An address that its command requires aligned (R182, R183). -/
def Work.aligned (w : Work) (va : Int) (n : Nat) : Work :=
  if w.err.isSome || va % n == 0 then w else { w with err := some (0x06, w.x.code, wrap 64 va) }

/-- An element copied between two aligned addresses. -/
def Work.element (w : Work) (merge : Bool) (src dst : Int) (e : Nat) : Work :=
  let w1 := (w.aligned src (2 ^ e)).aligned dst (2 ^ e)
  if w1.err.isSome then w1 else w1.move merge src dst (2 ^ e)

/-- An index of the list (R183). -/
def State.cmdIndex (s : State) (x : Cmd) (n : Nat) : Except EngErr Nat × State :=
  let k := if x.w 3 / 2 ^ 36 % 2 == 1 then 8 else 4
  match s.cmdRead x (x.w 2 + k * n : Nat) k with
  | (.error e, t) => (.error e, t)
  | (.ok bs, t) => (.ok (leNat bs), t)

/-- A 64-bit word rotated left (R189). -/
def rotl (x : DWord) (n : Nat) : DWord := x.rotateLeft (n % 64)

/-- The XOR seal of bytes (R189). -/
def xorSeal (bs : List Byte) : DWord :=
  (leWords 8 ((bs.length + 7) / 8) bs).zipIdx.foldl (fun a w => a ^^^ rotl (BitVec.ofNat 64 w.1) w.2) 0

/-- FILL: byte i is byte (DST + i) mod 8 of the pattern (R181). -/
def fillBytes (dst p n : Nat) : List Byte := (List.range n).map (fun i => BitVec.ofNat 8 (p / 2 ^ (8 * ((dst + i) % 8))))

/-- The next unit of a host copy: bytes between host memory and the context (R320). What it writes is among what the host has written (R272). -/
def Work.hostUnit (w : Work) : Work :=
  let o := 4096 * w.x.prog
  let n := min 4096 (w.x.w 2 - o)
  let bus := w.x.w 0 + o
  let va := w.x.w 1 + o
  if w.x.w 3 / 2 ^ 16 % 2 == 0 then
    let w1 := w.puts true va ((List.range n).map (fun i => tabGet 0 w.s.hostMem (bus + i)))
    { w1 with s := { w1.s with hostLines := setUnion w1.s.hostLines w1.x.lines } }
  else match w.s.cmdRead w.x va n with
    | (.error e, t) => { w with s := t, err := some e }
    | (.ok bs, t) =>
      { w with s := { t with hostMem := (List.range n).foldl (fun h i => tabSet 0 h (bus + i) (bs.getD i 0)) t.hostMem },
               x := { w.x with wrote := true } }

/-- The next unit of a courier command. CKPT reads a unit for its seal before it moves it, and reads it again for the move (R186).
Log entry 73: DEDUCED. Of elements of a SCAT with the same index, which R184 puts in no order, the last in the list stays (log entry 77, DESIGN
CHOICE). -/
def Work.courierUnit (w : Work) : Work :=
  let x := w.x
  let o := 4096 * x.prog
  match x.op with
  | .cpy .. => w.move true (x.w 0 + o : Nat) (x.w 1 + o : Nat) (min 4096 (x.w 2 - o))
  | .fill .. => w.puts true (x.w 0 + o : Nat) (fillBytes (x.w 0 + o) (x.w 2) (min 4096 (x.w 1 - o)))
  | .ckpt .. =>
    let n := min 4096 (x.w 2 - o)
    let w1 := w.aligned (x.w 1) 64
    if w1.err.isSome then w1
    else match w.s.cmdRead x (x.w 0 + o : Nat) n with
      | (.ok bs, t) =>
        { w with s := t, x := { x with sealSum := x.sealSum ^^^ xorSeal bs } }.move true (x.w 0 + o : Nat)
          (x.w 1 + 64 + o : Nat) n
      | (.error _, t) => { w with s := t }.move true (x.w 0 + o : Nat) (x.w 1 + 64 + o : Nat) n
  | .cpya .. =>
    let per := 4096 / 2 ^ x.cpyaE
    (span (x.prog * per) (min per (x.cpyaN - x.prog * per))).foldl
      (fun w n => w.element true (x.cpyaAddr (x.w 0) 4 n) (x.cpyaAddr (x.w 1) 6 n) x.cpyaE) w
  | .gath .. =>
    match w.s.cmdIndex x x.prog with
    | (.error e, t) => { w with s := t, err := some e }
    | (.ok i, t) => { w with s := t }.element false (x.w 0 + i * 2 ^ x.gathE : Nat) (x.w 1 + x.prog * 2 ^ x.gathE : Nat) x.gathE
  | .scat .. =>
    match w.s.cmdIndex x x.prog with
    | (.error e, t) => { w with s := t, err := some e }
    | (.ok i, t) => { w with s := t }.element true (x.w 1 + x.prog * 2 ^ x.gathE : Nat) (x.w 0 + i * 2 ^ x.gathE : Nat) x.gathE
  | _ => w.hostUnit

/-- The header of a checkpoint, written last (R186). -/
def Work.header (w : Work) : Work :=
  match w.x.op with
  | .ckpt .. =>
    (w.aligned (w.x.w 1) 64).puts true (w.x.w 1)
      (leBytes 8 (w.x.w 3) ++ leBytes 8 (w.x.w 2) ++ leBytes 8 w.x.sealSum.toNat ++ List.replicate 40 0)
  | _ => w

/-- A poisoned granule that the command has not written whole (R166). -/
def Work.leftover (w : Work) : Work :=
  match w.err, w.x.parts with
  | none, p :: _ => { w with err := some (0x04, w.s.detector p.acc w.x.code, p.va) }
  | _, _ => w

/-- The command goes on, or an error ends it. -/
def Work.close (w : Work) (next : State → Cmd → State) : State :=
  match w.err with
  | some e => w.s.cmdFail w.x e
  | none => next w.s w.x

/-- One unit of a courier command, or after the last its end; a checkpoint gets its header once its data is complete (R164, R186). -/
def State.courierStep (s : State) (x : Cmd) : State :=
  if x.prog < x.units then
    (({ s := s, x := x, err := none } : Work).courierUnit).close (fun t y => t.setCmd { y with prog := y.prog + 1 })
  else
    (({ s := s, x := x, err := none } : Work).leftover.header).close
      (fun t y => t.cmdEnd y stComplete 0 y.code y.prog 0)

/-! ## CCAN (R185) -/

/-- CCAN, which carries no tag: it names the tag that it matches (R180). -/
def isCcan : Instr → Bool
  | .ccan .. => true
  | _ => false

/-- The commands that a CCAN matches: of its context, on its courier, with its tag, not yet terminal (R185). -/
def Cmd.matches (c x : Cmd) : Bool :=
  !isCcan x.op && x.ctx == c.ctx && x.die == c.die && x.unit == c.unit && x.tag == c.tag && !x.terminal

/-- A command ended before its work was done: CANCELLED before its first write, else PARTIAL (R164). -/
def State.cmdStop (s : State) (x : Cmd) (cls : Nat) : State :=
  s.cmdEnd x (if x.wrote then stPartial else stCancelled) cls x.code (x.parts.foldl (fun p q => min p q.unit) x.prog) 0

/-- CCAN: every matched command ends, and then its own receipt counts them. -/
def State.cancelStep (s : State) (c : Cmd) : State :=
  let l := s.cmds.filter c.matches
  (l.foldl (fun t x => t.cmdStop x 0x0C) s).cmdEnd c stComplete 0 c.code l.length 0

/-! ## The Sorter (R193 to R197) -/

/-- The entries rise strictly. -/
def rising : List Nat → Bool
  | a :: b :: t => a < b && rising (b :: t)
  | _ => true

/-- A list read (R193). Log entry 40: DESIGN CHOICE. -/
def State.readList (s : State) (x : Cmd) (va : Nat) : Except EngErr (List Nat) × State :=
  if va % 16 ≠ 0 then (.error (0x06, x.code, va), s)
  else match s.cmdRead x va 16 with
    | (.error e, t) => (.error e, t)
    | (.ok h, t) =>
      let n := leNat (h.take 4)
      if leNat (h.drop 8) ≠ 0 then (.error (0x07, x.code, 0), t)
      else match t.cmdRead x (va + 16 : Nat) (4 * n) with
        | (.error e, u) => (.error e, u)
        | (.ok bs, u) =>
          let l := leWords 4 n bs
          if rising l then (.ok l, u) else (.error (0x07, x.code, 0), u)

/-- SORTB (R194). -/
def bitmapList (nbits : Nat) (bs : List Byte) : List Nat :=
  (List.range nbits).filter (fun t => bit (bs.getD (t / 8) 0) (t % 8))

/-- The coordinate after a step along an axis, wrapped or dropped (R196). -/
def gridStep (v d : Int) (dim : Nat) (wrap : Bool) : Option Nat :=
  if 0 ≤ v + d && v + d < dim then some (v + d).toNat else if wrap then some ((v + d) % dim).toNat else none

/-- The offsets of a radius: −R to R. -/
def radius (r : Nat) : List Int := (List.range (2 * r + 1)).map (fun (i : Nat) => (i : Int) - r)

/-- SORTD: the tiles around one tile (R196). Of the wrap bits w4[15:13], bit 13 is taken for x and bit 15 for z (log entry 77, DESIGN CHOICE). -/
def Cmd.around (x : Cmd) (t : Nat) : List Nat :=
  let (a, b, c) := x.dims
  let f := x.w 4
  let cross := f / 2 ^ 12 % 2 == 1
  let wr (i : Nat) : Bool := f / 2 ^ (13 + i) % 2 == 1
  (radius (f % 16)).flatMap (fun dx => (radius (f / 16 % 16)).flatMap (fun dy => (radius (f / 256 % 16)).filterMap (fun dz =>
    let moved := (if dx == 0 then 0 else 1) + (if dy == 0 then 0 else 1) + (if dz == 0 then 0 else 1)
    if cross && 1 < moved then none
    else match gridStep (t % a : Nat) dx a (wr 0), gridStep (t / a % b : Nat) dy b (wr 1), gridStep (t / (a * b) : Nat) dz c (wr 2) with
      | some p, some q, some r => some (p + a * (q + b * r))
      | _, _, _ => none)))

/-- The output list of a Sorter command (R194 to R196). -/
def State.sorted (s : State) (x : Cmd) : Except EngErr (List Nat) × State :=
  match x.op with
  | .sortb .. =>
    match s.cmdRead x (x.w 0) ((x.w 1 + 7) / 8) with
    | (.error e, t) => (.error e, t)
    | (.ok bs, t) => (.ok (bitmapList (x.w 1) bs), t)
  | .sortm .. =>
    match s.readList x (x.w 0) with
    | (.error e, t) => (.error e, t)
    | (.ok a, t) =>
      match t.readList x (x.w 1) with
      | (.error e, u) => (.error e, u)
      | (.ok b, u) => (.ok (setUnion a b), u)
  | _ =>
    match s.readList x (x.w 0) with
    | (.error e, t) => (.error e, t)
    | (.ok l, t) =>
      let (a, b, c) := x.dims
      if l.any (fun v => a * b * c ≤ v) then (.error (0x07, x.code, 0), t)
      else (.ok (l.foldl (fun o v => setUnion o (x.around v)) []), t)

/-- The address and the capacity of the output list. -/
def Cmd.output (x : Cmd) : Nat × Nat :=
  match x.op with
  | .sortd .. => (x.w 1, x.w 2 % 2 ^ 32)
  | _ => (x.w 2, x.w 3 % 2 ^ 32)

/-- One step of SORTB, SORTM or SORTD: the output worked out and its header written, an entry written, or the end (R193).
Log entry 40: DESIGN CHOICE. -/
def State.sorterStep (s : State) (x : Cmd) : State :=
  let (dst, cap) := x.output
  match x.chunks with
  | [] =>
    if dst % 16 ≠ 0 then s.cmdFail x (0x06, x.code, dst)
    else match s.sorted x with
      | (.error e, t) => t.cmdFail x e
      | (.ok l, t) =>
        let w : Work := { s := t, x := x, err := none }
        (w.puts false dst (leBytes 4 l.length ++ leBytes 4 cap ++ List.replicate 8 0)).close
          (fun u y => u.setCmd { y with chunks := [(l.length, l.flatMap (leBytes 4))] })
  | (n, bs) :: _ =>
    if x.prog < min n cap then
      ({ s := s, x := x, err := none : Work }.puts false (dst + 16 + 4 * x.prog : Nat) ((bs.drop (4 * x.prog)).take 4)).close
        (fun t y => t.setCmd { y with prog := y.prog + 1 })
    else if cap < n then s.cmdEnd x stFailed 0x0D x.code x.prog 0
    else s.cmdEnd x stComplete 0 x.code x.prog 0

/-- The descriptor of entry `n` of SORTL: the template with its receipt raised by 16 × n (R197). -/
def sortlDesc (tmpl : List Byte) (n : Nat) : List Byte :=
  let r := (qword tmpl 0x18).toNat
  tmpl.take 0x18 ++ leBytes 8 (r / 2 ^ 55 * 2 ^ 55 + (r + 16 * n) % 2 ^ 55) ++ tmpl.drop 0x20

/-- One step of SORTL: its list and template read, one entry submitted, or its end (R197, R274). Log entry 40: DESIGN CHOICE. -/
def State.sortlStep (s : State) (x : Cmd) : State :=
  match x.chunks with
  | (n, es) :: (_, tmpl) :: _ =>
    if n ≤ x.next then s.cmdEnd x stComplete 0 x.code x.prog 0
    else
      let v := leNat ((es.drop (4 * x.next)).take 4)
      let bs := sortlDesc tmpl x.next
      let d := parseDesc bs
      let die := d.dieOr x.die
      match s.context x.ctx with
      | none => s
      | some c =>
        match s.submit c die bs d.prio (some (x.w 2 % 2 ^ 12, v)) x.frank false with
        | .accepted t => t.setCmd { x with prog := x.prog + 1, next := x.next + 1, waitAt := none }
        | .refused t => t.setCmd { x with next := x.next + 1, waitAt := none }
        | .badReceipt => (s.refuse x.ctx die d.rcpt.toNat).setCmd { x with next := x.next + 1, waitAt := none }
        | .full => s.setCmd { x with waitAt := some (x.waitAt.getD s.ticks) }
  | _ =>
    if x.w 1 % 128 ≠ 0 then s.cmdFail x (0x06, x.code, x.w 1)
    else match s.readList x (x.w 0) with
      | (.error e, t) => t.cmdFail x e
      | (.ok l, t) =>
        match t.cmdRead x (x.w 1) 128 with
        | (.error e, u) => u.cmdFail x e
        | (.ok tmpl, u) =>
          if (parseDesc tmpl).argLen < x.w 2 % 2 ^ 12 + 4 then u.cmdFail x (0x07, x.code, 0)
          else u.setCmd { x with chunks := [(l.length, l.flatMap (leBytes 4)), (0, tmpl)] }

/-! ## The place of a destination (R113) -/

/-- The DRAIN path that holds a place: 0 a face store, 1 the HBM of the die's own stacks, 2 this module, 3 the pod. -/
def State.pathOf (s : State) (d : Nat) (acc : Access) : Nat :=
  match acc with
  | .store _ _ _ => 0
  | .mem key _ _ _ _ =>
    if Config.hbmBytes ≤ key then 3
    else if s.frame (key / 2 ^ 21 % 2 ^ 18) / 2 ^ 16 % 4 == d then 1 else 2

/-- The widest path among addresses; one that does not translate counts for nothing, since the command ends there. -/
def State.widest (s : State) (x : Cmd) (l : List Int) : Nat :=
  l.foldl (fun m va => match (s.cmdAccess x va .write).1 with | .ok acc => max m (s.pathOf x.die acc) | .error _ => m) 0

/-- The first address of a range in each aligned block of `b` bytes that it touches. -/
def blockAddrs (b : Nat) (va : Int) (n : Nat) : List Int :=
  if n == 0 then []
  else (List.range ((va + n - 1) / b - va / b + 1).toNat).map (fun i => max va ((va / b + (i : Nat)) * b))

/-- One address in each 64 KiB page of a range. -/
def pageAddrs (va n : Nat) : List Int := blockAddrs 65536 va n

/-- The addresses of the elements on the indexed side of a GATH or SCAT, as far as its index list reads (R183). -/
def State.indexed (s : State) (x : Cmd) : List Int :=
  (List.range (x.w 3 % 2 ^ 32)).filterMap (fun n =>
    match (s.cmdIndex x n).1 with | .ok i => some ((x.w 0 + i * 2 ^ x.gathE : Nat) : Int) | .error _ => none)

/-- The path of a courier command's destination (R113). -/
def State.copyPath (s : State) (x : Cmd) : Nat :=
  match x.op with
  | .cpy .. => s.widest x (pageAddrs (x.w 1) (x.w 2))
  | .fill .. => s.widest x (pageAddrs (x.w 0) (x.w 1))
  | .ckpt .. => s.widest x (pageAddrs (x.w 1) (x.w 2 + 64))
  | .cpya .. => s.widest x ((List.range x.cpyaN).map (x.cpyaAddr (x.w 1) 6))
  | .gath .. => s.widest x (pageAddrs (x.w 1) (x.w 3 % 2 ^ 32 * 2 ^ x.gathE))
  | .scat .. => s.widest x (s.indexed x)
  | _ => s.widest x [(x.w 1 : Int)]

end Sys2Proof.Machine
end

