-- ==== Sys2Proof/Machine/Collective.lean ====
section
/-!
DEFINITION. Collectives (13_faces_engines.md R187 to R192): groups, contributions as sent with their residuals, combination in the
order of arrival, seals, results and the non-finite map.
-/

namespace Sys2Proof.Machine

/-! ## The descriptor (R187) -/

/-- BCST; RED. -/
def isBcst : Instr → Bool
  | .bcst .. => true
  | _ => false
def isRed : Instr → Bool
  | .red .. => true
  | _ => false

def Cmd.collCount (x : Cmd) : Nat := x.w 2 % 2 ^ 40
def Cmd.collFormat (x : Cmd) : Nat := x.w 2 / 2 ^ 40 % 16
/-- WIRE, with 15 for FORMAT. -/
def Cmd.collWire (x : Cmd) : Nat := if x.w 2 / 2 ^ 44 % 16 == 15 then x.collFormat else x.w 2 / 2 ^ 44 % 16
def Cmd.collOp (x : Cmd) : Nat := x.w 2 / 2 ^ 48 % 16
def Cmd.collN (x : Cmd) : Nat := x.w 4 % 2 ^ 32
def Cmd.collRank (x : Cmd) : Nat := x.w 4 / 2 ^ 32
def Cmd.collRoot (x : Cmd) : Nat := x.w 6 % 2 ^ 32
def Cmd.collGroup (x : Cmd) : Nat := x.w 6 / 2 ^ 32

/-- A floating format by its code: FP32, BF16, FP16, E4M3, E5M2. -/
def collFloat (c : Nat) : Option FloatFmt :=
  match c with
  | 0 => some fp32 | 1 => some bf16 | 2 => some fp16 | 3 => some fpE4m3 | 4 => some fpE5m2 | _ => none

/-- The bytes of an element. -/
def collSize (c : Nat) : Nat :=
  match c with
  | 0 => 4 | 1 => 2 | 2 => 2 | 3 => 1 | 4 => 1 | 5 => 1 | 6 => 4 | _ => 8

/-- WIRE is narrower than FORMAT (R192). -/
def Cmd.narrows (x : Cmd) : Bool := collSize x.collWire < collSize x.collFormat

/-- The descriptor of a collective is valid (R187). A RANK or a ROOT of N or more names no entry and is refused, ROOT for ARED too, of which R187 says
nothing (log entry 77, DESIGN CHOICE). -/
def Cmd.collValid (x : Cmd) : Bool :=
  let wire := x.w 2 / 2 ^ 44 % 16
  addrOk (x.w 0) && addrOk (x.w 1) && addrOk (x.w 3) && addrOk (x.w 5) && addrOk (x.w 7) && x.w 2 / 2 ^ 52 == 0
    && x.collFormat ≤ 7
    && (wire == 15 || (wire ≤ 4 && x.collFormat ≤ 4 && collSize wire ≤ collSize x.collFormat))
    && (isBcst x.op || (x.collOp ≤ 5 && (x.collOp ≤ 2 || 5 ≤ x.collFormat)))
    && 2 ≤ x.collN && x.collN ≤ 65536 && x.collRank < x.collN && x.collRoot < x.collN

/-- The elements of a chunk as sent, and the chunks of the command (R189). -/
def Cmd.perChunk (x : Cmd) : Nat := 4096 / collSize x.collWire
def Cmd.numChunks (x : Cmd) : Nat := (x.collCount + x.perChunk - 1) / x.perChunk
/-- The elements of chunk `c`. -/
def Cmd.chunkLen (x : Cmd) (c : Nat) : Nat := min x.perChunk (x.collCount - c * x.perChunk)

/-- The member has a DST to fill. -/
def Cmd.receives (x : Cmd) : Bool := !isRed x.op || x.collRank == x.collRoot
/-- The member sends a contribution. -/
def Cmd.sends (x : Cmd) : Bool := !isBcst x.op || x.collRank == x.collRoot

/-! ## Groups (R187) -/

/-- Two commands are members of one group. -/
def Cmd.sameGroup (x y : Cmd) : Bool :=
  isCollective y.op && y.ctx == x.ctx && isRed x.op == isRed y.op && isBcst x.op == isBcst y.op && y.collGroup == x.collGroup
    && y.collN == x.collN && x.w 2 == y.w 2

/-- The instance of its group that a starting command joins: the oldest one still at work that has no command of its rank, or a new one
(R187; log entry 56, DEDUCED). -/
def State.joinGen (s : State) (x : Cmd) : Nat :=
  let others := s.cmds.filter (fun y => y.id != x.id && y.started && x.sameGroup y)
  match others.find? (fun y => !y.terminal && !others.any (fun z => z.gen == y.gen && z.collRank == x.collRank)) with
  | some y => y.gen
  | none => x.id

/-- The started command of a rank whose table entry lies in this module, of the same instance. Log entry 52: DEDUCED. -/
def State.member (s : State) (x : Cmd) (rank : Nat) : Option Cmd :=
  match x.members[rank]? with
  | some (m, a) =>
    if m != s.modId.toNat then none
    else s.cmds.find? (fun y => x.sameGroup y && y.started && y.gen == x.gen && y.collRank == rank && y.array == a)
  | none => none

/-- The ranks of this module. -/
def State.localRanks (s : State) (x : Cmd) : List Nat :=
  (List.range x.collN).filter (fun r => (x.members[r]?.map (·.1)) == some s.modId.toNat)

/-- Every member of this module has started. -/
def State.formed (s : State) (x : Cmd) : Bool := (s.localRanks x).all (fun r => (s.member x r).isSome)

/-! ## Contributions (R189, R192) -/

/-- A float rounded to a format to nearest even, subnormals kept, infinity on overflow (R188). -/
def rne (f : FloatFmt) (v : ExactNum) : Nat := (f.round roundPlain v).1

/-- One element as sent, with its new residual: q = RoundWIRE(x + ρ), ρ = RoundFP32(x + ρ − q). Log entry 56: DEDUCED. -/
def sendElem (src wire : FloatFmt) (x rho : Nat) : Nat × Nat :=
  let t := ((src.read x).add false (fp32.read rho)).1
  let q := rne wire t
  (q, rne fp32 (t.add false (wire.read q).negate).1)

/-- An element sent without residuals. -/
def convElem (src wire : Nat) (x : Nat) : Nat :=
  match collFloat src, collFloat wire with
  | some f, some g => if src == wire then x else rne g (f.read x)
  | _, _ => x

/-- Chunk `c` of a sender, made when it is first taken: SRC read, rounded to WIRE, residuals kept (R192). -/
def Work.sendChunk (w : Work) (c : Nat) : Work :=
  let x := w.x
  if w.err.isSome || x.chunks.any (fun e => e.1 == c) then w
  else
    let n := x.chunkLen c
    let first := c * x.perChunk
    let fs := collSize x.collFormat
    let ws := collSize x.collWire
    match w.s.cmdRead x (x.w 0 + first * fs : Nat) (n * fs) with
    | (.error e, t) => { w with s := t, err := some e }
    | (.ok bs, t) =>
      let xs := leWords fs n bs
      let keep (y : Cmd) (l : List Nat) : Cmd := { y with chunks := y.chunks ++ [(c, l.flatMap (leBytes ws))] }
      match collFloat x.collFormat, collFloat x.collWire with
      | some f, some g =>
        if x.narrows && x.w 5 != 0 then
          let ra := x.w 5 + 64 + 4 * first
          let rhos := if x.fresh then (.ok (List.replicate (4 * n) 0), t) else t.cmdRead x (ra : Nat) (4 * n)
          match rhos with
          | (.error e, u) => { w with s := u, err := some e }
          | (.ok rb, u) =>
            let qs := List.zipWith (sendElem f g) xs (leWords 4 n rb)
            let w1 := ({ w with s := u } : Work).puts true (ra : Nat) ((qs.map (·.2)).flatMap (leBytes 4))
            { w1 with x := keep w1.x (qs.map (·.1)) }
        else { w with s := t, x := keep x (xs.map (convElem x.collFormat x.collWire)) }
      | _, _ => { w with s := t, x := keep x xs }

/-! ## Seals (R189, R190) -/

/-- The seal of a SUM over integers: Σ (2i + 1)·xi mod 2^64. -/
def intSeal (size : Nat) (xs : List Nat) : DWord :=
  xs.zipIdx.foldl (fun a v => a + BitVec.ofInt 64 ((2 * v.2 + 1 : Nat) * sext (8 * size) v.1)) 0

/-- FP64 addition of two images. -/
def add64 (a b : Nat) : Nat := rne fp64 ((fp64.read a).add false (fp64.read b)).1

/-- The seal of a SUM over floats: S and A over the finite elements, as FP64 images. -/
def floatSeal (f : FloatFmt) (xs : List Nat) : Nat × Nat :=
  xs.zipIdx.foldl
    (fun a v =>
      match f.read v.1 with
      | .fin neg m e =>
        let t (n : Bool) : Nat := rne fp64 (.fin n ((2 * v.2 + 1) * m) e)
        (add64 a.1 (t neg), add64 a.2 (t false))
      | _ => a)
    (0, 0)

/-- The bits m of R190 for a format. -/
def sealBits (c : Nat) : Nat :=
  match c with
  | 0 => 24 | 2 => 11 | 1 => 8 | 3 => 4 | _ => 3

/-- |S − S_red| ≤ (N + 2) × 2^−m × A_red (R190). -/
def floatSealOk (n m : Nat) (s red a : Nat) : Bool :=
  match ((fp64.read s).add false (fp64.read red).negate).1, fp64.read a with
  | .fin _ md ed, .fin _ ma ea => !(ExactNum.fin false ((n + 2) * ma) (ea - m)).lt (.fin false md ed)
  | _, _ => false

/-! ## Combination (R188) -/

/-- A contribution to a chunk: the elements as sent, its seals, its non-finite flag. -/
structure Contribution where
  elems : List Nat
  sealS : DWord
  sealA : DWord
  nonFinite : Bool

/-- An infinity or a NaN. -/
def ExactNum.wild : ExactNum → Bool
  | .fin _ _ _ => false
  | _ => true

/-- Some element of a float format is not finite (R191). -/
def anyWild (c : Nat) (xs : List Nat) : Bool :=
  match collFloat c with
  | some f => xs.any (fun v => (f.read v).wild)
  | none => false

/-- The contribution that a member makes of its sent bytes. -/
def Cmd.contribution (x : Cmd) (bs : List Byte) : Contribution :=
  let ws := collSize x.collWire
  let xs := leWords ws (bs.length / ws) bs
  let plain : Contribution := { elems := xs, sealS := xorSeal bs, sealA := 0, nonFinite := anyWild x.collWire xs }
  if isBcst x.op || x.collOp != 0 then plain
  else match collFloat x.collWire with
    | some f =>
      let p := floatSeal f xs
      { plain with sealS := BitVec.ofNat 64 p.1, sealA := BitVec.ofNat 64 p.2 }
    | none => { plain with sealS := intSeal ws xs }

/-- One combination of two elements; floats are held in FP32 (R188). -/
def combine2 (wire op : Nat) (a b : Nat) : Nat :=
  match collFloat wire with
  | some f =>
    let u := fp32.read a
    let v := f.read b
    rne fp32 (if op == 0 then (u.add false v).1 else if op == 1 then u.min v else u.max v)
  | none =>
    let w := 8 * collSize wire
    match op with
    | 0 => (a + b) % 2 ^ w
    | 1 => if sext w b < sext w a then b else a
    | 2 => if sext w a < sext w b then b else a
    | 3 => a &&& b
    | 4 => a ||| b
    | _ => a ^^^ b

/-- An element as the first of a combination. -/
def lift1 (wire v : Nat) : Nat := match collFloat wire with | some f => rne fp32 (f.read v) | none => v
/-- A partial sum forwarded: rounded once more to WIRE. -/
def forward1 (wire v : Nat) : Nat := match collFloat wire with | some f => rne fp32 (f.read (rne f (fp32.read v))) | none => v
/-- The result in FORMAT. -/
def result1 (format v : Nat) : Nat := match collFloat format with | some f => rne f (fp32.read v) | none => v

/-- The running sum of a chunk and its non-finite flag, in the order given; `none` forwards the partial sum. -/
def combineAll (wire op : Nat) (l : List (Option Contribution)) : List Nat × Bool :=
  l.foldl
    (fun acc c =>
      let out := match c with
        | none => acc.1.map (forward1 wire)
        | some k => if acc.1.isEmpty then k.elems.map (lift1 wire) else List.zipWith (combine2 wire op) acc.1 k.elems
      let wild := match c with | some k => k.nonFinite | none => false
      (out, acc.2 || wild || (collFloat wire).isSome && anyWild 0 out))
    ([], false)

/-- The seal check of a result chunk of FORMAT elements, before its rounding for the operations that carry XOR seals (R190). -/
def Cmd.sealOk (x : Cmd) (res : List Nat) (l : List Contribution) : Bool :=
  let fs := collSize x.collFormat
  if isBcst x.op || x.collOp == 1 || x.collOp == 2 || x.collOp == 3 || x.collOp == 4 then
    l.all (fun k => k.sealS == xorSeal (k.elems.flatMap (leBytes (collSize x.collWire))))
  else if x.collOp == 5 then
    xorSeal (res.flatMap (leBytes fs)) == l.foldl (fun a k => a ^^^ k.sealS) 0
  else match collFloat x.collFormat with
    | some f =>
      let red := l.foldl (fun a k => (add64 a.1 k.sealS.toNat, add64 a.2 k.sealA.toNat)) (0, 0)
      floatSealOk x.collN (min (sealBits x.collFormat) (sealBits x.collWire)) (floatSeal f res).1 red.1 red.2
    | none =>
      let w := min 64 (8 * fs)
      (intSeal fs res).toNat % 2 ^ w == (l.foldl (fun a k => a + k.sealS) (0 : DWord)).toNat % 2 ^ w

/-! ## A chunk received (R190, R191) -/

/-- The order of a chunk is complete: each contributing member of this module once, each entry below N a member of this module
or an arrival, and the arrivals standing for members elsewhere. -/
def State.orderOk (s : State) (x : Cmd) (c : Chunk) : Bool :=
  let ranks := c.order.filter (· < x.collN)
  let need := (s.localRanks x).filter (fun r => !isBcst x.op || r == x.collRoot)
  let far := (List.range x.collN).any (fun r => !(s.localRanks x).contains r && (!isBcst x.op || r == x.collRoot))
  decide ranks.Nodup && need.all (ranks.contains ·)
    && ranks.all (fun r => need.contains r || c.remote.any (fun a => a.rank == r && !(s.localRanks x).contains r))
    && (!far || ranks.any (fun r => !(s.localRanks x).contains r))

/-- The elements of a chunk that a bad granule of SRC or of the residuals holds: the first and their number. -/
def Cmd.badElems (x : Cmd) (c a : Nat) : Nat × Nat :=
  let first := c * x.perChunk
  let fs := collSize x.collFormat
  let (base, size) := if x.w 0 ≤ a && a < x.w 0 + (first + x.chunkLen c) * fs then (x.w 0, fs) else (x.w 5 + 64, 4)
  let g := a / 32 * 32
  let lo := max first ((g - base) / size)
  (lo, min (first + x.chunkLen c) ((g + 32 - base + size - 1) / size) - lo)

/-- The granules of a member's DST that would receive some elements are poisoned (R166). -/
def State.taintElems (s : State) (x : Cmd) (lo n : Nat) : State :=
  if !x.receives || x.terminal then s
  else
    let fs := collSize x.collFormat
    let w := (granPieces (x.w 1 + lo * fs : Nat) (n * fs)).foldl (fun (w : Work) p => w.taint p.1) { s := s, x := x, err := none }
    w.s.setCmd w.x

/-- A member's contribution cannot be read: an uncorrectable error poisons every granule that would receive its data, and the member's command
ends (R166). -/
def State.sendFails (s : State) (x : Cmd) (c : Nat) (e : EngErr) : State :=
  let s1 := s.setCmd x
  let (lo, n) := x.badElems c e.2.2
  let s2 := if e.1 != 0x03 || !s1.mapped x e.2.2 then s1
    else (s1.localRanks x).foldl (fun t r => match t.member x r with | some y => t.taintElems y lo n | none => t) s1
  match s2.cmd x.id with
  | some y => s2.cmdFail y e
  | none => s2

/-- Every sending member of this module has made the chunk; a member whose SRC fails ends, and the others wait. -/
def State.sendAll (s : State) (x : Cmd) (c : Nat) : State × Bool :=
  (s.localRanks x).foldl
    (fun acc r =>
      match acc.1.member x r with
      | none => (acc.1, false)
      | some y =>
        if !y.sends || y.chunks.any (fun e => e.1 == c) then acc
        else if y.terminal then (acc.1, false)
        else
          let w := ({ s := acc.1, x := y, err := none } : Work).sendChunk c
          match w.err with
          | some e => (w.s.sendFails w.x c e, false)
          | none => (w.s.setCmd w.x, acc.2))
    (s, true)

/-- The contribution of a rank. -/
def State.contributed (s : State) (x : Cmd) (c : Chunk) (r : Nat) : Option Contribution :=
  match c.remote.find? (fun a => a.rank == r), s.member x r with
  | _, some y => (y.chunks.find? (fun e => e.1 == c.index)).map (fun e => y.contribution e.2)
  | some a, none =>
    let ws := collSize x.collWire
    some { elems := leWords ws (x.chunkLen c.index) a.data, sealS := a.sealS, sealA := a.sealA, nonFinite := a.nonFinite }
  | none, none => none

/-- The reduced flag of a chunk into the map (R191): a write of less than a granule, which merges nothing into a poisoned one (R166). -/
def Work.mapBit (w : Work) (c : Nat) (b : Bool) : Work :=
  if w.x.w 7 == 0 || w.err.isSome then w
  else
    let va : Nat := w.x.w 7 + c / 8
    match w.s.cmdAccess w.x va .write with
    | (.error e, t) => { w with s := t, err := some e }
    | (.ok acc, t) =>
      let o := t.read w.x.agent acc 1
      let unit := o.st.detector acc w.x.code
      match o.poison with
      | some .ue => { s := o.st.mark acc, x := w.x.wroteAt acc, err := some (0x04, unit, va / 32 * 32) }
      | some .keyDead => { w with s := o.st, err := some (0x0B, unit, va) }
      | none =>
        let old := (o.bytes.getD 0 0) &&& ~~~(1#8 <<< (c % 8))
        ({ w with s := o.st } : Work).put false va [if b then old ||| (1#8 <<< (c % 8)) else old]

/-- Units wholly complete after some chunks (R164). -/
def Cmd.collProg (x : Cmd) (chunks : Nat) : Nat :=
  if x.numChunks ≤ chunks then pages4k (x.collCount * collSize x.collFormat)
  else chunks * collSize x.collFormat / collSize x.collWire

/-- The result of a chunk as some contributions form it, in their order (R188 to R191). -/
def Cmd.formChunk (x : Cmd) (index : Nat) (ks : List (Option Contribution)) : ChunkResult :=
  let (sum, wild) := combineAll x.collWire x.collOp ks
  let got : List Contribution := ks.filterMap (fun k => k)
  let res := if isBcst x.op then got.flatMap (fun k => k.elems.map (convElem x.collWire x.collFormat))
    else sum.map (result1 x.collFormat)
  { index := index, elems := res, wild := wild, sealed := x.sealOk res got }

/-- The group keeps a result for every member of this module: one reduced chunk and one reduced flag (R187, R191; log entry 56, DEDUCED). -/
def State.publish (s : State) (x : Cmd) (r : ChunkResult) : State :=
  { s with cmds := listUpd s.cmds (fun y => y.started && x.sameGroup y && y.gen == x.gen) (fun y => { y with results := y.results ++ [r] }) }

/-- A member takes its next chunk, which the first member to take it forms in the order of arrival; it checks it, and writes it where it has a
DST (R187 to R191). The group has answered: the time until the next chunk counts anew (R165). -/
def State.receiveChunk (s : State) (x : Cmd) (c : Chunk) : State :=
  if !isCollective x.op || !x.started || x.terminal || !x.collValid || c.index != x.next || x.numChunks ≤ c.index
      || !s.formed x || !s.orderOk x c then s
  else
    let (s1, ready) := s.sendAll x c.index
    match s1.cmd x.id with
    | none => s1
    | some x1 =>
      let l : List (Option (Option Contribution)) :=
        c.order.map (fun r => if r < x1.collN then some (s1.contributed x1 c r) else none)
      if !ready || x1.terminal || l.any (fun e => match e with | some none => true | _ => false) then s1
      else
        let ks : List (Option Contribution) := l.map (fun e => e.getD none)
        let had := x1.results.find? (fun r => r.index == c.index)
        let r := had.getD (x1.formChunk c.index ks)
        let s2 := if had.isSome then s1 else s1.publish x1 r
        let x2 := if had.isSome then x1 else { x1 with results := x1.results ++ [r] }
        let fs := collSize x2.collFormat
        let dst := x2.w 1 + c.index * x2.perChunk * fs
        if x2.receives && !r.sealed then s2.cmdEnd x2 stFailed 0x05 x2.code c.index dst
        else
          let w : Work := { s := s2, x := x2, err := none }
          let w1 := if x2.receives then w.puts true (dst : Nat) (r.elems.flatMap (leBytes fs)) else w
          (w1.mapBit c.index r.wild).close
            (fun t y => t.setCmd { y with next := c.index + 1, prog := y.collProg (c.index + 1), startAt := t.ticks })

/-! ## Start and end -/

/-- The header of a residual buffer that matches a command (R192). -/
def Cmd.residHead (x : Cmd) : List Byte := leBytes 8 x.collCount ++ [BitVec.ofNat 8 (x.collFormat + 16 * (x.w 2 / 2 ^ 44 % 16))]

/-- The group table is read, and the residual header is matched or written (R187, R192). -/
def Work.collStart (w : Work) : Work :=
  if !w.x.collValid then w
  else match w.s.cmdRead w.x (w.x.w 3 : Nat) (16 * w.x.collN) with
    | (.error e, t) => { w with s := t, err := some e }
    | (.ok bs, t) =>
      let x := { w.x with members := (leWords 16 w.x.collN bs).map (fun v => (v % 1024, v / 2 ^ 16 % 64)), gen := t.joinGen w.x }
      let w1 : Work := { s := t, x := x, err := none }
      if !(x.sends && x.narrows && x.w 5 != 0) then w1
      else match t.cmdRead x (x.w 5 : Nat) 9 with
        | (.error e, u) => { w1 with s := u, err := some e }
        | (.ok h, u) =>
          if h == x.residHead then { w1 with s := u }
          else ({ w1 with s := u, x := { x with fresh := true } } : Work).puts true (x.w 5 : Nat) x.residHead

/-- A collective ends COMPLETE once its own DST holds every chunk (R187): one of no elements at once. Log entry 73: DEDUCED. -/
def State.collEnd (s : State) (x : Cmd) : State :=
  if !x.collValid then s.cmdFail x (0x07, x.code, 0)
  else if x.numChunks ≤ x.next then
    ({ s := s, x := x, err := none } : Work).leftover.close
      (fun t y => t.cmdEnd y stComplete 0 y.code (y.collProg y.numChunks) 0)
  else s

/-- A member of this module has ended without the chunk that the command needs next, so the group will not answer (R165). -/
def State.collBroken (s : State) (x : Cmd) : Bool :=
  !(x.results.any (fun r => r.index == x.next)) && (s.localRanks x).any (fun r =>
    match s.member x r with | some y => y.terminal && y.sends && !y.chunks.any (fun e => e.1 == x.next) | none => false)

/-- A command waits for its group: the group has not formed, it will not answer, or a chunk is to come in which members elsewhere have a part.
A group with members elsewhere has formed once a chunk has come. Log entry 57: DEDUCED. -/
def State.collWaits (s : State) (x : Cmd) : Bool :=
  let far := (List.range x.collN).any (fun r => !(s.localRanks x).contains r)
  (x.next == 0 && !s.formed x) || s.collBroken x || (far && x.next < x.numChunks)

/-- A command that its group has not answered within STALL.TMO, since its start or its last chunk, ends (R165, R187). -/
def State.collTimeout (s : State) (x : Cmd) : State :=
  if isCollective x.op && x.started && !x.terminal && x.startAt + x.tmo < s.ticks && s.collWaits x then s.cmdEnd x stFailed 0x08 x.code x.prog 0
  else s

/-- The path of the destination of a collective (R113): a member without DST writes to none. -/
def State.collPath (s : State) (x : Cmd) : Nat :=
  if x.receives then s.widest x (pageAddrs (x.w 1) (x.collCount * collSize x.collFormat)) else 0

end Sys2Proof.Machine
end

