-- ==== Sys2Proof/Machine/Post.lean ====
section
/-!
DEFINITION. The post ring (13_faces_engines.md R198 to R202, 14_faces_engines_notes.md R203): packets, the slots they hold, their
hops and the inbox, and PRECV.
-/

namespace Sys2Proof.Machine

/-! ## Paths (R198, R200, R201) -/

/-- The stop of an array. -/
def stopOf (a : Nat) : Nat := a % 16 / 2

/-- The hops of a path. -/
def hopsOf (src dst : Nat) (ccw : Bool) : Nat :=
  if ccw then (stopOf src + 8 - stopOf dst) % 8 else (stopOf dst + 8 - stopOf src) % 8

/-- The hops of a packet, and its flits. -/
def Packet.hops (p : Packet) : Nat := hopsOf p.src p.dst p.ccw
def Packet.len (p : Packet) : Nat := p.flitAt.length

/-- The stop at a hop. -/
def Packet.stop (p : Packet) (h : Nat) : Nat := if p.ccw then (stopOf p.src + 8 - h) % 8 else (stopOf p.src + h) % 8

/-- The packet has crossed the dateline by a hop, and is on VC1 (R201). -/
def Packet.onVc1 (p : Packet) (h : Nat) : Bool := if p.ccw then stopOf p.src < h else 8 ≤ stopOf p.src + h

/-! ## Slots (R198, R199, R203) -/

/-- A stop of one ring. -/
def Packet.atStop (p q : Packet) (hp hq : Nat) : Bool := p.die == q.die && p.ccw == q.ccw && p.stop hp == q.stop hq

/-- The free shared slots at the stop of hop `h` of a packet's path. -/
def State.poolFree (s : State) (p : Packet) (h : Nat) : Nat :=
  16 - ((s.packets.filter (fun q => q.pools.any (fun k => p.atStop q h k))).map Packet.len).sum

/-- The escape slots of the packet's virtual channel that are free at the stop of hop `h`. -/
def State.escapeFree (s : State) (p : Packet) (h : Nat) : Nat :=
  2 - ((s.packets.map (fun q =>
    (q.flitAt.filter (fun f => f.2 && f.1 ≤ q.hops && p.atStop q h f.1 && q.onVc1 f.1 == p.onVc1 h)).length)).sum)

/-- The stop before the last that the packet may leave as a whole: flit i reaches it by i cycles after the start of the hop, at two cycles for
each hop that it lies behind (R203). -/
def Packet.together (p : Packet) : Option Nat :=
  match p.flitAt with
  | [] => none
  | f :: _ =>
    if f.1 < p.hops && p.flitAt.zipIdx.all (fun g => g.1.1 ≤ f.1 && 2 * (f.1 - g.1.1) ≤ g.2) then some f.1 else none

/-- What a packet may send now, with the hop that it leaves: all its flits into the next shared pool, or one into an escape slot (R199). -/
inductive Send where
  | whole (h : Nat)
  | flit (i h : Nat)
  deriving DecidableEq, Repr

/-- The send of one flit of a packet. Where the next pool has room for the packet, flit 0 goes there with all the others, once they have come close
enough; else it goes into an escape slot, and the others follow it there (R199, R203). -/
def State.sendOf (s : State) (p : Packet) (i : Nat) : Option Send :=
  let h := (p.flitAt.getD i (0, false)).1
  if p.hops ≤ h || (i != 0 && (p.flitAt.getD (i - 1) (0, false)).1 ≤ h) then none
  else if i == 0 && p.len ≤ s.poolFree p (h + 1) then p.together.map .whole
  else if 0 < s.escapeFree p (h + 1) then some (.flit i h)
  else none

/-- The sends that a packet may make now, each on a link of its own, that of its last flit first. -/
def State.sends (s : State) (p : Packet) : List Send := (List.range p.len).reverse.filterMap (s.sendOf p)

/-- The hop that a send leaves. -/
def Send.hop : Send → Nat
  | .whole h => h
  | .flit _ h => h

/-- The preference of a send on its link (R199): 0 an escape flit in transit, 1 a packet in transit in the shared pool, 2 a POST. -/
def Packet.preference (p : Packet) (x : Send) : Nat :=
  if x.hop == 0 then 2
  else
    let esc := match x with
      | .flit i _ => (p.flitAt.getD i (0, false)).2
      | .whole _ => (p.flitAt.getD 0 (0, false)).2
    if esc then 0 else 1

/-- The place in `State.postTurn` of the stop that sends a packet. -/
def Packet.turnAt (p : Packet) : Nat := 16 * (p.die % 4) + 8 * b2n p.ccw + stopOf p.src

/-- The array that shares the stop has the turn: the packet's own array sent a POST last (R199). -/
def State.yieldsTo (s : State) (p q : Packet) : Bool := q.src != p.src && tabFind s.postTurn p.turnAt == some p.src

/-- Another packet may make a send that the link prefers (R199). Of the packets in transit in a pool the oldest is that of the POST that was issued
first: the spec gives no measure of a packet's age (log entry 77, DESIGN CHOICE). -/
def State.preferred (s : State) (p : Packet) (x : Send) : Bool :=
  s.packets.any (fun q =>
    q.cmd != p.cmd && (s.sends q).any (fun y =>
      p.atStop q x.hop y.hop
        && (q.preference y < p.preference x || (q.preference y == 1 && p.preference x == 1 && q.cmd < p.cmd)
            || (q.preference y == 2 && p.preference x == 2 && s.yieldsTo p q))))

/-- The send that a packet makes at its next hop: the first of those that no preferred one keeps from its link. Of the flits of one packet the last
goes first (log entry 57, DEDUCED). -/
def State.mayShip (s : State) (p : Packet) : Option Send := (s.sends p).find? (fun x => !s.preferred p x)

/-- The state with a packet replaced. -/
def State.setPacket (s : State) (p : Packet) : State :=
  { s with packets := listUpd s.packets (fun q => q.cmd == p.cmd) (fun _ => p) }

/-- A send of a POST takes its array's turn at the stop (R199). -/
def State.takeTurn (s : State) (p : Packet) (x : Send) : State :=
  if x.hop == 0 then { s with postTurn := tabPut s.postTurn p.turnAt p.src } else s

/-- The packet after a send. -/
def Packet.ship (p : Packet) (x : Send) : Packet :=
  match x with
  | .whole h => { p with flitAt := p.flitAt.map (fun _ => (h + 1, false)), pools := p.pools ++ [h + 1] }
  | .flit i h => { p with flitAt := p.flitAt.set i (h + 1, true), esc := true }

/-! ## The inbox (R202) -/

/-- The destination array runs a task of the sender's context; a task whose receipt is written runs there until its commands let the array go.
Log entry 74: DEDUCED. -/
def State.hasTask (s : State) (p : Packet) : Bool :=
  match s.runOn p.dst with
  | some r => r.ctx == p.ctx
  | none => false

/-- A flit of the packet has entered the inbox. -/
def Packet.entering (p : Packet) : Bool := p.flitAt.any (fun f => p.hops < f.1)

/-- The free flit slots of an inbox: messages and packets that are entering hold theirs. -/
def State.inboxFree (s : State) (a : Nat) : Nat :=
  256 - (((s.arr a).inbox.map (fun m => m.flits.length / 16)).sum
    + ((s.packets.filter (fun q => q.dst == a && q.entering)).map Packet.len).sum)

/-- The inbox has room for the whole packet. -/
def State.roomFor (s : State) (p : Packet) : Bool := p.entering || p.len ≤ s.inboxFree p.dst

/-- The header of a message (R202). -/
def Packet.header (p : Packet) : DWord :=
  BitVec.ofNat 64 (p.src % 16 + 16 * b2n p.ccw + 32 * (p.len - 1) + 2 ^ 8 * p.tag.toNat + 2 ^ 24 * p.hops
    + 2 ^ 27 * b2n (p.onVc1 p.hops) + 2 ^ 28 * b2n p.esc)

/-- A packet leaves the ring with the end of its POST: its slots are free (R203). -/
def State.packetGone (s : State) (p : Packet) : State := { s with packets := s.packets.filter (fun q => q.cmd != p.cmd) }

/-- A packet whose destination runs no task of its context is discarded whole, and its POST ends NOCTX with PROG 0 (R202).
Log entry 74: DEDUCED. -/
def State.noctx (s : State) (p : Packet) : State :=
  let s1 := s.packetGone p
  match s1.cmd p.cmd with
  | some x => s1.cmdEnd x stFailed 0x0F x.code 0 0
  | none => s1

/-- The whole packet is in the inbox: the POST ends COMPLETE with its flits as PROG (R200). -/
def State.deliverPacket (s : State) (p : Packet) : State :=
  let a := s.arr p.dst
  let s1 := (s.packetGone p).setArr p.dst { a with inbox := a.inbox ++ [⟨p.header, p.data⟩] }
  match s1.cmd p.cmd with
  | some x => s1.cmdEnd x stComplete 0 x.code p.len 0
  | none => s1

/-- One flit at the destination stop enters the inbox, in order. -/
def Packet.arrive (p : Packet) : Option Packet :=
  (p.flitAt.zipIdx.find? (fun f =>
    f.1.1 == p.hops && (f.2 == 0 || p.hops < (p.flitAt.getD (f.2 - 1) (0, false)).1))).map
    (fun f => { p with flitAt := p.flitAt.set f.2 (p.hops + 1, false) })

/-- The flits that have come to the destination stop enter the inbox, in order, while it has room for the whole packet; with the last one the packet
is delivered (R202, R203). -/
def State.landFlits : Nat → State → Packet → State
  | 0, s, p => s.setPacket p
  | n + 1, s, p =>
    match p.arrive with
    | none => s.setPacket p
    | some q =>
      if !s.hasTask p then s.noctx p
      else if !s.roomFor p then s.setPacket p
      else if q.flitAt.all (fun f => q.hops < f.1) then s.deliverPacket q
      else State.landFlits n s q

/-- One hop of a packet: a send on a link, with which a flit may come to the destination stop and enters the inbox as it arrives, or the entry of
flits that have waited there for room (R199, R203). -/
def State.hopPacket (s : State) (p : Packet) : State :=
  match s.mayShip p with
  | some x => (s.takeTurn p x).landFlits p.len (p.ship x)
  | none => s.landFlits p.len p

/-- A packet of which every flit has reached the destination stop enters the inbox when there is room for it (R202). -/
def State.enterInbox (s : State) (p : Packet) : State :=
  if !p.flitAt.all (fun f => p.hops ≤ f.1) then s
  else if !s.hasTask p then s.noctx p
  else if s.roomFor p then s.deliverPacket p else s

/-! ## POST (R200) -/

/-- The flits of a POST, each within the head array's configured scratchpad. -/
def State.postData (s : State) (x : Cmd) : Nat → Nat → Except EngErr (List Byte) × State
  | 0, _ => (.ok [], s)
  | n + 1, va =>
    match s.cmdAccess x va .read with
    | (.ok (.store a f _), t) =>
      if a != x.array || f < 0x300000 || spadEnd (t.arr a).spad < f + 16 then (.error (0x07, x.code, 0), t)
      else match t.cmdRead x va 16 with
        | (.error e, u) => (.error e, u)
        | (.ok bs, u) =>
          match u.postData x n (va + 16) with
          | (.ok cs, v) => (.ok (bs ++ cs), v)
          | e => e
    | (_, t) => (.error (0x07, x.code, 0), t)

/-- The packet of a POST: STARTED written before its first access to data (R164), its header checked, its flits read, and the packet at its
stop (R200). -/
def State.startPost (s : State) (x0 : Cmd) : State :=
  let h := x0.w 0
  let n := h / 32 % 8 + 1
  let x := { x0 with started := true, startAt := s.ticks }
  let s1 := (s.cmdReceipt x stStarted 0 x.code 0 0 []).setCmd x
  if h / 2 ^ 24 != 0 then s1.cmdFail x (0x07, x.code, 0)
  else match s1.postData x n x.desc with
    | (.error e, t) => t.cmdFail x e
    | (.ok bs, t) =>
      let p : Packet :=
        { cmd := x.id, die := x.die, ctx := x.ctx, src := x.array, dst := 16 * x.die + h % 16, ccw := h / 16 % 2 == 1,
          tag := BitVec.ofNat 16 (h / 256), data := bs, flitAt := List.replicate n (0, false), pools := [], esc := false }
      { t with packets := t.packets ++ [p] }

/-! ## PRECV (R202) -/

/-- Bytes stored at a 16-byte-aligned address, 16 at a time; every piece must translate before the first is written. -/
def Ctl.storeFlits (c : Ctl) (va : Nat) (bs : List Byte) : Except (Nat × Nat) Ctl :=
  let pieces := (List.range (bs.length / 16)).map (fun i => (va + 16 * i, (bs.drop (16 * i)).take 16))
  match pieces.findSome? (fun p => match (c.translate (p.1 % 2 ^ 55) .write).1 with | .error e => some (e, p.1 % 2 ^ 55) | .ok _ => none) with
  | some e => .error e
  | none =>
    .ok (pieces.foldl
      (fun d p =>
        match d.translate (p.1 % 2 ^ 55) .write with
        | (.ok acc, d1) => d1.store acc p.1 p.2
        | (.error _, d1) => d1) c)

/-- Log entry 56: DEDUCED. -/
def precvSlot (g : QGuard) (d t h : BitVec 6) (q : BitVec 3) : Slot :=
  guarded g (fun old c =>
    let va := (old.x d).toNat % 2 ^ 55
    if va % 16 ≠ 0 then .fault (issueFault 0x002 va)
    else
      let a := c.s.arr old.head
      match a.inbox with
      | [] => c.awaitAs old.precvEnd 1 old t q false c id
      | m :: rest =>
        if old.precvEnd == some false then .ok (c.setQ q true)
        else match c.storeFlits va m.flits with
          | .error e => .xlate e.1 e.2
          | .ok c1 =>
            let c2 := { c1 with s := c1.s.setArr old.head { c1.s.arr old.head with inbox := rest }, judged := some true }
            (c2.setQ q false).setS h m.hdr)

end Sys2Proof.Machine
end

