-- ==== Sys2Proof/Machine/Submit.lean ====
section
/-!
DEFINITION. The engine slot S7 at issue (13_faces_engines.md R162, R180), and the start and the end of a command at its engine
(R164).
-/

namespace Sys2Proof.Machine

/-! ## Issue (R162) -/

/-- The timeout of STALL.TMO in ticks; 0 stands for 2^32 (R133). Log entry 61: DESIGN CHOICE. -/
def tmoTicks (x : BitVec 32) : Nat := if x == 0 then 2 ^ 32 else x.toNat

/-- The commands of a task that count against the 32: those with a receipt that is not terminal. -/
def State.outstanding (s : State) (task : Nat) : Nat := (s.cmds.filter (fun x => x.task == some task && !x.terminal)).length

/-- A command as it enters its queue. -/
def newCmd (s : State) (r : Run) (unit : Nat) (op : Instr) (desc rcpt : Nat) (acc : Access) (tag : BitVec 48) (words : List Nat)
    (frank : List Nat) : Cmd :=
  { id := s.nextCmd, die := r.die, unit := unit, op := op, ctx := r.ctx, task := some r.task, arrays := r.arrays, array := r.head,
    desc := desc, rcpt := rcpt, racc := some acc, tag := tag, words := words, started := false, startAt := 0,
    tmo := tmoTicks r.stallTmo, prog := 0, wrote := false, lines := [], frank := frank, sealSum := 0, parts := [], next := 0,
    waitAt := none, members := [], fresh := false, chunks := [], gen := 0, results := [], terminal := false, level := none }

/-- A command enters its engine's queue, and ACCEPTED is written (R164). -/
def State.enqueue (s : State) (x : Cmd) : State :=
  { s with cmds := s.cmds ++ [x], nextCmd := s.nextCmd + 1 }.cmdReceipt x stAccepted 0 x.code 0 0 []

/-- An S7 command: the addresses checked, the receipt translated, and the command queued, when fewer than 32 are outstanding. -/
def Ctl.command (c : Ctl) (old : Run) (unit : Nat) (op : Instr) (desc : DWord) (align : Nat) (rcpt : DWord) (tag : BitVec 48)
    (words : List Nat) (release : Ctl → List Nat × Ctl) : Res :=
  let d := desc.toNat % 2 ^ 55
  if d % align ≠ 0 then .fault (issueFault 0x002 d)
  else c.access rcpt 16 .write (fun acc c =>
    if 32 ≤ c.s.outstanding old.task then .wait 3 c
    else
      let (frank, c1) := release c
      .ok { c1 with s := c1.s.enqueue (newCmd c1.s old unit op d (rcpt.toNat % 2 ^ 55) acc tag words frank) })

/-- No release. -/
def noRelease (c : Ctl) : List Nat × Ctl := ([], c)

/-- The release of SORTL, whose children the Sorter submits later (R197, R256): at .pkg, counted as done only up to .die, since a child
may be pinned to this die. Log entry 65: DESIGN CHOICE. -/
def sortlRelease (c : Ctl) : List Nat × Ctl :=
  let wide := max 3 (c.r.rel.getD 3)
  let near := max 2 (c.r.rel.getD 2)
  let lines := wroteAt c.r.wrote wide
  let frank := setUnion lines c.r.relFrank
  (frank,
   { c with s := (c.s.releaseLines c.r.head wide lines).forkLines c.r.head c.r.arrays wide frank,
            r := { c.r with wrote := wroteClear c.r.wrote near, rel := none, relFrank := [] } })

/-- A courier command of R180. -/
def courierSlot (op : Instr) (g : QGuard) (d r t : BitVec 6) (n : BitVec 3) : Slot :=
  guarded g (fun old c => c.command old n.toNat op (old.x d) 64 (old.x r) (fld (old.x t) 0 48) [] noRelease)

def cpySlot (g : QGuard) (d r t : BitVec 6) (n : BitVec 3) : Slot := courierSlot (.cpy g d r t n) g d r t n
def cpyaSlot (g : QGuard) (d r t : BitVec 6) (n : BitVec 3) : Slot := courierSlot (.cpya g d r t n) g d r t n
def gathSlot (g : QGuard) (d r t : BitVec 6) (u : Bool) (n : BitVec 3) : Slot := courierSlot (.gath g d r t u n) g d r t n
def scatSlot (g : QGuard) (d r t : BitVec 6) (u : Bool) (n : BitVec 3) : Slot := courierSlot (.scat g d r t u n) g d r t n
def redSlot (g : QGuard) (d r t : BitVec 6) (n : BitVec 3) : Slot := courierSlot (.red g d r t n) g d r t n
def aredSlot (g : QGuard) (d r t : BitVec 6) (n : BitVec 3) : Slot := courierSlot (.ared g d r t n) g d r t n
def bcstSlot (g : QGuard) (d r t : BitVec 6) (n : BitVec 3) : Slot := courierSlot (.bcst g d r t n) g d r t n
def fillSlot (g : QGuard) (d r t : BitVec 6) (n : BitVec 3) : Slot := courierSlot (.fill g d r t n) g d r t n
def ckptSlot (g : QGuard) (d r t : BitVec 6) (n : BitVec 3) : Slot := courierSlot (.ckpt g d r t n) g d r t n

/-- CCAN names its tag in its first register, and no descriptor (R180). -/
def ccanSlot (g : QGuard) (t r : BitVec 6) (n : BitVec 3) : Slot :=
  guarded g (fun old c => c.command old n.toNat (.ccan g t r n) 0 64 (old.x r) (fld (old.x t) 0 48) [] noRelease)

def sortbSlot (g : QGuard) (d r : BitVec 6) : Slot :=
  guarded g (fun old c => c.command old 8 (.sortb g d r) (old.x d) 64 (old.x r) 0 [] noRelease)
def sortmSlot (g : QGuard) (d r : BitVec 6) : Slot :=
  guarded g (fun old c => c.command old 8 (.sortm g d r) (old.x d) 64 (old.x r) 0 [] noRelease)
def sortdSlot (g : QGuard) (d r : BitVec 6) : Slot :=
  guarded g (fun old c => c.command old 8 (.sortd g d r) (old.x d) 64 (old.x r) 0 [] noRelease)
def sortlSlot (g : QGuard) (d r : BitVec 6) : Slot :=
  guarded g (fun old c => c.command old 8 (.sortl g d r) (old.x d) 64 (old.x r) 0 [] sortlRelease)

/-- POST names its source, its header word and its receipt (R200). -/
def postSlot (g : QGuard) (a h r : BitVec 6) : Slot :=
  guarded g (fun old c => c.command old 9 (.post g a h r) (old.x a) 16 (old.x r) 0 [(old.x h).toNat] noRelease)

/-- The engine slot of a bundle. -/
def engineSlot : Instr → Slot
  | .cpy g d r t n => cpySlot g d r t n
  | .cpya g d r t n => cpyaSlot g d r t n
  | .gath g d r t u n => gathSlot g d r t u n
  | .scat g d r t u n => scatSlot g d r t u n
  | .red g d r t n => redSlot g d r t n
  | .ared g d r t n => aredSlot g d r t n
  | .bcst g d r t n => bcstSlot g d r t n
  | .fill g d r t n => fillSlot g d r t n
  | .ccan g t r n => ccanSlot g t r n
  | .ckpt g d r t n => ckptSlot g d r t n
  | .sortb g d r => sortbSlot g d r
  | .sortl g d r => sortlSlot g d r
  | .sortm g d r => sortmSlot g d r
  | .sortd g d r => sortdSlot g d r
  | .post g a h r => postSlot g a h r
  | .precv g d t h q => precvSlot g d t h q
  | _ => fun _ c => .ok c

/-! ## The engine takes a command (R164) -/

/-- A command may start: those of one task on one courier start in issue order, and a Sorter runs one at a time in order of
arrival (R184, R193). -/
def State.mayStart (s : State) (x : Cmd) : Bool :=
  !x.started && !x.terminal &&
    !s.cmds.any (fun y =>
      y.id < x.id && y.die == x.die && y.unit == x.unit && !y.terminal
        && (if x.unit == 8 then true else x.unit < 8 && y.task == x.task && !y.started))

/-- A command that has read its descriptor: STARTED, then the group of a collective, and the path of its destination. -/
def State.started (s : State) (x : Cmd) (bs : List Byte) : State :=
  let y := { x with words := leWords 8 8 bs, started := true, startAt := s.ticks }
  let s1 := s.cmdReceipt y stStarted 0 y.code 0 0 []
  if isCollective y.op then
    (({ s := s1.setCmd y, x := y, err := none } : Work).collStart).close
      (fun t z => t.setCmd { z with level := if z.collValid then some (t.collPath z) else none })
  else s1.setCmd { y with level := if y.unit < 8 && y.valid then some (s1.copyPath y) else none }

/-- The 64 bytes of a control block in host memory (R320). -/
def State.hostBlock (s : State) (a : Nat) : List Byte := (List.range 64).map (fun i => tabGet 0 s.hostMem (a + i))

/-- A host copy starts: its control block is read, and STARTED is written (R164, R320). Its context and its receipt are those with which it was
queued. Log entry 29: DESIGN CHOICE. -/
def State.startHost (s : State) (x : Cmd) : State :=
  let y := { x with words := leWords 8 8 (s.hostBlock x.desc), started := true, startAt := s.ticks }
  (s.cmdReceipt y stStarted 0 y.code 0 0 []).setCmd y

/-- An engine takes a queued command: its descriptor is read, and STARTED is written. -/
def State.startCmd (s : State) (x : Cmd) : State :=
  if !s.mayStart x then s
  else match x.op with
    | .post .. => s.startPost x
    | .hcopyWrite .. => s.startHost x
    | .ccan .. => (s.cmdReceipt x stStarted 0 x.code 0 0 []).setCmd { x with started := true, startAt := s.ticks }
    | _ =>
      match s.cmdRead x x.desc 64 with
      | (.error e, t) => t.cmdFail x e
      | (.ok bs, t) => t.started x bs

/-! ## Work and end -/

/-- One unit of work of a started command; the last step writes the terminal receipt. -/
def State.workCmd (s : State) (x : Cmd) : State :=
  if !x.started || x.terminal then s
  else match x.op with
    | .ccan .. => s.cancelStep x
    | .post .. => s
    | .red .. | .ared .. | .bcst .. => s.collEnd x
    | .sortb .. | .sortm .. | .sortd .. => if !x.valid then s.cmdFail x (0x07, x.code, 0) else s.sorterStep x
    | .sortl .. => if !x.valid then s.cmdFail x (0x07, x.code, 0) else s.sortlStep x
    | _ => if !x.valid then s.cmdFail x (0x07, x.code, 0) else s.courierStep x

/-- The steps that a command may still need, for one event that finishes it. -/
def Cmd.stepsLeft (x : Cmd) : Nat :=
  match x.op with
  | .sortb .. => 2 ^ 24 + 3
  | .sortm .. | .sortd .. | .sortl .. => 2 ^ 32 + 3
  | _ => x.units + 1

/-- Work until the command is terminal, or cannot go on. -/
def State.finishCmd : Nat → State → Nat → State
  | 0, s, _ => s
  | n + 1, s, id =>
    match s.cmd id with
    | none => s
    | some x =>
      let t := s.workCmd x
      if t.cmd id == some x then t else State.finishCmd n t id

/-- A command of an engine finishes its accesses and writes its terminal receipt (R164). -/
def State.endCmd (s : State) (x : Cmd) : State := State.finishCmd x.stepsLeft s x.id

end Sys2Proof.Machine
end

