-- ==== Sys2Proof/Machine/Issue.lean ====
section
/-!
DEFINITION. The issue of a bundle (03_wave.md R30, R31, R35, 09_sequencer_isa.md R100 to R104, 05_encoding.md R69, 17_loops.md
R228): fetch, legality, the checks in their order, the slots, and the advance.
-/

namespace Sys2Proof.Machine

/-- The control slot of a bundle. -/
def controlSlot : Instr → Slot
  | .br g c o => brSlot g c o
  | .call g c o => callSlot g c o
  | .calli g a => calliSlot g a
  | .ret g => retSlot g
  | .jmpi g a => jmpiSlot g a
  | .loop g a k rot e => loopSlot g a k rot e
  | .loops g i k rot e => loopsSlot g i k rot e
  | .lbrk g => lbrkSlot g
  | .lbrka g => lbrkaSlot g
  | .rotcfg g x y => rotcfgSlot g x y
  | .wave g w => waveSlot g w
  | .fmtset g a => fmtsetSlot g a
  | .semset g e a => semsetSlot g e a
  | .waitf g t q => waitfSlot g t q
  | .waitr g a t q => waitrSlot g a t q
  | .drain g p t q => drainSlot g p t q
  | .fence g sc k => fenceSlot g sc k
  | .rel g sc => relSlot g sc
  | .acq g sc a => acqSlot g sc a
  | .acqW g sc a t q => acqWSlot g sc a t q
  | .bar g sc t q => barSlot g sc t q
  | .launch g a => launchSlot g a
  | .signal g a => signalSlot g a
  | .yield g => yieldSlot g
  | .done g => doneSlot g
  | .trap g code => trapSlot g code
  | .rft g => rftSlot g
  | .sysrd g d n => sysrdSlot g d n
  | .syswr g a n => syswrSlot g a n
  | .docket g a b => docketSlot g a b
  | .dcheck g => dcheckSlot g
  | .stamp g d => stampSlot g d
  | .stampS g d => stampSSlot g d
  | _ => fun _ c => .ok c

/-! ## Stalls and stops -/

/-- Two kinds of stall share a clock: an empty register has one, and everything that a bundle's slots wait for together has one
(log entry 44, DEDUCED). -/
def sameClock (a b : Nat) : Bool := (a == 0) == (b == 0)

/-- Issue waits for a cause of a kind (R103, R104). -/
def Run.stallFor (r : Run) (kind now : Nat) : Run :=
  { r with
    stall := match r.stall with
      | some (k, t) => if sameClock k kind then some (kind, t) else some (kind, now)
      | none => some (kind, now),
    face := if drainKind kind then r.face else none }

/-- The ticks that a stall of a kind has lasted. -/
def Run.stalledFor (r : Run) (kind now : Nat) : Nat :=
  match r.stall with | some (k, t) => if sameClock k kind then now - t else 0 | none => 0

/-- FECTL.FETMO has run out on the empty registers of the bundle: now, or before its slots began to wait (R103). -/
def Run.feLate (r : Run) (now : Nat) : Bool :=
  match r.stall with
  | some (0, t) => tmoTicks r.fetmo ≤ now - t
  | some _ => true
  | none => false

/-- A stall has lasted longer than STALL.TMO (R45, R117, R162). Log entry 61: DESIGN CHOICE. -/
def Run.overdue (r : Run) (ticks : Nat) : Bool := tmoTicks r.stallTmo < ticks

/-- A face stream withholds the next advance: its clock starts with the first attempt (R45). -/
def Run.stream (r : Run) (now : Nat) : Run := { r with face := some (r.face.getD now) }

/-- Issue stops for an event: an arrival of a waiting BAR is withdrawn, and the wave drains (R104, R288). -/
def State.stopIssue (s : State) (r : Run) (why : TrapInfo) : State :=
  let (s1, r1) := s.stopBar r
  s1.setRun (r1.stopFor why)

/-- Issue waits in the stall of a DONE or YIELD, in which no pre-emption is taken (R282). -/
def Run.inEndStall (r : Run) : Bool := match r.stall with | some (8, _) => true | _ => false

/-- An asynchronous cause is taken before the next bundle issues (R297); an interrupt waits while a trap is active (R295). -/
def Run.asyncPending (r : Run) : Bool :=
  !r.ueStore.isEmpty || (r.intr && !r.trap.active) || (r.preempt && !r.inEndStall)

/-- The sequencer may issue: nothing has stopped it, no blank advance is owed, and no withdrawn advance has to be made again. -/
def Run.mayIssue (r : Run) : Bool := r.phase == .issue && r.blanks == 0 && !r.redo && !r.asyncPending

/-! ## Reads of s registers (R59, R101, R103, R126) -/

/-- The slots of a bundle that read and write sequencer state, in the order in which faults are reported (R102). -/
def seqSlots (b : Slots) : List Instr := [b.s1, b.s0, b.s4, b.s5, b.s6, b.s7]

/-- The registers that a slot reads: none when its guard is false, but for SEL (R101). -/
def Run.slotReads (r : Run) (i : Instr) : List (Nat × Bool) :=
  let g := r.guard (seqGuard i)
  if g || isSelScalar i then seqReads g i else []

/-- The selector slot has no guard; the others read under theirs. -/
def Run.reads (r : Run) (b : Slots) : List (Nat × Bool) := (seqSlots b).flatMap r.slotReads

/-- A register that is empty, and not because its data was bad (R103, R126). -/
def Run.isEmpty (r : Run) (n : Nat) : Bool := !(r.sreg n).full && (r.sreg n).poison.isNone

/-- The fault of an empty register that a bundle reads in trapping mode (R103). -/
def Run.readFault (r : Run) (b : Slots) : Option TrapInfo :=
  if (r.reads b).any (fun x => x.2 && r.isEmpty x.1) then some (issueFault 0x001 0) else none

/-- A register that the bundle reads in blocking mode is empty (R103). -/
def Run.readBlocked (r : Run) (b : Slots) : Bool := (r.reads b).any (fun x => r.isEmpty x.1)

/-- The fault of the poisoned registers that a slot reads (R126, R287). -/
def Run.poisonedRead (r : Run) (i : Instr) : Option TrapInfo :=
  (r.slotReads i).findSome? (fun x => (r.sreg x.1).poison.map (fun p => issueFault (poisonFault p) 0))

/-! ## Checks of the bundle -/

/-- SMMS, for the check of R98. -/
def isSmms : Instr → Bool
  | .smms .. => true
  | _ => false

/-- A tile instruction of the bundle does not fit FMT and its semiring entry (R98). Log entry 44: DEDUCED. -/
def Run.mismatch (r : Run) (b : Slots) : Bool :=
  match tileEntry b.s2 with
  | some e => semMismatch r.fmt (r.entry e) (isSmms b.s2)
  | none => false

/-- The bundle at PC is the END of a level of the frame while the next level is open (R237). -/
def Run.endOfOuter (r : Run) : Bool :=
  (span r.base (r.depth - 1 - r.base)).any (fun l => (vget r.levels l Level.reset).stop.toNat == bundleNo r.pc.toNat)

/-! ## What the bundle carries (R31) -/

/-- The semiring entry that a bundle carries. -/
def Run.carried (r : Run) (b : Slots) : DWord :=
  match tileEntry b.s2 with
  | some e => r.entry e
  | none => semEntry0

/-- What the random generator sees of a level: the low half of its INDEX, 0 for a closed level (R80). -/
def Run.openIndex (r : Run) (l : Nat) : BitVec 16 := if l < r.depth then (vget r.levels l Level.reset).index.setWidth 16 else 0

/-- The INDEX of the innermost open level, whichever frame opened it; 0 when none is open (R18, R31, R239). -/
def Run.lidx (r : Run) : Word := if r.depth == 0 then 0 else (vget r.levels (r.depth - 1) Level.reset).index

/-- A bundle at its issue. -/
def Run.flight (r : Run) (b : Slots) (w2 w3 : Word) : Flight :=
  let sel := r.selection b.s4
  { num := r.num, stamp := r.stamp, adv := 0, vadv := r.vadvs + 1, skew := r.skew, handler := r.trap.active, s2 := b.s2, s3 := b.s3,
    w2 := w2, w3 := w3, rowMask := sel.rowMask, colMask := sel.colMask, arrays := sel.arrays, ws := sel.ws,
    lidx := r.lidx,
    lv0 := r.openIndex 0, lv1 := r.openIndex 1,
    fmt := r.fmt, entry := r.carried b, seed := r.rndseed, tag := r.tag, depth := r.depth, base := r.base, tscale := sel.tscale,
    docket := r.docket.isSome && !r.trap.active && !(match b.s0 with | .dcheck g => r.guard g | _ => false) }

/-- The record of a bundle with cell instructions (R46, R84, R235). -/
def Run.record (r : Run) (b : Slots) : List Record :=
  if isNopCell b.s2 && isNopCell b.s3 then []
  else
    let lat := flagLatency r.arrays r.skew + 1
    let exit : Option (Nat × Bool) :=
      if (isLexit b.s2 || isLexit b.s3) && r.base < r.depth then some (r.depth - 1, true) else none
    [{ num := r.num, left := lat, advs := lat,
       flags := if (cellPred b.s2).isSome || (cellPred b.s3).isSome then some Flags.none else none,
       exit := exit, raises := 0, handler := r.trap.active }]

/-- Pending changes of FMT and of the semiring table one bundle nearer (R87, R99). -/
def Run.agePending (r : Run) : Run :=
  let fmtDue := r.fmtPend.filter (fun e => e.1 ≤ 1)
  let semDue := r.semPend.filter (fun e => e.1 ≤ 1)
  { r with
    fmt := fmtDue.foldl (fun _ e => e.2) r.fmt,
    fmtPend := (r.fmtPend.filter (fun e => 1 < e.1)).map (fun e => (e.1 - 1, e.2)),
    srt := semDue.foldl (fun v e => vset v e.2.1 e.2.2) r.srt,
    semPend := (r.semPend.filter (fun e => 1 < e.1)).map (fun e => (e.1 - 1, e.2)) }

/-! ## The slots (R100 to R102) -/

/-- The slots in the order in which their effects are gathered: S5 and S6, which read their descriptors, before the store of S1, S0 before S1
(R255), and the writes of S7 after the load of S1, so that every read sees memory as it was before the bundle (R31). Of a store of S1 and a PRECV
that write one byte, PRECV writes last (log entry 44, DEDUCED). -/
def chainSlots (b : Slots) : List Slot :=
  [injectSlot b.s5, drainSlotOf b.s6, controlSlot b.s0, scalarSlot b.s1, engineSlot b.s7, selectorSlot b.s4]

/-- Each slot by itself with its instruction, in the order in which faults are reported: S1, S0 and S4 (R102), and after them S5, S6 and S7, to
which R102 gives no place (log entry 44, DEDUCED). -/
def reportedSlots (b : Slots) : List (Instr × Slot) :=
  [(b.s1, scalarSlot b.s1), (b.s0, controlSlot b.s0), (b.s4, selectorSlot b.s4), (b.s5, injectSlot b.s5), (b.s6, drainSlotOf b.s6),
   (b.s7, engineSlot b.s7)]

/-- The fault of a result. -/
def Res.fault? : Res → Option TrapInfo
  | .fault t => some t
  | _ => none

/-- The fault of one slot: of a poisoned register that it reads, or its own (R102, R126). -/
def slotFault (old : Run) (c : Ctl) (p : Instr × Slot) : Option TrapInfo := (old.poisonedRead p.1).or ((p.2 old c).fault?)

/-- The kind of a wait. -/
def Res.wait? : Res → Option Nat
  | .wait k _ => some k
  | _ => none

/-- What the slots of a bundle do together. -/
def runSlots (old : Run) (c : Ctl) (b : Slots) : Res :=
  (chainSlots b).foldl (fun acc f => acc.andThen (f old)) (.ok c)

/-- The fault of a bundle: the first of its slots' (R102). -/
def bundleFault (old : Run) (c : Ctl) (b : Slots) : Option TrapInfo := (reportedSlots b).findSome? (slotFault old c)

/-- The wait of a bundle: that of S0 before the others'. -/
def bundleWait (old : Run) (c : Ctl) (b : Slots) : Option Nat :=
  ((b.s0, controlSlot b.s0) :: reportedSlots b).findSome? (fun p => (p.2 old c).wait?)

/-- How a wait has ended at this attempt, or before it. -/
def Res.judged? (x : Res) (before : Option Bool) : Option Bool :=
  match x with
  | .ok d => before.or d.judged
  | _ => before

/-- What an attempt leaves of a bundle that does not issue: S0's wait has acted (a BAR has arrived, or is withdrawn because its timeout has run
out), and each wait that has ended stays as it ended first (R104, R114). Log entry 44: DEDUCED. -/
def Ctl.held (c : Ctl) (old : Run) (b : Slots) : Ctl :=
  let x := controlSlot b.s0 old c
  let d := match x with
    | .wait _ d => d
    | .ok d => if d.judged == some false then { d with r := { d.r with q := c.r.q } } else c
    | .fault _ => c
  { c with s := d.s, r := { d.r with waitEnd := x.judged? old.waitEnd, precvEnd := (engineSlot b.s7 old c).judged? old.precvEnd } }

/-- Issue after its slots: every slot's fault first, then its waits, then the effects of all. Log entry 44: DEDUCED. -/
def evalSlots (old : Run) (c : Ctl) (b : Slots) : Res :=
  match bundleFault old c b with
  | some t => .fault t
  | none =>
    match bundleWait old c b with
    | some k => .wait k (c.held old b)
    | none => runSlots old c b

/-- The run and the bundle once a BAR of S0 has arrived, of which the generation is then tested at the same attempt (R114). -/
def arriveFirst (old : Run) (c : Ctl) (b : Slots) : Run × Ctl :=
  match controlSlot b.s0 old c with
  | .wait _ d => if d.r.arrived != old.arrived then ({ old with arrived := d.r.arrived }, d) else (old, c)
  | _ => (old, c)

/-- An attempt at a bundle. -/
def attempt (old : Run) (c : Ctl) (b : Slots) : Res :=
  match bundleFault old c b with
  | some t => .fault t
  | none => evalSlots (arriveFirst old c b).1 (arriveFirst old c b).2 b

/-- What that attempt leaves when the bundle does not issue after all. -/
def attemptHeld (old : Run) (c : Ctl) (b : Slots) : Ctl := (arriveFirst old c b).2.held (arriveFirst old c b).1 b

/-! ## The advance of an issue -/

/-- An advance counts towards the half-rate hold of every quadrant of the bench (R323). Log entry 35: DEDUCED. -/
def State.countHold (s : State) (r : Run) : State :=
  r.arrays.foldl
    (fun t a =>
      let d := t.die (dieOf a)
      let q := t.quadOf a
      if (r.arrays.find? (fun b => b / 4 == a / 4)) == some a && q.holdOf.isSome && !q.stretching then
        t.setDie (dieOf a) { d with quads := vset d.quads (a % 16 / 4) { q with made := tabPut q.made r.head (tabGet 0 q.made r.head + 1) } }
      else t) s

/-- The logs of the bench's faces without what no later bundle can see. -/
def State.tidy (s : State) (r : Run) : State :=
  let k := s.oldestStamp r
  r.arrays.foldl
    (fun t a =>
      let x := t.arr a
      if x.west.log.isEmpty && x.north.log.isEmpty && x.east.log.isEmpty && x.south.log.isEmpty then t
      else t.setArr a { x with west := x.west.prune k, north := x.north.prune k, east := x.east.prune k, south := x.south.prune k }) s

/-- The sequencer after the slots of a bundle, with the bundle counted. -/
def Ctl.issued (c : Ctl) (old : Run) (b : Slots) (stale : Bool) : Ctl :=
  let c1 := c.applyRot
  let c2 := if (old.atEnd && c1.jump.isNone) || c1.back then c1.backEdge else c1
  let q := old.feq.toNat
  let written := (seqSlots b).any (fun i => old.guard (seqGuard i) && seqQ i == some q)
  let r1 := if stale && !written then c2.r.setQ q true else c2.r
  let r2 := r1.agePending
  let next := c2.jump.getD (wrap 55 (old.pc.toNat + 32))
  { c2 with r :=
      { r2 with
        pc := BitVec.ofNat 55 next, tag := c2.tag, num := old.num + 1, stamp := old.stamp + 1, vadvs := old.vadvs + 1,
        stall := none, waitEnd := none, precvEnd := none, closing := c2.ending.map (fun p => p == .ended) } }

/-- An advance that a face stream withholds; when it has been withheld for longer than STALL.TMO, the face raises FACE.STALL, and
the bundles in the wave are captured as they stand (R45, R290). Log entry 46: DEDUCED. -/
def State.streamStall (s : State) (r : Run) (info : TrapInfo) : State :=
  match r.face with
  | some t => if r.overdue (s.ticks - t) then s.stopIssue r info else s.setRun r
  | none => s.setRun (r.stream s.ticks)

/-- The run with its new bundle's record, as the wave takes the bundle in: its number is the one that is issuing. -/
def Ctl.entering (c : Ctl) (old : Run) (f : Flight) (rec : List Record) : Run :=
  { c.r with records := c.r.records ++ rec, issued := c.r.issued ++ [(f.num, f.vadv, f.skew)], num := old.num }

/-- The run after the advance that brought its bundle in. The bundle of an RFT goes through the cells before the return. -/
def Ctl.entered (c : Ctl) (old r1 : Run) : Run :=
  { r1 with num := old.num + 1, phase := if c.rft then .returning old.pc else goOn c.r.closing }

/-- The errors that write-backs have reported to the sequencer of a head array (R126). -/
def State.reports (s : State) (head : Nat) : List Nat := match s.run? head with | some v => v.ueStore | none => []

/-- The sequencer with the errors that were reported to it while its bundle issued: MEM.UE.STORE is pending for each (R126). -/
def State.hears (s : State) (r : Run) : Run := { r with ueStore := r.ueStore ++ s.reports r.head }

/-- The state once a bundle is in the wave. -/
def State.settleIssue (s : State) (r : Run) : State := ((s.countHold r).tidy r).setRun (s.hears r)

/-- The bundle enters the wave (R30). A stream that stalls withdraws the issue (R45), of which `h` is left; a fault of a cell or a face leaves
the bundle issued and withdraws the advance (R290). -/
def enterWave (h : Ctl) (old : Run) (c : Ctl) (f : Flight) (rec : List Record) : State :=
  match c.s.advance (c.entering old f rec) (some f) false with
  | .stalled info => h.s.streamStall h.r info
  | .fault info s1 r1 =>
    let r2 := { r1 with num := old.num + 1, records := r1.records.map (fun x => { x with left := x.left - 1 }) }
    s1.stopIssue (s1.hears r2) info
  | .moved s1 r1 => s1.settleIssue (c.entered old r1)

/-! ## Issue -/

/-- The tag that the bundle of an RFT carries reaches every cell, as it would with a bundle that enters the wave (R229). -/
def State.lastTag (s : State) (r : Run) : State := s.mapCells r (fun _ _ c => c.tagged r.rg r.tag)

/-- The return from a trap, when the RFT at an address has issued (R296). A frame that cannot be read is the supervisor cause UE.CONSUMED
(R287, R304). Log entry 46: DEDUCED. -/
def State.doReturn (s : State) (pc : BitVec 55) (r : Run) : State :=
  let bad : TrapInfo := { issueFault 0x1D1 r.trap.tfp.toNat with tpc := pc }
  match r.saved, s.frameOff r with
  | some v, some off =>
    if (s.storePoison r.head off 0x240).isSome then s.takeSupervisor r bad
    else s.returnTrap r v (s.storeBytes r.head off 0x240)
  | _, _ => s.takeSupervisor r bad

/-- The bundle of an RFT has reached every cell, and its accesses have completed: the return follows (R31, R296; log entry 46, DEDUCED). -/
def State.returned (s : State) (r : Run) : State :=
  match r.phase with
  | .returning pc => if r.quiet && !r.redo then s.doReturn pc r else s.setRun r
  | _ => s.setRun r

/-- The bundle of an RFT has nothing to do in the cells and no access on its way: the return follows at once. Log entry 46: DEDUCED. -/
def Ctl.leavesAtOnce (c : Ctl) (b : Slots) : Bool := isNopCell b.s2 && isNopCell b.s3 && c.r.loads.isEmpty

/-- The fault of a wait that has lasted too long: ENGINE.FULL and TASK.LAUNCH.FULL (R117, R162). -/
def Run.fullFault (r : Run) (kind now : Nat) : Option TrapInfo :=
  if kind == 3 && r.overdue (r.stalledFor 3 now) then some (issueFault 0x160 0)
  else if kind == 4 && r.overdue (r.stalledFor 4 now) then some (issueFault 0x1A0 0)
  else none

/-- The record of a bundle before its slots. -/
def State.fresh (s : State) (old : Run) : Ctl :=
  { s := s, r := old, jump := none, tag := none, back := false, ending := none, rft := false, rot := none, judged := none }

/-- The issue of a legal bundle. An empty register that has blocked it for FECTL.FETMO raises F/E.EMPTY, or is read as it stands (R103).
Log entry 17: DESIGN CHOICE. Log entry 44: DEDUCED. -/
def State.issueSlots (s : State) (r : Run) (b : Slots) (w2 w3 : Word) : State :=
  let old := r.foldRecords
  let blocked := old.readBlocked b
  let halt (t : TrapInfo) : State := s.stopIssue old t
  if old.mismatch b then halt (issueFault 0x009 0)
  else match old.readFault b with
    | some t => halt t
    | none =>
      if blocked && !old.feLate s.ticks then s.setRun (old.stallFor 0 s.ticks)
      else if blocked && old.feq == 0 then halt (issueFault 0x001 0)
      else
        let c := s.fresh old
        let res := if old.endOfOuter then
            (match slotFault old c (b.s1, scalarSlot b.s1) with | some t => .fault t | none => .raise 0x004)
          else attempt old c b
        match res with
        | .fault t => halt t
        | .wait k d =>
          match old.fullFault k s.ticks with
          | some t => halt t
          | none => d.s.setRun ((d.s.hears d.r).stallFor k s.ticks)
        | .ok d =>
          let e := d.issued old b blocked
          if d.rft && e.leavesAtOnce b then (e.s.lastTag old).doReturn old.pc (e.s.hears e.r)
          else enterWave (attemptHeld old c b) old e (old.flight b w2 w3) (old.record b)

/-- An illegal bundle (R69). -/
def illegal (m : BitVec 8) : TrapInfo := { issueFault 0x000 0 with smask := m }

/-- The issue of a bundle's words. -/
def State.issueWord (s : State) (r : Run) (w : Bundle) : State :=
  match legal w with
  | .error m => s.stopIssue r.foldRecords (illegal m)
  | .ok b => s.issueSlots r b (slotWord w .cellA) (slotWord w .cellB)

/-- A bundle kept in an array's bundle cache, which holds 64 KiB, 2,048 bundles (R26); when it is full it keeps what it has. Log entry 67:
DESIGN CHOICE. Log entry 20: DEDUCED. -/
def State.keepBundle (s : State) (a n : Nat) (w : Bundle) : State :=
  let x := s.arr a
  if x.icache.length < 2048 then s.setArr a { x with icache := tabPut x.icache n w } else s

/-- A bundle fetched from the bundle cache, or through the die's L2 into it (R26, R251). Log entry 20: DEDUCED. -/
def State.fetchBundle (s : State) (r : Run) : Except TrapInfo Bundle × State :=
  let pc := r.pc.toNat
  match tabFind (s.arr r.head).icache (pc / 32) with
  | some w => (.ok w, s)
  | none =>
    match s.translate (.seq r.head) r.die r.ctx r.arrays pc .fetch with
    | (.error e, t) => (.error (issueFault (if e == xUe then 0x1D1 else e) pc), t)
    | (.ok acc, t) =>
      let o := t.read (.engine r.die (whoSeq r.head) 0) acc 32
      match o.poison with
      | some p => (.error (issueFault (poisonFault p) pc), o.st)
      | none =>
        let w := bundleOfBytes o.bytes
        (.ok w, o.st.keepBundle r.head (pc / 32) w)

/-- The head sequencer issues the bundle at PC, if it may. -/
def State.issueNext (s : State) (r : Run) : State :=
  if !r.mayIssue then s
  else match s.fetchBundle r with
    | (.error t, s1) => s1.stopIssue r.foldRecords t
    | (.ok w, s1) => s1.issueWord r w

/-- The class in which an instruction stands by itself. -/
def ownClass (i : Instr) : SlotClass := (slotClasses i).headD .control

/-- The bundle that holds one instruction and a NOP in every other slot. -/
def alone (i : Instr) : Slots := Slots.single (ownClass i) i

/-- The words S2 and S3 of that bundle. -/
def cellWords (i : Instr) : Word × Word :=
  let w := (encode i).getD 0
  (if ownClass i == .cellA then w else 0, if ownClass i == .cellB then w else 0)

/-- The issue of a bundle that holds one instruction and a NOP in every other slot. -/
def State.issueOne (s : State) (r : Run) (i : Instr) : State :=
  let c := ownClass i
  let b := alone i
  if !r.mayIssue then s
  else if !wellFormed c i then s.stopIssue r.foldRecords (illegal (1#8 <<< c.index))
  else if conflicts b != 0 then s.stopIssue r.foldRecords (illegal (conflicts b))
  else s.issueSlots r b (cellWords i).1 (cellWords i).2

/-- The meaning of a slot instruction by itself: the current bench issues it alone. Log entry 17: DESIGN CHOICE. -/
def State.issueAlone (s : State) (i : Instr) : Host.Outcome State Fault Refusal :=
  match s.run? s.cur with
  | none => .fault .noBench
  | some r => .next (s.issueOne r i)

end Sys2Proof.Machine
end

