-- ==== Sys2Proof/Machine/Bench.lean ====
section
/-!
DEFINITION. What happens to a bench beside the issue of a bundle (03_wave.md R33 to R48, R331, 09_sequencer_isa.md R103, R104,
23_traps.md R287 to R301): advances without issue, ends of stalls and waits, landings, traps, and the supervisor.
-/

namespace Sys2Proof.Machine

/-- An event at the current bench. Log entry 3: DESIGN CHOICE. -/
def State.atBench (s : State) (f : Run → State) : Host.Outcome State Fault Refusal :=
  match s.run? s.cur with
  | none => .fault .noBench
  | some r => .next (f r)

/-! ## Advances without issue -/

/-- A run with one blank advance made (R33). -/
def Run.blankMade (r : Run) : Run := { r with blanks := r.blanks - 1, vadvs := r.vadvs + 1 }

/-- One advance of the wave with no bundle entering. A blank advance that a fault withdraws is the one that is made again.
Log entry 46: DEDUCED. -/
def State.idleAdvance (s : State) (r : Run) (blank : Bool) : State :=
  let counted (x : Run) : Run := if blank then x.blankMade else x
  match s.advance r none blank with
  | .stalled info => s.streamStall r info
  | .fault info s1 r1 => s1.stopIssue (counted r1) info
  | .moved s1 r1 => let r2 := counted r1; ((s1.countHold r2).tidy r2).returned r2

/-- A blank advance is owed and may be made (R33). Log entry 46: DEDUCED. -/
def Run.owesBlank (r : Run) : Bool := r.phase == .issue && 0 < r.blanks && !r.redo

/-- The bench makes drain advances (R289, R331): for a stop, for a withdrawn advance that is made again, or while issue waits for
what it has issued, until its condition holds. A WAITF goes on until its record is readable (R48), a DCHECK until the segment's last bundle
has left. -/
def Run.drains (r : Run) : Bool :=
  let live := r.redo || !r.flights.isEmpty
  match r.phase with
  | .issue =>
    r.redo || (match r.stall with
      | some (2, _) | some (5, _) | some (8, _) => live
      | some (7, _) => !r.foldRecords.flagsReady
      | some (9, _) => r.flights.any (·.docket)
      | _ => false)
  | .drain why => !why.atCell && live
  | .held _ _ | .closed => false
  | .preempt | .ended | .yielded | .returning _ => live

/-- R33. -/
def State.blankAdvance (s : State) (r : Run) : State := if r.owesBlank then s.idleAdvance r true else s
/-- R331, R289. -/
def State.drainAdvance (s : State) (r : Run) : State := if r.drains then s.idleAdvance r false else s

/-! ## Stalls and waits (R35, R45, R103, R104) -/

/-- What a stopped bench does next when nothing withholds it any more. -/
def State.goAhead (s : State) (r : Run) : State :=
  if r.drains && r.face.isSome then s.idleAdvance r false
  else if r.owesBlank then s.idleAdvance r true
  else s.issueNext r

/-- A stalled bench goes on (R35). -/
def State.stallResume (s : State) (r : Run) : State := if r.stall.isSome || r.face.isSome then s.goAhead r else s

/-- A face stream has withheld an advance for longer than STALL.TMO (R45). -/
def State.stallTimeout (s : State) (r : Run) : State :=
  match r.face with
  | some t => if r.overdue (s.ticks - t) then s.goAhead r else s
  | none => s

/-- A stall of a kind has lasted: its bundle is tried once more, and issues or raises the cause of its timeout. -/
def State.tryLate (s : State) (r : Run) (kind : Nat) (late : Bool) : State :=
  match r.stall with
  | some (k, _) => if k == kind && late then s.issueNext r else s
  | none => s

/-- FECTL.FETMO has run out on an empty register (R103). -/
def State.feTimeout (s : State) (r : Run) : State := s.tryLate r 0 (tmoTicks r.fetmo ≤ r.stalledFor 0 s.ticks)

/-- STALL.TMO has run out on a command or a LAUNCH (R117, R162). -/
def State.fullTimeout (s : State) (r : Run) (kind : Nat) : State := s.tryLate r kind (r.overdue (r.stalledFor kind s.ticks))

/-- Issue waits in a wait instruction (R104). -/
def Run.waits (r : Run) : Bool := match r.stall with | some (1, _) | some (2, _) | some (7, _) => true | _ => false

/-- The condition of a waiting instruction holds: its bundle issues. A wait of which the condition does not hold goes on, under its own clock
(R104). -/
def State.waitSatisfied (s : State) (r : Run) : State :=
  match r.stall with
  | some (k, since) =>
    if !r.waits then s
    else
      let t := s.issueNext { r with stall := some (k, s.ticks) }
      match t.run? r.head with
      | some x => if x.num == r.num && x.phase == .issue then t.setRun { x with stall := x.stall.map (fun p => (p.1, since)) } else t
      | none => t
  | none => s

/-- The timeout of a waiting instruction runs out (R104). -/
def State.waitTimeout (s : State) (r : Run) : State := if r.waits then s.issueNext r else s

/-! ## Loads, landings and records (R22, R39, R47) -/

/-- The data of a load arrives at its register, if a later write has not taken it (R22, R126). Log entry 58: DESIGN CHOICE. -/
def Run.loadReturn (r : Run) (i : Nat) : Run :=
  match r.loads[i]? with
  | none => r
  | some l =>
    let r1 := { r with loads := r.loads.eraseIdx i }
    match l.dst with
    | none => r1
    | some p =>
      let old := vget r.s p (SReg.of 0)
      { r1 with s := vset r1.s p (match l.poison with | none => SReg.of l.data | some q => ⟨old.val, false, some q⟩) }

/-- The results of a cell that have reached their landing step land, in the order of R40, and push (R39, R43). An advance makes its
own landings at the ends of its steps. -/
def State.landDue (s : State) (r : Run) (m k : Nat) : State :=
  let (i, j) := (k / 32 % 32, k % 32)
  let c := s.cellAt r m i j
  let due := c.latches.filter (fun l => l.rem == 0)
  match due with
  | [] => s
  | l0 :: _ =>
    let (landing, _) := stepLatches true (due.map (fun l => { l with handler := true }))
    let (c1, ps) := landStep m i j (r.arrays.length - 1) landing { c with latches := c.latches.filter (fun l => l.rem != 0) }
    let a := r.arrays.getD m 0
    let f := { r.flight (Slots.single .control (.nopControl ⟨false, 0⟩)) 0 0 with num := l0.num, stamp := l0.stamp, handler := true }
    let res : CellRes :=
      { f := f, m := m, i := i, j := j, cell := c1, touched := true, takes := [], s3Takes := [],
        pushes := s.meetPushes r a ps (s.face a 2) (s.face a 3), contrib := [], raises := 0, exitBit := none, fault := none }
    s.commitCell r res

/-! ## Traps (R288 to R298) -/

/-- An asynchronous cause. -/
def asyncFault (cause addr : Nat) : TrapInfo := { issueFault cause addr with async := true }

/-- The trap of a drained bench is taken by its handler (R293). -/
def State.trapEntry (s : State) (r : Run) : State :=
  match r.phase with
  | .drain why => if r.settled why && !supervised why.cause.toNat then s.takeTrap r why else s
  | _ => s

/-- A supervisor cause of a drained bench (R298). -/
def State.supervisorFaultTake (s : State) (r : Run) : State :=
  match r.phase with
  | .drain why => if r.settled why && supervised why.cause.toNat then s.takeSupervisor r why else s
  | _ => s

/-- The bench stands at a bundle boundary, at which an asynchronous cause may be taken (R287, R297). -/
def Run.atBoundary (r : Run) : Bool := r.phase == .issue && !r.redo

/-- An interrupt is taken (R295, R297). Log entry 47: DEDUCED. -/
def State.interruptTake (s : State) (r : Run) : State :=
  if r.atBoundary && r.intr && !r.trap.active && r.ueStore.isEmpty then s.stopIssue r (asyncFault 0x1F0 0) else s

/-- A store's uncorrectable error is taken, before an interrupt (R126, R297); after a DONE as well, which it then precedes.
Log entry 47: DEDUCED. -/
def State.memUeStore (s : State) (r : Run) : State :=
  match r.ueStore with
  | [] => s
  | va :: _ => if r.atBoundary || (r.phase == .ended && !r.redo) then s.stopIssue r (asyncFault 0x105 va) else s

/-- A held task is not resumed within FLTTMO (R298, R319). Log entry 34: DESIGN CHOICE. -/
def State.flttmoExpiry (s : State) (r : Run) : State :=
  match r.phase with
  | .held why since =>
    if s.fltTmo.toNat ≤ s.ticks - since then s.failFault r why else s
  | _ => s

/-! ## The events -/

/-- R31. The head sequencer issues the bundle at PC. -/
def execBundleIssue (s : State) : Host.Outcome State Fault Refusal := s.atBench s.issueNext
/-- R33. A blank advance. -/
def execBlankAdvance (s : State) : Host.Outcome State Fault Refusal := s.atBench s.blankAdvance
/-- R331. A drain advance. -/
def execDrainAdvance (s : State) : Host.Outcome State Fault Refusal := s.atBench s.drainAdvance
/-- R35. The last stall cause clears. -/
def execStallResume (s : State) : Host.Outcome State Fault Refusal := s.atBench s.stallResume
/-- R45. A face stall outlasts STALL.TMO. -/
def execStallTimeout (s : State) : Host.Outcome State Fault Refusal := s.atBench s.stallTimeout
/-- R103. A blocking read outlasts FECTL.FETMO. -/
def execFeTimeout (s : State) : Host.Outcome State Fault Refusal := s.atBench s.feTimeout
/-- R22. The data of an outstanding load arrives. -/
def execLoadDataReturn (i : Nat) (s : State) : Host.Outcome State Fault Refusal := s.atBench (fun r => s.returned (r.loadReturn i))
/-- R39. The due results of a cell land. -/
def execResultLanding (m c : Nat) (s : State) : Host.Outcome State Fault Refusal := s.atBench (fun r => s.landDue r m c)
/-- R47. Records become readable. -/
def execFlagRecordReadable (s : State) : Host.Outcome State Fault Refusal := s.atBench (fun r => s.setRun r.foldRecords)
/-- R104. The condition of a wait holds. -/
def execWaitSatisfied (s : State) : Host.Outcome State Fault Refusal := s.atBench s.waitSatisfied
/-- R104. The timeout of a wait runs out. -/
def execWaitTimeout (s : State) : Host.Outcome State Fault Refusal := s.atBench s.waitTimeout
/-- R293. The handler is entered. -/
def execTrapEntry (s : State) : Host.Outcome State Fault Refusal := s.atBench s.trapEntry
/-- R298. The supervisor takes its cause. -/
def execSupervisorFaultTake (s : State) : Host.Outcome State Fault Refusal := s.atBench s.supervisorFaultTake
/-- R297. An interrupt is taken at a bundle boundary. -/
def execInterruptTake (s : State) : Host.Outcome State Fault Refusal := s.atBench s.interruptTake
/-- R126. MEM.UE.STORE is taken at a bundle boundary. -/
def execMemUeStore (s : State) : Host.Outcome State Fault Refusal := s.atBench s.memUeStore
/-- R319. FLTTMO runs out on a held task. -/
def execFlttmoExpiry (s : State) : Host.Outcome State Fault Refusal := s.atBench s.flttmoExpiry
/-- R162. ENGINE.FULL. -/
def execEngineFullTimeout (s : State) : Host.Outcome State Fault Refusal := s.atBench (fun r => s.fullTimeout r 3)
/-- R117. TASK.LAUNCH.FULL. -/
def execLaunchFullTimeout (s : State) : Host.Outcome State Fault Refusal := s.atBench (fun r => s.fullTimeout r 4)
/-- R114. The open generation of a barrier, by its place in the list, completes when its arrivals have reached their count. -/
def execBarGenerationComplete (i : Nat) (s : State) : Host.Outcome State Fault Refusal := .next (s.completeBar i)

end Sys2Proof.Machine
end

