-- ==== Sys2Proof/Machine/Placement.lean ====
section
/-!
DEFINITION. The dispatchers (21_tasks.md R277 to R286, 01_machine.md R24, R28, R29, 23_traps.md R299 to R301, 19_memory.md R245, R262):
benches, the order of ready tasks, dispatch, pre-emption and its images, ends and re-runs.
-/

namespace Sys2Proof.Machine

/-! ## Benches (R277) -/

/-- The arrays of a quad of a die. -/
def quadArrays (d q : Nat) : List Nat := span (16 * d + 4 * q) 4

/-- The benches of a shape that a die's dispatcher places (R277). -/
def shapeBenches (d shape : Nat) : List (List Nat) :=
  match shape with
  | 0 => (span (16 * d) 16).map (fun a => [a])
  | 1 => (span 0 8).map (fun k => span (16 * d + 2 * k) 2)
  | 2 => (span 0 4).map (quadArrays d)
  | _ => (span 0 4).flatMap (fun q => ((span 0 4).filter (· != d)).flatMap (fun e => (span 0 4).map (fun p => quadArrays d q ++ quadArrays e p)))

/-- The benches that a task may run on, on a die: its image's own when it is pinned to it, and those of its target (R269, R277, R282). -/
def State.candidates (s : State) (t : Task) (d : Nat) : List (List Nat) :=
  let all := match t.desc.aff, t.image with
    | 2, some im => [im.run.arrays]
    | 2, none => (shapeBenches (t.desc.target / 16) t.desc.shape).filter (fun b => b.headD 0 == t.desc.target)
    | 1, _ => shapeBenches (t.desc.target / 16) t.desc.shape
    | _, _ => shapeBenches d t.desc.shape
  all.filter (fun b => b.all (fun a => (s.die (dieOf a)).alive))

/-- A task's own image is pinned to an array (R282). Log entry 38: DESIGN CHOICE. -/
def Task.pinnedAt (t : Task) (a : Nat) : Bool :=
  t.desc.aff == 2 && (match t.image with | some im => im.run.arrays.contains a | none => false)

/-- An array is held for another task: an image pinned to it, or a reservation (R277, R279). Log entry 38: DESIGN CHOICE. -/
def State.heldFor (s : State) (t : Task) (a : Nat) : Bool :=
  s.tasks.any (fun u => u.id != t.id && (u.pinnedAt a || (match u.reserved with | some l => l.contains a | none => false)))

/-- Reservations that hold an array to which an image is pinned from now on are given up, since such a bench is not the one that becomes free
soonest (R279; log entry 38, DESIGN CHOICE). -/
def State.unreserve (s : State) (id : Nat) (arrays : List Nat) : State :=
  let meets (u : Task) : Bool := u.id != id && (match u.reserved with | some l => l.any (fun a => arrays.contains a) | none => false)
  { s with tasks := listUpd s.tasks meets (fun u => { u with reserved := none }) }

/-- A bench is free for a task (R277). -/
def State.benchFree (s : State) (t : Task) (b : List Nat) : Bool :=
  b.all (fun a => (s.runOn a).isNone && !s.heldFor t a)

/-- The first free bench of a task on a die. -/
def State.fit (s : State) (t : Task) (d : Nat) : Option (List Nat) := (s.candidates t d).find? (s.benchFree t)

/-! ## Order (R278) -/

/-- The priority ceiling of a task's context. -/
def State.ceilingOf (s : State) (t : Task) : Nat := match s.context t.ctx with | some c => c.ceiling | none => 3

/-- The effective priority of a ready task (R278). Log entry 51: DESIGN CHOICE. -/
def State.effOf (s : State) (t : Task) : Nat :=
  let up := if s.age == 0 then 0 else (s.ticks - t.readyAt) / s.age.toNat
  min (s.ceilingOf t) (t.prio + up)

/-- A ready task. -/
def Task.ready (t : Task) : Bool := t.phase == .ready

/-- The effective priorities of a die's ready tasks brought up to date (R278). -/
def State.ageTasks (s : State) (d : Nat) : State :=
  { s with tasks := listUpd s.tasks (fun t => t.die == d && t.ready) (fun t => { t with eff := s.effOf t }) }

/-- A task put in its place: by effective priority, then by acceptance. -/
def insertTask (t : Task) : List Task → List Task
  | [] => [t]
  | u :: l => if u.eff < t.eff || (u.eff == t.eff && t.id < u.id) then t :: u :: l else u :: insertTask t l

/-- The ready tasks of a die in the order of R278. -/
def State.readyTasks (s : State) (d : Nat) : List Task :=
  (s.tasks.filter (fun t => t.die == d && t.ready)).foldl (fun l t => insertTask t l) []

/-- The first task that a die can start, with its bench, and the tasks that it passes over. -/
def State.pick (s : State) (d : Nat) : Option (Task × List Nat) × List Task :=
  let l := s.readyTasks d
  let passed := l.takeWhile (fun t => (s.fit t d).isNone)
  match l.drop passed.length with
  | t :: _ => ((s.fit t d).map (fun b => (t, b)), passed)
  | [] => (none, passed)

/-- Tasks passed over by a start (R279). -/
def State.passOver (s : State) (l : List Task) : State :=
  { s with tasks := listUpd s.tasks (fun t => l.any (fun u => u.id == t.id)) (fun t => { t with passedAt := some (t.passedAt.getD s.ticks) }) }

/-! ## Commands of a task that hold its bench (R245) -/

/-- A Sorter list as far as its header reads: the header and its entries (R193). -/
def State.listRange (s : State) (x : Cmd) (va : Nat) : Int × Nat :=
  (va, match (s.cmdRead x va 4).1 with | .ok h => 16 + 4 * leNat h | .error _ => 16)

/-- A Sorter output: its header and the entries that it will hold, or may. -/
def Cmd.outRange (x : Cmd) : Int × Nat :=
  (x.output.1, 16 + 4 * (match x.chunks with | (n, _) :: _ => min n x.output.2 | [] => x.output.2))

/-- What a started command reads and writes, as ranges of addresses: its data, its descriptor, its lists and tables (R165, R245). -/
def State.ranges (s : State) (x : Cmd) : List (Int × Nat) :=
  let elems (l : List Int) (n : Nat) : List (Int × Nat) := l.map (fun va => (va, n))
  (match x.op with
  | .cpy .. => [((x.w 0 : Int), x.w 2), ((x.w 1 : Int), x.w 2)]
  | .fill .. => [((x.w 0 : Int), x.w 1)]
  | .ckpt .. => [((x.w 0 : Int), x.w 2), ((x.w 1 : Int), x.w 2 + 64)]
  | .cpya .. =>
    elems ((List.range x.cpyaN).map (x.cpyaAddr (x.w 0) 4)) (2 ^ x.cpyaE) ++ elems ((List.range x.cpyaN).map (x.cpyaAddr (x.w 1) 6)) (2 ^ x.cpyaE)
  | .gath .. | .scat .. =>
    let n := x.w 3 % 2 ^ 32
    elems (s.indexed x) (2 ^ x.gathE)
      ++ [((x.w 1 : Int), n * 2 ^ x.gathE), ((x.w 2 : Int), n * (if x.w 3 / 2 ^ 36 % 2 == 1 then 8 else 4))]
  | .red .. | .ared .. | .bcst .. =>
    let n := x.collCount
    (if x.sends then [((x.w 0 : Int), n * collSize x.collFormat)] else []) ++ (if x.receives then [((x.w 1 : Int), n * collSize x.collFormat)] else [])
      ++ [((x.w 3 : Int), 16 * x.collN)] ++ (if x.sends && x.narrows && x.w 5 != 0 then [((x.w 5 : Int), 64 + 4 * n)] else [])
      ++ (if x.w 7 != 0 then [((x.w 7 : Int), (x.numChunks + 7) / 8)] else [])
  | .sortb .. => [((x.w 0 : Int), (x.w 1 + 7) / 8), x.outRange]
  | .sortm .. => [s.listRange x (x.w 0), s.listRange x (x.w 1), x.outRange]
  | .sortd .. => [s.listRange x (x.w 0), x.outRange]
  | .sortl .. => [s.listRange x (x.w 0), ((x.w 1 : Int), 128)]
  | .hcopyWrite .. => [((x.w 1 : Int), x.w 2)]
  | .post .. => [((x.desc : Int), 16 * (x.w 0 / 32 % 8 + 1))]
  | _ => [])
  ++ (match x.op with | .post .. | .ccan .. | .hcopyWrite .. => [] | _ => [((x.desc : Int), 64)])

/-- The place of an address of a command, read or written. -/
def State.placeOf (s : State) (x : Cmd) (va : Int) : Option Access :=
  match (s.cmdAccess x va .read).1, (s.cmdAccess x va .write).1 with
  | .ok acc, _ => some acc
  | .error _, .ok acc => some acc
  | _, _ => none

/-- The places that a command reads and writes, one in each aligned block of `b` bytes, with their addresses. -/
def State.touched (s : State) (x : Cmd) (b : Nat) : List (Int × Access) :=
  ((s.ranges x).flatMap (fun r => blockAddrs b r.1 r.2)).filterMap (fun va => (s.placeOf x va).map (fun acc => (va, acc)))

/-- A command reads or writes a face store of a bench; one that has not read its descriptor may. -/
def State.touches (s : State) (x : Cmd) (arrays : List Nat) : Bool :=
  let inBench (acc : Access) : Bool := match acc with | .store a _ _ => arrays.contains a | .mem .. => false
  !x.terminal &&
    ((!x.started && x.unit < 9) || (match x.racc with | some acc => inBench acc | none => false)
      || (s.touched x 65536).any (fun e => inBench e.2))

/-- No command of the task still holds its bench (R245). -/
def State.commandsDone (s : State) (r : Run) : Bool :=
  !s.cmds.any (fun x => x.task == some r.task && s.touches x r.arrays)

/-- Packets that had begun to enter the inbox of an array that runs no task any more are discarded, with the flits that had entered (R202).
Log entry 74: DEDUCED. -/
def State.dropEntering (s : State) : State :=
  (s.packets.filter (fun p => p.entering && !s.hasTask p)).foldl (fun t p => t.noctx p) s

/-- A reservation whose bench is still taken while another bench of its task is free: that one became free soonest, so it is the reserved one
(R279). Log entry 51: DESIGN CHOICE. -/
def State.moveReserved (s : State) (t : Task) : State :=
  match t.reserved with
  | none => s
  | some b => if s.benchFree t b then s
    else match s.fit t t.die with
      | some c => s.updTask t.id (fun x => { x with reserved := some c })
      | none => s

/-- Every reservation on the bench that became free soonest, in the order of R278 (R279). -/
def State.followFreed (s : State) : State :=
  ((s.tasks.filter (fun t => t.ready && t.reserved.isSome)).foldl (fun l t => insertTask { t with eff := s.effOf t } l) []).foldl State.moveReserved s

/-- Benches whose task has ended are freed once its commands let them go (R245, R283), and reservations follow them. Log entry 64: DEDUCED. -/
def State.freeBenches (s : State) : State :=
  ({ s with runs := s.runs.filter (fun e => !(e.2.phase == .closed && s.commandsDone e.2)) } : State).dropEntering.followFreed

/-- No packet has begun to enter an inbox of the bench (R202; log entry 57, DEDUCED). -/
def State.inboxesQuiet (s : State) (r : Run) : Bool := !s.packets.any (fun p => p.entering && r.arrays.contains p.dst)

/-! ## Dispatch (R281) -/

/-- Some edge cell of a side that the bundle selects has not received it, and one of its slots pushes there (R43). -/
def Run.mayPush (r : Run) (side : Nat) (f : Flight) : Bool :=
  let offs := benchOffsets r.arrays 0
  let last := r.arrays.length - 1
  let cells : List (Nat × Nat × Nat) :=
    if side == 2 then (List.range r.arrays.length).flatMap (fun m => (List.range 32).map (fun i => (m, i, 31)))
    else (List.range 32).map (fun j => (last, 31, j))
  let pushes := if side == 2 then pushesE f.s2 || pushesE f.s3 else pushesS f.s2 || pushesS f.s3
  pushes && cells.any (fun c => f.selects c.1 c.2.1 c.2.2 && f.adv ≤ cellPos offs f.skew c.1 c.2.1 c.2.2)

/-- A result that pushes at a side waits in an edge cell for a bundle before a stamp. -/
def State.latchPush (s : State) (r : Run) (side stamp : Nat) : Bool :=
  r.arrays.any (fun a => (s.arr a).cells.any (fun c => c.2.latches.any (fun l => l.stamp < stamp && (if side == 2 then l.pushE else l.pushS))))

/-- Nothing that a bundle before an FDFLUSH pushes is still to come or to be written, at the faces that it acted on (R179).
Log entry 55: DEDUCED. -/
def State.flushDone (s : State) (side : Nat) (f : Flush) (faces : List Nat) : Bool :=
  let queued := faces.any (fun a => (s.face a side).lanes.any (fun l => l.2.queue.any (fun e => e.stamp < f.stamp)))
  let coming := match s.run? f.head with
    | some r => (r.flights ++ (match r.saved with | some v => v.flights | none => [])).any (fun g => g.stamp < f.stamp && r.mayPush side g)
        || s.latchPush r side f.stamp
    | none => false
  !queued && !coming

/-- The oldest pushed element of a drain lane written; its chain's raises go to the task's XFLAGS (R178). -/
def State.drainOne (s : State) (a side l : Nat) : State :=
  let (s1, raises) := s.drainWrite a side l
  match s1.runOn a with
  | some r => if raises == 0 then s1 else s1.setRun { r with xflags := r.xflags ||| raises }
  | none => s1

/-- The drain faces write what they hold, lane by lane, and the receipts that wait for it follow (R28). -/
def State.flushLane (s : State) (a side l : Nat) : Nat → State
  | 0 => s
  | n + 1 => if ((s.face a side).lane l).queue.isEmpty then s else State.flushLane (s.drainOne a side l) a side l n

/-- Every queued element of a drain face written. -/
def State.flushQueues (s : State) (a side : Nat) : State :=
  (List.range 32).foldl (fun t l => t.flushLane a side l 16) s

/-- The counts of several faces for one FDFLUSH: of its first face, with the elements of all (R179). -/
def Flush.join (f g : Flush) : Flush :=
  { f with written := f.written + g.written, overrun := f.overrun.or g.overrun, err := f.err.or g.err, lines := setUnion f.lines g.lines }

/-- The receipt of an FDFLUSH, for the faces that it acted on: what they wrote is at the .sys point before it (R179, R256, R260). UNIT names the unit
that met the error: a face, or the HBM stack of a write (R163). -/
def State.flushReceipt (s : State) (arrays : List Nat) (a side : Nat) (f : Flush) : State :=
  let (state, cls, unit, addr) : Nat × Nat × Nat × Nat := match f.err, f.overrun with
    | some e, _ => (stFailed, e.1, e.2.1, e.2.2)
    | none, some u => (stPartial, 0x0E, u, 0)
    | none, none => (stComplete, 0, drainUnit f.head side, 0)
  let s0 := arrays.foldl (fun t b => t.releaseLines b 5 f.lines) s
  let s1 := s0.writeReceipt (.array a (whoFace a side)) f.rcpt state cls unit (min f.written 0xFFFFFFFF) addr f.lines
  if state == stComplete then s1 else s1.deadLetter (dieOf f.head) (s1.dlrEntry addr f.va unit 1 f.head f.ctx 0)

/-- The drain faces of a bench write what has been pushed, and then every receipt for which nothing is still to be pushed: a push of a bundle
that a wave capture or a latch holds comes after a return or a restore (R28, R29, R179). Each receipt is written with the face of the bench's
head. -/
def State.settleFaces (s : State) (arrays : List Nat) (side : Nat) : State :=
  let s1 := arrays.foldl (fun t a => t.flushQueues a side) s
  let same (f g : Flush) : Bool := g.stamp == f.stamp && g.rcpt == f.rcpt
  let due (f : Flush) : Bool := s1.flushDone side f arrays
  let fl := (arrays.flatMap (fun a => (s1.face a side).flushes)).filter due
  let firsts := fl.foldl (fun (l : List Flush) f => if l.any (same f) then l.map (fun g => if same f g then g.join f else g) else l ++ [f]) []
  let s2 := firsts.foldl (fun t f => t.flushReceipt arrays f.head side f) s1
  arrays.foldl (fun t a => t.setFace a side { t.face a side with flushes := (t.face a side).flushes.filter (fun f => !fl.any (same f)) }) s2

/-- An array made ready for a task of a context: what it keeps of an earlier task of that context, or nothing (R28), with no more lines in L1
than the scratchpad leaves (R27). Errors of cell stores that it keeps stay. Offsets that were L1 for the earlier task and are scratchpad for this
one show what the store last held there, or 0 (log entry 70, DEDUCED). Whether it keeps or clears goes by the array's own last context (log entry
78, DESIGN CHOICE). -/
def State.prepare (s : State) (a ctx spad : Nat) (clean : Bool) : State :=
  let s1 := ((s.arr a).l1.drop (if clean then 0 else l1Lines spad)).foldl (fun t e => t.dropL1 a e.1) s
  let x := s1.arr a
  let kept (c : Cell) : Cell := { Cell.reset with store := c.store, ue := c.ue.filter (fun p => 128 ≤ p && p < 512) }
  let cells : Tab Cell := if clean then [] else (x.cells.map (fun c => (c.1, kept c.2))).filter (fun c => c.2 != Cell.reset)
  s1.setArr a
    { x with cells := cells, front := [], store := if clean then [] else x.store, storePoison := if clean then [] else x.storePoison,
             icache := if clean then [] else x.icache, spad := spad, lastCtx := ctx,
             west := Face.reset, north := Face.reset, east := Face.reset, south := Face.reset, inbox := [], restored := false, blocks := [] }

/-- Stale copies that an acquire of a frank at .sys drops, in every array of a bench: its faces and its sequencer start after it (R262).
Log entry 65: DESIGN CHOICE. -/
def State.acquireBench (s : State) (arrays : List Nat) (frank : List Nat) : State := arrays.foldl (fun t a => t.acquireLines a 5 frank) s

/-- L1 of a bench's arrays and L2 of their dies written back and invalidated, for a task that leaves or comes back, and before a task that a
letterbox brought. Log entry 65: DESIGN CHOICE. -/
def State.cleanBench (s : State) (arrays : List Nat) : State := arrays.foldl (fun t a => t.fenceLd a 5) s

/-- The bundle cache of an array emptied. -/
def State.dropBundles (s : State) (a : Nat) : State := s.setArr a { s.arr a with icache := [] }

/-- Every line of a die's L2 written back and invalidated. Log entry 65: DESIGN CHOICE. -/
def State.flushL2 (s : State) (d : Nat) : State := ((s.die d).l2.map (·.1)).foldl (fun t l => t.dropL2 d l) s

/-- What the host wrote before LBWIDX is visible to a task that a letterbox brought, and to the dispatcher that copies its arguments: no copy of it
stays in the caches of its bench, nor in the L2 of the dispatcher's die (R272). Log entry 65: DESIGN CHOICE. -/
def State.hostFirst (s : State) (t : Task) (b : List Nat) : State :=
  if t.fromHost then ((s.cleanBench b).dropBundles (b.headD 0)).flushL2 t.die else s

/-- Bytes read by a dispatcher, 16 at a time, from a 16-byte-aligned address (R281). Log entry 54: DEDUCED. -/
def State.readArgs (s : State) (t : Task) (arrays : List Nat) : Nat → Nat → Nat → Except EngErr (List Byte) × State
  | 0, _, _ => (.ok [], s)
  | k + 1, va, n =>
    if n == 0 then (.ok [], s)
    else
      let unit := unitCode t.die 4 0
      match s.translate (.die t.die) t.die t.ctx arrays va .read with
      | (.error c, u) => (.error (xlateClass c, unit, va), u)
      | (.ok acc, u) =>
        let o := u.read (dispatcher t.die) acc (min n 16)
        match o.poison with
        | some p => (.error (poisonClass p, o.st.detector acc unit, va), o.st)
        | none =>
          match o.st.readArgs t arrays k (va + 16) (n - 16) with
          | (.ok bs, v) => (.ok (o.bytes ++ bs), v)
          | e => e

/-- The bytes of an argument block with an entry of SORTL put in (R197). -/
def patchArgs (bs : List Byte) (p : Option (Nat × Nat)) : List Byte :=
  match p with
  | none => bs
  | some (o, v) => bs.take o ++ leBytes 4 v ++ bs.drop (o + 4)

/-- The arguments of a dispatch: those saved at the first, or read now (R281, R284). Log entry 54: DEDUCED. -/
def State.arguments (s : State) (t : Task) (arrays : List Nat) : Except EngErr (List Byte) × State :=
  match t.args with
  | some bs => (.ok bs, s)
  | none =>
    match s.readArgs t arrays (t.desc.argLen / 16 + 1) t.desc.args.toNat t.desc.argLen with
    | (.ok bs, u) => (.ok (patchArgs bs t.patch), u)
    | e => e

/-- The virtual address of the argument block's copy (R24). -/
def argCopy : Nat := windowBase + 0x300000

/-- The sequencer of a task at its first bundle, with the franks that this bundle acquires (R24, R262). -/
def State.firstRun (s : State) (t : Task) (b : List Nat) : Run :=
  let r := Run.reset t.ctx t.id b t.desc.spad t.desc.entry (BitVec.ofNat 64 argCopy) (BitVec.ofNat 64 t.desc.argLen)
    (benchWord (b.headD 0) t.desc.shape)
  { r with started := s.ticks, wrote := t.frank.foldl wroteAdd [] }

/-- A dispatch: scrub, scratchpad, arguments, reset state, and STARTED in the first run only (R281). A fault of the copy ends the run. R28 and R281
speak of the last context of a bench: where the arrays of a bench were last held by different contexts, each array goes by its own (log entry
78, DESIGN CHOICE). -/
def State.dispatch (s : State) (t : Task) (b : List Nat) : State :=
  let head := b.headD 0
  let s1 := (s.settleFaces b 2).settleFaces b 3
  let s2 := (b.foldl (fun u a => u.prepare a t.ctx t.desc.spad ((u.arr a).lastCtx != t.ctx)) s1).hostFirst t b
  let t1 := { t with phase := .running, reserved := none, passedAt := none }
  let r := s2.firstRun t b
  match s2.arguments t b with
  | (.error e, u) => (u.updTask t.id (fun _ => { t1 with phase := .failed e.1 e.2.1 e.2.2 })).setRun { r with phase := .ended }
  | (.ok bs, u) =>
    match u.storeWrite head 0x300000 bs with
    | (v, some g) =>
      (v.updTask t.id (fun _ => { t1 with phase := .failed 0x03 (unitCode t.die 4 0) (argCopy + g - 0x300000) })).setRun { r with phase := .ended }
    | (v, none) =>
      let v1 := v.acquireBench b t.frank
      let v2 := if t.started then v1 else v1.taskReceipt t stStarted 0 0 0 0 []
      (v2.updTask t.id (fun _ => { t1 with started := true, args := some bs })).setRun r

/-- A die's dispatcher starts the first task in the order that has a bench and no image (R278, R281). -/
def State.taskDispatch (s : State) (d : Nat) : State :=
  let s1 := s.freeBenches.ageTasks d
  match s1.pick d with
  | (some (t, b), passed) => if t.image.isNone then (s1.passOver passed).dispatch t b else s
  | (none, _) => s

/-! ## Pre-emption (R282, R299 to R301) -/

/-- A run that a pre-emption may stop: not in the stall of a DONE or YIELD, and not stopped already. -/
def Run.preemptible (r : Run) : Bool :=
  !r.inEndStall && r.closing.isNone && (match r.phase with | .issue | .drain _ | .held _ _ | .returning _ => true | _ => false)

/-- The effective priority of a running task: what it had when it was started, since it spends no more time ready (R278, R282; log entry 39, DEDUCED). -/
def State.runPrio (s : State) (r : Run) : Nat := match s.task r.task with | some t => t.eff | none => 3

/-- A place for an image in the context's pool, in units of 16 MiB: the one that the task already has, or the lowest at which it fits; none
where the pool has no room, of which R299 states nothing: the image is then kept without a place in memory (log entry 32, DESIGN
CHOICE). -/
def State.imageSlot (s : State) (t : Task) (n : Nat) : Option Nat :=
  match t.slot, s.context t.ctx with
  | some (k, _), _ => some k
  | none, none => none
  | none, some c =>
    let used := s.tasks.filterMap (fun u => if u.ctx == t.ctx then u.slot else none)
    (List.range (c.poolMiB / 16 + 1 - n)).find? (fun k => used.all (fun u => k + n ≤ u.1 || u.1 + u.2 ≤ k))

/-- The victims on a bench, when the task may take it: each of lower effective priority. -/
def State.victims (s : State) (t : Task) (b : List Nat) : Option (List Run) :=
  let on := (s.runs.map (·.2)).filter (fun r => r.arrays.any (fun a => b.contains a))
  if b.any (s.heldFor t) || on.isEmpty then none
  else if on.all (fun r => r.preemptible && s.runPrio r < t.eff) then some on else none

/-- A choice is better than another: lower priority, then started later (R282). -/
def State.betterVictims (s : State) (a b : List Run) : Bool :=
  let p (l : List Run) : Nat := l.foldl (fun m r => max m (s.runPrio r)) 0
  let q (l : List Run) : Nat := l.foldl (fun m r => max m r.started) 0
  p a < p b || (p a == p b && q b < q a)

/-- The victims of the first ready task that has no bench, unless a pre-emption for it is under way already. -/
def State.chooseVictims (s : State) (d : Nat) : List Run :=
  let served (t : Task) : Bool := (s.candidates t d).any (fun b =>
    b.all (fun a => !s.heldFor t a && (match s.runOn a with | some r => r.preempt || r.phase == .closed | none => true)))
  match (s.readyTasks d).find? (fun t => (s.fit t d).isNone && !served t && ((s.candidates t d).any (fun b => (s.victims t b).isSome))) with
  | none => []
  | some t =>
    ((s.candidates t d).filterMap (s.victims t)).foldl
      (fun (best : List Run) v => if best.isEmpty || s.betterVictims v best then v else best) []

/-- A marked run stops at its next bundle boundary, after an asynchronous fault and an interrupt (R297). Log entry 47: DEDUCED. -/
def State.takePreempt (s : State) (r : Run) : State :=
  if r.atBoundary && r.preempt && !r.inEndStall && r.ueStore.isEmpty && !(r.intr && !r.trap.active) then
    let (s1, r1) := s.stopBar r
    s1.setRun r1.stopPreempt
  else s

/-- A die's dispatcher pre-empts: victims are chosen for the first task in the order without a bench, and each stops at its next bundle
boundary (R282). -/
def State.preemptTasks (s : State) (d : Nat) : State :=
  let s1 := s.freeBenches.ageTasks d
  let vs := s1.chooseVictims d
  let s2 := vs.foldl (fun u r => u.setRun { r with preempt := true }) s1
  s2.runs.foldl (fun u e => u.takePreempt e.2) s2

/-- The run as its image holds it: it goes on at its next bundle, or stays held. -/
def Run.asImage (r : Run) : Run :=
  { r with
    preempt := false, stall := none, face := none, waitEnd := none, precvEnd := none, drainFor := none, closing := none,
    phase := match r.phase with | .held w t => .held w t | _ => .issue }

/-- The granules of an image's slot: from the first, and their number (R299). -/
def State.imageGranules (s : State) (c : Context) (im : Image) : Option (Nat × Nat) :=
  im.slot.map (fun k => (s.memKey (c.pool + k * 2 ^ 24) / 32, im.len * 2 ^ 19))

/-- The dirty parts of an array for its image: all of them since a dispatch, those written since a restore (R300). The numbers are 43 for each
cell, as `Cell.touched` counts them, and from 2^16 the blocks of the face store. Log entry 21: DESIGN CHOICE. -/
def ArrayState.dirtyParts (x : ArrayState) : Option (List Nat) :=
  if x.restored then some (x.cells.flatMap (fun c => c.2.touched.map (fun p => 43 * c.1 + p)) ++ x.blocks.map (2 ^ 16 + ·)) else none

/-- The dirty parts of an image are written over its slot: what lay there in those parts is gone, with its errors, marks and records; the other
parts keep what they hold (R166, R299, R300; log entry 21, DESIGN CHOICE). Log entry 33: DEDUCED. -/
def State.writeVeil (s : State) (v : Veil) : State :=
  let out (g : Nat) : Bool := !v.writes g
  let older := if v.parts.all (·.isNone) then s.veil.filter (fun u => !(v.lo ≤ u.lo && u.lo + u.len ≤ v.lo + v.len)) else s.veil
  { s with
    veil := v :: older, unveiled := s.unveiled.filter (fun e => out (e.1 / 32)),
    llc := s.llc.filter (fun e => out (e.1 / 32)), llcTags := s.llcTags.filter (fun e => out e.1), tags := s.tags.filter (fun e => out e.1),
    poison := s.poison.filter out, latent := s.latent.filter out, freeCtr := s.freeCtr + 1 }

/-- Requests for the lines of a range of granules of which a granule meets a test: images are written and read like write-backs, with class 3 and of
no requester that R311 counts (log entry 33, DEDUCED). -/
def State.askGranules (s : State) (lo n : Nat) (p : Nat → Bool) : State :=
  ((span (lo / 2) (n / 2)).filter (fun l => p (2 * l) || p (2 * l + 1))).foldl (fun t l => t.request (64 * l) 15 3 whoNone) s

/-- The bytes of an image written into its slot, with a request for each line; `fresh` says that the task had no slot yet. -/
def State.writeSlot (s : State) (ctx : Nat) (im : Image) (fresh : Bool) : State :=
  match (s.context ctx).bind (fun c => s.imageGranules c im) with
  | none => s
  | some (lo, n) =>
    let v : Veil := { lo := lo, len := n, seed := s.freeCtr, parts := im.arrays.map (fun x => if fresh then none else x.dirtyParts) }
    (s.writeVeil v).askGranules lo n v.writes

/-- The requests with which a restore reads the parts of an image (R301, R311). -/
def State.askImage (s : State) (ctx : Nat) (im : Image) : State :=
  match (s.context ctx).bind (fun c => s.imageGranules c im) with
  | none => s
  | some (lo, n) => s.askGranules lo n (fun g => (Config.imagePart ((g - lo) % 2 ^ 19)).isSome)

/-- The image of a stopped run is written into its slot, and the task is ready again, its acceptance order kept (R282, R299). What its faces and
its face stores hold for later, FDFLUSH commands and franks too, is in the image and no more in the arrays (R29, R257). -/
def State.writeImage (s : State) (r0 : Run) : State :=
  let s0 := ((s.settleFaces r0.arrays 2).settleFaces r0.arrays 3).cleanBench r0.arrays
  let (s1, r) := s0.stopBar ((s0.run? r0.head).getD r0)
  let slot := (s1.task r.task).bind (fun t => s1.imageSlot t r.arrays.length)
  let fresh := ((s1.task r.task).bind (·.slot)).isNone
  let n := r.arrays.length
  let im : Image := { run := r.asImage, arrays := r.arrays.map s1.arr, slot := slot, len := n, franks := s1.benchFranks r.arrays }
  let back (t : Task) : Task :=
    { t with phase := .ready, readyAt := s.ticks, passedAt := none, image := some im, slot := slot.map (fun k => (k, n)) }
  let s2 := (s1.writeSlot r.ctx im fresh).updTask r.task back
  let pins := match s2.task r.task with | some t => t.desc.aff == 2 | none => false
  let s3 := if pins then s2.unreserve r.task r.arrays else s2
  let empty (u : State) (a : Nat) : State :=
    u.setArr a { u.arr a with inbox := [], west := Face.reset, north := Face.reset, east := Face.reset, south := Face.reset }
  r.arrays.foldl empty (({ s3 with runs := tabErase s3.runs r.head } : State).dropFranks r.arrays)

/-- The image of a pre-empted task is written once the wave has drained, its loads have returned, its commands hold its bench no more, and
no packet is on its way into an inbox; of a held task as it stands (R202, R245, R292, R298, R299). -/
def State.preemptImageWrite (s : State) (r : Run) : State :=
  let ok := r.loads.isEmpty && s.commandsDone r && s.inboxesQuiet r
  match r.phase with
  | .preempt => if ok && r.flights.isEmpty && !r.redo then s.writeImage r else s
  | .held _ _ => if ok && r.preempt then s.writeImage r else s
  | _ => s

/-- A run that has yielded ends as a pre-emption does (R119, R282). -/
def State.yieldComplete (s : State) (r : Run) : State :=
  if r.phase == .yielded && r.quiet && !r.redo && s.commandsDone r && s.inboxesQuiet r then s.writeImage r else s

/-- An access of a bench's face stores, moved to other arrays. -/
def Access.moveTo (acc : Access) (old new : List Nat) : Access :=
  match acc with
  | .store a f o => .store (match old.findIdx? (· == a) with | some i => new.getD i a | none => a) f o
  | m => m

/-- A face whose pending receipts lie in the bench's face stores, moved with them. -/
def Face.moveTo (f : Face) (old new : List Nat) : Face :=
  { f with flushes := f.flushes.map (fun x => { x with rcpt := x.rcpt.moveTo old new, head := new.headD 0 }) }

/-- The FDFLUSH commands of an image's drain faces, each with the counts of all its faces. -/
def Image.flushes (im : Image) (side : Nat) : List Flush :=
  (im.arrays.flatMap (fun x => (x.face side).flushes)).foldl (fun (l : List Flush) f =>
    let same (g : Flush) : Bool := g.stamp == f.stamp && g.rcpt == f.rcpt
    if l.any same then l.map (fun g => if same g then g.join f else g) else l ++ [f]) []

/-- The FDFLUSH commands of an image whose task ends or starts over write their receipts (R164, R179). -/
def State.flushImage (s : State) (im : Image) : State :=
  [2, 3].foldl (fun t side => (im.flushes side).foldl (fun u f => u.flushReceipt im.run.arrays f.head side f) t) s

/-- An uncorrectable error lies in a part of an image in its slot (R301). Log entry 21: DESIGN CHOICE. -/
def State.imageBad (s : State) (c : Context) (im : Image) : Bool :=
  match s.imageGranules c im with
  | none => false
  | some (lo, n) => (s.poison ++ s.latent).any (fun g => lo ≤ g && g < lo + n && (Config.imagePart ((g - lo) % 2 ^ 19)).isSome)

/-- A command of a task whose bench moves: its receipt in a face store moves along, and its window (R245). -/
def Cmd.moveTo (x : Cmd) (old new : List Nat) : Cmd := { x with racc := x.racc.map (fun acc => acc.moveTo old new), arrays := new }

/-- A cell as its image holds it: every part is clean after the restore (R300). -/
def Cell.clean (c : Cell) : Cell := { c with touched := [] }

/-- A restore: the image is read whole, and the bench holds every place as it was left, with its franks. An error in it zeroes the bench, frees
the slot and fails the task, of which nothing more is taken (R29, R257, R300, R301). Log entry 21: DESIGN CHOICE. Log entry 19: DESIGN CHOICE. -/
def State.restore (s : State) (t : Task) (im : Image) (b : List Nat) : State :=
  let head := b.headD 0
  let s1 := (((s.settleFaces b 2).settleFaces b 3).cleanBench b).askImage t.ctx im
  let bad := match s.context t.ctx with | some c => s.imageBad c im | none => true
  let t1 := { t with reserved := none, passedAt := none, image := none }
  if bad then
    let s2 := b.foldl (fun u a => u.prepare a t.ctx t.desc.spad true) s1
    let s3 := s2.deadLetter t.die (s2.dlrEntry 0 t.desc.rcpt.toNat (unitCode t.die 4 0) 4 head t.ctx 0x1D2)
    ((s3.flushImage im).updTask t.id (fun _ => { t1 with phase := .failed 0x11 (unitCode t.die 4 0) 0, slot := none })).setRun
      { im.run with head := head, arrays := b, phase := .ended, flights := [], kept := [], redo := false, closing := none, ueStore := [],
                    saved := im.run.saved.map (fun v => { v with ueStore := [] }), intr := false }
  else
    let old := im.run.arrays
    let put (u : State) (e : Nat × ArrayState) : State :=
      let x := e.2
      u.setArr e.1 { x with
        cells := x.cells.map (fun c => (c.1, c.2.clean)), restored := true, blocks := [], l1 := [], lastCtx := t.ctx,
        west := x.west.moveTo old b, north := x.north.moveTo old b, east := x.east.moveTo old b, south := x.south.moveTo old b }
    let s2 := ((b.zip im.arrays).foldl put s1).putFranks b im.franks
    let s3 := { s2 with cmds := listUpd s2.cmds (fun x => x.task == some t.id) (fun x => x.moveTo old b) }
    let phase := match im.run.phase with | .held w _ => Phase.held w s.ticks | p => p
    (s3.updTask t.id (fun _ => { t1 with phase := .running })).setRun
      { im.run with head := head, arrays := b, started := s.ticks, phase := phase }

/-- A die's dispatcher restores the first task in the order that has a bench, when it has an image (R278, R301). -/
def State.taskRestore (s : State) (d : Nat) : State :=
  let s1 := s.freeBenches.ageTasks d
  match s1.pick d with
  | (some (t, b), passed) =>
    match t.image with
    | some im => (s1.passOver passed).restore t im b
    | none => s
  | (none, _) => s

/-! ## Ends (R270, R283, R284) -/

/-- PROG of a task: the number of bundles that its run issued (R270). -/
def Run.prog (r : Run) : Nat := min r.mainNum 0xFFFFFFFF

/-- A failure after which a restartable task is run again (R284). -/
def Task.reruns? (t : Task) (cls : Nat) : Bool :=
  t.desc.restart && t.reruns < t.desc.retry && [0x10, 0x11, 0x13, 0x01, 0x02, 0x03].contains cls

/-- The release of an ending task at .sys, and its frank (R256). -/
def State.endRelease (s : State) (r : Run) : List Nat × State :=
  let c : Ctl := { s := s, r := r, jump := none, tag := none, back := false, ending := none, rft := false, rot := none, judged := none }
  let (frank, d) := c.release 5
  (frank, d.s)

/-- The end of a run: release, receipt, tokens, interrupt, and at last the bench (R283). An error that the release reports is taken first (R126). A
failed task that may run again keeps its entry. Log entry 64: DEDUCED. -/
def State.taskEnd (s : State) (r : Run) : State :=
  if r.phase != .ended || !r.quiet || r.redo || !r.ueStore.isEmpty then s
  else
    let (frank, s1) := s.endRelease r
    if !(s1.reports r.head).isEmpty then s1
    else
      let s3 := (s1.quitTask r.task).setRun { r with phase := .closed, arrived := none }
      match s3.task r.task with
      | none => s3.freeBenches
      | some t =>
        match t.phase with
        | .failed cls unit addr =>
          if t.reruns? cls then (s3.updTask t.id (fun x => { x with lastProg := r.prog })).freeBenches
          else ((s3.endTask t r.head stFailed cls unit r.prog addr frank).settleAll).freeBenches
        | _ => ((s3.endTask t r.head stComplete 0 0 r.prog 0 frank).settleAll).freeBenches

/-- A task that can run on no die any more: its descriptor or its image names arrays of a die that has failed. -/
def State.stranded (s : State) (t : Task) : Bool := (t.desc.aff == 1 || t.desc.aff == 2) && (s.candidates t t.die).isEmpty

/-- The bundles that an accepted task's last run issued. -/
def State.progOf (s : State) (t : Task) : Nat :=
  match (s.runs.map (·.2)).find? (fun r => r.task == t.id), t.image with
  | some r, _ => r.prog
  | none, some im => im.run.prog
  | none, none => t.lastProg

/-- A task without a bench that no die can run any more fails with CLASS UNIT.LOST. It ends, or, where it may run again and its image alone kept it
from every bench, it loses the image and is dispatched again from ENTRY (R270, R284, R285; log entry 28, DEDUCED). -/
def State.endLost (s : State) (t : Task) : State :=
  let s1 := match t.image with | some im => s.flushImage im | none => s
  let s2 := s1.quitTask t.id
  if t.reruns? 0x13 && !s.stranded { t with image := none } then
    s2.updTask t.id (fun x => { x with
      phase := .failed 0x13 (unitCode t.die 4 0) 0, image := none, slot := none, reserved := none, passedAt := none, lastProg := s.progOf t })
  else s2.endTask t (16 * t.die) stFailed 0x13 (unitCode t.die 4 0) (s.progOf t) 0 []

/-- Tasks that no die can run any more, and that hold no bench, end, so that each ends with exactly one terminal receipt (R285; log entry 28,
DEDUCED). -/
def State.endStranded (s : State) : State :=
  (s.tasks.filter (fun t => (s.die t.die).alive && s.stranded t && !s.runs.any (fun e => e.2.task == t.id))).foldl State.endLost s

/-- A failed restartable task is ready again once its bench is free (R284); one that no die can run any more ends. -/
def State.taskRerun (s : State) (d : Nat) : State :=
  let s1 := s.freeBenches
  let due (t : Task) : Bool :=
    t.die == d && (match t.phase with | .failed cls _ _ => t.reruns? cls | _ => false) && !s1.runs.any (fun e => e.2.task == t.id)
  match s1.tasks.find? due with
  | none => s
  | some t =>
    if s1.stranded { t with image := none } then (s1.endLost t).settleAll
    else s1.updTask t.id (fun x => { x with phase := .ready, readyAt := s.ticks, reruns := x.reruns + 1, image := none, slot := none, passedAt := none })

/-! ## Other moves (R278 to R280, R285) -/

/-- The bench of a list that becomes free soonest: which it is cannot be known ahead, and is a free value (R279; log entry 51, DESIGN CHOICE). -/
def State.soonest (s : State) (l : List (List Nat)) : Option (List Nat) :=
  match l with
  | [b] => some b
  | _ => l[Config.freedFirst s.freeCtr % l.length]?

/-- A task passed over for DSP.RESERVE ticks, with the bench that it reserves: of those that nobody else holds, the one that becomes free
soonest, as the dispatcher foresees it; `State.moveReserved` mends a wrong foresight (R279). Log entry 34: DESIGN CHOICE. Log entry 51: DESIGN
CHOICE. -/
def State.toReserve (s : State) (d : Nat) : Option (Task × List Nat) :=
  let due (t : Task) : Bool :=
    t.reserved.isNone && (s.fit t d).isNone && (match t.passedAt with | some p => s.reserve.toNat ≤ s.ticks - p | none => false)
  ((s.readyTasks d).find? due).bind (fun t =>
    (s.soonest ((s.candidates t d).filter (fun b => b.all (fun a => !s.heldFor t a)))).map (fun b => (t, b)))

/-- A reservation is made (R279). -/
def State.reserveBench (s : State) (d : Nat) : State :=
  let s1 := s.freeBenches.ageTasks d
  match s1.toReserve d with
  | none => s
  | some (t, b) => { s1.updTask t.id (fun x => { x with reserved := some b }) with freeCtr := s1.freeCtr + 1 }

/-- A die with a free bench and an empty ready queue pulls the oldest movable task that fits (R280). Log entry 51: DESIGN CHOICE. -/
def State.toPull (s : State) (d : Nat) : Option Task :=
  if !(s.die d).alive || !(s.readyTasks d).isEmpty || tableSize ≤ s.entries d then none
  else
    let fits (t : Task) : Bool := t.ready && t.die != d && t.desc.aff == 0 && (s.fit t d).isSome
    match s.tasks.filter fits with
    | [] => none
    | t0 :: l => some (l.foldl (fun a b => if b.id < a.id then b else a) t0)

/-- A pull moves the task's entry (R280). -/
def State.pullTask (s : State) (d : Nat) : State :=
  let s1 := s.freeBenches
  match s1.toPull d with
  | none => s
  | some t => s1.updTask t.id (fun x => { x with die := d, reserved := none, passedAt := none })

/-- The entries of a die passed to another die's table (R285, R306). -/
def State.passEntries (s : State) (d heir : Nat) : State :=
  { s with tasks := listUpd s.tasks (fun t => t.die == d) (fun t => { t with die := heir, reserved := none }) }

/-- A surviving die takes over the entries of a failed die (R285). -/
def State.takeOver (s : State) (d heir : Nat) : State :=
  if (s.die d).alive || !(s.die heir).alive || d % 4 == heir % 4 || 4 ≤ d || 4 ≤ heir then s
  else (s.passEntries d heir).endStranded.settleAll

end Sys2Proof.Machine
end

