-- ==== Sys2Proof/Machine/Accept.lean ====
section
/-!
DEFINITION. How descriptors come into the dependency tables (21_tasks.md R271 to R274), and the events of the dispatchers (R276 to
R285).
-/

namespace Sys2Proof.Machine

/-! ## Letterboxes (R271 to R273) -/

/-- A register of the four letterboxes. -/
def boxOf {α : Type} (v : Vector α 4) (p : Nat) : α := v[p % 4]'(Nat.mod_lt p (by decide))
def setBox {α : Type} (v : Vector α 4) (p : Nat) (x : α) : Vector α 4 := v.set (p % 4) x (Nat.mod_lt p (by decide))

/-- The descriptors that are pending in a letterbox (R271). -/
def Context.pending (c : Context) (p : Nat) : Nat := ((boxOf c.lbWidx p) - (boxOf c.lbRidx p)).toNat

/-- A letterbox holds a descriptor to take; a size of 0 disables it. -/
def Context.boxLive (c : Context) (p : Nat) : Bool := 0 < c.pending p && boxOf c.lbSize p != 0

/-- The address of the next descriptor of a letterbox. -/
def Context.boxSlot (c : Context) (p : Nat) : Nat :=
  ((boxOf c.lbBase p).toNat + 128 * ((boxOf c.lbRidx p).toNat % (boxOf c.lbSize p).toNat)) % 2 ^ 55

/-- LBRIDX moved past a descriptor, and the next context in turn (R273). -/
def State.boxTaken (s : State) (ctx p : Nat) : State :=
  match s.context ctx with
  | none => s
  | some c => { (s.setContext { c with lbRidx := setBox c.lbRidx p (boxOf c.lbRidx p + 1) }) with lastBox := ctx }

/-- No copy of the line of an access stays in a die's L2: the host wrote it past that cache (R272). -/
def State.pastL2 (s : State) (d : Nat) (acc : Access) : State := match acc.line? with | some l => s.dropL2 d l | none => s

/-- A block of two lines that a dispatcher reads under a context, as the host's writes before it left them (R272). -/
def State.readDesc (s : State) (d ctx va : Nat) : Option (List Byte) × State :=
  let one (u : State) (a : Nat) : Option (List Byte) × State :=
    match u.translate (.die d) d ctx [] a .read with
    | (.error _, v) => (none, v)
    | (.ok acc, v) =>
      let o := (v.pastL2 d acc).read (dispatcher d) acc 64
      (if o.poison.isSome then none else some o.bytes, o.st)
  match one s va with
  | (none, u) => (none, u)
  | (some x, u) =>
    match one u (va + 64) with
    | (some y, v) => (some (x ++ y), v)
    | (none, v) => (none, v)

/-- The next descriptor of a letterbox, when it goes to a wanted die: accepted or refused, or nothing while it cannot be accepted. Its task
acquires what the host has written, and hands it on (R262, R272; log entry 65, DESIGN CHOICE). A descriptor that cannot be read is refused as one
whose receipt does not translate (log entry 30, DEDUCED). -/
def State.takeBox (s : State) (c : Context) (p : Nat) (want : Option Nat) : Option State :=
  if !c.boxLive p then none
  else
    let va := c.boxSlot p
    match s.readDesc 0 c.num va with
    | (none, u) => if want.isSome then none else some ((u.refuse c.num 0 va).boxTaken c.num p)
    | (some bs, u) =>
      let d := parseDesc bs
      let die := d.dieOr s.freestDie
      if want.isSome && want != some die then none
      else match u.submit c die bs p none u.hostLines true with
        | .accepted v => some (v.boxTaken c.num p)
        | .refused v => some (v.boxTaken c.num p)
        | .badReceipt => some ((u.refuse c.num die d.rcpt.toNat).boxTaken c.num p)
        | .full => none

/-- The contexts in turn: those after the last one served, then the others (R273). Log entry 51: DESIGN CHOICE. -/
def State.turns (s : State) : List Context :=
  let ins (c : Context) (l : List Context) : List Context := l.takeWhile (fun x => x.num < c.num) ++ c :: l.dropWhile (fun x => x.num < c.num)
  let l := s.contexts.foldl (fun l c => ins c l) []
  l.filter (fun c => s.lastBox < c.num) ++ l.filter (fun c => c.num ≤ s.lastBox)

/-- The first pending descriptor in the order of R273 that can be taken. -/
def State.takeDescriptor (s : State) (want : Option Nat) : State :=
  (s.turns.findSome? (fun c => [3, 2, 1, 0].findSome? (fun p => s.takeBox c p want))).getD s

/-! ## Acceptance of what waits (R274) -/

/-- A die has accepted a task since an earlier state. -/
def State.acceptedOn (s t : State) (d : Nat) : Bool :=
  s.nextTask != t.nextTask && (t.tasks.any (fun x => s.nextTask ≤ x.id && x.die == d) || !t.tasks.any (fun x => s.nextTask ≤ x.id))

/-- A task that waits for entries of a die is accepted: a stalled LAUNCH of the current bench, a SORTL entry, or a letterbox descriptor. -/
def State.acceptTask (s : State) (d : Nat) : State :=
  let launch : List State :=
    match s.run? s.cur with
    | some r => match r.stall with | some (4, _) => [s.issueNext r] | _ => []
    | none => []
  let sortl := (s.cmds.filter (fun x => x.waitAt.isSome && !x.terminal)).map s.sortlStep
  ((launch ++ sortl ++ [s.takeDescriptor (some d)]).find? (fun t => s.acceptedOn t d)).getD s

/-- SORTL has waited for one entry for longer than STALL.TMO (R274). -/
def State.sortlLate (s : State) (x : Cmd) : State :=
  match x.waitAt with
  | some t => if !x.terminal && x.tmo < s.ticks - t then s.cmdEnd x stFailed 0x08 x.code x.prog 0 else s
  | none => s

/-! ## The events -/

/-- R282. A die's dispatcher pre-empts. -/
def execPreempt (die : Nat) (s : State) : Host.Outcome State Fault Refusal := .next (s.preemptTasks die)
/-- R299. A pre-emption image is written. -/
def execPreemptImageWrite (s : State) : Host.Outcome State Fault Refusal := s.atBench s.preemptImageWrite
/-- R301. A pre-empted task is restored. -/
def execTaskRestore (die : Nat) (s : State) : Host.Outcome State Fault Refusal := .next (s.taskRestore die)
/-- R283. A task ends. -/
def execTaskEnd (s : State) : Host.Outcome State Fault Refusal := s.atBench s.taskEnd
/-- R119. A run that has yielded ends. -/
def execYieldComplete (s : State) : Host.Outcome State Fault Refusal := s.atBench s.yieldComplete
/-- R273. A pending letterbox descriptor is taken. -/
def execDescriptorTake (s : State) : Host.Outcome State Fault Refusal := .next (s.takeDescriptor none)
/-- R274. A waiting task is accepted by a die. -/
def execTaskAccept (die : Nat) (s : State) : Host.Outcome State Fault Refusal := .next (s.acceptTask die)
/-- R281. A ready task is placed on a free bench. Log entry 15: DESIGN CHOICE. -/
def execTaskDispatch (die : Nat) (s : State) : Host.Outcome State Fault Refusal := .next (s.taskDispatch die)
/-- R278. Effective priorities rise with the time spent ready. -/
def execPriorityAging (die : Nat) (s : State) : Host.Outcome State Fault Refusal := .next (s.ageTasks die)
/-- R279. A task that has been passed over reserves a bench. -/
def execBenchReserve (die : Nat) (s : State) : Host.Outcome State Fault Refusal := .next (s.reserveBench die)
/-- R280. A die pulls a movable task. -/
def execTaskPull (die : Nat) (s : State) : Host.Outcome State Fault Refusal := .next (s.pullTask die)
/-- R284. A failed restartable task is ready again. -/
def execTaskRerun (die : Nat) (s : State) : Host.Outcome State Fault Refusal := .next (s.taskRerun die)
/-- R285. A surviving die takes over the entries of a failed die. -/
def execDieTakeover (die heir : Nat) (s : State) : Host.Outcome State Fault Refusal := .next (s.takeOver die heir)
/-- R274. SORTL gives up waiting. -/
def execSortlTimeout (i : Nat) (s : State) : Host.Outcome State Fault Refusal :=
  .next (match s.cmd i with | some x => s.sortlLate x | none => s)

end Sys2Proof.Machine
end

