-- ==== Sys2Proof/Machine/EngineEvents.lean ====
section
/-!
DEFINITION. The events of engines, faces and the post ring (13_faces_engines.md R162 to R202, 14_faces_engines_notes.md R203): commands start and end, elements are
fetched and written, receipts of FDFLUSH, hops of packets.
-/

namespace Sys2Proof.Machine

/-- A change by a command that the module holds. -/
def State.withCmd (s : State) (i : Nat) (f : Cmd → State) : State := match s.cmd i with | some x => f x | none => s

/-- A change by a packet of the post ring. -/
def State.withPacket (s : State) (i : Nat) (f : Packet → State) : State :=
  match s.packets.find? (fun p => p.cmd == i) with | some p => f p | none => s

/-! ## Remote responders (R165) -/

/-- A place of a command that lies beyond this module: the module and the address. Log entry 57: DEDUCED. -/
def State.remotePlace (s : State) (x : Cmd) : Option (Nat × Nat) :=
  (s.touched x 65536).findSome? (fun e => e.2.module?.map (fun m => (m, e.1.toNat)))

/-- A remote responder has not answered a command within STALL.TMO (R165). The unit of a remote unit is its module (R163).
Log entry 57: DEDUCED. -/
def State.remoteLate (s : State) (x : Cmd) : State :=
  if !x.started || x.terminal || s.ticks - x.startAt ≤ x.tmo then s
  else match s.remotePlace x with
    | some (m, va) => s.cmdFail x (0x08, unitCode 0 7 m, va)
    | none => s

/-! ## Faces (R172, R178, R179) -/

/-- The next element of an inject lane arrives in its buffer (R172). -/
def State.fetchLane (s : State) (a side lane : Nat) : State :=
  match s.runOn a with
  | none => s
  | some r =>
    let f := s.face a side
    match if side < 2 && r.phase != .closed then f.nextFetch lane else none with
    | none => s
    | some (pid, p, n) =>
      let (v, s1) := s.fetchElem a side r.ctx r.arrays p lane n
      let f1 := s1.face a side
      let x := f1.lane lane
      s1.setFace a side (f1.setLane lane { x with buf := x.buf ++ [⟨pid, n, v⟩] })

/-- The oldest pushed element of a drain lane is written; a chain's raises go to the task's XFLAGS (R178). -/
def State.drainLane (s : State) (a side lane : Nat) : State :=
  if side < 2 || 3 < side then s
  else s.drainOne a side lane

/-- The receipt of the oldest FDFLUSH of a face, for every face that the command acted on (R179). Log entry 55: DEDUCED. -/
def State.fdflush (s : State) (a side : Nat) : State :=
  match (s.face a side).flushes with
  | [] => s
  | f :: _ =>
    let same (g : Flush) : Bool := g.stamp == f.stamp && g.head == f.head && g.rcpt == f.rcpt
    let faces := (s.arrays.map (·.1)).filter (fun b => ((s.face b side).flushes.head?.map same) == some true)
    if side < 2 || !s.flushDone side f faces then s
    else
      let all := (faces.filterMap (fun b => (s.face b side).flushes.head?)).foldl
        (fun (acc : Option Flush) g => match acc with | none => some g | some h => some (h.join g)) none
      let s1 := match all with | some g => s.flushReceipt faces f.head side g | none => s
      faces.foldl (fun t b => t.setFace b side { t.face b side with flushes := (t.face b side).flushes.drop 1 }) s1

/-! ## The events -/

/-- R164. An engine takes a queued command. -/
def execEngineCommandStart (i : Nat) (s : State) : Host.Outcome State Fault Refusal := .next (s.withCmd i s.startCmd)
/-- R164. A command finishes its accesses and writes its terminal receipt. -/
def execEngineCommandEnd (i : Nat) (s : State) : Host.Outcome State Fault Refusal := .next (s.withCmd i s.endCmd).freeBenches
/-- R187. A collective group has not formed in time. -/
def execCollectiveGroupTimeout (i : Nat) (s : State) : Host.Outcome State Fault Refusal := .next (s.withCmd i s.collTimeout)
/-- R190. A member takes a reduced chunk. -/
def execCollectiveChunkReceive (i : Nat) (chunk : Chunk) (s : State) : Host.Outcome State Fault Refusal :=
  .next (s.withCmd i (fun x => s.receiveChunk x chunk))
/-- R165. A remote responder does not answer. -/
def execRemoteResponderTimeout (i : Nat) (s : State) : Host.Outcome State Fault Refusal := .next (s.withCmd i s.remoteLate)
/-- R172. An element arrives in an inject lane's buffer. -/
def execInjectElementFetch (a face lane : Nat) (s : State) : Host.Outcome State Fault Refusal := .next (s.fetchLane a face lane)
/-- R178. A pushed element is written. -/
def execDrainElementWrite (a face lane : Nat) (s : State) : Host.Outcome State Fault Refusal := .next (s.drainLane a face lane)
/-- R179. The receipt of an FDFLUSH. -/
def execFdflushReceipt (a face : Nat) (s : State) : Host.Outcome State Fault Refusal := .next (s.fdflush a face)
/-- R199. A packet moves. -/
def execPostPacketHop (i : Nat) (s : State) : Host.Outcome State Fault Refusal := .next (s.withPacket i s.hopPacket)
/-- R202. A packet enters the inbox. -/
def execPostInboxEnter (i : Nat) (s : State) : Host.Outcome State Fault Refusal := .next (s.withPacket i s.enterInbox)

end Sys2Proof.Machine
end

