-- ==== Sys2Proof/Machine/Device.lean ====
section
/-!
DEFINITION. The events of the module's parts and of its supply (23_traps.md R306, R307, 21_tasks.md R283, R285, 25_device.md R308 to
R311, R321 to R326): memory channels and scrubs, region swaps, Carrier ports, droop, machine checks, losses, power and reset.
-/

namespace Sys2Proof.Machine

/-! ## Channels (R310, R311) -/

/-- The reference count of a deadline now. -/
def State.now16 (s : State) : Nat := s.ticks / 16 % 2 ^ 16

/-- Deadline `d` lies before deadline `e` (R311). -/
def before16 (d e : Nat) : Bool := 2 ^ 15 ≤ (d + 2 ^ 16 - e % 2 ^ 16) % 2 ^ 16

/-- A request that is served after its deadline. -/
def State.overdueReq (s : State) (q : Request) : Bool := before16 q.deadline s.now16

/-- A request is served before another that arrived earlier: an overdue one first, then the lower class, then the earlier deadline. Among
overdue requests only the deadline counts (R311). -/
def State.servedFirst (s : State) (q p : Request) : Bool :=
  if s.overdueReq q && s.overdueReq p then before16 q.deadline p.deadline
  else if s.overdueReq q || s.overdueReq p then s.overdueReq q
  else q.cls < p.cls || (q.cls == p.cls && before16 q.deadline p.deadline)

/-- The requests of a channel that may be served: the first of each line (R311). -/
def State.heads (s : State) (ch : Nat) : List (Nat × Request) :=
  let l := (s.requests.zipIdx.map (fun e => (e.2, e.1))).filter (fun e => e.2.channel == ch)
  l.filter (fun e => !l.any (fun f => f.1 < e.1 && f.2.line == e.2.line))

/-- A request leaves its queue; a late one adds to its requester's counter, which saturates (R311). -/
def State.served (s : State) (i : Nat) (q : Request) : State :=
  let n := tabGet 0 s.missed q.who
  let late := s.overdueReq q && q.who < whoNone
  { s with requests := s.requests.eraseIdx i, missed := if late then tabPut s.missed q.who (min (n + 1) (2 ^ 32 - 1)) else s.missed }

/-- A channel serves one request (R311). Log entry 33: DEDUCED. -/
def State.serveChannel (s : State) (ch : Nat) : State :=
  match s.heads ch with
  | [] => s
  | h :: t =>
    let b := t.foldl (fun a e => if s.servedFirst e.2 a.2 then e else a) h
    s.served b.1 b.2

/-- One request for each line of a region, of a swap copy: class 3, of no requester (R310, R311). Log entry 33: DEDUCED. -/
def State.copyRegion (s : State) (a : Nat) : State :=
  (span (2 ^ 15 * a) (2 ^ 15)).foldl (fun t l => t.request (64 * l) 15 3 whoNone) s

/-! ## Scrubs and region swaps (R308, R310) -/

/-- A granule of this module lies in a stack. -/
def State.granIn (s : State) (stack g : Nat) : Bool := 32 * g < Config.hbmBytes && s.stackAt (32 * g) == stack

/-- Errors of HBM that a scrub finds become poison (R308). -/
def State.found (s : State) (p : Nat → Bool) : State :=
  { s with poison := setUnion s.poison (s.latent.filter p), latent := s.latent.filter (fun g => !p g) }

/-- A scrub reads one line, with a request of class 3 (R308, R311). Log entry 33: DEDUCED. -/
def State.scrubLine (s : State) (line : Nat) : State :=
  if Config.hbmBytes ≤ 64 * line then s
  else
    let ch := s.channelOf (64 * line)
    let t := (s.request (64 * line) 15 3 whoNone).found (fun g => g / 2 == line)
    { t with scrubs := tabPut t.scrubs ch (tabGet 0 t.scrubs ch + 1) }

/-- A stack has scrubbed all of its lines (R308): each of its channels has read 2^25 of them. Those that no turn read by itself have been
requested and served before, and are counted here. Log entry 33: DEDUCED. -/
def State.scrub (s : State) (stack : Nat) : State :=
  let t := s.found (s.granIn stack)
  (span (32 * stack) 32).foldl
    (fun t c => { t with chanCount := tabPut t.chanCount c ((tabGet 0 t.chanCount c + (2 ^ 25 - tabGet 0 t.scrubs c)) % 2 ^ 32),
                         scrubs := tabErase t.scrubs c }) t

/-- The first request of a region is served. -/
def State.serveRegion (s : State) (a : Nat) : Option State :=
  (s.requests.zipIdx.find? (fun e => 64 * e.1.line / 2 ^ 21 == a)).map (fun e => s.served e.2 e.1)

/-- The requests of two regions complete, in arrival order. -/
def State.serveRegions : Nat → State → Nat → Nat → State
  | 0, s, _, _ => s
  | n + 1, s, a, b =>
    match s.serveRegion a with
    | some t => State.serveRegions n t a b
    | none => match s.serveRegion b with | some t => State.serveRegions n t a b | none => s

/-- The lines of a region written back and dropped from the LLC, which holds lines of its own stack alone (R312). -/
def State.dropRegion (s : State) (a : Nat) : State :=
  ((s.llcLines.map (·.1)).filter (fun l => l / 2 ^ 15 == a)).foldl (fun t l => t.dropLlc l) s

/-- A swap of two regions, in one step (R310): the LLC lets their lines go, what was accepted completes, both frames are read, the entries are
exchanged, and both are written. Data, marks, tags and compression state are held by offset and so go with their region. Log entry 33: DEDUCED. -/
def State.swapRegions (s : State) (a b : Nat) : State :=
  if a == b then s
  else
    let s0 := (s.dropRegion a).dropRegion b
    let s1 := s0.serveRegions s0.requests.length a b
    let (fa, fb) := (s1.frame a, s1.frame b)
    let s2 := (s1.copyRegion a).copyRegion b
    (({ s2 with frames := tabPut (tabPut s2.frames a fb) b fa } : State).copyRegion a).copyRegion b

/-- The requests that the channels of a stack have counted. Log entry 25: DEDUCED. -/
def State.stackCount (s : State) (k : Nat) : Nat := ((span (32 * k) 32).map (tabGet 0 s.chanCount)).sum

/-- The region that lies in a frame. -/
def State.regionAt (s : State) (f : Nat) : Nat := match s.frames.find? (fun e => e.2 == f) with | some e => e.1 | none => f

/-- The sampled region of a stack: the hottest (0) or the coolest (1). Which it is, is a free value. -/
def State.sampled (s : State) (which k : Nat) : Nat := s.regionAt (k * 2 ^ 15 + Config.sampledRegion which k s.swaps % 2 ^ 15)

/-- The stack with the most requests, and the one with the fewest. Log entry 25: DEDUCED. -/
def State.busiest (s : State) : Nat := (span 1 7).foldl (fun m k => if s.stackCount m < s.stackCount k then k else m) 0
def State.idlest (s : State) : Nat := (span 1 7).foldl (fun m k => if s.stackCount k < s.stackCount m then k else m) 0

/-- Automatic mode swaps once per interval, when the counts differ by more than one eighth of the larger (R310). Log entry 25: DEDUCED. -/
def State.autoSwapNow (s : State) : State :=
  if !s.autoSwap || s.ticks - s.swapAt < s.swapInterval.toNat then s
  else
    let (hi, lo) := (s.busiest, s.idlest)
    let t := { s with swapAt := s.ticks, swaps := s.swaps + 1 }
    if s.stackCount hi < 8 * (s.stackCount hi - s.stackCount lo) then t.swapRegions (s.sampled 0 hi) (s.sampled 1 lo) else t

/-! ## Losses (R270, R283, R285, R306) -/

/-- Tasks whose run used a lost unit fail with CLASS UNIT.LOST. -/
def State.loseRuns (s : State) (used : Run → Bool) (unit : Nat) : State :=
  s.runs.foldl
    (fun t e =>
      match t.run? e.1 with
      | some r => if (r.phase == .closed || r.phase == .ended) || !used r then t else t.failRun r 0x13 unit 0
      | none => t) s

/-- The first other die that is alive. Log entry 24: DEDUCED. -/
def State.heir (s : State) (d : Nat) : Option Nat := (List.range 4).find? (fun e => e != d % 4 && (s.die e).alive)

/-- A machine check: the entry, the frozen record, the die's running tasks, its dependency entries, and the records in flash (R306).
Log entry 24: DEDUCED. -/
def State.machineCheck (s : State) (d : Nat) : State :=
  let s1 := s.deadLetter d (s.dlrEntry 0 0 (unitCode d 4 0) 3 0 0 0x1DF)
  let s2 := s1.setDie d { s1.die d with frozen := true }
  let s3 := s2.loseRuns (fun r => r.arrays.any (fun a => dieOf a == d % 4)) (unitCode d 10 0x1DF)
  let s4 := match s3.heir d with | some h => s3.passEntries (d % 4) h | none => s3
  (List.range 4).foldl (fun t e => t.setDie e { t.die e with flashDlr := (t.die e).dlr }) s4

/-- The port that takes a request of this module to a line of another (R321): the lowest of the mask for SO, otherwise one chosen
by the hash among those of the mask that are up. Log entry 9: DESIGN CHOICE. Log entry 60: DESIGN CHOICE. -/
def State.portOf (s : State) (acc : Access) : Option Nat :=
  match acc.module? with
  | none => none
  | some m =>
    let mask := tabGet 0 s.routes m &&& ~~~s.portsDown
    let up := (List.range 18).filter (fun p => bit mask p)
    if acc.ord == 1 then up.head? else up[Config.portHash acc.place % up.length]?

/-- A member of another module takes part in what a collective has still to do, behind a port (R165, R187, R321). -/
def State.peerOnPort (s : State) (x : Cmd) (port : Nat) : Bool :=
  isCollective x.op && x.next < x.numChunks
    && x.members.any (fun m => m.1 != s.modId.toNat && s.portOf (.store (64 * (m.1 + 1) + m.2) 0 0) == some port)

/-- A command has a place, or a partner, behind a port. Log entry 28: DEDUCED. -/
def State.cmdOnPort (s : State) (x : Cmd) (port : Nat) : Bool :=
  x.started && !x.terminal && ((s.touched x 64).any (fun e => s.portOf e.2 == some port) || s.peerOnPort x port)

/-- Requests in flight on a port fail (R321). Log entry 28: DEDUCED. -/
def State.failedOn (s : State) (port : Nat) : State :=
  let unit := unitCode 0 8 port
  let hit := s.cmds.filter (fun x => s.cmdOnPort x port)
  hit.foldl (fun t x => t.cmdFail x (0x09, unit, 0)) (s.loseRuns (fun r => r.loads.any (fun l => s.portOf l.acc == some port)) unit)

/-- A port goes down with the requests in flight on it (R321). Log entry 28: DEDUCED. -/
def State.portLost (s : State) (port : Nat) : State :=
  let s2 := s.failedOn port
  { s2 with portsDown := s2.portsDown ||| (1#18 <<< port), portFails := tabErase s2.portFails port }

/-- A flit arrives at a port; one that fails its check eight times takes the port down (R321). -/
def State.flit (s : State) (port : Nat) (good : Bool) : State :=
  if 18 ≤ port || bit s.portsDown port then s
  else if good then { s with portFails := tabErase s.portFails port }
  else
    let n := tabGet 0 s.portFails port + 1
    if n < 8 then { s with portFails := tabPut s.portFails port n } else s.portLost port

/-- A run that used a stack: it waits for it, or wrote lines of it, or its L1 holds some. Log entry 28: DEDUCED. -/
def State.usedStack (s : State) (k : Nat) (r : Run) : Bool :=
  let on (line : Nat) : Bool := 64 * line < Config.hbmBytes && s.stackAt (64 * line) == k
  r.loads.any (fun l => match l.acc.line? with | some x => on x | none => false) || r.wrote.any (fun e => on e.1)
    || r.arrays.any (fun a => (s.arr a).l1.any (fun e => on e.1))

/-- The tasks whose run used a die (0), a stack (1) or a link (2) fail (R283). Log entry 28: DEDUCED. -/
def State.loseUsers (s : State) (kind i : Nat) : State :=
  match kind with
  | 0 => s.loseRuns (fun r => r.arrays.any (fun a => dieOf a == i % 4)) (unitCode i 4 0)
  | 1 => s.loseRuns (s.usedStack (i % 8)) (unitCode (i % 8 / 2) 7 (i % 8))
  | _ => s.failedOn i

/-- A die (0), a stack (1) or a link (2) fails, or each of them, with 3, 4 and 5, resets (R283, R285). A die that fails runs nothing more, and
its entries are taken over; a unit that resets goes on. Log entry 28: DEDUCED. -/
def State.loseUnit (s : State) (kind i : Nat) : State :=
  match kind with
  | 0 =>
    let s1 := s.loseUsers 0 i
    (s1.setDie i { s1.die i with alive := false }).endStranded.settleAll
  | 1 => s.loseUsers 1 i
  | 2 => if i < 18 && !bit s.portsDown i then s.portLost i else s
  | 3 => s.loseUsers 0 i
  | 4 => s.loseUsers 1 i
  | 5 => if i < 18 then s.loseUsers 2 i else s
  | _ => s

/-- The Clawyn link fails: the host copies that are under way end with CLASS LINK (R165). -/
def State.clawynLost (s : State) : State :=
  (s.cmds.filter (fun x => x.unit == 10 && x.started && !x.terminal)).foldl (fun t x => t.cmdFail x (0x09, x.code, 0)) s

/-! ## Power (R307, R322) -/

/-- The value of bits [63:0] of a receipt. -/
def receiptLow (state cls unit prog : Nat) : Nat := leNat ((receiptBytes state cls unit prog 0).take 8)

/-- An entry of KIND 5 in a die's power-loss list, with the cause POWER.LOSS (R287, R322). -/
def State.powerEntry (s : State) (d rcpt low unit head ctx : Nat) : State :=
  s.setDie d { s.die d with powerList := (s.die d).powerList ++ [s.dlrEntry low rcpt unit 5 head ctx 0x1F2] }

/-- The receipt of an outstanding command at power loss: CANCELLED before its first write, else PARTIAL (R166). Log entry 23: DEDUCED. -/
def State.powerCmd (s : State) (x : Cmd) : State :=
  if x.terminal then s
  else
    let prog := x.parts.foldl (fun p q => min p q.unit) x.prog
    let state := if x.wrote then stPartial else stCancelled
    (s.cmdStop x 0x0A).powerEntry x.die x.rcpt (receiptLow state 0x0A x.code prog) x.code x.array x.ctx

/-- The head array of the bench of a task; the first of its die while it has none. -/
def State.headOf (s : State) (t : Task) : Nat :=
  match (s.runs.map (·.2)).find? (fun r => r.task == t.id) with | some r => r.head | none => 16 * t.die

/-- The receipt of an accepted task at power loss: PARTIAL (R283). Log entry 23: DEDUCED. -/
def State.powerTask (s : State) (t : Task) : State :=
  let unit := unitCode t.die 4 0
  (s.endTask t (s.headOf t) stPartial 0x0A unit (s.progOf t) 0 []).powerEntry t.die t.desc.rcpt.toNat
    (receiptLow stPartial 0x0A unit (s.progOf t)) unit (s.headOf t) t.ctx

/-- The FDFLUSH commands of a drain side that wait for their receipts, in the faces and in the images of tasks that wait, each with the counts of
all its faces. -/
def State.waitingFlushes (s : State) (side : Nat) : List Flush :=
  (s.arrays.flatMap (fun e => (s.face e.1 side).flushes) ++
    s.tasks.flatMap (fun t => match t.image with | some im => im.flushes side | none => [])).foldl (fun (l : List Flush) f =>
    let same (g : Flush) : Bool := g.stamp == f.stamp && g.head == f.head && g.rcpt == f.rcpt
    if l.any same then l.map (fun g => if same g then g.join f else g) else l ++ [f]) []

/-- The receipt of an FDFLUSH that ends early, with a state and a class, once what its faces wrote is at the .sys point (R256). -/
def State.endFlush (s : State) (side : Nat) (f : Flush) (state cls : Nat) : State :=
  let unit := drainUnit f.head side
  let prog := min f.written 0xFFFFFFFF
  let s0 := s.arrays.foldl (fun t e => if e.2.lastCtx == f.ctx then t.releaseLines e.1 5 f.lines else t) s
  let s1 := s0.writeReceipt (.array f.head (whoFace f.head side)) f.rcpt state cls unit prog 0 f.lines
  if state == stCancelled then s1 else s1.deadLetter (dieOf f.head) (s1.dlrEntry 0 f.va unit 1 f.head f.ctx 0)

/-- The receipt of an outstanding FDFLUSH at power loss. -/
def State.powerFlush (s : State) (side : Nat) (f : Flush) : State :=
  let state := if f.written == 0 then stCancelled else stPartial
  let unit := drainUnit f.head side
  (s.endFlush side f state 0x0A).powerEntry (dieOf f.head) f.va (receiptLow state 0x0A unit (min f.written 0xFFFFFFFF)) unit f.head f.ctx

/-- What was written to the other modules has arrived in their memory. Log entry 22: DEDUCED. -/
def State.settleRemote (s : State) : State :=
  (s.llc.filter (fun e => Config.hbmBytes ≤ e.1)).foldl (fun t e => t.cleanGran (e.1 / 32)) s

/-- The contents of caches, the LLC and HBM are lost; memory of other modules stays (R322). Log entry 5: DESIGN CHOICE. Log entry 22: DEDUCED. -/
def State.loseMemory (s0 : State) : State :=
  let s := s0.settleRemote
  { s with
    mem := s.mem.filter (fun e => Config.hbmBytes ≤ e.1), llc := [], llcLines := [], llcTags := [],
    veil := s.veil.filter (fun v => Config.hbmBytes ≤ 32 * v.lo), unveiled := s.unveiled.filter (fun e => Config.hbmBytes ≤ e.1),
    poison := s.poison.filter (fun g => Config.hbmBytes ≤ 32 * g),
    latent := s.latent.filter (fun g => Config.hbmBytes ≤ 32 * g), tags := s.tags.filter (fun e => Config.hbmBytes ≤ 32 * e.1),
    compressed := s.compressed.filter (fun e => Config.hbmBytes ≤ 2048 * e.1), franks := [], tlb := [], requests := [],
    arrays := s.arrays.filter (fun e => 64 ≤ e.1), dies := s.dies.map (fun (d : Die) => { d with l2 := [] }) }

/-- Power loss: issue stops without a drain, every outstanding command and task writes its POWER.LOSS receipt with an entry in its die's
list, and the records and lists go to flash (R322). Each list has room for 8,192 entries. Log entry 23: DEDUCED. -/
def State.powerLost (s : State) : State :=
  if !s.powered then s
  else
    let s0 : State := { s with dies := s.dies.map (fun (d : Die) => { d with powerList := [] }) }
    let s1 := s0.cmds.foldl (fun t x => t.powerCmd x) s0
    let s2 := [2, 3].foldl (fun t side => (t.waitingFlushes side).foldl (fun u f => u.powerFlush side f) t) s1
    let s3 := s2.tasks.foldl (fun t x => t.powerTask x) s2
    let s4 : State := { s3.loseMemory with runs := [], tasks := [], cmds := [], packets := [], barriers := [] }
    let stored (d : Die) : Die := { d with powerList := d.powerList.take 8192, flashDlr := d.dlr }
    { s4 with powered := false, dies := s4.dies.map stored }

/-! ## Reset and boot (R325, R326, R328) -/

/-- A firmware image of the flash is accepted (R325). Slots 0 and 1 are copies A and B of the hub's, 2 and 3 those of the supervisor's. -/
def State.accepted (s : State) (slot : Nat) : Bool :=
  match tabFind s.flash slot with
  | some im => Config.verifies im && decide (Config.rollback.toNat ≤ Config.version im)
  | none => false

/-- BOOTSTAT after boot (R326): STATE 1 running, 2 and 3 recovery. Log entry 63: DEDUCED. Log entry 10: DESIGN CHOICE. -/
def State.bootWord (s : State) : DWord :=
  let hub := s.accepted 0 || s.accepted 1
  let sup := s.accepted 2 || s.accepted 3
  let state : Nat := if !hub then 2 else if !sup then 3 else 1
  BitVec.ofNat 64 (Config.rollback.toNat * 2 ^ 32 + 32 * b2n (hub && !s.accepted 2 && s.accepted 3) + 16 * b2n (!s.accepted 0 && s.accepted 1) + state)

/-- The image that boot loads from two copies: copy A where it is accepted, else copy B, or none (R325). -/
def State.loads (s : State) (slot : Nat) : Option (List Byte) :=
  if s.accepted slot then tabFind s.flash slot else if s.accepted (slot + 1) then tabFind s.flash (slot + 1) else none

/-- A die after module reset: its record holds what was written to flash, where it stays with the power-loss list (R322, R328). Log entry 22: DEDUCED. -/
def Die.rebooted (d : Die) : Die := { Die.reset with dlr := d.flashDlr, flashDlr := d.flashDlr, powerList := d.powerList }

/-- The module resets in full and boots (R325). Flash, the host, the other modules and the reference count go on. Log entry 22: DEDUCED.
Log entry 63: DEDUCED. -/
def State.rebooted (s : State) : State :=
  let m := s.loseMemory
  { State.reset with
    mem := m.mem, veil := m.veil, unveiled := m.unveiled, arrays := m.arrays, remote := s.remote, poison := m.poison, latent := m.latent,
    tags := m.tags, compressed := m.compressed,
    dies := s.dies.map Die.rebooted, bootStat := s.bootWord, recovery := decide (2 ≤ (fld s.bootWord 0 4).toNat), pod := s.pod, flash := s.flash,
    hubImage := s.loads 0, supImage := if (s.loads 0).isSome then s.loads 2 else none,
    hostMem := s.hostMem, messages := s.messages, hostReads := s.hostReads, ticks := s.ticks, cur := s.cur, sched := s.sched,
    freeCtr := s.freeCtr }

/-! ## Droop (R323, R324) -/

/-- A quadrant of a die replaced. -/
def State.updQuad (s : State) (d q : Nat) (f : Quadrant → Quadrant) : State :=
  let x := s.die d
  if q < 4 then s.setDie d { x with quads := vset x.quads q (f (vget x.quads q Quadrant.reset)) } else s

/-- An armed detector's supply falls below its threshold: the alarm is counted, and stretch and hold start over with the values of now.
Log entry 35: DEDUCED. -/
def Quadrant.alarm (q : Quadrant) : Quadrant :=
  if q.armed then { q with count := q.count + 1, armed := false, stretching := true, holdOf := some q.hold.toNat, made := [] } else q

/-- Every bench with an array in the quadrant has made its half-rate advances. Log entry 35: DEDUCED. -/
def State.holdDone (s : State) (d i : Nat) (q : Quadrant) : Bool :=
  match q.holdOf with
  | some n => !q.stretching && (s.runs.filter (fun e => e.2.arrays.any (fun a => a / 4 == 4 * (d % 4) + i))).all (fun e => n ≤ tabGet 0 q.made e.1)
  | none => false

/-! ## The events -/

/-- R306. A machine check of a die. Log entry 59: DESIGN CHOICE. -/
def execMachineCheck (die : Nat) (s : State) : Host.Outcome State Fault Refusal := .next (s.machineCheck die)
/-- R283. A die, stack or link is lost. -/
def execUnitLoss (kind index : Nat) (s : State) : Host.Outcome State Fault Refusal := .next (s.loseUnit kind index)
/-- R311. A channel serves a request. -/
def execMemoryRequestServe (channel : Nat) (s : State) : Host.Outcome State Fault Refusal := .next (s.serveChannel channel)
/-- R308. A stack has scrubbed its lines. -/
def execHbmScrub (stack : Nat) (s : State) : Host.Outcome State Fault Refusal := .next (s.scrub stack)
/-- R310. Automatic mode. -/
def execPostcodeAutoSwap (s : State) : Host.Outcome State Fault Refusal := .next s.autoSwapNow
/-- R321. A flit arrives. -/
def execCarrierFlitReceive (port : Nat) (good : Bool) (s : State) : Host.Outcome State Fault Refusal := .next (s.flit port good)
/-- R322. Input power is lost. -/
def execPowerLoss (s : State) : Host.Outcome State Fault Refusal := .next s.powerLost
/-- R325. The module resets and boots. -/
def execModuleReset (s : State) : Host.Outcome State Fault Refusal := .next s.rebooted
/-- R323. An alarm. -/
def execDroopAlarm (die quad : Nat) (s : State) : Host.Outcome State Fault Refusal := .next (s.updQuad die quad Quadrant.alarm)
/-- R323. The stretched cycles have passed. -/
def execDroopStretchEnd (die quad : Nat) (s : State) : Host.Outcome State Fault Refusal :=
  .next (s.updQuad die quad (fun q => { q with stretching := false }))
/-- R323. The half-rate advances have been made. -/
def execDroopHoldEnd (die quad : Nat) (s : State) : Host.Outcome State Fault Refusal :=
  .next (s.updQuad die quad (fun q => if s.holdDone die quad q then { q with holdOf := none, made := [] } else q))
/-- R323. The supply has risen 10 mV above the threshold. -/
def execDroopRearm (die quad : Nat) (s : State) : Host.Outcome State Fault Refusal :=
  .next (s.updQuad die quad (fun q => { q with armed := true }))
/-- R165. The Clawyn link fails. -/
def execClawynLinkFailure (s : State) : Host.Outcome State Fault Refusal := .next s.clawynLost

end Sys2Proof.Machine
end

