-- ==== Sys2Proof/Machine/FamilyControl.lean ====
section
/-!
DEFINITION. The meanings of the control slot S0 (05_encoding.md R61, 09_sequencer_isa.md R105 to R123):
each is the issue of a bundle that holds the instruction alone.
-/

namespace Sys2Proof.Machine

/-- R52. S0 no operation. -/
def execNopControl (g : QGuard) (s : State) :
    Host.Outcome State Fault Refusal :=
  s.issueAlone (.nopControl g)

/-- R105. Conditional or unconditional branch on the flag state. -/
def execBr (g : QGuard) (c : BitVec 3) (o : BitVec 20) (s : State) :
    Host.Outcome State Fault Refusal :=
  s.issueAlone (.br g c o)

/-- R106. Conditional call that pushes the return address and loop depth. -/
def execCall (g : QGuard) (c : BitVec 3) (o : BitVec 20) (s : State) :
    Host.Outcome State Fault Refusal :=
  s.issueAlone (.call g c o)

/-- R107. Indirect call to the address in an s register. -/
def execCalli (g : QGuard) (sr : BitVec 6) (s : State) :
    Host.Outcome State Fault Refusal :=
  s.issueAlone (.calli g sr)

/-- R106. Return to the popped address after the loop-depth check. -/
def execRet (g : QGuard) (s : State) :
    Host.Outcome State Fault Refusal :=
  s.issueAlone (.ret g)

/-- R107. Indirect jump to the address in an s register. -/
def execJmpi (g : QGuard) (sr : BitVec 6) (s : State) :
    Host.Outcome State Fault Refusal :=
  s.issueAlone (.jmpi g sr)

/-- R226. Opens a loop level with its count taken from an s register. -/
def execLoop (g : QGuard) (sr : BitVec 6) (k : BitVec 3) (r : BitVec 3) (e : BitVec 11) (s : State) :
    Host.Outcome State Fault Refusal :=
  s.issueAlone (.loop g sr k r e)

/-- R226. Opens a loop level with an immediate count. -/
def execLoops (g : QGuard) (i : BitVec 8) (k : BitVec 3) (r : BitVec 3) (e : BitVec 9) (s : State) :
    Host.Outcome State Fault Refusal :=
  s.issueAlone (.loops g i k r e)

/-- R236. Closes the innermost loop level of the current frame. -/
def execLbrk (g : QGuard) (s : State) :
    Host.Outcome State Fault Refusal :=
  s.issueAlone (.lbrk g)

/-- R236. Closes the innermost level when its exit state holds ALL = 1. -/
def execLbrka (g : QGuard) (s : State) :
    Host.Outcome State Fault Refusal :=
  s.issueAlone (.lbrka g)

/-- R231. Waits for the wave, then sets the rotating region sizes and clears every base. -/
def execRotcfg (g : QGuard) (x : BitVec 2) (y : BitVec 2) (s : State) :
    Host.Outcome State Fault Refusal :=
  s.issueAlone (.rotcfg g x y)

/-- R108. Sets the wave shape of later bundles. -/
def execWave (g : QGuard) (w : Bool) (s : State) :
    Host.Outcome State Fault Refusal :=
  s.issueAlone (.wave g w)

/-- R109. Sets FMT from bundle k + 4 onward, or raises FMT.INVALID. -/
def execFmtset (g : QGuard) (sr : BitVec 6) (s : State) :
    Host.Outcome State Fault Refusal :=
  s.issueAlone (.fmtset g sr)

/-- R110. Writes semiring table entry 8 to 15 from a 64-bit image. -/
def execSemset (g : QGuard) (e : BitVec 4) (sr : BitVec 6) (s : State) :
    Host.Outcome State Fault Refusal :=
  s.issueAlone (.semset g e sr)

/-- R111. Waits until the latest flag record is readable. -/
def execWaitf (g : QGuard) (t : BitVec 6) (q : BitVec 3) (s : State) :
    Host.Outcome State Fault Refusal :=
  s.issueAlone (.waitf g t q)

/-- R112. Waits until a receipt is terminal, and joins its command. -/
def execWaitr (g : QGuard) (a : BitVec 6) (t : BitVec 6) (q : BitVec 3) (s : State) :
    Host.Outcome State Fault Refusal :=
  s.issueAlone (.waitr g a t q)

/-- R113. Waits until the earlier copy commands into a path have written their receipts. -/
def execDrain (g : QGuard) (p : BitVec 2) (t : BitVec 6) (q : BitVec 3) (s : State) :
    Host.Outcome State Fault Refusal :=
  s.issueAlone (.drain g p t q)

/-- R259. Orders and completes accesses of the given kind at a scope. -/
def execFence (g : QGuard) (sr : BitVec 3) (k : BitVec 2) (s : State) :
    Host.Outcome State Fault Refusal :=
  s.issueAlone (.fence g sr k)

/-- R256. Release at a scope, attached to the next synchronising write. -/
def execRel (g : QGuard) (sr : BitVec 3) (s : State) :
    Host.Outcome State Fault Refusal :=
  s.issueAlone (.rel g sr)

/-- R116. Acquire read of a 64-bit word at a scope. -/
def execAcq (g : QGuard) (sr : BitVec 3) (a : BitVec 6) (s : State) :
    Host.Outcome State Fault Refusal :=
  s.issueAlone (.acq g sr a)

/-- R116. Waits until an acquire read of a word returns non-zero. -/
def execAcqW (g : QGuard) (sr : BitVec 3) (a : BitVec 6) (t : BitVec 6) (q : BitVec 3) (s : State) :
    Host.Outcome State Fault Refusal :=
  s.issueAlone (.acqW g sr a t q)

/-- R114. Barrier arrival at a scope, with release, wait and acquire. -/
def execBar (g : QGuard) (sr : BitVec 3) (t : BitVec 6) (q : BitVec 3) (s : State) :
    Host.Outcome State Fault Refusal :=
  s.issueAlone (.bar g sr t q)

/-- R117. Submits a task descriptor to a dispatcher with a release. -/
def execLaunch (g : QGuard) (sr : BitVec 6) (s : State) :
    Host.Outcome State Fault Refusal :=
  s.issueAlone (.launch g sr)

/-- R118. Releases at .die and ripens a token. -/
def execSignal (g : QGuard) (sr : BitVec 6) (s : State) :
    Host.Outcome State Fault Refusal :=
  s.issueAlone (.signal g sr)

/-- R119. Waits for the wave and the accesses, then returns the task to the ready queue. -/
def execYield (g : QGuard) (s : State) :
    Host.Outcome State Fault Refusal :=
  s.issueAlone (.yield g)

/-- R119. Waits for the wave and the accesses, then ends the task with a .sys release. -/
def execDone (g : QGuard) (s : State) :
    Host.Outcome State Fault Refusal :=
  s.issueAlone (.done g)

/-- R120. Raises TRAP.USER with an 8-bit code. -/
def execTrap (g : QGuard) (c : BitVec 8) (s : State) :
    Host.Outcome State Fault Refusal :=
  s.issueAlone (.trap g c)

/-- R296. Returns from a trap: restores the frame and the state, re-injects the capture and resumes at TPC. -/
def execRft (g : QGuard) (s : State) :
    Host.Outcome State Fault Refusal :=
  s.issueAlone (.rft g)

/-- R121. Reads a system register into an s register. -/
def execSysrd (g : QGuard) (d : BitVec 6) (r : BitVec 12) (s : State) :
    Host.Outcome State Fault Refusal :=
  s.issueAlone (.sysrd g d r)

/-- R121. Writes a system register under its fields' access codes. -/
def execSyswr (g : QGuard) (sr : BitVec 6) (r : BitVec 12) (s : State) :
    Host.Outcome State Fault Refusal :=
  s.issueAlone (.syswr g sr r)

/-- R122. Opens a docket segment with its expected count and CRC. -/
def execDocket (g : QGuard) (a : BitVec 6) (b : BitVec 6) (s : State) :
    Host.Outcome State Fault Refusal :=
  s.issueAlone (.docket g a b)

/-- R303. Waits for the segment to leave, then compares the count and CRC and raises SDC.DOCKET on a difference. -/
def execDcheck (g : QGuard) (s : State) :
    Host.Outcome State Fault Refusal :=
  s.issueAlone (.dcheck g)

/-- R123. Reads the reference tick count. -/
def execStamp (g : QGuard) (d : BitVec 6) (s : State) :
    Host.Outcome State Fault Refusal :=
  s.issueAlone (.stamp g d)

/-- R123. Reads the bundle's own task bundle number. -/
def execStampS (g : QGuard) (d : BitVec 6) (s : State) :
    Host.Outcome State Fault Refusal :=
  s.issueAlone (.stampS g d)

end Sys2Proof.Machine
end

