-- ==== Sys2Proof/Machine/FamilyDrain.lean ====
section
/-!
DEFINITION. The meanings of the drain slot S6 (05_encoding.md R64, 13_faces_engines.md R177 to R179):
each is the issue of a bundle that holds the instruction alone.
-/

namespace Sys2Proof.Machine

/-- R52. S6 no operation. -/
def execNopDrain (g : QGuard) (s : State) :
    Host.Outcome State Fault Refusal :=
  s.issueAlone (.nopDrain g)

/-- R179. Loads a drain pattern into the pending slot. -/
def execFdcfg (g : QGuard) (sr : BitVec 6) (f : Bool) (s : State) :
    Host.Outcome State Fault Refusal :=
  s.issueAlone (.fdcfg g sr f)

/-- R179. Moves the pending drain pattern to running or next. -/
def execFdgo (g : QGuard) (f : Bool) (s : State) :
    Host.Outcome State Fault Refusal :=
  s.issueAlone (.fdgo g f)

/-- R179. Discards the running and next drain patterns. -/
def execFdhalt (g : QGuard) (f : Bool) (s : State) :
    Host.Outcome State Fault Refusal :=
  s.issueAlone (.fdhalt g f)

/-- R177. Sets the drain chain for later pushes. -/
def execFdchain (g : QGuard) (sr : BitVec 6) (f : Bool) (s : State) :
    Host.Outcome State Fault Refusal :=
  s.issueAlone (.fdchain g sr f)

/-- R179. Requests a receipt once earlier pushes are written. -/
def execFdflush (g : QGuard) (sr : BitVec 6) (f : Bool) (s : State) :
    Host.Outcome State Fault Refusal :=
  s.issueAlone (.fdflush g sr f)

end Sys2Proof.Machine
end

