-- ==== Sys2Proof/Machine/FamilyEngine.lean ====
section
/-!
DEFINITION. The meanings of the engine slot S7 (05_encoding.md R64, 13_faces_engines.md R162, R180 to R202):
each is the issue of a bundle that holds the instruction alone.
-/

namespace Sys2Proof.Machine

/-- R52. S7 no operation. -/
def execNopEngine (g : QGuard) (s : State) :
    Host.Outcome State Fault Refusal :=
  s.issueAlone (.nopEngine g)

/-- R181. Courier byte copy. -/
def execCpy (g : QGuard) (d : BitVec 6) (r : BitVec 6) (t : BitVec 6) (c : BitVec 3) (s : State) :
    Host.Outcome State Fault Refusal :=
  s.issueAlone (.cpy g d r t c)

/-- R182. Courier strided element copy. -/
def execCpya (g : QGuard) (d : BitVec 6) (r : BitVec 6) (t : BitVec 6) (c : BitVec 3) (s : State) :
    Host.Outcome State Fault Refusal :=
  s.issueAlone (.cpya g d r t c)

/-- R183. Courier indexed gather. -/
def execGath (g : QGuard) (d : BitVec 6) (r : BitVec 6) (t : BitVec 6) (u : Bool) (c : BitVec 3) (s : State) :
    Host.Outcome State Fault Refusal :=
  s.issueAlone (.gath g d r t u c)

/-- R183. Courier indexed scatter. -/
def execScat (g : QGuard) (d : BitVec 6) (r : BitVec 6) (t : BitVec 6) (u : Bool) (c : BitVec 3) (s : State) :
    Host.Outcome State Fault Refusal :=
  s.issueAlone (.scat g d r t u c)

/-- R187. Collective reduce to the root. -/
def execRed (g : QGuard) (d : BitVec 6) (r : BitVec 6) (t : BitVec 6) (c : BitVec 3) (s : State) :
    Host.Outcome State Fault Refusal :=
  s.issueAlone (.red g d r t c)

/-- R187. Collective all-reduce. -/
def execAred (g : QGuard) (d : BitVec 6) (r : BitVec 6) (t : BitVec 6) (c : BitVec 3) (s : State) :
    Host.Outcome State Fault Refusal :=
  s.issueAlone (.ared g d r t c)

/-- R187. Collective broadcast. -/
def execBcst (g : QGuard) (d : BitVec 6) (r : BitVec 6) (t : BitVec 6) (c : BitVec 3) (s : State) :
    Host.Outcome State Fault Refusal :=
  s.issueAlone (.bcst g d r t c)

/-- R181. Courier pattern fill. -/
def execFill (g : QGuard) (d : BitVec 6) (r : BitVec 6) (t : BitVec 6) (c : BitVec 3) (s : State) :
    Host.Outcome State Fault Refusal :=
  s.issueAlone (.fill g d r t c)

/-- R185. Cancels the commands with a tag on a courier. -/
def execCcan (g : QGuard) (t : BitVec 6) (r : BitVec 6) (c : BitVec 3) (s : State) :
    Host.Outcome State Fault Refusal :=
  s.issueAlone (.ccan g t r c)

/-- R186. Copies a checkpoint and writes its sealed header last. -/
def execCkpt (g : QGuard) (d : BitVec 6) (r : BitVec 6) (t : BitVec 6) (c : BitVec 3) (s : State) :
    Host.Outcome State Fault Refusal :=
  s.issueAlone (.ckpt g d r t c)

/-- R194. Turns a bitmap into an ascending list. -/
def execSortb (g : QGuard) (d : BitVec 6) (r : BitVec 6) (s : State) :
    Host.Outcome State Fault Refusal :=
  s.issueAlone (.sortb g d r)

/-- R197. Launches one task per list entry from a template. -/
def execSortl (g : QGuard) (d : BitVec 6) (r : BitVec 6) (s : State) :
    Host.Outcome State Fault Refusal :=
  s.issueAlone (.sortl g d r)

/-- R195. Merges two lists. -/
def execSortm (g : QGuard) (d : BitVec 6) (r : BitVec 6) (s : State) :
    Host.Outcome State Fault Refusal :=
  s.issueAlone (.sortm g d r)

/-- R196. Dilates a list of grid tiles. -/
def execSortd (g : QGuard) (d : BitVec 6) (r : BitVec 6) (s : State) :
    Host.Outcome State Fault Refusal :=
  s.issueAlone (.sortd g d r)

/-- R200. Sends a packet of 1 to 8 flits on the post ring. -/
def execPost (g : QGuard) (a : BitVec 6) (h : BitVec 6) (r : BitVec 6) (s : State) :
    Host.Outcome State Fault Refusal :=
  s.issueAlone (.post g a h r)

/-- R202. Waits for an inbox message and copies it to the scratchpad. -/
def execPrecv (g : QGuard) (d : BitVec 6) (t : BitVec 6) (h : BitVec 6) (q : BitVec 3) (s : State) :
    Host.Outcome State Fault Refusal :=
  s.issueAlone (.precv g d t h q)

end Sys2Proof.Machine
end

