-- ==== Sys2Proof/Machine/FamilyInject.lean ====
section
/-!
DEFINITION. The meanings of the inject slot S5 (05_encoding.md R64, 13_faces_engines.md R173, R174):
each is the issue of a bundle that holds the instruction alone.
-/

namespace Sys2Proof.Machine

/-- R52. S5 no operation. -/
def execNopInject (g : QGuard) (s : State) :
    Host.Outcome State Fault Refusal :=
  s.issueAlone (.nopInject g)

/-- R173. Clears an inject face and sets its SRC. -/
def execFicfg (g : QGuard) (sr : BitVec 6) (f : Bool) (s : State) :
    Host.Outcome State Fault Refusal :=
  s.issueAlone (.ficfg g sr f)

/-- R173. Moves a queue bank to the running or next pattern. -/
def execFigo (g : QGuard) (f : Bool) (b : Bool) (s : State) :
    Host.Outcome State Fault Refusal :=
  s.issueAlone (.figo g f b)

/-- R173. Discards the running and next inject patterns. -/
def execFihalt (g : QGuard) (f : Bool) (s : State) :
    Host.Outcome State Fault Refusal :=
  s.issueAlone (.fihalt g f)

/-- R174. Sets the padding element of an inject face. -/
def execFipad (g : QGuard) (sr : BitVec 6) (f : Bool) (m : BitVec 2) (s : State) :
    Host.Outcome State Fault Refusal :=
  s.issueAlone (.fipad g sr f m)

/-- R173. Starts the bank named by qn and empties the other. -/
def execFisel (g : QGuard) (f : Bool) (q : BitVec 3) (s : State) :
    Host.Outcome State Fault Refusal :=
  s.issueAlone (.fisel g f q)

/-- R173. Loads a pattern descriptor into a queue bank with a tag. -/
def execFiqb (g : QGuard) (a : BitVec 6) (t : BitVec 6) (f : Bool) (b : Bool) (s : State) :
    Host.Outcome State Fault Refusal :=
  s.issueAlone (.fiqb g a t f b)

end Sys2Proof.Machine
end

