-- ==== Sys2Proof/Machine/FamilyLane.lean ====
section
/-!
DEFINITION. The meanings of the lane slots S2 and S3 (05_encoding.md R56, R57, 11_cell_isa.md R134 to R159):
each is the issue of a bundle that holds the instruction alone.
-/

namespace Sys2Proof.Machine

/-- R52. Cell slot no operation. -/
def execNopCell (g : PGuard) (s : State) :
    Host.Outcome State Fault Refusal :=
  s.issueAlone (.nopCell g)

/-- R139. 32-bit integer add. -/
def execIadd (g : PGuard) (d : BitVec 6) (a : BitVec 6) (b : BitVec 6) (s : State) :
    Host.Outcome State Fault Refusal :=
  s.issueAlone (.iadd g d a b)

/-- R139. 32-bit integer subtract. -/
def execIsub (g : PGuard) (d : BitVec 6) (a : BitVec 6) (b : BitVec 6) (s : State) :
    Host.Outcome State Fault Refusal :=
  s.issueAlone (.isub g d a b)

/-- R139. 32-bit integer multiply. -/
def execImul (g : PGuard) (d : BitVec 6) (a : BitVec 6) (b : BitVec 6) (s : State) :
    Host.Outcome State Fault Refusal :=
  s.issueAlone (.imul g d a b)

/-- R139. High word of a signed or unsigned product. -/
def execImulh (g : PGuard) (d : BitVec 6) (a : BitVec 6) (b : BitVec 6) (u : Bool) (s : State) :
    Host.Outcome State Fault Refusal :=
  s.issueAlone (.imulh g d a b u)

/-- R139. Bitwise and. -/
def execIand (g : PGuard) (d : BitVec 6) (a : BitVec 6) (b : BitVec 6) (s : State) :
    Host.Outcome State Fault Refusal :=
  s.issueAlone (.iand g d a b)

/-- R139. Bitwise or. -/
def execIor (g : PGuard) (d : BitVec 6) (a : BitVec 6) (b : BitVec 6) (s : State) :
    Host.Outcome State Fault Refusal :=
  s.issueAlone (.ior g d a b)

/-- R139. Bitwise exclusive or. -/
def execIxor (g : PGuard) (d : BitVec 6) (a : BitVec 6) (b : BitVec 6) (s : State) :
    Host.Outcome State Fault Refusal :=
  s.issueAlone (.ixor g d a b)

/-- R139. Shift left. -/
def execIshl (g : PGuard) (d : BitVec 6) (a : BitVec 6) (b : BitVec 6) (s : State) :
    Host.Outcome State Fault Refusal :=
  s.issueAlone (.ishl g d a b)

/-- R139. Logical shift right. -/
def execIshr (g : PGuard) (d : BitVec 6) (a : BitVec 6) (b : BitVec 6) (s : State) :
    Host.Outcome State Fault Refusal :=
  s.issueAlone (.ishr g d a b)

/-- R139. Arithmetic shift right. -/
def execIsra (g : PGuard) (d : BitVec 6) (a : BitVec 6) (b : BitVec 6) (s : State) :
    Host.Outcome State Fault Refusal :=
  s.issueAlone (.isra g d a b)

/-- R139. Signed or unsigned minimum. -/
def execImin (g : PGuard) (d : BitVec 6) (a : BitVec 6) (b : BitVec 6) (u : Bool) (s : State) :
    Host.Outcome State Fault Refusal :=
  s.issueAlone (.imin g d a b u)

/-- R139. Signed or unsigned maximum. -/
def execImax (g : PGuard) (d : BitVec 6) (a : BitVec 6) (b : BitVec 6) (u : Bool) (s : State) :
    Host.Outcome State Fault Refusal :=
  s.issueAlone (.imax g d a b u)

/-- R142. Integer compare into a predicate. -/
def execIcmp (g : PGuard) (p : BitVec 4) (a : BitVec 6) (b : BitVec 6) (c : BitVec 3) (s : State) :
    Host.Outcome State Fault Refusal :=
  s.issueAlone (.icmp g p a b c)

/-- R140. Selects a or b by the guard. -/
def execIsel (g : PGuard) (d : BitVec 6) (a : BitVec 6) (b : BitVec 6) (s : State) :
    Host.Outcome State Fault Refusal :=
  s.issueAlone (.isel g d a b)

/-- R141. Adds a 15-bit immediate to d. -/
def execIaddi (g : PGuard) (d : BitVec 6) (i : BitVec 15) (s : State) :
    Host.Outcome State Fault Refusal :=
  s.issueAlone (.iaddi g d i)

/-- R141. Loads a sign-extended 15-bit immediate. -/
def execMovi (g : PGuard) (d : BitVec 6) (i : BitVec 15) (s : State) :
    Host.Outcome State Fault Refusal :=
  s.issueAlone (.movi g d i)

/-- R141. Shifts d left 15 bits and inserts an immediate. -/
def execMovhi (g : PGuard) (d : BitVec 6) (i : BitVec 15) (s : State) :
    Host.Outcome State Fault Refusal :=
  s.issueAlone (.movhi g d i)

/-- R139. Copies a cell word. -/
def execMovCell (g : PGuard) (d : BitVec 6) (a : BitVec 6) (s : State) :
    Host.Outcome State Fault Refusal :=
  s.issueAlone (.movCell g d a)

/-- R144. FP32 add. -/
def execFadd (g : PGuard) (d : BitVec 6) (a : BitVec 6) (b : BitVec 6) (s : State) :
    Host.Outcome State Fault Refusal :=
  s.issueAlone (.fadd g d a b)

/-- R144. FP32 subtract. -/
def execFsub (g : PGuard) (d : BitVec 6) (a : BitVec 6) (b : BitVec 6) (s : State) :
    Host.Outcome State Fault Refusal :=
  s.issueAlone (.fsub g d a b)

/-- R144. FP32 multiply. -/
def execFmul (g : PGuard) (d : BitVec 6) (a : BitVec 6) (b : BitVec 6) (s : State) :
    Host.Outcome State Fault Refusal :=
  s.issueAlone (.fmul g d a b)

/-- R144. FP32 fused multiply-add into d. -/
def execFfma (g : PGuard) (d : BitVec 6) (a : BitVec 6) (b : BitVec 6) (s : State) :
    Host.Outcome State Fault Refusal :=
  s.issueAlone (.ffma g d a b)

/-- R144. FP32 minimum. -/
def execFmin (g : PGuard) (d : BitVec 6) (a : BitVec 6) (b : BitVec 6) (s : State) :
    Host.Outcome State Fault Refusal :=
  s.issueAlone (.fmin g d a b)

/-- R144. FP32 maximum. -/
def execFmax (g : PGuard) (d : BitVec 6) (a : BitVec 6) (b : BitVec 6) (s : State) :
    Host.Outcome State Fault Refusal :=
  s.issueAlone (.fmax g d a b)

/-- R145. FP32 compare into a predicate. -/
def execFcmp (g : PGuard) (p : BitVec 4) (a : BitVec 6) (b : BitVec 6) (c : BitVec 3) (s : State) :
    Host.Outcome State Fault Refusal :=
  s.issueAlone (.fcmp g p a b c)

/-- R144. FP32 absolute value. -/
def execFabs (g : PGuard) (d : BitVec 6) (a : BitVec 6) (s : State) :
    Host.Outcome State Fault Refusal :=
  s.issueAlone (.fabs g d a)

/-- R144. FP32 negation. -/
def execFneg (g : PGuard) (d : BitVec 6) (a : BitVec 6) (s : State) :
    Host.Outcome State Fault Refusal :=
  s.issueAlone (.fneg g d a)

/-- R146. Reciprocal. -/
def execFrcp (g : PGuard) (d : BitVec 6) (a : BitVec 6) (s : State) :
    Host.Outcome State Fault Refusal :=
  s.issueAlone (.frcp g d a)

/-- R146. Reciprocal square root. -/
def execFrsq (g : PGuard) (d : BitVec 6) (a : BitVec 6) (s : State) :
    Host.Outcome State Fault Refusal :=
  s.issueAlone (.frsq g d a)

/-- R146. Base-2 exponential. -/
def execFexp2 (g : PGuard) (d : BitVec 6) (a : BitVec 6) (s : State) :
    Host.Outcome State Fault Refusal :=
  s.issueAlone (.fexp2 g d a)

/-- R146. Base-2 logarithm. -/
def execFlog2 (g : PGuard) (d : BitVec 6) (a : BitVec 6) (s : State) :
    Host.Outcome State Fault Refusal :=
  s.issueAlone (.flog2 g d a)

/-- R146. Hyperbolic tangent. -/
def execFtanh (g : PGuard) (d : BitVec 6) (a : BitVec 6) (s : State) :
    Host.Outcome State Fault Refusal :=
  s.issueAlone (.ftanh g d a)

/-- R147. Format conversion selected by mod. -/
def execFcvt (g : PGuard) (d : BitVec 6) (a : BitVec 6) (b : BitVec 6) (m : BitVec 3) (s : State) :
    Host.Outcome State Fault Refusal :=
  s.issueAlone (.fcvt g d a b m)

/-- R148. Rounds to an integral FP32 value. -/
def execFrnd (g : PGuard) (d : BitVec 6) (a : BitVec 6) (m : BitVec 3) (s : State) :
    Host.Outcome State Fault Refusal :=
  s.issueAlone (.frnd g d a m)

/-- R150. Adds a BF16 product into an FP32 value. -/
def execBfma (g : PGuard) (d : BitVec 6) (a : BitVec 6) (b : BitVec 6) (m : BitVec 2) (s : State) :
    Host.Outcome State Fault Refusal :=
  s.issueAlone (.bfma g d a b m)

/-- R149. Packed BF16 add. -/
def execHadd2 (g : PGuard) (d : BitVec 6) (a : BitVec 6) (b : BitVec 6) (s : State) :
    Host.Outcome State Fault Refusal :=
  s.issueAlone (.hadd2 g d a b)

/-- R149. Packed BF16 multiply. -/
def execHmul2 (g : PGuard) (d : BitVec 6) (a : BitVec 6) (b : BitVec 6) (s : State) :
    Host.Outcome State Fault Refusal :=
  s.issueAlone (.hmul2 g d a b)

/-- R149. Packed BF16 fused multiply-add. -/
def execHfma2 (g : PGuard) (d : BitVec 6) (a : BitVec 6) (b : BitVec 6) (s : State) :
    Host.Outcome State Fault Refusal :=
  s.issueAlone (.hfma2 g d a b)

/-- R151. Sets the validity bit of d. -/
def execVset (g : PGuard) (d : BitVec 6) (s : State) :
    Host.Outcome State Fault Refusal :=
  s.issueAlone (.vset g d)

/-- R151. Clears the validity bit of d. -/
def execVclr (g : PGuard) (d : BitVec 6) (s : State) :
    Host.Outcome State Fault Refusal :=
  s.issueAlone (.vclr g d)

/-- R151. Tests validity bits into a predicate. -/
def execVtest (g : PGuard) (p : BitVec 4) (a : BitVec 6) (b : BitVec 6) (c : BitVec 2) (s : State) :
    Host.Outcome State Fault Refusal :=
  s.issueAlone (.vtest g p a b c)

/-- R151. Selects a if valid, else b. -/
def execVsel (g : PGuard) (d : BitVec 6) (a : BitVec 6) (b : BitVec 6) (s : State) :
    Host.Outcome State Fault Refusal :=
  s.issueAlone (.vsel g d a b)

/-- R151. Copies a word together with its validity. -/
def execVmov (g : PGuard) (d : BitVec 6) (a : BitVec 6) (s : State) :
    Host.Outcome State Fault Refusal :=
  s.issueAlone (.vmov g d a)

/-- R152. Predicate and. -/
def execPand (g : PGuard) (p : BitVec 4) (q : BitVec 4) (r : BitVec 4) (s : State) :
    Host.Outcome State Fault Refusal :=
  s.issueAlone (.pand g p q r)

/-- R152. Predicate or. -/
def execPor (g : PGuard) (p : BitVec 4) (q : BitVec 4) (r : BitVec 4) (s : State) :
    Host.Outcome State Fault Refusal :=
  s.issueAlone (.por g p q r)

/-- R152. Predicate exclusive or. -/
def execPxor (g : PGuard) (p : BitVec 4) (q : BitVec 4) (r : BitVec 4) (s : State) :
    Host.Outcome State Fault Refusal :=
  s.issueAlone (.pxor g p q r)

/-- R152. Predicate not. -/
def execPnot (g : PGuard) (p : BitVec 4) (q : BitVec 4) (s : State) :
    Host.Outcome State Fault Refusal :=
  s.issueAlone (.pnot g p q)

/-- R152. Predicate copy. -/
def execPmov (g : PGuard) (p : BitVec 4) (q : BitVec 4) (s : State) :
    Host.Outcome State Fault Refusal :=
  s.issueAlone (.pmov g p q)

/-- R157. Writes one Philox output word. -/
def execRand (g : PGuard) (d : BitVec 6) (a : BitVec 6) (w : BitVec 2) (s : State) :
    Host.Outcome State Fault Refusal :=
  s.issueAlone (.rand g d a w)

/-- R158. Clears the cell's loop-active bit of the innermost open level. -/
def execLexit (g : PGuard) (s : State) :
    Host.Outcome State Fault Refusal :=
  s.issueAlone (.lexit g)

end Sys2Proof.Machine
end

