-- ==== Sys2Proof/Machine/FamilyScalar.lean ====
section
/-!
DEFINITION. The meanings of the scalar slot S1 (05_encoding.md R58 to R60, 09_sequencer_isa.md R124 to R127):
each is the issue of a bundle that holds the instruction alone.
-/

namespace Sys2Proof.Machine

/-- R52. S1 no operation. -/
def execNopScalar (g : QGuard) (s : State) :
    Host.Outcome State Fault Refusal :=
  s.issueAlone (.nopScalar g)

/-- R124. 64-bit add. -/
def execAdd (g : QGuard) (d : BitVec 6) (a : BitVec 6) (b : BitVec 6) (y : Bool) (x : Bool) (s : State) :
    Host.Outcome State Fault Refusal :=
  s.issueAlone (.add g d a b y x)

/-- R124. 64-bit subtract. -/
def execSub (g : QGuard) (d : BitVec 6) (a : BitVec 6) (b : BitVec 6) (y : Bool) (x : Bool) (s : State) :
    Host.Outcome State Fault Refusal :=
  s.issueAlone (.sub g d a b y x)

/-- R124. Adds a sign-extended immediate. -/
def execAddi (g : QGuard) (d : BitVec 6) (i : BitVec 16) (s : State) :
    Host.Outcome State Fault Refusal :=
  s.issueAlone (.addi g d i)

/-- R124. Low 64 bits of a product. -/
def execMul (g : QGuard) (d : BitVec 6) (a : BitVec 6) (b : BitVec 6) (y : Bool) (x : Bool) (s : State) :
    Host.Outcome State Fault Refusal :=
  s.issueAlone (.mul g d a b y x)

/-- R124. High 64 bits of a signed product. -/
def execMulh (g : QGuard) (d : BitVec 6) (a : BitVec 6) (b : BitVec 6) (y : Bool) (x : Bool) (s : State) :
    Host.Outcome State Fault Refusal :=
  s.issueAlone (.mulh g d a b y x)

/-- R124. High 64 bits of an unsigned product. -/
def execMulhu (g : QGuard) (d : BitVec 6) (a : BitVec 6) (b : BitVec 6) (y : Bool) (x : Bool) (s : State) :
    Host.Outcome State Fault Refusal :=
  s.issueAlone (.mulhu g d a b y x)

/-- R124. Signed division. -/
def execDiv (g : QGuard) (d : BitVec 6) (a : BitVec 6) (b : BitVec 6) (y : Bool) (x : Bool) (s : State) :
    Host.Outcome State Fault Refusal :=
  s.issueAlone (.div g d a b y x)

/-- R124. Unsigned division. -/
def execDivu (g : QGuard) (d : BitVec 6) (a : BitVec 6) (b : BitVec 6) (y : Bool) (x : Bool) (s : State) :
    Host.Outcome State Fault Refusal :=
  s.issueAlone (.divu g d a b y x)

/-- R124. Signed remainder. -/
def execRem (g : QGuard) (d : BitVec 6) (a : BitVec 6) (b : BitVec 6) (y : Bool) (x : Bool) (s : State) :
    Host.Outcome State Fault Refusal :=
  s.issueAlone (.rem g d a b y x)

/-- R124. Unsigned remainder. -/
def execRemu (g : QGuard) (d : BitVec 6) (a : BitVec 6) (b : BitVec 6) (y : Bool) (x : Bool) (s : State) :
    Host.Outcome State Fault Refusal :=
  s.issueAlone (.remu g d a b y x)

/-- R124. Bitwise and. -/
def execAnd (g : QGuard) (d : BitVec 6) (a : BitVec 6) (b : BitVec 6) (y : Bool) (x : Bool) (s : State) :
    Host.Outcome State Fault Refusal :=
  s.issueAlone (.and g d a b y x)

/-- R124. Bitwise or. -/
def execOr (g : QGuard) (d : BitVec 6) (a : BitVec 6) (b : BitVec 6) (y : Bool) (x : Bool) (s : State) :
    Host.Outcome State Fault Refusal :=
  s.issueAlone (.or g d a b y x)

/-- R124. Bitwise exclusive or. -/
def execXor (g : QGuard) (d : BitVec 6) (a : BitVec 6) (b : BitVec 6) (y : Bool) (x : Bool) (s : State) :
    Host.Outcome State Fault Refusal :=
  s.issueAlone (.xor g d a b y x)

/-- R124. And with a zero-extended immediate. -/
def execAndi (g : QGuard) (d : BitVec 6) (i : BitVec 16) (s : State) :
    Host.Outcome State Fault Refusal :=
  s.issueAlone (.andi g d i)

/-- R124. Or with a zero-extended immediate. -/
def execOri (g : QGuard) (d : BitVec 6) (i : BitVec 16) (s : State) :
    Host.Outcome State Fault Refusal :=
  s.issueAlone (.ori g d i)

/-- R124. Exclusive or with a zero-extended immediate. -/
def execXori (g : QGuard) (d : BitVec 6) (i : BitVec 16) (s : State) :
    Host.Outcome State Fault Refusal :=
  s.issueAlone (.xori g d i)

/-- R124. Shift left by B[5:0]. -/
def execShl (g : QGuard) (d : BitVec 6) (a : BitVec 6) (b : BitVec 6) (y : Bool) (x : Bool) (s : State) :
    Host.Outcome State Fault Refusal :=
  s.issueAlone (.shl g d a b y x)

/-- R124. Logical shift right by B[5:0]. -/
def execShr (g : QGuard) (d : BitVec 6) (a : BitVec 6) (b : BitVec 6) (y : Bool) (x : Bool) (s : State) :
    Host.Outcome State Fault Refusal :=
  s.issueAlone (.shr g d a b y x)

/-- R124. Arithmetic shift right by B[5:0]. -/
def execSra (g : QGuard) (d : BitVec 6) (a : BitVec 6) (b : BitVec 6) (y : Bool) (x : Bool) (s : State) :
    Host.Outcome State Fault Refusal :=
  s.issueAlone (.sra g d a b y x)

/-- R124. Shift left by an immediate. -/
def execShli (g : QGuard) (d : BitVec 6) (i : BitVec 6) (s : State) :
    Host.Outcome State Fault Refusal :=
  s.issueAlone (.shli g d i)

/-- R124. Logical shift right by an immediate. -/
def execShri (g : QGuard) (d : BitVec 6) (i : BitVec 6) (s : State) :
    Host.Outcome State Fault Refusal :=
  s.issueAlone (.shri g d i)

/-- R124. Arithmetic shift right by an immediate. -/
def execSrai (g : QGuard) (d : BitVec 6) (i : BitVec 6) (s : State) :
    Host.Outcome State Fault Refusal :=
  s.issueAlone (.srai g d i)

/-- R124. Signed minimum. -/
def execMin (g : QGuard) (d : BitVec 6) (a : BitVec 6) (b : BitVec 6) (y : Bool) (x : Bool) (s : State) :
    Host.Outcome State Fault Refusal :=
  s.issueAlone (.min g d a b y x)

/-- R124. Signed maximum. -/
def execMax (g : QGuard) (d : BitVec 6) (a : BitVec 6) (b : BitVec 6) (y : Bool) (x : Bool) (s : State) :
    Host.Outcome State Fault Refusal :=
  s.issueAlone (.max g d a b y x)

/-- R124. Unsigned minimum. -/
def execMinu (g : QGuard) (d : BitVec 6) (a : BitVec 6) (b : BitVec 6) (y : Bool) (x : Bool) (s : State) :
    Host.Outcome State Fault Refusal :=
  s.issueAlone (.minu g d a b y x)

/-- R124. Unsigned maximum. -/
def execMaxu (g : QGuard) (d : BitVec 6) (a : BitVec 6) (b : BitVec 6) (y : Bool) (x : Bool) (s : State) :
    Host.Outcome State Fault Refusal :=
  s.issueAlone (.maxu g d a b y x)

/-- R101. Writes a when the guard is true and b otherwise, reading only the selected source. -/
def execSelScalar (g : QGuard) (d : BitVec 6) (a : BitVec 6) (b : BitVec 6) (y : Bool) (x : Bool) (s : State) :
    Host.Outcome State Fault Refusal :=
  s.issueAlone (.selScalar g d a b y x)

/-- R125. Compares two s registers into a q register. -/
def execCmp (g : QGuard) (c : BitVec 3) (q : BitVec 3) (a : BitVec 6) (b : BitVec 6) (y : Bool) (x : Bool) (s : State) :
    Host.Outcome State Fault Refusal :=
  s.issueAlone (.cmp g c q a b y x)

/-- R125. Compares an s register with a 10-bit immediate into a q register. -/
def execCmpi (g : QGuard) (c : BitVec 3) (q : BitVec 3) (a : BitVec 6) (i : BitVec 10) (s : State) :
    Host.Outcome State Fault Refusal :=
  s.issueAlone (.cmpi g c q a i)

/-- R124. Loads a sign-extended immediate. -/
def execLi (g : QGuard) (d : BitVec 6) (i : BitVec 16) (s : State) :
    Host.Outcome State Fault Refusal :=
  s.issueAlone (.li g d i)

/-- R124. Shifts a register left by 16 bits and inserts an immediate. -/
def execLui (g : QGuard) (d : BitVec 6) (i : BitVec 16) (s : State) :
    Host.Outcome State Fault Refusal :=
  s.issueAlone (.lui g d i)

/-- R124. Copies an s register. -/
def execMovScalar (g : QGuard) (d : BitVec 6) (a : BitVec 6) (x : Bool) (s : State) :
    Host.Outcome State Fault Refusal :=
  s.issueAlone (.movScalar g d a x)

/-- R124. Counts leading zero bits. -/
def execClz (g : QGuard) (d : BitVec 6) (a : BitVec 6) (x : Bool) (s : State) :
    Host.Outcome State Fault Refusal :=
  s.issueAlone (.clz g d a x)

/-- R124. Counts one bits. -/
def execPopc (g : QGuard) (d : BitVec 6) (a : BitVec 6) (x : Bool) (s : State) :
    Host.Outcome State Fault Refusal :=
  s.issueAlone (.popc g d a x)

/-- R124. Adds a plus b shifted by 0, 2, 3 or 5. -/
def execLea (g : QGuard) (d : BitVec 6) (a : BitVec 6) (b : BitVec 6) (h : BitVec 2) (y : Bool) (x : Bool) (s : State) :
    Host.Outcome State Fault Refusal :=
  s.issueAlone (.lea g d a b h y x)

/-- R126. Scalar load. -/
def execLd (g : QGuard) (d : BitVec 6) (b : BitVec 6) (o : BitVec 8) (z : BitVec 2) (s : State) :
    Host.Outcome State Fault Refusal :=
  s.issueAlone (.ld g d b o z)

/-- R126. Scalar store. -/
def execSt (g : QGuard) (d : BitVec 6) (b : BitVec 6) (o : BitVec 8) (z : BitVec 2) (s : State) :
    Host.Outcome State Fault Refusal :=
  s.issueAlone (.st g d b o z)

/-- R126. Acquire load at ORDCTL.LSCOPE. -/
def execLda (g : QGuard) (d : BitVec 6) (b : BitVec 6) (o : BitVec 8) (z : Bool) (s : State) :
    Host.Outcome State Fault Refusal :=
  s.issueAlone (.lda g d b o z)

/-- R126. Release store at ORDCTL.LSCOPE. -/
def execStl (g : QGuard) (d : BitVec 6) (b : BitVec 6) (o : BitVec 8) (z : Bool) (s : State) :
    Host.Outcome State Fault Refusal :=
  s.issueAlone (.stl g d b o z)

/-- R264. Load that then discards the line from L1 and L2 without write-back. -/
def execLdlast (g : QGuard) (d : BitVec 6) (b : BitVec 6) (o : BitVec 8) (z : BitVec 2) (s : State) :
    Host.Outcome State Fault Refusal :=
  s.issueAlone (.ldlast g d b o z)

/-- R126. Prefetches a line toward L1, L2 or the LLC. -/
def execPref (g : QGuard) (h : BitVec 6) (b : BitVec 6) (o : BitVec 8) (z : BitVec 2) (s : State) :
    Host.Outcome State Fault Refusal :=
  s.issueAlone (.pref g h b o z)

/-- R127. Atomic add. -/
def execAadd (g : QGuard) (d : BitVec 6) (a : BitVec 6) (b : BitVec 6) (w : Bool) (y : Bool) (x : Bool) (s : State) :
    Host.Outcome State Fault Refusal :=
  s.issueAlone (.aadd g d a b w y x)

/-- R127. Atomic signed minimum. -/
def execAmin (g : QGuard) (d : BitVec 6) (a : BitVec 6) (b : BitVec 6) (w : Bool) (y : Bool) (x : Bool) (s : State) :
    Host.Outcome State Fault Refusal :=
  s.issueAlone (.amin g d a b w y x)

/-- R127. Atomic signed maximum. -/
def execAmax (g : QGuard) (d : BitVec 6) (a : BitVec 6) (b : BitVec 6) (w : Bool) (y : Bool) (x : Bool) (s : State) :
    Host.Outcome State Fault Refusal :=
  s.issueAlone (.amax g d a b w y x)

/-- R127. Atomic and. -/
def execAand (g : QGuard) (d : BitVec 6) (a : BitVec 6) (b : BitVec 6) (w : Bool) (y : Bool) (x : Bool) (s : State) :
    Host.Outcome State Fault Refusal :=
  s.issueAlone (.aand g d a b w y x)

/-- R127. Atomic or. -/
def execAor (g : QGuard) (d : BitVec 6) (a : BitVec 6) (b : BitVec 6) (w : Bool) (y : Bool) (x : Bool) (s : State) :
    Host.Outcome State Fault Refusal :=
  s.issueAlone (.aor g d a b w y x)

/-- R127. Atomic exclusive or. -/
def execAxor (g : QGuard) (d : BitVec 6) (a : BitVec 6) (b : BitVec 6) (w : Bool) (y : Bool) (x : Bool) (s : State) :
    Host.Outcome State Fault Refusal :=
  s.issueAlone (.axor g d a b w y x)

/-- R127. Atomic swap. -/
def execAswap (g : QGuard) (d : BitVec 6) (a : BitVec 6) (b : BitVec 6) (w : Bool) (y : Bool) (x : Bool) (s : State) :
    Host.Outcome State Fault Refusal :=
  s.issueAlone (.aswap g d a b w y x)

/-- R127. Atomic compare and swap. -/
def execAcas (g : QGuard) (d : BitVec 6) (a : BitVec 6) (b : BitVec 6) (w : Bool) (y : Bool) (x : Bool) (s : State) :
    Host.Outcome State Fault Refusal :=
  s.issueAlone (.acas g d a b w y x)

/-- R127. Atomic floating-point add with RNE rounding. -/
def execAfadd (g : QGuard) (d : BitVec 6) (a : BitVec 6) (b : BitVec 6) (w : Bool) (y : Bool) (x : Bool) (s : State) :
    Host.Outcome State Fault Refusal :=
  s.issueAlone (.afadd g d a b w y x)

end Sys2Proof.Machine
end

