-- ==== Sys2Proof/Machine/FamilySelector.lean ====
section
/-!
DEFINITION. The meanings of the selector slot S4 (05_encoding.md R63, 09_sequencer_isa.md R128 to R131):
each is the issue of a bundle that holds the instruction alone.
-/

namespace Sys2Proof.Machine

/-- R37. S4 no operation: selects with msk0, enables every array, ws = 0. -/
def execNopSelector  (s : State) :
    Host.Outcome State Fault Refusal :=
  s.issueAlone (.nopSelector)

/-- R129. Selects with two masks and sets the wave scalar and the array-enable mask. -/
def execSelSelector (r : BitVec 4) (c : BitVec 4) (sr : BitVec 6) (p : BitVec 2) (a : BitVec 8) (s : State) :
    Host.Outcome State Fault Refusal :=
  s.issueAlone (.selSelector r c sr p a)

/-- R130. Writes a mask from an s register. -/
def execMset (r : BitVec 4) (c : BitVec 4) (sr : BitVec 6) (d : BitVec 4) (s : State) :
    Host.Outcome State Fault Refusal :=
  s.issueAlone (.mset r c sr d)

/-- R130. Writes a mask with a range of bits set. -/
def execMrange (r : BitVec 4) (c : BitVec 4) (l : BitVec 5) (h : BitVec 5) (d : BitVec 4) (s : State) :
    Host.Outcome State Fault Refusal :=
  s.issueAlone (.mrange r c l h d)

/-- R130. Mask logic operation. -/
def execMop (r : BitVec 4) (c : BitVec 4) (a : BitVec 4) (b : BitVec 4) (o : BitVec 4) (d : BitVec 4) (s : State) :
    Host.Outcome State Fault Refusal :=
  s.issueAlone (.mop r c a b o d)

/-- R130. Writes a mask from the flag state. -/
def execMflag (r : BitVec 4) (c : BitVec 4) (k : BitVec 2) (d : BitVec 4) (s : State) :
    Host.Outcome State Fault Refusal :=
  s.issueAlone (.mflag r c k d)

/-- R131. Sends tsa or tsb values to the selected cells. -/
def execTscale (r : BitVec 4) (c : BitVec 4) (sr : BitVec 6) (t : BitVec 2) (s : State) :
    Host.Outcome State Fault Refusal :=
  s.issueAlone (.tscale r c sr t)

end Sys2Proof.Machine
end

