-- ==== Sys2Proof/Machine/FamilyStore.lean ====
section
/-!
DEFINITION. The meanings of the cell store and communication, S3 alone (05_encoding.md R57, 11_cell_isa.md R153 to R155):
each is the issue of a bundle that holds the instruction alone.
-/

namespace Sys2Proof.Machine

/-- R153. Loads a cell store word. -/
def execLdc (g : PGuard) (d : BitVec 6) (b : BitVec 6) (o : BitVec 9) (s : State) :
    Host.Outcome State Fault Refusal :=
  s.issueAlone (.ldc g d b o)

/-- R153. Stores a valid word to the cell store. -/
def execStc (g : PGuard) (d : BitVec 6) (b : BitVec 6) (o : BitVec 9) (s : State) :
    Host.Outcome State Fault Refusal :=
  s.issueAlone (.stc g d b o)

/-- R153. Loads a cell store pair. -/
def execLdc2 (g : PGuard) (d : BitVec 6) (b : BitVec 6) (o : BitVec 9) (s : State) :
    Host.Outcome State Fault Refusal :=
  s.issueAlone (.ldc2 g d b o)

/-- R153. Stores the valid words of a pair. -/
def execStc2 (g : PGuard) (d : BitVec 6) (b : BitVec 6) (o : BitVec 9) (s : State) :
    Host.Outcome State Fault Refusal :=
  s.issueAlone (.stc2 g d b o)

/-- R153. Loads a cell store word indexed by lidx. -/
def execLdca (g : PGuard) (d : BitVec 6) (b : BitVec 6) (o : BitVec 9) (s : State) :
    Host.Outcome State Fault Refusal :=
  s.issueAlone (.ldca g d b o)

/-- R153. Stores a cell store word indexed by lidx. -/
def execStca (g : PGuard) (d : BitVec 6) (b : BitVec 6) (o : BitVec 9) (s : State) :
    Host.Outcome State Fault Refusal :=
  s.issueAlone (.stca g d b o)

/-- R155. Moves a 64-bit pair, with optional swap or duplication. -/
def execComm (g : PGuard) (d : BitVec 6) (a : BitVec 6) (m : BitVec 2) (s : State) :
    Host.Outcome State Fault Refusal :=
  s.issueAlone (.comm g d a m)

end Sys2Proof.Machine
end

