-- ==== Sys2Proof/Machine/FamilyTile.lean ====
section
/-!
DEFINITION. The meanings of the tile instructions, S2 alone (05_encoding.md R57, 15_semiring_isa.md R204 to R224):
each is the issue of a bundle that holds the instruction alone.
-/

namespace Sys2Proof.Machine

/-- R211. Semiring rank-k fragment product into an accumulator. -/
def execSmm (g : PGuard) (c : BitVec 2) (e : BitVec 4) (a : BitVec 6) (b : BitVec 6) (z : Bool) (s : State) :
    Host.Outcome State Fault Refusal :=
  s.issueAlone (.smm g c e a b z)

/-- R212. Scaled semiring product with block and tensor scales. -/
def execSmms (g : PGuard) (c : BitVec 2) (e : BitVec 4) (a : BitVec 6) (b : BitVec 6) (z : Bool) (s : State) :
    Host.Outcome State Fault Refusal :=
  s.issueAlone (.smms g c e a b z)

/-- R214. Writes an entry's ZERO to an accumulator. -/
def execSmz (g : PGuard) (c : BitVec 2) (e : BitVec 4) (s : State) :
    Host.Outcome State Fault Refusal :=
  s.issueAlone (.smz g c e)

/-- R215. Combines two accumulators under the entry's plus operator. -/
def execSmadd (g : PGuard) (c : BitVec 2) (e : BitVec 4) (k : BitVec 2) (s : State) :
    Host.Outcome State Fault Refusal :=
  s.issueAlone (.smadd g c e k)

/-- R219. Copies two accumulator elements to a pair. -/
def execSmrd (g : PGuard) (d : BitVec 6) (c : BitVec 2) (e : BitVec 3) (s : State) :
    Host.Outcome State Fault Refusal :=
  s.issueAlone (.smrd g d c e)

/-- R220. Writes a pair into two accumulator elements. -/
def execSmwr (g : PGuard) (a : BitVec 6) (c : BitVec 2) (e : BitVec 3) (s : State) :
    Host.Outcome State Fault Refusal :=
  s.issueAlone (.smwr g a c e)

/-- R221. Writes part of an accumulator into ch or cv, pushing at an edge. -/
def execSmout (g : PGuard) (c : BitVec 2) (e : BitVec 4) (b : Bool) (f : Bool) (s : State) :
    Host.Outcome State Fault Refusal :=
  s.issueAlone (.smout g c e b f)

/-- R217. Compares two accumulators into a predicate. -/
def execSmcmp (g : PGuard) (c : BitVec 2) (e : BitVec 4) (k : BitVec 2) (p : BitVec 4) (m : BitVec 2) (s : State) :
    Host.Outcome State Fault Refusal :=
  s.issueAlone (.smcmp g c e k p m)

/-- R218. Keeps the N most significant elements of a 32-group. -/
def execScmpr (g : PGuard) (d : BitVec 6) (a : BitVec 6) (c : Bool) (e : BitVec 4) (s : State) :
    Host.Outcome State Fault Refusal :=
  s.issueAlone (.scmpr g d a c e)

/-- R218. Keeps the more significant element of each pair of a 32-group. -/
def execScmprPair (g : PGuard) (d : BitVec 6) (c : Bool) (e : BitVec 4) (s : State) :
    Host.Outcome State Fault Refusal :=
  s.issueAlone (.scmprPair g d c e)

/-- R213. Sparse semiring product with selection bits. -/
def execSexpn (g : PGuard) (c : BitVec 2) (e : BitVec 4) (a : BitVec 6) (b : BitVec 4) (z : Bool) (s : State) :
    Host.Outcome State Fault Refusal :=
  s.issueAlone (.sexpn g c e a b z)

/-- R222. Packs an accumulator tile into a fragment. -/
def execBpack (g : PGuard) (d : BitVec 6) (c : BitVec 2) (e : BitVec 4) (sr : Bool) (j : BitVec 2) (s : State) :
    Host.Outcome State Fault Refusal :=
  s.issueAlone (.bpack g d c e sr j)

/-- R223. Widens a fragment into accumulator elements. -/
def execBunpk (g : PGuard) (a : BitVec 6) (c : BitVec 2) (sr : Bool) (j : BitVec 2) (s : State) :
    Host.Outcome State Fault Refusal :=
  s.issueAlone (.bunpk g a c sr j)

/-- R216. Reduces an accumulator by row, by column or whole. -/
def execSmred (g : PGuard) (c : BitVec 2) (e : BitVec 4) (k : BitVec 2) (m : BitVec 3) (s : State) :
    Host.Outcome State Fault Refusal :=
  s.issueAlone (.smred g c e k m)

end Sys2Proof.Machine
end

