-- ==== Sys2Proof/Machine/HostSide.lean ====
section
/-!
DEFINITION. What the host does to the adapter window (21_tasks.md R271, R272, 25_device.md R316 to R320): register writes, host copies
and the aperture.
-/

namespace Sys2Proof.Machine

/-! ## Context blocks (R271, R317) -/

/-- A context of the module changed. -/
def State.updContext (s : State) (c : Nat) (f : Context → Context) : State :=
  match s.context c with | some x => s.setContext (f x) | none => s

/-- LBWIDX written; a write that sets a reserved bit or would leave more than LBSIZE descriptors pending is discarded (R271).
Log entry 52: DEDUCED. -/
def Context.writeWidx (c : Context) (p : Nat) (v : DWord) : Context :=
  if hiW v == 0 && (loW v - boxOf c.lbRidx p).toNat ≤ (boxOf c.lbSize p).toNat then { c with lbWidx := setBox c.lbWidx p (loW v) } else c

/-- LBBASE written, unless a descriptor is pending or the value is not a multiple of 128 below 2^55 (R271). -/
def Context.writeBase (c : Context) (p : Nat) (v : DWord) : Context :=
  if c.pending p == 0 && v.toNat % 128 == 0 && v.toNat < 2 ^ 55 then { c with lbBase := setBox c.lbBase p v } else c

/-- LBSIZE written, unless a descriptor is pending or the value is neither 0 nor a power of two up to 32,768 (R271). -/
def Context.writeSize (c : Context) (p : Nat) (v : DWord) : Context :=
  if c.pending p == 0 && (v == 0 || (List.range 16).any (fun k => v.toNat == 2 ^ k)) then { c with lbSize := setBox c.lbSize p (v.extractLsb' 0 16) } else c

/-- CTXISR bits cleared by writing 1 (R317). -/
def Context.clearIsr (c : Context) (v : DWord) : Context := { c with isr := c.isr &&& ~~~(v.extractLsb' 0 4) }

/-- A write of a register of a context block (R317). Log entry 52: DEDUCED. -/
def State.writeBlock (s : State) (c r : Nat) (v : DWord) : State :=
  if (s.context c).isNone then s
  else if r < 0x80 then
    match r % 0x20 with
    | 0x00 => s.updContext c (fun x => x.writeBase (r / 0x20) v)
    | 0x08 => s.updContext c (fun x => x.writeSize (r / 0x20) v)
    | 0x10 => s.updContext c (fun x => x.writeWidx (r / 0x20) v)
    | _ => s
  else match r with
    | 0x80 => s.updContext c (fun x => { x with irq := v.extractLsb' 0 11 })
    | 0x88 => s.updContext c (fun x => x.clearIsr v)
    | 0x90 => s.hostArrive c
    | _ => s

/-! ## Management registers (R318) -/

/-- What a host read of a register of a context block returns; HBAR, which is write-only, and the other offsets read 0 (R4, R271, R316, R317). -/
def Context.readBlock (c : Context) (r : Nat) : DWord :=
  if r < 0x80 then
    match r % 0x20 with
    | 0x00 => boxOf c.lbBase (r / 0x20)
    | 0x08 => (boxOf c.lbSize (r / 0x20)).zeroExtend 64
    | 0x10 => (boxOf c.lbWidx (r / 0x20)).zeroExtend 64
    | 0x18 => (boxOf c.lbRidx (r / 0x20)).zeroExtend 64
    | _ => 0
  else match r with
    | 0x80 => c.irq.zeroExtend 64
    | 0x88 => c.isr.zeroExtend 64
    | 0x98 => c.barGen.zeroExtend 64
    | _ => 0

/-- MSTAT shows an error (R318). -/
def State.mfail (s : State) (e : Nat) : State := { s with mstat := 3, merr := BitVec.ofNat 8 e }

/-- MSTAT shows that the command is done. -/
def State.mdone (s : State) : State := { s with mstat := 2, merr := 0 }

/-- The command code in MCMD (R319). -/
def State.mcode (s : State) : Nat := (vget s.mcmd 0 0).toNat % 256

/-- A word of the command. -/
def State.mw (s : State) (i : Nat) : Nat := (vget s.mcmd i 0).toNat

/-- A word or bit of the command that its operands leave unused is not 0 (R319). `used` gives the used bits of each word. -/
def State.spare (s : State) (used : List Nat) : Bool :=
  (List.range 8).any (fun i => (vget s.mcmd i 0 &&& ~~~(BitVec.ofNat 64 (used.getD i 0))) != 0)

/-- The used bits of KEY.DESTROY: its code, and the slot in MCMD1. Log entry 18: DEDUCED. -/
def keyWords : List Nat := [0xFF, 0xFF]

/-- From the doorbell write of a KEY.DESTROY on, the key of its slot is dead (R315). -/
def State.stopKey (s : State) : State :=
  if s.mcode == 4 && !s.spare keyWords then { s with keys := tabPut s.keys (s.mw 1) { s.keySlot (s.mw 1) with loaded := false } } else s

/-- A write of 1 to MDOOR starts the command. One that R319 does not list ends with error 1, and so does, in recovery, any but ATTEST and
FLASH.LOAD (R325). Log entry 31: DEDUCED. -/
def State.doorbell (s : State) : State :=
  if s.mcode == 0 || 0x15 < s.mcode || (s.recovery && s.mcode != 0x12 && s.mcode != 0x15) then s.mfail 1
  else { s.stopKey with mstat := 1, merr := 0 }

/-- A write of HCOPY puts a host copy into the queue of the hub's copy engine, under the context and with the receipt that its control block names:
ACCEPTED is written (R164, R318, R320). A copy whose receipt cannot be written makes its dead-letter entry and is dropped. Log entry 29:
DESIGN CHOICE. Log entry 52: DEDUCED. -/
def State.hostCopy (s : State) (v : DWord) : State :=
  if v.toNat % 64 ≠ 0 then s
  else
    let words := leWords 8 8 (s.hostBlock v.toNat)
    let x : Cmd :=
      { id := s.nextCmd, die := 0, unit := 10, op := .hcopyWrite v, ctx := words.getD 3 0 % 2 ^ 16, task := none, arrays := [], array := 0,
        desc := v.toNat, rcpt := words.getD 4 0 % 2 ^ 55, racc := none, tag := 0, words := words, started := false, startAt := 0, tmo := 0x01000000, prog := 0, wrote := false, lines := [],
        frank := [], sealSum := 0, parts := [], next := 0, waitAt := none, members := [], fresh := false, chunks := [], gen := 0, results := [],
        terminal := false, level := none }
    let s1 := { s with hcopy := v }
    let lost (t : State) : State := t.deadLetter 0 (t.dlrEntry 0 x.rcpt x.code 1 0 x.ctx 0)
    if x.rcpt % 16 ≠ 0 then lost s1
    else match s1.cmdAccess x x.rcpt .write with
      | (.error _, t) => lost t
      | (.ok acc, t) => t.enqueue { x with racc := some acc }

/-- A write of a management register; those of a command are discarded while one is busy (R318). Log entry 52: DEDUCED. -/
def State.writeManage (s : State) (r : Nat) (v : DWord) : State :=
  let i := r / 8 % 8
  if r == 0x1C0 then s.hostCopy v
  else if s.mstat == 1 || r % 8 ≠ 0 then s
  else if 0x100 ≤ r && r < 0x140 then { s with mcmd := vset s.mcmd i v }
  else if r == 0x140 then (if v == 1 then s.doorbell else s)
  else if 0x180 ≤ r && r < 0x1C0 then { s with mkey := vset s.mkey i v }
  else s

/-- A write of the adapter window at an offset (R316). -/
def State.writeWindow (s : State) (off : Nat) (v : DWord) : State :=
  if off < 0x1000 then s.writeManage off v
  else if 0x101000 ≤ off && off < 0x100000 + 0x1000 * 65536 then s.writeBlock ((off - 0x100000) / 0x1000) (off % 0x1000) v
  else s

/-- What a host read of a management register returns. MDOOR, MKEY0 to MKEY7 and HCOPY, which are write-only, and the other offsets read 0
(R4, R316, R318). -/
def State.readManage (s : State) (r : Nat) : DWord :=
  if r % 8 ≠ 0 then 0
  else if r == 0x000 then s.modId.zeroExtend 64
  else if r == 0x008 then s.bootStat
  else if 0x100 ≤ r && r < 0x140 then vget s.mcmd (r / 8 % 8) 0
  else if r == 0x148 then BitVec.ofNat 64 (s.merr.toNat * 2 ^ 8 + s.mstat.toNat)
  else 0

/-- What a host read of a register of the adapter window returns, which changes nothing (R316). The blocks of numbers that name no context
read 0. Log entry 62: DEDUCED. -/
def State.readWindow (s : State) (off : Nat) : DWord :=
  if off < 0x1000 then s.readManage off
  else if 0x101000 ≤ off && off < 0x100000 + 0x1000 * 65536 then
    match s.context ((off - 0x100000) / 0x1000) with | some c => c.readBlock (off % 0x1000) | none => 0
  else 0

/-! ## The aperture (R316) -/

/-- The byte that an aperture read gives once the LLC has written back: ciphertext of encrypted data; of a poisoned granule, where the
specification states none, a free value. Log entry 27: DESIGN CHOICE. -/
def State.apertureByte (s : State) (key i : Nat) : Byte :=
  if s.poison.contains (key / 32) || s.latent.contains (key / 32) then (Config.freeWord (s.freeCtr + i)).extractLsb' 0 8 else s.plainByte key

/-- The lines of a range of bytes. -/
def linesOf (p n : Nat) : List Nat := if n == 0 then [] else (List.range ((p + n - 1) / 64 + 1 - p / 64)).map (p / 64 + ·)

/-- The LLC writes back its dirty bytes of lines. -/
def State.cleanLines (s : State) (ls : List Nat) : State := ls.foldl (fun t l => t.cleanLlc l) s

/-- The requests of aperture accesses to lines: of class 2, like the host's copies, and of no requester that R311 counts (log entry 33, DEDUCED). -/
def State.askLines (s : State) (ls : List Nat) : State := ls.foldl (fun t l => t.request (64 * l) 15 2 whoNone) s

/-- An aperture read of `n` bytes; offsets beyond HBM read 0. Log entry 4: DESIGN CHOICE. Log entry 27: DESIGN CHOICE. Log entry 62: DEDUCED. -/
def State.apertureRead (s : State) (p n : Nat) : State :=
  let inside := min n (Config.hbmBytes - p)
  let s1 := (s.cleanLines (linesOf p inside)).askLines (linesOf p inside)
  let bs := (List.range n).map (fun i => if p + i < Config.hbmBytes then s1.apertureByte (p + i) i else 0)
  { s1 with hostReads := s1.hostReads ++ [bs], freeCtr := s1.freeCtr + n }

/-- Bytes of one granule written by the aperture: into HBM, recorded as "none" (R314, R316). Other bytes of a granule that was encrypted
keep their ciphertext. A part of a poisoned granule is not merged, and the granule is poisoned (R166). -/
def State.apertureGran (s : State) (key : Nat) (bs : List Byte) : State :=
  let g := key / 32
  if bs.length != 32 && s.spoiled g then { s with poison := setAdd s.poison g }
  else
    let old := (List.range 32).map (fun i => s.plainByte (32 * g + i))
    let put (t : State) (i : Nat) : State :=
      t.setHbm (32 * g + i) (if key ≤ 32 * g + i && 32 * g + i < key + bs.length then bs.getD (32 * g + i - key) 0 else old.getD i 0)
    let s1 := (List.range 32).foldl put s
    let s2 : State := { s1 with tags := tabErase s1.tags g }
    if bs.length == 32 then s2.cured g else s2

/-- An aperture write, once the LLC has written back its lines and dropped them; what lies beyond HBM is discarded. A compressed block stays
uncompressed from then on. Its lines are from now on among those that the host has written (R272). Log entry 65: DESIGN CHOICE. -/
def State.apertureWrite (s : State) (p : Nat) (bytes : List Byte) : State :=
  let bs := bytes.take (Config.hbmBytes - p)
  let ls := linesOf p bs.length
  let s0 := (ls.foldl (fun t l => t.dropLlc l) s).askLines ls
  let s1 := { s0 with hostLines := setUnion s0.hostLines ls }
  (granCuts (bs.length + 1) p bs.length).foldl
    (fun t c => ({ t with compressed := tabErase t.compressed (c.1 / 2048) } : State).apertureGran c.1 ((bs.drop (c.1 - p)).take c.2)) s1

/-! ## The events -/

/-- R271. A host write of LBWIDX. -/
def execLbwidxWrite (ctx box : Nat) (v : BitVec 64) (s : State) : Host.Outcome State Fault Refusal :=
  .next (if box < 4 then s.updContext ctx (fun c => c.writeWidx box v) else s)
/-- R271, R316 to R318. A host write of a window register. -/
def execHostRegisterWrite (off : Nat) (v : BitVec 64) (s : State) : Host.Outcome State Fault Refusal := .next (s.writeWindow off v)
/-- R317. A host write of CTXISR. -/
def execCtxisrWrite (ctx : Nat) (v : BitVec 64) (s : State) : Host.Outcome State Fault Refusal :=
  .next (s.updContext ctx (fun c => c.clearIsr v))
/-- R317. The host arrives at a .sys barrier. -/
def execHbarWrite (ctx : Nat) (s : State) : Host.Outcome State Fault Refusal := .next (if (s.context ctx).isSome then s.hostArrive ctx else s)
/-- R320. A host copy starts. -/
def execHcopyWrite (v : BitVec 64) (s : State) : Host.Outcome State Fault Refusal := .next (s.hostCopy v)
/-- R316. An aperture read. -/
def execHostApertureRead (p n : Nat) (s : State) : Host.Outcome State Fault Refusal := .next (s.apertureRead p n)
/-- R316. An aperture write. -/
def execHostApertureWrite (p : Nat) (bytes : List Byte) (s : State) : Host.Outcome State Fault Refusal := .next (s.apertureWrite p bytes)

end Sys2Proof.Machine
end

