-- ==== Sys2Proof/Machine/Manage.lean ====
section
/-!
DEFINITION. The management commands (25_device.md R310, R311, R314, R315, R318, R319, R324 to R327, 26_device_notes.md R328). Each acts when it is the command that
MSTAT shows as busy. Where R319 leaves the place of an operand open, it lies in the first free word (log entry 18, DEDUCED).
-/

namespace Sys2Proof.Machine

/-- A management command at work: the state it leaves, or its error (R318). A command word with a bit outside `used` ends with error 1 (R319).
Log entry 18: DEDUCED. -/
def State.manage (s : State) (code : Nat) (used : List Nat) (f : State → Except Nat State) : State :=
  if s.mstat != 1 || s.mcode != code then s
  else if s.spare used then s.mfail 1
  else match f s with | .ok t => t.mdone | .error e => s.mfail e

/-- All bits of a word. -/
def all64 : Nat := 2 ^ 64 - 1

/-- Bytes written to host memory at a bus address. Log entry 62: DEDUCED. -/
def State.hostPut (s : State) (bus : Nat) (bs : List Byte) : State :=
  { s with hostMem := bs.zipIdx.foldl (fun t e => tabSet 0 t (bus + e.2) e.1) s.hostMem }

/-! ## Contexts and keys (R314, R315, R319) -/

/-- A context as CTX.CREATE makes it (R267, R271, R317). -/
def newContext (num ceiling slot root tokcap pool poolMiB : Nat) : Context :=
  { num := num, ceiling := ceiling, slot := slot, root := root, tokcap := tokcap, pool := pool, poolMiB := poolMiB, tokens := [],
    lbBase := Vector.replicate 4 0, lbSize := Vector.replicate 4 0, lbWidx := Vector.replicate 4 0, lbRidx := Vector.replicate 4 0, irq := 0,
    isr := 0, barGen := 0 }

/-- CTX.CREATE. The root table is 64 KiB aligned in HBM (R246). Log entry 31: DEDUCED. -/
def State.ctxCreate (s : State) : Except Nat State :=
  let c := s.mw 1 % 2 ^ 16
  if c == 0 || s.mw 2 % 2 ^ 16 ≠ 0 || s.place (s.mw 2) != .hbm then .error 1
  else if (s.context c).isSome then .error 3
  else .ok { s with contexts := s.contexts ++ [newContext c (s.mw 1 / 2 ^ 16 % 4) (s.mw 1 / 2 ^ 24 % 256) (s.mw 2) (s.mw 3) (s.mw 4) (s.mw 5)] }

/-- The slot's key is dead, its generation moves on, and no cache keeps a line of it; dirty bytes are discarded (R315). -/
def State.destroyKey (s : State) (k : Nat) : State :=
  let keep (t : Tab Line) : Tab Line := t.filter (fun e => e.2.slot != some k)
  let arr (x : ArrayState) : ArrayState := { x with l1 := keep x.l1 }
  let die (d : Die) : Die := { d with l2 := keep d.l2 }
  let under (g : Nat) : Bool := match s.tagOf g with | some t => t.slot == k | none => false
  { s with
    arrays := s.arrays.map (fun e => (e.1, arr e.2)), dies := s.dies.map die, llcLines := s.llcLines.filter (fun e => e.2.slot != some k),
    llc := s.llc.filter (fun e => !under (e.1 / 32)), llcTags := s.llcTags.filter (fun e => !under e.1),
    keys := tabPut s.keys k { key := 0, gen := (s.keySlot k).gen + 1, loaded := false } }

/-- KEY.LOAD: the key of MKEY0 to MKEY7 (R319). -/
def State.loadKey (s : State) (k : Nat) : State :=
  let key : BitVec 512 := (List.range 8).foldl (fun x i => x ||| ((vget s.mkey i 0).zeroExtend 512 <<< (64 * i))) 0
  { s with keys := tabPut s.keys k { key := key, gen := (s.keySlot k).gen + 1, loaded := true } }

/-- A run of a context that is being destroyed has stopped. Log entry 66: DEDUCED. -/
def Run.stopped (r : Run) : Bool :=
  match r.phase with
  | .held _ _ | .closed => true
  | .drain why => r.settled why
  | _ => r.flights.isEmpty && !r.redo && r.loads.isEmpty

/-- The running tasks of a context stop at their next bundle boundary, as for a pre-emption. Log entry 66: DEDUCED. -/
def State.stopRuns (s : State) (c : Nat) : State :=
  s.runs.foldl
    (fun t e =>
      match t.run? e.1 with
      | some r =>
        if r.ctx == c && r.atBoundary then
          let (u, x) := t.stopBar r
          u.setRun x.stopPreempt
        else t
      | none => t) s

/-- The receipts of everything of a context that is being destroyed: its drain faces' elements are written, and then its FDFLUSH
commands, its commands and its accepted tasks end with CLASS CTX.DESTROYED (R319). -/
def State.failContext (s : State) (c : Nat) : State :=
  let s1 := s.arrays.foldl (fun t e => if e.2.lastCtx == c then (t.flushQueues e.1 2).flushQueues e.1 3 else t) s
  let s2 := [2, 3].foldl (fun t side =>
    ((t.waitingFlushes side).filter (fun f => f.ctx == c)).foldl (fun u f => u.endFlush side f stFailed 0x14) t) s1
  let s3 := s2.arrays.foldl (fun (t : State) e =>
    [2, 3].foldl (fun (u : State) side => u.setFace e.1 side { u.face e.1 side with flushes := (u.face e.1 side).flushes.filter (fun f => f.ctx != c) }) t) s2
  let s4 := s3.cmds.foldl (fun t x => if x.ctx == c && !x.terminal then t.cmdFail x (0x14, x.code, 0) else t) s3
  s4.tasks.foldl (fun t x =>
    if x.ctx == c then
      let (frank, u) := match (t.runs.map (·.2)).find? (fun r => r.task == x.id && r.phase != .closed) with
        | some r => t.endRelease r
        | none => ([], t)
      u.endTask x (t.headOf x) stFailed 0x14 (unitCode x.die 4 0) (t.progOf x) 0 frank
    else t) s4

/-- The number that stands for no context as the one that an array was last held by. -/
def noCtx : Nat := 2 ^ 16

/-- What is left of a context leaves the module: its benches, barriers, posts and translations, and then the context. Arrays that it held last
count as held by another context from then on (R28). -/
def State.dropContext (s : State) (c : Nat) : State :=
  { s with
    runs := s.runs.filter (fun e => e.2.ctx != c), barriers := s.barriers.filter (fun b => b.ctx != c),
    packets := s.packets.filter (fun p => p.ctx != c), cmds := s.cmds.filter (fun x => x.ctx != c),
    tlb := s.tlb.filter (fun e => e.ctx != c),
    arrays := s.arrays.map (fun e => (e.1, if e.2.lastCtx == c then { e.2 with lastCtx := noCtx } else e.2)), contexts := s.contexts.filter (fun x => x.num != c) }

/-- CTX.DESTROY: the letterboxes are disabled and the running tasks stop; once they have, everything of the context ends, and its key
slot is destroyed when no other context names it. Until then the command stays busy (R319). Log entry 66: DEDUCED. -/
def State.ctxDestroy (s : State) : State :=
  let c := s.mw 1
  match s.context c with
  | none => s.mfail 2
  | some x =>
    let s1 := (s.setContext { x with lbSize := Vector.replicate 4 0 }).stopRuns c
    if s1.runs.any (fun e => e.2.ctx == c && !e.2.stopped) then s1
    else
      let s2 := (s1.failContext c).dropContext c
      (if s2.contexts.any (fun y => y.slot == x.slot) then s2 else s2.destroyKey x.slot).mdone

/-- A translation cache entry covers some of the pages from `v` on; all pages for a count of 0 (R248, R250, R319). -/
def TlbEntry.covers (e : TlbEntry) (v n : Nat) : Bool :=
  let (lo, len) := if e.block then (e.vpage / 8192 * 8192, 8192) else if bit e.leaf 9 then (e.vpage / 32 * 32, 32) else (e.vpage, 1)
  n == 0 || (lo < v + n && v < lo + len)

/-- XLATE.INV. -/
def State.xlateInv (s : State) : Except Nat State :=
  let c := s.mw 1
  if (s.context c).isNone then .error 2
  else .ok { s with tlb := s.tlb.filter (fun e => !(e.ctx == c && e.covers (s.mw 2 / 2 ^ 16) (s.mw 3))) }

/-! ## Tasks (R298, R319) -/

/-- The running task that a command names by its context and head array. Log entry 31: DEDUCED. Log entry 36: DEDUCED. -/
def State.named (s : State) : Except Nat Run :=
  match s.run? (s.mw 2) with
  | some r => if r.ctx == s.mw 1 && r.phase != .closed then .ok r else .error 2
  | none => .error 2

/-- The pre-empted task that a command names by its context and the head array that its image was taken from: a held task may be
pre-empted, and its fault stays pending (R298, R299). Log entry 36: DEDUCED. -/
def State.namedImage (s : State) : Except Nat (Task × Image) :=
  match s.tasks.findSome? (fun t => match t.image with
    | some im => if t.ctx == s.mw 1 && im.run.head == s.mw 2 then some (t, im) else none
    | none => none) with
  | some x => .ok x
  | none => .error 2

/-- INTERRUPT. Log entry 36: DEDUCED. -/
def State.raiseInterrupt (s : State) : Except Nat State :=
  match s.named with
  | .ok r => .ok (s.setRun { r with intr := true })
  | .error _ =>
    match s.namedImage with
    | .ok (t, im) => .ok (s.updTask t.id (fun x => { x with image := some { im with run := { im.run with intr := true } } }))
    | .error e => .error e

/-- A pre-empted task goes on after its restore, and its faces fetch again what faulted (R169, R298). -/
def State.resumeImage (s : State) (t : Task) (im : Image) : State :=
  let again (x : ArrayState) : ArrayState := { x with west := x.west.refetch, north := x.north.refetch }
  s.updTask t.id (fun x => { x with image := some { im with run := { im.run with phase := .issue }, arrays := im.arrays.map again } })

/-- A pre-empted task is failed by its supervisor: it ends, or runs again (R284, R298). -/
def State.failImage (s : State) (t : Task) (im : Image) (why : TrapInfo) : State :=
  let r := im.run
  let cls := faultClass why.cause.toNat why.perm
  let unit := unitCode r.die 10 why.cause.toNat
  let s1 := ((s.reportStores r).flushImage im).quitTask t.id
  if t.reruns? cls then
    s1.updTask t.id (fun x => { x with phase := .failed cls unit why.addr.toNat, image := none, lastProg := r.prog })
  else
    let (frank, s2) := s1.endRelease r
    (s2.endTask t r.head stFailed cls unit r.prog why.addr.toNat frank).settleAll

/-- FAULT.RESUME and FAULT.FAIL, of a held task. -/
def State.settleHeld (s : State) (resume : Bool) : Except Nat State :=
  let onBench : Except Nat State :=
    match s.named with
    | .ok r =>
      match r.phase with
      | .held why _ => .ok (if resume then s.resumeHeld r else s.failFault r why)
      | _ => .error 2
    | .error e => .error e
  match onBench with
  | .ok t => .ok t
  | .error e =>
    match s.namedImage with
    | .ok (t, im) =>
      match im.run.phase with
      | .held why _ => .ok (if resume then s.resumeImage t im else s.failImage t im why)
      | _ => .error e
    | .error e => .error e

/-- TOKEN.RETIRE (R275). Log entry 51: DESIGN CHOICE. -/
def State.retireToken (s : State) : Except Nat State :=
  match s.context (s.mw 1) with
  | some c => .ok (s.setContext { c with tokens := c.tokens.filter (fun t => t.tag.toNat != s.mw 2) })
  | none => .error 2

/-! ## Records, counters and reports (R305, R311, R327, R328) -/

/-- The 32 bytes of an entry (R305). -/
def Dlr.bytes (e : Dlr) : List Byte :=
  leBytes 8 e.ticks.toNat
    ++ leBytes 8 (e.cause.toNat + e.ctx.toNat * 2 ^ 16 + e.array.toNat * 2 ^ 32 + e.kind.toNat * 2 ^ 40 + e.unit.toNat * 2 ^ 48)
    ++ leBytes 8 e.pc.toNat ++ leBytes 8 e.addr.toNat

/-- What DLR.READ copies: a die's record, filled up with entries of zeros, or its power-loss list with its count (R328). -/
def Die.dlrBytes (d : Die) (power : Bool) : List Byte :=
  if power then leBytes 8 d.powerList.length ++ List.replicate 24 0 ++ d.powerList.flatMap Dlr.bytes
  else d.dlr.flatMap Dlr.bytes ++ List.replicate (32 * (4096 - d.dlr.length)) 0

/-- What COUNTERS.READ copies, four bytes each: 256 channels, 361 requesters, 8 stacks and 16 quadrants (log entry 18, DEDUCED). -/
def State.counterBytes (s : State) : List Byte :=
  (List.range 256).flatMap (fun c => leBytes 4 (tabGet 0 s.chanCount c)) ++ (List.range 361).flatMap (fun w => leBytes 4 (tabGet 0 s.missed w))
    ++ (List.range 8).flatMap (fun k => leBytes 4 (tabGet 0 s.corrected k))
    ++ (List.range 16).flatMap (fun i => leBytes 4 (vget (s.die (i / 4)).quads (i % 4) Quadrant.reset).count.toNat)

/-- The running image of the hub or of the supervisor: the one that boot loaded, whatever FLASH.LOAD has written since (R325, R327).
Log entry 10: DESIGN CHOICE. -/
def State.image (s : State) (sup : Bool) : List Byte := (if sup then s.supImage else s.hubImage).getD (Config.romImage sup)

/-- The first 176 bytes of an attestation report (R327). -/
def State.reportBody (s : State) : List Byte :=
  leBytes 8 1 ++ leBytes 8 Config.serial.toNat ++ leBytes 8 (Config.version (s.image false)) ++ leBytes 8 (Config.version (s.image true))
    ++ sha384 (s.image false) ++ sha384 (s.image true) ++ (span 4 4).flatMap (fun i => leBytes 8 (s.mw i)) ++ leBytes 8 s.bootStat.toNat
    ++ leBytes 8 s.ticks

/-- The report with its signature, and the certificate after it (R327). Log entry 10: DESIGN CHOICE. -/
def State.report (s : State) : List Byte :=
  s.reportBody ++ (List.range 96).map (Config.signature s.reportBody) ++ Config.certificate

/-! ## Settings (R310, R311, R319, R321, R324, R325) -/

/-- DRP.SET: other values than those of R324 end with error 1. Log entry 18: DEDUCED. -/
def State.setDroop (s : State) : Except Nat State :=
  let (d, q) := (s.mw 1 % 4, s.mw 1 / 2 ^ 8 % 4)
  let (a, b, c) := (s.mw 2, s.mw 3, s.mw 4)
  if 600 ≤ a && a ≤ 740 && 1 ≤ b && b ≤ 15 && 1 ≤ c && c ≤ 65535 then
    .ok (s.updQuad d q (fun x => { x with thresh := BitVec.ofNat 10 a, stretch := BitVec.ofNat 4 b, hold := BitVec.ofNat 16 c }))
  else .error 1

/-- FLASH.LOAD: an image of the host's memory into a slot; in recovery the module then resets (R319, R325). -/
def State.flashLoad (s : State) : Except Nat State :=
  if 4 ≤ s.mw 1 then .error 1
  else
    let im := (List.range (s.mw 3)).map (fun i => tabGet 0 s.hostMem (s.mw 2 + i))
    .ok { s with flash := tabPut s.flash (s.mw 1) im }

/-! ## The commands -/

/-- R319, 0x01. -/
def execCtxCreate (s : State) : Host.Outcome State Fault Refusal :=
  .next (s.manage 0x01 [0xFF, 0xFF03FFFF, 2 ^ 54 - 1, all64, all64, all64] State.ctxCreate)
/-- R319, 0x02. -/
def execCtxDestroy (s : State) : Host.Outcome State Fault Refusal :=
  let checked := s.manage 0x02 [0xFF, 0xFFFF] (fun t => .ok t)
  .next (if s.mstat == 1 && checked.mstat == 2 then s.ctxDestroy else checked)
/-- R319, 0x03. -/
def execKeyLoad (s : State) : Host.Outcome State Fault Refusal :=
  .next (s.manage 0x03 [0xFF, 0xFF] (fun t => .ok (t.loadKey (t.mw 1))))
/-- R315, 0x04. -/
def execKeyDestroy (s : State) : Host.Outcome State Fault Refusal :=
  .next (s.manage 0x04 keyWords (fun t => .ok (t.destroyKey (t.mw 1))))
/-- R319, 0x05. -/
def execXlateInv (s : State) : Host.Outcome State Fault Refusal := .next (s.manage 0x05 [0xFF, 0xFFFF, all64, all64] State.xlateInv)
/-- R319, 0x06. -/
def execInterrupt (s : State) : Host.Outcome State Fault Refusal := .next (s.manage 0x06 [0xFF, 0xFFFF, 0x3F] State.raiseInterrupt)
/-- R298, R319, 0x07. -/
def execFaultResume (s : State) : Host.Outcome State Fault Refusal :=
  .next (s.manage 0x07 [0xFF, 0xFFFF, 0x3F] (fun t => t.settleHeld true))
/-- R298, R319, 0x08. -/
def execFaultFail (s : State) : Host.Outcome State Fault Refusal :=
  .next (s.manage 0x08 [0xFF, 0xFFFF, 0x3F] (fun t => t.settleHeld false))
/-- R319, 0x09. -/
def execDspSet (s : State) : Host.Outcome State Fault Refusal :=
  .next (s.manage 0x09 [0xFF, all64, all64, all64]
    (fun t => .ok { t with age := vget t.mcmd 1 0, reserve := vget t.mcmd 2 0, fltTmo := vget t.mcmd 3 0 }))
/-- R275, R319, 0x0A. -/
def execTokenRetire (s : State) : Host.Outcome State Fault Refusal :=
  .next (s.manage 0x0A [0xFF, 0xFFFF, 2 ^ 48 - 1] State.retireToken)
/-- R328, 0x0B. -/
def execDlrRead (s : State) : Host.Outcome State Fault Refusal :=
  .next (s.manage 0x0B [0xFF, 0x103, all64] (fun t => .ok (t.hostPut (t.mw 2) ((t.die (t.mw 1 % 4)).dlrBytes (t.mw 1 / 2 ^ 8 % 2 == 1)))))
/-- R306, 0x0C. -/
def execDlrRelease (s : State) : Host.Outcome State Fault Refusal :=
  .next (s.manage 0x0C [0xFF, 3] (fun t => .ok (t.setDie (t.mw 1) { t.die (t.mw 1) with frozen := false })))
/-- R310, 0x0D. -/
def execPostcodeSwap (s : State) : Host.Outcome State Fault Refusal :=
  .next (s.manage 0x0D [0xFF, 2 ^ 18 - 1, 2 ^ 18 - 1] (fun t => .ok (t.swapRegions (t.mw 1) (t.mw 2))))
/-- R310, 0x0E. -/
def execPostcodeMode (s : State) : Host.Outcome State Fault Refusal :=
  .next (s.manage 0x0E [0xFF, 1, all64]
    (fun t => .ok { t with autoSwap := t.mw 1 == 1, swapInterval := vget t.mcmd 2 0, swapAt := t.ticks }))
/-- R311, 0x0F. -/
def execSclass (s : State) : Host.Outcome State Fault Refusal :=
  .next (s.manage 0x0F [0xFF, 0xFFFF, 0xFFFF, 0xFFFF, 0xFFFF]
    (fun t => .ok { t with budgets := Vector.ofFn (fun (i : Fin 4) => BitVec.ofNat 16 (t.mw (i.val + 1))) }))
/-- R324, 0x10. -/
def execDrpSet (s : State) : Host.Outcome State Fault Refusal := .next (s.manage 0x10 [0xFF, 0x303, all64, all64, all64] State.setDroop)
/-- R319, 0x11. -/
def execCountersRead (s : State) : Host.Outcome State Fault Refusal :=
  .next (s.manage 0x11 [0xFF, all64] (fun t => .ok (t.hostPut (t.mw 1) t.counterBytes)))
/-- R327, 0x12. -/
def execAttest (s : State) : Host.Outcome State Fault Refusal :=
  .next (s.manage 0x12 [0xFF, 0, all64, 0, all64, all64, all64, all64] (fun t => .ok (t.hostPut (t.mw 2) t.report)))
/-- R321, 0x13. -/
def execRouteSet (s : State) : Host.Outcome State Fault Refusal :=
  .next (s.manage 0x13 [0xFF, 0x3FF, 2 ^ 18 - 1] (fun t => .ok { t with routes := tabPut t.routes (t.mw 1) (BitVec.ofNat 18 (t.mw 2)) }))
/-- R319, 0x14. -/
def execModuleSetid (s : State) : Host.Outcome State Fault Refusal :=
  .next (s.manage 0x14 [0xFF, 0x3FF] (fun t => if t.contexts.isEmpty then .ok { t with modId := BitVec.ofNat 10 (t.mw 1) } else .error 3))
/-- R319, R325, 0x15. -/
def execFlashLoad (s : State) : Host.Outcome State Fault Refusal :=
  let t := s.manage 0x15 [0xFF, all64, all64, all64] State.flashLoad
  .next (if s.recovery && s.mstat == 1 && t.mstat == 2 then t.rebooted else t)

end Sys2Proof.Machine
end

