-- ==== Sys2Proof/Machine/Dispatch.lean ====
section
/-!
DEFINITION. The dispatch: one arm for each constructor of Instr, each one direct call of its meaning.
-/

namespace Sys2Proof.Machine

/-- The meaning of an instruction or event in a state. -/
def exec (i : Instr) (s : State) : Host.Outcome State Fault Refusal :=
  match i with
  | .nopControl g => Sys2Proof.Machine.execNopControl g s
  | .br g c o => Sys2Proof.Machine.execBr g c o s
  | .call g c o => Sys2Proof.Machine.execCall g c o s
  | .calli g sr => Sys2Proof.Machine.execCalli g sr s
  | .ret g => Sys2Proof.Machine.execRet g s
  | .jmpi g sr => Sys2Proof.Machine.execJmpi g sr s
  | .loop g sr k r e => Sys2Proof.Machine.execLoop g sr k r e s
  | .loops g j k r e => Sys2Proof.Machine.execLoops g j k r e s
  | .lbrk g => Sys2Proof.Machine.execLbrk g s
  | .lbrka g => Sys2Proof.Machine.execLbrka g s
  | .rotcfg g x y => Sys2Proof.Machine.execRotcfg g x y s
  | .wave g w => Sys2Proof.Machine.execWave g w s
  | .fmtset g sr => Sys2Proof.Machine.execFmtset g sr s
  | .semset g e sr => Sys2Proof.Machine.execSemset g e sr s
  | .waitf g t q => Sys2Proof.Machine.execWaitf g t q s
  | .waitr g a t q => Sys2Proof.Machine.execWaitr g a t q s
  | .drain g p t q => Sys2Proof.Machine.execDrain g p t q s
  | .fence g sr k => Sys2Proof.Machine.execFence g sr k s
  | .rel g sr => Sys2Proof.Machine.execRel g sr s
  | .acq g sr a => Sys2Proof.Machine.execAcq g sr a s
  | .acqW g sr a t q => Sys2Proof.Machine.execAcqW g sr a t q s
  | .bar g sr t q => Sys2Proof.Machine.execBar g sr t q s
  | .launch g sr => Sys2Proof.Machine.execLaunch g sr s
  | .signal g sr => Sys2Proof.Machine.execSignal g sr s
  | .yield g => Sys2Proof.Machine.execYield g s
  | .done g => Sys2Proof.Machine.execDone g s
  | .trap g c => Sys2Proof.Machine.execTrap g c s
  | .rft g => Sys2Proof.Machine.execRft g s
  | .sysrd g d r => Sys2Proof.Machine.execSysrd g d r s
  | .syswr g sr r => Sys2Proof.Machine.execSyswr g sr r s
  | .docket g a b => Sys2Proof.Machine.execDocket g a b s
  | .dcheck g => Sys2Proof.Machine.execDcheck g s
  | .stamp g d => Sys2Proof.Machine.execStamp g d s
  | .stampS g d => Sys2Proof.Machine.execStampS g d s
  | .nopScalar g => Sys2Proof.Machine.execNopScalar g s
  | .add g d a b y x => Sys2Proof.Machine.execAdd g d a b y x s
  | .sub g d a b y x => Sys2Proof.Machine.execSub g d a b y x s
  | .addi g d j => Sys2Proof.Machine.execAddi g d j s
  | .mul g d a b y x => Sys2Proof.Machine.execMul g d a b y x s
  | .mulh g d a b y x => Sys2Proof.Machine.execMulh g d a b y x s
  | .mulhu g d a b y x => Sys2Proof.Machine.execMulhu g d a b y x s
  | .div g d a b y x => Sys2Proof.Machine.execDiv g d a b y x s
  | .divu g d a b y x => Sys2Proof.Machine.execDivu g d a b y x s
  | .rem g d a b y x => Sys2Proof.Machine.execRem g d a b y x s
  | .remu g d a b y x => Sys2Proof.Machine.execRemu g d a b y x s
  | .and g d a b y x => Sys2Proof.Machine.execAnd g d a b y x s
  | .or g d a b y x => Sys2Proof.Machine.execOr g d a b y x s
  | .xor g d a b y x => Sys2Proof.Machine.execXor g d a b y x s
  | .andi g d j => Sys2Proof.Machine.execAndi g d j s
  | .ori g d j => Sys2Proof.Machine.execOri g d j s
  | .xori g d j => Sys2Proof.Machine.execXori g d j s
  | .shl g d a b y x => Sys2Proof.Machine.execShl g d a b y x s
  | .shr g d a b y x => Sys2Proof.Machine.execShr g d a b y x s
  | .sra g d a b y x => Sys2Proof.Machine.execSra g d a b y x s
  | .shli g d j => Sys2Proof.Machine.execShli g d j s
  | .shri g d j => Sys2Proof.Machine.execShri g d j s
  | .srai g d j => Sys2Proof.Machine.execSrai g d j s
  | .min g d a b y x => Sys2Proof.Machine.execMin g d a b y x s
  | .max g d a b y x => Sys2Proof.Machine.execMax g d a b y x s
  | .minu g d a b y x => Sys2Proof.Machine.execMinu g d a b y x s
  | .maxu g d a b y x => Sys2Proof.Machine.execMaxu g d a b y x s
  | .selScalar g d a b y x => Sys2Proof.Machine.execSelScalar g d a b y x s
  | .cmp g c q a b y x => Sys2Proof.Machine.execCmp g c q a b y x s
  | .cmpi g c q a j => Sys2Proof.Machine.execCmpi g c q a j s
  | .li g d j => Sys2Proof.Machine.execLi g d j s
  | .lui g d j => Sys2Proof.Machine.execLui g d j s
  | .movScalar g d a x => Sys2Proof.Machine.execMovScalar g d a x s
  | .clz g d a x => Sys2Proof.Machine.execClz g d a x s
  | .popc g d a x => Sys2Proof.Machine.execPopc g d a x s
  | .lea g d a b h y x => Sys2Proof.Machine.execLea g d a b h y x s
  | .ld g d b o z => Sys2Proof.Machine.execLd g d b o z s
  | .st g d b o z => Sys2Proof.Machine.execSt g d b o z s
  | .lda g d b o z => Sys2Proof.Machine.execLda g d b o z s
  | .stl g d b o z => Sys2Proof.Machine.execStl g d b o z s
  | .ldlast g d b o z => Sys2Proof.Machine.execLdlast g d b o z s
  | .pref g h b o z => Sys2Proof.Machine.execPref g h b o z s
  | .aadd g d a b w y x => Sys2Proof.Machine.execAadd g d a b w y x s
  | .amin g d a b w y x => Sys2Proof.Machine.execAmin g d a b w y x s
  | .amax g d a b w y x => Sys2Proof.Machine.execAmax g d a b w y x s
  | .aand g d a b w y x => Sys2Proof.Machine.execAand g d a b w y x s
  | .aor g d a b w y x => Sys2Proof.Machine.execAor g d a b w y x s
  | .axor g d a b w y x => Sys2Proof.Machine.execAxor g d a b w y x s
  | .aswap g d a b w y x => Sys2Proof.Machine.execAswap g d a b w y x s
  | .acas g d a b w y x => Sys2Proof.Machine.execAcas g d a b w y x s
  | .afadd g d a b w y x => Sys2Proof.Machine.execAfadd g d a b w y x s
  | .nopSelector => Sys2Proof.Machine.execNopSelector s
  | .selSelector r c sr p a => Sys2Proof.Machine.execSelSelector r c sr p a s
  | .mset r c sr d => Sys2Proof.Machine.execMset r c sr d s
  | .mrange r c l h d => Sys2Proof.Machine.execMrange r c l h d s
  | .mop r c a b o d => Sys2Proof.Machine.execMop r c a b o d s
  | .mflag r c k d => Sys2Proof.Machine.execMflag r c k d s
  | .tscale r c sr t => Sys2Proof.Machine.execTscale r c sr t s
  | .nopCell g => Sys2Proof.Machine.execNopCell g s
  | .iadd g d a b => Sys2Proof.Machine.execIadd g d a b s
  | .isub g d a b => Sys2Proof.Machine.execIsub g d a b s
  | .imul g d a b => Sys2Proof.Machine.execImul g d a b s
  | .imulh g d a b u => Sys2Proof.Machine.execImulh g d a b u s
  | .iand g d a b => Sys2Proof.Machine.execIand g d a b s
  | .ior g d a b => Sys2Proof.Machine.execIor g d a b s
  | .ixor g d a b => Sys2Proof.Machine.execIxor g d a b s
  | .ishl g d a b => Sys2Proof.Machine.execIshl g d a b s
  | .ishr g d a b => Sys2Proof.Machine.execIshr g d a b s
  | .isra g d a b => Sys2Proof.Machine.execIsra g d a b s
  | .imin g d a b u => Sys2Proof.Machine.execImin g d a b u s
  | .imax g d a b u => Sys2Proof.Machine.execImax g d a b u s
  | .icmp g p a b c => Sys2Proof.Machine.execIcmp g p a b c s
  | .isel g d a b => Sys2Proof.Machine.execIsel g d a b s
  | .iaddi g d j => Sys2Proof.Machine.execIaddi g d j s
  | .movi g d j => Sys2Proof.Machine.execMovi g d j s
  | .movhi g d j => Sys2Proof.Machine.execMovhi g d j s
  | .movCell g d a => Sys2Proof.Machine.execMovCell g d a s
  | .fadd g d a b => Sys2Proof.Machine.execFadd g d a b s
  | .fsub g d a b => Sys2Proof.Machine.execFsub g d a b s
  | .fmul g d a b => Sys2Proof.Machine.execFmul g d a b s
  | .ffma g d a b => Sys2Proof.Machine.execFfma g d a b s
  | .fmin g d a b => Sys2Proof.Machine.execFmin g d a b s
  | .fmax g d a b => Sys2Proof.Machine.execFmax g d a b s
  | .fcmp g p a b c => Sys2Proof.Machine.execFcmp g p a b c s
  | .fabs g d a => Sys2Proof.Machine.execFabs g d a s
  | .fneg g d a => Sys2Proof.Machine.execFneg g d a s
  | .frcp g d a => Sys2Proof.Machine.execFrcp g d a s
  | .frsq g d a => Sys2Proof.Machine.execFrsq g d a s
  | .fexp2 g d a => Sys2Proof.Machine.execFexp2 g d a s
  | .flog2 g d a => Sys2Proof.Machine.execFlog2 g d a s
  | .ftanh g d a => Sys2Proof.Machine.execFtanh g d a s
  | .fcvt g d a b m => Sys2Proof.Machine.execFcvt g d a b m s
  | .frnd g d a m => Sys2Proof.Machine.execFrnd g d a m s
  | .bfma g d a b m => Sys2Proof.Machine.execBfma g d a b m s
  | .hadd2 g d a b => Sys2Proof.Machine.execHadd2 g d a b s
  | .hmul2 g d a b => Sys2Proof.Machine.execHmul2 g d a b s
  | .hfma2 g d a b => Sys2Proof.Machine.execHfma2 g d a b s
  | .vset g d => Sys2Proof.Machine.execVset g d s
  | .vclr g d => Sys2Proof.Machine.execVclr g d s
  | .vtest g p a b c => Sys2Proof.Machine.execVtest g p a b c s
  | .vsel g d a b => Sys2Proof.Machine.execVsel g d a b s
  | .vmov g d a => Sys2Proof.Machine.execVmov g d a s
  | .pand g p q r => Sys2Proof.Machine.execPand g p q r s
  | .por g p q r => Sys2Proof.Machine.execPor g p q r s
  | .pxor g p q r => Sys2Proof.Machine.execPxor g p q r s
  | .pnot g p q => Sys2Proof.Machine.execPnot g p q s
  | .pmov g p q => Sys2Proof.Machine.execPmov g p q s
  | .rand g d a w => Sys2Proof.Machine.execRand g d a w s
  | .lexit g => Sys2Proof.Machine.execLexit g s
  | .ldc g d b o => Sys2Proof.Machine.execLdc g d b o s
  | .stc g d b o => Sys2Proof.Machine.execStc g d b o s
  | .ldc2 g d b o => Sys2Proof.Machine.execLdc2 g d b o s
  | .stc2 g d b o => Sys2Proof.Machine.execStc2 g d b o s
  | .ldca g d b o => Sys2Proof.Machine.execLdca g d b o s
  | .stca g d b o => Sys2Proof.Machine.execStca g d b o s
  | .comm g d a m => Sys2Proof.Machine.execComm g d a m s
  | .smm g c e a b z => Sys2Proof.Machine.execSmm g c e a b z s
  | .smms g c e a b z => Sys2Proof.Machine.execSmms g c e a b z s
  | .smz g c e => Sys2Proof.Machine.execSmz g c e s
  | .smadd g c e k => Sys2Proof.Machine.execSmadd g c e k s
  | .smrd g d c e => Sys2Proof.Machine.execSmrd g d c e s
  | .smwr g a c e => Sys2Proof.Machine.execSmwr g a c e s
  | .smout g c e b f => Sys2Proof.Machine.execSmout g c e b f s
  | .smcmp g c e k p m => Sys2Proof.Machine.execSmcmp g c e k p m s
  | .scmpr g d a c e => Sys2Proof.Machine.execScmpr g d a c e s
  | .scmprPair g d c e => Sys2Proof.Machine.execScmprPair g d c e s
  | .sexpn g c e a b z => Sys2Proof.Machine.execSexpn g c e a b z s
  | .bpack g d c e sr j => Sys2Proof.Machine.execBpack g d c e sr j s
  | .bunpk g a c sr j => Sys2Proof.Machine.execBunpk g a c sr j s
  | .smred g c e k m => Sys2Proof.Machine.execSmred g c e k m s
  | .nopInject g => Sys2Proof.Machine.execNopInject g s
  | .ficfg g sr f => Sys2Proof.Machine.execFicfg g sr f s
  | .figo g f b => Sys2Proof.Machine.execFigo g f b s
  | .fihalt g f => Sys2Proof.Machine.execFihalt g f s
  | .fipad g sr f m => Sys2Proof.Machine.execFipad g sr f m s
  | .fisel g f q => Sys2Proof.Machine.execFisel g f q s
  | .fiqb g a t f b => Sys2Proof.Machine.execFiqb g a t f b s
  | .nopDrain g => Sys2Proof.Machine.execNopDrain g s
  | .fdcfg g sr f => Sys2Proof.Machine.execFdcfg g sr f s
  | .fdgo g f => Sys2Proof.Machine.execFdgo g f s
  | .fdhalt g f => Sys2Proof.Machine.execFdhalt g f s
  | .fdchain g sr f => Sys2Proof.Machine.execFdchain g sr f s
  | .fdflush g sr f => Sys2Proof.Machine.execFdflush g sr f s
  | .nopEngine g => Sys2Proof.Machine.execNopEngine g s
  | .cpy g d r t c => Sys2Proof.Machine.execCpy g d r t c s
  | .cpya g d r t c => Sys2Proof.Machine.execCpya g d r t c s
  | .gath g d r t u c => Sys2Proof.Machine.execGath g d r t u c s
  | .scat g d r t u c => Sys2Proof.Machine.execScat g d r t u c s
  | .red g d r t c => Sys2Proof.Machine.execRed g d r t c s
  | .ared g d r t c => Sys2Proof.Machine.execAred g d r t c s
  | .bcst g d r t c => Sys2Proof.Machine.execBcst g d r t c s
  | .fill g d r t c => Sys2Proof.Machine.execFill g d r t c s
  | .ccan g t r c => Sys2Proof.Machine.execCcan g t r c s
  | .ckpt g d r t c => Sys2Proof.Machine.execCkpt g d r t c s
  | .sortb g d r => Sys2Proof.Machine.execSortb g d r s
  | .sortl g d r => Sys2Proof.Machine.execSortl g d r s
  | .sortm g d r => Sys2Proof.Machine.execSortm g d r s
  | .sortd g d r => Sys2Proof.Machine.execSortd g d r s
  | .post g a h r => Sys2Proof.Machine.execPost g a h r s
  | .precv g d t h q => Sys2Proof.Machine.execPrecv g d t h q s
  | .bundleIssue => Sys2Proof.Machine.execBundleIssue s
  | .blankAdvance => Sys2Proof.Machine.execBlankAdvance s
  | .drainAdvance => Sys2Proof.Machine.execDrainAdvance s
  | .stallResume => Sys2Proof.Machine.execStallResume s
  | .stallTimeout => Sys2Proof.Machine.execStallTimeout s
  | .feTimeout => Sys2Proof.Machine.execFeTimeout s
  | .loadDataReturn j => Sys2Proof.Machine.execLoadDataReturn j s
  | .resultLanding m c => Sys2Proof.Machine.execResultLanding m c s
  | .flagRecordReadable => Sys2Proof.Machine.execFlagRecordReadable s
  | .waitSatisfied => Sys2Proof.Machine.execWaitSatisfied s
  | .waitTimeout => Sys2Proof.Machine.execWaitTimeout s
  | .trapEntry => Sys2Proof.Machine.execTrapEntry s
  | .supervisorFaultTake => Sys2Proof.Machine.execSupervisorFaultTake s
  | .interruptTake => Sys2Proof.Machine.execInterruptTake s
  | .memUeStore => Sys2Proof.Machine.execMemUeStore s
  | .preempt die => Sys2Proof.Machine.execPreempt die s
  | .preemptImageWrite => Sys2Proof.Machine.execPreemptImageWrite s
  | .taskRestore die => Sys2Proof.Machine.execTaskRestore die s
  | .flttmoExpiry => Sys2Proof.Machine.execFlttmoExpiry s
  | .machineCheck die => Sys2Proof.Machine.execMachineCheck die s
  | .taskEnd => Sys2Proof.Machine.execTaskEnd s
  | .yieldComplete => Sys2Proof.Machine.execYieldComplete s
  | .descriptorTake => Sys2Proof.Machine.execDescriptorTake s
  | .taskAccept die => Sys2Proof.Machine.execTaskAccept die s
  | .taskDispatch die => Sys2Proof.Machine.execTaskDispatch die s
  | .priorityAging die => Sys2Proof.Machine.execPriorityAging die s
  | .benchReserve die => Sys2Proof.Machine.execBenchReserve die s
  | .taskPull die => Sys2Proof.Machine.execTaskPull die s
  | .taskRerun die => Sys2Proof.Machine.execTaskRerun die s
  | .dieTakeover die heir => Sys2Proof.Machine.execDieTakeover die heir s
  | .barGenerationComplete j => Sys2Proof.Machine.execBarGenerationComplete j s
  | .engineCommandStart j => Sys2Proof.Machine.execEngineCommandStart j s
  | .engineCommandEnd j => Sys2Proof.Machine.execEngineCommandEnd j s
  | .engineFullTimeout => Sys2Proof.Machine.execEngineFullTimeout s
  | .launchFullTimeout => Sys2Proof.Machine.execLaunchFullTimeout s
  | .sortlTimeout j => Sys2Proof.Machine.execSortlTimeout j s
  | .collectiveGroupTimeout j => Sys2Proof.Machine.execCollectiveGroupTimeout j s
  | .collectiveChunkReceive j chunk => Sys2Proof.Machine.execCollectiveChunkReceive j chunk s
  | .injectElementFetch a face lane => Sys2Proof.Machine.execInjectElementFetch a face lane s
  | .drainElementWrite a face lane => Sys2Proof.Machine.execDrainElementWrite a face lane s
  | .fdflushReceipt a face => Sys2Proof.Machine.execFdflushReceipt a face s
  | .postPacketHop j => Sys2Proof.Machine.execPostPacketHop j s
  | .postInboxEnter j => Sys2Proof.Machine.execPostInboxEnter j s
  | .memoryRequestServe channel => Sys2Proof.Machine.execMemoryRequestServe channel s
  | .hbmScrub stack => Sys2Proof.Machine.execHbmScrub stack s
  | .postcodeAutoSwap => Sys2Proof.Machine.execPostcodeAutoSwap s
  | .carrierFlitReceive port good => Sys2Proof.Machine.execCarrierFlitReceive port good s
  | .powerLoss => Sys2Proof.Machine.execPowerLoss s
  | .moduleReset => Sys2Proof.Machine.execModuleReset s
  | .droopAlarm die quad => Sys2Proof.Machine.execDroopAlarm die quad s
  | .droopStretchEnd die quad => Sys2Proof.Machine.execDroopStretchEnd die quad s
  | .droopHoldEnd die quad => Sys2Proof.Machine.execDroopHoldEnd die quad s
  | .droopRearm die quad => Sys2Proof.Machine.execDroopRearm die quad s
  | .lbwidxWrite ctx box v => Sys2Proof.Machine.execLbwidxWrite ctx box v s
  | .hostRegisterWrite off v => Sys2Proof.Machine.execHostRegisterWrite off v s
  | .ctxisrWrite ctx v => Sys2Proof.Machine.execCtxisrWrite ctx v s
  | .hbarWrite ctx => Sys2Proof.Machine.execHbarWrite ctx s
  | .hcopyWrite v => Sys2Proof.Machine.execHcopyWrite v s
  | .hostApertureRead p n => Sys2Proof.Machine.execHostApertureRead p n s
  | .hostApertureWrite p bytes => Sys2Proof.Machine.execHostApertureWrite p bytes s
  | .ctxCreate => Sys2Proof.Machine.execCtxCreate s
  | .ctxDestroy => Sys2Proof.Machine.execCtxDestroy s
  | .keyLoad => Sys2Proof.Machine.execKeyLoad s
  | .keyDestroy => Sys2Proof.Machine.execKeyDestroy s
  | .xlateInv => Sys2Proof.Machine.execXlateInv s
  | .interrupt => Sys2Proof.Machine.execInterrupt s
  | .faultResume => Sys2Proof.Machine.execFaultResume s
  | .faultFail => Sys2Proof.Machine.execFaultFail s
  | .dspSet => Sys2Proof.Machine.execDspSet s
  | .tokenRetire => Sys2Proof.Machine.execTokenRetire s
  | .dlrRead => Sys2Proof.Machine.execDlrRead s
  | .dlrRelease => Sys2Proof.Machine.execDlrRelease s
  | .postcodeSwap => Sys2Proof.Machine.execPostcodeSwap s
  | .postcodeMode => Sys2Proof.Machine.execPostcodeMode s
  | .sclass => Sys2Proof.Machine.execSclass s
  | .drpSet => Sys2Proof.Machine.execDrpSet s
  | .countersRead => Sys2Proof.Machine.execCountersRead s
  | .attest => Sys2Proof.Machine.execAttest s
  | .routeSet => Sys2Proof.Machine.execRouteSet s
  | .moduleSetid => Sys2Proof.Machine.execModuleSetid s
  | .flashLoad => Sys2Proof.Machine.execFlashLoad s
  | .remoteResponderTimeout j => Sys2Proof.Machine.execRemoteResponderTimeout j s
  | .clawynLinkFailure => Sys2Proof.Machine.execClawynLinkFailure s
  | .unitLoss kind index => Sys2Proof.Machine.execUnitLoss kind index s

end Sys2Proof.Machine
end

