-- ==== Sys2Proof/Machine/Sched.lean ====
section
/-!
DEFINITION. The order of events (log entry 1, DESIGN CHOICE; log entry 2, DESIGN CHOICE): what a turn of the schedule does before
its event, and the event that happens when no turn is given. The specification lets concurrent events happen in any order (03_wave.md R35, 19_memory.md R253, 21_tasks.md R285); a schedule
gives any of them.
-/

namespace Sys2Proof.Machine

/-! ## Turns -/

/-- The granules that an uncorrectable error in HBM spoils: of a compressed block all (R313). -/
def State.errorSpread (s : State) (g : Nat) : List Nat := if tabGet 0 s.compressed (g / 64) == 0 then [g] else span (g / 64 * 64) 64

/-- A task of a context starts on an array of another module of the pod, with its scratchpad size, or, for context 0, has left it: its face store
is then as the task finds it (R28, R244). Log entry 60: DESIGN CHOICE. -/
def State.remoteStart (s : State) (a ctx spad : Nat) : State :=
  if a < 64 || !s.pod.contains (a / 64 - 1) then s
  else if ctx == 0 then { s with remote := tabErase s.remote a }
  else
    let t := s.prepare a ctx (spad % 4) ((s.arr a).lastCtx != ctx)
    { t with remote := tabPut t.remote a (ctx, spad % 4) }

/-- Something that happens in the background: evictions (R241, R312), dropped translations (R250), one unit of an engine's work (R164),
errors of memory and of cells (R287, R308, R312, R313), a line of a scrub (R308), and tasks of other modules (R244). Log entry 1: DESIGN CHOICE.
Log entry 20: DEDUCED. Log entry 26: DESIGN CHOICE. Log entry 59: DESIGN CHOICE. -/
def State.background (s : State) (b : Background) : State :=
  match b with
  | .evictL1 a line => s.dropL1 a line
  | .evictL2 d line => s.dropL2 d line
  | .evictLlc line => s.dropLlc line
  | .evictBundle a line => s.setArr a { s.arr a with icache := tabErase (s.arr a).icache line }
  | .dropTlb n => { s with tlb := s.tlb.eraseIdx n }
  | .engineUnit id => s.withCmd id s.workCmd
  | .memoryError g => { s with latent := setUnion s.latent (s.errorSpread g) }
  | .llcError g => if s.inLlc g || s.dirtyGran g then { s with poison := setAdd s.poison g } else s
  | .remoteTask a ctx spad => s.remoteStart a ctx spad
  | .scrubLine line => s.scrubLine line
  | .correctable k => { s with corrected := tabPut s.corrected k ((tabGet 0 s.corrected k + 1) % 2 ^ 32) }
  | .cellError a c place =>
    let x := s.arr a
    let cell := tabGet Cell.reset x.cells c
    s.setArr a { x with cells := tabPut x.cells c { cell with ue := setAdd cell.ue place } }

/-- The state in which the event of a turn happens. Log entry 1: DESIGN CHOICE. Log entry 61: DESIGN CHOICE. -/
def State.beginTurn (s : State) (t : Turn) : State :=
  t.background.foldl State.background { s with ticks := s.ticks + t.ticks, cur := t.head }

/-! ## The event of a bench -/

/-- The number of ones of the tick count, modulo 3. It keeps no value along an arithmetic progression, so that what waits meets every value
in its turns: at 0 commands that wait are tried, at 2 a bench that waits tries to go on, and otherwise its wave drains.
Log entry 2: DESIGN CHOICE. -/
def State.beat (s : State) : Nat := ((List.range 32).filter s.ticks.testBit).length % 3

/-- What a bench that issues does next. Log entry 2: DESIGN CHOICE. -/
def State.issueEvent (s : State) (r : Run) : Instr :=
  if r.redo then .drainAdvance
  else if !r.ueStore.isEmpty then .memUeStore
  else if r.intr && !r.trap.active then .interruptTake
  else if r.preempt && !r.inEndStall then .preempt r.die
  else if r.face.isSome then .stallResume
  else if 0 < r.blanks then .blankAdvance
  else if r.stall.isNone then .bundleIssue
  else if r.drains && s.beat != 2 then .drainAdvance
  else .stallResume

/-- Nothing keeps the image of a bench from being written. -/
def State.mayImage (s : State) (r : Run) : Bool := s.commandsDone r && s.inboxesQuiet r

/-- The next event of a bench. The data of a load returns once the bench waits, or after seven more loads. -/
def State.benchEvent (s : State) (r : Run) : Option Instr :=
  if !r.loads.isEmpty && (r.phase != .issue || r.stall.isSome || 8 ≤ r.loads.length) then some (.loadDataReturn 0)
  else match r.phase with
    | .issue => some (s.issueEvent r)
    | .drain why =>
      if !r.settled why then (if r.drains then some .drainAdvance else none)
      else some (if supervised why.cause.toNat then .supervisorFaultTake else .trapEntry)
    | .held _ since =>
      if s.fltTmo.toNat ≤ s.ticks - since then some .flttmoExpiry
      else if r.preempt && s.mayImage r then some .preemptImageWrite else none
    | .preempt => if r.drains then some .drainAdvance else if s.mayImage r then some .preemptImageWrite else none
    | .returning _ => if r.drains then some .drainAdvance else none
    | .ended => if r.drains then some .drainAdvance else if !r.ueStore.isEmpty then some .memUeStore else some .taskEnd
    | .yielded => if r.drains then some .drainAdvance else if s.mayImage r then some .yieldComplete else none
    | .closed => none

/-- The benches in turn: those after the current one, then the others. -/
def State.benchTurns (s : State) : List Run :=
  let l := s.runs.map (·.2)
  l.filter (fun r => s.cur < r.head) ++ l.filter (fun r => r.head ≤ s.cur)

/-- The next event of a bench, with its head. -/
def State.anyBench (s : State) : Option (Nat × Instr) :=
  s.benchTurns.findSome? (fun r => (s.benchEvent r).map (fun e => (r.head, e)))

/-! ## The other events -/

/-- The event of a management command by its code (R319). -/
def manageEvent : Nat → Option Instr
  | 0x01 => some .ctxCreate | 0x02 => some .ctxDestroy | 0x03 => some .keyLoad | 0x04 => some .keyDestroy | 0x05 => some .xlateInv
  | 0x06 => some .interrupt | 0x07 => some .faultResume | 0x08 => some .faultFail | 0x09 => some .dspSet | 0x0A => some .tokenRetire
  | 0x0B => some .dlrRead | 0x0C => some .dlrRelease | 0x0D => some .postcodeSwap | 0x0E => some .postcodeMode | 0x0F => some .sclass
  | 0x10 => some .drpSet | 0x11 => some .countersRead | 0x12 => some .attest | 0x13 => some .routeSet | 0x14 => some .moduleSetid
  | 0x15 => some .flashLoad | _ => none

/-- The management command that is busy. A CTX.DESTROY may have to wait for benches to drain. -/
def State.anyManage (s : State) : Option Instr :=
  if s.mstat == 1 && (s.mcode != 2 || s.beat == 0) then manageEvent s.mcode else none

/-- The chunk that a collective of this module alone receives next: its ranks in order (R188). -/
def State.ownChunk (s : State) (x : Cmd) : Chunk :=
  { index := x.next, order := (s.localRanks x).filter (fun r => !isBcst x.op || r == x.collRoot), remote := [] }

/-- The next event of a command. -/
def State.cmdEvent (s : State) (x : Cmd) : Option Instr :=
  if x.terminal then none
  else if !x.started then (if s.mayStart x then some (.engineCommandStart x.id) else none)
  else match x.op with
    | .post .. => none
    | .red .. | .ared .. | .bcst .. =>
      if !x.collValid then some (.engineCommandEnd x.id)
      else if x.numChunks ≤ x.next then some (.engineCommandEnd x.id)
      else if s.formed x && !s.collBroken x && s.orderOk x (s.ownChunk x) then some (.collectiveChunkReceive x.id (s.ownChunk x))
      else if x.startAt + x.tmo < s.ticks && s.collWaits x then some (.collectiveGroupTimeout x.id) else none
    | _ =>
      match x.waitAt with
      | none => some (.engineCommandEnd x.id)
      | some t => if x.tmo < s.ticks - t then some (.sortlTimeout x.id) else if s.beat == 0 then some (.engineCommandEnd x.id) else none

/-- The next event of a packet. -/
def State.packetEvent (s : State) (p : Packet) : Option Instr :=
  match s.mayShip p with
  | some _ => some (.postPacketHop p.cmd)
  | none =>
    if p.flitAt.all (fun f => p.hops ≤ f.1) then (if !s.hasTask p || s.roomFor p then some (.postInboxEnter p.cmd) else none)
    else if p.arrive.isSome && (!s.hasTask p || s.roomFor p) then some (.postPacketHop p.cmd) else none

/-- The next event of a face. -/
def State.faceEvent (s : State) (a side : Nat) : Option Instr :=
  let f := s.face a side
  if side < 2 then
    match s.runOn a with
    | some r =>
      if r.phase == .closed then none
      else ((List.range 32).find? (fun l => (f.nextFetch l).isSome)).map (fun l => .injectElementFetch a side l)
    | none => none
  else match f.lanes.find? (fun e => !e.2.queue.isEmpty) with
    | some e => some (.drainElementWrite a side e.1)
    | none =>
      match f.flushes with
      | [] => none
      | x :: _ => if s.flushDone side x [a] then some (.fdflushReceipt a side) else none

/-- A face that a pattern, a chain or a push has left in its first state has no event. -/
def Face.idle (f : Face) : Bool := f.log.isEmpty && f.bank0.isNone && f.bank1.isNone && f.lanes.isEmpty && f.flushes.isEmpty

/-- The next event of any face. -/
def State.anyFace (s : State) : Option Instr :=
  s.arrays.findSome? (fun e => (List.range 4).findSome? (fun side => if (s.face e.1 side).idle then none else s.faceEvent e.1 side))

/-- The next event of a die's dispatcher. -/
def State.dieEvent (s : State) (d : Nat) : Option Instr :=
  let rerun (t : Task) : Bool := t.die == d && (match t.phase with | .failed cls _ _ => t.reruns? cls | _ => false) && !s.runs.any (fun e => e.2.task == t.id)
  if !(s.die d).alive then
    (if s.tasks.any (fun t => t.die == d) then (s.heir d).map (fun h => Instr.dieTakeover d h) else none)
  else if s.tasks.any rerun then some (.taskRerun d)
  else match (s.pick d).1 with
    | some (t, _) => some (if t.image.isNone then .taskDispatch d else .taskRestore d)
    | none => if (s.chooseVictims d).isEmpty then none else some (.preempt d)

/-- The next event of the dispatchers. -/
def State.anyTask (s : State) : Option Instr :=
  if s.contexts.any (fun c => (List.range 4).any (fun p => (s.takeBox c p none).isSome)) then some .descriptorTake
  else if s.tasks.isEmpty then none
  else
    let dies := List.range 4
    let t := dies.foldl State.ageTasks s.freeBenches
    (dies.findSome? t.dieEvent).or
      ((dies.findSome? (fun d => (t.toPull d).map (fun _ => Instr.taskPull d))).or
        (dies.findSome? (fun d => (t.toReserve d).map (fun _ => Instr.benchReserve d))))

/-- An automatic swap is due (R310). -/
def State.anySwap (s : State) : Option Instr :=
  if s.autoSwap && s.swapInterval.toNat ≤ s.ticks - s.swapAt && s.beat == 0 then some .postcodeAutoSwap else none

/-- The end of a stretch or of a hold that a droop alarm has begun (R323). -/
def State.anyDroop (s : State) : Option Instr :=
  (List.range 16).findSome? (fun k =>
    let q := vget (s.die (k / 4)).quads (k % 4) Quadrant.reset
    if q.stretching then some (.droopStretchEnd (k / 4) (k % 4))
    else if q.holdOf.isSome && s.holdDone (k / 4) (k % 4) q then some (.droopHoldEnd (k / 4) (k % 4)) else none)

/-! ## The next event -/

/-- The bench that is current and the event, when no turn is given: management commands, engines, faces, packets, dispatchers, channels, and
then the benches in turn. Log entry 2: DESIGN CHOICE. -/
def State.nextEvent (s : State) : Option (Nat × Instr) :=
  let here (e : Instr) : Nat × Instr := (s.cur, e)
  match s.anyManage with
  | some e => some (here e)
  | none =>
    match s.cmds.findSome? s.cmdEvent with
    | some e => some (here e)
    | none =>
      match s.anyFace with
      | some e => some (here e)
      | none =>
        match s.packets.findSome? s.packetEvent with
        | some e => some (here e)
        | none =>
          match s.anyTask.or (s.anySwap.or s.anyDroop) with
          | some e => some (here e)
          | none =>
            match s.requests with
            | q :: _ => some (here (.memoryRequestServe q.channel))
            | [] => s.anyBench

/-- Only a reset happens to a module without power (R322). Log entry 3: DESIGN CHOICE. -/
def isReset : Instr → Bool
  | .moduleReset => true
  | _ => false

/-! ## A program put into the machine (log entry 15, DESIGN CHOICE) -/

/-- Where the words of an instruction lie in a bundle: its class of the operation table, or the control slot where none decodes. -/
def tableBundle (w : Word) : Bundle :=
  let c := match decodeTableClass w with | some (c, _) => c | none => .control
  w.zeroExtend 256 <<< (32 * c.index)

/-- The 32 bytes of a granule of this module put at the .pod point as plain data, without a mark. -/
def State.place32 (s : State) (p : Nat) (bs : List Byte) : State :=
  let t := bs.zipIdx.foldl (fun t e => t.putPod (p + e.2) e.1) s
  { t with llcTags := tabPut t.llcTags (p / 32) none, poison := setDel t.poison (p / 32), latent := setDel t.latent (p / 32) }

/-- An entry of a page table, in the first 32 bytes of its table. -/
def tableEntry (modId off flags : Nat) : List Byte := leBytes 8 (modId * 2 ^ 44 + off + flags) ++ List.replicate 24 0

/-- HBM offsets of the tables and of the page that `withProgram` writes. -/
def rootAt : Nat := 0x10000
def midAt : Nat := 0x20000
def leafAt : Nat := 0x30000
def codeAt : Nat := 0x40000

/-- Context 1 with a root table at `rootAt`, one executable page at virtual address 0, a bundle there, and a task that runs it alone on array
0. Log entry 15: DESIGN CHOICE. -/
def State.withProgram (s : State) (b : Bundle) : State :=
  let id := s.modId.toNat
  let s1 := (((s.place32 rootAt (tableEntry id midAt 1)).place32 midAt (tableEntry id leafAt 1)).place32 leafAt
    (tableEntry id codeAt 0x409)).place32 codeAt (leBytes 32 b.toNat)
  let c := newContext 1 3 0 (id * 2 ^ 44 + rootAt) 256 0 0
  let r := Run.reset 1 s.nextTask [0] 0 0 (BitVec.ofNat 64 argCopy) 0 (benchWord 0 0)
  { s1 with
    arrays := tabPut s1.arrays 0 { ArrayState.reset with lastCtx := 1 },
    dies := s1.dies.set 0 { s1.die 0 with l2 := tabErase (s1.die 0).l2 (codeAt / 64) },
    tlb := s1.tlb.filter (fun e => e.ctx != 1), contexts := c :: s1.contexts.filter (fun x => x.num != 1),
    runs := tabPut (s1.runs.filter (fun e => !e.2.arrays.contains 0)) 0 r, powered := true,
    sched := [{ ticks := 1, head := 0, background := [], event := .bundleIssue }] }

end Sys2Proof.Machine
end

