-- ==== Sys2Proof/Machine/Step.lean ====
section
/-!
DEFINITION. One step of the module: the event of the schedule's next turn, or the event that comes next when no turn is given.
-/

namespace Sys2Proof.Machine

/-- An event happens: to a module without power only a reset (R322). Log entry 3: DESIGN CHOICE. -/
def State.happen (s : State) (e : Instr) : Host.Outcome State Fault Refusal :=
  if s.powered || isReset e then exec e s else .next s

/-- One step. Without a turn and without anything to do, a tick passes. Log entry 1: DESIGN CHOICE. -/
def step (s : State) : Host.Outcome State Fault Refusal :=
  match s.sched with
  | t :: rest => ({ s with sched := rest }.beginTurn t).happen t.event
  | [] =>
    match s.nextEvent with
    | some (head, e) => State.happen { s with ticks := s.ticks + 1, cur := head } e
    | none => .next { s with ticks := s.ticks + 1 }

/-- The state with one instruction of the operation table stored where the next step fetches it. Log entry 15: DESIGN CHOICE. -/
def State.withFetchWord (s : State) (nbits w : Nat) : State := s.withProgram (tableBundle (BitVec.ofNat 32 (w % 2 ^ min nbits 32)))

end Sys2Proof.Machine
end

