-- ==== Sys2Proof/Safety.lean ====
section
/-!
DEFINITION. What counts as a safe run, and the terms in which statements speak: when an instruction may issue, what a step leaves unchanged,
and what the issue of an instruction that stands alone in its bundle does.
-/

namespace Sys2Proof.Machine

/-- A safe outcome: the machine goes on. -/
def Safe (o : Host.Outcome State Fault Refusal) : Prop := ∃ t, o = .next t

/-! ## When an instruction issues (03_wave.md R35, 09_sequencer_isa.md R100 to R104) -/

/-- The current bench may issue the instruction now: its sequencer waits for nothing, the bundle is legal and fits its formats, every
register that it reads is full and not poisoned, and it is not the END of an outer level. -/
def State.ready (s : State) (r : Run) (i : Instr) : Prop :=
  s.run? s.cur = some r ∧ r.head = s.cur ∧ r.mayIssue = true ∧ r.waitEnd = none ∧ r.precvEnd = none
    ∧ wellFormed (ownClass i) i = true ∧ conflicts (alone i) = 0 ∧ r.foldRecords.mismatch (alone i) = false
    ∧ r.foldRecords.endOfOuter = false
    ∧ ∀ x ∈ r.foldRecords.reads (alone i), (r.foldRecords.sreg x.1).full = true ∧ (r.foldRecords.sreg x.1).poison = none

/-- The bundle at the program counter of the current bench holds one instruction and NOPs, and the bundle cache has it. -/
def State.atPc (s : State) (r : Run) (i : Instr) : Prop :=
  s.run? s.cur = some r ∧ r.head = s.cur ∧ slotClasses i ≠ [] ∧ ∃ w, tabFind (s.arr r.head).icache (r.pc.toNat / 32) = some w
    ∧ legal w = .ok (alone i) ∧ slotWord w .cellA = (cellWords i).1 ∧ slotWord w .cellB = (cellWords i).2

/-- An advance of the wave is made: no cell stalls on a face and none faults (R45, R290). -/
def Advance.isMoved : Advance → Bool
  | .moved _ _ => true
  | _ => false

/-- The advance with which the instruction's bundle enters the wave, once its slots have done `d`. -/
def Ctl.enters (d : Ctl) (old : Run) (i : Instr) : Advance :=
  let e := d.issued old (alone i) false
  let f := old.flight (alone i) (cellWords i).1 (cellWords i).2
  e.s.advance (e.entering old f (old.record (alone i))) (some f) false

/-- That advance is made. -/
def Ctl.moves (d : Ctl) (old : Run) (i : Instr) : Bool := (d.enters old i).isMoved

/-- What the slots have done when the sequencer is left as `x` and nothing else is changed. -/
def State.leaving (s : State) (x : Run) : Ctl := s.fresh x

/-! ## What a step leaves unchanged -/

/-- One byte as an agent reads it. -/
def State.byte (s : State) (ag : Agent) (acc : Access) : Option Byte := (s.read ag acc 1).bytes.head?

/-- The key slot under which an access reads and writes (R314). -/
def Access.slot : Access → Option Nat
  | .store _ _ _ => none
  | .mem _ _ _ enc _ => enc

/-- No cache holds the line of an access under another key slot than its own, or an earlier generation of it. (Under another, an access meets a
write-back of the line first, and reads it as ciphertext or poison: R314, R315.) -/
def State.oneSlot (s : State) (w : Access) : Prop :=
  ∀ l, w.line? = some l →
    (∀ a x, tabFind (s.arr a).l1 l = some x → s.fits x w.slot = true) ∧ ∀ d x, tabFind (s.die d).l2 l = some x → s.fits x w.slot = true

/-- Every byte of memory and of the face stores reads as before, for every agent, under the key slot that the caches hold its line under. -/
def SameBytes (s t : State) : Prop := ∀ ag v, s.oneSlot v → t.byte ag v = s.byte ag v

/-- The byte of the access `v` is one of the `n` bytes from that of `w`. -/
def Access.covers (w : Access) (n : Nat) (v : Access) : Bool :=
  match w, v with
  | .store a f _, .store b g _ => a == b && f ≤ g && g < f + n
  | .mem k _ _ _ _, .mem j _ _ _ _ => k ≤ j && j < k + n
  | _, _ => false

/-- Every byte but the `n` bytes from that of `w` reads as before, for every agent; the line of `w` itself, under the key slot of `w`. -/
def SameBytesBut (w : Access) (n : Nat) (s t : State) : Prop :=
  ∀ ag v, s.oneSlot v → (v.line? = w.line? → v.slot = w.slot) → w.covers n v = false → t.byte ag v = s.byte ag v

/-- An access of an agent of an array has no copy to pass by: it goes through the caches, or they hold none of its line (R251, R258). -/
def State.unpassed (s : State) (a : Nat) (w : Access) : Prop :=
  w.cached = true ∨ ∀ l, w.line? = some l → tabFind (s.arr a).l1 l = none ∧ tabFind (s.die (dieOf a)).l2 l = none

/-- Every byte that lies in none of the lines reads as before, for every agent. -/
def SameOutside (lines : List Nat) (s t : State) : Prop :=
  ∀ ag v, s.oneSlot v → (∀ l ∈ lines, v.line? ≠ some l) → t.byte ag v = s.byte ag v

/-- What an access of `n` bytes by an agent of an array may change: those bytes; and in its line also what the copies that it passes by hold for other
agents, which they see once the copies are written back. -/
def SameAround (a : Nat) (w : Access) (n : Nat) (s t : State) : Prop :=
  (s.unpassed a w → SameBytesBut w n s t) ∧ (w.line? ≠ none → SameOutside w.line?.toList s t)

/-- What an advance of the wave of a bench leaves unchanged: everything but the cells, FRONT and faces of the arrays of the bench,
sequencers, the hold counts of the throttle, the queues and translation caches on the way to memory, and what the walks of its pushes bring
into the LLC, where an error that they meet becomes a mark. -/
def Kept (arrays : List Nat) (s t : State) : Prop :=
  { t with
    arrays := s.arrays, runs := s.runs, dies := s.dies, tlb := s.tlb, requests := s.requests, chanCount := s.chanCount,
    llcLines := s.llcLines, poison := s.poison, latent := s.latent } = s
  ∧ (∀ a, a ∉ arrays → t.arr a = s.arr a)
  ∧ (∀ a, { t.arr a with
      cells := (s.arr a).cells, front := (s.arr a).front, west := (s.arr a).west, north := (s.arr a).north,
      east := (s.arr a).east, south := (s.arr a).south } = s.arr a)
  ∧ (∀ d, { t.die d with quads := (s.die d).quads } = s.die d)
  ∧ (∀ d k, { vget (t.die d).quads k Quadrant.reset with made := (vget (s.die d).quads k Quadrant.reset).made }
      = vget (s.die d).quads k Quadrant.reset)

/-- What an advance of the wave changes in its sequencer: only what belongs to the wave. -/
def Waved (x y : Run) : Prop :=
  { y with
    records := x.records, issued := x.issued, flights := x.flights, kept := x.kept, redo := x.redo, mute := x.mute, face := x.face,
    advs := x.advs, docket := x.docket } = x

/-- Sequencers of other benches are unchanged. -/
def OtherRuns (cur : Nat) (s t : State) : Prop := ∀ h, h ≠ cur → t.run? h = s.run? h

/-- A sequencer without what write-backs have reported to it. -/
def Run.unheard (r : Run) : Run := { r with ueStore := [] }

/-- Sequencers of other benches are unchanged, but for errors of write-backs that are reported to them (R126). -/
def OthersHear (cur : Nat) (s t : State) : Prop := ∀ h, h ≠ cur → (t.run? h).map Run.unheard = (s.run? h).map Run.unheard

/-- The sequencer `y` after an issue is `x` but for the program counter, the loop levels, pending changes that fall due, and the wave itself. -/
def Registers (x y : Run) : Prop :=
  { y with
    pc := x.pc, levels := x.levels, depth := x.depth, sbase := x.sbase, fmt := x.fmt, fmtPend := x.fmtPend, srt := x.srt,
    semPend := x.semPend, tag := x.tag, num := x.num, stamp := x.stamp, vadvs := x.vadvs, stall := x.stall, closing := x.closing,
    phase := x.phase, records := x.records, issued := x.issued, flights := x.flights, kept := x.kept, redo := x.redo, mute := x.mute,
    face := x.face, advs := x.advs, docket := x.docket, waitEnd := x.waitEnd, precvEnd := x.precvEnd } = x
  ∧ y.fmt = x.agePending.fmt ∧ y.srt = x.agePending.srt ∧ y.fmtPend = x.agePending.fmtPend ∧ y.semPend = x.agePending.semPend

/-- The sequencer goes on with the next bundle: the program counter moves on by 32, and the loop levels are those of `x`. Where the bundle is
the END of the innermost level, it goes on as the back-edge decision says for a bundle whose slots have left `x` and have transferred no
control (17_loops.md R228). -/
def Onward (old x y : Run) : Prop :=
  (old.atEnd = false → y.pc = old.pc + 32 ∧ y.levels = x.levels ∧ y.depth = x.depth ∧ y.sbase = x.sbase)
  ∧ (old.atEnd = true → ∀ c : Ctl, c.r = x → c.jump = none →
      let d := c.backEdge
      y.pc = BitVec.ofNat 55 (d.jump.getD (old.pc.toNat + 32)) ∧ y.levels = d.r.levels ∧ y.depth = d.r.depth ∧ y.sbase = d.r.sbase)

/-- The sequencer waits for nothing, and no wait of a bundle has ended already (R103, R104). -/
def Run.unheld (r : Run) : Prop := r.stall = none ∧ r.waitEnd = none ∧ r.precvEnd = none

/-- The bundle counts as issued, and the sequencer goes on issuing. -/
def Counted (old y : Run) : Prop := y.num = old.num + 1 ∧ y.phase = .issue ∧ y.unheld

/-- The instruction alone issues: a next state, in which the current sequencer is `x` gone on by one bundle, with what write-backs on the way to
`u` reported to it, and everything outside the wave is as in `u`. -/
def Does (s : State) (i : Instr) (old x : Run) (u : State) : Prop :=
  ∃ t y, exec i s = .next t ∧ t.run? s.cur = some y ∧ Registers (u.hears x) y ∧ Onward old x y ∧ Counted old y
    ∧ Kept old.arrays u t ∧ OtherRuns s.cur u t ∧ SameBytes u t

/-- The instruction alone issues and transfers control to an address. -/
def Goes (s : State) (i : Instr) (old x : Run) (u : State) (target : BitVec 55) : Prop :=
  ∃ t y, exec i s = .next t ∧ t.run? s.cur = some y ∧ Registers (u.hears x) y ∧ y.pc = target
    ∧ y.levels = x.levels ∧ y.depth = x.depth ∧ y.sbase = x.sbase ∧ Counted old y ∧ Kept old.arrays u t ∧ OtherRuns s.cur u t ∧ SameBytes u t

/-- Wherever the instruction is ready and the advance that brings its bundle in is made, it completes: the sequencer becomes `x` gone on by
one bundle, and everything outside the wave `u`. -/
def Completes (s : State) (r : Run) (i : Instr) (x : Run) (u : State) : Prop :=
  s.ready r i → (u.leaving x).moves r.foldRecords i = true → Does s i r.foldRecords x u

/-- Wherever the instruction is ready and the advance that brings its bundle in is made, it transfers control to `target`. -/
def Transfers (s : State) (r : Run) (i : Instr) (x : Run) (target : Nat) : Prop :=
  s.ready r i → ({ s.leaving x with jump := some target } : Ctl).moves r.foldRecords i = true →
    Goes s i r.foldRecords x s (BitVec.ofNat 55 target)

/-- The instruction faults at issue with a cause: its bundle does not issue, and the wave drains for the trap (R102, R288). -/
def Traps (s : State) (i : Instr) (r : Run) (why : TrapInfo) : Prop := exec i s = .next (s.stopIssue r.foldRecords why)

/-- Issue stalls, by the kind of the stall (`Run.stall`): the bundle has not issued, and nothing else than `u` holds has changed. -/
def Stalls (s : State) (r : Run) (i : Instr) (kind : Nat) (u : State) : Prop :=
  s.ready r i → exec i s = .next (u.setRun ((u.hears r.foldRecords).stallFor kind s.ticks))

/-- A wait (R104) whose test leaves `u0`: with its condition met it completes with q = 0, as `x` and `u`; with its timeout run out it completes
with q = 1 and nothing else; otherwise issue stalls. -/
def Waits (s : State) (r : Run) (i : Instr) (kind : Nat) (t : BitVec 6) (q : BitVec 3) (u0 : State) (met : Option (Run × State)) : Prop :=
  let old := r.foldRecords
  let since := match old.stall with | some (0, _) | none => 0 | some (_, n) => s.ticks - n
  match met with
  | some (x, u) => Completes s r i (x.setQ q.toNat false) u
  | none => if (old.x t).toNat ≤ since then Completes s r i (old.setQ q.toNat true) u0 else Stalls s r i kind u0

/-- The instruction alone issues, and with it the run ends in a phase once its wave has left. -/
def Ends (s : State) (i : Instr) (old : Run) (p : Phase) : Prop :=
  ∃ t y, exec i s = .next t ∧ t.run? s.cur = some y ∧ Registers old y ∧ y.num = old.num + 1 ∧ y.phase = p ∧ y.unheld
    ∧ Kept old.arrays s t ∧ OtherRuns s.cur s t ∧ SameBytes s t

/-! ## Cell instructions (03_wave.md R30, R32, 11_cell_isa.md R135) -/

/-- The sequencer with which the bundle of an instruction alone enters the wave, and the bundle at its first advance. -/
def State.entersAs (s : State) (old : Run) (i : Instr) : Run × Flight :=
  let f := old.flight (alone i) (cellWords i).1 (cellWords i).2
  (((s.leaving old).issued old (alone i) false).entering old f (old.record (alone i)), { f with adv := 1 })

/-- The slot of a cell instruction alone: 0 for S2 and 1 for S3. -/
def cellSlotOf (i : Instr) : Nat := if ownClass i == .cellA then 0 else 1

/-- What the instruction alone computes with in a cell, given by array, row and column. -/
def State.cellSees (s : State) (old : Run) (i : Instr) (c : Nat × Nat × Nat) : LaneIn :=
  let e := s.entersAs old i
  e.2.laneIn (s.cellInput e.1 (benchOffsets old.arrays 0) e.2 c.1 c.2.1 c.2.2) c.1 c.2.1 c.2.2 (cellSlotOf i)

/-- The cells that a bundle reaches at its first advance. -/
def Run.firstCells (r : Run) : List (Nat × Nat × Nat) := arrivals (benchOffsets r.arrays 0) r.skew 1

/-- The cell after its step, when the instruction alone does `o` there. -/
def State.cellStepped (s : State) (old : Run) (i : Instr) (c : Nat × Nat × Nat) (o : SlotOut) : Cell :=
  let e := s.entersAs old i
  let none : SlotOut := {}
  (s.cellThen e.1 e.2 c.1 c.2.1 c.2.2).stepped e.2 (e.2.selects c.1 c.2.1 c.2.2) c.1 c.2.1 c.2.2 (old.arrays.length - 1)
    (e.1.executed (benchOffsets old.arrays 0) c.1 c.2.1 c.2.2)
    (if ownClass i == .cellA then o else none) (if ownClass i == .cellA then none else o)

/-- At the advance that a wave makes, a bundle in flight reaches a cell. -/
def Flight.reaches (f : Flight) (arrays : List Nat) (c : Nat × Nat × Nat) : Prop := c ∈ arrivals (benchOffsets arrays 0) f.skew (f.adv + 1)

/-- No bundle of the wave but the one at hand reaches the cell at this advance (R32). -/
def Run.aloneAt (r : Run) (others : List Flight) (c : Nat × Nat × Nat) : Prop :=
  ∀ h ∈ others, r.arrays.Nodup ∧ ¬ h.reaches r.arrays c

/-- The bundle holds the instruction, and a NOP in its other cell slot. -/
def Flight.holds (f : Flight) (i : Instr) : Prop :=
  if ownClass i = .cellA then f.s2 = i ∧ isNopCell f.s3 = true else isNopCell f.s2 = true ∧ f.s3 = i

/-- After an advance of the wave of `s`, that `new` enters with, a state holds what the instruction does in a bundle that was in flight: `out` in
every selected and loop-active cell, of any row and array of the bench, that the bundle alone reaches and that meets `when`. -/
def CellsAfter (s : State) (r : Run) (i : Instr) (when : LaneIn → Prop) (out : LaneIn → SlotOut) (new : Option Flight) (t : State) : Prop :=
  let offs := benchOffsets r.arrays 0
  let none : SlotOut := {}
  ∀ before f after, r.flights = before ++ f :: after → f.holds i →
    let g := { f with adv := f.adv + 1 }
    ∀ m k j, f.reaches r.arrays (m, k, j) → r.aloneAt (before ++ after ++ (new.map (fun n => { n with adv := 0 })).toList) (m, k, j) →
      s.runsIn r g m k j = true →
      let x := g.laneIn (s.cellInput r offs g m k j) m k j (cellSlotOf i)
      when x → t.cellAt r m k j = (s.cellThen r g m k j).stepped g (g.selects m k j) m k j (r.arrays.length - 1) (r.executed offs m k j)
        (if ownClass i == .cellA then out x else none) (if ownClass i == .cellA then none else out x)

/-- The instruction in a bundle in flight does `out` at every advance of the wave that is made, whatever enters with it; and a blank advance and a
drain advance make one, after which the return of an RFT may follow (R296). -/
def CellsGoOn (s : State) (r : Run) (i : Instr) (when : LaneIn → Prop) (out : LaneIn → SlotOut) : Prop :=
  r.arrays.Nodup →
    (∀ new blank t y, s.advance r new blank = .moved t y → CellsAfter s r i when out new t)
    ∧ (s.run? s.cur = some r → ∀ p ∈ [(Instr.blankAdvance, r.owesBlank, true), (.drainAdvance, r.drains, false)],
        p.2.1 = true → (s.advance r none p.2.2).isMoved = true → ∃ t u x, exec p.1 s = .next t ∧ t = u.returned x ∧ x.phase = r.phase
          ∧ CellsAfter s r i when out none u ∧ ((∀ pc, r.phase ≠ .returning pc) → CellsAfter s r i when out none t))

/-- The instruction alone completes, and does `out` in every selected and loop-active cell of its first advance that meets `when` and that no
earlier bundle reaches then; and so it does in flight, at every later advance (`CellsGoOn`). -/
def CellsDo (s : State) (r : Run) (i : Instr) (when : LaneIn → Prop) (out : LaneIn → SlotOut) : Prop :=
  let old := r.foldRecords
  let e := s.entersAs old i
  (s.ready r i → (s.leaving old).moves old i = true →
    ∃ t, exec i s = .next t ∧ ∀ c ∈ old.firstCells, old.aloneAt old.flights c → s.runsIn e.1 e.2 c.1 c.2.1 c.2.2 = true →
      when (s.cellSees old i c) → t.cellAt old c.1 c.2.1 c.2.2 = s.cellStepped old i c (out (s.cellSees old i c)))
  ∧ CellsGoOn s r i when out

/-- The instruction executes in the cell with valid inputs: its guard holds, no place that it reads carries an uncorrectable error, and every
word that it tests is valid (R135 rows 3 to 5, R136). -/
def LaneIn.live (x : LaneIn) (i : Instr) : Prop :=
  x.inp.guard (cellGuard i) = true ∧ x.readsUe i = false ∧ ∀ c ∈ cellSrcs i, (x.inp.word c).v = true

/-- A word result that lands after `lat` steps, valid, with the raises of its rounding. -/
def LaneIn.gives (x : LaneIn) (d : BitVec 6) (lat : Nat) (v : Word) (raises : XFlags) : SlotOut :=
  { lat := lat, lands := [.word (x.inp.place d.toNat) (some v) true], pushes := true, raises := raises }

/-- A predicate result with its contribution to the flags. -/
def LaneIn.decides (x : LaneIn) (p : BitVec 4) (b : Bool) (raises : XFlags) : SlotOut :=
  { lands := [.pred (pPhys x.inp.cell.pbase p.toNat) b], contrib := some b, raises := raises }

/-- Every selected cell of the first advance meets `why`: no stream withholds the advance, and it is withdrawn with the cause at the first
such cell; no cell commits (R138, R290). -/
def CellsFault (s : State) (r : Run) (i : Instr) (why : LaneIn → Prop) (cause : Nat) : Prop :=
  let old := r.foldRecords
  let e := s.entersAs old i
  s.ready r i → old.flights = [] → (∀ info, (s.leaving old).enters old i ≠ .stalled info) →
    (∃ c ∈ old.firstCells, s.runsIn e.1 e.2 c.1 c.2.1 c.2.2 = true) →
    (∀ c ∈ old.firstCells, takeFault c.1 c.2.1 c.2.2 [] (s.cellTakes e.1 (benchOffsets old.arrays 0) e.2 c.1 c.2.1 c.2.2 0
        ++ s.cellTakes e.1 (benchOffsets old.arrays 0) e.2 c.1 c.2.1 c.2.2 1) = none
      ∧ (s.cellAt old c.1 c.2.1 c.2.2).latches = []
      ∧ (s.runsIn e.1 e.2 c.1 c.2.1 c.2.2 = true → why (s.cellSees old i c))) →
    ∃ t y w, exec i s = .next t ∧ t.run? s.cur = some y ∧ y.phase = .drain w ∧ w.cause = BitVec.ofNat 9 cause ∧ w.atCell = true
      ∧ w.cellRow = 0 ∧ y.redo = true ∧ (∀ m k j, t.cellAt old m k j = s.cellAt old m k j) ∧ SameBytes s t

/-! ## Face commands (13_faces_engines.md R161, R173, R179) -/

/-- The state with a change made in the faces of a side that a command acts on. -/
def State.withFaces (s : State) (old : Run) (side : Nat) (f : Face → Face) : State :=
  (old.facesOf side).foldl (fun s a => s.setFace a side (f (s.face a side))) s

/-- The instruction alone, from a state `s1` that its own reads have left, completes and changes the faces of a side that it acts on, and no other
face; the wave, when it is empty and nothing lands, takes and pushes nothing, and only drops from the logs what no later bundle can see. -/
def FacesDo (s s1 : State) (r : Run) (i : Instr) (side : Nat) (f : Face → Face) : Prop :=
  let old := r.foldRecords
  let u := s1.withFaces old side f
  Completes s r i old u
  ∧ (old.arrays.Nodup → ∀ a k, k < 4 → u.face a k = if a ∈ old.facesOf side ∧ k = side then f (s1.face a k) else s1.face a k)
  ∧ (old.arrays.Nodup → s.ready r i → (u.leaving old).moves old i = true → old.flights = [] → (∀ c ∈ old.firstCells, (s.cellAt old c.1 c.2.1 c.2.2).latches = []) →
      ∃ t y, exec i s = .next t ∧ t.run? s.cur = some y ∧ ∀ a ∈ old.arrays, ∀ k, k < 4 → t.face a k = (u.face a k).prune (t.oldestStamp y))

/-! ## Invariants of every step -/

/-- The memories have their canonical form, those of images among them. -/
def State.sound (s : State) : Prop :=
  Memory.wf s = true ∧ ∀ t ∈ s.tasks, ∀ im, t.image = some im → ∀ x ∈ im.arrays, tabWf 0 x.store = true

/-- Every running task is held under its head array, and no head holds two. -/
def State.keyed (s : State) : Prop := tabSorted s.runs = true ∧ ∀ e ∈ s.runs, e.2.head = e.1

end Sys2Proof.Machine
end

