-- ==== Sys2Proof/Certificates/Slice0/Obligations.lean ====
section
/-!
DEFINITION. The statements of this model, for the provers. Each says in its docstring which rules of the specification it formalises; what rests
on a choice of the model names its log entry.
-/

open Sys2Proof Sys2Proof.Machine

/-! ## The scalar slot -/

/-- 09_sequencer_isa.md R124: what each Register and Immediate format instruction of S1 writes to its destination, a write to s0 being discarded
(`Run.setS`), and that it changes nothing else: no q register, no flag, no special register, no byte of memory. -/
def Obligations.ScalarArithmeticWritesResult : Prop :=
  ∀ (s : State) (r : Run) (g : QGuard) (d a b i6 : BitVec 6) (h : BitVec 2) (y x : Bool) (i : BitVec 16),
    let old := r.foldRecords
    let A := old.x a
    let B := old.x b
    let D := old.x d
    old.guard g = true →
    ∀ p ∈ [
      (Instr.add g d a b y x, A + B),
      (.sub g d a b y x, A - B),
      (.addi g d i, D + i.signExtend 64),
      (.mul g d a b y x, A * B),
      (.mulh g d a b y x, BitVec.ofInt 64 (A.toInt * B.toInt / 2 ^ 64)),
      (.mulhu g d a b y x, BitVec.ofNat 64 (A.toNat * B.toNat / 2 ^ 64)),
      (.and g d a b y x, A &&& B),
      (.or g d a b y x, A ||| B),
      (.xor g d a b y x, A ^^^ B),
      (.andi g d i, D &&& i.zeroExtend 64),
      (.ori g d i, D ||| i.zeroExtend 64),
      (.xori g d i, D ^^^ i.zeroExtend 64),
      (.shl g d a b y x, A <<< (B.toNat % 64)),
      (.shr g d a b y x, A >>> (B.toNat % 64)),
      (.sra g d a b y x, A.sshiftRight (B.toNat % 64)),
      (.shli g d i6, D <<< i6.toNat),
      (.shri g d i6, D >>> i6.toNat),
      (.srai g d i6, D.sshiftRight i6.toNat),
      (.min g d a b y x, if B.toInt < A.toInt then B else A),
      (.max g d a b y x, if A.toInt < B.toInt then B else A),
      (.minu g d a b y x, if B.toNat < A.toNat then B else A),
      (.maxu g d a b y x, if A.toNat < B.toNat then B else A),
      (.li g d i, i.signExtend 64),
      (.lui g d i, D.extractLsb' 0 48 ++ i),
      (.movScalar g d a x, A),
      (.clz g d a x, BitVec.ofNat 64 (leadingZeros A)),
      (.popc g d a x, BitVec.ofNat 64 (popCount A)),
      (.lea g d a b h y x, A + B <<< (if h = 0 then 0 else if h = 1 then 2 else if h = 2 then 3 else 5))],
    Completes s r p.1 (old.setS d.toNat p.2) s

/-- 09_sequencer_isa.md R124: the divisions. B = 0 raises DIV.ZERO, and the bundle does not issue. 09_sequencer_isa.md R125: CMP and CMPI write 1 to
their q register when the condition holds and 0 otherwise, and change nothing else; a write to q0 is discarded (`Run.setQ`). 05_encoding.md R53,
09_sequencer_isa.md R101: SEL of S1 writes a where its guard holds and b where it does not. -/
def Obligations.DivisionsComparesAndSelects : Prop :=
  (∀ (s : State) (r : Run) (g : QGuard) (d a b : BitVec 6) (y x : Bool),
      let old := r.foldRecords
      let A := old.x a
      let B := old.x b
      old.guard g = true →
      ∀ p ∈ [
        (Instr.div g d a b y x, BitVec.ofInt 64 (A.toInt.tdiv B.toInt)),
        (.divu g d a b y x, BitVec.ofNat 64 (A.toNat / B.toNat)),
        (.rem g d a b y x, BitVec.ofInt 64 (A.toInt - B.toInt * A.toInt.tdiv B.toInt)),
        (.remu g d a b y x, BitVec.ofNat 64 (A.toNat % B.toNat))],
      (B ≠ 0 → Completes s r p.1 (old.setS d.toNat p.2) s)
        ∧ (B = 0 → s.ready r p.1 → Traps s p.1 r (issueFault 0x003 0)))
  ∧ (∀ (s : State) (r : Run) (g : QGuard) (c q : BitVec 3) (a b : BitVec 6) (i : BitVec 10) (y x : Bool),
      let old := r.foldRecords
      let holds (A B : DWord) : Bool :=
        [A == B, A != B, decide (A.toInt < B.toInt), decide (B.toInt ≤ A.toInt), decide (A.toNat < B.toNat), decide (B.toNat ≤ A.toNat),
         A &&& B != 0, A &&& B == 0].getD c.toNat false
      old.guard g = true →
        Completes s r (.cmp g c q a b y x) (old.setQ q.toNat (holds (old.x a) (old.x b))) s
        ∧ Completes s r (.cmpi g c q a i) (old.setQ q.toNat (holds (old.x a) (i.signExtend 64))) s)
  ∧ (∀ (s : State) (r : Run) (g : QGuard) (d a b : BitVec 6) (y x : Bool),
      let old := r.foldRecords
      Completes s r (.selScalar g d a b y x) (old.setS d.toNat (if old.guard g then old.x a else old.x b)) s)

/-! ## Scalar memory access -/

/-- 09_sequencer_isa.md R126: LD. The address is S[base] + SignExtend(off8) × (1 << size), a multiple of the size; the bytes that it reads, zero
extended, are delivered to the destination (LoadDelivery), and no byte of memory changes. 01_machine.md R22, 09_sequencer_isa.md R126, 23_traps.md
R287: how a load delivers to a register. From the scratchpad or L1 the register takes the value at once; from farther it is marked empty until the
data arrives, and the outstanding load names it; poisoned data marks it. A load to s0 is discarded. 19_memory.md R264: LDLAST delivers as LD does,
and a cached line leaves L1 and L2 without its dirty bytes. No other line changes. 09_sequencer_isa.md R126: PREF raises no fault, writes no
register and changes no byte: it completes whether or not its address translates. The model's choices: a load that comes from farther delivers the
value that stood there at its issue, and one from a face store counts as near (log entry 58); PREF of an address that is no multiple of its size
brings its line (log entry 44). -/
def Obligations.LoadsReadTheirBytes : Prop :=
  (∀ (s s1 : State) (r : Run) (g : QGuard) (d b : BitVec 6) (o : BitVec 8) (z : BitVec 2) (acc : Access),
      let old := r.foldRecords
      let va := (old.x b + o.signExtend 64 <<< z.toNat).toNat % 2 ^ 55
      let out := s1.read old.agent acc (2 ^ z.toNat)
      old.guard g = true → va % 2 ^ z.toNat = 0 → s.translate (.seq old.head) old.die old.ctx old.arrays va .read = (.ok acc, s1) →
        Completes s r (.ld g d b o z) (old.loadTo d acc (BitVec.ofNat 64 (leNat out.bytes)) out.poison out.near) out.st
        ∧ SameAround old.head acc 0 s out.st)
  ∧ (∀ (old : Run) (d : BitVec 6) (acc : Access) (v : DWord) (p : Option Poison) (near : Bool),
      let y := old.loadTo d acc v p near
      (d = 0 → y = old)
      ∧ (d ≠ 0 → old.sPhys d.toNat < 64 →
        (near = true → p = none → y.sreg d.toNat = ⟨v, true, none⟩ ∧ y = old.setS d.toNat v)
        ∧ (∀ e, near = true → p = some e → (y.sreg d.toNat).full = false ∧ (y.sreg d.toNat).poison = some e)
        ∧ (near = false → (y.sreg d.toNat).full = false ∧ (y.sreg d.toNat).poison = none
            ∧ y.loads.getLast? = some ⟨some (old.sPhys d.toNat), acc, v, p, old.trap.active⟩)
        ∧ (∀ n : Nat, n < 64 → n ≠ 0 → old.sPhys n ≠ old.sPhys d.toNat → y.sreg n = old.sreg n)))
  ∧ (∀ (s s1 : State) (r : Run) (g : QGuard) (d b : BitVec 6) (o : BitVec 8) (z : BitVec 2) (acc : Access),
      let old := r.foldRecords
      let va := (old.x b + o.signExtend 64 <<< z.toNat).toNat % 2 ^ 55
      let out := s1.read old.agent acc (2 ^ z.toNat)
      let x := old.loadTo d acc (BitVec.ofNat 64 (leNat out.bytes)) out.poison out.near
      old.guard g = true → va % 2 ^ z.toNat = 0 → s.translate (.seq old.head) old.die old.ctx old.arrays va .read = (.ok acc, s1) →
        (∀ l, acc.line? = some l → acc.cached = true →
          let u := out.st.discardLine old.head l
          Completes s r (.ldlast g d b o z) x u ∧ tabFind (u.arr old.head).l1 l = none ∧ tabFind (u.die (dieOf old.head)).l2 l = none
            ∧ (s.oneSlot acc → u.mem = s.mem ∧ u.llc = s.llc) ∧ SameOutside [l] s u)
        ∧ (acc.cached = false → Completes s r (.ldlast g d b o z) x out.st ∧ SameAround old.head acc 0 s out.st))
  ∧ (∀ (s : State) (r : Run) (g : QGuard) (h b : BitVec 6) (o : BitVec 8) (z : BitVec 2),
      let old := r.foldRecords
      let va := (old.x b + o.signExtend 64 <<< z.toNat).toNat % 2 ^ 55
      let t := s.translate (.seq old.head) old.die old.ctx old.arrays va .read
      old.guard g = true →
        (∀ e, t.1 = .error e → Completes s r (.pref g h b o z) old t.2)
        ∧ (∀ a f e, t.1 = .ok (.store a f e) → Completes s r (.pref g h b o z) old t.2)
        ∧ (∀ key ord cache enc cmp, t.1 = .ok (.mem key ord cache enc cmp) →
            let u := if (Access.mem key ord cache enc cmp).cached = false then t.2
              else if h = 0 then (t.2.withL1 old.head enc (key / 64) 3 (whoSeq old.head)).2
              else if h = 1 then (t.2.withL2 (dieOf old.head) enc (key / 64) 3 (whoSeq old.head)).2
              else t.2.podTouch enc (key / 64) 3 (whoSeq old.head)
            Completes s r (.pref g h b o z) old u ∧ SameBytesBut (.mem key ord cache enc cmp) 0 s u))

/-- 09_sequencer_isa.md R126, 19_memory.md R243, R256, 25_device.md R315: ST. The low bytes of the register are written at the address, and read back
there. In place of merging into a granule with an uncorrectable error, the granule is poisoned and MEM.UE.STORE is pending. A store under a dead key
is discarded. Where a REL waits, a store to an RC or SO page, or to the bench window, is its synchronising write: the line is made visible at the
point of the scope, its place carries the frank, and the REL waits no longer. No other byte changes. The model's choice: franks are exact lists of
lines, kept by place (log entry 19). -/
def Obligations.StoreWritesItsBytes : Prop :=
  ∀ (s s1 : State) (r : Run) (g : QGuard) (d b : BitVec 6) (o : BitVec 8) (z : BitVec 2) (acc : Access),
    let old := r.foldRecords
    let n := 2 ^ z.toNat
    let va := (old.x b + o.signExtend 64 <<< z.toNat).toNat % 2 ^ 55
    let w := s1.write old.agent acc (leBytes n (old.x d).toNat)
    let x := match w.2, acc.line? with
      | some _, _ => { old with ueStore := old.ueStore ++ [va / 32 * 32] }
      | none, some l => { old with wrote := wroteAdd old.wrote l }
      | none, none => old
    let u := if w.2.isSome then w.1.mark acc else w.1.own old.head acc ⟨whoSeq old.head, old.task, va / 64 * 64⟩
    let readsBack (t : State) : Prop :=
      w.2 = none → s.keyGone acc.slot = false →
        ∀ k, k < n → t.byte old.agent (acc.plus k) = some ((old.x d).extractLsb' (8 * k) 8)
    old.guard g = true → va % n = 0 → s.translate (.seq old.head) old.die old.ctx old.arrays va .write = (.ok acc, s1) →
      SameAround old.head acc n s u ∧ readsBack u ∧ (w.2.isSome = true → SameAround old.head acc 0 s u)
      ∧ (s.keyGone acc.slot = true → w = (s1, none))
      ∧ (old.rel = none ∨ acc.syncs = false → Completes s r (.st g d b o z) x u)
      ∧ (∀ sc, old.rel = some sc → acc.syncs = true →
          let v := (match acc.line? with | some l => u.cleanBelow old.head sc l | none => u).attach acc.place old.relFrank
          Completes s r (.st g d b o z) { x with rel := none, relFrank := [] } v ∧ readsBack v
            ∧ ∀ ag c, s.oneSlot c → (∀ l, acc.line? = some l → c.line? ≠ some l) → acc.covers n c = false → v.byte ag c = s.byte ag c)

/-- 09_sequencer_isa.md R126, 19_memory.md R243, R257, 20_memory_notes.md R266: LDA reads at the point of ORDCTL.LSCOPE, after the copies of its line
below that point have gone, and acquires the frank of its place, in memory or in a face store. No line but these changes. 09_sequencer_isa.md R126,
19_memory.md R256, R260: STL. Every line that the agent wrote and has not released at the scope is written back below its point, stale copies leave
the bench's other arrays of the scope, the bytes are stored and read back, and the place of the store carries the frank, unless the page is of kind
UO; a waiting REL is served by a store to any other page. No other byte changes. The model's choices: LDA delivers the value that stood there at
its issue, and from a face store at once (log entry 58); franks are exact lists of lines, kept by place (log entry 19). -/
def Obligations.ScopedAccessesReachTheirPoint : Prop :=
  (∀ (s s1 : State) (r : Run) (g : QGuard) (d b : BitVec 6) (o : BitVec 8) (z : Bool) (acc : Access),
      let old := r.foldRecords
      let n := if z then 8 else 4
      let va := (old.x b + o.signExtend 64 <<< (if z then 3 else 2)).toNat % 2 ^ 55
      let sc := old.lscope.toNat
      let out := (match acc.line? with | some l => s1.dropBelow old.head sc l | none => s1).read old.agent acc n
      let frank := out.st.frankOf acc.place
      let u := out.st.acquireLines old.head sc frank
      let x := { old with wrote := frank.foldl wroteAdd old.wrote }
      old.guard g = true → va % n = 0 → s.translate (.seq old.head) old.die old.ctx old.arrays va .read = (.ok acc, s1) →
        Completes s r (.lda g d b o z) (x.loadTo d acc (BitVec.ofNat 64 (leNat out.bytes)) out.poison out.near) u
          ∧ SameOutside (acc.line?.toList ++ frank) s u)
  ∧ (∀ (s s1 : State) (r : Run) (g : QGuard) (d b : BitVec 6) (o : BitVec 8) (z : Bool) (acc : Access),
      let old := r.foldRecords
      let n := if z then 8 else 4
      let va := (old.x b + o.signExtend 64 <<< (if z then 3 else 2)).toNat % 2 ^ 55
      let sc := if acc.syncs then max old.lscope.toNat (old.rel.getD 0) else old.lscope.toNat
      let lines := wroteAt old.wrote sc
      let frank := setUnion lines old.relFrank
      let s2 := (s1.releaseLines old.head sc lines).forkLines old.head old.arrays sc frank
      let w := s2.write old.agent acc (leBytes n (old.x d).toNat)
      let x := { old with
        wrote := wroteClear old.wrote sc, rel := if acc.syncs then none else old.rel, relFrank := if acc.syncs then [] else old.relFrank }
      let y := match w.2, acc.line? with
        | some _, _ => { x with ueStore := old.ueStore ++ [va / 32 * 32] }
        | none, some l => { x with wrote := wroteAdd x.wrote l }
        | none, none => x
      let u := if w.2.isSome then w.1.mark acc else w.1.own old.head acc ⟨whoSeq old.head, old.task, va / 64 * 64⟩
      let u1 := match acc.line? with | some l => u.cleanBelow old.head sc l | none => u
      let v := if acc.syncs then u1.attach acc.place frank else u1
      old.guard g = true → va % n = 0 → s.translate (.seq old.head) old.die old.ctx old.arrays va .write = (.ok acc, s1) →
        Completes s r (.stl g d b o z) y v
        ∧ (w.2 = none → s.keyGone acc.slot = false → ∀ k, k < n → v.byte old.agent (acc.plus k) = some ((old.x d).extractLsb' (8 * k) 8))
        ∧ ∀ ag c, s.oneSlot c → (∀ l ∈ acc.line?.toList ++ frank, c.line? ≠ some l) → acc.covers n c = false → v.byte ag c = s.byte ag c)

/-- 09_sequencer_isa.md R127, 19_memory.md R263: the atomics. The old word, zero-extended, is delivered as a load's data, and the new word is written,
both at the .pod point (on the scratchpad for a face store address), with the agent's own copies of the line written back first; the new word reads
back. When the read meets an uncorrectable error, nothing is written. An atomic serves a waiting REL as ST does. No other byte changes. The model's
choices: the old word is that of the issue, delivered at once from a face store (log entry 58); franks are exact lists of lines (log entry 19). -/
def Obligations.AtomicsReadThenWrite : Prop :=
  ∀ (s s1 : State) (r : Run) (g : QGuard) (d a b : BitVec 6) (w y x : Bool) (acc : Access),
    let old := r.foldRecords
    let n := if w then 8 else 4
    let va := (old.x a).toNat % 2 ^ 55
    let B := old.x b
    let si (v : DWord) : Int := if w then v.toInt else (v.setWidth 32).toInt
    let f := if w then fp64 else fp32
    let point := match acc with | .store e o k => Access.store e o k | .mem key _ _ enc cmp => .mem key 1 false enc cmp
    let s2 := match acc with | .store _ _ _ => s1 | .mem key _ _ _ _ => s1.dropBelow old.head 4 (key / 64)
    let out := s2.read old.agent point n
    let m := BitVec.ofNat 64 (leNat out.bytes)
    old.guard g = true → va % n = 0 → s.translate (.seq old.head) old.die old.ctx old.arrays va .both = (.ok acc, s1) →
    ∀ p ∈ [
      (Instr.aadd g d a b w y x, m + B),
      (.amin g d a b w y x, if si B < si m then B else m),
      (.amax g d a b w y x, if si m < si B then B else m),
      (.aand g d a b w y x, m &&& B),
      (.aor g d a b w y x, m ||| B),
      (.axor g d a b w y x, m ^^^ B),
      (.aswap g d a b w y x, B),
      (.acas g d a b w y x, if m = (if w then old.x d else (old.x d).setWidth 32 |>.setWidth 64) then B else m),
      (.afadd g d a b w y x,
        BitVec.ofNat 64 (f.round roundPlain ((f.read (m.toNat % 2 ^ (8 * n))).add false (f.read (B.toNat % 2 ^ (8 * n)))).1).1)],
    let good := out.poison = none
    let u := if out.poison.isSome then out.st else (out.st.write old.agent point (leBytes n p.2.toNat)).1
    let z := if out.poison.isSome then old else match acc.line? with | some l => { old with wrote := wroteAdd old.wrote l } | none => old
    let readsBack (t : State) : Prop := good → ∀ k, k < n → t.byte old.agent (acc.plus k) = some (p.2.extractLsb' (8 * k) 8)
    readsBack u ∧ SameBytesBut point n out.st u
    ∧ (match acc with | .store _ _ _ => SameBytesBut acc n s u | .mem key _ _ _ _ => SameOutside [key / 64] s u)
    ∧ (old.rel = none ∨ acc.syncs = false ∨ ¬good → Completes s r p.1 (z.loadTo d acc m out.poison out.near) u)
    ∧ (∀ sc, old.rel = some sc → acc.syncs = true → good →
        let v := (match acc.line? with | some l => u.cleanBelow old.head sc l | none => u).attach acc.place old.relFrank
        Completes s r p.1 ({ z with rel := none, relFrank := [] }.loadTo d acc m out.poison out.near) v ∧ readsBack v
          ∧ ∀ ag c, s.oneSlot c → (∀ l, acc.line? = some l → c.line? ≠ some l) → acc.covers n c = false → v.byte ag c = s.byte ag c)

/-- 09_sequencer_isa.md R126, R127, 19_memory.md R249: a scalar access whose address is not a multiple of its size raises ALIGN, and one that does not
translate raises the cause of its translation, each with the address; the bundle does not issue. 09_sequencer_isa.md R112, R116, R117,
13_faces_engines.md R162: the same holds of the receipt of WAITR (16 bytes, to read) and FDFLUSH (16 bytes, to write), of the 8 bytes of ACQ and
ACQ.W, of the 128-byte descriptor of LAUNCH, and of the 64-byte ones of FIQB, FDCFG and FDCHAIN. -/
def Obligations.ScalarAccessFaults : Prop :=
  ∀ (s : State) (r : Run) (g : QGuard) (d a b t : BitVec 6) (o : BitVec 8) (z : BitVec 2) (w y x : Bool) (q sc : BitVec 3),
    let old := r.foldRecords
    let at' (k : Nat) : Nat := (old.x b + o.signExtend 64 <<< k).toNat % 2 ^ 55
    let k := if w then 3 else 2
    let at64 (i : Instr) (n : Nat) (need : Need) : Instr × Nat × Nat × Need := (i, (old.x a).toNat % 2 ^ 55, n, need)
    let whole (i : Instr) : Instr × Nat × Nat × Need := at64 i (2 ^ k) .both
    old.guard g = true →
    ∀ p ∈ [
      (Instr.ld g d b o z, at' z.toNat, 2 ^ z.toNat, Need.read), (.st g d b o z, at' z.toNat, 2 ^ z.toNat, .write),
      (.ldlast g d b o z, at' z.toNat, 2 ^ z.toNat, .read), (.lda g d b o w, at' k, 2 ^ k, .read), (.stl g d b o w, at' k, 2 ^ k, .write),
      whole (.aadd g d a b w y x), whole (.amin g d a b w y x), whole (.amax g d a b w y x), whole (.aand g d a b w y x),
      whole (.aor g d a b w y x), whole (.axor g d a b w y x), whole (.aswap g d a b w y x), whole (.acas g d a b w y x),
      whole (.afadd g d a b w y x), at64 (.waitr g a t q) 16 .read, at64 (.acq g sc a) 8 .read, at64 (.acqW g sc a t q) 8 .read,
      at64 (.launch g a) 128 .read, at64 (.fiqb g a t w y) 64 .read, at64 (.fdcfg g a w) 64 .read, at64 (.fdchain g a w) 64 .read,
      at64 (.fdflush g a w) 16 .write],
    s.ready r p.1 →
      (p.2.1 % p.2.2.1 ≠ 0 → Traps s p.1 r (issueFault 0x002 p.2.1))
      ∧ (p.2.1 % p.2.2.1 = 0 → ∀ e, (s.translate (.seq old.head) old.die old.ctx old.arrays p.2.1 p.2.2.2).1 = .error e →
          Traps s p.1 r (issueFault (if e = xUe then 0x1D1 else e) p.2.1))

/-! ## Nullification and the registers of the sequencer -/

/-- 05_encoding.md R52, R53, 09_sequencer_isa.md R101: a NOP, and a slot of S0, S1, S5, S6 or S7 whose guard is false (SEL of S1 apart), read no
register and change nothing: the sequencer only goes on. -/
def Obligations.NullifiedSlotsChangeNothing : Prop :=
  ∀ (s : State) (r : Run) (i : Instr) (g : QGuard),
    ownClass i ∉ [SlotClass.cellA, .cellB, .selector] → isSelScalar i = false →
    (i = .nopControl g ∨ i = .nopScalar g ∨ i = .nopInject g ∨ i = .nopDrain g ∨ i = .nopEngine g
      ∨ (r.foldRecords.guard (seqGuard i) = false ∧ slotClasses i ≠ [])) →
    Completes s r i r.foldRecords s

/-- 01_machine.md R21, R22: the hard-wired registers. s0 reads 0 and is always full, q0 reads 1, msk0 reads all ones, and a write to one of them
changes nothing. 01_machine.md R22, 17_loops.md R232: a write to an s register is read back, full and without a mark, and leaves every register of
another place as it was; the data of a load that is outstanding to it will be discarded. 17_loops.md R232: in a rotating region of s registers,
the registers of different names are different, and a rotation by one moves each name to the register before. -/
def Obligations.ScalarRegistersReadBack : Prop :=
  (∀ (r : Run) (v : DWord) (b : Bool) (m : Word),
      r.sval 0 = 0 ∧ (r.sreg 0).full = true ∧ r.qval 0 = true ∧ r.mask 0 = 0xFFFFFFFF
      ∧ r.setS 0 v = r ∧ r.setQ 0 b = r ∧ r.setMask 0 m = r)
  ∧ (∀ (r : Run) (n m : Nat) (v : DWord), n ≠ 0 → r.sPhys n < 64 →
      (r.setS n v).sreg n = ⟨v, true, none⟩
      ∧ (m ≠ 0 → r.sPhys m ≠ r.sPhys n → (r.setS n v).sreg m = r.sreg m)
      ∧ (∀ l ∈ (r.setS n v).loads, l.dst ≠ some (r.sPhys n))
      ∧ (r.setS n v).q = r.q ∧ (r.setS n v).flags = r.flags ∧ (r.setS n v).pc = r.pc ∧ (r.setS n v).msk = r.msk)
  ∧ (∀ (r : Run) (n m : Nat), n < 64 → m < 64 → r.rs ≤ 64 →
      (r.sPhys n = r.sPhys m → n = m) ∧ r.sPhys n < 64 ∧ (n < 64 - r.rs → r.sPhys n = n)
      ∧ (∀ k, n = 64 - r.rs + k → k < r.rs → r.sPhys n = 64 - r.rs + (k + r.sbase) % r.rs))

/-- 09_sequencer_isa.md R121, R132, R133, 23_traps.md R294: what SYSRD reads of each register. TROW shows the row that TRSEL selects: its FRONT, its
bases, the latches that it holds, and whether the reported fault lies in it. The model's choices for TROW (log entry 50): GBASE and PBASE are those
of column 0 of the row, and for an array that the bench lacks it reads 0. -/
def Obligations.SystemRegisterReads : Prop :=
  ∀ (s : State) (r : Run) (g : QGuard) (d : BitVec 6) (k : Nat),
    let old := r.foldRecords
    let f := old.flags
    let q := vget (s.die (dieOf old.head)).quads (old.head % 16 / 4) Quadrant.reset
    let lv := vget old.levels k Level.reset
    let w := old.trap.info
    let m := old.trap.trselArr
    let i := old.trap.trselRow
    let row : DWord := match old.arrays[m.toNat]? with
      | none => 0
      | some a =>
        let c := s.cellAt old m.toNat i.toNat 0
        let held := ((List.range 32).map (fun j => ((s.cellAt old m.toNat i.toNat j).latches.filter (fun l => !l.handler)).length)).sum
        BitVec.ofBool (w.atCell && w.cellArr == m && w.cellRow == i) ++ (0 : BitVec 6) ++ BitVec.ofNat 9 held ++ (0 : BitVec 5)
          ++ BitVec.ofNat 3 c.pbase ++ (0 : BitVec 3) ++ BitVec.ofNat 5 c.gbase ++ tabGet 0 (s.arr a).front i.toNat
    old.guard g = true → k < 16 →
    ∀ p ∈ [
      (0x000, old.fmt.setWidth 64),
      (0x001, old.xflags.setWidth 64),
      (0x002, old.rndseed),
      (0x003, old.stallTmo.setWidth 64),
      (0x004, (old.feq ++ old.fetmo).setWidth 64),
      (0x005, old.lscope.setWidth 64),
      (0x006, old.barn.setWidth 64),
      (0x007, BitVec.ofNat 64 (2 * f.any.toNat + f.all.toNat)),
      (0x008, f.rowAnd ++ f.rowOr),
      (0x010, BitVec.ofNat 64 old.ctx),
      (0x011, old.bench),
      (0x020 + k, vget old.cstk k 0),
      (0x030, BitVec.ofNat 64 old.csp),
      (0x050, BitVec.ofNat 64 old.depth),
      (0x060, q.thresh.setWidth 64),
      (0x061, q.stretch.setWidth 64),
      (0x062, q.hold.setWidth 64),
      (0x063, q.count.setWidth 64),
      (0x100, old.trap.tvec),
      (0x101, old.trap.tfp),
      (0x102, (w.smask ++ w.ucode ++ (0 : BitVec 4) ++ BitVec.ofBool old.trap.active ++ BitVec.ofBool old.trap.cap ++ BitVec.ofBool w.async
        ++ BitVec.ofBool old.intr ++ (0 : BitVec 7) ++ w.cause : BitVec 40).setWidth 64),
      (0x103, old.trap.tpc),
      (0x104, w.addr.setWidth 64),
      (0x105, (w.cellArr ++ (0 : BitVec 3) ++ w.cellRow ++ BitVec.ofBool w.cellSlot ++ (0 : BitVec 2) ++ w.cellCol : BitVec 19).setWidth 64),
      (0x106, (w.laneFace ++ w.lanes : BitVec 34).setWidth 64),
      (0x107, old.trap.tbun),
      (0x108, (old.trap.trselArr ++ (0 : BitVec 3) ++ old.trap.trselRow : BitVec 11).setWidth 64),
      (0x109, row),
      (0x10A, old.trap.ncap.setWidth 64)]
      ++ (if k < 4 then [
        (0x040 + 4 * k, lv.index ++ lv.count),
        (0x041 + 4 * k, lv.start.setWidth 64),
        (0x042 + 4 * k, lv.stop.setWidth 64),
        (0x043 + 4 * k, (BitVec.ofBool lv.isOpen ++ lv.rot ++ lv.stages : BitVec 8).setWidth 64)] else []),
    Completes s r (.sysrd g d (BitVec.ofNat 12 p.1)) (old.setS d.toNat p.2) s

/-- 09_sequencer_isa.md R121, R132, R133, 23_traps.md R294: what SYSWR writes: the RW fields of a register take the source, a W1C field is cleared
where the source holds 1, and nothing else changes. An unassigned code in an RW field raises SYS.INVALID; that CSP is judged by bits [4:0] of the
source, the bits of its field, is the model's reading (log entry 44). -/
def Obligations.SystemRegisterWrites : Prop :=
  ∀ (s : State) (r : Run) (g : QGuard) (a : BitVec 6) (k : Nat),
    let old := r.foldRecords
    let v := old.x a
    let w (n : Nat) : Instr := .syswr g a (BitVec.ofNat 12 n)
    old.guard g = true → k < 16 →
      (∀ p ∈ [
        (0x001, { old with xflags := old.xflags &&& ~~~(v.setWidth 5) }),
        (0x002, { old with rndseed := v }),
        (0x003, { old with stallTmo := v.setWidth 32 }),
        (0x004, { old with feq := v.extractLsb' 32 3, fetmo := v.setWidth 32 }),
        (0x100, { old with trap := { old.trap with tvec := v &&& 0x007FFFFFFFFFFFE0 } }),
        (0x101, { old with trap := { old.trap with tfp := v &&& 0x007FFFFFFFFFFFC0 } }),
        (0x103, { old with trap := { old.trap with tpc := v &&& 0x007FFFFFFFFFFFE0 } }),
        (0x108, { old with trap := { old.trap with trselArr := v.extractLsb' 8 3, trselRow := v.setWidth 5 } })],
        Completes s r (w p.1) p.2 s)
      ∧ ((v.setWidth 3 : BitVec 3).toNat ≤ 5 → Completes s r (w 0x005) { old with lscope := v.setWidth 3 } s)
      ∧ (v.setWidth 32 ≠ 0#32 → Completes s r (w 0x006) { old with barn := v.setWidth 32 } s)
      ∧ (v.toNat % 32 ≤ 16 → Completes s r (w 0x030) { old with csp := v.toNat % 32 } s)
      ∧ ((v.extractLsb' 61 3).toNat ≤ 4 →
          Completes s r (w (0x020 + k)) { old with cstk := vset old.cstk k (v &&& 0xE07FFFFFFFFFFFE0) } s)
      ∧ ((v.setWidth 3 : BitVec 3).toNat > 5 → s.ready r (w 0x005) → Traps s (w 0x005) r (issueFault 0x00A 0))
      ∧ (v.setWidth 32 = 0#32 → s.ready r (w 0x006) → Traps s (w 0x006) r (issueFault 0x00A 0))
      ∧ (v.toNat % 32 > 16 → s.ready r (w 0x030) → Traps s (w 0x030) r (issueFault 0x00A 0))
      ∧ ((v.extractLsb' 61 3).toNat > 4 → s.ready r (w (0x020 + k)) → Traps s (w (0x020 + k)) r (issueFault 0x00A 0))

/-- 09_sequencer_isa.md R122, 23_traps.md R302, R303: DOCKET opens a segment with the expected count and signature, and raises DOCKET.NEST in one;
each bundle of the segment that leaves is counted and fed to the CRC; DCHECK waits for the last, raises DOCKET.NONE without a segment and
SDC.DOCKET on a difference, and closes the segment. 09_sequencer_isa.md R123: STAMP writes the reference tick count and STAMP.S the number of its
bundle in the task. -/
def Obligations.DocketsAndStamps : Prop :=
  (∀ (s : State) (r : Run) (g : QGuard) (a b : BitVec 6) (d : Docket) (f : Flight),
      let old := r.foldRecords
      let new : Docket := ⟨(old.x a).setWidth 32, (old.x b).setWidth 32, 0, 0xFFFFFFFF⟩
      let segment (i : Instr) (k : Option Docket) : Prop :=
        s.ready r i → (s.leaving { old with docket := k }).moves old i = true → ∃ t y, exec i s = .next t ∧ t.run? s.cur = some y ∧ y.docket = k
      old.guard g = true →
        (old.docket ≠ none → s.ready r (.docket g a b) → Traps s (.docket g a b) r (issueFault 0x00C 0))
        ∧ (old.docket = none → Completes s r (.docket g a b) { old with docket := some new } s
            ∧ ((∀ f ∈ old.flights, f.docket = false) → segment (.docket g a b) (some new)))
        ∧ (old.docket = none → s.ready r (.dcheck g) → Traps s (.dcheck g) r (issueFault 0x00D 0))
        ∧ (old.docket = some d → (∃ f ∈ old.flights, f.docket = true) → Stalls s r (.dcheck g) 9 s)
        ∧ (old.docket = some d → (∀ f ∈ old.flights, f.docket = false) →
            ((d.count ≠ d.steps ∨ ~~~d.crc ≠ d.sig) → s.ready r (.dcheck g) → Traps s (.dcheck g) r (issueFault 0x1D0 0))
            ∧ (d.count = d.steps → ~~~d.crc = d.sig → Completes s r (.dcheck g) { old with docket := none } s ∧ segment (.dcheck g) none))
        ∧ (f.docket = true → old.docket = some d → (old.leave f).docket = some { d with
            count := d.count + 1, crc := crcFeed d.crc (leBytes 4 f.w2.toNat ++ leBytes 4 f.w3.toNat) }))
  ∧ (∀ (s : State) (r : Run) (g : QGuard) (d : BitVec 6),
      let old := r.foldRecords
      old.guard g = true →
        Completes s r (.stamp g d) (old.setS d.toNat (BitVec.ofNat 64 s.ticks)) s
        ∧ Completes s r (.stampS g d) (old.setS d.toNat (BitVec.ofNat 64 old.num)) s)

/-- 09_sequencer_isa.md R130: MSET, MRANGE, MOP and MFLAG write their mask, a write to msk0 being discarded (`Run.setMask`), and change nothing else.
03_wave.md R31, R37, 09_sequencer_isa.md R128, R129, R131, 05_encoding.md R63: a bundle carries into the wave what stood at its issue: its number,
its loop index and format, its masks, and what its S4 slot gives: SEL a wave scalar and an array mask, TSCALE tensor scales; every other S4
instruction, and TSCALE, the wave scalar 0 and every array (an array mask of 0); a NOP of S4 selects every row and column. -/
def Obligations.SelectorsAndWhatABundleCarries : Prop :=
  ∀ (s : State) (r : Run) (row col a4 b4 op d : BitVec 4) (a : BitVec 6) (lo hi : BitVec 5) (k2 p t : BitVec 2) (arrays : BitVec 8),
    let old := r.foldRecords
    let g := old.flags
    let A := old.mask a4.toNat
    let B := old.mask b4.toNat
    let flood (b : Bool) : Word := if b then 0xFFFFFFFF else 0
    let v := old.x a
    let low : BitVec 32 := v.setWidth 32
    let high : BitVec 32 := v.extractLsb' 32 32
    let carries (i : Instr) (x : Run) (e : BitVec 8) (ws : DWord) (ts : Option (BitVec 2 × DWord)) : Prop :=
      Completes s r i x s
      ∧ (s.ready r i → (s.leaving x).moves old i = true →
          ∃ u y f, exec i s = .next u ∧ u.run? s.cur = some y ∧ y.flights.getLast? = some f ∧ f.num = old.num ∧ f.adv = 1 ∧ f.skew = old.skew
            ∧ f.rowMask = (if i = .nopSelector then 0xFFFFFFFF else old.mask row.toNat)
            ∧ f.colMask = (if i = .nopSelector then 0xFFFFFFFF else old.mask col.toNat)
            ∧ f.arrays = e ∧ f.ws = ws ∧ f.tscale = ts ∧ f.fmt = old.fmt
            ∧ f.lidx = (if old.depth = 0 then 0 else (vget old.levels (old.depth - 1) Level.reset).index) ∧ f.seed = old.rndseed ∧ f.tag = old.tag
            ∧ f.depth = old.depth ∧ f.base = old.base)
    carries (.selSelector row col a p arrays) old arrays
        (if p = 0 then v else if p = 1 then low ++ low else if p = 2 then high ++ high else low ++ high) none
      ∧ carries (.tscale row col a t) old 0 0 (some (t, v))
      ∧ carries .nopSelector old 0 0 none
      ∧ carries (.mset row col a d) (old.setMask d.toNat low) 0 0 none
      ∧ carries (.mrange row col lo hi d)
          (old.setMask d.toNat (BitVec.ofNat 32 (if lo.toNat ≤ hi.toNat then 2 ^ (hi.toNat + 1) - 2 ^ lo.toNat else 0))) 0 0 none
      ∧ (op.toNat < 8 → carries (.mop row col a4 b4 op d)
          (old.setMask d.toNat ([A &&& B, A ||| B, A ^^^ B, A &&& ~~~B, ~~~A, A <<< 1, A >>> 1, A.reverse].getD op.toNat 0)) 0 0 none)
      ∧ carries (.mflag row col k2 d) (old.setMask d.toNat ([g.rowOr, g.rowAnd, flood g.any, flood g.all].getD k2.toNat 0)) 0 0 none

/-- 17_loops.md R231: ROTCFG, outside every loop level, waits until the wave has left and then sets the sizes of both rotating regions and every base
to 0; in a loop level it raises LOOP.NEST; that it waits for every cell of every row, in a skew wave too, is the model's reading (log entry 50).
03_wave.md R33, 09_sequencer_isa.md R108: WAVE sets the shape of the bundles after its own; a change
from skew to flat owes 31 blank advances. 07_numbers.md R85, R87, R93, 09_sequencer_isa.md R109, R110: FMTSET and SEMSET with a valid value make a
change that bundles from the fourth after their own carry; an invalid value raises FMT.INVALID or SEM.INVALID. -/
def Obligations.ConfigurationInstructions : Prop :=
  (∀ (s : State) (r : Run) (g : QGuard) (x y : BitVec 2),
      let old := r.foldRecords
      let i := Instr.rotcfg g x y
      let u := s.mapCells old (fun _ _ c => { c with gbase := 0, pbase := 0 })
      old.guard g = true →
        (old.base < old.depth → s.ready r i → Traps s i r (issueFault 0x004 0))
        ∧ (old.depth ≤ old.base → old.flights ≠ [] → Stalls s r i 5 s)
        ∧ (old.depth ≤ old.base → old.flights = [] →
            Completes s r i { old with rg := 8 * x.toNat, rs := 8 * y.toNat, sbase := 0 } u
            ∧ SameBytes s u ∧ (∀ a, a ∉ old.arrays → u.arr a = s.arr a)
            ∧ ∀ a ∈ old.arrays, ∀ k, tabGet Cell.reset (u.arr a).cells k = { tabGet Cell.reset (s.arr a).cells k with gbase := 0, pbase := 0 }))
  ∧ (∀ (s : State) (r : Run) (g : QGuard) (w : Bool),
      let old := r.foldRecords
      old.guard g = true →
        Completes s r (.wave g w) { old with skew := w, blanks := if old.skew = true ∧ w = false then 31 else old.blanks } s)
  ∧ (∀ (s : State) (r : Run) (g : QGuard) (a : BitVec 6) (e : BitVec 4),
      let old := r.foldRecords
      let v := (old.x a).setWidth 32
      let f : Run := { old with fmtPend := old.fmtPend ++ [(4, v)] }
      let m : Run := { old with semPend := old.semPend ++ [(4, e.toNat - 8, old.x a)] }
      let after (n : Nat) (x : Run) : Run := Nat.repeat Run.agePending n x
      old.guard g = true →
        (fmtValid v = true → Completes s r (.fmtset g a) f s ∧ (∀ n, n < 4 → (after n f).fmt = (after n old).fmt) ∧ (after 4 f).fmt = v)
        ∧ (fmtValid v = false → s.ready r (.fmtset g a) → Traps s (.fmtset g a) r (issueFault 0x007 0))
        ∧ (semValid (old.x a) = true → Completes s r (.semset g e a) m s
            ∧ (∀ n, n < 4 → (after n m).srt = (after n old).srt)
            ∧ (8 ≤ e.toNat → (after 4 m).entry e.toNat = old.x a
                ∧ ∀ k, k ≠ e.toNat → (after 4 m).entry k = (after 4 old).entry k))
        ∧ (semValid (old.x a) = false → s.ready r (.semset g e a) → Traps s (.semset g e a) r (issueFault 0x008 0)))

/-! ## Control flow and loops -/

/-- 09_sequencer_isa.md R105, 17_loops.md R237: BR and JMPI. A taken branch transfers control within the innermost body of the loop frame; one that
leaves it raises LOOP.NEST. A branch that is not taken goes on. JMPI and CALLI raise ALIGN on a target that is not a multiple of 32.
09_sequencer_isa.md R106, R107, 17_loops.md R237: CALL and CALLI push the address of the next bundle with the loop depth, and transfer control; with
16 entries on the stack they raise CALL.DEPTH, and where the target leaves the body, or the bundle is its END, LOOP.NEST. RET pops, raises RET.EMPTY
on an empty stack, and LOOP.NEST when the depth differs from the pushed. The model's readings (log entry 44): the order of these faults; a CALL
that is not taken may stand at an END; RET compares the depth of all open levels. -/
def Obligations.BranchesCallsAndReturns : Prop :=
  (∀ (s : State) (r : Run) (g : QGuard) (c : BitVec 3) (o : BitVec 20) (a : BitVec 6),
      let old := r.foldRecords
      let f := old.flags
      let taken := [true, f.any, !f.any, f.all, !f.all].getD c.toNat true
      let near := ((old.pc.toNat + 32 * o.toInt) % 2 ^ 55).toNat
      let far := (old.x a).toNat % 2 ^ 55
      c.toNat < 5 → old.guard g = true →
        (taken = false → Completes s r (.br g c o) old s)
        ∧ (taken = true → old.inBody near = true → Transfers s r (.br g c o) old near)
        ∧ (taken = true → old.inBody near = false → s.ready r (.br g c o) → Traps s (.br g c o) r (issueFault 0x004 0))
        ∧ (far % 32 = 0 → old.inBody far = true → Transfers s r (.jmpi g a) old far)
        ∧ (far % 32 = 0 → old.inBody far = false → s.ready r (.jmpi g a) → Traps s (.jmpi g a) r (issueFault 0x004 0))
        ∧ (far % 32 ≠ 0 → s.ready r (.jmpi g a) → Traps s (.jmpi g a) r (issueFault 0x002 far)))
  ∧ (∀ (s : State) (r : Run) (g : QGuard) (c : BitVec 3) (o : BitVec 20) (a : BitVec 6),
      let old := r.foldRecords
      let f := old.flags
      let taken := [true, f.any, !f.any, f.all, !f.all].getD c.toNat true
      let near := ((old.pc.toNat + 32 * o.toInt) % 2 ^ 55).toNat
      let far := (old.x a).toNat % 2 ^ 55
      let entry : DWord := BitVec.ofNat 3 old.depth ++ (0 : BitVec 6) ++ (old.pc + 32)
      let pushed : Run := { old with cstk := vset old.cstk old.csp entry, csp := old.csp + 1 }
      let top := vget old.cstk (old.csp - 1) 0
      c.toNat < 5 → old.guard g = true →
        (taken = false → Completes s r (.call g c o) old s)
        ∧ (taken = true → old.csp ≠ 16 → old.inBody near = true → old.atEnd = false → Transfers s r (.call g c o) pushed near)
        ∧ (taken = true → old.csp = 16 → s.ready r (.call g c o) → Traps s (.call g c o) r (issueFault 0x005 0))
        ∧ (taken = true → old.csp ≠ 16 → (old.inBody near = false ∨ old.atEnd = true) → s.ready r (.call g c o) →
            Traps s (.call g c o) r (issueFault 0x004 0))
        ∧ (far % 32 = 0 → old.csp ≠ 16 → old.inBody far = true → old.atEnd = false → Transfers s r (.calli g a) pushed far)
        ∧ (s.ready r (.calli g a) →
            (far % 32 ≠ 0 → Traps s (.calli g a) r (issueFault 0x002 far))
            ∧ (far % 32 = 0 → old.csp = 16 → Traps s (.calli g a) r (issueFault 0x005 0))
            ∧ (far % 32 = 0 → old.csp ≠ 16 → (old.inBody far = false ∨ old.atEnd = true) → Traps s (.calli g a) r (issueFault 0x004 0)))
        ∧ (old.csp ≠ 0 → (top.extractLsb' 61 3).toNat = old.depth →
            Transfers s r (.ret g) { old with csp := old.csp - 1 } (top.toNat % 2 ^ 55))
        ∧ (old.csp ≠ 0 → (top.extractLsb' 61 3).toNat ≠ old.depth → s.ready r (.ret g) → Traps s (.ret g) r (issueFault 0x004 0))
        ∧ (old.csp = 0 → s.ready r (.ret g) → Traps s (.ret g) r (issueFault 0x006 0)))

/-- 17_loops.md R225, R226: LOOP and LOOPS with a count above 0 open a level whose START is the next bundle and whose END is the bundle's own plus the
offset; COUNT holds one less, INDEX 0, STAGES and ROT the fields. A count of 0 skips the body. A fifth level, or an END beyond that of the
enclosing level, raises LOOP.NEST. 17_loops.md R227, R228: the back-edge decision at the END of the innermost level. While COUNT is above 0 it
falls by one, INDEX rises, and the body runs again; then STAGES − 1 epilog passes run; then the level closes and the bundle after END is next.
17_loops.md R228: a bundle at the END of the innermost level, whose slots transfer no control, is followed by the bundle that the back-edge
decision names, with the levels that it leaves: stated here for a NOP with the tag that it leaves, and of every other instruction that transfers no
control wherever its completion is stated, by `Onward`. 17_loops.md R236: LBRK closes the innermost level of the frame and goes on with the bundle after
its END; LBRKA does so when the exit state of the level holds ALL = 1, and otherwise goes on. Without a level in the frame, both raise LOOP.NEST.
17_loops.md R237: a bundle at the END of a level while the next level of the frame is open raises LOOP.NEST; a fault of its S1 comes first.
17_loops.md R230: what a tag does in a cell. Open, with ROT bit 0, sets p8 and clears p9 to p15; rotate lowers GBase (bit 2) and PBase (bit 0), and
writes the stage bit to the p8 of the new PBase; close sets the loop-active bit of its level. Nothing else changes; what is written is free of an
error from then on (the model's reading, log entry 50). -/
def Obligations.LoopsRunTheirBodies : Prop :=
  (∀ (s : State) (r : Run) (g : QGuard) (a : BitVec 6) (n : BitVec 8) (k rot : BitVec 3) (e : BitVec 11) (e9 : BitVec 9),
      let old := r.foldRecords
      let j := old.pc.toNat / 32
      old.guard g = true →
      ∀ p ∈ [(Instr.loop g a k rot e, (old.x a).toNat % 2 ^ 32, e.toNat), (.loops g n k rot e9, n.toNat, e9.toNat)],
        let last := j + p.2.2
        let level : Level :=
          { isOpen := true, count := BitVec.ofNat 32 (p.2.1 - 1), index := 0, start := BitVec.ofNat 50 (j + 1), stop := BitVec.ofNat 50 last,
            stages := BitVec.ofNat 4 (k.toNat + 1), rot := rot }
        let nested := match old.inner? with | some l => decide (last ≤ l.stop.toNat) | none => true
        let opened : Run :=
          { old with
            levels := vset old.levels old.depth level, depth := old.depth + 1, exits := vset old.exits old.depth none,
            records := old.records.map (fun x => if x.exit.map (·.1) = some old.depth then { x with exit := none } else x) }
        s.ready r p.1 →
          ((old.depth = 4 ∨ nested = false) → Traps s p.1 r (issueFault 0x004 0))
          ∧ (old.depth ≠ 4 → nested = true → p.2.1 ≠ 0 → old.atEnd = false →
              ({ s.leaving opened with tag := some ⟨.opens, old.depth, rot⟩ } : Ctl).moves old p.1 = true →
              ∃ t y, exec p.1 s = .next t ∧ t.run? s.cur = some y ∧ Registers opened y ∧ y.pc = old.pc + 32 ∧ y.depth = old.depth + 1
                ∧ y.levels = opened.levels ∧ y.sbase = old.sbase ∧ y.tag = some ⟨.opens, old.depth, rot⟩ ∧ Counted old y
                ∧ Kept old.arrays s t ∧ OtherRuns s.cur s t ∧ SameBytes s t)
          ∧ (old.depth ≠ 4 → nested = true → p.2.1 = 0 → (∀ l, old.inner? = some l → l.stop.toNat ≠ last) →
              Transfers s r p.1 old (32 * (last + 1) % 2 ^ 55))
          ∧ (old.depth ≠ 4 → p.2.1 = 0 → (∃ l, old.inner? = some l ∧ l.stop.toNat = last) → (s.leaving old).backEdge.moves old p.1 = true →
              ∃ t y, exec p.1 s = .next t ∧ t.run? s.cur = some y ∧ y.pc = BitVec.ofNat 55 ((s.leaving old).backEdge.jump.getD 0)
                ∧ y.levels = (s.leaving old).backEdge.r.levels ∧ y.depth = (s.leaving old).backEdge.r.depth ∧ Counted old y
                ∧ Kept old.arrays s t ∧ OtherRuns s.cur s t ∧ SameBytes s t))
  ∧ (∀ (c : Ctl), c.r.base < c.r.depth → c.r.depth ≤ 4 →
      let l := c.r.depth - 1
      let lv := vget c.r.levels l Level.reset
      let d := c.backEdge
      d.s = c.s
      ∧ (lv.count ≠ 0 → d.jump = some (32 * lv.start.toNat) ∧ d.tag = some ⟨.rotate true, l, lv.rot⟩ ∧ d.r.depth = c.r.depth
          ∧ vget d.r.levels l Level.reset = { lv with count := lv.count - 1, index := lv.index + 1 })
      ∧ (lv.count = 0 → 1 < lv.stages.toNat → d.jump = some (32 * lv.start.toNat) ∧ d.tag = some ⟨.rotate false, l, lv.rot⟩
          ∧ d.r.depth = c.r.depth ∧ vget d.r.levels l Level.reset = { lv with stages := lv.stages - 1, index := lv.index + 1 })
      ∧ (lv.count = 0 → lv.stages.toNat ≤ 1 → d.jump = some (32 * (lv.stop.toNat + 1) % 2 ^ 55) ∧ d.tag = some ⟨.close, l, lv.rot⟩
          ∧ d.r.depth = l ∧ vget d.r.levels l Level.reset = { lv with isOpen := false })
      ∧ (∀ k, k ≠ l → vget d.r.levels k Level.reset = vget c.r.levels k Level.reset)
      ∧ d.r.sbase = (if (lv.count ≠ 0 ∨ 1 < lv.stages.toNat) ∧ lv.rot.getLsbD 1 = true ∧ c.r.rs ≠ 0
          then (c.r.sbase + c.r.rs - 1) % c.r.rs else c.r.sbase))
  ∧ (∀ (s : State) (r : Run) (g : QGuard),
      let old := r.foldRecords
      let d := (s.leaving old).backEdge
      old.atEnd = true → s.ready r (.nopControl g) → (s.leaving old).moves old (.nopControl g) = true →
        ∃ t y, exec (.nopControl g) s = .next t ∧ t.run? s.cur = some y ∧ y.pc = BitVec.ofNat 55 (d.jump.getD 0) ∧ y.levels = d.r.levels
          ∧ y.depth = d.r.depth ∧ y.sbase = d.r.sbase ∧ y.tag = d.tag ∧ y.num = old.num + 1 ∧ Kept old.arrays s t ∧ SameBytes s t)
  ∧ (∀ (s : State) (r : Run) (g : QGuard),
      let old := r.foldRecords
      let l := old.depth - 1
      let lv := vget old.levels l Level.reset
      let closed : Run := { old with levels := vset old.levels l { lv with isOpen := false }, depth := l }
      old.guard g = true →
        (old.depth ≤ old.base → (s.ready r (.lbrk g) → Traps s (.lbrk g) r (issueFault 0x004 0))
          ∧ (s.ready r (.lbrka g) → Traps s (.lbrka g) r (issueFault 0x004 0)))
        ∧ (old.base < old.depth → vget old.exits l none ≠ some true → Completes s r (.lbrka g) old s)
        ∧ (old.base < old.depth → ∀ i ∈ [Instr.lbrk g] ++ (if vget old.exits l none = some true then [Instr.lbrka g] else []),
            s.ready r i →
            ({ s.leaving closed with tag := some ⟨.close, l, lv.rot⟩, jump := some (32 * (lv.stop.toNat + 1) % 2 ^ 55) } : Ctl).moves old i = true →
              Goes s i old closed s (BitVec.ofNat 55 (32 * (lv.stop.toNat + 1)))))
  ∧ (∀ (s : State) (r : Run) (i : Instr),
      let old := r.foldRecords
      s.run? s.cur = some r → r.mayIssue = true → slotClasses i ≠ [] → wellFormed (ownClass i) i = true → conflicts (alone i) = 0 →
      old.mismatch (alone i) = false →
      (∀ x ∈ old.reads (alone i), (old.sreg x.1).full = true ∧ (old.sreg x.1).poison = none) →
      (∃ l, old.base ≤ l ∧ l + 1 < old.depth ∧ (vget old.levels l Level.reset).stop.toNat = old.pc.toNat / 32) →
        (ownClass i ≠ .scalar → Traps s i r (issueFault 0x004 0))
        ∧ (∀ why, ownClass i = .scalar → scalarSlot i old (s.leaving old) = .fault why → Traps s i r why)
        ∧ (∀ d, ownClass i = .scalar → scalarSlot i old (s.leaving old) = .ok d → Traps s i r (issueFault 0x004 0)))
  ∧ (∀ (c : Cell) (rg l n : Nat) (rot : BitVec 3) (stage : Bool),
      let named (x : Cell) (k : Nat) : Bool := bit x.p (pPhys x.pbase k)
      let opened := c.tagged rg (some ⟨.opens, l, rot⟩)
      let turned := c.tagged rg (some ⟨.rotate stage, l, rot⟩)
      let closed := c.tagged rg (some ⟨.close, l, rot⟩)
      c.pbase < 8 → l < 4 → n < 16 →
        c.tagged rg none = c
        ∧ ({ opened with p := c.p, ue := c.ue } = c ∧ (rot.getLsbD 0 = false → opened = c)
            ∧ (rot.getLsbD 0 = true → named opened n = (if n < 8 then named c n else decide (n = 8))))
        ∧ ({ turned with gbase := c.gbase, pbase := c.pbase, p := c.p, ue := c.ue } = c
            ∧ turned.gbase = (if rot.getLsbD 2 = true ∧ rg ≠ 0 then (c.gbase + rg - 1) % rg else c.gbase)
            ∧ (rot.getLsbD 0 = false → turned.pbase = c.pbase ∧ turned.p = c.p ∧ turned.ue = c.ue)
            ∧ (rot.getLsbD 0 = true → turned.pbase = (c.pbase + 7) % 8
                ∧ named turned n = (if n < 8 then named c n else if n = 8 then stage else named c (n - 1))))
        ∧ ({ closed with active := c.active, ue := c.ue } = c
            ∧ ∀ k, k < 4 → closed.active.getLsbD k = (decide (k = l) || c.active.getLsbD k)))

/-! ## Waits and memory ordering -/

/-- 09_sequencer_isa.md R104, R111: WAITF waits for the records of the flag bundles before it. 09_sequencer_isa.md R104, R112, 19_memory.md R257:
WAITR reads its receipt at the point of .sys until STATE is terminal (3 to 6), and then acquires the frank of its place, in memory or in a face
store. 09_sequencer_isa.md R104, R113, 19_memory.md R260: DRAIN waits for every copy command of the task whose destination its path covers, reads
each one's receipt at the point of .sys, and acquires the frank there. The model's choices: a poisoned receipt never meets WAITR (log entry 37);
franks are exact lists of lines, kept by place (log entry 19); a copy command whose destination is not known yet counts as covered (log entry 56).
09_sequencer_isa.md R104: a wait that has ended, by its condition or by its timeout, whichever comes first, while another slot or a face holds its
bundle, stays as it ended: the bundle issues with that q, whatever holds by then (that the acquires of a wait that was met are made when its bundle
issues is the model's reading, log entry 44). -/
def Obligations.WaitsCompleteOnTheirCondition : Prop :=
  (∀ (s : State) (r : Run) (g : QGuard) (t : BitVec 6) (q : BitVec 3),
      let old := r.foldRecords
      old.guard g = true →
        Waits s r (.waitf g t q) 7 t q s (if ∀ x ∈ old.records, x.flags = none then some (old, s) else none))
  ∧ (∀ (s s1 : State) (r : Run) (g : QGuard) (a t : BitVec 6) (q : BitVec 3) (acc : Access),
      let old := r.foldRecords
      let i := Instr.waitr g a t q
      let va := (old.x a).toNat % 2 ^ 55
      let s2 := match acc.line? with | some l => s1.dropBelow old.head 5 l | none => s1
      let out := s2.read old.agent acc 16
      let state := leNat (out.bytes.take 1) % 16
      let done := 3 ≤ state ∧ state ≤ 6 ∧ out.poison = none
      let frank := out.st.frankOf acc.place
      old.guard g = true →
        (va % 16 ≠ 0 → s.ready r i → Traps s i r (issueFault 0x002 va))
        ∧ (va % 16 = 0 → s.translate (.seq old.head) old.die old.ctx old.arrays va .read = (.ok acc, s1) →
            Waits s r i 1 t q s1
              (if done then some ({ old with wrote := frank.foldl wroteAdd old.wrote }, out.st.acquireLines old.head 5 frank) else none)))
  ∧ (∀ (s : State) (r : Run) (g : QGuard) (p : BitVec 2) (t : BitVec 6) (q : BitVec 3),
      let old := r.foldRecords
      let l := s.cmds.filter (fun x => x.task == some r.task && isCopy x.op && (match x.level with | some l => decide (l ≤ p.toNat) | none => true))
      let c := (s.leaving old).joinAll l
      let franks := l.flatMap (fun x => match x.racc with | some acc => s.frankOf acc.place | none => [])
      old.guard g = true →
        Waits s r (.drain g p t q) 1 t q s (if ∀ x ∈ l, x.terminal = true then some (c.r, c.s) else none)
        ∧ c.r = { old with wrote := franks.foldl wroteAdd old.wrote }
        ∧ SameOutside (franks ++ l.filterMap (fun x => x.racc.bind Access.line?)) s c.s)
  ∧ (∀ (old : Run) (c c1 d u : Ctl) (b : Slots) (g : QGuard) (p : BitVec 2) (a t : BitVec 6) (q sc : BitVec 3) (k : Nat) (acc : Access),
      let ends (i : Instr) (v : Ctl) (x : Bool) : Prop := ∃ w, controlSlot i old c = .ok w ∧ w.r.q = (v.setQ q x).r.q ∧ (x = true → w = v.setQ q x)
      (evalSlots old c b = .wait k d →
        (∀ e, old.waitEnd = some e → d.r.waitEnd = some e)
        ∧ (old.waitEnd = none → controlSlot b.s0 old c = .ok u → d.r.waitEnd = u.judged))
      ∧ (old.guard g = true →
          (old.waitEnd = none → ∀ w, controlSlot (.waitf g t q) old c = .ok w →
            w.judged = some (decide (∀ x ∈ old.records, x.flags = none)))
          ∧ (∀ e, old.waitEnd = some e →
              (∀ i ∈ [Instr.waitf g t q, .drain g p t q], ends i c (!e))
              ∧ (∀ j ∈ [(Instr.waitr g a t q, 16), (.acqW g sc a t q, 8)], (old.x a).toNat % 2 ^ 55 % j.2 = 0 →
                  c.translate ((old.x a).toNat % 2 ^ 55) .read = (.ok acc, c1) → ends j.1 c1 (!e)))))

/-- 09_sequencer_isa.md R116, 19_memory.md R257, 20_memory_notes.md R266: ACQ reads 8 bytes at its scope's point and acquires the frank of their place;
ACQ.W waits until they are not 0. No line but theirs and those that the frank names changes. 19_memory.md R259, R260: FENCE.ST writes back the lines
that the agent wrote, and stale copies of them leave the bench's other arrays of the scope; FENCE.LD waits for every earlier load and then writes back
and invalidates every line in the caches below the point, those of the bench's other arrays of the scope among them; FENCE.SC does both. Registers are unchanged. 19_memory.md R256, R260, 20_memory_notes.md
R266: REL releases at its scope, or at that of a REL that still waits where it is wider: the lines written since the last release there are written
back, and the frank waits for the next synchronising write. The model's choices: a poisoned word never meets ACQ.W (log entry 37); franks are exact
lists of lines, kept by place (log entry 19). -/
def Obligations.OrderingInstructions : Prop :=
  (∀ (s s1 : State) (r : Run) (g : QGuard) (sc : BitVec 3) (a t : BitVec 6) (q : BitVec 3) (acc : Access),
      let old := r.foldRecords
      let va := (old.x a).toNat % 2 ^ 55
      let s2 := match acc.line? with | some l => s1.dropBelow old.head sc.toNat l | none => s1
      let out := s2.read old.agent acc 8
      let frank := out.st.frankOf acc.place
      let x := { old with wrote := frank.foldl wroteAdd old.wrote }
      let u := out.st.acquireLines old.head sc.toNat frank
      old.guard g = true →
        (va % 8 ≠ 0 → ∀ i ∈ [Instr.acq g sc a, .acqW g sc a t q], s.ready r i → Traps s i r (issueFault 0x002 va))
        ∧ (va % 8 = 0 → s.translate (.seq old.head) old.die old.ctx old.arrays va .read = (.ok acc, s1) →
            Completes s r (.acq g sc a) x u
            ∧ Waits s r (.acqW g sc a t q) 1 t q s1 (if leNat out.bytes ≠ 0 ∧ out.poison = none then some (x, u) else none)
            ∧ SameOutside (acc.line?.toList ++ frank) s u))
  ∧ (∀ (s : State) (r : Run) (g : QGuard) (sc : BitVec 3) (k : BitVec 2),
      let old := r.foldRecords
      let i := Instr.fence g sc k
      let lines := old.wrote.map (·.1)
      let s1 := if k = 1 then s else (s.releaseLines old.head sc.toNat lines).forkLines old.head old.arrays sc.toNat lines
      let u := if k = 2 then s1 else s1.fenceLdBench old.head old.arrays sc.toNat
      old.guard g = true →
        (k ≠ 2 → old.loads ≠ [] → Stalls s r i 6 s)
        ∧ (k = 2 ∨ old.loads = [] → Completes s r i old u
            ∧ (k = 2 → SameOutside lines s u)
            ∧ ∀ a, a = old.head ∨ (a ∈ old.arrays ∧ inScope sc.toNat old.head a = true) →
                (k ≠ 2 → 0 < sc.toNat → (u.arr a).l1 = []) ∧ (k ≠ 2 → 3 ≤ sc.toNat → (u.die (dieOf a)).l2 = [])))
  ∧ (∀ (s : State) (r : Run) (g : QGuard) (sc : BitVec 3),
      let old := r.foldRecords
      let scope := max sc.toNat (old.rel.getD 0)
      let lines := wroteAt old.wrote scope
      let frank := setUnion lines old.relFrank
      let u := (s.releaseLines old.head scope lines).forkLines old.head old.arrays scope frank
      old.guard g = true →
        Completes s r (.rel g sc)
          { old with wrote := wroteClear old.wrote scope, rel := some scope, relFrank := frank } u
        ∧ SameOutside frank s u)

/-- 09_sequencer_isa.md R114, 19_memory.md R261: BAR.array waits until the wave has left. A wider BAR arrives at its first attempt with a release at
its scope; where the open generation has another count, it raises BAR.COUNT and does not arrive. It completes with its generation, with the
acquire of every arrival's frank, and a timeout withdraws the arrival, with what it has released. 09_sequencer_isa.md R114, 25_device.md R317: the generation of a barrier
that an arrival joins completes when its arrivals and the host's reach the count of the first; then every one that arrived finds it, with the
franks of all. 19_memory.md R261, 25_device.md R317: a generation of a barrier that has as many arrivals as it counts completes: those that
arrived may go on, with the franks of all; a .sys generation is counted and reported to the host. 09_sequencer_isa.md R104, R114: a timeout that runs out while another slot
holds the bundle withdraws the arrival at once. The model's choices: BARN does not count at .array, host
arrivals beyond a count open the next generation, a participant is a task or the handler of its trap, and what an arrival has released is kept with
it, so that a timeout leaves nothing of it (log entry 45); franks are exact lists of lines, and everything else stays cached (log entry 19). -/
def Obligations.BarriersCompleteAtTheirCount : Prop :=
  (∀ (s : State) (r : Run) (g : QGuard) (sc : BitVec 3) (t : BitVec 6) (q : BitVec 3),
      let old := r.foldRecords
      let i := Instr.bar g sc t q
      let scope := sc.toNat
      let lines := wroteAt old.wrote (max scope (old.rel.getD scope))
      let frank := setUnion lines old.relFrank
      let wide := max scope (old.rel.getD scope)
      let done : Run := { old with wrote := wroteClear old.wrote wide, rel := none, relFrank := [] }
      let party := 2 * old.task + (if old.trap.active = true then 1 else 0)
      let here (o : Owed) : Prop := o.num = old.num ∧ o.pc = old.pc ∧ o.scope = scope
      let since := match old.stall with | some (0, _) | none => 0 | some (_, n) => s.ticks - n
      let waits (u : State) (a : Run) : Prop :=
        match u.doneBar party with
        | some b =>
          Completes s r i ({ a with arrived := none, wrote := b.frank.foldl wroteAdd a.wrote }.setQ q.toNat false)
            ((u.leaveBar party).acquireLines old.head scope b.frank)
        | none =>
          if (old.x t).toNat ≤ since then Completes s r i (a.unarrive.setQ q.toNat true) (u.withdrawBar party)
          else s.ready r i → exec i s = .next (u.setRun ((u.hears a).stallFor 1 s.ticks))
      old.guard g = true →
        (scope = 0 → Waits s r i 2 t q s
          (if old.flights = [] then some ({ done with wrote := frank.foldl wroteAdd done.wrote },
              ((s.releaseLines old.head wide lines).forkLines old.head old.arrays wide frank).acquireLines old.head 0 frank) else none))
        ∧ (scope ≠ 0 → (∀ o, old.arrived = some o → ¬ here o) →
            (∀ b, s.openBar old.ctx scope old.head = some b → b.arrived ≠ [] → b.count ≠ old.barn → s.ready r i →
              Traps s i r (issueFault 0x00B 0))
            ∧ ((∀ b, s.openBar old.ctx scope old.head = some b → b.arrived ≠ [] → b.count = old.barn) →
              waits ((((s.releaseLines old.head wide lines).forkLines old.head old.arrays wide frank).quitBar party).arriveBar
                old.ctx scope old.head party old.barn frank) { done with arrived := some ⟨old.num, old.pc, scope, old.wrote, old.rel, old.relFrank⟩ }))
        ∧ (scope ≠ 0 → (∃ o, old.arrived = some o ∧ here o) → waits s old))
  ∧ (∀ (a : Run) (o : Owed) (l : Nat), a.arrived = some o → tabSorted o.wrote = true →
      a.unarrive.arrived = none ∧ tabGet 0 a.unarrive.wrote l = tabGet 0 a.wrote l ||| tabGet 0 o.wrote l
        ∧ a.unarrive.relFrank = setUnion o.relFrank a.relFrank)
  ∧ (∀ (s : State) (ctx scope head party : Nat) (n : BitVec 32) (frank : List Nat),
      let mine (b : Barrier) : Bool := b.done.isEmpty && b.ctx == ctx && b.scope == scope && b.inst == barInst scope head
      let m : Barrier := match s.barriers.find? mine with
        | none => ⟨ctx, scope, barInst scope head, n, [(party, frank)], 0, [], []⟩
        | some b => { b with count := if b.arrived = [] then n else b.count, arrived := b.arrived ++ [(party, frank)] }
      let t := s.arriveBar ctx scope head party n frank
      (s.barriers.filter mine).length ≤ 1 → (∀ b ∈ s.barriers, b.full = false) → (∀ h ∈ m.arrived, s.doneBar h.1 = none) →
        (m.arrived.length + m.hosts < m.count.toNat → t.openBar ctx scope head = some m ∧ t.doneBar party = none)
        ∧ (m.count.toNat ≤ m.arrived.length + m.hosts → ∀ h ∈ m.arrived, ∃ b, t.doneBar h.1 = some b
            ∧ b.done = m.arrived.map (·.1) ∧ b.frank = m.arrived.foldl (fun f a => setUnion f a.2) []))
  ∧ (∀ (old : Run) (c d : Ctl) (b : Slots) (g : QGuard) (sc q : BitVec 3) (t : BitVec 6) (k : Nat) (o : Owed),
      let since := match old.stall with | some (0, _) | none => 0 | some (_, n) => c.s.ticks - n
      b.s0 = .bar g sc t q → evalSlots old c b = .wait k d → old.guard g = true → sc ≠ 0 → old.waitEnd = none → old.arrived = some o →
      o.num = old.num → o.pc = old.pc → o.scope = sc.toNat → c.r.arrived = some o →
      c.s.doneBar (2 * old.task + (if old.trap.active = true then 1 else 0)) = none → (old.x t).toNat ≤ since →
        d.r.arrived = none ∧ d.r.waitEnd = some false ∧ d.s.mem = c.s.mem
        ∧ ∀ x ∈ d.s.barriers, x.done = [] → ∀ y ∈ x.arrived, y.1 ≠ 2 * old.task + (if old.trap.active = true then 1 else 0))
  ∧ (∀ (s : State) (i : Nat) (b : Barrier) (c : Context),
      s.barriers[i]? = some b → b.done = [] → b.arrived ≠ [] → b.count.toNat ≤ b.arrived.length + b.hosts →
        ∃ t, exec (.barGenerationComplete i) s = .next t
          ∧ t.barriers[i]? = some { b with done := b.arrived.map (·.1), frank := b.arrived.foldl (fun f a => setUnion f a.2) [], hosts := 0 }
          ∧ (b.scope = 5 → s.context b.ctx = some c →
              (t.context b.ctx).map (fun x => (x.barGen, x.isr)) = some (c.barGen + 1, c.isr ||| 8))
          ∧ SameBytes s t)

/-! ## Tokens, launches and the end of a run -/

/-- 09_sequencer_isa.md R118, 21_tasks.md R275, 19_memory.md R256: SIGNAL releases at .die and ripens the token of its tag, with the frank of the
release; a token that has ripened already keeps its state. Without room in the token store it raises TOKEN.FULL. 09_sequencer_isa.md R117,
21_tasks.md R273, R274, 23_traps.md R304: LAUNCH reads its 128-byte descriptor and submits it to the die that TARGET names, or to its own, after a
release at .die or .pkg. A valid descriptor with room becomes an accepted task with an ACCEPTED receipt; an invalid one is refused with a FAILED
receipt, dead-letter entries for both, and the context's interrupt; without room the LAUNCH waits, and raises TASK.LAUNCH.FULL when STALL.TMO has run
out; a receipt that does not translate for writing raises TASK.RECEIPT, with its address. The model's choices: the interrupt of a refusal
(log entry 53); a misaligned receipt counts as one that does not translate (log entry 54); the order of these tests, and that a die that has failed
has no room (log entry 51); franks are exact lists of lines (log entry 19). -/
def Obligations.TokensAndLaunches : Prop :=
  (∀ (s : State) (r : Run) (g : QGuard) (a : BitVec 6) (c : Context),
      let old := r.foldRecords
      let i := Instr.signal g a
      let tag := (old.x a).setWidth 48
      let rel := (s.leaving old).release 2
      let u := rel.2.s.ripen old.ctx tag true rel.1
      old.guard g = true → s.context old.ctx = some c →
        (c.token tag = none → s.tokensFree c = 0 → s.ready r i → Traps s i r (issueFault 0x1A2 0))
        ∧ (c.token tag ≠ none ∨ s.tokensFree c ≠ 0 →
            Completes s r i rel.2.r u.settleAll
            ∧ (u.context old.ctx).bind (·.token tag) = some ((c.token tag).getD ⟨tag, true, rel.1⟩)
            ∧ SameOutside rel.1 s u))
  ∧ (∀ (s s1 : State) (r : Run) (g : QGuard) (a : BitVec 6) (acc : Access) (bs : List Byte) (c1 : Ctl) (x : Context),
      let old := r.foldRecords
      let i := Instr.launch g a
      let va := (old.x a).toNat % 2 ^ 55
      let d := parseDesc bs
      let die := if d.aff = 1 ∨ d.aff = 2 then d.target / 16 else old.die
      let scope := if (d.aff = 1 ∨ d.aff = 2) ∧ d.target / 16 = old.die then 2 else 3
      let rel := c1.release scope
      let w := rel.2.s.translate (.die die) die x.num [] d.rcpt.toNat .write
      let room := w.2.entries die < tableSize ∧ d.outs.length ≤ w.2.tokensFree x ∧ (w.2.die die).alive = true
      let t := newTask rel.2.s.nextTask die x d d.prio none rel.1 false
      let f := w.2.taskReceipt t stFailed 0x07 (unitCode die 4 0) 0 0 []
      old.guard g = true →
        (va % 128 ≠ 0 → s.ready r i → Traps s i r (issueFault 0x002 va))
        ∧ (va % 128 = 0 → s.translate (.seq old.head) old.die old.ctx old.arrays va .read = (.ok acc, s1) →
            (s1.leaving old).readBlock acc 2 0 = (.ok bs, c1) → c1.s.context old.ctx = some x →
            ((d.rcpt.toNat % 16 ≠ 0 ∨ ∃ e, w.1 = .error e) → s.ready r i → Traps s i r (issueFault 0x1A1 d.rcpt.toNat))
            ∧ (d.rcpt.toNat % 16 = 0 → ∀ k, w.1 = .ok k →
                (descValid bs x.tokcap = false → Completes s r i rel.2.r
                  ((f.deadLetter die (f.dlrEntry 0 d.rcpt.toNat (unitCode die 4 0) 1 (16 * die) x.num 0)).refuse x.num die d.rcpt.toNat))
                ∧ (descValid bs x.tokcap = true → room → Completes s r i rel.2.r
                  ({ w.2 with tasks := w.2.tasks ++ [t], nextTask := w.2.nextTask + 1 }.taskReceipt t stAccepted 0 0 0 0 []).settleAll)
                ∧ (descValid bs x.tokcap = true → ¬ room → (tmoTicks old.stallTmo < old.stalledFor 4 s.ticks → s.ready r i →
                      Traps s i r (issueFault 0x1A0 0))
                    ∧ (old.stalledFor 4 s.ticks ≤ tmoTicks old.stallTmo → Stalls s r i 4 c1.s)))))

/-- 09_sequencer_isa.md R119, R120: DONE and YIELD wait until every bundle has left and every load has returned, and then end the run. -/
def Obligations.DoneAndYieldEndTheRun : Prop :=
  ∀ (s : State) (r : Run) (g : QGuard),
    let old := r.foldRecords
    old.guard g = true →
    ∀ p ∈ [(Instr.done g, Phase.ended), (.yield g, .yielded)],
      (old.flights ≠ [] ∨ old.loads ≠ [] → Stalls s r p.1 8 s)
      ∧ (old.flights = [] → old.loads = [] → s.ready r p.1 → ({ s.leaving old with ending := some p.2 } : Ctl).moves old p.1 = true →
          Ends s p.1 old p.2)

/-! ## Traps -/

/-- 23_traps.md R287, 09_sequencer_isa.md R120: TRAP raises TRAP.USER with its code, which TCAUSE reports as UCODE: the bundle does not issue, and the
wave drains for the trap. -/
def Obligations.TrapRaisesTrapUser : Prop :=
  ∀ (s : State) (r : Run) (g : QGuard) (code : BitVec 8),
    let old := r.foldRecords
    let i := Instr.trap g code
    old.guard g = true → old.endOfOuter = false → s.ready r i →
      ∃ t y, exec i s = .next t ∧ t.run? s.cur = some y
        ∧ y.phase = .drain { issueFault 0x00F 0 with ucode := code, tpc := old.pc }
        ∧ { y with
            phase := old.phase, stall := old.stall, face := old.face, arrived := old.arrived, wrote := old.wrote, rel := old.rel,
            relFrank := old.relFrank, waitEnd := old.waitEnd, precvEnd := old.precvEnd, drainFor := old.drainFor } = old
        ∧ y.unheld
        ∧ (old.arrived = none → y.arrived = none ∧ y.wrote = old.wrote ∧ y.rel = old.rel ∧ y.relFrank = old.relFrank)
        ∧ OtherRuns s.cur s t ∧ SameBytes s t

/-- 23_traps.md R293, R294, R295: a drained bench whose cause is the user's is taken by its handler, when TVEC is not 0, no trap is active and the
frame lies in the scratchpad: s1 to s63 are written at TFP, their poison marks, q and zeros after them; the trap registers report the event, and
issue goes on at TVEC. Otherwise the task fails with CLASS FAULT. No byte outside the frame changes. 23_traps.md R296: RFT needs an active trap and raises RFT.NOFRAME without one; it
waits for the handler's bundles and accesses, and raises LOOP.NEST in a loop of the handler. It then restores what the trap saved, loads s1 to s63
and q from the frame, full but for those that the frame marks poisoned, clears ACTIVE, and issue goes on at TPC; raises of the handler's bundles that
XFLAGS does not hold yet still come there (07_numbers.md R84). The model's readings: a second trap, and one without a handler, fails the task by way
of the supervisor (log entry 48); how those raises are counted across the return (log entry 72). -/
def Obligations.TrapEntryAndReturn : Prop :=
  (∀ (s : State) (r : Run) (why : TrapInfo),
      s.run? s.cur = some r → r.head = s.cur → r.phase = .drain why → (r.flights = [] ∨ why.atCell = true) → r.loads = [] →
      supervised why.cause.toNat = false →
        (∀ off, s.frameOff r = some off → r.trap.tfp.toNat % 64 = 0 → r.trap.tvec ≠ 0 → r.trap.active = false →
          ∃ t y, exec .trapEntry s = .next t ∧ t.run? s.cur = some y
            ∧ y.pc = r.trap.tvec.setWidth 55 ∧ y.phase = .issue ∧ y.trap.active = true ∧ y.trap.info.cause = why.cause
            ∧ y.trap.info.addr = why.addr ∧ y.trap.info.smask = why.smask ∧ y.trap.info.ucode = why.ucode
            ∧ y.trap.tpc = why.tpc.setWidth 64 ∧ y.trap.tbun = BitVec.ofNat 64 r.num ∧ y.trap.cap = !r.flights.isEmpty
            ∧ y.s = r.s ∧ y.q = r.q ∧ y.msk = r.msk ∧ y.flights = [] ∧ y.base = r.depth ∧ y.levels = r.levels
            ∧ y.saved.map (·.flights) = some r.flights
            ∧ (∀ n, 1 ≤ n → n ≤ 63 → leNat (t.storeBytes r.head (off + 8 * (n - 1)) 8) = (r.sval n).toNat)
            ∧ (∀ n, n < 64 → (leNat (t.storeBytes r.head (off + 0x1F8) 8)).testBit n = (r.sreg n).poison.isSome)
            ∧ leNat (t.storeBytes r.head (off + 0x200) 8) = r.q.toNat / 2 * 2
            ∧ t.storeBytes r.head (off + 0x208) 56 = List.replicate 56 0
            ∧ SameBytesBut (.store r.head off 0) 0x240 s t ∧ OtherRuns s.cur s t)
        ∧ ((s.frameOff r = none ∨ r.trap.tvec = 0 ∨ r.trap.active = true) →
            exec .trapEntry s = .next (s.failRun r (faultClass why.cause.toNat why.perm) (unitCode r.die 10 why.cause.toNat) why.addr.toNat)))
  ∧ (∀ (s : State) (r : Run) (g : QGuard) (v : Saved) (off : Nat),
      let old := r.foldRecords
      let i := Instr.rft g
      old.guard g = true →
        (old.trap.active = false → s.ready r i → Traps s i r (issueFault 0x00E 0))
        ∧ (old.trap.active = true → (old.flights ≠ [] ∨ old.loads ≠ []) → Stalls s r i 5 s)
        ∧ (old.trap.active = true → old.flights = [] → old.loads = [] →
            (old.depth ≠ old.base → s.ready r i → Traps s i r (issueFault 0x004 0))
            ∧ (old.depth = old.base → old.saved = some v → s.frameOff old = some off → s.storePoison old.head off 0x240 = none →
                v.rs ≤ 64 → s.ready r i →
                ∃ t y, exec i s = .next t ∧ t.run? s.cur = some y
                  ∧ y.pc = old.trap.tpc.setWidth 55 ∧ y.phase = goOn v.closing ∧ y.trap = { old.trap with active := false, cap := false }
                  ∧ y.flights = v.flights ∧ y.fmt = v.fmt ∧ y.fmtPend = v.fmtPend ∧ y.semPend = v.semPend ∧ y.flags = v.flags
                  ∧ y.records = v.records ++ (old.records.filter (fun c => c.raises != 0)).map (fun c =>
                      { c with num := c.num + 2 ^ 64, flags := none, exit := none })
                  ∧ y.exits = v.exits ∧ y.rg = v.rg ∧ y.rs = v.rs ∧ y.sbase = v.sbase ∧ y.skew = v.skew ∧ y.blanks = v.blanks ∧ y.tag = v.tag
                  ∧ y.num = v.num ∧ y.levels = v.levels ∧ y.depth = v.depth ∧ y.base = 0 ∧ y.docket = v.docket ∧ y.saved = none
                  ∧ (∀ n, 1 ≤ n → n ≤ 63 → (y.sreg n).val = BitVec.ofNat 64 (leNat (s.storeBytes old.head (off + 8 * (n - 1)) 8))
                      ∧ (y.sreg n).poison.isSome = (leNat (s.storeBytes old.head (off + 0x1F8) 8)).testBit n
                      ∧ (y.sreg n).full = !(leNat (s.storeBytes old.head (off + 0x1F8) 8)).testBit n)
                  ∧ y.q = BitVec.ofNat 8 (leNat (s.storeBytes old.head (off + 0x200) 1)) ||| 1
                  ∧ y.msk = old.msk ∧ SameBytes s t ∧ OtherRuns s.cur s t)))

/-- 23_traps.md R287, R288, R297, 09_sequencer_isa.md R126: at a bundle boundary a store's uncorrectable error is taken before an interrupt, and an
interrupt while no trap is active; issue stops there, and the wave drains. 23_traps.md R298, R304, 25_device.md R317, R319: the supervisor takes
its cause from a drained bench: it makes a dead-letter entry of KIND 0, raises the context's interrupt, and holds the task where the cause can be
resumed; a task that is not resumed within FLTTMO fails. The model's choices: FLTTMO counts reference ticks from the entry into the hold, and
after reset it is 0 (log entry 34); issue stops for these causes while nothing else has stopped it (log entry 47); which interrupt bit each event
sets (log entry 53). -/
def Obligations.StopsAndSupervision : Prop :=
  (∀ (s : State) (r : Run) (va : Nat) (more : List Nat),
      let stops (i : Instr) (w : TrapInfo) : Prop :=
        ∃ t y, exec i s = .next t ∧ t.run? s.cur = some y ∧ y.phase = .drain { w with tpc := r.pc }
          ∧ { y with
              phase := r.phase, stall := r.stall, face := r.face, arrived := r.arrived, wrote := r.wrote, rel := r.rel,
              relFrank := r.relFrank, waitEnd := r.waitEnd, precvEnd := r.precvEnd, drainFor := r.drainFor } = r
          ∧ y.unheld
          ∧ (r.arrived = none → y.arrived = none ∧ y.wrote = r.wrote ∧ y.rel = r.rel ∧ y.relFrank = r.relFrank)
          ∧ OtherRuns s.cur s t ∧ SameBytes s t
      s.run? s.cur = some r → r.head = s.cur → r.phase = .issue → r.redo = false →
        (r.ueStore = va :: more → stops .memUeStore (asyncFault 0x105 va) ∧ exec .interruptTake s = .next s)
        ∧ (r.ueStore = [] → r.intr = true → r.trap.active = false → stops .interruptTake (asyncFault 0x1F0 0))
        ∧ (r.trap.active = true → exec .interruptTake s = .next s))
  ∧ (∀ (s : State) (r : Run) (why : TrapInfo) (since : Nat) (c : Context) (k : Task),
      let cause := why.cause.toNat
      s.run? s.cur = some r → r.head = s.cur → s.context r.ctx = some c →
        (r.phase = .drain why → (r.flights = [] ∨ why.atCell = true) → r.loads = [] → (r.trap.active = false ∨ why.atCell = false) →
          (cause = 0x105 ∨ cause = 0x0A4 ∨ (0x100 ≤ cause ∧ cause ≤ 0x104)) →
          ∃ t y e, exec .supervisorFaultTake s = .next t ∧ t.run? s.cur = some y ∧ y.phase = .held why s.ticks
            ∧ y.ueStore = (if cause = 0x105 then r.ueStore.drop 1 else r.ueStore) ∧ y.pc = r.pc ∧ y.flights = r.flights ∧ y.s = r.s
            ∧ ((s.die r.die).frozen = false → (t.die r.die).dlr.getLast? = some e)
            ∧ e.kind = 0 ∧ e.cause = why.cause ∧ e.addr = why.addr.setWidth 64 ∧ e.pc = why.tpc.setWidth 64 ∧ e.ctx = BitVec.ofNat 16 r.ctx
            ∧ (t.context r.ctx).map (·.isr) = some (c.isr ||| 4) ∧ OtherRuns s.cur s t ∧ SameBytes s t)
        ∧ (r.phase = .held why since → s.fltTmo.toNat ≤ s.ticks - since → s.task r.task = some k →
          ∃ t y, exec .flttmoExpiry s = .next t ∧ t.run? s.cur = some y ∧ y.phase = .ended ∧ y.flights = []
            ∧ (t.task r.task).map (·.phase) = some (.failed (faultClass cause why.perm) (unitCode r.die 10 cause) why.addr.toNat)
            ∧ OtherRuns s.cur s t ∧ SameBytes s t))

/-- 05_encoding.md R65 to R69, 23_traps.md R287: an instruction that its slot does not admit makes its bundle illegal: the bundle raises ILLEGAL with
the mask of the slots that offend, before every other check, and does not issue. 07_numbers.md R98, 15_semiring_isa.md R210: a tile instruction
whose entry does not fit FMT raises SEM.MISMATCH and does not issue, whatever its guard (the model's reading, log entry 44). -/
def Obligations.IllegalAndMismatchedBundlesTrap : Prop :=
  (∀ (s : State) (r : Run) (i : Instr),
      s.run? s.cur = some r → r.head = s.cur → r.mayIssue = true → slotClasses i ≠ [] →
        (wellFormed (ownClass i) i = false → Traps s i r { issueFault 0x000 0 with smask := 1#8 <<< (ownClass i).index })
        ∧ (wellFormed (ownClass i) i = true → conflicts (alone i) ≠ 0 → Traps s i r { issueFault 0x000 0 with smask := conflicts (alone i) }))
  ∧ (∀ (s : State) (r : Run) (i : Instr) (e : Nat),
      let old := r.foldRecords
      s.run? s.cur = some r → r.head = s.cur → r.mayIssue = true → wellFormed (ownClass i) i = true → conflicts (alone i) = 0 →
      ownClass i = .cellA → tileEntry i = some e → semMismatch old.fmt (old.entry e) (isSmms i) = true →
        Traps s i r (issueFault 0x009 0))

/-! ## Cell instructions -/

/-- 03_wave.md R46, 11_cell_isa.md R135 rows 3 and 4, R136: where the guard of a cell instruction is false (ISEL apart), it marks the words and the
accumulators that it would write invalid and does nothing else. A lane instruction that tests an invalid word marks its words invalid and pushes
them, or writes 0 to its predicate and contributes 0; a cell store does nothing. 03_wave.md R37, 11_cell_isa.md R135 row 1: a cell that the bundle
does not reach at this advance, or that it does not select, keeps its state, but for what its own latches land and for the loop tag of the bundle,
which every cell that the bundle reaches takes, selected or not (17_loops.md R230).
03_wave.md R39, R40: a result of latency n lands at the end of the n-th step of its cell from its bundle, and not before. 03_wave.md R41, R42: with no
blank advance between, what a cell reads of its neighbours is their ch or cv as the table of R42 says, over a seam too, and nothing at an edge;
and a cell holds what ch and cv were after each of its last eight bundles. 11_cell_isa.md R156: where the guard is false, ch and cv become invalid
after 1 step. The model's reading: other words then become invalid after the latency of the instruction (log entry 69). -/
def Obligations.CellSlotsRespectTheirSelection : Prop :=
  (∀ (s : State) (r : Run) (i : Instr), ownClass i = .cellA ∨ ownClass i = .cellB →
      Completes s r i r.foldRecords s
      ∧ (isNopCell i = true → CellsDo s r i (fun _ => True) (fun _ => {}))
      ∧ (isNopCell i = false → isIsel i = false → CellsDo s r i (fun x => x.inp.guard (cellGuard i) = false) (fun x =>
          { lat := if (cellDests i).any (fun c => 52 ≤ c && c ≤ 55) then 1 else latency i,
            lands := (cellDests i).map (fun c => .word (x.inp.place c) none false) ++ (cellAccs i).map (fun a => .acc a [] false) }))
      ∧ (isNopCell i = false → isTile i = false → (∀ g d b o, i ≠ .stc g d b o ∧ i ≠ .stca g d b o ∧ i ≠ .stc2 g d b o) →
          CellsDo s r i
            (fun x => (x.inp.guard (cellGuard i) = true ∨ isIsel i = true) ∧ x.readsUe i = false
              ∧ ∃ l, testedWords i = some l ∧ ∃ c ∈ l, (x.inp.word c).v = false)
            (fun x => match cellPred i with
              | some p => { lat := latency i, lands := [.pred (pPhys x.inp.cell.pbase p) false], contrib := some false }
              | none => { lat := latency i, lands := (cellDests i).map (fun c => .word (x.inp.place c) none false), pushes := true })))
  ∧ (∀ (s : State) (r : Run) (i : Instr),
      let old := r.foldRecords
      let e := s.entersAs old i
      (ownClass i = .cellA ∨ ownClass i = .cellB) → s.ready r i → (s.leaving old).moves old i = true →
      ∃ t, exec i s = .next t
        ∧ (∀ m k j, m < old.arrays.length → (m, k, j) ∉ old.firstCells → (∀ f ∈ old.flights, ¬ f.reaches old.arrays (m, k, j)) → k < 32 → j < 32 →
            old.arrays.Nodup → t.cellAt old m k j = s.cellAt old m k j)
        ∧ (∀ c ∈ old.firstCells, old.aloneAt old.flights c → s.runsIn e.1 e.2 c.1 c.2.1 c.2.2 = false → (s.cellAt old c.1 c.2.1 c.2.2).latches = [] →
            t.cellAt old c.1 c.2.1 c.2.2 = (s.cellAt old c.1 c.2.1 c.2.2).tagged old.rg old.tag
            ∧ (old.tag = none → t.cellAt old c.1 c.2.1 c.2.2 = s.cellAt old c.1 c.2.1 c.2.2)))
  ∧ (∀ (c : Cell) (f : Flight) (i j last done reg : Nat) (v : Word) (lat : Nat) (fs : List Flight),
      let out : SlotOut := { lat := lat, lands := [.word reg (some v) true] }
      let none : SlotOut := {}
      let step (d : Cell) (g : Flight) : Cell := d.stepped g true 0 i j last done none none
      let first := c.stepped f true 0 i j last done out none
      let later (n : Nat) : Cell := (fs.take n).foldl step first
      reg < 44 → 1 ≤ lat → lat ≤ 8 → c.latches = [] → f.handler = false → f.tscale = Option.none → fs.length = lat - 1 →
      (∀ g ∈ fs, g.handler = false ∧ g.tscale = Option.none) →
        (∀ n, n < lat - 1 → (later n).getWord reg = c.getWord reg)
        ∧ (later (lat - 1)).getWord reg = ⟨v, true⟩ ∧ (later (lat - 1)).latches = []
        ∧ ∀ k, k < 44 → k ≠ reg → (later (lat - 1)).getWord k = c.getWord k)
  ∧ (∀ (s : State) (r : Run) (f : Flight) (m k j v0 : Nat),
      let offs := benchOffsets r.arrays 0
      let x := s.cellInput r offs f m k j
      let one := if f.skew then 1 else 0
      let below := seam (r.arrays.getD m 0) (r.arrays.getD (m + 1) 0)
      let after (m k j n : Nat) : VPair × VPair :=
        let c := s.cellAt r m k j
        match c.after (r.executed offs m k j) n with | some h => (h.ch, h.cv) | none => (c.ch, c.cv)
      f.handler = false → f.vadv = v0 + f.num → (∀ e ∈ r.issued, e.2 = (v0 + e.1, f.skew)) →
      (∀ n, n ≤ f.num → f.num < n + 10 → (n, v0 + n, f.skew) ∈ r.issued) →
      m < r.arrays.length → k < 32 → j < 32 → s.runsIn r f m k j = true → (isNopCell f.s2 = false ∨ isNopCell f.s3 = false) →
        (k ≠ 0 → x.north = (after m (k - 1) j (f.num + 1)).2)
        ∧ (k = 0 → m ≠ 0 → x.north = (after (m - 1) 31 j (f.num + 1)).2)
        ∧ (k ≠ 31 → x.south = (after m (k + 1) j (f.num - 1)).2)
        ∧ (k = 31 → m + 1 < r.arrays.length → x.south = (after (m + 1) 0 j (f.num - 1 - below)).2)
        ∧ (k = 31 → m + 1 = r.arrays.length → x.south = VPair.zero)
        ∧ (j ≠ 0 → x.west = (after m k (j - 1) (f.num + one)).1)
        ∧ (j ≠ 31 → x.east = (after m k (j + 1) (f.num - one)).1)
        ∧ (j = 31 → x.east = VPair.zero))
  ∧ (∀ (c : Cell) (f : Flight) (sel : Bool) (m i j last : Nat) (a b : SlotOut),
      let held (c : Cell) (done n : Nat) : VPair × VPair := match c.after done n with | some h => (h.ch, h.cv) | none => (c.ch, c.cv)
      let d := c.stepped f sel m i j last f.num a b
      f.handler = false → (∀ h ∈ c.hist, h.handler = false → h.num < f.num) →
        (∀ h ∈ d.hist, h.handler = false → h.num < f.num + 1) ∧ held d (f.num + 1) (f.num + 1) = (d.ch, d.cv)
        ∧ ∀ n, n ≤ f.num → f.num < n + 8 → held d (f.num + 1) n = held c f.num n)

/-- 11_cell_isa.md R139 to R142: the integer lane instructions. Sums, differences and products clamp with OVF under FMT.SAT and wrap otherwise.
03_wave.md R46, 11_cell_isa.md R142, R145, R151, R152: comparisons and predicate logic write their predicate, with their contribution to the
flags. A NaN raises INV in the ordered conditions of FCMP. VTEST reads validity itself and tests no word. 11_cell_isa.md R141, R151,
05_encoding.md R53: the instructions that act on validity. VSET and VCLR set V and keep the data; VMOV copies data and V; VSEL takes a where it is
valid, else b; ISEL takes a where its guard holds, else b, and an invalid source makes only V 0. LEXIT clears the loop-active bit of the innermost
level. -/
def Obligations.IntegerPredicateAndValidityResults : Prop :=
  (∀ (s : State) (r : Run) (g : PGuard) (d a b : BitVec 6) (u : Bool) (n : BitVec 15),
      let top (x : LaneIn) (v : Int) : Word × XFlags :=
        if fmtSat x.fmt = true then
          (BitVec.ofInt 32 (max (-2 ^ 31) (min (2 ^ 31 - 1) v)), if v < -2 ^ 31 ∨ 2 ^ 31 - 1 < v then xOvf else 0)
        else (BitVec.ofInt 32 v, 0)
      let A (x : LaneIn) : Word := (x.inp.word a.toNat).val
      let B (x : LaneIn) : Word := (x.inp.word b.toNat).val
      let D (x : LaneIn) : Word := (x.inp.word d.toNat).val
      let sh (x : LaneIn) : Nat := (B x).toNat % 32
      ∀ p ∈ [
        (Instr.iadd g d a b, fun x => top x ((A x).toInt + (B x).toInt)),
        (.isub g d a b, fun x => top x ((A x).toInt - (B x).toInt)),
        (.imul g d a b, fun x => top x ((A x).toInt * (B x).toInt)),
        (.imulh g d a b u, fun x => (if u then BitVec.ofNat 32 ((A x).toNat * (B x).toNat / 2 ^ 32)
          else BitVec.ofInt 32 ((A x).toInt * (B x).toInt / 2 ^ 32), 0)),
        (.iand g d a b, fun x => (A x &&& B x, 0)),
        (.ior g d a b, fun x => (A x ||| B x, 0)),
        (.ixor g d a b, fun x => (A x ^^^ B x, 0)),
        (.ishl g d a b, fun x => (A x <<< sh x, 0)),
        (.ishr g d a b, fun x => (A x >>> sh x, 0)),
        (.isra g d a b, fun x => ((A x).sshiftRight (sh x), 0)),
        (.imin g d a b u, fun x => (if (if u then decide ((B x).toNat < (A x).toNat) else decide ((B x).toInt < (A x).toInt)) then B x else A x, 0)),
        (.imax g d a b u, fun x => (if (if u then decide ((A x).toNat < (B x).toNat) else decide ((A x).toInt < (B x).toInt)) then B x else A x, 0)),
        (.iaddi g d n, fun x => top x ((D x).toInt + n.toInt)),
        (.movi g d n, fun _ => (n.signExtend 32, 0)),
        (.movhi g d n, fun x => (D x <<< 15 ||| n.zeroExtend 32, 0)),
        (.movCell g d a, fun x => (A x, 0))],
      CellsDo s r p.1 (fun x => x.live p.1) (fun x => x.gives d 1 (p.2 x).1 (p.2 x).2))
  ∧ (∀ (s : State) (r : Run) (g : PGuard) (p q q2 : BitVec 4) (a b : BitVec 6) (c : BitVec 3) (c2 : BitVec 2),
      let A (x : LaneIn) : Word := (x.inp.word a.toNat).val
      let B (x : LaneIn) : Word := (x.inp.word b.toNat).val
      let F (x : LaneIn) (w : Word) : ExactNum := fp32.readIn (fmtSubn x.fmt) w.toNat
      let lt (x y : ExactNum) : Bool := x.lt y
      let nan (x : LaneIn) : Bool := F x (A x) == .nan || F x (B x) == .nan
      (∀ k ∈ [
        (Instr.icmp g p a b c, fun x => ([A x == B x, A x != B x, decide ((A x).toInt < (B x).toInt), decide ((B x).toInt ≤ (A x).toInt),
          decide ((A x).toNat < (B x).toNat), decide ((B x).toNat ≤ (A x).toNat), A x &&& B x != 0, A x &&& B x == 0].getD c.toNat false, (0 : XFlags))),
        (.fcmp g p a b c, fun x => ([(F x (A x)).eqv (F x (B x)), !(F x (A x)).eqv (F x (B x)), lt (F x (A x)) (F x (B x)),
          !nan x && !lt (F x (A x)) (F x (B x)), !nan x && !lt (F x (B x)) (F x (A x)), lt (F x (B x)) (F x (A x)), nan x, !nan x].getD c.toNat false,
          if nan x ∧ 2 ≤ c.toNat ∧ c.toNat ≤ 5 then xInv else 0)),
        (.pand g p q q2, fun x => (x.inp.pred q.toNat && x.inp.pred q2.toNat, 0)),
        (.por g p q q2, fun x => (x.inp.pred q.toNat || x.inp.pred q2.toNat, 0)),
        (.pxor g p q q2, fun x => (x.inp.pred q.toNat != x.inp.pred q2.toNat, 0)),
        (.pnot g p q, fun x => (!x.inp.pred q.toNat, 0)),
        (.pmov g p q, fun x => (x.inp.pred q.toNat, 0))],
        CellsDo s r k.1 (fun x => x.live k.1) (fun x => x.decides p (k.2 x).1 (k.2 x).2))
      ∧ CellsDo s r (.vtest g p a b c2) (fun x => x.inp.guard g = true ∧ x.readsUe (.vtest g p a b c2) = false) (fun x =>
          let va := (x.inp.word a.toNat).v
          let vb := (x.inp.word b.toNat).v
          x.decides p (if c2 = 0 then va else if c2 = 1 then !va else if c2 = 2 then va && vb else va || vb) 0))
  ∧ (∀ (s : State) (r : Run) (g : PGuard) (d a b : BitVec 6),
      let W (x : LaneIn) (c : BitVec 6) : VWord := x.inp.word c.toNat
      let yields (x : LaneIn) (v : Option Word) (ok : Bool) : SlotOut := { lands := [.word (x.inp.place d.toNat) v ok], pushes := true }
      let runs (i : Instr) (x : LaneIn) : Prop := (x.inp.guard (cellGuard i) = true ∨ isIsel i = true) ∧ x.readsUe i = false
      ∀ p ∈ [
        (Instr.vset g d, fun x => yields x none true),
        (.vclr g d, fun x => yields x none false),
        (.vmov g d a, fun x => yields x (some (W x a).val) (W x a).v),
        (.vsel g d a b, fun x => if (W x a).v then yields x (some (W x a).val) true else yields x (some (W x b).val) (W x b).v),
        (.isel g d a b, fun x =>
          let w := if x.inp.guard g then W x a else W x b
          yields x (if w.v then some w.val else none) w.v),
        (.lexit g, fun x => { exits := x.level.isSome })],
      CellsDo s r p.1 (runs p.1) p.2)

/-- 11_cell_isa.md R143 to R148, 07_numbers.md R79 to R83: the FP32 lane instructions round the exact result of their sources, read under SUBN, as FMT
says; FMIN, FMAX, FABS and FNEG keep bits, and flush a tiny result where SUBN is not 0. FRCP, FRSQ, FEXP2, FLOG2 and FTANH give `frcpOf` and its like, whose value is a free value within the
bound of R92 where the tables of R146 state none (log entry 7). FMIN, FMAX, FABS and FNEG flush without UNF (log entry 69), and a zero that FRND
gives for a smaller source keeps its sign (log entry 76): the model's choices.
11_cell_isa.md R147, R149, R150, R157: conversions (a widening one flushes as every result does, log entry 11), BF16 pairs, BFMA and RAND (log
entry 49). Every element is rounded with its own draw. -/
def Obligations.FloatAndPackedResults : Prop :=
  (∀ (s : State) (r : Run) (g : PGuard) (d a b : BitVec 6) (m3 : BitVec 3),
      let A (x : LaneIn) : Word := (x.inp.word a.toNat).val
      let B (x : LaneIn) : Word := (x.inp.word b.toNat).val
      let F (x : LaneIn) (w : Word) : ExactNum := fp32.readIn (fmtSubn x.fmt) w.toNat
      let how (x : LaneIn) : Rounding := ⟨modeOf (fmtRm x.fmt), fmtSat x.fmt, fmtSubn x.fmt, x.draw 0⟩
      let rounded (x : LaneIn) (v : ExactNum) (inv : Bool) : Word × XFlags :=
        let q := fp32.round (how x) v
        (BitVec.ofNat 32 q.1, if inv then q.2 ||| xInv else q.2)
      let down (x : LaneIn) : Bool := fmtDown x.fmt
      let keep (x : LaneIn) (w : Word) : Word := if fmtSubn x.fmt ≠ 0 ∧ fp32.subnormal w.toNat = true then w &&& 0x80000000 else w
      let nan2 (x : LaneIn) : Bool := F x (A x) == .nan || F x (B x) == .nan
      let word (q : Nat × XFlags) : Word × XFlags := (BitVec.ofNat 32 q.1, q.2)
      ∀ p ∈ [
        (Instr.fadd g d a b, 4, fun x => let v := (F x (A x)).add (down x) (F x (B x)); rounded x v.1 v.2),
        (.fsub g d a b, 4, fun x => let v := (F x (A x)).add (down x) (F x (B x)).negate; rounded x v.1 v.2),
        (.fmul g d a b, 4, fun x => let v := (F x (A x)).mul (F x (B x)); rounded x v.1 v.2),
        (.ffma g d a b, 4, fun x =>
          let z := F x (x.inp.word d.toNat).val
          let m := (F x (A x)).mul (F x (B x))
          let v := m.1.add (down x) z
          rounded x v.1 ((m.2 || v.2) && z != .nan)),
        (.fmin g d a b, 1, fun x => (if nan2 x then 0x7FC00000 else if (F x (B x)).below (F x (A x)) then keep x (B x) else keep x (A x), 0)),
        (.fmax g d a b, 1, fun x => (if nan2 x then 0x7FC00000 else if (F x (A x)).below (F x (B x)) then keep x (B x) else keep x (A x), 0)),
        (.fabs g d a, 1, fun x => (if F x (A x) = .nan then 0x7FC00000 else keep x (A x) &&& 0x7FFFFFFF, 0)),
        (.fneg g d a, 1, fun x => (if F x (A x) = .nan then 0x7FC00000 else keep x (A x) ^^^ 0x80000000, 0)),
        (.frcp g d a, 8, fun x => word (frcpOf (fmtSubn x.fmt) (A x))),
        (.frsq g d a, 8, fun x => word (frsqOf (fmtSubn x.fmt) (A x))),
        (.fexp2 g d a, 8, fun x => word (fexp2Of (fmtSubn x.fmt) (A x))),
        (.flog2 g d a, 8, fun x => word (flog2Of (fmtSubn x.fmt) (A x))),
        (.ftanh g d a, 8, fun x => word (ftanhOf (fmtSubn x.fmt) (A x))),
        (.frnd g d a m3, 4, fun x => (match F x (A x) with
          | .nan => 0x7FC00000
          | .inf _ => A x
          | .fin neg m e =>
            let mode := if m3 = 0 then modeOf (fmtRm x.fmt) else if m3 = 1 then .rne else if m3 = 2 then .rz else if m3 = 3 then .ru else .rd
            BitVec.ofNat 32 (fp32.round roundPlain (.fin neg (roundUnits mode (x.draw 0) neg m e 0) 0)).1, 0))],
      CellsDo s r p.1 (fun x => x.live p.1) (fun x => x.gives d p.2.1 (p.2.2 x).1 (p.2.2 x).2))
  ∧ (∀ (s : State) (r : Run) (g : PGuard) (d a b : BitVec 6) (m3 : BitVec 3) (m2 : BitVec 2),
      let A (x : LaneIn) : Word := (x.inp.word a.toNat).val
      let B (x : LaneIn) : Word := (x.inp.word b.toNat).val
      let D (x : LaneIn) : Word := (x.inp.word d.toNat).val
      let how (x : LaneIn) (e : Nat) : Rounding := ⟨modeOf (fmtRm x.fmt), fmtSat x.fmt, fmtSubn x.fmt, x.draw e⟩
      let down (x : LaneIn) : Bool := fmtDown x.fmt
      let F (x : LaneIn) (w : Word) : ExactNum := fp32.readIn (fmtSubn x.fmt) w.toNat
      let H (x : LaneIn) (w : Word) (e : Nat) : ExactNum := bf16.readIn (fmtSubn x.fmt) (w.toNat / 2 ^ (16 * e) % 2 ^ 16)
      let inv (q : Nat × XFlags) (i : Bool) : Nat × XFlags := (q.1, if i then q.2 ||| xInv else q.2)
      let single (x : LaneIn) (v : ExactNum × Bool) : Word × XFlags := let q := inv (fp32.round (how x 0) v.1) v.2; (BitVec.ofNat 32 q.1, q.2)
      let pair (x : LaneIn) (f : FloatFmt) (v : Nat → ExactNum × Bool) : Word × XFlags :=
        let lo := inv (f.round (how x 0) (v 0).1) (v 0).2
        let hi := inv (f.round (how x 1) (v 1).1) (v 1).2
        (BitVec.ofNat 32 (hi.1 * 2 ^ f.width + lo.1), lo.2 ||| hi.2)
      let both (x : LaneIn) : Nat → ExactNum × Bool := fun e => (F x (if e = 0 then A x else B x), false)
      let fused (x : LaneIn) (p q z : ExactNum) : ExactNum × Bool := let m := p.mul q; let v := m.1.add (down x) z; (v.1, m.2 || v.2)
      ∀ p ∈ [
        (Instr.fcvt g d a b m3, fun x =>
          if m3 = 0 then let q := toIntFmt 32 (how x 0) (F x (A x)); (BitVec.ofInt 32 q.1, q.2)
          else if m3 = 1 then single x (numOfInt (A x).toInt, false)
          else if m3 = 2 then pair x bf16 (both x)
          else if m3 = 3 then pair x fp16 (both x)
          else if m3 = 4 then single x (bf16.readIn (fmtSubn x.fmt) ((A x).toNat % 2 ^ 16), false)
          else if m3 = 5 then single x (fp16.readIn (fmtSubn x.fmt) ((A x).toNat % 2 ^ 16), false)
          else if m3 = 6 then pair x fpE4m3 (both x)
          else pair x fpE5m2 (both x)),
        (.hadd2 g d a b, fun x => pair x bf16 (fun e => (H x (A x) e).add (down x) (H x (B x) e))),
        (.hmul2 g d a b, fun x => pair x bf16 (fun e => (H x (A x) e).mul (H x (B x) e))),
        (.hfma2 g d a b, fun x => pair x bf16 (fun e => fused x (H x (A x) e) (H x (B x) e) (H x (D x) e))),
        (.bfma g d a b m2, fun x => single x (fused x (H x (A x) (if m2 = 1 ∨ m2 = 3 then 1 else 0)) (H x (B x) (if m2 = 1 ∨ m2 = 2 then 1 else 0)) (F x (D x)))),
        (.rand g d a m2, fun x =>
          let o := x.random (A x &&& 0x7FFFFFFF)
          (if m2 = 0 then o.1 else if m2 = 1 then o.2.1 else if m2 = 2 then o.2.2.1 else o.2.2.2, 0))],
      CellsDo s r p.1 (fun x => x.live p.1) (fun x => x.gives d 4 (p.2 x).1 (p.2 x).2))

/-- 11_cell_isa.md R146: what the table states exactly: every NaN, the infinities, both zeros, every negative operand of FRSQ and FLOG2, powers of
two, the subnormal ones (2^(j - 276)) among them, every whole exponent of FEXP2 from -149 to 127, every exponent of 128 or more, and results below
2^-150. A subnormal operand is read as 0 where SUBN = 2; the reciprocal of a subnormal power of two below 2^-127 is not representable, and overflows
to infinity. A result below 2^-126 is kept where SUBN = 0 and flushed with UNF otherwise; a zero that stands for a result below 2^-150 is flushed so
too (07_numbers.md R82; log entry 7). 07_numbers.md R92: at every other finite input too the result under SUBN = 0 lies within the bound of its
function: 1 ulp for FRCP and FRSQ, 2 for FEXP2 and FLOG2, 4 for FTANH, where ulp(y) = 2^(max(floor(log2 |y|), -126) - 23) for the exact result y; and
under another SUBN it is that, or a flushed one. -/
def Obligations.SpecialFunctionsAtTheirExactPoints : Prop :=
  ∀ (k j n : Nat) (a : Word) (sign : Bool) (man : Nat) (ex : Int),
    let two (e : Int) : Word := BitVec.ofNat 32 ((e + 127).toNat * 2 ^ 23)
    let whole (v : Int) : Word := BitVec.ofNat 32 (fp32.round roundPlain (numOfInt v)).1
    let nan : Word := 0x7FC00000
    let bits (q : Nat × XFlags) : Word × XFlags := (BitVec.ofNat 32 q.1, q.2)
    let tiny (w : Word) : Word × XFlags := if n = 0 then (w, 0) else (0, xUnf)
    let low : Word := BitVec.ofNat 32 (2 ^ (j - 127))
    let real (neg : Bool) (m : Nat) (e : Int) : ℝ := (if neg then -1 else 1) * (m : ℝ) * (2 : ℝ) ^ e
    let x : ℝ := real sign man ex
    let within (q : Nat × XFlags) (u : Nat) (y : ℝ) : Prop := ∃ neg m e, fp32.read q.1 = .fin neg m e
      ∧ |real neg m e - y| ≤ (u : ℝ) * (2 : ℝ) ^ (max ⌊Real.logb 2 |y|⌋ (-126) - 23)
    k < 254 → 127 ≤ j → j ≤ 149 → n < 3 →
      (fp32.read a.toNat = .nan → ∀ f ∈ [frcpOf n, frsqOf n, fexp2Of n, flog2Of n, ftanhOf n], bits (f a) = (nan, 0))
      ∧ (∀ m e, fp32.readIn n a.toNat = .fin true m e → m ≠ 0 → bits (frsqOf n a) = (nan, xInv) ∧ bits (flog2Of n a) = (nan, xInv))
      ∧ (0x43000000 ≤ a.toNat → a.toNat < 0x7F800000 → bits (fexp2Of n a) = (0x7F800000, xOvf))
      ∧ (0xC3160000 < a.toNat → a.toNat < 0xFF800000 → bits (fexp2Of n a) = tiny 0)
      ∧ bits (frcpOf n 0x7F800000) = (0, 0) ∧ bits (frcpOf n 0xFF800000) = (0x80000000, 0)
      ∧ bits (frcpOf n 0) = (0x7F800000, 0) ∧ bits (frcpOf n 0x80000000) = (0xFF800000, 0)
      ∧ (k < 253 → bits (frcpOf n (two ((k : Int) - 126))) = (two (126 - k), 0)
          ∧ bits (frcpOf n (0x80000000 ||| two ((k : Int) - 126))) = (0x80000000 ||| two (126 - k), 0))
      ∧ bits (frcpOf n (two 127)) = tiny 0x00400000
      ∧ bits (frcpOf n low) = (if n = 2 then (0x7F800000, 0) else if j = 149 then (two 127, 0) else (0x7F800000, xOvf))
      ∧ bits (frcpOf n (0x80000000 ||| low)) = (if n = 2 then (0xFF800000, 0) else if j = 149 then (0x80000000 ||| two 127, 0) else (0xFF800000, xOvf))
      ∧ (j % 2 = 0 → bits (frsqOf n low) = (if n = 2 then (0x7F800000, 0) else (two ((276 - j) / 2), 0)))
      ∧ bits (flog2Of n low) = (if n = 2 then (0xFF800000, 0) else (whole ((j : Int) - 276), 0))
      ∧ bits (frsqOf n 0x7F800000) = (0, 0) ∧ bits (frsqOf n 0) = (0x7F800000, 0) ∧ bits (frsqOf n 0x80000000) = (0xFF800000, 0)
      ∧ bits (frsqOf n 0xFF800000) = (nan, xInv)
      ∧ (k < 127 → bits (frsqOf n (two (2 * ((k : Int) - 63)))) = (two (63 - k), 0))
      ∧ bits (fexp2Of n 0x7F800000) = (0x7F800000, 0) ∧ bits (fexp2Of n 0xFF800000) = (0, 0) ∧ bits (fexp2Of n 0) = (0x3F800000, 0)
      ∧ bits (fexp2Of n 0x80000000) = (0x3F800000, 0) ∧ bits (fexp2Of n (whole (-(j : Int)))) = tiny (BitVec.ofNat 32 (2 ^ (149 - j)))
      ∧ bits (fexp2Of n (whole ((k : Int) - 126))) = (two ((k : Int) - 126), 0)
      ∧ bits (flog2Of n 0x7F800000) = (0x7F800000, 0) ∧ bits (flog2Of n 0) = (0xFF800000, 0)
      ∧ bits (flog2Of n 0xFF800000) = (nan, xInv) ∧ bits (flog2Of n 0x80000000) = (0xFF800000, 0)
      ∧ bits (flog2Of n (two ((k : Int) - 126))) = (whole ((k : Int) - 126), 0)
      ∧ bits (ftanhOf n 0x7F800000) = (0x3F800000, 0) ∧ bits (ftanhOf n 0xFF800000) = (0xBF800000, 0) ∧ bits (ftanhOf n 0) = (0, 0)
      ∧ bits (ftanhOf n 0x80000000) = (0x80000000, 0)
      ∧ (fp32.read a.toNat = .fin sign man ex → man ≠ 0 →
          (|x|⁻¹ < (2 : ℝ) ^ (128 : Nat) → within (frcpOf 0 a) 1 x⁻¹)
          ∧ ((2 : ℝ) ^ (128 : Nat) ≤ |x|⁻¹ → bits (frcpOf 0 a) = (if sign then 0xFF800000 else 0x7F800000, xOvf))
          ∧ (sign = false → within (frsqOf 0 a) 1 (Real.sqrt x)⁻¹ ∧ within (flog2Of 0 a) 2 (Real.logb 2 x))
          ∧ (x < 128 → within (fexp2Of 0 a) 2 ((2 : ℝ) ^ x))
          ∧ within (ftanhOf 0 a) 4 (Real.tanh x)
          ∧ (n ≠ 0 → fp32.readIn n a.toNat = fp32.read a.toNat → ∀ f ∈ [frcpOf, frsqOf, fexp2Of, flog2Of, ftanhOf],
              f n a = f 0 a ∨ ((f 0 a).1 % 2 ^ 31 ≤ 2 ^ 23 ∧ f n a = ((f 0 a).1 / 2 ^ 31 * 2 ^ 31, xUnf))))

/-- 11_cell_isa.md R153 to R155, 01_machine.md R19: the cell store. The address is exact: the base word plus the scaled offset, raised by lidx in LDCA
and STCA. A load delivers its words after two steps, a store writes its valid words at the end of the step; an address outside the store raises
CELL.RANGE and a misaligned one CELL.ALIGN. COMM writes both words of its pair, swapped or doubled. -/
def Obligations.CellStoreAccesses : Prop :=
  ∀ (s : State) (r : Run) (g : PGuard) (d a b : BitVec 6) (o : BitVec 9) (m : BitVec 2),
    let W (x : LaneIn) (c : Nat) : VWord := x.inp.word c
    let base (x : LaneIn) : Int := ((W x b.toNat).val.toNat : Int)
    let plain (n : Nat) (x : LaneIn) : Int := base x + n * o.toInt
    let raised (x : LaneIn) : Int := base x + 4 * (o.toInt + x.inp.lidx.toNat)
    let inside (at' : Int) (n : Nat) : Prop := 0 ≤ at' ∧ at' + n ≤ 0x2100
    let fine (n : Nat) (at' : LaneIn → Int) (x : LaneIn) : Prop := inside (at' x) n ∧ at' x % n = 0 ∧ x.storeUe (at' x).toNat n = false
    let put (x : LaneIn) (c : Nat) (w : Word) : Landing := .word (x.inp.place c) (some w) true
    let loads (n : Nat) (at' : LaneIn → Int) (x : LaneIn) : SlotOut :=
      { lat := 2, pushes := true, lands := (List.range (n / 4)).map (fun k => put x (d.toNat + k) (x.inp.cell.load4 ((at' x).toNat + 4 * k))) }
    let stores (n : Nat) (at' : LaneIn → Int) (x : LaneIn) : SlotOut :=
      { stores := ((List.range (n / 4)).filter (fun k => (W x (d.toNat + k)).v)).map (fun k => ((at' x).toNat + 4 * k, (W x (d.toNat + k)).val)) }
    let some' (n : Nat) (x : LaneIn) : Prop := ∃ k, k < n / 4 ∧ (W x (d.toNat + k)).v = true
    (∀ p ∈ [(Instr.ldc g d b o, 4, plain 4), (.ldc2 g d b o, 8, plain 8), (.ldca g d b o, 4, raised)],
      CellsDo s r p.1 (fun x => x.live p.1 ∧ fine p.2.1 p.2.2 x) (loads p.2.1 p.2.2)
      ∧ CellsFault s r p.1 (fun x => x.live p.1 ∧ ¬ inside (p.2.2 x) p.2.1) 0x040
      ∧ CellsFault s r p.1 (fun x => x.live p.1 ∧ inside (p.2.2 x) p.2.1 ∧ p.2.2 x % p.2.1 ≠ 0) 0x041)
    ∧ (∀ p ∈ [(Instr.stc g d b o, 4, plain 4), (.stc2 g d b o, 8, plain 8), (.stca g d b o, 4, raised)],
      let live (x : LaneIn) : Prop := x.inp.guard g = true ∧ x.readsUe p.1 = false ∧ (W x b.toNat).v = true
      CellsDo s r p.1 (fun x => live x ∧ some' p.2.1 x ∧ inside (p.2.2 x) p.2.1 ∧ p.2.2 x % p.2.1 = 0) (stores p.2.1 p.2.2)
      ∧ CellsDo s r p.1 (fun x => x.inp.guard g = true ∧ x.readsUe p.1 = false ∧ ((W x b.toNat).v = false ∨ ¬ some' p.2.1 x)) (fun _ => {})
      ∧ CellsFault s r p.1 (fun x => live x ∧ some' p.2.1 x ∧ ¬ inside (p.2.2 x) p.2.1) 0x040
      ∧ CellsFault s r p.1 (fun x => live x ∧ some' p.2.1 x ∧ inside (p.2.2 x) p.2.1 ∧ p.2.2 x % p.2.1 ≠ 0) 0x041)
    ∧ CellsDo s r (.comm g d a m) (fun x => x.live (.comm g d a m)) (fun x =>
        let lo := (W x a.toNat).val
        let hi := (W x (a.toNat + 1)).val
        { lands := [put x d.toNat (if m = 0 ∨ m = 2 then lo else hi), put x (d.toNat + 1) (if m = 0 ∨ m = 3 then hi else lo)], pushes := true })

/-- 07_numbers.md R91, 15_semiring_isa.md R211 to R213: the products. Every element of the accumulator combines its value, or ZERO under .Z or where V
is 0, with the terms of its row and column under the entry that the bundle carries: k terms for SMM, k scaled terms for SMMS, and for SEXPN the
kept member of each of k pairs. With an invalid word in a fragment the instruction is skipped. The or and xor of scaled
terms that are not whole is a free value (log entry 12); what raises IND and SCL in corners is log entry 49. -/
def Obligations.TileProductsCombineTheirTerms : Prop :=
  ∀ (s : State) (r : Run) (g : PGuard) (c : BitVec 2) (e : BitVec 4) (a b : BitVec 6) (b4 : BitVec 4) (z : Bool),
    let k (x : LaneIn) : Nat := fmtK x.fmt
    let pair (x : LaneIn) (n : Nat) : DWord := (x.inp.word (n + 1)).val ++ (x.inp.word n).val
    let elem (x : LaneIn) (i : Nat) : ExactNum :=
      let acc := x.inp.cell.accum c.toNat
      if acc.v then accValue x.fmt (vget acc.elems i 0) else semZero x.entry
    let A (x : LaneIn) (i n : Nat) : ExactNum := elemA x.fmt (pair x a.toNat) (i / 4) n
    let B (x : LaneIn) (i n : Nat) : ExactNum := elemB x.fmt (pair x b.toNat) n (i % 4)
    let times (x : LaneIn) (sc : Option Scales) (u v : ExactNum) : Option (ExactNum × XFlags) := termOf x.entry (fmtDown x.fmt) sc u v
    let scales (x : LaneIn) (i : Nat) : Scales :=
      let n := k x * x.inp.lidx.toNat / 32 % 32
      let byte (o : Nat) : Byte := tabGet 0 x.inp.cell.store (0x2000 + 8 * n + o)
      ⟨x.inp.cell.tsa, x.inp.cell.tsb, if fmtBse x.fmt then some (byte (i / 4), byte (4 + i % 4)) else none⟩
    let kept (x : LaneIn) (i n : Nat) : ExactNum :=
      let o := 4 * k x * ((4 * x.inp.lidx.toNat + c.toNat) % (512 / k x)) + (i / 4 * k x + n)
      let p := 2 * n + (if (tabGet 0 x.inp.cell.store (0x2000 + o / 8)).getLsbD (o % 8) then 1 else 0)
      if p < k x then elemB x.fmt (pair x (4 * b4.toNat)) p (i % 4) else elemB x.fmt (pair x (4 * b4.toNat + 2)) (p - k x) (i % 4)
    let out (x : LaneIn) (terms : Nat → Nat → Option (ExactNum × XFlags)) : SlotOut :=
      let v (i : Nat) : Word × XFlags :=
        combine x.entry x.fmt (x.draw i) (if z then semZero x.entry else elem x i) ((List.range (k x)).filterMap (terms i))
      { lat := 4, lands := [.acc c.toNat ((List.range 16).map (fun i => (i, (v i).1))) true],
        raises := (List.range 16).foldl (fun f i => f ||| (v i).2) 0 }
    let read (i : Instr) (x : LaneIn) : Prop :=
      x.inp.guard g = true ∧ x.readsUe i = false ∧ (z = true ∨ x.inp.cell.ue.contains (64 + c.toNat) = false)
    ∀ p ∈ [
      (Instr.smm g c e a b z, fun x => out x (fun i n => times x none (A x i n) (B x i n))),
      (.smms g c e a b z, fun x => out x (fun i n => times x (some (scales x i)) (A x i n) (B x i n))),
      (.sexpn g c e a b4 z, fun x => out x (fun i n => times x none (A x i n) (kept x i n)))],
    CellsDo s r p.1 (fun x => read p.1 x ∧ ∀ n ∈ cellSrcs p.1, (x.inp.word n).v = true) p.2
    ∧ CellsDo s r p.1 (fun x => read p.1 x ∧ ∃ n ∈ cellSrcs p.1, (x.inp.word n).v = false) (fun _ => {})

/-- 15_semiring_isa.md R204, R214 to R216: SMZ writes ZERO, SMADD combines two accumulators, and SMRED reduces one along rows, along columns or whole,
with ZERO in every other element. 07_numbers.md R99, 15_semiring_isa.md R217, R218: SMCMP writes one bit for sixteen pairs of elements. SCMPR
keeps the N most significant of 32 elements and SCMPR.PAIR the more significant of each pair, the lower index first on a tie; the others become
ZERO, and D gets the mask of those kept. With an invalid N, SCMPR marks its destinations invalid. That SMZ is not flushed under SUBN, and corners of
a sum in an integer or Boolean domain, are log entries 49 and 12. -/
def Obligations.TileArithmeticAndComparisons : Prop :=
  (∀ (s : State) (r : Run) (g : PGuard) (c d : BitVec 2) (e : BitVec 4) (m : BitVec 3),
      let elem (x : LaneIn) (n : BitVec 2) (i : Nat) : ExactNum :=
        let acc := x.inp.cell.accum n.toNat
        if acc.v then accValue x.fmt (vget acc.elems i 0) else semZero x.entry
      let sum (x : LaneIn) (i : Nat) (first : ExactNum) (l : List ExactNum) : Word × XFlags := combine x.entry x.fmt (x.draw i) first (l.map (fun v => (v, 0)))
      let zero (x : LaneIn) : Word × XFlags := (zeroWord x.fmt x.entry, 0)
      let row (x : LaneIn) (i : Nat) (l : List Nat) : Word × XFlags := sum x i (elem x d (l.headD 0)) (l.tail.map (elem x d))
      ∀ p ∈ [
        (Instr.smz g c e, fun x _ => zero x),
        (.smadd g c e d, fun x i => sum x i (elem x c i) [elem x d i]),
        (.smred g c e d m, fun x i =>
          if m = 0 then (if i % 4 = 0 then row x i [i, i + 1, i + 2, i + 3] else zero x)
          else if m = 1 then (if i < 4 then row x i [i, i + 4, i + 8, i + 12] else zero x)
          else if i = 0 then row x i (List.range 16) else zero x)],
      CellsDo s r p.1
        (fun x => x.inp.guard g = true ∧ ∀ n, x.inp.cell.ue.contains (64 + n) = false)
        (fun x => { lat := 4, lands := [.acc c.toNat ((List.range 16).map (fun i => (i, (p.2 x i).1))) true],
                    raises := (List.range 16).foldl (fun f i => f ||| (p.2 x i).2) 0 }))
  ∧ (∀ (s : State) (r : Run) (g : PGuard) (c k : BitVec 2) (h : Bool) (e p : BitVec 4) (a d : BitVec 6) (m : BitVec 2),
      let q := if h then 2 else 0
      let elem (x : LaneIn) (n i : Nat) : ExactNum :=
        let acc := x.inp.cell.accum n
        if acc.v then accValue x.fmt (vget acc.elems i 0) else semZero x.entry
      let of32 (x : LaneIn) (i : Nat) : ExactNum := elem x (q + i / 16) (i % 16)
      let same (x : LaneIn) (i : Nat) : Bool :=
        (elem x c.toNat i == .nan && elem x k.toNat i == .nan) || (elem x c.toNat i).eqv (elem x k.toNat i)
      let all := List.range 16
      let bit (x : LaneIn) : Bool :=
        if m = 0 then all.all (same x) else if m = 1 then !all.all (same x)
        else if m = 2 then all.any (fun i => moreSig x.entry (elem x c.toNat i) (elem x k.toNat i))
        else !all.any (fun i => moreSig x.entry (elem x c.toNat i) (elem x k.toNat i))
      let ahead (x : LaneIn) (j i : Nat) : Bool :=
        moreSig x.entry (of32 x j) (of32 x i) || (!moreSig x.entry (of32 x i) (of32 x j) && decide (j < i))
      let first (x : LaneIn) (n i : Nat) : Bool := decide (((List.range 32).filter (fun j => j != i && ahead x j i)).length < n)
      let winner (x : LaneIn) (i : Nat) : Bool :=
        if i % 2 = 0 then !moreSig x.entry (of32 x (i + 1)) (of32 x i) else moreSig x.entry (of32 x i) (of32 x (i - 1))
      let out (x : LaneIn) (keep : Nat → Bool) : SlotOut :=
        let word (i : Nat) : Word :=
          let acc := x.inp.cell.accum (q + i / 16)
          if keep i = true ∧ acc.v = true then vget acc.elems (i % 16) 0 else zeroWord x.fmt x.entry
        { lat := 4, pushes := true,
          lands := [.acc q (all.map (fun i => (i, word i))) true, .acc (q + 1) (all.map (fun i => (i, word (16 + i)))) true,
            .word (x.inp.place d.toNat) (some (BitVec.ofNat 32 (((List.range 32).filter keep).foldl (fun m i => m + 2 ^ i) 0))) true] }
      let clean (x : LaneIn) : Prop := x.inp.guard g = true ∧ ∀ n, x.inp.cell.ue.contains n = false
      CellsDo s r (.smcmp g c e k p m) clean (fun x => x.decides p (bit x) 0)
      ∧ CellsDo s r (.scmpr g d a h e) (fun x => clean x ∧ (x.inp.word a.toNat).v = true)
          (fun x => out x (first x (min (x.inp.word a.toNat).val.toNat 32)))
      ∧ CellsDo s r (.scmpr g d a h e) (fun x => clean x ∧ (x.inp.word a.toNat).v = false)
          (fun x => { lat := 4, pushes := true,
                      lands := [.acc q [] false, .acc (q + 1) [] false, .word (x.inp.place d.toNat) none false] })
      ∧ CellsDo s r (.scmprPair g d h e) clean (fun x => out x (winner x)))

/-- 15_semiring_isa.md R219 to R223: transfers between accumulators, pairs and the edges. SMRD, SMOUT and BPACK write what the accumulator holds, with
its V and without a raise where V is 0; SMWR and BUNPK write the elements that they name, and mark the accumulator invalid where their source is.
07_numbers.md R82: a subnormal that BUNPK widens into FP32 is tiny, and flushes to zero of its sign with UNF where SUBN is not 0 (`widen`). -/
def Obligations.TileTransfersMoveElements : Prop :=
  ∀ (s : State) (r : Run) (g : PGuard) (c j2 : BitVec 2) (e3 : BitVec 3) (e4 e : BitVec 4) (a d : BitVec 6) (south sd : Bool),
    let k (x : LaneIn) : Nat := fmtK x.fmt
    let pair (x : LaneIn) (n : Nat) : DWord := (x.inp.word (n + 1)).val ++ (x.inp.word n).val
    let acc (x : LaneIn) : Acc := x.inp.cell.accum c.toNat
    let raw (x : LaneIn) (i : Nat) : Word := vget (acc x).elems i 0
    let how (x : LaneIn) (i : Nat) : Rounding := ⟨modeOf (fmtRm x.fmt), fmtSat x.fmt, fmtSubn x.fmt, x.draw i⟩
    let yields (x : LaneIn) (n lat : Nat) (w : DWord) (raises : XFlags) : SlotOut :=
      { lat := lat, pushes := true, raises := if (acc x).v then raises else 0,
        lands := [.word (x.inp.place n) (some (w.setWidth 32)) (acc x).v, .word (x.inp.place (n + 1)) (some (w.extractLsb' 32 32)) (acc x).v] }
    let out : Nat := if south then 54 else 52
    let row (x : LaneIn) : List (Nat × XFlags) :=
      (List.range 4).map (fun n => bf16.round (how x n) (accValue x.fmt (raw x (4 * e4.toNat + n))))
    let code (x : LaneIn) : Nat := if sd then fmtB x.fmt else fmtA x.fmt
    let planes (x : LaneIn) : Nat := if sd then fmtBq x.fmt else fmtAq x.fmt
    let place (x : LaneIn) (i : Nat) : Option Nat :=
      if sd then (if j2.toNat * k x + i / 4 < 4 then some (4 * (j2.toNat * k x + i / 4) + i % 4) else none)
      else if j2.toNat * k x + i % k x < 4 then some (4 * (i / k x) + (j2.toNat * k x + i % k x)) else none
    let packed (x : LaneIn) : List (Nat × XFlags) := (List.range (4 * k x)).map (fun i =>
      match place x i with
      | some p => toFrag (how x i) (code x) (planes x) (fmtAccInt x.fmt) (accValue x.fmt (raw x p))
      | none => toFrag (how x i) (code x) (planes x) (!semReal x.entry) (semZero x.entry))
    let wide (x : LaneIn) : List (Nat × Word × XFlags) := (List.range (4 * k x)).filterMap (fun i =>
      (place x i).map (fun p => (p, widen x.fmt (x.draw i) (fragElem x.fmt (code x) (planes x) (4 * k x) (pair x a.toNat) i))))
    let flags (l : List XFlags) : XFlags := l.foldl (fun f q => f ||| q) 0
    let ok (i : Instr) (x : LaneIn) : Prop := x.inp.guard g = true ∧ x.readsUe i = false ∧ ∀ n, x.inp.cell.ue.contains (64 + n) = false
    let valid (x : LaneIn) : Bool := (x.inp.word a.toNat).v && (x.inp.word (a.toNat + 1)).v
    ∀ p ∈ [
      (Instr.smrd g d c e3, fun x => yields x d.toNat 1 (raw x (2 * e3.toNat + 1) ++ raw x (2 * e3.toNat)) 0),
      (.smout g c e4 false south, fun x => yields x out 1 (raw x (2 * e4.toNat + 1) ++ raw x (2 * e4.toNat)) 0),
      (.smout g c e4 true south, fun x => yields x out 1 (layFrag 0 0 ((row x).map (·.1))) (flags ((row x).map (·.2)))),
      (.bpack g d c e sd j2, fun x => yields x d.toNat 4 (layFrag (code x) (planes x) ((packed x).map (·.1))) (flags ((packed x).map (·.2)))),
      (.smwr g a c e3, fun x =>
        let w := pair x a.toNat
        { lat := 4, lands := [if valid x then .acc c.toNat [(2 * e3.toNat, w.setWidth 32), (2 * e3.toNat + 1, w.extractLsb' 32 32)] true
                              else .acc c.toNat [] false] }),
      (.bunpk g a c sd j2, fun x =>
        { lat := 4, raises := if valid x then flags ((wide x).map (·.2.2)) else 0,
          lands := [if valid x then .acc c.toNat ((wide x).map (fun q => (q.1, q.2.1))) true else .acc c.toNat [] false] })],
    CellsDo s r p.1 (ok p.1) p.2

/-! ## Faces and engines -/

/-- 13_faces_engines.md R161, R172 to R174, R179: what a face command means for the lanes of its face. A bundle before the command never sees it; its
own bundle and later ones do: FIGO, FISEL and FDGO add a pattern, FICFG, FIHALT and FDHALT leave none, FIPAD sets the padding element and FDCHAIN
the chain. 13_faces_engines.md R168: the address of a step is exact: BASE, the lane's distance and the offsets of the four levels, the innermost
first, each counted down where its REV is set; and a pattern has the product of its counts in steps, with PADN padding steps after them.
13_faces_engines.md R163: the 16 bytes of a receipt: STATE, CLASS, UNIT, PROG and ADDR at their bits. -/
def Obligations.FaceCommandsPatternsAndReceipts : Prop :=
  (∀ (f : Face) (k j : Nat) (b src : Bool) (e : VPair) (c : Option Chain) (x : Bank) (p : Pattern) (tag : BitVec 48),
      let sees (g : Face) : List (Nat × Pattern) := streamAt g.log j
      (∀ q ∈ f.log, q.1 ≤ k) →
        (j < k → ∀ g ∈ [f.cfg k src, f.go k b, f.sel k b, f.add k .halt, f.add k (.pad e), f.add k (.chain c), f.drainGo k],
          sees g = sees f ∧ padAt g.log j = padAt f.log j ∧ chainAt g.log j = chainAt f.log j)
        ∧ (k ≤ j →
          sees (f.cfg k src) = [] ∧ sees (f.add k .halt) = []
          ∧ (f.bank b = some x → sees (f.go k b) = sees f ++ [(x.pid, x.pat)] ∧ sees (f.sel k b) = sees f ++ [(x.pid, x.pat)])
          ∧ (f.pending = some p → sees (f.drainGo k) = sees f ++ [(f.nextPid, p)])
          ∧ sees (f.add k (.pad e)) = sees f ∧ padAt (f.add k (.pad e)).log j = e
          ∧ sees (f.add k (.chain c)) = sees f ∧ chainAt (f.add k (.chain c)).log j = c)
        ∧ (f.cfg k src).src = src ∧ (∀ h, (f.cfg k src).bank h = none) ∧ (∀ h, (f.add k .halt).bank h = f.bank h)
        ∧ (f.bank b = some x → (f.go k b).bank b = none ∧ (f.go k b).bank (!b) = f.bank (!b) ∧ ∀ h, (f.sel k b).bank h = none)
        ∧ (f.load b p tag).bank b = some ⟨f.nextPid, p, tag⟩ ∧ (f.load b p tag).bank (!b) = f.bank (!b) ∧ (f.load b p tag).log = f.log
        ∧ (f.pending = some p → (f.drainGo k).pending = none))
  ∧ (∀ (p : Pattern) (l n c0 c1 c2 c3 : Nat) (t0 t1 t2 t3 : Int) (v0 v1 v2 v3 : Bool),
      p.count = [c0, c1, c2, c3] → p.stride = [t0, t1, t2, t3] → p.rev = [v0, v1, v2, v3] →
        let index (c m : Nat) (rev : Bool) : Int := if rev then (c - 1 - m % c : Nat) else (m % c : Nat)
        p.steps = c0 * c1 * c2 * c3 + p.padn
        ∧ p.addr l n = p.base + l * p.lstride + index c0 n v0 * t0 + index c1 (n / c0) v1 * t1 + index c2 (n / c0 / c1) v2 * t2
            + index c3 (n / c0 / c1 / c2) v3 * t3)
  ∧ (∀ (state cls unit prog addr : Nat), state < 2 ^ 4 → cls < 2 ^ 8 → unit < 2 ^ 16 → prog < 2 ^ 32 → addr < 2 ^ 64 →
      let b := receiptBytes state cls unit prog addr
      b.length = 16 ∧ leNat b = state + 2 ^ 4 * cls + 2 ^ 12 * unit + 2 ^ 32 * prog + 2 ^ 64 * addr)

/-- 13_faces_engines.md R173, R174: the inject commands that read no descriptor. FICFG with a reserved bit, FIGO on an empty bank or with a next
pattern held, FISEL without both banks loaded, and FIPAD.ZERO with a reserved bit raise FACE.PATTERN and do nothing. -/
def Obligations.InjectCommandsActOnTheirFaces : Prop :=
  ∀ (s : State) (r : Run) (g : QGuard) (a : BitVec 6) (north b : Bool) (q : BitVec 3),
    let old := r.foldRecords
    let side := if north then 1 else 0
    let v := old.x a
    let held : BitVec 3 → Bool := fun q => old.qval q.toNat
    let all (p : Face → Prop) : Prop := ∀ k ∈ old.arrays, p (s.face k side)
    let none' (i : Instr) : Prop := s.ready r i → Traps s i r (issueFault 0x0A6 0)
    let free (bank : Bool) (f : Face) : Prop := f.bank bank ≠ none ∧ f.held.length < 2
    let zero : VPair := padZero old.fmt (old.entry v.toNat) north
    old.guard g = true →
      (v.toNat < 2 → FacesDo s s r (.ficfg g a north) side (fun f => f.cfg old.stamp (v.getLsbD 0)))
      ∧ (2 ≤ v.toNat → old.arrays ≠ [] → none' (.ficfg g a north))
      ∧ (all (free b) → FacesDo s s r (.figo g north b) side (fun f => f.go old.stamp b))
      ∧ (¬ all (free b) → none' (.figo g north b))
      ∧ FacesDo s s r (.fihalt g north) side (fun f => f.add old.stamp .halt)
      ∧ FacesDo s s r (.fipad g a north 0) side (fun f => f.add old.stamp (.pad ⟨⟨v.setWidth 32, true⟩, ⟨v.extractLsb' 32 32, true⟩⟩))
      ∧ (v.toNat < 16 → FacesDo s s r (.fipad g a north 1) side (fun f => f.add old.stamp (.pad zero)))
      ∧ (16 ≤ v.toNat → old.arrays ≠ [] → none' (.fipad g a north 1))
      ∧ FacesDo s s r (.fipad g a north 2) side (fun f => f.add old.stamp (.pad ⟨⟨0, false⟩, ⟨0, false⟩⟩))
      ∧ (all (fun f => f.bank0 ≠ none ∧ f.bank1 ≠ none ∧ free (held q) f) →
          FacesDo s s r (.fisel g north q) side (fun f => f.sel old.stamp (held q)))
      ∧ (¬ all (fun f => f.bank0 ≠ none ∧ f.bank1 ≠ none ∧ free (held q) f) → none' (.fisel g north q))

/-- 13_faces_engines.md R162, R167, R173, R177, R179: the face commands that read a 64-byte descriptor. Its address is a multiple of 64, or ALIGN is
raised; content that is not valid raises FACE.PATTERN, and poison UE.CONSUMED or KEY.DEAD, and the command does nothing. 03_wave.md R43,
13_faces_engines.md R179: FDGO moves the pending pattern, FDHALT discards the patterns, and FDFLUSH, with its receipt translated for writing,
waits at its faces for the elements of the bundles before it. The faces are the east faces of the bench or the south face of its tail (log entry
13); where an FDHALT stands against elements of the same row and advance is log entry 55. -/
def Obligations.DescriptorAndDrainCommandsActOnTheirFaces : Prop :=
  (∀ (s s1 : State) (r : Run) (g : QGuard) (a t : BitVec 6) (second b : Bool) (acc : Access) (p : Pattern) (ch : Option Chain),
      let old := r.foldRecords
      let va := (old.x a).toNat % 2 ^ 55
      let inject := if second then 1 else 0
      let drain := if second then 3 else 2
      let o := s1.read old.agent acc 64
      let w := leWords 8 8 o.bytes
      let is := [Instr.fiqb g a t second b, .fdcfg g a second, .fdchain g a second]
      let stops (i : Instr) (cause addr : Nat) : Prop := s.ready r i → Traps s i r (issueFault cause addr)
      old.guard g = true →
        (va % 64 ≠ 0 → ∀ i ∈ is, stops i 0x002 va)
        ∧ (va % 64 = 0 → s.translate (.seq old.head) old.die old.ctx old.arrays va .read = (.ok acc, s1) →
            (o.poison = some .ue → ∀ i ∈ is, stops i 0x1D1 va)
            ∧ (o.poison = some .keyDead → ∀ i ∈ is, stops i 0x1D3 va)
            ∧ (o.poison = none →
                ((∀ k ∈ old.arrays, parsePattern w (o.st.face k inject).src false = some p) →
                  FacesDo s o.st r (.fiqb g a t second b) inject (fun f => f.load b p ((old.x t).setWidth 48)))
                ∧ ((∃ k ∈ old.arrays, parsePattern w (o.st.face k inject).src false = none) → stops (.fiqb g a t second b) 0x0A6 0)
                ∧ (parsePattern w true true = some p → FacesDo s o.st r (.fdcfg g a second) drain (fun f => { f with pending := some p }))
                ∧ (parsePattern w true true = none → stops (.fdcfg g a second) 0x0A6 0)
                ∧ (parseChain o.bytes old.fmt = some ch → FacesDo s o.st r (.fdchain g a second) drain (fun f => f.add old.stamp (.chain ch)))
                ∧ (parseChain o.bytes old.fmt = none → stops (.fdchain g a second) 0x0A6 0))))
  ∧ (∀ (s s1 : State) (r : Run) (g : QGuard) (a : BitVec 6) (south : Bool) (acc : Access),
      let old := r.foldRecords
      let side := if south then 3 else 2
      let va := (old.x a).toNat % 2 ^ 55
      let fine := ∀ k ∈ old.facesOf side, (s.face k side).pending ≠ none ∧ (s.face k side).held.length < 2
      old.guard g = true →
        (fine → FacesDo s s r (.fdgo g south) side (fun f => f.drainGo old.stamp))
        ∧ (¬ fine → s.ready r (.fdgo g south) → Traps s (.fdgo g south) r (issueFault 0x0A6 0))
        ∧ FacesDo s s r (.fdhalt g south) side (fun f => f.add old.stamp .halt)
        ∧ (va % 16 ≠ 0 → s.ready r (.fdflush g a south) → Traps s (.fdflush g a south) r (issueFault 0x002 va))
        ∧ (va % 16 = 0 → s.translate (.seq old.head) old.die old.ctx old.arrays va .write = (.ok acc, s1) →
            FacesDo s s1 r (.fdflush g a south) side (fun f => { f with
              flushes := f.flushes ++ [{ f.tally with stamp := old.stamp, rcpt := acc, va := va, head := old.head, ctx := old.ctx }],
              tally := Flush.zero })))

/-- 13_faces_engines.md R162, R164, R180: a command of S7 checks its descriptor and receipt addresses, translates the receipt, and enters the queue of
its engine with ACCEPTED written. With 32 commands of the task outstanding it waits, and past STALL.TMO raises ENGINE.FULL. SORTL also releases at
.pkg. 13_faces_engines.md R202: PRECV waits for a message in the inbox of its head array, copies the oldest to the scratchpad, writes its header
word and removes it. The model's choices: UNIT of the ACCEPTED receipt is the unit's code (log entry 14); what SORTL has written counts as released
up to .die alone (65); PRECV copies to any writable address (56); franks are exact lists of lines (19). -/
def Obligations.EngineAndPostCommands : Prop :=
  (∀ (s s1 : State) (r : Run) (g : QGuard) (d c t : BitVec 6) (u : Bool) (n : BitVec 3) (acc : Access),
      let old := r.foldRecords
      let D := (old.x d).toNat % 2 ^ 55
      let R := (old.x c).toNat % 2 ^ 55
      let T := (old.x t).toNat % 2 ^ 55
      let tag : BitVec 48 := (old.x t).setWidth 48
      let k := n.toNat
      old.guard g = true →
      ∀ p ∈ [
        (Instr.cpy g d c t n, k, D, 64, R, tag, ([] : List Nat)), (.cpya g d c t n, k, D, 64, R, tag, []), (.gath g d c t u n, k, D, 64, R, tag, []),
        (.scat g d c t u n, k, D, 64, R, tag, []), (.red g d c t n, k, D, 64, R, tag, []), (.ared g d c t n, k, D, 64, R, tag, []),
        (.bcst g d c t n, k, D, 64, R, tag, []), (.fill g d c t n, k, D, 64, R, tag, []), (.ckpt g d c t n, k, D, 64, R, tag, []),
        (.ccan g d c n, k, 0, 64, R, (old.x d).setWidth 48, []),
        (.sortb g d c, 8, D, 64, R, 0, []), (.sortm g d c, 8, D, 64, R, 0, []), (.sortd g d c, 8, D, 64, R, 0, []),
        (.sortl g d c, 8, D, 64, R, 0, []), (.post g d c t, 9, D, 16, T, 0, [(old.x c).toNat])],
      let i := p.1
      let (unit, desc, align, rcpt, tag, words) := p.2
      let sortl := match i with | .sortl .. => true | _ => false
      let lines := wroteAt old.wrote (max 3 (old.rel.getD 3))
      let x := if sortl then { old with wrote := wroteClear old.wrote (max 2 (old.rel.getD 2)), rel := none, relFrank := [] } else old
      let wide := max 3 (old.rel.getD 3)
      let frank := setUnion lines old.relFrank
      let s2 := if sortl then (s1.releaseLines old.head wide lines).forkLines old.head old.arrays wide frank else s1
      let cmd : Cmd :=
        { id := s2.nextCmd, die := old.die, unit := unit, op := i, ctx := old.ctx, task := some old.task, arrays := old.arrays, array := old.head,
          desc := desc, rcpt := rcpt, racc := some acc, tag := tag, words := words, started := false, startAt := 0,
          tmo := if old.stallTmo = 0 then 2 ^ 32 else old.stallTmo.toNat, prog := 0, wrote := false, lines := [],
          frank := if sortl then frank else [], sealSum := 0, parts := [], next := 0, waitAt := none, members := [],
          fresh := false, chunks := [], gen := 0, results := [], terminal := false, level := none }
      let v := { s2 with cmds := s2.cmds ++ [cmd], nextCmd := s2.nextCmd + 1 }.cmdReceipt cmd stAccepted 0 cmd.code 0 0 []
      let busy := 32 ≤ (s.cmds.filter (fun z => z.task == some old.task && !z.terminal)).length
      (desc % align ≠ 0 → s.ready r i → Traps s i r (issueFault 0x002 desc))
      ∧ (desc % align = 0 → rcpt % 16 ≠ 0 → s.ready r i → Traps s i r (issueFault 0x002 rcpt))
      ∧ (desc % align = 0 → rcpt % 16 = 0 → ∀ e, (s.translate (.seq old.head) old.die old.ctx old.arrays rcpt .write).1 = .error e → s.ready r i →
          Traps s i r (issueFault (if e = xUe then 0x1D1 else e) rcpt))
      ∧ (desc % align = 0 → rcpt % 16 = 0 → s.translate (.seq old.head) old.die old.ctx old.arrays rcpt .write = (.ok acc, s1) →
          (busy → old.stalledFor 3 s.ticks ≤ tmoTicks old.stallTmo → Stalls s r i 3 s)
          ∧ (busy → tmoTicks old.stallTmo < old.stalledFor 3 s.ticks → s.ready r i → Traps s i r (issueFault 0x160 0))
          ∧ (¬ busy → Completes s r i x v ∧ v.cmds = s.cmds ++ [cmd])))
  ∧ (∀ (s : State) (r : Run) (g : QGuard) (d t h : BitVec 6) (q : BitVec 3) (m : Message) (rest : List Message) (c : Ctl),
      let old := r.foldRecords
      let i := Instr.precv g d t h q
      let va := (old.x d).toNat % 2 ^ 55
      let u := c.s.setArr old.head { c.s.arr old.head with inbox := rest }
      old.guard g = true →
        (va % 16 ≠ 0 → s.ready r i → Traps s i r (issueFault 0x002 va))
        ∧ (va % 16 = 0 → (s.arr old.head).inbox = [] → Waits s r i 1 t q s none)
        ∧ (va % 16 = 0 → (s.arr old.head).inbox = m :: rest → (s.leaving old).storeFlits va m.flits = .ok c →
            Completes s r i ((c.r.setQ q.toNat false).setS h.toNat m.hdr) u ∧ (u.arr old.head).inbox = rest))

/-- 13_faces_engines.md R164, R185, R187, R165: an engine that takes a command reads its descriptor and writes STARTED, and a host copy its control
block in host memory (25_device.md R320); a POST writes STARTED, reads
its flits and sends its packet; a collective reads its group table. A courier command whose units are all done ends COMPLETE with their PROG, and CKPT
writes its header first (R186; its PROG counts the units of the data, log entry 73); a Sorter command ends once its list is out, COMPLETE or with LIST.OVER (R193 to R197); a CCAN ends what it matches
and counts it; a collective ends with its last chunk; an invalid descriptor ends any of them FAILED with DESC. A collective whose group has not formed
in time, or has members elsewhere that do not answer, and a command whose remote responder does not answer within STALL.TMO, end FAILED with TIMEOUT. 13_faces_engines.md R187 to R191: a member of
a collective that receives its next chunk, with every contribution made and its seal right, writes the combined elements at their place in DST,
writes the reduced flag into its map, and goes on; the first member that takes a chunk forms it for all. The model's readings: UNIT of a receipt
without an error (log entry 14), how a group joins and in which order elements are combined (56), when a remote access times out (57), how the Sorter
proceeds (40). -/
def Obligations.EngineCommandsStartAndEnd : Prop :=
  (∀ (s u v : State) (i m va : Nat) (x : Cmd) (bs tb : List Byte),
      s.cmd i = some x →
        let ends (j : Instr) (t : State) : Prop := exec j s = .next t ∧ ∀ y, t.cmd i = some y → y.terminal = true
        let copies : Bool := match x.op with | .cpy .. | .cpya .. | .gath .. | .scat .. | .fill .. => true | _ => false
        let host : Bool := match x.op with | .hcopyWrite .. => true | _ => false
        let ckpt : Bool := match x.op with | .ckpt .. => true | _ => false
        let sorts : Bool := match x.op with | .sortb .. | .sortm .. | .sortd .. => true | _ => false
        let sortl : Bool := match x.op with | .sortl .. => true | _ => false
        let post : Bool := match x.op with | .post .. => true | _ => false
        let begun (t : State) (ws : List Nat) : Cmd := { x with words := ws, started := true, startAt := t.ticks }
        let told (t : State) (y : Cmd) : State := t.cmdReceipt y stStarted 0 x.code 0 0 []
        (s.mayStart x = true →
          (isCcan x.op = true →
            exec (.engineCommandStart i) s = .next ((told s x).setCmd (begun s x.words))
            ∧ ((told s x).setCmd (begun s x.words)).cmd i = some (begun s x.words))
          ∧ (host = true → (∀ k, k < 64 → bs[k]? = some (tabGet 0 s.hostMem (x.desc + k))) → bs.length = 64 →
              let z := begun s (leWords 8 8 bs)
              exec (.engineCommandStart i) s = .next ((told s z).setCmd z) ∧ ((told s z).setCmd z).cmd i = some z)
          ∧ (copies = true ∨ ckpt = true ∨ sorts = true ∨ sortl = true → s.cmdRead x x.desc 64 = (.ok bs, u) →
              let z := begun u (leWords 8 8 bs)
              ∃ y, exec (.engineCommandStart i) s = .next ((told u z).setCmd y) ∧ ((told u z).setCmd y).cmd i = some y
                ∧ { y with level := x.level } = z)
          ∧ (isCollective x.op = true → s.cmdRead x x.desc 64 = (.ok bs, u) →
              let z := begun u (leWords 8 8 bs)
              let s1 := (told u z).setCmd z
              (z.collValid = false → ∃ y, exec (.engineCommandStart i) s = .next (s1.setCmd y) ∧ y.started = true ∧ { y with level := x.level } = z)
              ∧ (z.collValid = true → z.w 5 = 0 → s1.cmdRead z (z.w 3) (16 * z.collN) = (.ok tb, v) →
                  ∃ y, exec (.engineCommandStart i) s = .next (v.setCmd y) ∧ (v.setCmd y).cmd i = some y
                    ∧ y.members = (leWords 16 z.collN tb).map (fun e => (e % 1024, e / 2 ^ 16 % 64))
                    ∧ { y with level := x.level, members := x.members, gen := x.gen } = z))
          ∧ (post = true → x.w 0 < 2 ^ 24 →
              let n := x.w 0 / 32 % 8 + 1
              let z := begun s x.words
              ((told s z).setCmd z).postData z n x.desc = (.ok bs, v) →
                exec (.engineCommandStart i) s = .next { v with packets := v.packets ++
                  [{ cmd := x.id, die := x.die, ctx := x.ctx, src := x.array, dst := 16 * x.die + x.w 0 % 16, ccw := x.w 0 / 16 % 2 == 1,
                     tag := BitVec.ofNat 16 (x.w 0 / 256), data := bs, flitAt := List.replicate n (0, false), pools := [], esc := false }] }))
        ∧ (x.started = true → x.terminal = false →
          (copies = true ∨ host = true → x.valid = true → x.prog = x.units → x.parts = [] →
            ends (.engineCommandEnd i) (s.cmdEnd x stComplete 0 x.code x.units 0).freeBenches)
          ∧ (ckpt = true → x.valid = true → x.prog = x.units → x.parts = [] → x.w 1 % 64 = 0 →
              let w := Work.puts { s := s, x := x, err := none } true (x.w 1)
                (leBytes 8 (x.w 3) ++ leBytes 8 (x.w 2) ++ leBytes 8 x.sealSum.toNat ++ List.replicate 40 0)
              w.err = none → ends (.engineCommandEnd i) (w.s.cmdEnd w.x stComplete 0 x.code x.units 0).freeBenches)
          ∧ (copies = true ∨ host = true ∨ ckpt = true ∨ sorts = true ∨ sortl = true → x.valid = false →
            ends (.engineCommandEnd i) (s.cmdFail x (0x07, x.code, 0)).freeBenches)
          ∧ (sorts = true → x.valid = true → ∀ n es rest, x.chunks = (n, es) :: rest → min n x.output.2 ≤ x.prog →
            ends (.engineCommandEnd i) (if x.output.2 < n then s.cmdEnd x stFailed 0x0D x.code x.prog 0
              else s.cmdEnd x stComplete 0 x.code x.prog 0).freeBenches)
          ∧ (sortl = true → x.valid = true → ∀ n es e rest, x.chunks = (n, es) :: e :: rest → n ≤ x.next →
            ends (.engineCommandEnd i) (s.cmdEnd x stComplete 0 x.code x.prog 0).freeBenches)
          ∧ (isCcan x.op = true →
              let l := s.cmds.filter x.matches
              ends (.engineCommandEnd i) ((l.foldl (fun t y => t.cmdEnd y (if y.wrote then stPartial else stCancelled) 0x0C y.code
                (y.parts.foldl (fun p q => min p q.unit) y.prog) 0) s).cmdEnd x stComplete 0 x.code l.length 0).freeBenches)
          ∧ (isCollective x.op = true →
              (x.collValid = false → ends (.engineCommandEnd i) (s.cmdFail x (0x07, x.code, 0)).freeBenches)
              ∧ (x.collValid = true → x.numChunks ≤ x.next → x.parts = [] →
                ends (.engineCommandEnd i) (s.cmdEnd x stComplete 0 x.code (x.collProg x.numChunks) 0).freeBenches)
              ∧ (x.startAt + x.tmo < s.ticks → (x.next = 0 ∧ s.formed x = false) ∨ (x.next < x.numChunks ∧ ∃ k, k < x.collN ∧ k ∉ s.localRanks x) →
                ends (.collectiveGroupTimeout i) (s.cmdEnd x stFailed 0x08 x.code x.prog 0)))
          ∧ (x.tmo < s.ticks - x.startAt → s.remotePlace x = some (m, va) →
            ends (.remoteResponderTimeout i) (s.cmdFail x (0x08, unitCode 0 7 m, va)))))
  ∧ (∀ (s s1 v0 v : State) (i : Nat) (x x1 : Cmd) (c : Chunk) (b : Byte) (acc : Access) (ks : List (Option Contribution)),
      let sum := combineAll x1.collWire x1.collOp ks
      let res := if isBcst x1.op then (ks.filterMap id).flatMap (fun k => k.elems.map (convElem x1.collWire x1.collFormat))
        else sum.1.map (result1 x1.collFormat)
      let size := collSize x1.collFormat
      let made : ChunkResult := { index := c.index, elems := res, wild := sum.2, sealed := x1.sealOk res (ks.filterMap id) }
      let had := x1.results.find? (fun r => r.index == c.index)
      let r := had.getD made
      let w : Work := if had.isSome then { s := s1, x := x1, err := none }
        else { s := s1.publish x1 made, x := { x1 with results := x1.results ++ [made] }, err := none }
      let w1 := if x1.receives then w.puts true (x1.w 1 + c.index * x1.perChunk * size : Nat) (r.elems.flatMap (leBytes size)) else w
      let clear : Byte := b &&& ~~~(1#8 <<< (c.index % 8))
      let w2 := if x1.w 7 = 0 then w1 else Work.put { w1 with s := v } false (x1.w 7 + c.index / 8 : Nat)
        [if r.wild then clear ||| (1#8 <<< (c.index % 8)) else clear]
      s.cmd i = some x → isCollective x.op = true → x.started = true → x.terminal = false → x.collValid = true → c.index = x.next →
      c.index < x.numChunks → s.formed x = true → s.orderOk x c = true → s.sendAll x c.index = (s1, true) → s1.cmd i = some x1 → x1.terminal = false →
      c.order.map (fun k => if k < x1.collN then s1.contributed x1 c k else none) = ks →
      (∀ k ∈ c.order, k < x1.collN → (s1.contributed x1 c k).isSome = true) →
      (x1.receives = true → r.sealed = true) → w1.err = none →
      (x1.w 7 ≠ 0 → w1.s.cmdAccess w1.x (x1.w 7 + c.index / 8 : Nat) .write = (.ok acc, v0) ∧ (v0.read w1.x.agent acc 1).poison = none
        ∧ (v0.read w1.x.agent acc 1).bytes = [b] ∧ (v0.read w1.x.agent acc 1).st = v) → w2.err = none →
        ∃ t y, exec (.collectiveChunkReceive i c) s = .next t ∧ t.cmd i = some y ∧ y.next = c.index + 1 ∧ y.prog = w1.x.collProg (c.index + 1)
          ∧ y.startAt = t.ticks
          ∧ (∀ ag q, t.byte ag q = w2.s.byte ag q)
          ∧ (had = none → ∀ z, s1.cmd z.id = some z → z.id ≠ i → z.started = true → x1.sameGroup z = true → z.gen = x1.gen →
              t.cmd z.id = some { z with results := z.results ++ [made] }))

/-- 13_faces_engines.md R169, R172, R175, R178, R179: the streams of a face. A lane fetches its next element into its buffer; the oldest pushed
element of a lane is written, after its chain if it has one, each valid half in its word, and the raises of the chain join XFLAGS; and, in a bench of
one array with one FDFLUSH, an FDFLUSH whose elements are written gets its receipt (what counts as its elements: log entries 55 and 73).
03_wave.md R44: at an advance that is made, a cell of the west edge, or of the north edge of the head array, that executes a read of its inject port
takes one element of the lane, and one that does not takes none. 03_wave.md R43, 11_cell_isa.md R156: at the east edge, and the south edge of the tail
array, the landing of a write of ch or cv that pushes puts the whole register after the write into the lane's queue, with the chain of its bundle; a
bundle that writes both halves pushes one element.
13_faces_engines.md R198 to R202, 14_faces_engines_notes.md R203: a packet of the post ring makes a send that its link and the next stop have room
for, unless another packet has one on that link which R199 prefers; a flit that comes to the destination enters the inbox as it arrives, and the
message stands behind those that are there; its POST ends COMPLETE with its flits, and with the POST's code as UNIT (log entry 14). The model's
choices: the last flit that may move goes first (log entry 57); the oldest packet is that of the first POST (77). -/
def Obligations.StreamsAndPacketsMove : Prop :=
  (∀ (s s1 s2 : State) (r : Run) (a side lane pid n : Nat) (p : Pattern) (v : Fetched) (e : PushElem) (rest : List PushElem) (f : Flush),
      let face := s.face a side
      (side < 2 → s.runOn a = some r → r.phase ≠ .closed → face.nextFetch lane = some (pid, p, n) →
        s.fetchElem a side r.ctx r.arrays p lane n = (v, s1) →
          ∃ t, exec (.injectElementFetch a side lane) s = .next t ∧ (t.face a side).lane lane
            = { (s1.face a side).lane lane with buf := ((s1.face a side).lane lane).buf ++ [⟨pid, n, v⟩] })
      ∧ (2 ≤ side → side ≤ 3 → (face.lane lane).queue = e :: rest →
          let out := match e.chain with
            | some c => runChain c (fun st k => chainDraw e.seed e.num e.m lane side st k) e.e
            | none => (e.e, 0)
          let task := match s.runOn a with | some q => q.task | none => 0
          let half (u v : State) (w : VWord) (o : Nat) : Prop :=
            if w.v then ∃ u', u.write (.array a (whoFace a side)) (e.acc.plus o) (leBytes 4 w.val.toNat) = (u', none)
              ∧ v = u'.own a e.acc ⟨whoFace a side, task, e.addr / 64 * 64⟩ else v = u
          half s s1 out.1.lo 0 → half s1 s2 out.1.hi 4 →
          ∃ t, exec (.drainElementWrite a side lane) s = .next t ∧ ((t.face a side).lane lane).queue = rest
            ∧ (∀ ag w, t.byte ag w = s2.byte ag w) ∧ (s.keyed → ∀ y, t.runOn a = some y → y.xflags &&& out.2 = out.2))
      ∧ (2 ≤ side → side ≤ 3 → face.flushes = [f] → (∀ b ∈ s.arrays, b.1 ≠ a → (s.face b.1 side).flushes = []) → tabSorted s.arrays = true →
        a ∈ s.arrays.map (·.1) → s.flushDone side f [a] = true →
          ∃ t, exec (.fdflushReceipt a side) s = .next t ∧ (t.face a side).flushes = [] ∧ ∀ ag w, t.byte ag w = (s.flushReceipt [a] f.head side f).byte ag w))
  ∧ (∀ (s t : State) (r y : Run) (f : Flight) (blank : Bool) (m k j : Nat),
      let offs := benchOffsets r.arrays 0
      let g := { f with adv := f.adv + 1 }
      let x := s.cellInput r offs g m k j
      let a := r.arrays.getD m 0
      r.flights = [f] → r.kept = [] → r.arrays.Nodup → s.advance r none blank = .moved t y → f.reaches r.arrays (m, k, j) →
        (∀ side lane port, (side = 0 ∧ j = 0 ∧ lane = k ∧ port = 50) ∨ (side = 1 ∧ k = 0 ∧ m = 0 ∧ lane = j ∧ port = 44) →
          let reads : Prop := s.runsIn r g m k j = true ∧ ∃ i ∈ [g.s2, g.s3], (x.guard (cellGuard i) = true ∨ isIsel i = true)
            ∧ ∃ c ∈ cellSrcs i, c = port ∨ c = port + 1
          (reads → ∃ pid n e, (s.face a side).take f.stamp lane = .elem pid n e ∧ (if side = 0 then x.west else x.north) = e
            ∧ (t.face a side).lane lane = ((s.face a side).taken lane pid n).lane lane)
          ∧ (¬ reads → (t.face a side).lane lane = (s.face a side).lane lane))
        ∧ (∀ (l : Latch) (side lane : Nat), isNopCell f.s2 = true → isNopCell f.s3 = true → (s.cellAt r m k j).latches = [l] → l.rem ≤ 1 →
            (f.handler = true → l.handler = true) →
            (side = 2 ∧ j = 31 ∧ lane = k ∧ l.pushE = true) ∨ (side = 3 ∧ k = 31 ∧ m + 1 = r.arrays.length ∧ lane = j ∧ l.pushS = true) →
              let d := t.cellAt r m k j
              let z := (s.face a side).lane lane
              d.ch = ((s.cellThen r g m k j).landAll l.lands).ch ∧ d.cv = ((s.cellThen r g m k j).landAll l.lands).cv
              ∧ ∀ pid n acc va, s.push a side r.ctx r.arrays (s.face a side) l.stamp lane z.queue.length = .elem pid n acc va →
                  (t.face a side).lane lane = { z with
                    taken := tabPut z.taken pid (n + 1),
                    queue := z.queue ++ [⟨l.num, l.stamp, l.seed, m, acc, va, if side = 2 then d.ch else d.cv, chainAt (s.face a side).log l.stamp⟩] }))
  ∧ (∀ (f : Flight) (a b : SlotOut),
      ((newLatches f a b).filter (·.pushE)).length = (if (a.pushes && landsOn 52 a.lands) || (b.pushes && landsOn 52 b.lands) then 1 else 0)
      ∧ ((newLatches f a b).filter (·.pushS)).length = (if (a.pushes && landsOn 54 a.lands) || (b.pushes && landsOn 54 b.lands) then 1 else 0))
  ∧ (∀ (s : State) (i : Nat) (p : Packet) (x : Send),
      s.packets.find? (fun q => q.cmd == i) = some p →
        (s.mayShip p = some x →
          let q := p.ship x
          let u := s.takeTurn p x
          let came (f : Nat × Bool) : Prop := p.hops ≤ f.1
          q.flitAt = (match x with
              | .whole h => p.flitAt.map (fun _ => (h + 1, false))
              | .flit k h => p.flitAt.set k (h + 1, true))
          ∧ { q with flitAt := p.flitAt, pools := p.pools, esc := p.esc } = p ∧ { u with postTurn := s.postTurn } = s
          ∧ (∀ o ∈ s.packets, o.cmd ≠ i → ∀ y ∈ s.sends o, p.atStop o x.hop y.hop = true →
              p.preference x ≤ o.preference y ∧ (p.preference x = 1 → o.preference y = 1 → i ≤ o.cmd))
          ∧ ((∀ f ∈ q.flitAt, ¬ came f) → ∃ t, exec (.postPacketHop i) s = .next t ∧ t.packets.find? (fun q => q.cmd == i) = some q
              ∧ { t with packets := s.packets } = u)
          ∧ (p.flitAt.length = 1 → came (q.flitAt.getD 0 (0, false)) → s.hasTask p = true → s.roomFor p = true → p.hops = x.hop + 1 →
              ∃ t, exec (.postPacketHop i) s = .next t ∧ (t.arr p.dst).inbox = (s.arr p.dst).inbox ++ [⟨q.header, p.data⟩]
                ∧ t.packets.find? (fun q => q.cmd == i) = none))
        ∧ (p.flitAt.all (fun f => p.hops ≤ f.1) = true → s.hasTask p = true → s.roomFor p = true →
          ∃ t, exec (.postInboxEnter i) s = .next t ∧ (t.arr p.dst).inbox = (s.arr p.dst).inbox ++ [⟨p.header, p.data⟩]
            ∧ t.packets.find? (fun q => q.cmd == i) = none
            ∧ ∀ y, s.cmd i = some y → t = ((s.packetGone p).setArr p.dst { s.arr p.dst with inbox := (s.arr p.dst).inbox ++ [⟨p.header, p.data⟩] }).cmdEnd y
                stComplete 0 y.code p.flitAt.length 0))

/-! ## What happens to a bench beside the issue of its bundles -/

/-- 03_wave.md R33, R39, R331, 23_traps.md R289: a blank advance that is owed, and a drain advance of a wave that drains, move the wave by one advance
with no bundle entering, and change nothing outside it; the blank advance is counted. An advance that a face stream withholds starts the clock of
its stall. After the last advance, or the last data, of a bundle with RFT the return follows (23_traps.md R296; log entry 46). 09_sequencer_isa.md R100, R103, R104, 03_wave.md R35, R45: where the bundle at PC holds one instruction and the bundle cache has it,
the issue of a bundle, the end of a stall, and a timeout of a full queue do what that instruction does; a stalled bench without anything to issue
makes its advance; FECTL.FETMO on an empty register raises F/E.EMPTY with FEQ = 0, and with FEQ = n the bundle, of which ADD stands for all,
issues with the data that the register holds and sets qn; and a face stall that outlasts STALL.TMO raises FACE.STALL.
09_sequencer_isa.md R104, R111: a WAITF that waits issues with q = 0 once its records are readable, and with q = 1 once its timeout has run out. -/
def Obligations.BenchesGoOn : Prop :=
  (∀ (s : State) (r : Run),
      s.run? s.cur = some r → r.head = s.cur →
      ∀ p ∈ [(Instr.blankAdvance, r.owesBlank, true, { r with blanks := r.blanks - 1, vadvs := r.vadvs + 1 }), (.drainAdvance, r.drains, false, r)],
        p.2.1 = true →
          ((s.advance r none p.2.2.1).isMoved = true → ∃ t u y, exec p.1 s = .next t ∧ Waved p.2.2.2 y
            ∧ y.kept = [] ∧ y.redo = false ∧ y.face = none
            ∧ y.flights = (r.flights.map (fun f => { f with adv := f.adv + 1 })).filter (fun f => f.adv ≤ endPos (benchOffsets r.arrays 0) f.skew)
            ∧ Kept r.arrays s u ∧ OtherRuns s.cur s u ∧ SameBytes s u
            ∧ ((∀ pc, r.phase ≠ .returning pc) ∨ y.flights ≠ [] ∨ y.loads ≠ [] →
                t.run? s.cur = some y ∧ Kept r.arrays s t ∧ OtherRuns s.cur s t ∧ SameBytes s t)
            ∧ (∀ pc, r.phase = .returning pc → y.flights = [] → y.loads = [] → t = u.doReturn pc y))
          ∧ (∀ info, s.advance r none p.2.2.1 = .stalled info → r.face = none → exec p.1 s = .next (s.setRun { r with face := some s.ticks })))
  ∧ (∀ (s : State) (r : Run) (i : Instr),
      s.atPc r i →
        (r.mayIssue = true → ∃ t, exec i s = .next t ∧ exec .bundleIssue s = .next t)
        ∧ ((r.stall.isSome = true ∨ r.face.isSome = true) →
            (r.drains = true → r.face.isSome = true → ∃ t, exec .drainAdvance s = .next t ∧ exec .stallResume s = .next t)
            ∧ ((r.drains = false ∨ r.face = none) → r.owesBlank = true → ∃ t, exec .blankAdvance s = .next t ∧ exec .stallResume s = .next t)
            ∧ ((r.drains = false ∨ r.face = none) → r.mayIssue = true → ∃ t, exec i s = .next t ∧ exec .stallResume s = .next t))
        ∧ (∀ n, r.mayIssue = true → r.stall = some (3, n) → tmoTicks r.stallTmo < s.ticks - n →
            ∃ t, exec i s = .next t ∧ exec .engineFullTimeout s = .next t)
        ∧ (∀ n, r.mayIssue = true → r.stall = some (4, n) → tmoTicks r.stallTmo < s.ticks - n →
            ∃ t, exec i s = .next t ∧ exec .launchFullTimeout s = .next t)
        ∧ (∀ n, r.mayIssue = true → r.stall = some (0, n) → tmoTicks r.fetmo ≤ s.ticks - n →
            r.foldRecords.mismatch (alone i) = false → r.foldRecords.readFault (alone i) = none → r.foldRecords.readBlocked (alone i) = true →
            r.feq = 0 →
            Traps s .feTimeout r (issueFault 0x001 0))
        ∧ (∀ n g d a b y z, i = .add g d a b y z → r.mayIssue = true → r.stall = some (0, n) → tmoTicks r.fetmo ≤ s.ticks - n →
            let old := r.foldRecords
            let x := (old.setS d.toNat (old.x a + old.x b)).setQ r.feq.toNat true
            old.mismatch (alone i) = false → old.readFault (alone i) = none → old.readBlocked (alone i) = true → old.guard g = true →
            (∀ e ∈ old.reads (alone i), (old.sreg e.1).poison = none) → old.endOfOuter = false → old.atEnd = false → r.feq ≠ 0 →
            (s.leaving x).moves old i = true → Does s .feTimeout old x s)
        ∧ (∀ n info, r.face = some n → tmoTicks r.stallTmo < s.ticks - n → r.arrived = none → (r.owesBlank = true ∨ r.drains = true) →
            s.advance r none (!r.drains) = .stalled info →
            ∃ t y, exec .stallTimeout s = .next t ∧ t.run? s.cur = some y ∧ y.phase = .drain { info with tpc := r.pc }
              ∧ info.cause = 0x0A0 ∧ y.stall = none ∧ y.face = none ∧ y.flights = r.flights ∧ OtherRuns s.cur s t ∧ SameBytes s t))
  ∧ (∀ (s : State) (r : Run) (g : QGuard) (t : BitVec 6) (q : BitVec 3) (n : Nat),
      let old := r.foldRecords
      let i := Instr.waitf g t q
      s.atPc r i → s.ready r i → old.guard g = true → r.stall = some (7, n) →
        ((∀ x ∈ old.records, x.flags = none) → (s.leaving (old.setQ q.toNat false)).moves old i = true →
            Does s .waitSatisfied old (old.setQ q.toNat false) s)
        ∧ ((∃ x ∈ old.records, x.flags ≠ none) → (old.x t).toNat ≤ s.ticks - n → (s.leaving (old.setQ q.toNat true)).moves old i = true →
            Does s .waitTimeout old (old.setQ q.toNat true) s))

/-- 01_machine.md R22, 03_wave.md R39, R40, R46, R47, R48: what arrives at a bench. The data of a load is written to its register, full, or marks it when
it is poisoned; data that no register waits for any more is dropped. A result that is due in a cell lands there. A record that is readable becomes
the flag state, and its raises join XFLAGS. 03_wave.md R39, R40: a result with one step to go lands at the end of its cell's next step, and with more
to go its count goes down by one; since every step lands what is due, RESULT_LANDING finds nothing left. 03_wave.md R46: a bundle that writes
predicates has a record, at first ANY 0 and ALL 1, that collects at every advance what its cells contribute: ANY and the row OR a 1, ALL and the row
AND a 0. The model's choice (log entry 58): a load's
data is what its bundle read at issue. -/
def Obligations.ResultsArriveAtTheirPlace : Prop :=
  (∀ (r : Run) (i : Instr) (p : Nat), cellPred i = some p → (ownClass i = .cellA ∨ ownClass i = .cellB) →
    (r.record (alone i)).map (fun c => (c.num, c.handler, c.flags)) = [(r.num, r.trap.active, some ⟨false, true, 0, 0xFFFFFFFF⟩)])
  ∧ (∀ (s t : State) (r y : Run) (f : Flight) (blank : Bool) (n : Nat) (c : Record) (fl : Flags),
    let g := { f with adv := f.adv + 1 }
    let gives (m k j : Nat) (b : Bool) : Prop := f.reaches r.arrays (m, k, j) ∧ s.runsIn r g m k j = true
      ∧ ∃ p ∈ [(0, g.s2), (1, g.s3)], ((g.laneIn (s.cellInput r (benchOffsets r.arrays 0) g m k j) m k j p.1).slot p.2).contrib = some b
    r.flights = [f] → s.advance r none blank = .moved t y → r.records[n]? = some c →
      ((c.num ≠ f.num ∨ c.handler ≠ f.handler) → (y.records[n]?).map (·.flags) = some c.flags)
      ∧ (c.num = f.num → c.handler = f.handler → c.flags = some fl →
          ∃ z, (y.records[n]?).map (·.flags) = some (some z)
            ∧ (z.any = true ↔ fl.any = true ∨ ∃ m k j, gives m k j true) ∧ (z.all = true ↔ fl.all = true ∧ ¬ ∃ m k j, gives m k j false)
            ∧ ∀ k, k < 32 → (z.rowOr.getLsbD k = true ↔ fl.rowOr.getLsbD k = true ∨ ∃ m j, gives m k j true)
              ∧ (z.rowAnd.getLsbD k = true ↔ fl.rowAnd.getLsbD k = true ∧ ¬ ∃ m j, gives m k j false)))
  ∧ ∀ (s : State) (r : Run) (i m a b reg : Nat) (l : Load) (h : Latch) (v : Word) (ok : Bool) (c : Record) (f : Flags),
    s.run? s.cur = some r → r.head = s.cur →
      (r.loads[i]? = some l → ∃ t y, exec (.loadDataReturn i) s = .next t ∧ y.loads = r.loads.eraseIdx i
        ∧ ((∀ pc, r.phase ≠ .returning pc) → t = s.setRun y)
        ∧ (∀ pc, r.phase = .returning pc → t = if r.flights = [] ∧ y.loads = [] ∧ r.redo = false then s.doReturn pc y else s.setRun y)
        ∧ { y with loads := r.loads, s := r.s } = r
        ∧ (l.dst = none → y.s = r.s)
        ∧ (∀ p, p < 64 → l.dst = some p →
            (l.poison = none → vget y.s p (SReg.of 0) = ⟨l.data, true, none⟩)
            ∧ (∀ e, l.poison = some e → (vget y.s p (SReg.of 0)).full = false ∧ (vget y.s p (SReg.of 0)).poison = some e)
            ∧ ∀ k, k ≠ p → vget y.s k (SReg.of 0) = vget r.s k (SReg.of 0)))
      ∧ (m < r.arrays.length → a < 32 → b < 32 → reg < 44 → (s.cellAt r m a b).latches = [h] → h.rem = 0 → h.lands = [.word reg (some v) ok] →
          h.pushE = false → h.pushS = false →
          ∃ t, exec (.resultLanding m (32 * a + b)) s = .next t ∧ (t.cellAt r m a b).getWord reg = ⟨v, ok⟩ ∧ (t.cellAt r m a b).latches = []
            ∧ (∀ k, k < 44 → k ≠ reg → (t.cellAt r m a b).getWord k = (s.cellAt r m a b).getWord k)
            ∧ Kept r.arrays s t ∧ SameBytes s t)
      ∧ ((∀ e ∈ (s.cellAt r m a b).latches, 1 ≤ e.rem) → a < 32 → b < 32 → exec (.resultLanding m (32 * a + b)) s = .next s)
      ∧ (∀ g, let old := r.foldRecords
          s.ready r (.nopControl g) → (s.leaving old).moves old (.nopControl g) = true → old.flights = [] → old.tag = none → (m, a, b) ∈ old.firstCells →
          reg < 44 → (s.cellAt old m a b).latches = [h] → h.lands = [.word reg (some v) ok] → (old.trap.active = true → h.handler = true) →
          ∃ t, exec (.nopControl g) s = .next t
            ∧ (h.rem ≤ 1 → (t.cellAt old m a b).latches = [] ∧ (t.cellAt old m a b).getWord reg = ⟨v, ok⟩)
            ∧ (2 ≤ h.rem → (t.cellAt old m a b).latches = [{ h with rem := h.rem - 1 }]
                ∧ (t.cellAt old m a b).getWord reg = (s.cellAt old m a b).getWord reg))
      ∧ (r.records = [c] → c.left ≤ 1 → c.flags = some f → c.exit = none →
          exec .flagRecordReadable s = .next (s.setRun { r with records := [], flags := f, xflags := r.xflags ||| c.raises }))
      ∧ (r.records = [c] → 1 < c.left → 0 < c.advs → exec .flagRecordReadable s = .next (s.setRun r))

/-! ## Dispatchers -/

/-- 21_tasks.md R278, R279, R280, R284, R285: the moves of a ready task. Aging raises the effective priorities of a die's ready tasks, a reservation
and a pull change their task alone, a failed restartable task becomes ready again once its bench is free, and a surviving die takes over the
entries of a failed one; a task that no die can run any more ends FAILED with UNIT.LOST and the bundles that its last run issued, or fails and is run
again from ENTRY, where its image alone kept it from every bench (log entry 28). A reservation on a bench that is still taken moves to another bench of
its task that is free. The model's choices: DSP.AGE and DSP.RESERVE are 0 at reset (log entry 34); which bench the dispatcher foresees to become free
soonest is a free value, and which task is pulled where the rules leave it open (log entry 51). -/
def Obligations.ReadyTasksMove : Prop :=
  ∀ (s : State) (d heir : Nat) (t : Task) (b : List Nat),
    let s0 := ({ s with runs := s.runs.filter (fun e => !(e.2.phase == .closed && s.commandsDone e.2)) } : State).dropEntering
    let s1 := s.freeBenches
    let s2 := s1.ageTasks d
    let left (u : State) (x : Task) : State := (match x.image with | some im => u.flushImage im | none => u).quitTask x.id
    let issued (x : Task) : Nat := match x.image with | some im => im.run.prog | none => x.lastProg
    let lost (u : State) (x : Task) : State := (left u x).endTask x (16 * x.die) stFailed 0x13 (unitCode x.die 4 0) (issued x) 0 []
    let again (u : State) (x : Task) : State :=
      { left u x with tasks := (left u x).tasks.map (fun z => if z.id = x.id then { z with
          phase := .failed 0x13 (unitCode x.die 4 0) 0, image := none, slot := none, reserved := none, passedAt := none, lastProg := issued x } else z) }
    let only (i : Instr) (u : State) (f : Task → Task) : Prop :=
      ∃ v, exec i s = .next v ∧ v.tasks = u.tasks.map (fun x => if x.id = t.id then f x else x) ∧ { v with tasks := s1.tasks } = s1
    (∃ v, exec (.priorityAging d) s = .next v ∧ { v with tasks := s.tasks } = s
      ∧ v.tasks = s.tasks.map (fun x => if x.die = d ∧ x.phase = .ready then
          { x with eff := min (s.ceilingOf x) (x.prio + if s.age = 0 then 0 else (s.ticks - x.readyAt) / s.age.toNat) } else x))
    ∧ (s2.toReserve d = some (t, b) → ∃ v, exec (.benchReserve d) s = .next v
        ∧ v.tasks = s2.tasks.map (fun x => if x.id = t.id then { x with reserved := some b } else x)
        ∧ { v with tasks := s1.tasks, freeCtr := s1.freeCtr } = s1)
    ∧ (s0.tasks.filter (fun x => x.ready && x.reserved.isSome) = [t] → t.reserved = some b →
          (s0.benchFree t b = true ∨ s0.fit t t.die = none → s1 = s0)
          ∧ (∀ f, s0.benchFree t b = false → s0.fit t t.die = some f →
              s1 = { s0 with tasks := s0.tasks.map (fun x => if x.id = t.id then { x with reserved := some f } else x) }
              ∧ f ∈ s0.candidates t t.die ∧ ∀ a ∈ f, s0.runOn a = none ∧ s0.heldFor t a = false))
    ∧ (s1.toPull d = some t →
        only (.taskPull d) s1 (fun x => { x with die := d, reserved := none, passedAt := none })
        ∧ t ∈ s1.tasks ∧ t.phase = .ready ∧ t.die ≠ d ∧ t.desc.aff = 0 ∧ (s1.die d).alive = true
        ∧ ∀ x ∈ s1.tasks, x.phase = .ready → x.die ≠ d → x.desc.aff = 0 → (s1.fit x d).isSome = true → t.id ≤ x.id)
    ∧ (∀ before after cls unit addr, s1.tasks = before ++ t :: after → (∀ x ∈ before, x.die ≠ d) → t.die = d → t.phase = .failed cls unit addr →
        t.reruns? cls = true → (∀ e ∈ s1.runs, e.2.task ≠ t.id) →
        ((t.desc.aff = 1 ∨ t.desc.aff = 2) ∧ s1.candidates { t with image := none } d = [] →
          exec (.taskRerun d) s = .next (lost s1 t).settleAll)
        ∧ (¬ ((t.desc.aff = 1 ∨ t.desc.aff = 2) ∧ s1.candidates { t with image := none } d = []) → only (.taskRerun d) s1 (fun x =>
          { x with phase := .ready, readyAt := s.ticks, reruns := x.reruns + 1, image := none, slot := none, passedAt := none })))
    ∧ (d < 4 → heir < 4 → d ≠ heir → (s.die d).alive = false → (s.die heir).alive = true →
        let s3 := { s with tasks := s.tasks.map (fun x => if x.die = d then { x with die := heir, reserved := none } else x) }
        let nowhere (x : Task) : Prop :=
          (s3.die x.die).alive = true ∧ (x.desc.aff = 1 ∨ x.desc.aff = 2) ∧ s3.candidates x x.die = [] ∧ ∀ e ∈ s3.runs, e.2.task ≠ x.id
        ((∀ x ∈ s3.tasks, ¬ nowhere x) → (∀ x ∈ s3.tasks, x.phase = .accepted → s3.inputs x = none) → exec (.dieTakeover d heir) s = .next s3)
        ∧ (∀ before after, s3.tasks = before ++ t :: after → nowhere t → (∀ x ∈ before ++ after, ¬ nowhere x) →
            exec (.dieTakeover d heir) s = .next
              (if t.reruns? 0x13 = true ∧ s3.candidates { t with image := none } t.die ≠ [] then again s3 t else lost s3 t).settleAll))

/-- 21_tasks.md R278, R281, 01_machine.md R24, 23_traps.md R301: the first task in the order that has a bench is started there: its argument block,
with the entry of a SORTL put in (13_faces_engines.md R197), is copied to the scratchpad, and it runs at its entry point in the state of a new task
and is no longer reserved; or, from an image, as the image left it, every part clean. 01_machine.md R21, R24: a task starts at its entry point with
every register of the bench at its reset value, but for s1 to s3, which hold the address and the length of the argument block and the bench word,
which BENCH keeps.
The model's choices: the ready order before DSP.SET (log entry 34), ties (51), the caches that a dispatch leaves (65), images as data (21). -/
def Obligations.DispatchStartsATask : Prop :=
  (∀ (s u w : State) (d : Nat) (t : Task) (b : List Nat) (passed : List Task) (im : Image) (c : Context) (bs : List Byte),
      let s1 := s.freeBenches.ageTasks d
      let s2 := s1.passOver passed
      let head := b.headD 0
      let phase := match im.run.phase with | .held w _ => Phase.held w s.ticks | p => p
      let s3 := (s2.settleFaces b 2).settleFaces b 3
      let s4 := (b.foldl (fun v a => v.prepare a t.ctx t.desc.spad ((v.arr a).lastCtx != t.ctx)) s3).hostFirst t b
      let block := match t.patch with | none => bs | some (o, n) => bs.take o ++ leBytes 4 n ++ bs.drop (o + 4)
      s1.pick d = (some (t, b), passed) → s1.keyed →
        (t.image = none → t.args = none →
          s4.readArgs t b (t.desc.argLen / 16 + 1) t.desc.args.toNat t.desc.argLen = (.ok bs, u) → u.storeWrite head 0x300000 block = (w, none) →
          w.storeBytes head 0x300000 block.length = block
          ∧ ∃ v y k, exec (.taskDispatch d) s = .next v ∧ v.run? head = some y ∧ v.task t.id = some k
            ∧ { y with started := 0, wrote := [] }
                = Run.reset t.ctx t.id b t.desc.spad t.desc.entry (BitVec.ofNat 64 argCopy) (BitVec.ofNat 64 t.desc.argLen) (benchWord head t.desc.shape)
            ∧ y.started = s.ticks ∧ y.wrote = t.frank.foldl wroteAdd [] ∧ k.phase = .running ∧ k.started = true ∧ k.args = some block
            ∧ k.reserved = none ∧ OthersHear head s1 v)
        ∧ (t.image = some im → s2.context t.ctx = some c → s2.imageBad c im = false →
          ∃ v y k, exec (.taskRestore d) s = .next v ∧ v.run? head = some y ∧ v.task t.id = some k
            ∧ y = { im.run with head := head, arrays := b, started := s.ticks, phase := phase }
            ∧ k.phase = .running ∧ k.image = none ∧ k.reserved = none ∧ OthersHear head s1 v
            ∧ (b.Nodup → ∀ m, m < b.length → m < im.arrays.length →
                let x := im.arrays.getD m ArrayState.reset
                (v.arr (b.getD m 0)).cells = x.cells.map (fun e => (e.1, { e.2 with touched := [] })) ∧ (v.arr (b.getD m 0)).store = x.store
                  ∧ (v.arr (b.getD m 0)).inbox = x.inbox)))
  ∧ (∀ (ctx task : Nat) (b : List Nat) (spad : Nat) (entry : BitVec 55) (x y z : DWord),
      let r := Run.reset ctx task b spad entry x y z
      r.pc = entry ∧ r.phase = .issue ∧ r.unheld ∧ r.bench = z ∧ r.arrived = none ∧ r.head = b.headD 0 ∧ r.arrays = b ∧ r.ctx = ctx ∧ r.task = task
      ∧ r.sreg 1 = ⟨x, true, none⟩ ∧ r.sreg 2 = ⟨y, true, none⟩ ∧ r.sreg 3 = ⟨z, true, none⟩
      ∧ (∀ n, 4 ≤ n → n < 64 → r.sreg n = ⟨0, true, none⟩) ∧ r.sval 0 = 0
      ∧ (∀ n, 0 < n → n < 8 → r.qval n = false) ∧ r.qval 0 = true ∧ (∀ n, n < 16 → r.mask n = 0xFFFFFFFF)
      ∧ r.depth = 0 ∧ r.csp = 0 ∧ r.rs = 0 ∧ r.rg = 0 ∧ r.sbase = 0 ∧ r.skew = false ∧ r.blanks = 0 ∧ r.flights = [] ∧ r.loads = [] ∧ r.num = 0
      ∧ r.fmt = 0 ∧ r.xflags = 0 ∧ r.rndseed = 0 ∧ r.stallTmo = 0x01000000 ∧ r.fetmo = 0x01000000 ∧ r.feq = 0 ∧ r.lscope = 5 ∧ r.barn = 1
      ∧ r.flags = ⟨false, true, 0, 0xFFFFFFFF⟩ ∧ r.trap.active = false ∧ r.trap.tvec = 0 ∧ r.trap.tfp = 0 ∧ r.intr = false ∧ r.docket = none)

/-- 21_tasks.md R270, R275, R283: a run that has ended, and has nothing in flight, ends its task: the task leaves its table, its output tokens are
ripe, poisoned when it failed and does not run again, and its bench is closed (when it is free of the task's commands: log entry 64). -/
def Obligations.TaskEndRipensItsOutputs : Prop :=
  ∀ (s : State) (r : Run) (t : Task) (c : Context) (cls unit addr : Nat),
    s.run? s.cur = some r → r.head = s.cur → r.phase = .ended → r.flights = [] → r.loads = [] → r.redo = false → r.ueStore = [] →
    s.task r.task = some t → s.context t.ctx = some c → (s.endRelease r).2.reports r.head = [] →
      ((t.phase = .running ∨ (t.phase = .failed cls unit addr ∧ t.reruns? cls = false)) →
        ∃ v x, exec .taskEnd s = .next v ∧ v.task r.task = none ∧ v.context t.ctx = some x
          ∧ (∀ tag ∈ t.desc.outs, ∃ k, x.token tag = some k ∧ (c.token tag = none → k.ripe = decide (t.phase = .running))
              ∧ (∀ k0, c.token tag = some k0 → k = k0))
          ∧ (s.keyed → ∀ y, v.run? s.cur = some y → y.phase = .closed))
      ∧ (t.phase = .failed cls unit addr → t.reruns? cls = true →
        ∃ v k, exec .taskEnd s = .next v ∧ v.task r.task = some k ∧ k.phase = .failed cls unit addr ∧ k.reruns = t.reruns)

/-- 09_sequencer_isa.md R119, 21_tasks.md R282, 23_traps.md R299: a victim of a pre-emption stops at its bundle boundary; once it has drained, its
commands hold its bench no more and no packet is half way into its inbox, and so when a run yields, its image is taken: the run leaves its bench, and
its task is ready with the registers, the cells and the inbox that it had. The drain faces write what they hold first, and an FDFLUSH that is not
due is in the image alone. The model's choices: an image
is kept as data beside the bytes of its slot (log entry 21); the effective priority of a running task (39); the caches that it leaves (65). -/
def Obligations.PreemptedTasksKeepTheirImage : Prop :=
  ∀ (s : State) (r v : Run) (t : Task) (d : Nat),
    let s1 := s.freeBenches.ageTasks d
    let leaves (i : Instr) : Prop :=
      ∃ u k im, exec i s = .next u ∧ u.run? s.cur = none ∧ u.task r.task = some k ∧ k.image = some im ∧ k.phase = .ready ∧ k.readyAt = s.ticks
        ∧ { im.run with preempt := r.preempt, stall := r.stall, face := r.face, closing := r.closing, phase := r.phase, arrived := r.arrived,
                        wrote := r.wrote, rel := r.rel, relFrank := r.relFrank, xflags := r.xflags, ueStore := r.ueStore,
                        waitEnd := r.waitEnd, precvEnd := r.precvEnd, drainFor := r.drainFor } = r
        ∧ (r.arrived = none → im.run.arrived = none ∧ im.run.wrote = r.wrote ∧ im.run.rel = r.rel ∧ im.run.relFrank = r.relFrank)
        ∧ (∀ a ∈ r.arrays, ∀ side, (u.face a side).flushes = [])
        ∧ (∀ m, m < r.arrays.length → (im.arrays.getD m ArrayState.reset).cells = (s.arr (r.arrays.getD m 0)).cells
            ∧ (im.arrays.getD m ArrayState.reset).inbox = (s.arr (r.arrays.getD m 0)).inbox)
        ∧ OthersHear s.cur s u
    (s.run? s.cur = some r → r.head = s.cur → s.keyed → (∀ a ∈ r.arrays, s.runOn a = some r) → s.task r.task = some t → r.flights = [] → r.loads = [] →
      r.redo = false → s.commandsDone r = true → s.inboxesQuiet r = true →
        (r.phase = .preempt → leaves .preemptImageWrite) ∧ (r.phase = .yielded → leaves .yieldComplete))
    ∧ (s1.chooseVictims d = [v] → s1.run? v.head = some v → tabSorted s1.runs = true → (∀ e ∈ s1.runs, e.2.head = e.1) →
        v.phase = .issue → v.redo = false → v.ueStore = [] → v.intr = false → v.arrived = none → v.inEndStall = false →
        ∃ u y, exec (.preempt d) s = .next u ∧ u.run? v.head = some y 
          ∧ y = { v with
              preempt := true, phase := .preempt, stall := none, face := none, waitEnd := none, precvEnd := none,
              drainFor := match v.stall with | some (k, _) => if k ∈ [2, 5, 7, 8, 9] then some k else none | none => none })

/-- 21_tasks.md R271 to R274, 13_faces_engines.md R197: a pending letterbox descriptor of the highest box is taken, when its die accepts or refuses
it, and LBRIDX moves past it; an entry for a die is accepted from there as well; and an entry of SORTL that has waited for longer than STALL.TMO
ends its command FAILED with TIMEOUT. The model's choices: the die and the order of contexts where R273 and R274 leave them (log entry 51), and the
interrupt of a refusal (53). -/
def Obligations.DescriptorsAreTaken : Prop :=
  ∀ (s u v : State) (c x : Context) (p i : Nat) (bs : List Byte) (z : Cmd) (w : Nat),
    let die := (parseDesc bs).dieOr s.freestDie
    let after := v.boxTaken c.num p
    (s.contexts = [c] → p < 4 → c.boxLive p = true → (∀ q, p < q → q < 4 → c.boxLive q = false) →
      s.readDesc 0 c.num (c.boxSlot p) = (some bs, u) → v.context c.num = some x →
      (u.submit c die bs p none [] true = .accepted v ∨ u.submit c die bs p none [] true = .refused v) →
        exec .descriptorTake s = .next after
        ∧ (after.context c.num).map (fun y => boxOf y.lbRidx p) = some (boxOf x.lbRidx p + 1) ∧ after.lastBox = c.num
        ∧ (u.submit c die bs p none [] true = .accepted v → s.acceptedOn after die = true → s.run? s.cur = none → s.cmds = [] →
            exec (.taskAccept die) s = .next after))
    ∧ (s.cmd i = some z → z.waitAt = some w → z.terminal = false → z.tmo < s.ticks - w →
        ∃ t, exec (.sortlTimeout i) s = .next t ∧ t = s.cmdEnd z stFailed 0x08 z.code z.prog 0 ∧ ∀ y, t.cmd i = some y → y.terminal = true)

/-! ## The module's parts, its supply and the host -/

/-- 25_device.md R323, R324: a droop alarm of an armed detector is counted and starts stretch and hold over with the values of now; the stretch ends,
the hold ends once every bench of the quadrant has made its half-rate advances, and a supply that has risen again arms the detector. 25_device.md
R308, R310, R311: a channel serves, of the requests that are the first of their lines, an overdue one first, the earliest deadline first, and else the
lowest class, the earliest deadline first, ties in arrival order, and counts it for its requester when it is late; a scrub turns the errors
of its stack into poison; and automatic mode swaps the regions of the busiest and the idlest stack once an interval has passed and their counts
differ by more than one eighth of the larger, with no byte changed (which regions: free values, log entry 9; when an interval ends and whose counts
are taken: log entry 25; that a scrub and a swap are one event each, and how requests enter: 33; when a hold is over: 35). -/
def Obligations.DroopChannelsAndSwaps : Prop :=
  (∀ (s : State) (d k : Nat),
      let q := vget (s.die d).quads k Quadrant.reset
      let becomes (i : Instr) (x : Quadrant) : Prop :=
        ∃ t, exec i s = .next t ∧ vget (t.die d).quads k Quadrant.reset = x ∧ { t with dies := s.dies } = s
          ∧ (∀ e, e < 4 → e ≠ d → t.die e = s.die e) ∧ { t.die d with quads := (s.die d).quads } = s.die d
          ∧ ∀ j, j ≠ k → vget (t.die d).quads j Quadrant.reset = vget (s.die d).quads j Quadrant.reset
      d < 4 → k < 4 →
        becomes (.droopAlarm d k) (if q.armed then
          { q with count := q.count + 1, armed := false, stretching := true, holdOf := some q.hold.toNat, made := [] } else q)
        ∧ becomes (.droopStretchEnd d k) { q with stretching := false }
        ∧ becomes (.droopHoldEnd d k) (if s.holdDone d k q then { q with holdOf := none, made := [] } else q)
        ∧ becomes (.droopRearm d k) { q with armed := true })
  ∧ (∀ (s : State) (ch n stack : Nat) (q : Request),
      (∀ p : Request,
          let before (d e : Nat) : Prop := 2 ^ 15 ≤ ((d : Int) - e) % 2 ^ 16
          let late (x : Request) : Prop := before x.deadline (s.ticks / 16)
          (s.overdueReq q = true ↔ late q)
          ∧ (s.servedFirst q p = true ↔ (late q ∧ ¬ late p) ∨ (late q ∧ late p ∧ before q.deadline p.deadline)
              ∨ (¬ late q ∧ ¬ late p ∧ (q.cls < p.cls ∨ (q.cls = p.cls ∧ before q.deadline p.deadline))))
          ∧ ((n, q) ∈ s.heads ch ↔ s.requests[n]? = some q ∧ q.channel = ch
              ∧ ∀ m x, m < n → s.requests[m]? = some x → x.channel = ch → x.line ≠ q.line))
      ∧ ((n, q) ∈ s.heads ch → (∀ e ∈ s.heads ch, e ≠ (n, q) → s.servedFirst e.2 q = false) →
        (∀ e ∈ s.heads ch, e.1 < n → s.servedFirst q e.2 = true) →
          ∃ t, exec (.memoryRequestServe ch) s = .next t ∧ t.requests = s.requests.eraseIdx n
            ∧ tabGet 0 t.missed q.who = (if s.overdueReq q = true ∧ q.who < whoNone then min (tabGet 0 s.missed q.who + 1) (2 ^ 32 - 1)
                else tabGet 0 s.missed q.who)
            ∧ { t with requests := s.requests, missed := s.missed } = s)
      ∧ (∃ t, exec (.hbmScrub stack) s = .next t ∧ { t with poison := s.poison, latent := s.latent, chanCount := s.chanCount, scrubs := s.scrubs } = s
          ∧ (∀ g, g ∈ t.latent ↔ g ∈ s.latent ∧ s.granIn stack g = false)
          ∧ (∀ g, g ∈ t.poison ↔ g ∈ s.poison ∨ (g ∈ s.latent ∧ s.granIn stack g = true)))
      ∧ (let a := s.sampled 0 s.busiest
          let b := s.sampled 1 s.idlest
          s.autoSwap = true → s.swapInterval.toNat ≤ s.ticks - s.swapAt → s.stackCount s.busiest < 8 * (s.stackCount s.busiest - s.stackCount s.idlest) →
            ∃ t, exec .postcodeAutoSwap s = .next t ∧ t.frame a = s.frame b ∧ t.frame b = s.frame a ∧ (∀ c, c ≠ a → c ≠ b → t.frame c = s.frame c)
              ∧ t.swapAt = s.ticks ∧ SameBytes s t))

/-- 23_traps.md R306, 21_tasks.md R283, 25_device.md R321, 13_faces_engines.md R165: what a failing part does (log entries 24 and 28). A machine check makes its entry,
freezes the record of its die, fails the die's running tasks, and puts the records into flash; a lost die is not alive, and its running tasks fail
with UNIT.LOST; a port that fails its check eight times in a row, or is lost, goes down; and a failed Clawyn link ends the host copies. -/
def Obligations.LostUnitsFailTheirUsers : Prop :=
  ∀ (s : State) (d p h : Nat) (r : Run) (k : Task) (x : Cmd),
    let on : Prop := tabSorted s.runs = true ∧ (∀ e ∈ s.runs, e.2.head = e.1) ∧ s.run? h = some r ∧ r.phase ≠ .closed ∧ r.phase ≠ .ended
      ∧ r.arrays.any (fun a => dieOf a == d) = true ∧ s.task r.task = some k
    let fails (t : State) (unit : Nat) : Prop := on → (∀ e ∈ s.runs, e.2.task = r.task → e.1 = h) →
      ∃ y z, t.run? h = some y ∧ y.phase = .ended ∧ y.flights = [] ∧ t.task r.task = some z ∧ z.phase = .failed 0x13 unit 0
    (d < 4 → (s.die d).frozen = false → ∃ t e, exec (.machineCheck d) s = .next t ∧ (t.die d).frozen = true ∧ (t.die d).dlr.getLast? = some e
        ∧ e.cause = 0x1DF ∧ e.kind = 3 ∧ (∀ j, j < 4 → (t.die j).flashDlr = (t.die j).dlr) ∧ fails t (unitCode d 10 0x1DF))
    ∧ (d < 4 → ∃ t, exec (.unitLoss 0 d) s = .next t ∧ (t.die d).alive = false ∧ fails t (unitCode d 4 0))
    ∧ (p < 18 → s.portsDown.getLsbD p = false →
        (∃ t, exec (.carrierFlitReceive p true) s = .next t ∧ { t with portFails := s.portFails } = s
          ∧ (tabSorted s.portFails = true → tabFind t.portFails p = none))
        ∧ (tabGet 0 s.portFails p < 7 → ∃ t, exec (.carrierFlitReceive p false) s = .next t ∧ { t with portFails := s.portFails } = s
          ∧ tabGet 0 t.portFails p = tabGet 0 s.portFails p + 1)
        ∧ (7 ≤ tabGet 0 s.portFails p → ∃ t, exec (.carrierFlitReceive p false) s = .next t ∧ t.portsDown = s.portsDown ||| (1#18 <<< p)
          ∧ exec (.unitLoss 2 p) s = .next t))
    ∧ (x ∈ s.cmds → x.unit = 10 → x.started = true → x.terminal = false →
        ∃ t, exec .clawynLinkFailure s = .next t ∧ ∀ y, t.cmd x.id = some y → y.terminal = true)

/-- 23_traps.md R307, 25_device.md R322, R325, R326, 26_device_notes.md R328: a loss of power ends everything that runs, empties the caches, and keeps
the dead-letter records and the power-loss lists in flash; a module without power does nothing but reset; and a reset boots it, with HBM as after
power-on, no task and no context, and the records as flash has them. The model's choices: log entries 3 (without power), 5 and 22 (what is kept) and
23 (the receipts of POWER.LOSS). -/
def Obligations.PowerLossAndReset : Prop :=
  ∀ (s : State) (i : Instr),
    (s.powered = true → ∃ t, exec .powerLoss s = .next t ∧ t.powered = false ∧ t.runs = [] ∧ t.tasks = [] ∧ t.cmds = [] ∧ t.packets = []
      ∧ (∀ e ∈ t.arrays, 64 ≤ e.1) ∧ t.llc = [] ∧ t.llcLines = [] ∧ t.franks = [] ∧ t.tlb = []
      ∧ (∀ e ∈ t.mem, Config.hbmBytes ≤ e.1) ∧ t.flash = s.flash
      ∧ ∀ d, d < 4 → (t.die d).l2 = [] ∧ (t.die d).flashDlr = (t.die d).dlr ∧ (t.die d).powerList.length ≤ 8192)
    ∧ (s.powered = false → i ≠ .moduleReset → s.happen i = .next s)
    ∧ (s.powered = false → ∃ t, exec .moduleReset s = .next t ∧ s.happen .moduleReset = .next t)
    ∧ (∃ t, exec .moduleReset s = .next t ∧ t.powered = true ∧ t.runs = [] ∧ t.tasks = [] ∧ t.contexts = [] ∧ t.cmds = []
      ∧ (∀ e ∈ t.arrays, 64 ≤ e.1) ∧ t.llc = [] ∧ t.llcLines = [] ∧ (∀ e ∈ t.mem, Config.hbmBytes ≤ e.1)
      ∧ t.flash = s.flash ∧ t.hostMem = s.hostMem ∧ t.bootStat = s.bootWord ∧ t.keys = []
      ∧ t.hubImage = s.loads 0 ∧ t.supImage = (if (s.loads 0).isSome = true then s.loads 2 else none)
      ∧ ∀ d, d < 4 → (t.die d).alive = true ∧ (t.die d).dlr = (s.die d).flashDlr ∧ (t.die d).flashDlr = (s.die d).flashDlr
        ∧ (t.die d).frozen = false ∧ (t.die d).powerList = (s.die d).powerList)

/-- 21_tasks.md R271, 25_device.md R315 to R318, R320: what a write of the adapter window does. LBWIDX moves unless more than LBSIZE descriptors would
be pending or a reserved bit is set; LBBASE and LBSIZE take a legal value while no descriptor is pending, and CTXIRQ its vector; CTXISR bits are cleared by 1, HBAR arrives at the context's .sys barrier, in an open generation if there is one,
which it may complete, HCOPY queues a host copy under the context and with the receipt of its control block, which shows ACCEPTED, or makes a
dead-letter entry where that receipt cannot be written, MCMD and MKEY hold their words while no command is busy, and MDOOR starts the command or shows that
there is none. 25_device.md R316, R314: the aperture reads the bytes of HBM as it holds them once the LLC has written its own back, ciphertext where
they are encrypted, and 0 beyond it; what it writes is in HBM, recorded as not encrypted, and in no line of the LLC (what a read of a poisoned granule
gives is a free value: log entry 27). 00_scope.md R4: a host read returns what the register holds, and 0 of a write-only one. The model's choices: log
entries 31 (the doorbell), 45 (host arrivals), 52 (LBWIDX, CTXISR, and an HCOPY address that is not a multiple of 64, which is discarded) and
62 (reads). -/
def Obligations.HostWritesAndApertures : Prop :=
  (∀ (s : State) (c : Context) (p k : Nat) (v : DWord),
      s.context c.num = some c → p < 4 → k < 8 →
        (∃ t, exec (.lbwidxWrite c.num p v) s = .next t ∧ t.context c.num = some
          (if v.extractLsb' 32 32 = 0 ∧ (v.setWidth 32 - boxOf c.lbRidx p).toNat ≤ (boxOf c.lbSize p).toNat
            then { c with lbWidx := setBox c.lbWidx p (v.setWidth 32) } else c))
        ∧ (∃ t, exec (.ctxisrWrite c.num v) s = .next t ∧ t.context c.num = some { c with isr := c.isr &&& ~~~(v.setWidth 4) }
            ∧ { t with contexts := s.contexts } = s)
        ∧ ((∀ b ∈ s.barriers, b.full = false ∧ (b.ctx = c.num → b.scope = 5 → b.done ≠ [])) →
            ∃ t, exec (.hbarWrite c.num) s = .next t ∧ { t with barriers := s.barriers } = s
              ∧ t.barriers = s.barriers ++ [{ ctx := c.num, scope := 5, inst := 0, count := 0, arrived := [], hosts := 1, done := [], frank := [] }])
        ∧ (∀ before b after, s.barriers = before ++ b :: after → b.ctx = c.num → b.scope = 5 → b.inst = 0 → b.done = [] →
            (∀ x ∈ before ++ after, x.full = false ∧ (x.ctx = c.num → x.scope = 5 → x.done ≠ [])) →
            (b.arrived = [] ∨ b.arrived.length + b.hosts + 1 < b.count.toNat →
              exec (.hbarWrite c.num) s = .next { s with barriers := before ++ { b with hosts := b.hosts + 1 } :: after })
            ∧ (b.arrived ≠ [] → b.arrived.length + b.hosts + 1 = b.count.toNat → ∃ t, exec (.hbarWrite c.num) s = .next t
                ∧ t.barriers = before ++ { b with
                    done := b.arrived.map (·.1), frank := b.arrived.foldl (fun f a => setUnion f a.2) [], hosts := 0 } :: after
                ∧ t.context c.num = some { c with barGen := c.barGen + 1, isr := c.isr ||| 8 }))
        ∧ (∀ block : List Byte, v.toNat % 64 = 0 → block.length = 64 → (∀ j, j < 64 → block[j]? = some (tabGet 0 s.hostMem (v.toNat + j))) →
            let rcpt := leNat ((block.drop 32).take 8) % 2 ^ 55
            let s1 := { s with hcopy := v }
            ∃ x : Cmd, x.id = s.nextCmd ∧ x.unit = 10 ∧ x.op = .hcopyWrite v ∧ x.ctx = leNat ((block.drop 24).take 2) ∧ x.rcpt = rcpt
              ∧ x.desc = v.toNat ∧ x.racc = none ∧ x.task = none ∧ x.started = false ∧ x.terminal = false ∧ x.words = leWords 8 8 block
              ∧ (rcpt % 16 = 0 → ∀ acc u, s1.cmdAccess x rcpt .write = (.ok acc, u) →
                  let y := { x with racc := some acc }
                  exec (.hcopyWrite v) s = .next ({ u with cmds := s.cmds ++ [y], nextCmd := s.nextCmd + 1 }.cmdReceipt y stAccepted 0 y.code 0 0 []))
              ∧ (∀ u, (rcpt % 16 ≠ 0 ∧ u = s1) ∨ (rcpt % 16 = 0 ∧ ∃ e, s1.cmdAccess x rcpt .write = (.error e, u)) →
                  exec (.hcopyWrite v) s = .next (u.deadLetter 0 (u.dlrEntry 0 rcpt x.code 1 0 x.ctx 0)) ∧ u.cmds = s.cmds))
        ∧ (1 ≤ c.num → c.num < 65536 → let block := 0x100000 + 0x1000 * c.num
            let idle := boxOf c.lbWidx p = boxOf c.lbRidx p
            let becomes (off : Nat) (x : Context) : Prop := ∃ t, exec (.hostRegisterWrite (block + off) v) s = .next t
              ∧ t.context c.num = some x ∧ (∀ m, m ≠ c.num → t.context m = s.context m) ∧ { t with contexts := s.contexts } = s
            becomes (0x20 * p) (if idle ∧ v.toNat % 128 = 0 ∧ v.toNat < 2 ^ 55 then { c with lbBase := setBox c.lbBase p v } else c)
            ∧ becomes (0x20 * p + 0x08) (if idle ∧ (v = 0 ∨ ∃ e, e < 16 ∧ v.toNat = 2 ^ e) then { c with lbSize := setBox c.lbSize p (v.setWidth 16) } else c)
            ∧ becomes 0x80 { c with irq := v.setWidth 11 }
            ∧ exec (.hostRegisterWrite (block + 0x20 * p + 0x10) v) s = exec (.lbwidxWrite c.num p v) s
            ∧ exec (.hostRegisterWrite (block + 0x88) v) s = exec (.ctxisrWrite c.num v) s
            ∧ exec (.hostRegisterWrite (block + 0x90) v) s = exec (.hbarWrite c.num) s)
        ∧ (v.toNat % 64 ≠ 0 → exec (.hcopyWrite v) s = .next s)
        ∧ (s.mstat ≠ 1 → exec (.hostRegisterWrite (0x100 + 8 * k) v) s = .next { s with mcmd := vset s.mcmd k v }
            ∧ exec (.hostRegisterWrite (0x180 + 8 * k) v) s = .next { s with mkey := vset s.mkey k v }
            ∧ (1 ≤ s.mcode → s.mcode ≤ 0x15 → s.mcode ≠ 4 → s.recovery = false →
                exec (.hostRegisterWrite 0x140 1) s = .next { s with mstat := 1, merr := 0 })
            ∧ (s.mcode = 4 → s.spare [0xFF, 0xFF] = false → s.recovery = false → ∃ t, exec (.hostRegisterWrite 0x140 1) s = .next t
                ∧ (t.keySlot (s.mw 1)).loaded = false ∧ (∀ j, j ≠ s.mw 1 → t.keySlot j = s.keySlot j)
                ∧ { t with keys := s.keys } = { s with mstat := 1, merr := 0 })
            ∧ ((s.mcode = 0 ∨ 0x15 < s.mcode) → exec (.hostRegisterWrite 0x140 1) s = .next { s with mstat := 3, merr := 1 }))
        ∧ (s.mstat = 1 → exec (.hostRegisterWrite (0x100 + 8 * k) v) s = .next s ∧ exec (.hostRegisterWrite 0x140 1) s = .next s)
        ∧ s.readWindow 0 = s.modId.zeroExtend 64 ∧ s.readWindow (0x100 + 8 * k) = vget s.mcmd k 0 ∧ s.readWindow 0x140 = 0
        ∧ s.readWindow 0x148 = s.merr.zeroExtend 64 <<< 8 ||| s.mstat.zeroExtend 64 ∧ s.readWindow (0x180 + 8 * k) = 0 ∧ s.readWindow 0x1C0 = 0
        ∧ (1 ≤ c.num → c.num < 65536 → let block := 0x100000 + 0x1000 * c.num
            s.readWindow (block + 0x20 * p + 0x10) = (boxOf c.lbWidx p).zeroExtend 64
            ∧ s.readWindow (block + 0x20 * p + 0x18) = (boxOf c.lbRidx p).zeroExtend 64 ∧ s.readWindow (block + 0x88) = c.isr.zeroExtend 64
            ∧ s.readWindow (block + 0x90) = 0 ∧ s.readWindow (block + 0x98) = c.barGen.zeroExtend 64))
  ∧ (∀ (s : State) (p n : Nat) (bytes : List Byte),
      let good (g : Nat) : Prop := g ∉ s.poison ∧ g ∉ s.latent
      Memory.wf s = true → (∀ e ∈ s.llcTags, s.dirtyGran e.1 = true) →
        (∃ t bs, exec (.hostApertureRead p n) s = .next t ∧ t.hostReads = s.hostReads ++ [bs] ∧ bs.length = n
          ∧ (∀ i, i < n → (Config.hbmBytes ≤ p + i → bs[i]? = some 0)
              ∧ (p + i < Config.hbmBytes → tabFind t.llc (p + i) = none ∧ t.plainByte (p + i) = s.plainByte (p + i)
                ∧ (good ((p + i) / 32) → bs[i]? = some (s.plainByte (p + i)))))
          ∧ SameBytes s t)
        ∧ (0 < bytes.length → bytes.length ≤ 32 - p % 32 → p + bytes.length ≤ Config.hbmBytes → good (p / 32) →
          ∃ t, exec (.hostApertureWrite p bytes) s = .next t ∧ t.tagOf (p / 32) = none ∧ tabFind t.llcLines (p / 64) = none
            ∧ (∀ k, p ≤ k → k < p + bytes.length → tabFind t.llc k = none)
            ∧ ∀ k, t.plainByte k = if p ≤ k ∧ k < p + bytes.length then bytes.getD (k - p) 0 else s.plainByte k))

/-- 25_device.md R318, R319: a management command acts only while MSTAT shows it as busy; a word with a reserved bit set ends it with error 1, and
otherwise the settings take the values of the command words (which word holds which value, where R319 leaves it open: log entry 18; which operands
are bad: 31; that a command ends in one step: 66). DRP.SET with a value that R324 does not admit ends with error 1 (which words hold them: log
entry 18). -/
def Obligations.ManagementCommandsSetTheModule : Prop :=
  ∀ (s : State) (c : Context),
    let w (k : Nat) : Nat := (vget s.mcmd k 0).toNat
    let die := s.die (w 1 % 4)
    let old := vget die.quads (w 1 / 256 % 4) Quadrant.reset
    let quad := { old with thresh := BitVec.ofNat 10 (w 2), stretch := BitVec.ofNat 4 (w 3), hold := BitVec.ofNat 16 (w 4) }
    let done (u : State) : Host.Outcome State Fault Refusal := .next { u with mstat := 2, merr := 0 }
    let all := 2 ^ 64 - 1
    (s.mstat = 1 → s.mcode = 0x10 → (∀ k, k < 8 → vget s.mcmd k 0 &&& ~~~(BitVec.ofNat 64 ([0xFF, 0x303, all, all, all].getD k 0)) = 0) →
      ¬ (600 ≤ w 2 ∧ w 2 ≤ 740 ∧ 1 ≤ w 3 ∧ w 3 ≤ 15 ∧ 1 ≤ w 4 ∧ w 4 ≤ 65535) → exec .drpSet s = .next { s with mstat := 3, merr := 1 })
    ∧ ∀ p ∈ [
      (Instr.dspSet, 0x09, [0xFF, all, all, all], { s with age := vget s.mcmd 1 0, reserve := vget s.mcmd 2 0, fltTmo := vget s.mcmd 3 0 }),
      (.postcodeMode, 0x0E, [0xFF, 1, all], { s with autoSwap := w 1 == 1, swapInterval := vget s.mcmd 2 0, swapAt := s.ticks }),
      (.sclass, 0x0F, [0xFF, 0xFFFF, 0xFFFF, 0xFFFF, 0xFFFF], { s with budgets := #v[BitVec.ofNat 16 (w 1), BitVec.ofNat 16 (w 2),
        BitVec.ofNat 16 (w 3), BitVec.ofNat 16 (w 4)] }),
      (.routeSet, 0x13, [0xFF, 0x3FF, 2 ^ 18 - 1], { s with routes := tabPut s.routes (w 1) (BitVec.ofNat 18 (w 2)) }),
      (.dlrRelease, 0x0C, [0xFF, 3], s.setDie (w 1) { s.die (w 1) with frozen := false })]
      ++ (if s.contexts = [] then [(Instr.moduleSetid, 0x14, [0xFF, 0x3FF], { s with modId := BitVec.ofNat 10 (w 1) })] else [])
      ++ (if 600 ≤ w 2 ∧ w 2 ≤ 740 ∧ 1 ≤ w 3 ∧ w 3 ≤ 15 ∧ 1 ≤ w 4 ∧ w 4 ≤ 65535 then [(Instr.drpSet, 0x10, [0xFF, 0x303, all, all, all],
        s.setDie (w 1 % 4) { die with quads := vset die.quads (w 1 / 256 % 4) quad })] else [])
      ++ (if s.context (w 1) = some c then [(Instr.tokenRetire, 0x0A, [0xFF, 0xFFFF, 2 ^ 48 - 1],
          s.setContext { c with tokens := c.tokens.filter (fun t => t.tag.toNat != w 2) }),
        (.xlateInv, 0x05, [0xFF, 0xFFFF, all, all], { s with tlb := s.tlb.filter (fun e => !(e.ctx == w 1 && e.covers (w 2 / 2 ^ 16) (w 3))) })] else []),
      (s.mstat ≠ 1 ∨ s.mcode ≠ p.2.1 → exec p.1 s = .next s)
      ∧ (s.mstat = 1 → s.mcode = p.2.1 →
          ((∃ k, k < 8 ∧ vget s.mcmd k 0 &&& ~~~(BitVec.ofNat 64 (p.2.2.1.getD k 0)) ≠ 0) → exec p.1 s = .next { s with mstat := 3, merr := 1 })
          ∧ ((∀ k, k < 8 → vget s.mcmd k 0 &&& ~~~(BitVec.ofNat 64 (p.2.2.1.getD k 0)) = 0) → exec p.1 s = done p.2.2.2))

/-- 25_device.md R310, R314, R315, R319, 20_memory_notes.md: contexts, keys, regions and images. CTX.CREATE adds its context, CTX.DESTROY takes its
context and everything of it away; KEY.LOAD and KEY.DESTROY move the slot's generation on, and no cache keeps a line of a destroyed key;
POSTCODE.SWAP exchanges two regions and changes no byte; FLASH.LOAD puts bytes of host memory into a slot. The model's choices: which words hold the
slot, the regions, the image slot, the address and the length (log entry 18); error 3 of CTX.CREATE for a context in use (31); FLASH.LOAD ends in
one step (66). -/
def Obligations.ManagementCommandsChangeContexts : Prop :=
  ∀ (s : State) (c : Context),
    let w (k : Nat) : Nat := (vget s.mcmd k 0).toNat
    let clear (used : List Nat) : Prop := ∀ k, k < 8 → vget s.mcmd k 0 &&& ~~~(BitVec.ofNat 64 (used.getD k 0)) = 0
    let busy (code : Nat) (used : List Nat) : Prop := s.mstat = 1 ∧ s.mcode = code ∧ clear used
    let all := 2 ^ 64 - 1
    let acts (i : Instr) (f : State → Prop) : Prop := ∃ t, exec i s = .next t ∧ t.mstat = 2 ∧ t.merr = 0 ∧ f t
    (busy 0x01 [0xFF, 0xFF03FFFF, 2 ^ 54 - 1, all, all, all] → w 1 % 2 ^ 16 ≠ 0 → w 2 % 2 ^ 16 = 0 → s.place (w 2) = .hbm →
      (s.context (w 1 % 2 ^ 16) = none → acts .ctxCreate (fun t => { t with mstat := s.mstat, merr := s.merr, contexts := s.contexts } = s
        ∧ ∃ x, t.context (w 1 % 2 ^ 16) = some x ∧ x.ceiling = w 1 / 2 ^ 16 % 4 ∧ x.slot = w 1 / 2 ^ 24 % 256 ∧ x.root = w 2 ∧ x.tokcap = w 3
          ∧ x.pool = w 4 ∧ x.poolMiB = w 5 ∧ x.tokens = [] ∧ x.isr = 0))
      ∧ (s.context (w 1 % 2 ^ 16) ≠ none → exec .ctxCreate s = .next { s with mstat := 3, merr := 3 }))
    ∧ (busy 0x02 [0xFF, 0xFFFF] → s.context (w 1) = some c → (∀ e ∈ s.runs, e.2.ctx ≠ w 1) →
        acts .ctxDestroy (fun t => t.context (w 1) = none ∧ (∀ e ∈ t.tlb, e.ctx ≠ w 1) ∧ (∀ x ∈ t.tasks, x.ctx ≠ w 1) ∧ (∀ x ∈ t.cmds, x.ctx ≠ w 1)
          ∧ ((∀ x ∈ s.contexts, x.num ≠ w 1 → x.slot ≠ c.slot) → (t.keySlot c.slot).loaded = false)))
    ∧ (busy 0x03 [0xFF, 0xFF] → acts .keyLoad (fun t => (t.keySlot (w 1)).loaded = true ∧ (t.keySlot (w 1)).gen = (s.keySlot (w 1)).gen + 1
        ∧ (∀ k, k < 8 → (t.keySlot (w 1)).key.extractLsb' (64 * k) 64 = vget s.mkey k 0) ∧ ∀ k, k ≠ w 1 → t.keySlot k = s.keySlot k))
    ∧ (busy 0x04 [0xFF, 0xFF] → acts .keyDestroy (fun t => (t.keySlot (w 1)).loaded = false ∧ (t.keySlot (w 1)).gen = (s.keySlot (w 1)).gen + 1
        ∧ (∀ a, ∀ l ∈ (t.arr a).l1, l.2.slot ≠ some (w 1)) ∧ (∀ d, ∀ l ∈ (t.die d).l2, l.2.slot ≠ some (w 1)) ∧ ∀ k, k ≠ w 1 → t.keySlot k = s.keySlot k))
    ∧ (busy 0x0D [0xFF, 2 ^ 18 - 1, 2 ^ 18 - 1] → acts .postcodeSwap (fun t => t.frame (w 1) = s.frame (w 2) ∧ t.frame (w 2) = s.frame (w 1)
        ∧ (∀ k, k ≠ w 1 → k ≠ w 2 → t.frame k = s.frame k) ∧ SameBytes s t))
    ∧ (busy 0x15 [0xFF, all, all, all] → w 1 < 4 → s.recovery = false → acts .flashLoad (fun t =>
        tabFind t.flash (w 1) = some ((List.range (w 3)).map (fun k => tabGet 0 s.hostMem (w 2 + k)))
        ∧ { t with mstat := s.mstat, merr := s.merr, flash := s.flash } = s))

/-- 23_traps.md R298, R305, 25_device.md R319, R327, 26_device_notes.md R328: the commands that name a running task, and those that report. INTERRUPT
sets the task's interrupt; FAULT.RESUME lets a held task go on, and FAULT.FAIL ends it; DLR.READ, COUNTERS.READ and ATTEST put their bytes into
host memory (the layout of COUNTERS.READ: log entry 18; the signature, serial, versions and certificate: free values, log entry 10). The task that a command
names, and the pre-empted one: log entries 31 and 36. -/
def Obligations.ManagementCommandsActOnTasks : Prop :=
  ∀ (s : State) (r : Run) (why : TrapInfo) (since n : Nat),
    let w (k : Nat) : Nat := (vget s.mcmd k 0).toNat
    let clear (used : List Nat) : Prop := ∀ k, k < 8 → vget s.mcmd k 0 &&& ~~~(BitVec.ofNat 64 (used.getD k 0)) = 0
    let all := 2 ^ 64 - 1
    let busy (code : Nat) (used : List Nat) : Prop := s.mstat = 1 ∧ s.mcode = code ∧ clear used
    let acts (i : Instr) (f : State → Prop) : Prop := ∃ t, exec i s = .next t ∧ t.mstat = 2 ∧ t.merr = 0 ∧ f t
    let puts (i : Instr) (bus : Nat) (bs : List Byte) : Prop :=
      tabWf 0 s.hostMem = true → acts i (fun t => (∀ k, tabGet 0 t.hostMem k = if bus ≤ k ∧ k < bus + bs.length then bs.getD (k - bus) 0 else tabGet 0 s.hostMem k)
        ∧ { t with mstat := s.mstat, merr := s.merr, hostMem := s.hostMem } = s)
    let named := s.run? (w 2) = some r ∧ r.head = w 2 ∧ r.ctx = w 1 ∧ r.phase ≠ .closed
    let record := (s.die (w 1 % 4)).dlr
    (named → busy 0x06 [0xFF, 0xFFFF, 0x3F] → acts .interrupt (fun t => t.run? (w 2) = some { r with intr := true }
        ∧ (∀ h, h ≠ w 2 → t.run? h = s.run? h) ∧ { t with mstat := s.mstat, merr := s.merr, runs := s.runs } = s))
    ∧ (named → r.phase = .held why since → busy 0x07 [0xFF, 0xFFFF, 0x3F] →
        acts .faultResume (fun t => t.run? (w 2) = some { r with phase := goOn r.closing } ∧ (∀ h, h ≠ w 2 → t.run? h = s.run? h) ∧ SameBytes s t))
    ∧ (named → r.phase = .held why since → busy 0x08 [0xFF, 0xFFFF, 0x3F] → ∀ k, s.task r.task = some k →
        acts .faultFail (fun t => (t.run? (w 2)).map (·.phase) = some .ended ∧ (t.task r.task).map (·.phase)
          = some (.failed (faultClass why.cause.toNat why.perm) (unitCode r.die 10 why.cause.toNat) why.addr.toNat)))
    ∧ (named → (∀ x y, r.phase ≠ .held x y) → (∀ x ∈ s.tasks, x.image = none) → busy 0x07 [0xFF, 0xFFFF, 0x3F] →
        exec .faultResume s = .next { s with mstat := 3, merr := 2 })
    ∧ (busy 0x0B [0xFF, 0x103, all] → w 1 < 4 → puts .dlrRead (w 2)
        (record.flatMap Dlr.bytes ++ List.replicate (32 * (4096 - record.length)) 0))
    ∧ (busy 0x11 [0xFF, all] → puts .countersRead (w 1) s.counterBytes ∧ s.counterBytes.length = 4 * (256 + 361 + 8 + 16)
        ∧ (n < 256 → leNat ((s.counterBytes.drop (4 * n)).take 4) = tabGet 0 s.chanCount n % 2 ^ 32))
    ∧ (busy 0x12 [0xFF, 0, all, 0, all, all, all, all] → puts .attest (w 2) s.report)

/-! ## Steps, encodings and invariants -/

/-- 03_wave.md R31, R35, 09_sequencer_isa.md R100: a step runs what the schedule's next turn names (log entry 1). Where that is the issue of a bundle,
the bytes at PC are fetched, from the bundle cache or through memory, and decoded, and a legal bundle issues with what its slots say; one that
holds a single instruction does what that instruction means; an illegal one raises ILLEGAL; and a fetch that fails raises its cause. -/
def Obligations.StepRunsTheDecodedBundle : Prop :=
  ∀ (s : State) (t : Turn) (rest : List Turn) (r : Run) (acc : Access) (s0 : State) (e : Nat),
    let u : State := { s with sched := rest, ticks := s.ticks + t.ticks, cur := t.head }
    let pc := r.pc.toNat
    let o := s0.read (.engine r.die (whoSeq r.head) 0) acc 32
    let word := bundleOfBytes o.bytes
    let s1 := o.st.keepBundle r.head (pc / 32) word
    s.sched = t :: rest → s.powered = true → t.background = [] →
      step s = exec t.event u
      ∧ (t.event = .bundleIssue → u.run? u.cur = some r → r.head = u.cur → r.mayIssue = true →
          let fetches (w : Bundle) (v : State) : Prop :=
            (∀ b, legal w = .ok b → step s = .next (v.issueSlots r b (slotWord w .cellA) (slotWord w .cellB)))
            ∧ (∀ m, legal w = .error m → step s = .next (v.stopIssue r.foldRecords (illegal m)))
            ∧ (∀ i, slotClasses i ≠ [] → legal w = .ok (alone i) → slotWord w .cellA = (cellWords i).1 → slotWord w .cellB = (cellWords i).2 →
                v.run? v.cur = some r → step s = exec i v)
          (∀ w, tabFind (u.arr r.head).icache (pc / 32) = some w → fetches w u)
          ∧ (tabFind (u.arr r.head).icache (pc / 32) = none → u.translate (.seq r.head) r.die r.ctx r.arrays pc .fetch = (.ok acc, s0) →
              o.poison = none → fetches word s1)
          ∧ (tabFind (u.arr r.head).icache (pc / 32) = none → u.translate (.seq r.head) r.die r.ctx r.arrays pc .fetch = (.error e, s0) →
              e ≠ xUe → step s = .next (s0.stopIssue r.foldRecords (issueFault e pc))))

/-- 05_encoding.md R51, R56 to R64, R72, 09_sequencer_isa.md, 13_faces_engines.md R160, 15_semiring_isa.md R207, R211, 17_loops.md R225, 19_memory.md,
26_device_notes.md: the words that the specification writes out in its examples decode to the instructions that it names; FDGO is written out from
the field table of S6. -/
def Obligations.SpecWordsDecode : Prop :=
  let g : QGuard := ⟨false, 0⟩
  let p : PGuard := ⟨false, 0⟩
  decodeSlot .control 0x78104B00 = some (.waitr g 8 9 3)
  ∧ decodeSlot .control 0x09800006 = some (.br ⟨false, 3⟩ 0 6)
  ∧ decodeSlot .control 0x300CA805 = some (.loop g 6 2 5 5)
  ∧ decodeSlot .control 0x88200000 = some (.fence g 2 0)
  ∧ decodeSlot .control 0x982122A0 = some (.acqW g 2 4 5 2)
  ∧ decodeSlot .scalar 0x900A2003 = some (.ld g 10 8 0 3)
  ∧ decodeSlot .scalar 0x380A000F = some (.andi g 10 15)
  ∧ decodeSlot .scalar 0x740C2803 = some (.cmpi g 1 4 10 3)
  ∧ decodeSlot .scalar 0x9C050C07 = some (.stl g 5 3 1 true)
  ∧ decodeSlot .cellA 0x04628D90 = some (.iadd ⟨false, 3⟩ 5 6 50)
  ∧ decodeSlot .cellA 0xF0106441 = some (.sexpn p 2 0 50 2 true)
  ∧ decodeSlot .cellA 0xCC088960 = some (.smm p 1 1 4 44 false)
  ∧ decodeSlot .cellA 0xE4180029 = some (.smout p 3 5 false true)
  ∧ decodeSlot .cellB 0x04628D90 = some (.iadd ⟨false, 3⟩ 5 6 50)
  ∧ decodeSlot .selector 0x10014000 = some (.selSelector 0 0 5 0 0)
  ∧ decodeSlot .inject 0x30082811 = some (.fiqb g 4 5 true true)
  ∧ decodeSlot .drain 0x10000010 = some (.fdgo g true)
  ∧ decodeSlot .engine 0x1928AACD = some (.gath ⟨false, 2⟩ 20 21 22 true 5)

/-- 05_encoding.md R56, R58, R61, R63, R64: decoding the encoding of a well-formed instruction gives it back, with every operand. -/
def Obligations.DecodeReadsBackEveryEncoding : Prop :=
  ∀ (c : SlotClass) (i : Instr), wellFormed c i = true → ∃ w, encode i = some w ∧ decodeSlot c w = some i

/-- 05_encoding.md R65 to R67: the other direction: a word that decodes is the encoding of a well-formed instruction, so no two words of a slot mean
the same, and no reserved bit is dropped. -/
def Obligations.EveryDecodedWordIsAnEncoding : Prop :=
  ∀ (c : SlotClass) (w : Word) (i : Instr), decodeSlot c w = some i → wellFormed c i = true ∧ encode i = some w

/-- 19_memory.md R241: whatever happens, the memories keep the canonical form in which this model holds them: HBM, the LLC over it, face stores, host
memory, and the face stores of images. The form is the model's own representation, which no rule states. -/
def Obligations.EveryStepKeepsTheMemories : Prop :=
  ∀ (s t : State), s.sound → step s = .next t → t.sound

/-- 21_tasks.md R277, 01_machine.md R25: whatever happens, every running task is held under its head array, and no head holds two. -/
def Obligations.EveryStepKeepsTheBenches : Prop :=
  ∀ (s t : State), s.keyed → step s = .next t → t.keyed

/-- 25_device.md R324, R311, R317 to R319, R325, 21_tasks.md R272: what reset leaves, where the specification states it; the invariants hold there. Log
entry 6: the dies' empty records and the armed detectors are the model's choice. -/
def Obligations.ResetState : Prop :=
  let s := State.reset
  s.sound ∧ s.keyed ∧ s.powered = true ∧ s.runs = [] ∧ s.tasks = [] ∧ s.contexts = [] ∧ s.cmds = [] ∧ s.mcmd = Vector.replicate 8 0 ∧ s.mstat = 0
  ∧ s.merr = 0 ∧ s.modId = 0 ∧ s.budgets = #v[64, 256, 1024, 16384]
  ∧ ∀ d, d < 4 → (s.die d).alive = true ∧ (s.die d).dlr = [] ∧ ∀ k, k < 4 →
      vget (s.die d).quads k Quadrant.reset = ⟨690, 6, 64, 0, true, false, none, []⟩
end

