-- ==== Sys2Proof/Laws/State.lean ====
section
/-!
SUPPORT. One lemma for each field of the state under each named update: the fields that the update does not name are unchanged.
-/

namespace Sys2Proof.Machine

variable (s : State)

@[simp] theorem setArr_runs (a : Nat) (x : ArrayState) : (s.setArr a x).runs = s.runs := rfl
@[simp] theorem setArr_dies (a : Nat) (x : ArrayState) : (s.setArr a x).dies = s.dies := rfl
@[simp] theorem setArr_mem (a : Nat) (x : ArrayState) : (s.setArr a x).mem = s.mem := rfl
@[simp] theorem setArr_llc (a : Nat) (x : ArrayState) : (s.setArr a x).llc = s.llc := rfl
@[simp] theorem setArr_llcLines (a : Nat) (x : ArrayState) : (s.setArr a x).llcLines = s.llcLines := rfl
@[simp] theorem setArr_llcTags (a : Nat) (x : ArrayState) : (s.setArr a x).llcTags = s.llcTags := rfl
@[simp] theorem setArr_veil (a : Nat) (x : ArrayState) : (s.setArr a x).veil = s.veil := rfl
@[simp] theorem setArr_unveiled (a : Nat) (x : ArrayState) : (s.setArr a x).unveiled = s.unveiled := rfl
@[simp] theorem setArr_poison (a : Nat) (x : ArrayState) : (s.setArr a x).poison = s.poison := rfl
@[simp] theorem setArr_latent (a : Nat) (x : ArrayState) : (s.setArr a x).latent = s.latent := rfl
@[simp] theorem setArr_tags (a : Nat) (x : ArrayState) : (s.setArr a x).tags = s.tags := rfl
@[simp] theorem setArr_compressed (a : Nat) (x : ArrayState) : (s.setArr a x).compressed = s.compressed := rfl
@[simp] theorem setArr_franks (a : Nat) (x : ArrayState) : (s.setArr a x).franks = s.franks := rfl
@[simp] theorem setArr_hostLines (a : Nat) (x : ArrayState) : (s.setArr a x).hostLines = s.hostLines := rfl
@[simp] theorem setArr_tlb (a : Nat) (x : ArrayState) : (s.setArr a x).tlb = s.tlb := rfl
@[simp] theorem setArr_remote (a : Nat) (x : ArrayState) : (s.setArr a x).remote = s.remote := rfl
@[simp] theorem setArr_frames (a : Nat) (x : ArrayState) : (s.setArr a x).frames = s.frames := rfl
@[simp] theorem setArr_autoSwap (a : Nat) (x : ArrayState) : (s.setArr a x).autoSwap = s.autoSwap := rfl
@[simp] theorem setArr_swapInterval (a : Nat) (x : ArrayState) : (s.setArr a x).swapInterval = s.swapInterval := rfl
@[simp] theorem setArr_swapAt (a : Nat) (x : ArrayState) : (s.setArr a x).swapAt = s.swapAt := rfl
@[simp] theorem setArr_swaps (a : Nat) (x : ArrayState) : (s.setArr a x).swaps = s.swaps := rfl
@[simp] theorem setArr_requests (a : Nat) (x : ArrayState) : (s.setArr a x).requests = s.requests := rfl
@[simp] theorem setArr_scrubs (a : Nat) (x : ArrayState) : (s.setArr a x).scrubs = s.scrubs := rfl
@[simp] theorem setArr_budgets (a : Nat) (x : ArrayState) : (s.setArr a x).budgets = s.budgets := rfl
@[simp] theorem setArr_chanCount (a : Nat) (x : ArrayState) : (s.setArr a x).chanCount = s.chanCount := rfl
@[simp] theorem setArr_missed (a : Nat) (x : ArrayState) : (s.setArr a x).missed = s.missed := rfl
@[simp] theorem setArr_corrected (a : Nat) (x : ArrayState) : (s.setArr a x).corrected = s.corrected := rfl
@[simp] theorem setArr_tasks (a : Nat) (x : ArrayState) : (s.setArr a x).tasks = s.tasks := rfl
@[simp] theorem setArr_nextTask (a : Nat) (x : ArrayState) : (s.setArr a x).nextTask = s.nextTask := rfl
@[simp] theorem setArr_contexts (a : Nat) (x : ArrayState) : (s.setArr a x).contexts = s.contexts := rfl
@[simp] theorem setArr_lastBox (a : Nat) (x : ArrayState) : (s.setArr a x).lastBox = s.lastBox := rfl
@[simp] theorem setArr_cmds (a : Nat) (x : ArrayState) : (s.setArr a x).cmds = s.cmds := rfl
@[simp] theorem setArr_nextCmd (a : Nat) (x : ArrayState) : (s.setArr a x).nextCmd = s.nextCmd := rfl
@[simp] theorem setArr_packets (a : Nat) (x : ArrayState) : (s.setArr a x).packets = s.packets := rfl
@[simp] theorem setArr_postTurn (a : Nat) (x : ArrayState) : (s.setArr a x).postTurn = s.postTurn := rfl
@[simp] theorem setArr_barriers (a : Nat) (x : ArrayState) : (s.setArr a x).barriers = s.barriers := rfl
@[simp] theorem setArr_modId (a : Nat) (x : ArrayState) : (s.setArr a x).modId = s.modId := rfl
@[simp] theorem setArr_bootStat (a : Nat) (x : ArrayState) : (s.setArr a x).bootStat = s.bootStat := rfl
@[simp] theorem setArr_mcmd (a : Nat) (x : ArrayState) : (s.setArr a x).mcmd = s.mcmd := rfl
@[simp] theorem setArr_mstat (a : Nat) (x : ArrayState) : (s.setArr a x).mstat = s.mstat := rfl
@[simp] theorem setArr_merr (a : Nat) (x : ArrayState) : (s.setArr a x).merr = s.merr := rfl
@[simp] theorem setArr_mkey (a : Nat) (x : ArrayState) : (s.setArr a x).mkey = s.mkey := rfl
@[simp] theorem setArr_hcopy (a : Nat) (x : ArrayState) : (s.setArr a x).hcopy = s.hcopy := rfl
@[simp] theorem setArr_keys (a : Nat) (x : ArrayState) : (s.setArr a x).keys = s.keys := rfl
@[simp] theorem setArr_age (a : Nat) (x : ArrayState) : (s.setArr a x).age = s.age := rfl
@[simp] theorem setArr_reserve (a : Nat) (x : ArrayState) : (s.setArr a x).reserve = s.reserve := rfl
@[simp] theorem setArr_fltTmo (a : Nat) (x : ArrayState) : (s.setArr a x).fltTmo = s.fltTmo := rfl
@[simp] theorem setArr_routes (a : Nat) (x : ArrayState) : (s.setArr a x).routes = s.routes := rfl
@[simp] theorem setArr_portsDown (a : Nat) (x : ArrayState) : (s.setArr a x).portsDown = s.portsDown := rfl
@[simp] theorem setArr_portFails (a : Nat) (x : ArrayState) : (s.setArr a x).portFails = s.portFails := rfl
@[simp] theorem setArr_pod (a : Nat) (x : ArrayState) : (s.setArr a x).pod = s.pod := rfl
@[simp] theorem setArr_flash (a : Nat) (x : ArrayState) : (s.setArr a x).flash = s.flash := rfl
@[simp] theorem setArr_hubImage (a : Nat) (x : ArrayState) : (s.setArr a x).hubImage = s.hubImage := rfl
@[simp] theorem setArr_supImage (a : Nat) (x : ArrayState) : (s.setArr a x).supImage = s.supImage := rfl
@[simp] theorem setArr_recovery (a : Nat) (x : ArrayState) : (s.setArr a x).recovery = s.recovery := rfl
@[simp] theorem setArr_powered (a : Nat) (x : ArrayState) : (s.setArr a x).powered = s.powered := rfl
@[simp] theorem setArr_hostMem (a : Nat) (x : ArrayState) : (s.setArr a x).hostMem = s.hostMem := rfl
@[simp] theorem setArr_messages (a : Nat) (x : ArrayState) : (s.setArr a x).messages = s.messages := rfl
@[simp] theorem setArr_hostReads (a : Nat) (x : ArrayState) : (s.setArr a x).hostReads = s.hostReads := rfl
@[simp] theorem setArr_ticks (a : Nat) (x : ArrayState) : (s.setArr a x).ticks = s.ticks := rfl
@[simp] theorem setArr_cur (a : Nat) (x : ArrayState) : (s.setArr a x).cur = s.cur := rfl
@[simp] theorem setArr_sched (a : Nat) (x : ArrayState) : (s.setArr a x).sched = s.sched := rfl
@[simp] theorem setArr_freeCtr (a : Nat) (x : ArrayState) : (s.setArr a x).freeCtr = s.freeCtr := rfl

@[simp] theorem setDie_arrays (d : Nat) (x : Die) : (s.setDie d x).arrays = s.arrays := rfl
@[simp] theorem setDie_runs (d : Nat) (x : Die) : (s.setDie d x).runs = s.runs := rfl
@[simp] theorem setDie_mem (d : Nat) (x : Die) : (s.setDie d x).mem = s.mem := rfl
@[simp] theorem setDie_llc (d : Nat) (x : Die) : (s.setDie d x).llc = s.llc := rfl
@[simp] theorem setDie_llcLines (d : Nat) (x : Die) : (s.setDie d x).llcLines = s.llcLines := rfl
@[simp] theorem setDie_llcTags (d : Nat) (x : Die) : (s.setDie d x).llcTags = s.llcTags := rfl
@[simp] theorem setDie_veil (d : Nat) (x : Die) : (s.setDie d x).veil = s.veil := rfl
@[simp] theorem setDie_unveiled (d : Nat) (x : Die) : (s.setDie d x).unveiled = s.unveiled := rfl
@[simp] theorem setDie_poison (d : Nat) (x : Die) : (s.setDie d x).poison = s.poison := rfl
@[simp] theorem setDie_latent (d : Nat) (x : Die) : (s.setDie d x).latent = s.latent := rfl
@[simp] theorem setDie_tags (d : Nat) (x : Die) : (s.setDie d x).tags = s.tags := rfl
@[simp] theorem setDie_compressed (d : Nat) (x : Die) : (s.setDie d x).compressed = s.compressed := rfl
@[simp] theorem setDie_franks (d : Nat) (x : Die) : (s.setDie d x).franks = s.franks := rfl
@[simp] theorem setDie_hostLines (d : Nat) (x : Die) : (s.setDie d x).hostLines = s.hostLines := rfl
@[simp] theorem setDie_tlb (d : Nat) (x : Die) : (s.setDie d x).tlb = s.tlb := rfl
@[simp] theorem setDie_remote (d : Nat) (x : Die) : (s.setDie d x).remote = s.remote := rfl
@[simp] theorem setDie_frames (d : Nat) (x : Die) : (s.setDie d x).frames = s.frames := rfl
@[simp] theorem setDie_autoSwap (d : Nat) (x : Die) : (s.setDie d x).autoSwap = s.autoSwap := rfl
@[simp] theorem setDie_swapInterval (d : Nat) (x : Die) : (s.setDie d x).swapInterval = s.swapInterval := rfl
@[simp] theorem setDie_swapAt (d : Nat) (x : Die) : (s.setDie d x).swapAt = s.swapAt := rfl
@[simp] theorem setDie_swaps (d : Nat) (x : Die) : (s.setDie d x).swaps = s.swaps := rfl
@[simp] theorem setDie_requests (d : Nat) (x : Die) : (s.setDie d x).requests = s.requests := rfl
@[simp] theorem setDie_scrubs (d : Nat) (x : Die) : (s.setDie d x).scrubs = s.scrubs := rfl
@[simp] theorem setDie_budgets (d : Nat) (x : Die) : (s.setDie d x).budgets = s.budgets := rfl
@[simp] theorem setDie_chanCount (d : Nat) (x : Die) : (s.setDie d x).chanCount = s.chanCount := rfl
@[simp] theorem setDie_missed (d : Nat) (x : Die) : (s.setDie d x).missed = s.missed := rfl
@[simp] theorem setDie_corrected (d : Nat) (x : Die) : (s.setDie d x).corrected = s.corrected := rfl
@[simp] theorem setDie_tasks (d : Nat) (x : Die) : (s.setDie d x).tasks = s.tasks := rfl
@[simp] theorem setDie_nextTask (d : Nat) (x : Die) : (s.setDie d x).nextTask = s.nextTask := rfl
@[simp] theorem setDie_contexts (d : Nat) (x : Die) : (s.setDie d x).contexts = s.contexts := rfl
@[simp] theorem setDie_lastBox (d : Nat) (x : Die) : (s.setDie d x).lastBox = s.lastBox := rfl
@[simp] theorem setDie_cmds (d : Nat) (x : Die) : (s.setDie d x).cmds = s.cmds := rfl
@[simp] theorem setDie_nextCmd (d : Nat) (x : Die) : (s.setDie d x).nextCmd = s.nextCmd := rfl
@[simp] theorem setDie_packets (d : Nat) (x : Die) : (s.setDie d x).packets = s.packets := rfl
@[simp] theorem setDie_postTurn (d : Nat) (x : Die) : (s.setDie d x).postTurn = s.postTurn := rfl
@[simp] theorem setDie_barriers (d : Nat) (x : Die) : (s.setDie d x).barriers = s.barriers := rfl
@[simp] theorem setDie_modId (d : Nat) (x : Die) : (s.setDie d x).modId = s.modId := rfl
@[simp] theorem setDie_bootStat (d : Nat) (x : Die) : (s.setDie d x).bootStat = s.bootStat := rfl
@[simp] theorem setDie_mcmd (d : Nat) (x : Die) : (s.setDie d x).mcmd = s.mcmd := rfl
@[simp] theorem setDie_mstat (d : Nat) (x : Die) : (s.setDie d x).mstat = s.mstat := rfl
@[simp] theorem setDie_merr (d : Nat) (x : Die) : (s.setDie d x).merr = s.merr := rfl
@[simp] theorem setDie_mkey (d : Nat) (x : Die) : (s.setDie d x).mkey = s.mkey := rfl
@[simp] theorem setDie_hcopy (d : Nat) (x : Die) : (s.setDie d x).hcopy = s.hcopy := rfl
@[simp] theorem setDie_keys (d : Nat) (x : Die) : (s.setDie d x).keys = s.keys := rfl
@[simp] theorem setDie_age (d : Nat) (x : Die) : (s.setDie d x).age = s.age := rfl
@[simp] theorem setDie_reserve (d : Nat) (x : Die) : (s.setDie d x).reserve = s.reserve := rfl
@[simp] theorem setDie_fltTmo (d : Nat) (x : Die) : (s.setDie d x).fltTmo = s.fltTmo := rfl
@[simp] theorem setDie_routes (d : Nat) (x : Die) : (s.setDie d x).routes = s.routes := rfl
@[simp] theorem setDie_portsDown (d : Nat) (x : Die) : (s.setDie d x).portsDown = s.portsDown := rfl
@[simp] theorem setDie_portFails (d : Nat) (x : Die) : (s.setDie d x).portFails = s.portFails := rfl
@[simp] theorem setDie_pod (d : Nat) (x : Die) : (s.setDie d x).pod = s.pod := rfl
@[simp] theorem setDie_flash (d : Nat) (x : Die) : (s.setDie d x).flash = s.flash := rfl
@[simp] theorem setDie_hubImage (d : Nat) (x : Die) : (s.setDie d x).hubImage = s.hubImage := rfl
@[simp] theorem setDie_supImage (d : Nat) (x : Die) : (s.setDie d x).supImage = s.supImage := rfl
@[simp] theorem setDie_recovery (d : Nat) (x : Die) : (s.setDie d x).recovery = s.recovery := rfl
@[simp] theorem setDie_powered (d : Nat) (x : Die) : (s.setDie d x).powered = s.powered := rfl
@[simp] theorem setDie_hostMem (d : Nat) (x : Die) : (s.setDie d x).hostMem = s.hostMem := rfl
@[simp] theorem setDie_messages (d : Nat) (x : Die) : (s.setDie d x).messages = s.messages := rfl
@[simp] theorem setDie_hostReads (d : Nat) (x : Die) : (s.setDie d x).hostReads = s.hostReads := rfl
@[simp] theorem setDie_ticks (d : Nat) (x : Die) : (s.setDie d x).ticks = s.ticks := rfl
@[simp] theorem setDie_cur (d : Nat) (x : Die) : (s.setDie d x).cur = s.cur := rfl
@[simp] theorem setDie_sched (d : Nat) (x : Die) : (s.setDie d x).sched = s.sched := rfl
@[simp] theorem setDie_freeCtr (d : Nat) (x : Die) : (s.setDie d x).freeCtr = s.freeCtr := rfl

@[simp] theorem setRun_arrays (r : Run) : (s.setRun r).arrays = s.arrays := rfl
@[simp] theorem setRun_dies (r : Run) : (s.setRun r).dies = s.dies := rfl
@[simp] theorem setRun_mem (r : Run) : (s.setRun r).mem = s.mem := rfl
@[simp] theorem setRun_llc (r : Run) : (s.setRun r).llc = s.llc := rfl
@[simp] theorem setRun_llcLines (r : Run) : (s.setRun r).llcLines = s.llcLines := rfl
@[simp] theorem setRun_llcTags (r : Run) : (s.setRun r).llcTags = s.llcTags := rfl
@[simp] theorem setRun_veil (r : Run) : (s.setRun r).veil = s.veil := rfl
@[simp] theorem setRun_unveiled (r : Run) : (s.setRun r).unveiled = s.unveiled := rfl
@[simp] theorem setRun_poison (r : Run) : (s.setRun r).poison = s.poison := rfl
@[simp] theorem setRun_latent (r : Run) : (s.setRun r).latent = s.latent := rfl
@[simp] theorem setRun_tags (r : Run) : (s.setRun r).tags = s.tags := rfl
@[simp] theorem setRun_compressed (r : Run) : (s.setRun r).compressed = s.compressed := rfl
@[simp] theorem setRun_franks (r : Run) : (s.setRun r).franks = s.franks := rfl
@[simp] theorem setRun_hostLines (r : Run) : (s.setRun r).hostLines = s.hostLines := rfl
@[simp] theorem setRun_tlb (r : Run) : (s.setRun r).tlb = s.tlb := rfl
@[simp] theorem setRun_remote (r : Run) : (s.setRun r).remote = s.remote := rfl
@[simp] theorem setRun_frames (r : Run) : (s.setRun r).frames = s.frames := rfl
@[simp] theorem setRun_autoSwap (r : Run) : (s.setRun r).autoSwap = s.autoSwap := rfl
@[simp] theorem setRun_swapInterval (r : Run) : (s.setRun r).swapInterval = s.swapInterval := rfl
@[simp] theorem setRun_swapAt (r : Run) : (s.setRun r).swapAt = s.swapAt := rfl
@[simp] theorem setRun_swaps (r : Run) : (s.setRun r).swaps = s.swaps := rfl
@[simp] theorem setRun_requests (r : Run) : (s.setRun r).requests = s.requests := rfl
@[simp] theorem setRun_scrubs (r : Run) : (s.setRun r).scrubs = s.scrubs := rfl
@[simp] theorem setRun_budgets (r : Run) : (s.setRun r).budgets = s.budgets := rfl
@[simp] theorem setRun_chanCount (r : Run) : (s.setRun r).chanCount = s.chanCount := rfl
@[simp] theorem setRun_missed (r : Run) : (s.setRun r).missed = s.missed := rfl
@[simp] theorem setRun_corrected (r : Run) : (s.setRun r).corrected = s.corrected := rfl
@[simp] theorem setRun_tasks (r : Run) : (s.setRun r).tasks = s.tasks := rfl
@[simp] theorem setRun_nextTask (r : Run) : (s.setRun r).nextTask = s.nextTask := rfl
@[simp] theorem setRun_contexts (r : Run) : (s.setRun r).contexts = s.contexts := rfl
@[simp] theorem setRun_lastBox (r : Run) : (s.setRun r).lastBox = s.lastBox := rfl
@[simp] theorem setRun_cmds (r : Run) : (s.setRun r).cmds = s.cmds := rfl
@[simp] theorem setRun_nextCmd (r : Run) : (s.setRun r).nextCmd = s.nextCmd := rfl
@[simp] theorem setRun_packets (r : Run) : (s.setRun r).packets = s.packets := rfl
@[simp] theorem setRun_postTurn (r : Run) : (s.setRun r).postTurn = s.postTurn := rfl
@[simp] theorem setRun_barriers (r : Run) : (s.setRun r).barriers = s.barriers := rfl
@[simp] theorem setRun_modId (r : Run) : (s.setRun r).modId = s.modId := rfl
@[simp] theorem setRun_bootStat (r : Run) : (s.setRun r).bootStat = s.bootStat := rfl
@[simp] theorem setRun_mcmd (r : Run) : (s.setRun r).mcmd = s.mcmd := rfl
@[simp] theorem setRun_mstat (r : Run) : (s.setRun r).mstat = s.mstat := rfl
@[simp] theorem setRun_merr (r : Run) : (s.setRun r).merr = s.merr := rfl
@[simp] theorem setRun_mkey (r : Run) : (s.setRun r).mkey = s.mkey := rfl
@[simp] theorem setRun_hcopy (r : Run) : (s.setRun r).hcopy = s.hcopy := rfl
@[simp] theorem setRun_keys (r : Run) : (s.setRun r).keys = s.keys := rfl
@[simp] theorem setRun_age (r : Run) : (s.setRun r).age = s.age := rfl
@[simp] theorem setRun_reserve (r : Run) : (s.setRun r).reserve = s.reserve := rfl
@[simp] theorem setRun_fltTmo (r : Run) : (s.setRun r).fltTmo = s.fltTmo := rfl
@[simp] theorem setRun_routes (r : Run) : (s.setRun r).routes = s.routes := rfl
@[simp] theorem setRun_portsDown (r : Run) : (s.setRun r).portsDown = s.portsDown := rfl
@[simp] theorem setRun_portFails (r : Run) : (s.setRun r).portFails = s.portFails := rfl
@[simp] theorem setRun_pod (r : Run) : (s.setRun r).pod = s.pod := rfl
@[simp] theorem setRun_flash (r : Run) : (s.setRun r).flash = s.flash := rfl
@[simp] theorem setRun_hubImage (r : Run) : (s.setRun r).hubImage = s.hubImage := rfl
@[simp] theorem setRun_supImage (r : Run) : (s.setRun r).supImage = s.supImage := rfl
@[simp] theorem setRun_recovery (r : Run) : (s.setRun r).recovery = s.recovery := rfl
@[simp] theorem setRun_powered (r : Run) : (s.setRun r).powered = s.powered := rfl
@[simp] theorem setRun_hostMem (r : Run) : (s.setRun r).hostMem = s.hostMem := rfl
@[simp] theorem setRun_messages (r : Run) : (s.setRun r).messages = s.messages := rfl
@[simp] theorem setRun_hostReads (r : Run) : (s.setRun r).hostReads = s.hostReads := rfl
@[simp] theorem setRun_ticks (r : Run) : (s.setRun r).ticks = s.ticks := rfl
@[simp] theorem setRun_cur (r : Run) : (s.setRun r).cur = s.cur := rfl
@[simp] theorem setRun_sched (r : Run) : (s.setRun r).sched = s.sched := rfl
@[simp] theorem setRun_freeCtr (r : Run) : (s.setRun r).freeCtr = s.freeCtr := rfl

@[simp] theorem setContext_arrays (c : Context) : (s.setContext c).arrays = s.arrays := rfl
@[simp] theorem setContext_runs (c : Context) : (s.setContext c).runs = s.runs := rfl
@[simp] theorem setContext_dies (c : Context) : (s.setContext c).dies = s.dies := rfl
@[simp] theorem setContext_mem (c : Context) : (s.setContext c).mem = s.mem := rfl
@[simp] theorem setContext_llc (c : Context) : (s.setContext c).llc = s.llc := rfl
@[simp] theorem setContext_llcLines (c : Context) : (s.setContext c).llcLines = s.llcLines := rfl
@[simp] theorem setContext_llcTags (c : Context) : (s.setContext c).llcTags = s.llcTags := rfl
@[simp] theorem setContext_veil (c : Context) : (s.setContext c).veil = s.veil := rfl
@[simp] theorem setContext_unveiled (c : Context) : (s.setContext c).unveiled = s.unveiled := rfl
@[simp] theorem setContext_poison (c : Context) : (s.setContext c).poison = s.poison := rfl
@[simp] theorem setContext_latent (c : Context) : (s.setContext c).latent = s.latent := rfl
@[simp] theorem setContext_tags (c : Context) : (s.setContext c).tags = s.tags := rfl
@[simp] theorem setContext_compressed (c : Context) : (s.setContext c).compressed = s.compressed := rfl
@[simp] theorem setContext_franks (c : Context) : (s.setContext c).franks = s.franks := rfl
@[simp] theorem setContext_hostLines (c : Context) : (s.setContext c).hostLines = s.hostLines := rfl
@[simp] theorem setContext_tlb (c : Context) : (s.setContext c).tlb = s.tlb := rfl
@[simp] theorem setContext_remote (c : Context) : (s.setContext c).remote = s.remote := rfl
@[simp] theorem setContext_frames (c : Context) : (s.setContext c).frames = s.frames := rfl
@[simp] theorem setContext_autoSwap (c : Context) : (s.setContext c).autoSwap = s.autoSwap := rfl
@[simp] theorem setContext_swapInterval (c : Context) : (s.setContext c).swapInterval = s.swapInterval := rfl
@[simp] theorem setContext_swapAt (c : Context) : (s.setContext c).swapAt = s.swapAt := rfl
@[simp] theorem setContext_swaps (c : Context) : (s.setContext c).swaps = s.swaps := rfl
@[simp] theorem setContext_requests (c : Context) : (s.setContext c).requests = s.requests := rfl
@[simp] theorem setContext_scrubs (c : Context) : (s.setContext c).scrubs = s.scrubs := rfl
@[simp] theorem setContext_budgets (c : Context) : (s.setContext c).budgets = s.budgets := rfl
@[simp] theorem setContext_chanCount (c : Context) : (s.setContext c).chanCount = s.chanCount := rfl
@[simp] theorem setContext_missed (c : Context) : (s.setContext c).missed = s.missed := rfl
@[simp] theorem setContext_corrected (c : Context) : (s.setContext c).corrected = s.corrected := rfl
@[simp] theorem setContext_tasks (c : Context) : (s.setContext c).tasks = s.tasks := rfl
@[simp] theorem setContext_nextTask (c : Context) : (s.setContext c).nextTask = s.nextTask := rfl
@[simp] theorem setContext_lastBox (c : Context) : (s.setContext c).lastBox = s.lastBox := rfl
@[simp] theorem setContext_cmds (c : Context) : (s.setContext c).cmds = s.cmds := rfl
@[simp] theorem setContext_nextCmd (c : Context) : (s.setContext c).nextCmd = s.nextCmd := rfl
@[simp] theorem setContext_packets (c : Context) : (s.setContext c).packets = s.packets := rfl
@[simp] theorem setContext_postTurn (c : Context) : (s.setContext c).postTurn = s.postTurn := rfl
@[simp] theorem setContext_barriers (c : Context) : (s.setContext c).barriers = s.barriers := rfl
@[simp] theorem setContext_modId (c : Context) : (s.setContext c).modId = s.modId := rfl
@[simp] theorem setContext_bootStat (c : Context) : (s.setContext c).bootStat = s.bootStat := rfl
@[simp] theorem setContext_mcmd (c : Context) : (s.setContext c).mcmd = s.mcmd := rfl
@[simp] theorem setContext_mstat (c : Context) : (s.setContext c).mstat = s.mstat := rfl
@[simp] theorem setContext_merr (c : Context) : (s.setContext c).merr = s.merr := rfl
@[simp] theorem setContext_mkey (c : Context) : (s.setContext c).mkey = s.mkey := rfl
@[simp] theorem setContext_hcopy (c : Context) : (s.setContext c).hcopy = s.hcopy := rfl
@[simp] theorem setContext_keys (c : Context) : (s.setContext c).keys = s.keys := rfl
@[simp] theorem setContext_age (c : Context) : (s.setContext c).age = s.age := rfl
@[simp] theorem setContext_reserve (c : Context) : (s.setContext c).reserve = s.reserve := rfl
@[simp] theorem setContext_fltTmo (c : Context) : (s.setContext c).fltTmo = s.fltTmo := rfl
@[simp] theorem setContext_routes (c : Context) : (s.setContext c).routes = s.routes := rfl
@[simp] theorem setContext_portsDown (c : Context) : (s.setContext c).portsDown = s.portsDown := rfl
@[simp] theorem setContext_portFails (c : Context) : (s.setContext c).portFails = s.portFails := rfl
@[simp] theorem setContext_pod (c : Context) : (s.setContext c).pod = s.pod := rfl
@[simp] theorem setContext_flash (c : Context) : (s.setContext c).flash = s.flash := rfl
@[simp] theorem setContext_hubImage (c : Context) : (s.setContext c).hubImage = s.hubImage := rfl
@[simp] theorem setContext_supImage (c : Context) : (s.setContext c).supImage = s.supImage := rfl
@[simp] theorem setContext_recovery (c : Context) : (s.setContext c).recovery = s.recovery := rfl
@[simp] theorem setContext_powered (c : Context) : (s.setContext c).powered = s.powered := rfl
@[simp] theorem setContext_hostMem (c : Context) : (s.setContext c).hostMem = s.hostMem := rfl
@[simp] theorem setContext_messages (c : Context) : (s.setContext c).messages = s.messages := rfl
@[simp] theorem setContext_hostReads (c : Context) : (s.setContext c).hostReads = s.hostReads := rfl
@[simp] theorem setContext_ticks (c : Context) : (s.setContext c).ticks = s.ticks := rfl
@[simp] theorem setContext_cur (c : Context) : (s.setContext c).cur = s.cur := rfl
@[simp] theorem setContext_sched (c : Context) : (s.setContext c).sched = s.sched := rfl
@[simp] theorem setContext_freeCtr (c : Context) : (s.setContext c).freeCtr = s.freeCtr := rfl

@[simp] theorem setCmd_arrays (x : Cmd) : (s.setCmd x).arrays = s.arrays := rfl
@[simp] theorem setCmd_runs (x : Cmd) : (s.setCmd x).runs = s.runs := rfl
@[simp] theorem setCmd_dies (x : Cmd) : (s.setCmd x).dies = s.dies := rfl
@[simp] theorem setCmd_mem (x : Cmd) : (s.setCmd x).mem = s.mem := rfl
@[simp] theorem setCmd_llc (x : Cmd) : (s.setCmd x).llc = s.llc := rfl
@[simp] theorem setCmd_llcLines (x : Cmd) : (s.setCmd x).llcLines = s.llcLines := rfl
@[simp] theorem setCmd_llcTags (x : Cmd) : (s.setCmd x).llcTags = s.llcTags := rfl
@[simp] theorem setCmd_veil (x : Cmd) : (s.setCmd x).veil = s.veil := rfl
@[simp] theorem setCmd_unveiled (x : Cmd) : (s.setCmd x).unveiled = s.unveiled := rfl
@[simp] theorem setCmd_poison (x : Cmd) : (s.setCmd x).poison = s.poison := rfl
@[simp] theorem setCmd_latent (x : Cmd) : (s.setCmd x).latent = s.latent := rfl
@[simp] theorem setCmd_tags (x : Cmd) : (s.setCmd x).tags = s.tags := rfl
@[simp] theorem setCmd_compressed (x : Cmd) : (s.setCmd x).compressed = s.compressed := rfl
@[simp] theorem setCmd_franks (x : Cmd) : (s.setCmd x).franks = s.franks := rfl
@[simp] theorem setCmd_hostLines (x : Cmd) : (s.setCmd x).hostLines = s.hostLines := rfl
@[simp] theorem setCmd_tlb (x : Cmd) : (s.setCmd x).tlb = s.tlb := rfl
@[simp] theorem setCmd_remote (x : Cmd) : (s.setCmd x).remote = s.remote := rfl
@[simp] theorem setCmd_frames (x : Cmd) : (s.setCmd x).frames = s.frames := rfl
@[simp] theorem setCmd_autoSwap (x : Cmd) : (s.setCmd x).autoSwap = s.autoSwap := rfl
@[simp] theorem setCmd_swapInterval (x : Cmd) : (s.setCmd x).swapInterval = s.swapInterval := rfl
@[simp] theorem setCmd_swapAt (x : Cmd) : (s.setCmd x).swapAt = s.swapAt := rfl
@[simp] theorem setCmd_swaps (x : Cmd) : (s.setCmd x).swaps = s.swaps := rfl
@[simp] theorem setCmd_requests (x : Cmd) : (s.setCmd x).requests = s.requests := rfl
@[simp] theorem setCmd_scrubs (x : Cmd) : (s.setCmd x).scrubs = s.scrubs := rfl
@[simp] theorem setCmd_budgets (x : Cmd) : (s.setCmd x).budgets = s.budgets := rfl
@[simp] theorem setCmd_chanCount (x : Cmd) : (s.setCmd x).chanCount = s.chanCount := rfl
@[simp] theorem setCmd_missed (x : Cmd) : (s.setCmd x).missed = s.missed := rfl
@[simp] theorem setCmd_corrected (x : Cmd) : (s.setCmd x).corrected = s.corrected := rfl
@[simp] theorem setCmd_tasks (x : Cmd) : (s.setCmd x).tasks = s.tasks := rfl
@[simp] theorem setCmd_nextTask (x : Cmd) : (s.setCmd x).nextTask = s.nextTask := rfl
@[simp] theorem setCmd_contexts (x : Cmd) : (s.setCmd x).contexts = s.contexts := rfl
@[simp] theorem setCmd_lastBox (x : Cmd) : (s.setCmd x).lastBox = s.lastBox := rfl
@[simp] theorem setCmd_nextCmd (x : Cmd) : (s.setCmd x).nextCmd = s.nextCmd := rfl
@[simp] theorem setCmd_packets (x : Cmd) : (s.setCmd x).packets = s.packets := rfl
@[simp] theorem setCmd_postTurn (x : Cmd) : (s.setCmd x).postTurn = s.postTurn := rfl
@[simp] theorem setCmd_barriers (x : Cmd) : (s.setCmd x).barriers = s.barriers := rfl
@[simp] theorem setCmd_modId (x : Cmd) : (s.setCmd x).modId = s.modId := rfl
@[simp] theorem setCmd_bootStat (x : Cmd) : (s.setCmd x).bootStat = s.bootStat := rfl
@[simp] theorem setCmd_mcmd (x : Cmd) : (s.setCmd x).mcmd = s.mcmd := rfl
@[simp] theorem setCmd_mstat (x : Cmd) : (s.setCmd x).mstat = s.mstat := rfl
@[simp] theorem setCmd_merr (x : Cmd) : (s.setCmd x).merr = s.merr := rfl
@[simp] theorem setCmd_mkey (x : Cmd) : (s.setCmd x).mkey = s.mkey := rfl
@[simp] theorem setCmd_hcopy (x : Cmd) : (s.setCmd x).hcopy = s.hcopy := rfl
@[simp] theorem setCmd_keys (x : Cmd) : (s.setCmd x).keys = s.keys := rfl
@[simp] theorem setCmd_age (x : Cmd) : (s.setCmd x).age = s.age := rfl
@[simp] theorem setCmd_reserve (x : Cmd) : (s.setCmd x).reserve = s.reserve := rfl
@[simp] theorem setCmd_fltTmo (x : Cmd) : (s.setCmd x).fltTmo = s.fltTmo := rfl
@[simp] theorem setCmd_routes (x : Cmd) : (s.setCmd x).routes = s.routes := rfl
@[simp] theorem setCmd_portsDown (x : Cmd) : (s.setCmd x).portsDown = s.portsDown := rfl
@[simp] theorem setCmd_portFails (x : Cmd) : (s.setCmd x).portFails = s.portFails := rfl
@[simp] theorem setCmd_pod (x : Cmd) : (s.setCmd x).pod = s.pod := rfl
@[simp] theorem setCmd_flash (x : Cmd) : (s.setCmd x).flash = s.flash := rfl
@[simp] theorem setCmd_hubImage (x : Cmd) : (s.setCmd x).hubImage = s.hubImage := rfl
@[simp] theorem setCmd_supImage (x : Cmd) : (s.setCmd x).supImage = s.supImage := rfl
@[simp] theorem setCmd_recovery (x : Cmd) : (s.setCmd x).recovery = s.recovery := rfl
@[simp] theorem setCmd_powered (x : Cmd) : (s.setCmd x).powered = s.powered := rfl
@[simp] theorem setCmd_hostMem (x : Cmd) : (s.setCmd x).hostMem = s.hostMem := rfl
@[simp] theorem setCmd_messages (x : Cmd) : (s.setCmd x).messages = s.messages := rfl
@[simp] theorem setCmd_hostReads (x : Cmd) : (s.setCmd x).hostReads = s.hostReads := rfl
@[simp] theorem setCmd_ticks (x : Cmd) : (s.setCmd x).ticks = s.ticks := rfl
@[simp] theorem setCmd_cur (x : Cmd) : (s.setCmd x).cur = s.cur := rfl
@[simp] theorem setCmd_sched (x : Cmd) : (s.setCmd x).sched = s.sched := rfl
@[simp] theorem setCmd_freeCtr (x : Cmd) : (s.setCmd x).freeCtr = s.freeCtr := rfl

@[simp] theorem updTask_arrays (id : Nat) (f : Task → Task) : (s.updTask id f).arrays = s.arrays := rfl
@[simp] theorem updTask_runs (id : Nat) (f : Task → Task) : (s.updTask id f).runs = s.runs := rfl
@[simp] theorem updTask_dies (id : Nat) (f : Task → Task) : (s.updTask id f).dies = s.dies := rfl
@[simp] theorem updTask_mem (id : Nat) (f : Task → Task) : (s.updTask id f).mem = s.mem := rfl
@[simp] theorem updTask_llc (id : Nat) (f : Task → Task) : (s.updTask id f).llc = s.llc := rfl
@[simp] theorem updTask_llcLines (id : Nat) (f : Task → Task) : (s.updTask id f).llcLines = s.llcLines := rfl
@[simp] theorem updTask_llcTags (id : Nat) (f : Task → Task) : (s.updTask id f).llcTags = s.llcTags := rfl
@[simp] theorem updTask_veil (id : Nat) (f : Task → Task) : (s.updTask id f).veil = s.veil := rfl
@[simp] theorem updTask_unveiled (id : Nat) (f : Task → Task) : (s.updTask id f).unveiled = s.unveiled := rfl
@[simp] theorem updTask_poison (id : Nat) (f : Task → Task) : (s.updTask id f).poison = s.poison := rfl
@[simp] theorem updTask_latent (id : Nat) (f : Task → Task) : (s.updTask id f).latent = s.latent := rfl
@[simp] theorem updTask_tags (id : Nat) (f : Task → Task) : (s.updTask id f).tags = s.tags := rfl
@[simp] theorem updTask_compressed (id : Nat) (f : Task → Task) : (s.updTask id f).compressed = s.compressed := rfl
@[simp] theorem updTask_franks (id : Nat) (f : Task → Task) : (s.updTask id f).franks = s.franks := rfl
@[simp] theorem updTask_hostLines (id : Nat) (f : Task → Task) : (s.updTask id f).hostLines = s.hostLines := rfl
@[simp] theorem updTask_tlb (id : Nat) (f : Task → Task) : (s.updTask id f).tlb = s.tlb := rfl
@[simp] theorem updTask_remote (id : Nat) (f : Task → Task) : (s.updTask id f).remote = s.remote := rfl
@[simp] theorem updTask_frames (id : Nat) (f : Task → Task) : (s.updTask id f).frames = s.frames := rfl
@[simp] theorem updTask_autoSwap (id : Nat) (f : Task → Task) : (s.updTask id f).autoSwap = s.autoSwap := rfl
@[simp] theorem updTask_swapInterval (id : Nat) (f : Task → Task) : (s.updTask id f).swapInterval = s.swapInterval := rfl
@[simp] theorem updTask_swapAt (id : Nat) (f : Task → Task) : (s.updTask id f).swapAt = s.swapAt := rfl
@[simp] theorem updTask_swaps (id : Nat) (f : Task → Task) : (s.updTask id f).swaps = s.swaps := rfl
@[simp] theorem updTask_requests (id : Nat) (f : Task → Task) : (s.updTask id f).requests = s.requests := rfl
@[simp] theorem updTask_scrubs (id : Nat) (f : Task → Task) : (s.updTask id f).scrubs = s.scrubs := rfl
@[simp] theorem updTask_budgets (id : Nat) (f : Task → Task) : (s.updTask id f).budgets = s.budgets := rfl
@[simp] theorem updTask_chanCount (id : Nat) (f : Task → Task) : (s.updTask id f).chanCount = s.chanCount := rfl
@[simp] theorem updTask_missed (id : Nat) (f : Task → Task) : (s.updTask id f).missed = s.missed := rfl
@[simp] theorem updTask_corrected (id : Nat) (f : Task → Task) : (s.updTask id f).corrected = s.corrected := rfl
@[simp] theorem updTask_nextTask (id : Nat) (f : Task → Task) : (s.updTask id f).nextTask = s.nextTask := rfl
@[simp] theorem updTask_contexts (id : Nat) (f : Task → Task) : (s.updTask id f).contexts = s.contexts := rfl
@[simp] theorem updTask_lastBox (id : Nat) (f : Task → Task) : (s.updTask id f).lastBox = s.lastBox := rfl
@[simp] theorem updTask_cmds (id : Nat) (f : Task → Task) : (s.updTask id f).cmds = s.cmds := rfl
@[simp] theorem updTask_nextCmd (id : Nat) (f : Task → Task) : (s.updTask id f).nextCmd = s.nextCmd := rfl
@[simp] theorem updTask_packets (id : Nat) (f : Task → Task) : (s.updTask id f).packets = s.packets := rfl
@[simp] theorem updTask_postTurn (id : Nat) (f : Task → Task) : (s.updTask id f).postTurn = s.postTurn := rfl
@[simp] theorem updTask_barriers (id : Nat) (f : Task → Task) : (s.updTask id f).barriers = s.barriers := rfl
@[simp] theorem updTask_modId (id : Nat) (f : Task → Task) : (s.updTask id f).modId = s.modId := rfl
@[simp] theorem updTask_bootStat (id : Nat) (f : Task → Task) : (s.updTask id f).bootStat = s.bootStat := rfl
@[simp] theorem updTask_mcmd (id : Nat) (f : Task → Task) : (s.updTask id f).mcmd = s.mcmd := rfl
@[simp] theorem updTask_mstat (id : Nat) (f : Task → Task) : (s.updTask id f).mstat = s.mstat := rfl
@[simp] theorem updTask_merr (id : Nat) (f : Task → Task) : (s.updTask id f).merr = s.merr := rfl
@[simp] theorem updTask_mkey (id : Nat) (f : Task → Task) : (s.updTask id f).mkey = s.mkey := rfl
@[simp] theorem updTask_hcopy (id : Nat) (f : Task → Task) : (s.updTask id f).hcopy = s.hcopy := rfl
@[simp] theorem updTask_keys (id : Nat) (f : Task → Task) : (s.updTask id f).keys = s.keys := rfl
@[simp] theorem updTask_age (id : Nat) (f : Task → Task) : (s.updTask id f).age = s.age := rfl
@[simp] theorem updTask_reserve (id : Nat) (f : Task → Task) : (s.updTask id f).reserve = s.reserve := rfl
@[simp] theorem updTask_fltTmo (id : Nat) (f : Task → Task) : (s.updTask id f).fltTmo = s.fltTmo := rfl
@[simp] theorem updTask_routes (id : Nat) (f : Task → Task) : (s.updTask id f).routes = s.routes := rfl
@[simp] theorem updTask_portsDown (id : Nat) (f : Task → Task) : (s.updTask id f).portsDown = s.portsDown := rfl
@[simp] theorem updTask_portFails (id : Nat) (f : Task → Task) : (s.updTask id f).portFails = s.portFails := rfl
@[simp] theorem updTask_pod (id : Nat) (f : Task → Task) : (s.updTask id f).pod = s.pod := rfl
@[simp] theorem updTask_flash (id : Nat) (f : Task → Task) : (s.updTask id f).flash = s.flash := rfl
@[simp] theorem updTask_hubImage (id : Nat) (f : Task → Task) : (s.updTask id f).hubImage = s.hubImage := rfl
@[simp] theorem updTask_supImage (id : Nat) (f : Task → Task) : (s.updTask id f).supImage = s.supImage := rfl
@[simp] theorem updTask_recovery (id : Nat) (f : Task → Task) : (s.updTask id f).recovery = s.recovery := rfl
@[simp] theorem updTask_powered (id : Nat) (f : Task → Task) : (s.updTask id f).powered = s.powered := rfl
@[simp] theorem updTask_hostMem (id : Nat) (f : Task → Task) : (s.updTask id f).hostMem = s.hostMem := rfl
@[simp] theorem updTask_messages (id : Nat) (f : Task → Task) : (s.updTask id f).messages = s.messages := rfl
@[simp] theorem updTask_hostReads (id : Nat) (f : Task → Task) : (s.updTask id f).hostReads = s.hostReads := rfl
@[simp] theorem updTask_ticks (id : Nat) (f : Task → Task) : (s.updTask id f).ticks = s.ticks := rfl
@[simp] theorem updTask_cur (id : Nat) (f : Task → Task) : (s.updTask id f).cur = s.cur := rfl
@[simp] theorem updTask_sched (id : Nat) (f : Task → Task) : (s.updTask id f).sched = s.sched := rfl
@[simp] theorem updTask_freeCtr (id : Nat) (f : Task → Task) : (s.updTask id f).freeCtr = s.freeCtr := rfl

@[simp] theorem setPacket_arrays (p : Packet) : (s.setPacket p).arrays = s.arrays := rfl
@[simp] theorem setPacket_runs (p : Packet) : (s.setPacket p).runs = s.runs := rfl
@[simp] theorem setPacket_dies (p : Packet) : (s.setPacket p).dies = s.dies := rfl
@[simp] theorem setPacket_mem (p : Packet) : (s.setPacket p).mem = s.mem := rfl
@[simp] theorem setPacket_llc (p : Packet) : (s.setPacket p).llc = s.llc := rfl
@[simp] theorem setPacket_llcLines (p : Packet) : (s.setPacket p).llcLines = s.llcLines := rfl
@[simp] theorem setPacket_llcTags (p : Packet) : (s.setPacket p).llcTags = s.llcTags := rfl
@[simp] theorem setPacket_veil (p : Packet) : (s.setPacket p).veil = s.veil := rfl
@[simp] theorem setPacket_unveiled (p : Packet) : (s.setPacket p).unveiled = s.unveiled := rfl
@[simp] theorem setPacket_poison (p : Packet) : (s.setPacket p).poison = s.poison := rfl
@[simp] theorem setPacket_latent (p : Packet) : (s.setPacket p).latent = s.latent := rfl
@[simp] theorem setPacket_tags (p : Packet) : (s.setPacket p).tags = s.tags := rfl
@[simp] theorem setPacket_compressed (p : Packet) : (s.setPacket p).compressed = s.compressed := rfl
@[simp] theorem setPacket_franks (p : Packet) : (s.setPacket p).franks = s.franks := rfl
@[simp] theorem setPacket_hostLines (p : Packet) : (s.setPacket p).hostLines = s.hostLines := rfl
@[simp] theorem setPacket_tlb (p : Packet) : (s.setPacket p).tlb = s.tlb := rfl
@[simp] theorem setPacket_remote (p : Packet) : (s.setPacket p).remote = s.remote := rfl
@[simp] theorem setPacket_frames (p : Packet) : (s.setPacket p).frames = s.frames := rfl
@[simp] theorem setPacket_autoSwap (p : Packet) : (s.setPacket p).autoSwap = s.autoSwap := rfl
@[simp] theorem setPacket_swapInterval (p : Packet) : (s.setPacket p).swapInterval = s.swapInterval := rfl
@[simp] theorem setPacket_swapAt (p : Packet) : (s.setPacket p).swapAt = s.swapAt := rfl
@[simp] theorem setPacket_swaps (p : Packet) : (s.setPacket p).swaps = s.swaps := rfl
@[simp] theorem setPacket_requests (p : Packet) : (s.setPacket p).requests = s.requests := rfl
@[simp] theorem setPacket_scrubs (p : Packet) : (s.setPacket p).scrubs = s.scrubs := rfl
@[simp] theorem setPacket_budgets (p : Packet) : (s.setPacket p).budgets = s.budgets := rfl
@[simp] theorem setPacket_chanCount (p : Packet) : (s.setPacket p).chanCount = s.chanCount := rfl
@[simp] theorem setPacket_missed (p : Packet) : (s.setPacket p).missed = s.missed := rfl
@[simp] theorem setPacket_corrected (p : Packet) : (s.setPacket p).corrected = s.corrected := rfl
@[simp] theorem setPacket_tasks (p : Packet) : (s.setPacket p).tasks = s.tasks := rfl
@[simp] theorem setPacket_nextTask (p : Packet) : (s.setPacket p).nextTask = s.nextTask := rfl
@[simp] theorem setPacket_contexts (p : Packet) : (s.setPacket p).contexts = s.contexts := rfl
@[simp] theorem setPacket_lastBox (p : Packet) : (s.setPacket p).lastBox = s.lastBox := rfl
@[simp] theorem setPacket_cmds (p : Packet) : (s.setPacket p).cmds = s.cmds := rfl
@[simp] theorem setPacket_nextCmd (p : Packet) : (s.setPacket p).nextCmd = s.nextCmd := rfl
@[simp] theorem setPacket_postTurn (p : Packet) : (s.setPacket p).postTurn = s.postTurn := rfl
@[simp] theorem setPacket_barriers (p : Packet) : (s.setPacket p).barriers = s.barriers := rfl
@[simp] theorem setPacket_modId (p : Packet) : (s.setPacket p).modId = s.modId := rfl
@[simp] theorem setPacket_bootStat (p : Packet) : (s.setPacket p).bootStat = s.bootStat := rfl
@[simp] theorem setPacket_mcmd (p : Packet) : (s.setPacket p).mcmd = s.mcmd := rfl
@[simp] theorem setPacket_mstat (p : Packet) : (s.setPacket p).mstat = s.mstat := rfl
@[simp] theorem setPacket_merr (p : Packet) : (s.setPacket p).merr = s.merr := rfl
@[simp] theorem setPacket_mkey (p : Packet) : (s.setPacket p).mkey = s.mkey := rfl
@[simp] theorem setPacket_hcopy (p : Packet) : (s.setPacket p).hcopy = s.hcopy := rfl
@[simp] theorem setPacket_keys (p : Packet) : (s.setPacket p).keys = s.keys := rfl
@[simp] theorem setPacket_age (p : Packet) : (s.setPacket p).age = s.age := rfl
@[simp] theorem setPacket_reserve (p : Packet) : (s.setPacket p).reserve = s.reserve := rfl
@[simp] theorem setPacket_fltTmo (p : Packet) : (s.setPacket p).fltTmo = s.fltTmo := rfl
@[simp] theorem setPacket_routes (p : Packet) : (s.setPacket p).routes = s.routes := rfl
@[simp] theorem setPacket_portsDown (p : Packet) : (s.setPacket p).portsDown = s.portsDown := rfl
@[simp] theorem setPacket_portFails (p : Packet) : (s.setPacket p).portFails = s.portFails := rfl
@[simp] theorem setPacket_pod (p : Packet) : (s.setPacket p).pod = s.pod := rfl
@[simp] theorem setPacket_flash (p : Packet) : (s.setPacket p).flash = s.flash := rfl
@[simp] theorem setPacket_hubImage (p : Packet) : (s.setPacket p).hubImage = s.hubImage := rfl
@[simp] theorem setPacket_supImage (p : Packet) : (s.setPacket p).supImage = s.supImage := rfl
@[simp] theorem setPacket_recovery (p : Packet) : (s.setPacket p).recovery = s.recovery := rfl
@[simp] theorem setPacket_powered (p : Packet) : (s.setPacket p).powered = s.powered := rfl
@[simp] theorem setPacket_hostMem (p : Packet) : (s.setPacket p).hostMem = s.hostMem := rfl
@[simp] theorem setPacket_messages (p : Packet) : (s.setPacket p).messages = s.messages := rfl
@[simp] theorem setPacket_hostReads (p : Packet) : (s.setPacket p).hostReads = s.hostReads := rfl
@[simp] theorem setPacket_ticks (p : Packet) : (s.setPacket p).ticks = s.ticks := rfl
@[simp] theorem setPacket_cur (p : Packet) : (s.setPacket p).cur = s.cur := rfl
@[simp] theorem setPacket_sched (p : Packet) : (s.setPacket p).sched = s.sched := rfl
@[simp] theorem setPacket_freeCtr (p : Packet) : (s.setPacket p).freeCtr = s.freeCtr := rfl

@[simp] theorem putPod_arrays (k : Nat) (b : Byte) : (s.putPod k b).arrays = s.arrays := rfl
@[simp] theorem putPod_runs (k : Nat) (b : Byte) : (s.putPod k b).runs = s.runs := rfl
@[simp] theorem putPod_dies (k : Nat) (b : Byte) : (s.putPod k b).dies = s.dies := rfl
@[simp] theorem putPod_mem (k : Nat) (b : Byte) : (s.putPod k b).mem = s.mem := rfl
@[simp] theorem putPod_llcLines (k : Nat) (b : Byte) : (s.putPod k b).llcLines = s.llcLines := rfl
@[simp] theorem putPod_llcTags (k : Nat) (b : Byte) : (s.putPod k b).llcTags = s.llcTags := rfl
@[simp] theorem putPod_veil (k : Nat) (b : Byte) : (s.putPod k b).veil = s.veil := rfl
@[simp] theorem putPod_unveiled (k : Nat) (b : Byte) : (s.putPod k b).unveiled = s.unveiled := rfl
@[simp] theorem putPod_poison (k : Nat) (b : Byte) : (s.putPod k b).poison = s.poison := rfl
@[simp] theorem putPod_latent (k : Nat) (b : Byte) : (s.putPod k b).latent = s.latent := rfl
@[simp] theorem putPod_tags (k : Nat) (b : Byte) : (s.putPod k b).tags = s.tags := rfl
@[simp] theorem putPod_compressed (k : Nat) (b : Byte) : (s.putPod k b).compressed = s.compressed := rfl
@[simp] theorem putPod_franks (k : Nat) (b : Byte) : (s.putPod k b).franks = s.franks := rfl
@[simp] theorem putPod_hostLines (k : Nat) (b : Byte) : (s.putPod k b).hostLines = s.hostLines := rfl
@[simp] theorem putPod_tlb (k : Nat) (b : Byte) : (s.putPod k b).tlb = s.tlb := rfl
@[simp] theorem putPod_remote (k : Nat) (b : Byte) : (s.putPod k b).remote = s.remote := rfl
@[simp] theorem putPod_frames (k : Nat) (b : Byte) : (s.putPod k b).frames = s.frames := rfl
@[simp] theorem putPod_autoSwap (k : Nat) (b : Byte) : (s.putPod k b).autoSwap = s.autoSwap := rfl
@[simp] theorem putPod_swapInterval (k : Nat) (b : Byte) : (s.putPod k b).swapInterval = s.swapInterval := rfl
@[simp] theorem putPod_swapAt (k : Nat) (b : Byte) : (s.putPod k b).swapAt = s.swapAt := rfl
@[simp] theorem putPod_swaps (k : Nat) (b : Byte) : (s.putPod k b).swaps = s.swaps := rfl
@[simp] theorem putPod_requests (k : Nat) (b : Byte) : (s.putPod k b).requests = s.requests := rfl
@[simp] theorem putPod_scrubs (k : Nat) (b : Byte) : (s.putPod k b).scrubs = s.scrubs := rfl
@[simp] theorem putPod_budgets (k : Nat) (b : Byte) : (s.putPod k b).budgets = s.budgets := rfl
@[simp] theorem putPod_chanCount (k : Nat) (b : Byte) : (s.putPod k b).chanCount = s.chanCount := rfl
@[simp] theorem putPod_missed (k : Nat) (b : Byte) : (s.putPod k b).missed = s.missed := rfl
@[simp] theorem putPod_corrected (k : Nat) (b : Byte) : (s.putPod k b).corrected = s.corrected := rfl
@[simp] theorem putPod_tasks (k : Nat) (b : Byte) : (s.putPod k b).tasks = s.tasks := rfl
@[simp] theorem putPod_nextTask (k : Nat) (b : Byte) : (s.putPod k b).nextTask = s.nextTask := rfl
@[simp] theorem putPod_contexts (k : Nat) (b : Byte) : (s.putPod k b).contexts = s.contexts := rfl
@[simp] theorem putPod_lastBox (k : Nat) (b : Byte) : (s.putPod k b).lastBox = s.lastBox := rfl
@[simp] theorem putPod_cmds (k : Nat) (b : Byte) : (s.putPod k b).cmds = s.cmds := rfl
@[simp] theorem putPod_nextCmd (k : Nat) (b : Byte) : (s.putPod k b).nextCmd = s.nextCmd := rfl
@[simp] theorem putPod_packets (k : Nat) (b : Byte) : (s.putPod k b).packets = s.packets := rfl
@[simp] theorem putPod_postTurn (k : Nat) (b : Byte) : (s.putPod k b).postTurn = s.postTurn := rfl
@[simp] theorem putPod_barriers (k : Nat) (b : Byte) : (s.putPod k b).barriers = s.barriers := rfl
@[simp] theorem putPod_modId (k : Nat) (b : Byte) : (s.putPod k b).modId = s.modId := rfl
@[simp] theorem putPod_bootStat (k : Nat) (b : Byte) : (s.putPod k b).bootStat = s.bootStat := rfl
@[simp] theorem putPod_mcmd (k : Nat) (b : Byte) : (s.putPod k b).mcmd = s.mcmd := rfl
@[simp] theorem putPod_mstat (k : Nat) (b : Byte) : (s.putPod k b).mstat = s.mstat := rfl
@[simp] theorem putPod_merr (k : Nat) (b : Byte) : (s.putPod k b).merr = s.merr := rfl
@[simp] theorem putPod_mkey (k : Nat) (b : Byte) : (s.putPod k b).mkey = s.mkey := rfl
@[simp] theorem putPod_hcopy (k : Nat) (b : Byte) : (s.putPod k b).hcopy = s.hcopy := rfl
@[simp] theorem putPod_keys (k : Nat) (b : Byte) : (s.putPod k b).keys = s.keys := rfl
@[simp] theorem putPod_age (k : Nat) (b : Byte) : (s.putPod k b).age = s.age := rfl
@[simp] theorem putPod_reserve (k : Nat) (b : Byte) : (s.putPod k b).reserve = s.reserve := rfl
@[simp] theorem putPod_fltTmo (k : Nat) (b : Byte) : (s.putPod k b).fltTmo = s.fltTmo := rfl
@[simp] theorem putPod_routes (k : Nat) (b : Byte) : (s.putPod k b).routes = s.routes := rfl
@[simp] theorem putPod_portsDown (k : Nat) (b : Byte) : (s.putPod k b).portsDown = s.portsDown := rfl
@[simp] theorem putPod_portFails (k : Nat) (b : Byte) : (s.putPod k b).portFails = s.portFails := rfl
@[simp] theorem putPod_pod (k : Nat) (b : Byte) : (s.putPod k b).pod = s.pod := rfl
@[simp] theorem putPod_flash (k : Nat) (b : Byte) : (s.putPod k b).flash = s.flash := rfl
@[simp] theorem putPod_hubImage (k : Nat) (b : Byte) : (s.putPod k b).hubImage = s.hubImage := rfl
@[simp] theorem putPod_supImage (k : Nat) (b : Byte) : (s.putPod k b).supImage = s.supImage := rfl
@[simp] theorem putPod_recovery (k : Nat) (b : Byte) : (s.putPod k b).recovery = s.recovery := rfl
@[simp] theorem putPod_powered (k : Nat) (b : Byte) : (s.putPod k b).powered = s.powered := rfl
@[simp] theorem putPod_hostMem (k : Nat) (b : Byte) : (s.putPod k b).hostMem = s.hostMem := rfl
@[simp] theorem putPod_messages (k : Nat) (b : Byte) : (s.putPod k b).messages = s.messages := rfl
@[simp] theorem putPod_hostReads (k : Nat) (b : Byte) : (s.putPod k b).hostReads = s.hostReads := rfl
@[simp] theorem putPod_ticks (k : Nat) (b : Byte) : (s.putPod k b).ticks = s.ticks := rfl
@[simp] theorem putPod_cur (k : Nat) (b : Byte) : (s.putPod k b).cur = s.cur := rfl
@[simp] theorem putPod_sched (k : Nat) (b : Byte) : (s.putPod k b).sched = s.sched := rfl
@[simp] theorem putPod_freeCtr (k : Nat) (b : Byte) : (s.putPod k b).freeCtr = s.freeCtr := rfl

@[simp] theorem putL1_runs (a line : Nat) (l : Line) : (s.putL1 a line l).runs = s.runs := rfl
@[simp] theorem putL1_dies (a line : Nat) (l : Line) : (s.putL1 a line l).dies = s.dies := rfl
@[simp] theorem putL1_mem (a line : Nat) (l : Line) : (s.putL1 a line l).mem = s.mem := rfl
@[simp] theorem putL1_llc (a line : Nat) (l : Line) : (s.putL1 a line l).llc = s.llc := rfl
@[simp] theorem putL1_llcLines (a line : Nat) (l : Line) : (s.putL1 a line l).llcLines = s.llcLines := rfl
@[simp] theorem putL1_llcTags (a line : Nat) (l : Line) : (s.putL1 a line l).llcTags = s.llcTags := rfl
@[simp] theorem putL1_veil (a line : Nat) (l : Line) : (s.putL1 a line l).veil = s.veil := rfl
@[simp] theorem putL1_unveiled (a line : Nat) (l : Line) : (s.putL1 a line l).unveiled = s.unveiled := rfl
@[simp] theorem putL1_poison (a line : Nat) (l : Line) : (s.putL1 a line l).poison = s.poison := rfl
@[simp] theorem putL1_latent (a line : Nat) (l : Line) : (s.putL1 a line l).latent = s.latent := rfl
@[simp] theorem putL1_tags (a line : Nat) (l : Line) : (s.putL1 a line l).tags = s.tags := rfl
@[simp] theorem putL1_compressed (a line : Nat) (l : Line) : (s.putL1 a line l).compressed = s.compressed := rfl
@[simp] theorem putL1_franks (a line : Nat) (l : Line) : (s.putL1 a line l).franks = s.franks := rfl
@[simp] theorem putL1_hostLines (a line : Nat) (l : Line) : (s.putL1 a line l).hostLines = s.hostLines := rfl
@[simp] theorem putL1_tlb (a line : Nat) (l : Line) : (s.putL1 a line l).tlb = s.tlb := rfl
@[simp] theorem putL1_remote (a line : Nat) (l : Line) : (s.putL1 a line l).remote = s.remote := rfl
@[simp] theorem putL1_frames (a line : Nat) (l : Line) : (s.putL1 a line l).frames = s.frames := rfl
@[simp] theorem putL1_autoSwap (a line : Nat) (l : Line) : (s.putL1 a line l).autoSwap = s.autoSwap := rfl
@[simp] theorem putL1_swapInterval (a line : Nat) (l : Line) : (s.putL1 a line l).swapInterval = s.swapInterval := rfl
@[simp] theorem putL1_swapAt (a line : Nat) (l : Line) : (s.putL1 a line l).swapAt = s.swapAt := rfl
@[simp] theorem putL1_swaps (a line : Nat) (l : Line) : (s.putL1 a line l).swaps = s.swaps := rfl
@[simp] theorem putL1_requests (a line : Nat) (l : Line) : (s.putL1 a line l).requests = s.requests := rfl
@[simp] theorem putL1_scrubs (a line : Nat) (l : Line) : (s.putL1 a line l).scrubs = s.scrubs := rfl
@[simp] theorem putL1_budgets (a line : Nat) (l : Line) : (s.putL1 a line l).budgets = s.budgets := rfl
@[simp] theorem putL1_chanCount (a line : Nat) (l : Line) : (s.putL1 a line l).chanCount = s.chanCount := rfl
@[simp] theorem putL1_missed (a line : Nat) (l : Line) : (s.putL1 a line l).missed = s.missed := rfl
@[simp] theorem putL1_corrected (a line : Nat) (l : Line) : (s.putL1 a line l).corrected = s.corrected := rfl
@[simp] theorem putL1_tasks (a line : Nat) (l : Line) : (s.putL1 a line l).tasks = s.tasks := rfl
@[simp] theorem putL1_nextTask (a line : Nat) (l : Line) : (s.putL1 a line l).nextTask = s.nextTask := rfl
@[simp] theorem putL1_contexts (a line : Nat) (l : Line) : (s.putL1 a line l).contexts = s.contexts := rfl
@[simp] theorem putL1_lastBox (a line : Nat) (l : Line) : (s.putL1 a line l).lastBox = s.lastBox := rfl
@[simp] theorem putL1_cmds (a line : Nat) (l : Line) : (s.putL1 a line l).cmds = s.cmds := rfl
@[simp] theorem putL1_nextCmd (a line : Nat) (l : Line) : (s.putL1 a line l).nextCmd = s.nextCmd := rfl
@[simp] theorem putL1_packets (a line : Nat) (l : Line) : (s.putL1 a line l).packets = s.packets := rfl
@[simp] theorem putL1_postTurn (a line : Nat) (l : Line) : (s.putL1 a line l).postTurn = s.postTurn := rfl
@[simp] theorem putL1_barriers (a line : Nat) (l : Line) : (s.putL1 a line l).barriers = s.barriers := rfl
@[simp] theorem putL1_modId (a line : Nat) (l : Line) : (s.putL1 a line l).modId = s.modId := rfl
@[simp] theorem putL1_bootStat (a line : Nat) (l : Line) : (s.putL1 a line l).bootStat = s.bootStat := rfl
@[simp] theorem putL1_mcmd (a line : Nat) (l : Line) : (s.putL1 a line l).mcmd = s.mcmd := rfl
@[simp] theorem putL1_mstat (a line : Nat) (l : Line) : (s.putL1 a line l).mstat = s.mstat := rfl
@[simp] theorem putL1_merr (a line : Nat) (l : Line) : (s.putL1 a line l).merr = s.merr := rfl
@[simp] theorem putL1_mkey (a line : Nat) (l : Line) : (s.putL1 a line l).mkey = s.mkey := rfl
@[simp] theorem putL1_hcopy (a line : Nat) (l : Line) : (s.putL1 a line l).hcopy = s.hcopy := rfl
@[simp] theorem putL1_keys (a line : Nat) (l : Line) : (s.putL1 a line l).keys = s.keys := rfl
@[simp] theorem putL1_age (a line : Nat) (l : Line) : (s.putL1 a line l).age = s.age := rfl
@[simp] theorem putL1_reserve (a line : Nat) (l : Line) : (s.putL1 a line l).reserve = s.reserve := rfl
@[simp] theorem putL1_fltTmo (a line : Nat) (l : Line) : (s.putL1 a line l).fltTmo = s.fltTmo := rfl
@[simp] theorem putL1_routes (a line : Nat) (l : Line) : (s.putL1 a line l).routes = s.routes := rfl
@[simp] theorem putL1_portsDown (a line : Nat) (l : Line) : (s.putL1 a line l).portsDown = s.portsDown := rfl
@[simp] theorem putL1_portFails (a line : Nat) (l : Line) : (s.putL1 a line l).portFails = s.portFails := rfl
@[simp] theorem putL1_pod (a line : Nat) (l : Line) : (s.putL1 a line l).pod = s.pod := rfl
@[simp] theorem putL1_flash (a line : Nat) (l : Line) : (s.putL1 a line l).flash = s.flash := rfl
@[simp] theorem putL1_hubImage (a line : Nat) (l : Line) : (s.putL1 a line l).hubImage = s.hubImage := rfl
@[simp] theorem putL1_supImage (a line : Nat) (l : Line) : (s.putL1 a line l).supImage = s.supImage := rfl
@[simp] theorem putL1_recovery (a line : Nat) (l : Line) : (s.putL1 a line l).recovery = s.recovery := rfl
@[simp] theorem putL1_powered (a line : Nat) (l : Line) : (s.putL1 a line l).powered = s.powered := rfl
@[simp] theorem putL1_hostMem (a line : Nat) (l : Line) : (s.putL1 a line l).hostMem = s.hostMem := rfl
@[simp] theorem putL1_messages (a line : Nat) (l : Line) : (s.putL1 a line l).messages = s.messages := rfl
@[simp] theorem putL1_hostReads (a line : Nat) (l : Line) : (s.putL1 a line l).hostReads = s.hostReads := rfl
@[simp] theorem putL1_ticks (a line : Nat) (l : Line) : (s.putL1 a line l).ticks = s.ticks := rfl
@[simp] theorem putL1_cur (a line : Nat) (l : Line) : (s.putL1 a line l).cur = s.cur := rfl
@[simp] theorem putL1_sched (a line : Nat) (l : Line) : (s.putL1 a line l).sched = s.sched := rfl
@[simp] theorem putL1_freeCtr (a line : Nat) (l : Line) : (s.putL1 a line l).freeCtr = s.freeCtr := rfl

@[simp] theorem putL2_arrays (d line : Nat) (l : Line) : (s.putL2 d line l).arrays = s.arrays := rfl
@[simp] theorem putL2_runs (d line : Nat) (l : Line) : (s.putL2 d line l).runs = s.runs := rfl
@[simp] theorem putL2_mem (d line : Nat) (l : Line) : (s.putL2 d line l).mem = s.mem := rfl
@[simp] theorem putL2_llc (d line : Nat) (l : Line) : (s.putL2 d line l).llc = s.llc := rfl
@[simp] theorem putL2_llcLines (d line : Nat) (l : Line) : (s.putL2 d line l).llcLines = s.llcLines := rfl
@[simp] theorem putL2_llcTags (d line : Nat) (l : Line) : (s.putL2 d line l).llcTags = s.llcTags := rfl
@[simp] theorem putL2_veil (d line : Nat) (l : Line) : (s.putL2 d line l).veil = s.veil := rfl
@[simp] theorem putL2_unveiled (d line : Nat) (l : Line) : (s.putL2 d line l).unveiled = s.unveiled := rfl
@[simp] theorem putL2_poison (d line : Nat) (l : Line) : (s.putL2 d line l).poison = s.poison := rfl
@[simp] theorem putL2_latent (d line : Nat) (l : Line) : (s.putL2 d line l).latent = s.latent := rfl
@[simp] theorem putL2_tags (d line : Nat) (l : Line) : (s.putL2 d line l).tags = s.tags := rfl
@[simp] theorem putL2_compressed (d line : Nat) (l : Line) : (s.putL2 d line l).compressed = s.compressed := rfl
@[simp] theorem putL2_franks (d line : Nat) (l : Line) : (s.putL2 d line l).franks = s.franks := rfl
@[simp] theorem putL2_hostLines (d line : Nat) (l : Line) : (s.putL2 d line l).hostLines = s.hostLines := rfl
@[simp] theorem putL2_tlb (d line : Nat) (l : Line) : (s.putL2 d line l).tlb = s.tlb := rfl
@[simp] theorem putL2_remote (d line : Nat) (l : Line) : (s.putL2 d line l).remote = s.remote := rfl
@[simp] theorem putL2_frames (d line : Nat) (l : Line) : (s.putL2 d line l).frames = s.frames := rfl
@[simp] theorem putL2_autoSwap (d line : Nat) (l : Line) : (s.putL2 d line l).autoSwap = s.autoSwap := rfl
@[simp] theorem putL2_swapInterval (d line : Nat) (l : Line) : (s.putL2 d line l).swapInterval = s.swapInterval := rfl
@[simp] theorem putL2_swapAt (d line : Nat) (l : Line) : (s.putL2 d line l).swapAt = s.swapAt := rfl
@[simp] theorem putL2_swaps (d line : Nat) (l : Line) : (s.putL2 d line l).swaps = s.swaps := rfl
@[simp] theorem putL2_requests (d line : Nat) (l : Line) : (s.putL2 d line l).requests = s.requests := rfl
@[simp] theorem putL2_scrubs (d line : Nat) (l : Line) : (s.putL2 d line l).scrubs = s.scrubs := rfl
@[simp] theorem putL2_budgets (d line : Nat) (l : Line) : (s.putL2 d line l).budgets = s.budgets := rfl
@[simp] theorem putL2_chanCount (d line : Nat) (l : Line) : (s.putL2 d line l).chanCount = s.chanCount := rfl
@[simp] theorem putL2_missed (d line : Nat) (l : Line) : (s.putL2 d line l).missed = s.missed := rfl
@[simp] theorem putL2_corrected (d line : Nat) (l : Line) : (s.putL2 d line l).corrected = s.corrected := rfl
@[simp] theorem putL2_tasks (d line : Nat) (l : Line) : (s.putL2 d line l).tasks = s.tasks := rfl
@[simp] theorem putL2_nextTask (d line : Nat) (l : Line) : (s.putL2 d line l).nextTask = s.nextTask := rfl
@[simp] theorem putL2_contexts (d line : Nat) (l : Line) : (s.putL2 d line l).contexts = s.contexts := rfl
@[simp] theorem putL2_lastBox (d line : Nat) (l : Line) : (s.putL2 d line l).lastBox = s.lastBox := rfl
@[simp] theorem putL2_cmds (d line : Nat) (l : Line) : (s.putL2 d line l).cmds = s.cmds := rfl
@[simp] theorem putL2_nextCmd (d line : Nat) (l : Line) : (s.putL2 d line l).nextCmd = s.nextCmd := rfl
@[simp] theorem putL2_packets (d line : Nat) (l : Line) : (s.putL2 d line l).packets = s.packets := rfl
@[simp] theorem putL2_postTurn (d line : Nat) (l : Line) : (s.putL2 d line l).postTurn = s.postTurn := rfl
@[simp] theorem putL2_barriers (d line : Nat) (l : Line) : (s.putL2 d line l).barriers = s.barriers := rfl
@[simp] theorem putL2_modId (d line : Nat) (l : Line) : (s.putL2 d line l).modId = s.modId := rfl
@[simp] theorem putL2_bootStat (d line : Nat) (l : Line) : (s.putL2 d line l).bootStat = s.bootStat := rfl
@[simp] theorem putL2_mcmd (d line : Nat) (l : Line) : (s.putL2 d line l).mcmd = s.mcmd := rfl
@[simp] theorem putL2_mstat (d line : Nat) (l : Line) : (s.putL2 d line l).mstat = s.mstat := rfl
@[simp] theorem putL2_merr (d line : Nat) (l : Line) : (s.putL2 d line l).merr = s.merr := rfl
@[simp] theorem putL2_mkey (d line : Nat) (l : Line) : (s.putL2 d line l).mkey = s.mkey := rfl
@[simp] theorem putL2_hcopy (d line : Nat) (l : Line) : (s.putL2 d line l).hcopy = s.hcopy := rfl
@[simp] theorem putL2_keys (d line : Nat) (l : Line) : (s.putL2 d line l).keys = s.keys := rfl
@[simp] theorem putL2_age (d line : Nat) (l : Line) : (s.putL2 d line l).age = s.age := rfl
@[simp] theorem putL2_reserve (d line : Nat) (l : Line) : (s.putL2 d line l).reserve = s.reserve := rfl
@[simp] theorem putL2_fltTmo (d line : Nat) (l : Line) : (s.putL2 d line l).fltTmo = s.fltTmo := rfl
@[simp] theorem putL2_routes (d line : Nat) (l : Line) : (s.putL2 d line l).routes = s.routes := rfl
@[simp] theorem putL2_portsDown (d line : Nat) (l : Line) : (s.putL2 d line l).portsDown = s.portsDown := rfl
@[simp] theorem putL2_portFails (d line : Nat) (l : Line) : (s.putL2 d line l).portFails = s.portFails := rfl
@[simp] theorem putL2_pod (d line : Nat) (l : Line) : (s.putL2 d line l).pod = s.pod := rfl
@[simp] theorem putL2_flash (d line : Nat) (l : Line) : (s.putL2 d line l).flash = s.flash := rfl
@[simp] theorem putL2_hubImage (d line : Nat) (l : Line) : (s.putL2 d line l).hubImage = s.hubImage := rfl
@[simp] theorem putL2_supImage (d line : Nat) (l : Line) : (s.putL2 d line l).supImage = s.supImage := rfl
@[simp] theorem putL2_recovery (d line : Nat) (l : Line) : (s.putL2 d line l).recovery = s.recovery := rfl
@[simp] theorem putL2_powered (d line : Nat) (l : Line) : (s.putL2 d line l).powered = s.powered := rfl
@[simp] theorem putL2_hostMem (d line : Nat) (l : Line) : (s.putL2 d line l).hostMem = s.hostMem := rfl
@[simp] theorem putL2_messages (d line : Nat) (l : Line) : (s.putL2 d line l).messages = s.messages := rfl
@[simp] theorem putL2_hostReads (d line : Nat) (l : Line) : (s.putL2 d line l).hostReads = s.hostReads := rfl
@[simp] theorem putL2_ticks (d line : Nat) (l : Line) : (s.putL2 d line l).ticks = s.ticks := rfl
@[simp] theorem putL2_cur (d line : Nat) (l : Line) : (s.putL2 d line l).cur = s.cur := rfl
@[simp] theorem putL2_sched (d line : Nat) (l : Line) : (s.putL2 d line l).sched = s.sched := rfl
@[simp] theorem putL2_freeCtr (d line : Nat) (l : Line) : (s.putL2 d line l).freeCtr = s.freeCtr := rfl

@[simp] theorem setFace_runs (a side : Nat) (f : Face) : (s.setFace a side f).runs = s.runs := rfl
@[simp] theorem setFace_dies (a side : Nat) (f : Face) : (s.setFace a side f).dies = s.dies := rfl
@[simp] theorem setFace_mem (a side : Nat) (f : Face) : (s.setFace a side f).mem = s.mem := rfl
@[simp] theorem setFace_llc (a side : Nat) (f : Face) : (s.setFace a side f).llc = s.llc := rfl
@[simp] theorem setFace_llcLines (a side : Nat) (f : Face) : (s.setFace a side f).llcLines = s.llcLines := rfl
@[simp] theorem setFace_llcTags (a side : Nat) (f : Face) : (s.setFace a side f).llcTags = s.llcTags := rfl
@[simp] theorem setFace_veil (a side : Nat) (f : Face) : (s.setFace a side f).veil = s.veil := rfl
@[simp] theorem setFace_unveiled (a side : Nat) (f : Face) : (s.setFace a side f).unveiled = s.unveiled := rfl
@[simp] theorem setFace_poison (a side : Nat) (f : Face) : (s.setFace a side f).poison = s.poison := rfl
@[simp] theorem setFace_latent (a side : Nat) (f : Face) : (s.setFace a side f).latent = s.latent := rfl
@[simp] theorem setFace_tags (a side : Nat) (f : Face) : (s.setFace a side f).tags = s.tags := rfl
@[simp] theorem setFace_compressed (a side : Nat) (f : Face) : (s.setFace a side f).compressed = s.compressed := rfl
@[simp] theorem setFace_franks (a side : Nat) (f : Face) : (s.setFace a side f).franks = s.franks := rfl
@[simp] theorem setFace_hostLines (a side : Nat) (f : Face) : (s.setFace a side f).hostLines = s.hostLines := rfl
@[simp] theorem setFace_tlb (a side : Nat) (f : Face) : (s.setFace a side f).tlb = s.tlb := rfl
@[simp] theorem setFace_remote (a side : Nat) (f : Face) : (s.setFace a side f).remote = s.remote := rfl
@[simp] theorem setFace_frames (a side : Nat) (f : Face) : (s.setFace a side f).frames = s.frames := rfl
@[simp] theorem setFace_autoSwap (a side : Nat) (f : Face) : (s.setFace a side f).autoSwap = s.autoSwap := rfl
@[simp] theorem setFace_swapInterval (a side : Nat) (f : Face) : (s.setFace a side f).swapInterval = s.swapInterval := rfl
@[simp] theorem setFace_swapAt (a side : Nat) (f : Face) : (s.setFace a side f).swapAt = s.swapAt := rfl
@[simp] theorem setFace_swaps (a side : Nat) (f : Face) : (s.setFace a side f).swaps = s.swaps := rfl
@[simp] theorem setFace_requests (a side : Nat) (f : Face) : (s.setFace a side f).requests = s.requests := rfl
@[simp] theorem setFace_scrubs (a side : Nat) (f : Face) : (s.setFace a side f).scrubs = s.scrubs := rfl
@[simp] theorem setFace_budgets (a side : Nat) (f : Face) : (s.setFace a side f).budgets = s.budgets := rfl
@[simp] theorem setFace_chanCount (a side : Nat) (f : Face) : (s.setFace a side f).chanCount = s.chanCount := rfl
@[simp] theorem setFace_missed (a side : Nat) (f : Face) : (s.setFace a side f).missed = s.missed := rfl
@[simp] theorem setFace_corrected (a side : Nat) (f : Face) : (s.setFace a side f).corrected = s.corrected := rfl
@[simp] theorem setFace_tasks (a side : Nat) (f : Face) : (s.setFace a side f).tasks = s.tasks := rfl
@[simp] theorem setFace_nextTask (a side : Nat) (f : Face) : (s.setFace a side f).nextTask = s.nextTask := rfl
@[simp] theorem setFace_contexts (a side : Nat) (f : Face) : (s.setFace a side f).contexts = s.contexts := rfl
@[simp] theorem setFace_lastBox (a side : Nat) (f : Face) : (s.setFace a side f).lastBox = s.lastBox := rfl
@[simp] theorem setFace_cmds (a side : Nat) (f : Face) : (s.setFace a side f).cmds = s.cmds := rfl
@[simp] theorem setFace_nextCmd (a side : Nat) (f : Face) : (s.setFace a side f).nextCmd = s.nextCmd := rfl
@[simp] theorem setFace_packets (a side : Nat) (f : Face) : (s.setFace a side f).packets = s.packets := rfl
@[simp] theorem setFace_postTurn (a side : Nat) (f : Face) : (s.setFace a side f).postTurn = s.postTurn := rfl
@[simp] theorem setFace_barriers (a side : Nat) (f : Face) : (s.setFace a side f).barriers = s.barriers := rfl
@[simp] theorem setFace_modId (a side : Nat) (f : Face) : (s.setFace a side f).modId = s.modId := rfl
@[simp] theorem setFace_bootStat (a side : Nat) (f : Face) : (s.setFace a side f).bootStat = s.bootStat := rfl
@[simp] theorem setFace_mcmd (a side : Nat) (f : Face) : (s.setFace a side f).mcmd = s.mcmd := rfl
@[simp] theorem setFace_mstat (a side : Nat) (f : Face) : (s.setFace a side f).mstat = s.mstat := rfl
@[simp] theorem setFace_merr (a side : Nat) (f : Face) : (s.setFace a side f).merr = s.merr := rfl
@[simp] theorem setFace_mkey (a side : Nat) (f : Face) : (s.setFace a side f).mkey = s.mkey := rfl
@[simp] theorem setFace_hcopy (a side : Nat) (f : Face) : (s.setFace a side f).hcopy = s.hcopy := rfl
@[simp] theorem setFace_keys (a side : Nat) (f : Face) : (s.setFace a side f).keys = s.keys := rfl
@[simp] theorem setFace_age (a side : Nat) (f : Face) : (s.setFace a side f).age = s.age := rfl
@[simp] theorem setFace_reserve (a side : Nat) (f : Face) : (s.setFace a side f).reserve = s.reserve := rfl
@[simp] theorem setFace_fltTmo (a side : Nat) (f : Face) : (s.setFace a side f).fltTmo = s.fltTmo := rfl
@[simp] theorem setFace_routes (a side : Nat) (f : Face) : (s.setFace a side f).routes = s.routes := rfl
@[simp] theorem setFace_portsDown (a side : Nat) (f : Face) : (s.setFace a side f).portsDown = s.portsDown := rfl
@[simp] theorem setFace_portFails (a side : Nat) (f : Face) : (s.setFace a side f).portFails = s.portFails := rfl
@[simp] theorem setFace_pod (a side : Nat) (f : Face) : (s.setFace a side f).pod = s.pod := rfl
@[simp] theorem setFace_flash (a side : Nat) (f : Face) : (s.setFace a side f).flash = s.flash := rfl
@[simp] theorem setFace_hubImage (a side : Nat) (f : Face) : (s.setFace a side f).hubImage = s.hubImage := rfl
@[simp] theorem setFace_supImage (a side : Nat) (f : Face) : (s.setFace a side f).supImage = s.supImage := rfl
@[simp] theorem setFace_recovery (a side : Nat) (f : Face) : (s.setFace a side f).recovery = s.recovery := rfl
@[simp] theorem setFace_powered (a side : Nat) (f : Face) : (s.setFace a side f).powered = s.powered := rfl
@[simp] theorem setFace_hostMem (a side : Nat) (f : Face) : (s.setFace a side f).hostMem = s.hostMem := rfl
@[simp] theorem setFace_messages (a side : Nat) (f : Face) : (s.setFace a side f).messages = s.messages := rfl
@[simp] theorem setFace_hostReads (a side : Nat) (f : Face) : (s.setFace a side f).hostReads = s.hostReads := rfl
@[simp] theorem setFace_ticks (a side : Nat) (f : Face) : (s.setFace a side f).ticks = s.ticks := rfl
@[simp] theorem setFace_cur (a side : Nat) (f : Face) : (s.setFace a side f).cur = s.cur := rfl
@[simp] theorem setFace_sched (a side : Nat) (f : Face) : (s.setFace a side f).sched = s.sched := rfl
@[simp] theorem setFace_freeCtr (a side : Nat) (f : Face) : (s.setFace a side f).freeCtr = s.freeCtr := rfl

end Sys2Proof.Machine
end

