-- ==== Sys2Proof/Laws/Tables.lean ====
section
/-!
SUPPORT. Laws of tables: what a read finds after a write, and that every operation keeps the keys rising and the canonical form.
-/

namespace Sys2Proof.Machine

variable {α : Type}

/-- Every key of a table is above a bound. -/
def tabAbove (k : Nat) (t : Tab α) : Prop := ∀ e ∈ t, k < e.1

theorem tabSorted_cons (a : Nat) (v : α) (t : Tab α) : tabSorted ((a, v) :: t) = true ↔ tabAbove a t ∧ tabSorted t = true := by
  induction t generalizing a v with
  | nil => simp [tabSorted, tabAbove]
  | cons e t ih =>
    obtain ⟨b, w⟩ := e
    simp only [tabSorted, Bool.and_eq_true, decide_eq_true_eq]
    constructor
    · rintro ⟨h, hs⟩
      refine ⟨?_, hs⟩
      have := ((ih b w).1 hs).1
      intro e he
      rcases List.mem_cons.1 he with rfl | he
      · exact h
      · exact Nat.lt_trans h (this e he)
    · rintro ⟨h, hs⟩
      exact ⟨h (b, w) (by simp), hs⟩

theorem tabAbove_put (k a : Nat) (v : α) (t : Tab α) (h : tabAbove k t) (ha : k < a) : tabAbove k (tabPut t a v) := by
  induction t with
  | nil => simpa [tabPut, tabAbove] using ha
  | cons e t ih =>
    obtain ⟨b, w⟩ := e
    have hb : k < b := h (b, w) (by simp)
    have ht : tabAbove k t := fun e he => h e (by simp [he])
    unfold tabPut
    split
    · intro e he
      rcases List.mem_cons.1 he with rfl | he
      · exact ha
      · exact h e he
    · split
      · intro e he
        rcases List.mem_cons.1 he with rfl | he
        · exact ha
        · exact ht e he
      · intro e he
        rcases List.mem_cons.1 he with rfl | he
        · exact hb
        · exact ih ht e he

theorem tabAbove_filter (k : Nat) (t : Tab α) (p : Nat × α → Bool) (h : tabAbove k t) : tabAbove k (t.filter p) :=
  fun e he => h e (List.mem_filter.1 he).1

/-- A table with rising keys keeps them when one is set. -/
theorem tabSorted_put (t : Tab α) (k : Nat) (v : α) (h : tabSorted t = true) : tabSorted (tabPut t k v) = true := by
  induction t with
  | nil => rfl
  | cons e t ih =>
    obtain ⟨b, w⟩ := e
    obtain ⟨ha, hs⟩ := (tabSorted_cons b w t).1 h
    unfold tabPut
    split
    · rename_i hk
      refine (tabSorted_cons k v _).2 ⟨?_, h⟩
      intro e he
      rcases List.mem_cons.1 he with rfl | he
      · exact hk
      · exact Nat.lt_trans hk (ha e he)
    · split
      · rename_i hb
        subst hb
        exact (tabSorted_cons b v t).2 ⟨ha, hs⟩
      · rename_i h1 h2
        exact (tabSorted_cons b w _).2 ⟨tabAbove_put b k v t ha (by omega), ih hs⟩

theorem tabSorted_filter (t : Tab α) (p : Nat × α → Bool) (h : tabSorted t = true) : tabSorted (t.filter p) = true := by
  induction t with
  | nil => rfl
  | cons e t ih =>
    obtain ⟨b, w⟩ := e
    obtain ⟨ha, hs⟩ := (tabSorted_cons b w t).1 h
    rw [List.filter_cons]
    split
    · exact (tabSorted_cons b w _).2 ⟨tabAbove_filter b t p ha, ih hs⟩
    · exact ih hs

/-- A table with rising keys keeps them when one is taken away. -/
theorem tabSorted_erase (t : Tab α) (k : Nat) (h : tabSorted t = true) : tabSorted (tabErase t k) = true := tabSorted_filter t _ h

theorem tabFind_above (t : Tab α) (k : Nat) (h : tabAbove k t) : tabFind t k = none := by
  induction t with
  | nil => rfl
  | cons e t ih =>
    obtain ⟨b, w⟩ := e
    have hb : k < b := h (b, w) (by simp)
    unfold tabFind
    rw [if_neg (by omega)]
    exact ih (fun e he => h e (by simp [he]))

/-- A read of the key that was set gives the value. -/
@[simp] theorem tabFind_put_self (t : Tab α) (k : Nat) (v : α) : tabFind (tabPut t k v) k = some v := by
  induction t with
  | nil => simp [tabPut, tabFind]
  | cons e t ih =>
    obtain ⟨b, w⟩ := e
    unfold tabPut
    split
    · simp [tabFind]
    · split
      · simp [tabFind]
      · rename_i h1 h2
        simp [tabFind, h2, ih]

/-- A read of another key is unchanged by a write. -/
theorem tabFind_put_ne (t : Tab α) (k j : Nat) (v : α) (h : j ≠ k) : tabFind (tabPut t k v) j = tabFind t j := by
  induction t with
  | nil => simp [tabPut, tabFind, Ne.symm h]
  | cons e t ih =>
    obtain ⟨b, w⟩ := e
    unfold tabPut
    split
    · simp [tabFind, Ne.symm h]
    · split
      · rename_i hb
        subst hb
        simp [tabFind, Ne.symm h]
      · simp only [tabFind, ih]

/-- A key that was taken away is not found. -/
@[simp] theorem tabFind_erase_self (t : Tab α) (k : Nat) : tabFind (tabErase t k) k = none := by
  induction t with
  | nil => rfl
  | cons e t ih =>
    obtain ⟨b, w⟩ := e
    unfold tabErase at ih ⊢
    by_cases hb : b = k
    · simpa [hb] using ih
    · simpa [hb, tabFind] using ih

/-- A read of another key is unchanged when one is taken away. -/
theorem tabFind_erase_ne (t : Tab α) (k j : Nat) (h : j ≠ k) : tabFind (tabErase t k) j = tabFind t j := by
  induction t with
  | nil => rfl
  | cons e t ih =>
    obtain ⟨b, w⟩ := e
    unfold tabErase at ih ⊢
    by_cases hb : b = k
    · subst hb
      simpa [tabFind, Ne.symm h] using ih
    · simp [hb, tabFind, ih]

theorem tabAll_put (t : Tab α) (p : Nat × α → Bool) (k : Nat) (v : α) (h : t.all p = true) (hv : p (k, v) = true) :
    (tabPut t k v).all p = true := by
  induction t with
  | nil => simpa [tabPut] using hv
  | cons e t ih =>
    obtain ⟨b, w⟩ := e
    simp only [List.all_cons, Bool.and_eq_true] at h
    unfold tabPut
    split
    · simp [hv, h.1, h.2]
    · split
      · simp [hv, h.2]
      · simp [h.1, ih h.2]

theorem tabAll_filter (t : Tab α) (p q : Nat × α → Bool) (h : t.all p = true) : (t.filter q).all p = true := by
  rw [List.all_eq_true] at h ⊢
  exact fun e he => h e (List.mem_filter.1 he).1

theorem tabAll_erase (t : Tab α) (p : Nat × α → Bool) (k : Nat) (h : t.all p = true) : (tabErase t k).all p = true := tabAll_filter t p _ h

variable [DecidableEq α]

/-- A write keeps the canonical form. -/
theorem tabWf_set (d : α) (t : Tab α) (k : Nat) (v : α) (h : tabWf d t = true) : tabWf d (tabSet d t k v) = true := by
  simp only [tabWf, Bool.and_eq_true] at h ⊢
  unfold tabSet
  split
  · exact ⟨tabSorted_erase t k h.1, tabAll_erase t _ k h.2⟩
  · rename_i hv
    exact ⟨tabSorted_put t k v h.1, tabAll_put t _ k v h.2 (by simpa using hv)⟩

theorem tabWf_filter (d : α) (t : Tab α) (p : Nat × α → Bool) (h : tabWf d t = true) : tabWf d (t.filter p) = true := by
  simp only [tabWf, Bool.and_eq_true] at h ⊢
  exact ⟨tabSorted_filter t p h.1, tabAll_filter t _ p h.2⟩

/-- A read after a write of the same key. -/
theorem tabGet_set_self (d : α) (t : Tab α) (k : Nat) (v : α) : tabGet d (tabSet d t k v) k = v := by
  unfold tabGet tabSet
  split
  · rename_i hv
    rw [tabFind_erase_self t k, hv]
    rfl
  · rw [tabFind_put_self]
    rfl

/-- A read of another key after a write. -/
theorem tabGet_set_ne (d : α) (t : Tab α) (k j : Nat) (v : α) (h : j ≠ k) : tabGet d (tabSet d t k v) j = tabGet d t j := by
  unfold tabGet tabSet
  split
  · rw [tabFind_erase_ne t k j h]
  · rw [tabFind_put_ne t k j v h]

end Sys2Proof.Machine
end

