-- ==== Sys2Proof/Laws/Wave.lean ====
section
/-!
SUPPORT. What an advance of the wave leaves unchanged (`Kept`), and what it does to the sequencer's record.
-/

namespace Sys2Proof.Machine

/-! ## Arrays and dies after an update -/

theorem arr_setArr (s : State) (a b : Nat) (x : ArrayState) : (s.setArr a x).arr b = if b = a then x else s.arr b := by
  unfold State.arr State.setArr tabGet
  by_cases h : b = a
  · subst h; simp
  · simp [h, tabFind_put_ne _ _ _ _ h]

theorem arr_of_arrays {s t : State} (h : t.arrays = s.arrays) (a : Nat) : t.arr a = s.arr a := by
  unfold State.arr; rw [h]

theorem die_of_dies {s t : State} (h : t.dies = s.dies) (d : Nat) : t.die d = s.die d := by
  unfold State.die; simp only [h]

theorem die_setDie (s : State) (d e : Nat) (x : Die) : (s.setDie d x).die e = if e % 4 = d % 4 then x else s.die e := by
  unfold State.die State.setDie
  simp only [Vector.getElem_set, eq_comm]

theorem die_mod {s : State} {d e : Nat} (h : e % 4 = d % 4) : s.die e = s.die d := by
  unfold State.die; simp only [h]

theorem run_setRun (s : State) (r : Run) (h : Nat) : (s.setRun r).run? h = if h = r.head then some r else s.run? h := by
  unfold State.run? State.setRun
  by_cases e : h = r.head
  · subst e; simp
  · simp [e, tabFind_put_ne _ _ _ _ e]

theorem vget_vset {α : Type} {n : Nat} (v : Vector α n) (i j : Nat) (x d : α) :
    vget (vset v i x) j d = if j = i ∧ i < n then x else vget v j d := by
  unfold vget vset
  by_cases h : j < n
  · rw [Vector.getElem?_eq_getElem h, Vector.getElem?_eq_getElem h]
    simp only [Option.getD_some, Vector.getElem_setIfInBounds]
    by_cases e : j = i
    · subst e; simp [h]
    · simp [e, Ne.symm e]
  · have h1 : (v.setIfInBounds i x)[j]? = none := by simp; omega
    have h2 : v[j]? = none := by simp; omega
    rw [h1, h2]
    by_cases e : j = i
    · subst e; simp [h]
    · simp [e]

/-! ## Kept -/

theorem kept_refl (l : List Nat) (s : State) : Kept l s s := ⟨rfl, fun _ _ => rfl, fun _ => rfl, fun _ => rfl, fun _ _ => rfl⟩

theorem kept_trans {l : List Nat} {s t u : State} (h : Kept l s t) (k : Kept l t u) : Kept l s u := by
  obtain ⟨h1, h2, h3, h4, h5⟩ := h
  obtain ⟨k1, k2, k3, k4, k5⟩ := k
  refine ⟨?_, fun a ha => (k2 a ha).trans (h2 a ha), fun a => ?_, fun d => ?_, fun d q => ?_⟩
  · rw [← k1] at h1; exact h1
  · have := h3 a; rw [← k3 a] at this; exact this
  · have := h4 d; rw [← k4 d] at this; exact this
  · have := h5 d q; rw [← k5 d q] at this; exact this

/-- What the cells and faces of a bench may change: arrays of the bench, translation caches, queues, and what walks bring into the LLC. -/
def WaveKept (l : List Nat) (s t : State) : Prop :=
  { t with
    arrays := s.arrays, tlb := s.tlb, requests := s.requests, chanCount := s.chanCount, llcLines := s.llcLines, poison := s.poison,
    latent := s.latent } = s
  ∧ (∀ a, a ∉ l → t.arr a = s.arr a)
  ∧ (∀ a, { t.arr a with
      cells := (s.arr a).cells, front := (s.arr a).front, west := (s.arr a).west, north := (s.arr a).north,
      east := (s.arr a).east, south := (s.arr a).south } = s.arr a)

theorem waveKept_refl (l : List Nat) (s : State) : WaveKept l s s := ⟨rfl, fun _ _ => rfl, fun _ => rfl⟩

theorem waveKept_trans {l : List Nat} {s t u : State} (h : WaveKept l s t) (k : WaveKept l t u) : WaveKept l s u := by
  obtain ⟨h1, h2, h3⟩ := h
  obtain ⟨k1, k2, k3⟩ := k
  refine ⟨?_, fun a ha => (k2 a ha).trans (h2 a ha), fun a => ?_⟩
  · rw [← k1] at h1; exact h1
  · have := h3 a; rw [← k3 a] at this; exact this

theorem WaveKept.runs {l : List Nat} {s t : State} (h : WaveKept l s t) : t.runs = s.runs := by
  obtain ⟨h, _⟩ := h; rw [← h]

theorem WaveKept.dies {l : List Nat} {s t : State} (h : WaveKept l s t) : t.dies = s.dies := by
  obtain ⟨h, _⟩ := h; rw [← h]

theorem WaveKept.kept {l : List Nat} {s t : State} (h : WaveKept l s t) : Kept l s t := by
  have hd := h.dies
  have hr := h.runs
  obtain ⟨h1, h2, h3⟩ := h
  refine ⟨?_, h2, h3, fun d => by rw [die_of_dies hd d], fun d k => by rw [die_of_dies hd d]⟩
  rw [← hd, ← hr]; exact h1

theorem waveKept_foldl {α : Type} (l : List Nat) (f : State → α → State) (xs : List α) (hf : ∀ t, ∀ x ∈ xs, WaveKept l t (f t x))
    (s : State) : WaveKept l s (xs.foldl f s) := by
  induction xs generalizing s with
  | nil => exact waveKept_refl l s
  | cons x xs ih =>
    exact waveKept_trans (hf s x (List.mem_cons_self ..)) (ih (fun t y hy => hf t y (List.mem_cons_of_mem _ hy)) (f s x))

/-- Nothing but translation caches and queues has changed. -/
theorem waveKept_of_eq {l : List Nat} {s t : State}
    (h : { t with
      tlb := s.tlb, requests := s.requests, chanCount := s.chanCount, llcLines := s.llcLines, poison := s.poison,
      latent := s.latent } = s) : WaveKept l s t := by
  have ha : t.arrays = s.arrays := by rw [← h]
  refine ⟨?_, fun a _ => arr_of_arrays ha a, fun a => by rw [arr_of_arrays ha a]⟩
  rw [← ha]; exact h

/-- An array of the bench with other cells, FRONT or faces. -/
theorem waveKept_setArr {l : List Nat} (s : State) (a : Nat) (x : ArrayState) (ha : a ∈ l)
    (hx : { x with cells := (s.arr a).cells, front := (s.arr a).front, west := (s.arr a).west, north := (s.arr a).north,
                   east := (s.arr a).east, south := (s.arr a).south } = s.arr a) : WaveKept l s (s.setArr a x) := by
  refine ⟨rfl, fun b hb => ?_, fun b => ?_⟩
  · rw [arr_setArr, if_neg]
    intro e; subst e; exact hb ha
  · rw [arr_setArr]
    by_cases e : b = a
    · subst e; simpa using hx
    · simp [e]

theorem waveKept_setFace {l : List Nat} (s : State) (a side : Nat) (f : Face) (ha : a ∈ l) : WaveKept l s (s.setFace a side f) := by
  refine waveKept_setArr s a _ ha ?_
  unfold ArrayState.setFace
  split <;> rfl

theorem waveKept_request {l : List Nat} (s : State) (k : Nat) (b : BitVec 4) (c w : Nat) : WaveKept l s (s.request k b c w) := by
  refine waveKept_of_eq ?_
  unfold State.request
  dsimp only
  split <;> rfl

theorem waveKept_podTouch {l : List Nat} (s : State) (e : Option Nat) (line c w : Nat) : WaveKept l s (s.podTouch e line c w) := by
  unfold State.podTouch State.podBring
  dsimp only
  split
  · exact waveKept_refl l s
  · have h := waveKept_request (l := l) s (64 * line) 15 c w
    split
    · exact waveKept_trans h (waveKept_of_eq rfl)
    · exact h

theorem waveKept_lookup {l : List Nat} (s : State) (u : TlbUnit) (d : Nat) (c : Context) (va : Nat) :
    WaveKept l s (s.lookup u d c va).2 := by
  unfold State.lookup
  dsimp only
  split
  · exact waveKept_refl l s
  · split
    · exact waveKept_of_eq rfl
    · have h := waveKept_foldl l (fun (t : State) n => t.podTouch none n 0 (whoWalk d)) (s.walkLines c va)
        (fun t _ _ => waveKept_podTouch t _ _ _ _) s
      split
      · exact h
      · exact waveKept_trans h (waveKept_of_eq (by rfl))

/-- A translation changes translation caches and queues alone. -/
theorem waveKept_translate {l : List Nat} (s : State) (u : TlbUnit) (d ctx : Nat) (arrays : List Nat) (va : Nat) (need : Need) :
    WaveKept l s (s.translate u d ctx arrays va need).2 := by
  unfold State.translate
  dsimp only
  split
  · split
    · exact waveKept_refl l s
    · split
      · exact waveKept_refl l s
      · split <;> exact waveKept_refl l s
  · split
    · exact waveKept_refl l s
    · rename_i c _
      have h := waveKept_lookup (l := l) s u d c (va % 2 ^ 55)
      generalize s.lookup u d c (va % 2 ^ 55) = o at h ⊢
      obtain ⟨e, t⟩ := o
      cases e with
      | error => exact h
      | ok e =>
        dsimp only
        split
        · exact h
        · split
          · exact h
          · split <;> (try split) <;> exact h
          · exact h

/-! ## The commit of an advance -/

theorem waveKept_takeAll {l : List Nat} (s : State) (r : Run) (c : CellRes) (h : r.arrays.getD c.m 0 ∈ l) : WaveKept l s (s.takeAll r c) := by
  unfold State.takeAll
  dsimp only
  refine waveKept_foldl l _ _ (fun t x _ => ?_) s
  split
  · exact waveKept_refl l t
  · split
    · exact waveKept_setFace t _ _ _ h
    · exact waveKept_refl l t
    · exact waveKept_refl l t

theorem waveKept_pushAll {l : List Nat} (s : State) (r : Run) (c : CellRes) (h : r.arrays.getD c.m 0 ∈ l) : WaveKept l s (s.pushAll r c) := by
  unfold State.pushAll
  dsimp only
  refine waveKept_foldl l _ _ (fun t x _ => ?_) s
  split
  · exact waveKept_trans (waveKept_translate t _ _ _ _ _ _) (waveKept_setFace _ _ _ _ h)
  · exact waveKept_setFace _ _ _ _ h

theorem waveKept_commitCell {l : List Nat} (s : State) (r : Run) (c : CellRes) (h : r.arrays.getD c.m 0 ∈ l) : WaveKept l s (s.commitCell r c) := by
  unfold State.commitCell
  dsimp only
  refine waveKept_trans (waveKept_trans (waveKept_takeAll s r c h) (waveKept_pushAll _ r c h)) ?_
  have hc : ∀ t : State, WaveKept l t (if c.touched then
      t.setArr (r.arrays.getD c.m 0) { t.arr (r.arrays.getD c.m 0) with
        cells := tabPut (t.arr (r.arrays.getD c.m 0)).cells (32 * c.i + c.j) c.cell } else t) := by
    intro t
    split
    · exact waveKept_setArr t _ _ h rfl
    · exact waveKept_refl l t
  split
  · exact waveKept_trans (hc _) (waveKept_setArr _ _ _ h rfl)
  · exact hc _

theorem cellsAt_m {skew : Bool} {m d : Nat} {c : Nat × Nat × Nat} (h : c ∈ cellsAt skew m d) : c.1 = m := by
  unfold cellsAt at h
  split at h
  · obtain ⟨i, _, h⟩ := List.mem_filterMap.1 h
    split at h
    · cases h; rfl
    · cases h
  · split at h
    · obtain ⟨i, _, h⟩ := List.mem_map.1 h
      cases h; rfl
    · cases h

theorem benchOffsets_length : ∀ (l : List Nat) (o : Nat), (benchOffsets l o).length = l.length
  | [], _ => rfl
  | [_], _ => rfl
  | a :: b :: t, o => by simp [benchOffsets, benchOffsets_length (b :: t)]

/-- A cell that a bundle reaches lies in an array of the bench. -/
theorem arrivals_m {l : List Nat} {skew : Bool} {adv : Nat} {c : Nat × Nat × Nat} (h : c ∈ arrivals (benchOffsets l 0) skew adv) :
    l.getD c.1 0 ∈ l := by
  unfold arrivals at h
  obtain ⟨o, ho, h⟩ := List.mem_flatMap.1 h
  split at h
  · rw [cellsAt_m h]
    have hl := (List.mem_zipIdx ho).2.1
    rw [benchOffsets_length] at hl
    have : o.2 < l.length := by simpa using hl
    rw [List.getD_eq_getElem?_getD, List.getElem?_eq_getElem this]
    exact List.getElem_mem _
  · cases h

theorem cellStep_m (s : State) (r : Run) (offs : List Nat) (f : Flight) (m i j : Nat) : (s.cellStep r offs f m i j).m = m := by
  unfold State.cellStep
  dsimp only
  split <;> rfl

theorem waveOf_refl (x : Run) : Waved x x := rfl

theorem waveOf_trans {x y z : Run} (h : Waved x y) (k : Waved y z) : Waved x z := by
  unfold Waved at *
  rw [← k] at h
  exact h

theorem waveOf_flights {x y : Run} (h : Waved x y) (fl : List Flight) : Waved x { y with flights := fl } := h

theorem waveOf_end {x y : Run} (h : Waved x y) (n : Nat) (l : List (Nat × Nat × Bool)) :
    Waved x { y with kept := [], redo := false, mute := false, face := none, advs := n, issued := l } := h

theorem waveOf_foldl {α : Type} (f : Run → α → Run) (hf : ∀ r a, Waved r (f r a)) (xs : List α) (r : Run) : Waved r (xs.foldl f r) := by
  induction xs generalizing r with
  | nil => exact waveOf_refl r
  | cons x xs ih => exact waveOf_trans (hf r x) (ih (f r x))

theorem waveOf_contribute (r : Run) (c : CellRes) : Waved r (r.contribute c) := by
  unfold Run.contribute Run.updRecord
  split <;> rfl

theorem waveOf_leave (r : Run) (f : Flight) : Waved r (r.leave f) := by
  unfold Run.leave
  split <;> rfl

theorem waveOf_countRecords (r : Run) (a b : Bool) : Waved r (r.countRecords a b) := by
  unfold Run.countRecords
  split <;> rfl

/-- What an advance that is made does: the module outside the wave is kept, and so is the sequencer. -/
theorem advance_moved {s s1 : State} {r r1 : Run} {new : Option Flight} {blank : Bool} (h : s.advance r new blank = .moved s1 r1) :
    WaveKept r.arrays s s1 ∧ Waved r r1 ∧ r1.kept = [] ∧ r1.redo = false ∧ r1.face = none := by
  unfold State.advance at h
  dsimp only at h
  split at h
  · cases h
  · split at h
    · cases h
    · injection h with h1 h2
      subst h1; subst h2
      have hm : ∀ t : State, ∀ x ∈ (List.map (fun f => ({ f with adv := f.adv + 1 } : Flight)) r.flights ++
          (Option.map (fun f => ({ f with adv := 1 } : Flight)) new).toList).flatMap
            (fun f => (arrivals (benchOffsets r.arrays 0) f.skew f.adv).map
              (fun c => s.cellStep r (benchOffsets r.arrays 0) f c.1 c.2.1 c.2.2)), r.arrays.getD x.m 0 ∈ r.arrays := by
        intro t x hx
        obtain ⟨f, _, hx⟩ := List.mem_flatMap.1 hx
        obtain ⟨c, hc, rfl⟩ := List.mem_map.1 hx
        rw [cellStep_m]
        exact arrivals_m hc
      refine ⟨waveKept_foldl r.arrays _ _ (fun t x hx => waveKept_commitCell t r x (hm t x hx)) s, ?_, rfl, rfl, rfl⟩
      · exact waveOf_end (waveOf_trans (waveOf_trans (waveOf_flights (waveOf_foldl _ waveOf_contribute _ r) _)
          (waveOf_foldl Run.leave waveOf_leave _ _)) (waveOf_countRecords _ _ _)) _ _

end Sys2Proof.Machine
end

