-- ==== Sys2Proof/Laws/Issue.lean ====
section
/-!
SUPPORT. The issue of an instruction that stands alone in its bundle: when its slot succeeds and the wave moves, it answers a next state, and
this is all that it does.
-/

namespace Sys2Proof.Machine

/-! ## One byte as an agent reads it -/

/-- What lies at the .pod point reads as before where memory, the LLC's bytes, key tags and keys are as before. -/
structure SamePod (s t : State) : Prop where
  mem : t.mem = s.mem
  llc : t.llc = s.llc
  llcTags : t.llcTags = s.llcTags
  veil : t.veil = s.veil
  unveiled : t.unveiled = s.unveiled
  tags : t.tags = s.tags
  keys : t.keys = s.keys
  modId : t.modId = s.modId

theorem SamePod.byte {s t : State} (h : SamePod s t) (k : Nat) : t.podByte k = s.podByte k := by
  simp only [State.podByte, State.hbmByte, State.veilOf, h.mem, h.llc, h.veil, h.unveiled]

theorem SamePod.tag {s t : State} (h : SamePod s t) (g : Nat) : t.tagOf g = s.tagOf g := by
  simp only [State.tagOf, h.llcTags, h.tags]

theorem SamePod.now {s t : State} (h : SamePod s t) (enc : Option Nat) (k : Nat) : t.tagNow enc k = s.tagNow enc k := by
  simp only [State.tagNow, State.tagAt, State.genOf, State.keySlot, State.keyModule, h.keys, h.modId]

/-- The same generations make the same lines fit an access. -/
theorem SamePod.fits {s t : State} (h : SamePod s t) (l : Line) (enc : Option Nat) : t.fits l enc = s.fits l enc := by
  simp only [State.fits, State.genOf, State.keySlot, h.keys]

theorem podByteOf_congr {s t : State} (h : SamePod s t) (enc : Option Nat) (k : Nat) : t.podByteOf enc k = s.podByteOf enc k := by
  simp only [State.podByteOf, State.podByteAs, State.podBlock, h.byte, h.tag, h.now]

/-- What is brought from HBM changes nothing that lies at the .pod point. -/
theorem samePod_podBring (s : State) (e : Option Nat) (line : Nat) (want : BitVec 4) (c w : Nat) : SamePod s (s.podBring e line want c w) := by
  unfold State.podBring State.request
  dsimp only
  split
  · exact ⟨rfl, rfl, rfl, rfl, rfl, rfl, rfl, rfl⟩
  · split <;> split <;> exact ⟨rfl, rfl, rfl, rfl, rfl, rfl, rfl, rfl⟩

theorem SamePod.trans {s t u : State} (h : SamePod s t) (k : SamePod t u) : SamePod s u :=
  ⟨k.mem.trans h.mem, k.llc.trans h.llc, k.llcTags.trans h.llcTags, k.veil.trans h.veil, k.unveiled.trans h.unveiled, k.tags.trans h.tags,
    k.keys.trans h.keys, k.modId.trans h.modId⟩

theorem samePod_podReach (s : State) (e : Option Nat) (k n : Nat) (fine : Bool) (c w : Nat) : SamePod s (s.podReach e k n fine c w) := by
  unfold State.podReach
  split
  · generalize span (k / 16) _ = l
    induction l generalizing s with
    | nil => exact ⟨rfl, rfl, rfl, rfl, rfl, rfl, rfl, rfl⟩
    | cons x l ih => exact (samePod_podBring s e _ _ c w).trans (ih _)
  · exact samePod_podBring s e _ _ c w

/-- The data of the L2 line that an access under its key slot meets. -/
theorem withL2_data (s : State) (d : Nat) (enc : Option Nat) (line c w : Nat) (h : ∀ x, tabFind (s.die d).l2 line = some x → s.fits x enc = true) :
    (s.withL2 d enc line c w).1.data
      = ((tabFind (s.die d).l2 line).map (·.data)).getD ((List.range 64).map (fun i => s.podByteOf enc (64 * line + i))) := by
  unfold State.withL2
  cases hl : tabFind (s.die d).l2 line with
  | some l => simp [h l hl]
  | none =>
    have hb := podByteOf_congr (samePod_podBring s enc line 15 c w) enc
    simp only [State.podFill, State.podTouch, hb]
    rfl

/-- The data of the L1 line that an access under its key slot meets. -/
theorem withL1_data (s : State) (a : Nat) (enc : Option Nat) (line c w : Nat) (h1 : ∀ x, tabFind (s.arr a).l1 line = some x → s.fits x enc = true) :
    (s.withL1 a enc line c w).1.data
      = ((tabFind (s.arr a).l1 line).map (·.data)).getD (s.withL2 (dieOf a) enc line c w).1.data := by
  unfold State.withL1
  cases hl : tabFind (s.arr a).l1 line with
  | some l => simp [h1 l hl]
  | none => rfl

/-- A byte past the caches of an array, where their copies of its line fit the access: what they have of it dirty, else what lies at the .pod
point. -/
theorem pastByte_eq (s u : State) (a : Nat) (enc : Option Nat) (line key : Nat) (h1 : ∀ x, tabFind (s.arr a).l1 line = some x → s.fits x enc = true)
    (h2 : ∀ x, tabFind (s.die (dieOf a)).l2 line = some x → s.fits x enc = true) :
    s.pastByte u a enc line key
      = match ((tabFind (s.arr a).l1 line).filter (fun l => bit l.dirty (key % 64))).or
          ((tabFind (s.die (dieOf a)).l2 line).filter (fun l => bit l.dirty (key % 64))) with
        | some l => l.data.getD (key % 64) 0
        | none => s.podByteOf enc key := by
  have e1 : (tabFind (s.arr a).l1 line).all (s.fits · enc) = true := by
    cases h : tabFind (s.arr a).l1 line with
    | none => rfl
    | some l => exact h1 l h
  have e2 : (tabFind (s.die (dieOf a)).l2 line).all (s.fits · enc) = true := by
    cases h : tabFind (s.die (dieOf a)).l2 line with
    | none => rfl
    | some l => exact h2 l h
  simp only [State.pastByte, e1, e2, Bool.and_self, Bool.not_true, Bool.false_eq_true, if_false] <;> rfl

/-- A read's bytes depend on the stores, on the caches on its way and on memory alone. -/
theorem read_bytes_congr {s t : State} (ha : ∀ a, (t.arr a).store = (s.arr a).store) (h1 : ∀ a, (t.arr a).l1 = (s.arr a).l1)
    (h2 : ∀ d, (t.die d).l2 = (s.die d).l2) (hp : SamePod s t) (ag : Agent) (acc : Access) (n : Nat) (ho : s.oneSlot acc) :
    (t.read ag acc n).bytes = (s.read ag acc n).bytes := by
  have hd : ∀ (e : Option Nat) (k : Nat), t.podByteOf e k = s.podByteOf e k := podByteOf_congr hp
  cases acc with
  | store a f o => simp only [State.read, State.storeBytes, ha]
  | mem key ord cache enc cmp =>
    obtain ⟨o1, o2⟩ := ho (key / 64) rfl
    have hr : ∀ (f : Bool) (c w : Nat) (k : Nat), (t.podReach enc key n f c w).podByteOf enc k = (s.podReach enc key n f c w).podByteOf enc k :=
      fun f c w k => by
        rw [podByteOf_congr (samePod_podReach t enc key n f c w), podByteOf_congr (samePod_podReach s enc key n f c w), hd]
    cases ag with
    | array a who =>
      by_cases h : (ord == 1 || !cache) = true
      · simp only [State.read, h, if_true]
        refine List.map_congr_left fun i _ => ?_
        rw [pastByte_eq t _ a enc _ _ (fun x hx => by rw [hp.fits]; exact o1 a x (h1 a ▸ hx))
            (fun x hx => by rw [hp.fits]; exact o2 _ x (h2 _ ▸ hx)),
          pastByte_eq s _ a enc _ _ (o1 a) (o2 _), h1, h2]
        simp only [hd]
      · simp only [State.read, h, if_false, Bool.false_eq_true]
        rw [withL1_data t a enc (key / 64) _ _ (fun x hx => by rw [hp.fits]; exact o1 a x (h1 a ▸ hx)),
          withL1_data s a enc (key / 64) _ _ (o1 a), withL2_data t _ enc (key / 64) _ _ (fun x hx => by rw [hp.fits]; exact o2 _ x (h2 _ ▸ hx)),
          withL2_data s _ enc (key / 64) _ _ (o2 _), h1, h2]
        simp only [hd]
    | engine d who cls fine =>
      by_cases h : (ord == 1 || !cache) = true
      · simp only [State.read, h, if_true, hr]
      · simp only [State.read, h, if_false, Bool.false_eq_true, h2]
        cases hl : tabFind (s.die d).l2 (key / 64) with
        | none => simp only [hr]
        | some l =>
          have hf : s.fits l enc = true := o2 d l hl
          simp [hp.fits, hf]

/-- A byte reads as before where the stores, the caches and memory are as before. -/
theorem byte_congr {s t : State} (ha : ∀ a, (t.arr a).store = (s.arr a).store) (h1 : ∀ a, (t.arr a).l1 = (s.arr a).l1)
    (h2 : ∀ d, (t.die d).l2 = (s.die d).l2) (hp : SamePod s t) : SameBytes s t := by
  intro ag acc ho
  simp only [State.byte, read_bytes_congr ha h1 h2 hp ag acc 1 ho]

/-- What an advance keeps reads as before. -/
theorem Kept.sameBytes {l : List Nat} {s t : State} (h : Kept l s t) : SameBytes s t := by
  obtain ⟨h1, _, h3, h4, _⟩ := h
  exact byte_congr (fun a => by rw [← h3 a]) (fun a => by rw [← h3 a]) (fun d => by rw [← h4 d])
    (by rw [← h1]; exact ⟨rfl, rfl, rfl, rfl, rfl, rfl, rfl, rfl⟩)

/-! ## The end of an issue -/

theorem kept_setDie_made {l : List Nat} (s : State) (d k : Nat) (m : Tab Nat) :
    Kept l s (s.setDie d { s.die d with
      quads := vset (s.die d).quads k { vget (s.die d).quads k Quadrant.reset with made := m } }) := by
  refine ⟨rfl, fun a _ => rfl, fun a => rfl, fun e => ?_, fun e q => ?_⟩
  · rw [die_setDie]
    split
    · rename_i h; rw [die_mod h]
    · rfl
  · rw [die_setDie]
    split
    · rename_i h
      rw [die_mod h, vget_vset]
      split
      · rename_i h; rw [h.1]
      · rfl
    · rfl

theorem kept_foldl {α : Type} (l : List Nat) (f : State → α → State) (hf : ∀ t x, Kept l t (f t x)) (xs : List α) (s : State) :
    Kept l s (xs.foldl f s) := by
  induction xs generalizing s with
  | nil => exact kept_refl l s
  | cons x xs ih => exact kept_trans (hf s x) (ih (f s x))

theorem same_foldl {α β : Type} (g : State → β) (f : State → α → State) (hf : ∀ t x, g (f t x) = g t) (xs : List α) (s : State) :
    g (xs.foldl f s) = g s := by
  induction xs generalizing s with
  | nil => rfl
  | cons x xs ih => exact (ih (f s x)).trans (hf s x)

theorem kept_countHold (s : State) (r : Run) {l : List Nat} : Kept l s (s.countHold r) := by
  unfold State.countHold
  refine kept_foldl l _ (fun t a => ?_) _ s
  dsimp only
  split
  · exact kept_setDie_made t _ _ _
  · exact kept_refl l t

theorem waveKept_tidy (s : State) (r : Run) : WaveKept r.arrays s (s.tidy r) := by
  unfold State.tidy
  refine waveKept_foldl _ _ _ (fun t a ha => ?_) s
  dsimp only
  split
  · exact waveKept_refl _ t
  · exact waveKept_setArr t a _ ha rfl

theorem countHold_runs (s : State) (r : Run) : (s.countHold r).runs = s.runs := by
  unfold State.countHold
  refine same_foldl State.runs _ (fun t a => ?_) _ s
  dsimp only
  split <;> rfl

/-- The end of an issue: the sequencer is put back, and nothing outside the wave changes. -/
theorem settle_kept (s : State) (r : Run) : Kept r.arrays s (s.settleIssue r) := by
  unfold State.settleIssue
  exact kept_trans (kept_trans (kept_countHold s r) (waveKept_tidy _ r).kept) ⟨rfl, fun _ _ => rfl, fun _ => rfl, fun _ => rfl, fun _ _ => rfl⟩

theorem settle_run (s : State) (r : Run) (h : Nat) : (s.settleIssue r).run? h = if h = r.head then some (s.hears r) else s.run? h := by
  unfold State.settleIssue
  rw [run_setRun]
  show (if h = r.head then _ else _) = _
  unfold State.run?
  rw [(waveKept_tidy _ r).runs, countHold_runs]

/-! ## The slots of a bundle that holds one instruction -/

/-- Slots that all succeed make the bundle succeed. -/
theorem attempt_ok {old : Run} {c d : Ctl} {b : Slots} (hf : (reportedSlots b).findSome? (slotFault old c) = none)
    (hw : (reportedSlots b).findSome? (fun p => (p.2 old c).wait?) = none) (hr : runSlots old c b = .ok d) : attempt old c b = .ok d := by
  have hc : (controlSlot b.s0 old c).wait? = none := by
    rw [List.findSome?_eq_none_iff] at hw
    exact hw (b.s0, controlSlot b.s0) (by simp [reportedSlots])
  have hb : bundleFault old c b = none := hf
  have hv : bundleWait old c b = none := by
    unfold bundleWait
    rw [List.findSome?_cons, hc]
    exact hw
  have he : evalSlots old c b = .ok d := by simp only [evalSlots, hb, hv, hr]
  have ha : arriveFirst old c b = (old, c) := by
    unfold arriveFirst
    cases hs : controlSlot b.s0 old c with
    | wait k e => rw [hs] at hc; cases hc
    | ok e => rfl
    | fault t => rfl
  simp only [attempt, hb, ha, he]

/-- A slot whose registers are good, and which succeeds, has no fault. -/
theorem slotFault_ok {old : Run} {c d : Ctl} {i : Instr} {f : Slot} (hp : old.poisonedRead i = none) (hs : f old c = .ok d) :
    slotFault old c (i, f) = none := by simp [slotFault, hp, hs, Res.fault?]

/-- A slot that holds a NOP has no fault. -/
theorem slotFault_nop (old : Run) (c : Ctl) (k : SlotClass) (f : Slot) (hs : f old c = .ok c) : slotFault old c (nopOf k, f) = none := by
  refine slotFault_ok ?_ hs
  cases k <;> simp [Run.poisonedRead, Run.slotReads, nopOf, isSelScalar, seqReads]

/-- The NOP of a slot does nothing. -/
theorem nop_control (old : Run) (c : Ctl) : controlSlot (nopOf .control) old c = .ok c := rfl
theorem nop_scalar (old : Run) (c : Ctl) : scalarSlot (nopOf .scalar) old c = .ok c := rfl
theorem nop_selector (old : Run) (c : Ctl) : selectorSlot (nopOf .selector) old c = .ok c := rfl
theorem nop_inject (old : Run) (c : Ctl) : injectSlot (nopOf .inject) old c = .ok c := rfl
theorem nop_drain (old : Run) (c : Ctl) : drainSlotOf (nopOf .drain) old c = .ok c := rfl
theorem nop_engine (old : Run) (c : Ctl) : engineSlot (nopOf .engine) old c = .ok c := rfl

theorem attempt_scalar {old : Run} {c d : Ctl} {i : Instr} (h : ownClass i = .scalar) (hp : old.poisonedRead i = none)
    (hs : scalarSlot i old c = .ok d) : attempt old c (alone i) = .ok d := by
  have e : alone i = { Slots.nop with s1 := i } := by unfold alone; rw [h]; rfl
  rw [e]
  refine attempt_ok ?_ ?_ ?_
  · simp [reportedSlots, Slots.nop, slotFault_ok hp hs, slotFault_nop old c _ _ (nop_control old c), slotFault_nop old c _ _ (nop_selector old c),
      slotFault_nop old c _ _ (nop_inject old c), slotFault_nop old c _ _ (nop_drain old c),
      slotFault_nop old c _ _ (nop_engine old c)]
  · simp [reportedSlots, hs, Res.wait?, Slots.nop, nop_control, nop_selector, nop_inject, nop_drain, nop_engine]
  · simp [runSlots, chainSlots, hs, Res.andThen, Slots.nop, nop_control, nop_selector, nop_inject, nop_drain, nop_engine]

theorem attempt_control {old : Run} {c d : Ctl} {i : Instr} (h : ownClass i = .control) (hp : old.poisonedRead i = none)
    (hs : controlSlot i old c = .ok d) : attempt old c (alone i) = .ok d := by
  have e : alone i = { Slots.nop with s0 := i } := by unfold alone; rw [h]; rfl
  rw [e]
  refine attempt_ok ?_ ?_ ?_
  · simp [reportedSlots, Slots.nop, slotFault_ok hp hs, slotFault_nop old c _ _ (nop_scalar old c), slotFault_nop old c _ _ (nop_selector old c),
      slotFault_nop old c _ _ (nop_inject old c), slotFault_nop old c _ _ (nop_drain old c),
      slotFault_nop old c _ _ (nop_engine old c)]
  · simp [reportedSlots, hs, Res.wait?, Slots.nop, nop_scalar, nop_selector, nop_inject, nop_drain, nop_engine]
  · simp [runSlots, chainSlots, hs, Res.andThen, Slots.nop, nop_scalar, nop_selector, nop_inject, nop_drain, nop_engine]

theorem attempt_selector {old : Run} {c d : Ctl} {i : Instr} (h : ownClass i = .selector) (hp : old.poisonedRead i = none)
    (hs : selectorSlot i old c = .ok d) : attempt old c (alone i) = .ok d := by
  have e : alone i = { Slots.nop with s4 := i } := by unfold alone; rw [h]; rfl
  rw [e]
  refine attempt_ok ?_ ?_ ?_
  · simp [reportedSlots, Slots.nop, slotFault_ok hp hs, slotFault_nop old c _ _ (nop_control old c), slotFault_nop old c _ _ (nop_scalar old c),
      slotFault_nop old c _ _ (nop_inject old c), slotFault_nop old c _ _ (nop_drain old c),
      slotFault_nop old c _ _ (nop_engine old c)]
  · simp [reportedSlots, hs, Res.wait?, Slots.nop, nop_scalar, nop_control, nop_inject, nop_drain, nop_engine]
  · simp [runSlots, chainSlots, hs, Res.andThen, Slots.nop, nop_scalar, nop_control, nop_inject, nop_drain, nop_engine]

theorem attempt_inject {old : Run} {c d : Ctl} {i : Instr} (h : ownClass i = .inject) (hp : old.poisonedRead i = none)
    (hs : injectSlot i old c = .ok d) : attempt old c (alone i) = .ok d := by
  have e : alone i = { Slots.nop with s5 := i } := by unfold alone; rw [h]; rfl
  rw [e]
  refine attempt_ok ?_ ?_ ?_
  · simp [reportedSlots, Slots.nop, slotFault_ok hp hs, slotFault_nop old c _ _ (nop_control old c), slotFault_nop old c _ _ (nop_scalar old c),
      slotFault_nop old c _ _ (nop_selector old c), slotFault_nop old c _ _ (nop_drain old c),
      slotFault_nop old c _ _ (nop_engine old c)]
  · simp [reportedSlots, hs, Res.wait?, Slots.nop, nop_scalar, nop_control, nop_selector, nop_drain, nop_engine]
  · simp [runSlots, chainSlots, hs, Res.andThen, Slots.nop, nop_scalar, nop_control, nop_selector, nop_drain, nop_engine]

theorem attempt_drain {old : Run} {c d : Ctl} {i : Instr} (h : ownClass i = .drain) (hp : old.poisonedRead i = none)
    (hs : drainSlotOf i old c = .ok d) : attempt old c (alone i) = .ok d := by
  have e : alone i = { Slots.nop with s6 := i } := by unfold alone; rw [h]; rfl
  rw [e]
  refine attempt_ok ?_ ?_ ?_
  · simp [reportedSlots, Slots.nop, slotFault_ok hp hs, slotFault_nop old c _ _ (nop_control old c), slotFault_nop old c _ _ (nop_scalar old c),
      slotFault_nop old c _ _ (nop_selector old c), slotFault_nop old c _ _ (nop_inject old c),
      slotFault_nop old c _ _ (nop_engine old c)]
  · simp [reportedSlots, hs, Res.wait?, Slots.nop, nop_scalar, nop_control, nop_selector, nop_inject, nop_engine]
  · simp [runSlots, chainSlots, hs, Res.andThen, Slots.nop, nop_scalar, nop_control, nop_selector, nop_inject, nop_engine]

theorem attempt_engine {old : Run} {c d : Ctl} {i : Instr} (h : ownClass i = .engine) (hp : old.poisonedRead i = none)
    (hs : engineSlot i old c = .ok d) : attempt old c (alone i) = .ok d := by
  have e : alone i = { Slots.nop with s7 := i } := by unfold alone; rw [h]; rfl
  rw [e]
  refine attempt_ok ?_ ?_ ?_
  · simp [reportedSlots, Slots.nop, slotFault_ok hp hs, slotFault_nop old c _ _ (nop_control old c), slotFault_nop old c _ _ (nop_scalar old c),
      slotFault_nop old c _ _ (nop_selector old c), slotFault_nop old c _ _ (nop_inject old c),
      slotFault_nop old c _ _ (nop_drain old c)]
  · simp [reportedSlots, hs, Res.wait?, Slots.nop, nop_scalar, nop_control, nop_selector, nop_inject, nop_drain]
  · simp [runSlots, chainSlots, hs, Res.andThen, Slots.nop, nop_scalar, nop_control, nop_selector, nop_inject, nop_drain]

/-- A cell instruction does nothing at issue: it acts in the cells. -/
theorem attempt_cell {old : Run} {c : Ctl} {i : Instr} (h : ownClass i = .cellA ∨ ownClass i = .cellB) :
    attempt old c (alone i) = .ok c := by
  have e : alone i = { Slots.nop with s2 := i } ∨ alone i = { Slots.nop with s3 := i } := by
    rcases h with h | h
    · left; unfold alone; rw [h]; rfl
    · right; unfold alone; rw [h]; rfl
  rcases e with e | e <;> rw [e] <;> refine attempt_ok ?_ ?_ ?_ <;>
    simp [reportedSlots, runSlots, chainSlots, Res.andThen, Res.wait?, Slots.nop, nop_control, nop_scalar, nop_selector, nop_inject, nop_drain,
      nop_engine, slotFault_nop old c _ _ (nop_control old c), slotFault_nop old c _ _ (nop_scalar old c),
      slotFault_nop old c _ _ (nop_selector old c), slotFault_nop old c _ _ (nop_inject old c), slotFault_nop old c _ _ (nop_drain old c),
      slotFault_nop old c _ _ (nop_engine old c)]

/-! ## The issue of an instruction alone -/

/-- A ready instruction reads no poisoned register. -/
theorem ready_poison {s : State} {r : Run} {i : Instr} (h : s.ready r i) (hc : i ∈ seqSlots (alone i)) : r.foldRecords.poisonedRead i = none := by
  obtain ⟨_, _, _, _, _, _, _, _, _, h8⟩ := h
  unfold Run.poisonedRead
  rw [List.findSome?_eq_none_iff]
  intro x hx
  simp [(h8 x (List.mem_flatMap.2 ⟨i, hc, hx⟩)).2]

theorem wait?_ok (d : Ctl) : (Res.ok d).wait? = none := rfl

/-- A ready instruction whose slots succeed is in the wave once the wave moves. -/
theorem issueAlone_next {s : State} {r : Run} {i : Instr} {d : Ctl} (h : s.ready r i)
    (ha : attempt r.foldRecords (s.fresh r.foldRecords) (alone i) = .ok d) (hr : d.rft = false) (hm : d.moves r.foldRecords i = true) :
    ∃ s1 r1, d.enters r.foldRecords i = .moved s1 r1
      ∧ s.issueAlone i = .next (s1.settleIssue ((d.issued r.foldRecords (alone i) false).entered r.foldRecords r1)) := by
  obtain ⟨h1, h2, h3, _, _, h4, h5, h6, h7, h8⟩ := h
  have hb : r.foldRecords.readBlocked (alone i) = false := by
    unfold Run.readBlocked
    rw [List.any_eq_false]
    intro x hx
    simp [Run.isEmpty, (h8 x hx).1]
  have hf : r.foldRecords.readFault (alone i) = none := by
    unfold Run.readFault
    rw [if_neg]
    rw [Bool.not_eq_true, List.any_eq_false]
    intro x hx
    simp [Run.isEmpty, (h8 x hx).1]
  unfold Ctl.moves at hm
  cases he : d.enters r.foldRecords i with
  | stalled t => rw [he] at hm; cases hm
  | fault t a b => rw [he] at hm; cases hm
  | moved s1 r1 =>
    refine ⟨s1, r1, rfl, ?_⟩
    unfold Ctl.enters at he
    dsimp only at he
    unfold State.issueAlone
    rw [h1]
    dsimp only
    unfold State.issueOne
    simp only [h3, h4, h5, Bool.not_true, if_false, bne_self_eq_false, Bool.false_eq_true]
    unfold State.issueSlots
    simp only [h6, hf, hb, h7, ha, hr, Bool.false_and, Bool.false_eq_true, if_false]
    unfold enterWave
    rw [he]

/-- The first part of `Registers`. -/
def RegsOf (x y : Run) : Prop :=
  { y with
    pc := x.pc, levels := x.levels, depth := x.depth, sbase := x.sbase, fmt := x.fmt, fmtPend := x.fmtPend, srt := x.srt,
    semPend := x.semPend, tag := x.tag, num := x.num, stamp := x.stamp, vadvs := x.vadvs, stall := x.stall, closing := x.closing,
    phase := x.phase, records := x.records, issued := x.issued, flights := x.flights, kept := x.kept, redo := x.redo, mute := x.mute,
    face := x.face, advs := x.advs, docket := x.docket, waitEnd := x.waitEnd, precvEnd := x.precvEnd } = x

theorem regsOf_refl (x : Run) : RegsOf x x := rfl

theorem regsOf_trans {x y z : Run} (h : RegsOf x y) (k : RegsOf y z) : RegsOf x z := by
  unfold RegsOf at *
  rw [← k] at h
  exact h

theorem Waved.regsOf {x y : Run} (h : Waved x y) : RegsOf x y := by
  unfold Waved at h
  unfold RegsOf
  rw [← h]

theorem RegsOf.arrays {x y : Run} (h : RegsOf x y) : y.arrays = x.arrays := by unfold RegsOf at h; rw [← h]
theorem RegsOf.head {x y : Run} (h : RegsOf x y) : y.head = x.head := by unfold RegsOf at h; rw [← h]

/-- What a sequencer hears of its own write-backs is the same when it has gone on. -/
theorem RegsOf.hears {x y : Run} {s t : State} (h : RegsOf x y) (hr : t.runs = s.runs) : RegsOf (s.hears x) (t.hears y) := by
  have hl : t.reports y.head = s.reports x.head := by
    rw [h.head]
    unfold State.reports State.run?
    rw [hr]
  unfold State.hears
  rw [hl]
  exact congrArg (fun z : Run => { z with ueStore := z.ueStore ++ s.reports x.head }) h

/-- What the back-edge decision leaves. -/
theorem backEdge_keeps (c : Ctl) : c.backEdge.s = c.s ∧ RegsOf c.r c.backEdge.r ∧ c.backEdge.r.fmt = c.r.fmt
    ∧ c.backEdge.r.fmtPend = c.r.fmtPend ∧ c.backEdge.r.srt = c.r.srt ∧ c.backEdge.r.semPend = c.r.semPend
    ∧ c.backEdge.ending = c.ending ∧ c.backEdge.rft = c.rft := by
  unfold Ctl.backEdge
  dsimp only
  split
  · exact ⟨rfl, rfl, rfl, rfl, rfl, rfl, rfl, rfl⟩
  · split
    · exact ⟨rfl, rfl, rfl, rfl, rfl, rfl, rfl, rfl⟩
    · split
      · exact ⟨rfl, rfl, rfl, rfl, rfl, rfl, rfl, rfl⟩
      · exact ⟨rfl, rfl, rfl, rfl, rfl, rfl, rfl, rfl⟩

theorem agePending_congr {x y : Run} (h1 : y.fmt = x.fmt) (h2 : y.fmtPend = x.fmtPend) (h3 : y.srt = x.srt) (h4 : y.semPend = x.semPend) :
    y.agePending.fmt = x.agePending.fmt ∧ y.agePending.srt = x.agePending.srt
      ∧ y.agePending.fmtPend = x.agePending.fmtPend ∧ y.agePending.semPend = x.agePending.semPend := by
  simp only [Run.agePending, h1, h2, h3, h4, and_self]

/-- The sequencer after its issue, when its slots change neither the rotation nor the end of the run. -/
theorem issued_keeps (d : Ctl) (old : Run) (b : Slots) (ho : d.rot = none) :
    (d.issued old b false).s = d.s ∧ RegsOf d.r (d.issued old b false).r
      ∧ (d.issued old b false).r.fmt = d.r.agePending.fmt ∧ (d.issued old b false).r.srt = d.r.agePending.srt
      ∧ (d.issued old b false).r.fmtPend = d.r.agePending.fmtPend ∧ (d.issued old b false).r.semPend = d.r.agePending.semPend
      ∧ (d.issued old b false).r.closing = d.ending.map (fun p => p == .ended) ∧ (d.issued old b false).r.unheld
      ∧ (d.issued old b false).rft = d.rft := by
  have h1 : d.applyRot = d := by unfold Ctl.applyRot; rw [ho]
  unfold Ctl.issued
  simp only [h1, Bool.false_and, Bool.false_eq_true, if_false]
  obtain ⟨k1, k2, k3, k4, k5, k6, k7, k8⟩ := backEdge_keeps d
  split
  · obtain ⟨e1, e2, e3, e4⟩ := agePending_congr k3 k4 k5 k6
    refine ⟨k1, regsOf_trans k2 rfl, e1, e2, e3, e4, ?_, ?_, k8⟩
    · rw [k7]
    · exact ⟨rfl, rfl, rfl⟩
  · refine ⟨?_, ?_, ?_, ?_, ?_, ?_, ?_, ?_, ?_⟩ <;> first | rfl | trivial

/-- Where the sequencer goes on when nothing transfers control and the bundle ends no level. -/
theorem issued_onward (d : Ctl) (old : Run) (b : Slots) (ho : d.rot = none) (hj : d.jump = none) (hk : d.back = false)
    (he : old.atEnd = false) :
    (d.issued old b false).r.pc = old.pc + 32 ∧ (d.issued old b false).r.levels = d.r.levels
      ∧ (d.issued old b false).r.depth = d.r.depth ∧ (d.issued old b false).r.sbase = d.r.sbase := by
  have h1 : d.applyRot = d := by unfold Ctl.applyRot; rw [ho]
  unfold Ctl.issued
  simp only [h1, hj, hk, he, Bool.false_and, Bool.or_self, Bool.false_eq_true, if_false, Option.getD_none]
  refine ⟨?_, ?_, ?_, ?_⟩
  · apply BitVec.eq_of_toNat_eq
    have := old.pc.isLt
    have e : (32 : BitVec 55).toNat = 32 := rfl
    simp only [wrap, BitVec.toNat_ofNat, BitVec.toNat_add, e]
    omega
  · rfl
  · rfl
  · rfl

/-- The back-edge decision looks at the sequencer alone. -/
theorem backEdge_congr {c d : Ctl} (h : c.r = d.r) (hj : c.jump = d.jump) : c.backEdge.r = d.backEdge.r ∧ c.backEdge.jump = d.backEdge.jump := by
  unfold Ctl.backEdge
  rw [h]
  dsimp only
  split
  · exact ⟨h, hj⟩
  · split
    · refine ⟨?_, rfl⟩
      unfold Ctl.upd
      rw [h]
    · split
      · refine ⟨?_, rfl⟩
        unfold Ctl.upd
        rw [h]
      · unfold Ctl.closeLevel Ctl.upd
        simp only [h, and_self]

theorem ofNat_wrap (n : Nat) : BitVec.ofNat 55 (wrap 55 n) = BitVec.ofNat 55 n := by
  apply BitVec.eq_of_toNat_eq
  simp only [wrap, BitVec.toNat_ofNat]
  omega

/-- Where the sequencer goes on at the END of a level when no slot transfers control: as the back-edge decision says. -/
theorem issued_atEnd (d : Ctl) (old : Run) (b : Slots) (ho : d.rot = none) (hj : d.jump = none) (he : old.atEnd = true) {c : Ctl}
    (hr : c.r = d.r) (hc : c.jump = none) :
    (d.issued old b false).r.pc = BitVec.ofNat 55 (c.backEdge.jump.getD (old.pc.toNat + 32))
      ∧ (d.issued old b false).r.levels = c.backEdge.r.levels ∧ (d.issued old b false).r.depth = c.backEdge.r.depth
      ∧ (d.issued old b false).r.sbase = c.backEdge.r.sbase := by
  obtain ⟨e1, e2⟩ := backEdge_congr hr (hc.trans hj.symm)
  have h1 : d.applyRot = d := by unfold Ctl.applyRot; rw [ho]
  unfold Ctl.issued
  simp only [h1, hj, he, Bool.false_and, Bool.and_self, Option.isNone_none, Bool.true_or, Bool.false_eq_true, if_false, if_true]
  rw [e1, e2]
  refine ⟨?_, rfl, rfl, rfl⟩
  cases d.backEdge.jump with
  | none => exact ofNat_wrap _
  | some p => rfl

/-- Where the sequencer goes on when a slot transfers control. -/
theorem issued_jump (d : Ctl) (old : Run) (b : Slots) (ho : d.rot = none) (hk : d.back = false) (p : Nat) (hj : d.jump = some p) :
    (d.issued old b false).r.pc = BitVec.ofNat 55 p ∧ (d.issued old b false).r.levels = d.r.levels
      ∧ (d.issued old b false).r.depth = d.r.depth ∧ (d.issued old b false).r.sbase = d.r.sbase := by
  have h1 : d.applyRot = d := by unfold Ctl.applyRot; rw [ho]
  unfold Ctl.issued
  simp only [h1, hj, hk, Option.isNone_some, Bool.and_false, Bool.or_self, Bool.false_eq_true, if_false, Option.getD_some]
  refine ⟨?_, ?_, ?_, ?_⟩ <;> first | rfl | trivial

/-- What an issue leaves, in general. -/
theorem issue_all {s : State} {r : Run} {i : Instr} {d : Ctl} (hx : exec i s = s.issueAlone i) (h : s.ready r i)
    (ha : attempt r.foldRecords (s.fresh r.foldRecords) (alone i) = .ok d) (hm : d.moves r.foldRecords i = true)
    (hr : d.rft = false) (ho : d.rot = none) (hh : d.r.head = r.head) (hl : d.r.arrays = r.foldRecords.arrays) :
    ∃ t y, exec i s = .next t ∧ t.run? s.cur = some y ∧ Registers (d.s.hears d.r) y ∧ y.num = r.foldRecords.num + 1
      ∧ y.phase = goOn (d.ending.map (fun p => p == .ended)) ∧ y.unheld
      ∧ y.pc = (d.issued r.foldRecords (alone i) false).r.pc ∧ y.levels = (d.issued r.foldRecords (alone i) false).r.levels
      ∧ y.depth = (d.issued r.foldRecords (alone i) false).r.depth ∧ y.sbase = (d.issued r.foldRecords (alone i) false).r.sbase
      ∧ Kept r.foldRecords.arrays d.s t ∧ OtherRuns s.cur d.s t ∧ SameBytes d.s t := by
  have hcur : r.head = s.cur := h.2.1
  obtain ⟨s1, r1, he, hn⟩ := issueAlone_next h ha hr hm
  obtain ⟨k1, k2, k3, k4, k5, k6, k7, k8, k9⟩ := issued_keeps d r.foldRecords (alone i) ho
  unfold Ctl.enters at he
  dsimp only at he
  obtain ⟨w1, w2, _⟩ := advance_moved he
  generalize d.issued r.foldRecords (alone i) false = e at *
  have hw : RegsOf e.r r1 := regsOf_trans (y := e.entering r.foldRecords (r.foldRecords.flight (alone i) (cellWords i).1 (cellWords i).2)
    (r.foldRecords.record (alone i))) rfl w2.regsOf
  have hy : RegsOf d.r (e.entered r.foldRecords r1) := regsOf_trans (regsOf_trans k2 hw) rfl
  have hya : (e.entered r.foldRecords r1).arrays = r.foldRecords.arrays := hy.arrays.trans hl
  have hyh : (e.entered r.foldRecords r1).head = s.cur := hy.head.trans (hh.trans hcur)
  have hea : (e.entering r.foldRecords (r.foldRecords.flight (alone i) (cellWords i).1 (cellWords i).2)
    (r.foldRecords.record (alone i))).arrays = r.foldRecords.arrays := k2.arrays.trans hl
  rw [hea, k1] at w1
  have hk : Kept r.foldRecords.arrays d.s (s1.settleIssue (e.entered r.foldRecords r1)) := by
    have := settle_kept s1 (e.entered r.foldRecords r1)
    rw [hya] at this
    exact kept_trans w1.kept this
  refine ⟨_, _, hx.trans hn, ?_, ⟨hy.hears (w1.runs), ?_, ?_, ?_, ?_⟩, rfl, ?_, ?_, ?_, ?_, ?_, ?_, hk, ?_, hk.sameBytes⟩
  · rw [settle_run, if_pos hyh.symm]
  · exact (congrArg Run.fmt w2).trans k3
  · exact (congrArg Run.srt w2).trans k4
  · exact (congrArg Run.fmtPend w2).trans k5
  · exact (congrArg Run.semPend w2).trans k6
  · have hq : (s1.hears (e.entered r.foldRecords r1)).phase = goOn e.r.closing := by
      show (if e.rft = true then _ else goOn e.r.closing) = _
      rw [if_neg (by rw [k9, hr]; exact Bool.false_ne_true)]
    rw [hq, k7]
  · exact ⟨(congrArg Run.stall w2).trans k8.1, (congrArg Run.waitEnd w2).trans k8.2.1, (congrArg Run.precvEnd w2).trans k8.2.2⟩
  · have q := congrArg Run.pc w2
    exact q
  · have q := congrArg Run.levels w2
    exact q
  · have q := congrArg Run.depth w2
    exact q
  · have q := congrArg Run.sbase w2
    exact q
  · intro x hx
    rw [settle_run, if_neg (by rw [hyh]; exact hx)]
    unfold State.run?
    rw [w1.runs]

/-- An instruction that only writes registers and memory. -/
theorem does_of_issue {s : State} {r : Run} {i : Instr} {d : Ctl} (hx : exec i s = s.issueAlone i) (h : s.ready r i)
    (ha : attempt r.foldRecords (s.fresh r.foldRecords) (alone i) = .ok d) (hm : d.moves r.foldRecords i = true)
    (hr : d.rft = false) (ho : d.rot = none) (hj : d.jump = none) (hk : d.back = false) (he : d.ending = none)
    (hh : d.r.head = r.head) (hl : d.r.arrays = r.foldRecords.arrays) :
    Does s i r.foldRecords d.r d.s := by
  obtain ⟨t, y, h1, h2, h3, h4, h5, h6, h7, h8, h9, h10, h11, h12, h13⟩ := issue_all hx h ha hm hr ho hh hl
  refine ⟨t, y, h1, h2, h3, ⟨fun hn => ?_, fun hn c hr hc => ?_⟩, ⟨h4, by rw [h5, he]; rfl, h6⟩, h11, h12, h13⟩
  · obtain ⟨k1, k2, k3, k4⟩ := issued_onward d r.foldRecords (alone i) ho hj hk hn
    exact ⟨h7.trans k1, h8.trans k2, h9.trans k3, h10.trans k4⟩
  · obtain ⟨k1, k2, k3, k4⟩ := issued_atEnd d r.foldRecords (alone i) ho hj hn hr hc
    exact ⟨h7.trans k1, h8.trans k2, h9.trans k3, h10.trans k4⟩

/-- An instruction that transfers control. -/
theorem goes_of_issue {s : State} {r : Run} {i : Instr} {d : Ctl} {p : Nat} (hx : exec i s = s.issueAlone i) (h : s.ready r i)
    (ha : attempt r.foldRecords (s.fresh r.foldRecords) (alone i) = .ok d) (hm : d.moves r.foldRecords i = true)
    (hr : d.rft = false) (ho : d.rot = none) (hj : d.jump = some p) (hk : d.back = false) (he : d.ending = none)
    (hh : d.r.head = r.head) (hl : d.r.arrays = r.foldRecords.arrays) :
    Goes s i r.foldRecords d.r d.s (BitVec.ofNat 55 p) := by
  obtain ⟨t, y, h1, h2, h3, h4, h5, h6, h7, h8, h9, h10, h11, h12, h13⟩ := issue_all hx h ha hm hr ho hh hl
  obtain ⟨k1, k2, k3, k4⟩ := issued_jump d r.foldRecords (alone i) ho hk p hj
  exact ⟨t, y, h1, h2, h3, h7.trans k1, h8.trans k2, h9.trans k3, h10.trans k4, ⟨h4, by rw [h5, he]; rfl, h6⟩, h11, h12, h13⟩

end Sys2Proof.Machine
end

