-- ==== Sys2Proof/Laws/Cells.lean ====
section
/-!
SUPPORT. What an advance of the wave does in one cell: the cells of a state after it, and from that `cellsDo`, which gives `CellsDo` from what an
instruction's slot computes.
-/

namespace Sys2Proof.Machine

/-! ## Cells that an update keeps -/

theorem cells_setFace (s : State) (a side b : Nat) (f : Face) : ((s.setFace a side f).arr b).cells = (s.arr b).cells := by
  unfold State.setFace
  rw [arr_setArr]
  split
  · rename_i h
    subst h
    unfold ArrayState.setFace
    split <;> rfl
  · rfl

theorem cells_foldl {α : Type} (b : Nat) (f : State → α → State) (hf : ∀ t x, ((f t x).arr b).cells = (t.arr b).cells) (l : List α) (s : State) :
    ((l.foldl f s).arr b).cells = (s.arr b).cells := by
  induction l generalizing s with
  | nil => rfl
  | cons x l ih => exact (ih (f s x)).trans (hf s x)

theorem cells_translate (s : State) (u : TlbUnit) (d ctx : Nat) (arrays : List Nat) (va : Nat) (need : Need) (b : Nat) :
    ((s.translate u d ctx arrays va need).2.arr b).cells = (s.arr b).cells := by
  rw [(waveKept_translate (l := []) s u d ctx arrays va need).2.1 b (by simp)]

theorem cells_takeAll (s : State) (r : Run) (c : CellRes) (b : Nat) : ((s.takeAll r c).arr b).cells = (s.arr b).cells := by
  unfold State.takeAll
  dsimp only
  refine cells_foldl b _ (fun t x => ?_) _ s
  split
  · rfl
  · split
    · exact cells_setFace _ _ _ _ _
    · rfl
    · rfl

theorem cells_pushAll (s : State) (r : Run) (c : CellRes) (b : Nat) : ((s.pushAll r c).arr b).cells = (s.arr b).cells := by
  unfold State.pushAll
  dsimp only
  refine cells_foldl b _ (fun t x => ?_) _ s
  rw [cells_setFace]
  split
  · exact cells_translate _ _ _ _ _ _ _ _
  · rfl

/-- The place of a cell: its array and its number there. -/
def CellRes.key (r : Run) (c : CellRes) : Nat × Nat := (r.arrays.getD c.m 0, 32 * c.i + c.j)

/-- A commit writes its own cell, if the step touched it, and no other. -/
theorem cells_commitCell (s : State) (r : Run) (c : CellRes) (a k : Nat) :
    tabGet Cell.reset ((s.commitCell r c).arr a).cells k
      = if c.touched = true ∧ c.key r = (a, k) then c.cell else tabGet Cell.reset (s.arr a).cells k := by
  have h0 : ((State.pushAll (s.takeAll r c) r c).arr a).cells = (s.arr a).cells := (cells_pushAll _ r c a).trans (cells_takeAll s r c a)
  unfold State.commitCell CellRes.key
  dsimp only
  generalize State.pushAll (s.takeAll r c) r c = t at h0 ⊢
  rw [← h0]
  have hf : ∀ u : State, ((if (c.j == 0 && !c.f.handler) = true then
      u.setArr (r.arrays.getD c.m 0) { u.arr (r.arrays.getD c.m 0) with
        front := tabPut (u.arr (r.arrays.getD c.m 0)).front c.i (BitVec.ofNat 32 c.f.num) } else u).arr a).cells = (u.arr a).cells := by
    intro u
    split
    · rw [arr_setArr]
      split
      · rename_i h; subst h; rfl
      · rfl
    · rfl
  rw [hf]
  by_cases ht : c.touched = true
  · rw [if_pos ht, arr_setArr]
    by_cases ha : a = r.arrays.getD c.m 0
    · subst ha
      rw [if_pos rfl]
      by_cases hk : 32 * c.i + c.j = k
      · subst hk
        simp [ht, tabGet]
      · rw [if_neg (by simp [hk])]
        unfold tabGet
        rw [tabFind_put_ne _ _ _ _ (Ne.symm hk)]
    · rw [if_neg ha, if_neg (fun h => ha (congrArg Prod.fst h.2).symm)]
  · rw [if_neg ht, if_neg (by simp [ht])]

/-- The commits of an advance: where all that concern a cell agree, it holds what they say. -/
theorem cells_commits (r : Run) (a k : Nat) (z : Cell) (l : List CellRes) (s : State)
    (hz : ∀ c ∈ l, c.key r = (a, k) → c.touched = true → c.cell = z)
    (hs : tabGet Cell.reset (s.arr a).cells k = z ∨ ∃ c ∈ l, c.key r = (a, k) ∧ c.touched = true) :
    tabGet Cell.reset ((l.foldl (fun t x => t.commitCell r x) s).arr a).cells k = z := by
  induction l generalizing s with
  | nil =>
    rcases hs with h | ⟨c, hc, _⟩
    · exact h
    · cases hc
  | cons c l ih =>
    refine ih (s.commitCell r c) (fun x hx => hz x (List.mem_cons_of_mem _ hx)) ?_
    rw [cells_commitCell]
    by_cases h : c.touched = true ∧ c.key r = (a, k)
    · exact .inl (by rw [if_pos h]; exact hz c (List.mem_cons_self ..) h.2 h.1)
    · rw [if_neg h]
      rcases hs with e | ⟨x, hx, h1, h2⟩
      · exact .inl e
      · rcases List.mem_cons.1 hx with rfl | hx
        · exact absurd ⟨h2, h1⟩ h
        · exact .inr ⟨x, hx, h1, h2⟩

/-- A cell that no commit concerns is kept. -/
theorem cells_commits_ne (r : Run) (a k : Nat) (l : List CellRes) (s : State) (h : ∀ c ∈ l, c.key r ≠ (a, k)) :
    tabGet Cell.reset ((l.foldl (fun t x => t.commitCell r x) s).arr a).cells k = tabGet Cell.reset (s.arr a).cells k :=
  cells_commits r a k _ l s (fun c hc e => absurd e (h c hc)) (.inl rfl)

/-! ## Which cells a bundle reaches -/

theorem cellsAt_lt {skew : Bool} {m d : Nat} {c : Nat × Nat × Nat} (h : c ∈ cellsAt skew m d) : c.2.1 < 32 ∧ c.2.2 < 32 := by
  unfold cellsAt at h
  split at h
  · obtain ⟨i, hi, h⟩ := List.mem_filterMap.1 h
    split at h
    · rename_i hd
      cases h
      simp only [Bool.and_eq_true, decide_eq_true_eq] at hd
      exact ⟨List.mem_range.1 hi, hd.2⟩
    · cases h
  · split at h
    · rename_i hd
      obtain ⟨i, hi, h⟩ := List.mem_map.1 h
      cases h
      exact ⟨hd, List.mem_range.1 hi⟩
    · cases h

theorem arrivals_lt {l : List Nat} {skew : Bool} {adv : Nat} {c : Nat × Nat × Nat} (h : c ∈ arrivals (benchOffsets l 0) skew adv) :
    c.1 < l.length ∧ c.2.1 < 32 ∧ c.2.2 < 32 := by
  unfold arrivals at h
  obtain ⟨o, ho, h⟩ := List.mem_flatMap.1 h
  split at h
  · refine ⟨?_, cellsAt_lt h⟩
    rw [cellsAt_m h]
    have hl := (List.mem_zipIdx ho).2.1
    rw [benchOffsets_length] at hl
    simpa using hl
  · cases h

/-- Offsets grow by 32 and more. -/
theorem benchOffsets_lt : ∀ (l : List Nat) (o n : Nat), n + 1 < l.length → o + 32 ≤ (benchOffsets l o).getD (n + 1) 0
  | [], _, _, h => absurd h (by simp)
  | [_], _, _, h => absurd h (by simp)
  | a :: b :: t, o, 0, _ => by
    cases t with
    | nil => simp [benchOffsets]
    | cons c t => simp [benchOffsets]
  | a :: b :: t, o, n + 1, h => by
    have := benchOffsets_lt (b :: t) (o + 32 + seam a b) n (by simpa using h)
    simp only [benchOffsets, List.getD_cons_succ]
    omega

/-- The cells of the first advance lie in the first array. -/
theorem first_m {l : List Nat} {skew : Bool} {c : Nat × Nat × Nat} (h : c ∈ arrivals (benchOffsets l 0) skew 1) : c.1 = 0 := by
  unfold arrivals at h
  obtain ⟨o, ho, h⟩ := List.mem_flatMap.1 h
  split at h
  · rename_i h1
    rw [cellsAt_m h]
    have hl := (List.mem_zipIdx ho).2.1
    have hv := (List.mem_zipIdx ho).2.2
    rw [benchOffsets_length] at hl
    cases hn : o.2 with
    | zero => rfl
    | succ n =>
      have hlt : n + 1 < l.length := by rw [hn] at hl; simpa using hl
      have := benchOffsets_lt l 0 n hlt
      simp only [hn, Nat.sub_zero] at hv
      rw [List.getD_eq_getElem?_getD, List.getElem?_eq_getElem (by rw [benchOffsets_length]; exact hlt), Option.getD_some, ← hv] at this
      omega
  · cases h

/-- Different cells of a bench of different arrays have different places. -/
theorem key_inj {l : List Nat} (hn : l.Nodup) {m n i j k e : Nat} (hm : m < l.length) (hn' : n < l.length) (hj : j < 32)
    (he : e < 32) (h : (l.getD m 0, 32 * i + j) = (l.getD n 0, 32 * k + e)) : m = n ∧ i = k ∧ j = e := by
  injection h with h1 h2
  refine ⟨?_, by omega, by omega⟩
  rw [List.getD_eq_getElem?_getD, List.getD_eq_getElem?_getD, List.getElem?_eq_getElem hm, List.getElem?_eq_getElem hn'] at h1
  have hp := List.pairwise_iff_getElem.1 hn
  rcases Nat.lt_trichotomy m n with e | e | e
  · exact absurd h1 (hp m n hm hn' e)
  · exact e
  · exact absurd h1.symm (hp n m hn' hm e)

/-! ## One cell's step -/

theorem setUnion_nil (l : List Nat) : setUnion l [] = l := rfl

/-- A bundle that leaves nothing in a cell leaves it as it was. -/
theorem stepped_idle (c : Cell) (f : Flight) (sel : Bool) (m i j last done : Nat) (hl : c.latches = []) (ht : f.tag = none)
    (hs : (sel && f.tscale.isSome) = false) : c.stepped f sel m i j last done {} {} = c := by
  have h1 : newLatches f {} {} = [] := rfl
  have h2 : c.afterLatches f m i j last {} {} = (c, []) := by
    unfold Cell.afterLatches
    rw [h1, hl]
    show ({ c with latches := [] }, []) = (c, [])
    rw [← hl]
  have h3 : f.scales sel c = c := by
    unfold Flight.scales
    split
    · rename_i e
      rw [e] at hs
      simp only [Option.isSome_some, Bool.and_true] at hs
      simp [hs]
    · rfl
  have h4 : f.exitsCell false c = c := by
    unfold Flight.exitsCell
    split <;> rfl
  have h5 : c.recorded c f done = c := by
    unfold Cell.recorded Cell.record
    simp
  have h6 : c.partsOf f sel {} {} = [] := by
    unfold Cell.partsOf
    rw [hl, ht]
    simp only [h1, List.append_nil, hs]
    rfl
  unfold Cell.stepped
  rw [h2]
  show ((f.exitsCell (false || false) (f.scales sel (c.afterStores []))).recorded c f done).touch _ = c
  rw [show c.afterStores [] = c from rfl, h3, Bool.or_self, h4, h5, h6]
  rfl

/-- A NOP does nothing in a cell. -/
theorem slot_nop (x : LaneIn) (i : Instr) (h : isNopCell i = true) : x.slot i = {} := by
  cases i <;> simp [isNopCell] at h
  rfl

/-- What the slots of a bundle leave in a cell that they run in, whether they touch it or not. -/
theorem cellStep_runs (s : State) (r : Run) (offs : List Nat) (f : Flight) (m i j : Nat) (hr : s.runsIn r f m i j = true) :
    (if (s.cellStep r offs f m i j).touched = true then (s.cellStep r offs f m i j).cell else s.cellAt r m i j)
      = (s.cellThen r f m i j).stepped f (f.selects m i j) m i j (r.arrays.length - 1) (r.executed offs m i j)
          ((f.laneIn (s.cellInput r offs f m i j) m i j 0).slot f.s2) ((f.laneIn (s.cellInput r offs f m i j) m i j 1).slot f.s3) := by
  unfold State.cellStep
  dsimp only
  split
  · rename_i hk
    rw [if_neg (by simp)]
    unfold State.marksCell at hk
    simp only [hr, Bool.true_or, Bool.true_and, Bool.not_eq_true', Bool.or_eq_false_iff, Bool.not_eq_false', Bool.and_eq_true, List.isEmpty_iff] at hk
    obtain ⟨⟨⟨⟨h2, h3⟩, ht⟩, hs⟩, hl⟩ := hk
    have ht' : f.tag = none := by simpa using ht
    have hc : s.cellThen r f m i j = s.cellAt r m i j := by
      unfold State.cellThen
      rw [ht']
      rfl
    rw [slot_nop _ _ h2, slot_nop _ _ h3, hc, stepped_idle _ _ _ _ _ _ _ _ hl ht' hs]
  · rw [if_pos rfl]
    unfold State.slotOut
    rw [if_pos hr, if_pos hr]

/-- No slot faults in a cell of an advance that is made. -/
theorem cellStep_slots (s : State) (r : Run) (offs : List Nat) (f : Flight) (m i j : Nat) (hr : s.runsIn r f m i j = true)
    (hf : (s.cellStep r offs f m i j).fault = none) :
    ((f.laneIn (s.cellInput r offs f m i j) m i j 0).slot f.s2).fault = none
      ∧ ((f.laneIn (s.cellInput r offs f m i j) m i j 1).slot f.s3).fault = none := by
  unfold State.cellStep at hf
  dsimp only at hf
  split at hf
  · rename_i hk
    unfold State.marksCell at hk
    simp only [hr, Bool.true_or, Bool.true_and, Bool.not_eq_true', Bool.or_eq_false_iff, Bool.not_eq_false', Bool.and_eq_true, List.isEmpty_iff] at hk
    obtain ⟨⟨⟨⟨h2, h3⟩, _⟩, _⟩, _⟩ := hk
    rw [slot_nop _ _ h2, slot_nop _ _ h3]
    exact ⟨rfl, rfl⟩
  · simp only [Option.or_eq_none_iff, State.slotOut, hr, if_true, Option.map_eq_none_iff] at hf
    exact ⟨hf.2.2.1, hf.2.2.2⟩

/-! ## An advance -/

theorem foldl_isSome {α β : Type} (f : Option β → α → Option β) (hf : ∀ b c, (f b c).isSome = true) (l : List α) (b : Option β)
    (h : b.isSome = true ∨ l ≠ []) : (l.foldl f b).isSome = true := by
  induction l generalizing b with
  | nil => simpa using h
  | cons x l ih => exact ih _ (.inl (hf b x))

theorem firstCell_none {l : List CellRes} {p : CellRes → Bool} (h : firstCell l p = none) : ∀ c ∈ l, p c = false := by
  intro c hc
  cases hp : p c with
  | false => rfl
  | true =>
    have hs : (firstCell l p).isSome = true := by
      unfold firstCell
      refine foldl_isSome _ (fun b c => ?_) _ _ (.inr (List.ne_nil_of_mem (List.mem_filter.2 ⟨hc, hp⟩)))
      dsimp only
      split
      · rfl
      · split <;> rfl
    rw [h] at hs
    cases hs

/-- The bundles that an advance steps. -/
def steppedFlights (r : Run) (new : Option Flight) : List Flight :=
  r.flights.map (fun (f : Flight) => { f with adv := f.adv + 1 }) ++ (new.map (fun (f : Flight) => { f with adv := 1 })).toList

/-- What an advance does in every cell that its bundles reach. -/
def State.stepsOf (s : State) (r : Run) (new : Option Flight) : List CellRes :=
  (steppedFlights r new).flatMap (fun f => (arrivals (benchOffsets r.arrays 0) f.skew f.adv).map
    (fun c => s.cellStep r (benchOffsets r.arrays 0) f c.1 c.2.1 c.2.2))

/-- An advance that is made commits every cell that it steps, and none of them has a fault. -/
theorem advance_commits {s s1 : State} {r r1 : Run} {new : Option Flight} {blank : Bool} (h : s.advance r new blank = .moved s1 r1) :
    s1 = (s.stepsOf r new).foldl (fun t x => t.commitCell r x) s ∧ ∀ c ∈ s.stepsOf r new, c.fault = none := by
  unfold State.advance at h
  dsimp only at h
  split at h
  · cases h
  · split at h
    · cases h
    · rename_i hf
      injection h with h1 _
      refine ⟨h1.symm, fun c hc => ?_⟩
      have := firstCell_none hf c hc
      simpa using this

theorem mem_stepsOf {s : State} {r : Run} {new : Option Flight} {x : CellRes} (h : x ∈ s.stepsOf r new) :
    ∃ f ∈ steppedFlights r new, ∃ c ∈ arrivals (benchOffsets r.arrays 0) f.skew f.adv,
      x = s.cellStep r (benchOffsets r.arrays 0) f c.1 c.2.1 c.2.2 := by
  obtain ⟨f, hf, h⟩ := List.mem_flatMap.1 h
  obtain ⟨c, hc, rfl⟩ := List.mem_map.1 h
  exact ⟨f, hf, c, hc, rfl⟩

theorem cellStep_key (s : State) (r : Run) (offs : List Nat) (f : Flight) (m i j : Nat) :
    (s.cellStep r offs f m i j).key r = (r.arrays.getD m 0, 32 * i + j) := by
  unfold State.cellStep
  dsimp only
  split <;> rfl

/-- A commit that does not touch a cell holds the cell as it was. -/
theorem cellStep_untouched (s : State) (r : Run) (offs : List Nat) (f : Flight) (m i j : Nat)
    (h : (s.cellStep r offs f m i j).touched ≠ true) : (s.cellStep r offs f m i j).cell = s.cellAt r m i j := by
  unfold State.cellStep at h ⊢
  dsimp only at h ⊢
  split
  · rfl
  · rename_i hk
    rw [if_neg hk] at h
    exact absurd rfl h

/-- A cell in which a bundle runs, where every bundle that the advance steps there is that bundle at that cell: after the advance it is what
the bundle's slots make of it, and neither slot faults. -/
theorem moved_cell {s s1 : State} {r r1 : Run} {new : Option Flight} {blank : Bool} (h : s.advance r new blank = .moved s1 r1) {f : Flight}
    {c : Nat × Nat × Nat} (hf : f ∈ steppedFlights r new) (hc : c ∈ arrivals (benchOffsets r.arrays 0) f.skew f.adv)
    (hz : ∀ g ∈ steppedFlights r new, ∀ e ∈ arrivals (benchOffsets r.arrays 0) g.skew g.adv,
      (r.arrays.getD e.1 0, 32 * e.2.1 + e.2.2) = (r.arrays.getD c.1 0, 32 * c.2.1 + c.2.2) → g = f ∧ e = c)
    (hr : s.runsIn r f c.1 c.2.1 c.2.2 = true) :
    s1.cellAt r c.1 c.2.1 c.2.2 = (s.cellThen r f c.1 c.2.1 c.2.2).stepped f (f.selects c.1 c.2.1 c.2.2) c.1 c.2.1 c.2.2 (r.arrays.length - 1)
        (r.executed (benchOffsets r.arrays 0) c.1 c.2.1 c.2.2)
        ((f.laneIn (s.cellInput r (benchOffsets r.arrays 0) f c.1 c.2.1 c.2.2) c.1 c.2.1 c.2.2 0).slot f.s2)
        ((f.laneIn (s.cellInput r (benchOffsets r.arrays 0) f c.1 c.2.1 c.2.2) c.1 c.2.1 c.2.2 1).slot f.s3)
      ∧ ((f.laneIn (s.cellInput r (benchOffsets r.arrays 0) f c.1 c.2.1 c.2.2) c.1 c.2.1 c.2.2 0).slot f.s2).fault = none
      ∧ ((f.laneIn (s.cellInput r (benchOffsets r.arrays 0) f c.1 c.2.1 c.2.2) c.1 c.2.1 c.2.2 1).slot f.s3).fault = none := by
  obtain ⟨h1, h2⟩ := advance_commits h
  have hx : s.cellStep r (benchOffsets r.arrays 0) f c.1 c.2.1 c.2.2 ∈ s.stepsOf r new :=
    List.mem_flatMap.2 ⟨f, hf, List.mem_map.2 ⟨c, hc, rfl⟩⟩
  refine ⟨?_, cellStep_slots s r _ f _ _ _ hr (h2 _ hx)⟩
  have ha : ∀ x ∈ s.stepsOf r new, x.key r = (r.arrays.getD c.1 0, 32 * c.2.1 + c.2.2) →
      x = s.cellStep r (benchOffsets r.arrays 0) f c.1 c.2.1 c.2.2 := by
    intro x hx hk
    obtain ⟨g, hg, e, he, rfl⟩ := mem_stepsOf hx
    rw [cellStep_key] at hk
    obtain ⟨rfl, rfl⟩ := hz g hg e he hk
    rfl
  rw [← cellStep_runs s r _ f _ _ _ hr, h1]
  unfold State.cellAt
  by_cases ht : (s.cellStep r (benchOffsets r.arrays 0) f c.1 c.2.1 c.2.2).touched = true
  · rw [if_pos ht]
    refine cells_commits r _ _ _ _ s (fun x hx hk _ => ?_) (.inr ⟨_, hx, cellStep_key .., ht⟩)
    rw [ha x hx hk]
  · rw [if_neg ht]
    exact cells_commits r _ _ _ _ s (fun x hx hk hy => absurd (ha x hx hk ▸ hy) ht) (.inl rfl)

/-! ## The end of a step -/

theorem cells_countHold (s : State) (r : Run) (a : Nat) : ((s.countHold r).arr a).cells = (s.arr a).cells := by
  unfold State.countHold
  refine cells_foldl a _ (fun t x => ?_) _ s
  dsimp only
  split <;> rfl

theorem cells_tidy (s : State) (r : Run) (a : Nat) : ((s.tidy r).arr a).cells = (s.arr a).cells := by
  unfold State.tidy
  refine cells_foldl a _ (fun t x => ?_) _ s
  dsimp only
  split
  · rfl
  · rw [arr_setArr]
    split
    · rename_i h; subst h; rfl
    · rfl

theorem cells_settle (s : State) (x y z : Run) (a : Nat) : ((((s.countHold x).tidy y).setRun z).arr a).cells = (s.arr a).cells :=
  (cells_tidy (s.countHold x) y a).trans (cells_countHold s x a)

theorem cellAt_congr {s t : State} {x y : Run} (ha : y.arrays = x.arrays) (h : ∀ a, (t.arr a).cells = (s.arr a).cells) (m i j : Nat) :
    t.cellAt y m i j = s.cellAt x m i j := by
  unfold State.cellAt
  rw [ha, h]

/-- Two cells of a bench with one place are one cell, where the arrays of the bench are different or both lie in its first array. -/
theorem cell_eq {l : List Nat} {x y : Bool} {n k : Nat} {c e : Nat × Nat × Nat} (hc : c ∈ arrivals (benchOffsets l 0) x n)
    (he : e ∈ arrivals (benchOffsets l 0) y k) (hn : l.Nodup ∨ e.1 = c.1)
    (h : (l.getD e.1 0, 32 * e.2.1 + e.2.2) = (l.getD c.1 0, 32 * c.2.1 + c.2.2)) : e = c := by
  obtain ⟨c1, c2, c3⟩ := arrivals_lt hc
  obtain ⟨e1, e2, e3⟩ := arrivals_lt he
  have hm : e.1 = c.1 := hn.elim (fun hn => (key_inj hn e1 c1 e3 c3 h).1) id
  injection h with _ h2
  exact Prod.ext hm (Prod.ext (by omega) (by omega))

/-! ## What an instruction does in the cells -/

theorem holds_slots {f : Flight} {i : Instr} (h : f.holds i) (x y : LaneIn) :
    x.slot f.s2 = (if ownClass i == .cellA then x.slot i else {}) ∧ y.slot f.s3 = (if ownClass i == .cellA then {} else y.slot i) := by
  unfold Flight.holds at h
  split at h
  · rename_i e
    rw [h.1, slot_nop _ _ h.2, e]
    exact ⟨rfl, rfl⟩
  · rename_i e
    have : (ownClass i == .cellA) = false := by simpa using e
    rw [h.2, slot_nop _ _ h.1, this]
    exact ⟨rfl, rfl⟩

/-- A bundle in flight, in the cells that it alone reaches. -/
theorem cellsAfter {s t : State} {r y : Run} {i : Instr} {when : LaneIn → Prop} {out : LaneIn → SlotOut} {new : Option Flight} {blank : Bool}
    (ho : ∀ x, when x → (x.slot i).fault = none → x.slot i = out x) (hn : r.arrays.Nodup) (ha : s.advance r new blank = .moved t y) :
    CellsAfter s r i when out new t := by
  unfold CellsAfter
  dsimp only
  intro before f after hfl hh m k j hre hal hrun hw
  have hst : steppedFlights r new = (before ++ f :: after).map (fun (f : Flight) => { f with adv := f.adv + 1 })
      ++ (new.map (fun (f : Flight) => { f with adv := 1 })).toList := by
    unfold steppedFlights
    rw [hfl]
  have hmem : ({ f with adv := f.adv + 1 } : Flight) ∈ steppedFlights r new := by
    rw [hst]
    exact List.mem_append_left _ (List.mem_map.2 ⟨f, by simp, rfl⟩)
  obtain ⟨h1, h2, h3⟩ := moved_cell ha hmem (c := (m, k, j)) hre (by
    intro y hy e he hk
    rw [hst] at hy
    have hec := cell_eq hre he (.inl hn) hk
    subst hec
    rcases List.mem_append.1 hy with hy | hy
    · obtain ⟨z, hz, rfl⟩ := List.mem_map.1 hy
      rcases List.mem_append.1 hz with hz | hz
      · exact absurd he (hal z (List.mem_append_left _ (List.mem_append_left _ hz))).2
      · rcases List.mem_cons.1 hz with rfl | hz
        · exact ⟨rfl, rfl⟩
        · exact absurd he (hal z (List.mem_append_left _ (List.mem_append_right _ hz))).2
    · cases new with
      | none => cases hy
      | some n =>
        obtain rfl := List.mem_singleton.1 hy
        exact absurd he (hal { n with adv := 0 } (List.mem_append_right _ (List.mem_singleton.2 rfl))).2) hrun
  have hh' : Flight.holds { f with adv := f.adv + 1 } i := hh
  generalize ({ f with adv := f.adv + 1 } : Flight) = g at h1 h2 h3 hw hh' ⊢
  obtain ⟨q2, q3⟩ := holds_slots hh' (g.laneIn (s.cellInput r (benchOffsets r.arrays 0) g m k j) m k j 0)
    (g.laneIn (s.cellInput r (benchOffsets r.arrays 0) g m k j) m k j 1)
  rw [h1]
  unfold cellSlotOf at hw ⊢
  dsimp only at h2 h3 ⊢
  rw [q2] at h2 ⊢
  rw [q3] at h3 ⊢
  by_cases hc : (ownClass i == SlotClass.cellA) = true
  · simp only [if_pos hc] at h2 hw ⊢
    rw [ho _ hw h2]
  · simp only [if_neg hc] at h3 hw ⊢
    rw [ho _ hw h3]

/-- What an advance has done in the cells stays when the step ends. -/
theorem CellsAfter.congr {s t u : State} {r : Run} {i : Instr} {when : LaneIn → Prop} {out : LaneIn → SlotOut} {new : Option Flight}
    (h : CellsAfter s r i when out new t) (hc : ∀ a, (u.arr a).cells = (t.arr a).cells) : CellsAfter s r i when out new u := by
  unfold CellsAfter at *
  dsimp only at *
  intro before f after h1 h2 m k j h3 h4 h5 h6
  rw [cellAt_congr rfl hc m k j]
  exact h before f after h1 h2 m k j h3 h4 h5 h6

theorem cellsGoOn {s : State} {r : Run} {i : Instr} {when : LaneIn → Prop} {out : LaneIn → SlotOut}
    (ho : ∀ x, when x → (x.slot i).fault = none → x.slot i = out x) : CellsGoOn s r i when out := by
  intro hn
  refine ⟨fun new blank t y ha => cellsAfter ho hn ha, fun hs p hp hd hm => ?_⟩
  have hx : exec p.1 s = .next (s.idleAdvance r p.2.2) := by
    simp only [List.mem_cons, List.not_mem_nil, or_false] at hp
    rcases hp with rfl | rfl
    · show s.atBench s.blankAdvance = _
      unfold State.atBench State.blankAdvance
      rw [hs]
      dsimp only at hd ⊢
      rw [if_pos hd]
    · show s.atBench s.drainAdvance = _
      unfold State.atBench State.drainAdvance
      rw [hs]
      dsimp only at hd ⊢
      rw [if_pos hd]
  cases ha : s.advance r Option.none p.2.2 with
  | stalled t => rw [ha] at hm; cases hm
  | fault t a b => rw [ha] at hm; cases hm
  | moved s1 r1 =>
    have hw : r1.phase = r.phase := (congrArg Run.phase (advance_moved ha).2.1 : _)
    obtain ⟨y, hy, he⟩ : ∃ y : Run, y.phase = r.phase ∧ s.idleAdvance r p.2.2 = ((s1.countHold y).tidy y).returned y := by
      refine ⟨if p.2.2 then r1.blankMade else r1, ?_, ?_⟩
      · split
        · exact hw
        · exact hw
      · unfold State.idleAdvance
        rw [ha]
    have hc : CellsAfter s r i when out Option.none ((s1.countHold y).tidy y) :=
      (cellsAfter ho hn ha).congr (fun a => cells_settle s1 y y y a)
    refine ⟨_, _, y, hx, he, hy, hc, fun hp => ?_⟩
    rw [he]
    have hs : ((s1.countHold y).tidy y).returned y = ((s1.countHold y).tidy y).setRun y := by
      unfold State.returned
      cases hq : y.phase with
      | returning pc => exact absurd (hy.symm.trans hq) (hp pc)
      | _ => rfl
    rw [hs]
    exact (cellsAfter ho hn ha).congr (fun a => cells_settle s1 y y y a)

theorem flight_holds (old : Run) {i : Instr} (h : ownClass i = .cellA ∨ ownClass i = .cellB) (w2 w3 : Word) :
    (old.flight (alone i) w2 w3).holds i := by
  unfold Flight.holds
  rcases h with h | h
  · rw [if_pos h]
    show (alone i).s2 = i ∧ isNopCell (alone i).s3 = true
    unfold alone
    rw [h]
    exact ⟨rfl, rfl⟩
  · rw [if_neg (by rw [h]; decide)]
    show isNopCell (alone i).s2 = true ∧ (alone i).s3 = i
    unfold alone
    rw [h]
    exact ⟨rfl, rfl⟩

theorem backEdge_flights (c : Ctl) : c.backEdge.r.flights = c.r.flights := by
  unfold Ctl.backEdge
  dsimp only
  split
  · rfl
  · split
    · rfl
    · split <;> rfl

theorem issued_flights (d : Ctl) (old : Run) (b : Slots) (ho : d.rot = none) : (d.issued old b false).r.flights = d.r.flights := by
  have h1 : d.applyRot = d := by unfold Ctl.applyRot; rw [ho]
  unfold Ctl.issued
  simp only [h1, Bool.false_and, Bool.false_eq_true, if_false]
  split
  · exact backEdge_flights d
  · rfl

/-- A cell instruction alone does in the cells that its bundle reaches what its slot computes there. -/
theorem cellsDo {s : State} {r : Run} {i : Instr} {when : LaneIn → Prop} {out : LaneIn → SlotOut} (hx : exec i s = s.issueAlone i)
    (hc : ownClass i = .cellA ∨ ownClass i = .cellB) (ho : ∀ x, when x → (x.slot i).fault = none → x.slot i = out x) :
    CellsDo s r i when out := by
  refine ⟨fun hr hm => ?_, cellsGoOn ho⟩
  obtain ⟨s1, r1, he, hn⟩ := issueAlone_next hr (attempt_cell hc) rfl hm
  refine ⟨_, hx.trans hn, fun c hcc hal hrun hw => ?_⟩
  obtain ⟨k1, k2, _⟩ := issued_keeps (s.fresh r.foldRecords) r.foldRecords (alone i) rfl
  have hh := flight_holds r.foldRecords hc (cellWords i).1 (cellWords i).2
  unfold Ctl.enters at he
  dsimp only at he
  unfold State.entersAs State.leaving at hrun
  unfold State.cellSees State.entersAs State.leaving at hw ⊢
  unfold State.cellStepped State.entersAs State.leaving
  dsimp only at hrun hw ⊢
  rw [k1, show (s.fresh r.foldRecords).s = s from rfl] at he
  have hfl : (((s.fresh r.foldRecords).issued r.foldRecords (alone i) false).entering r.foldRecords
      (r.foldRecords.flight (alone i) (cellWords i).1 (cellWords i).2) (r.foldRecords.record (alone i))).flights = r.foldRecords.flights :=
    issued_flights (s.fresh r.foldRecords) r.foldRecords (alone i) rfl
  have har : (((s.fresh r.foldRecords).issued r.foldRecords (alone i) false).entering r.foldRecords
      (r.foldRecords.flight (alone i) (cellWords i).1 (cellWords i).2) (r.foldRecords.record (alone i))).arrays = r.foldRecords.arrays :=
    k2.arrays
  have hcell : (s1.settleIssue (((s.fresh r.foldRecords).issued r.foldRecords (alone i) false).entered r.foldRecords r1)).cellAt r.foldRecords
      c.1 c.2.1 c.2.2 = s1.cellAt (((s.fresh r.foldRecords).issued r.foldRecords (alone i) false).entering r.foldRecords
      (r.foldRecords.flight (alone i) (cellWords i).1 (cellWords i).2) (r.foldRecords.record (alone i))) c.1 c.2.1 c.2.2 :=
    cellAt_congr har.symm (fun a => cells_settle _ _ _ _ a) _ _ _
  have hsk : (r.foldRecords.flight (alone i) (cellWords i).1 (cellWords i).2).skew = r.foldRecords.skew := rfl
  generalize (((s.fresh r.foldRecords).issued r.foldRecords (alone i) false).entering r.foldRecords
      (r.foldRecords.flight (alone i) (cellWords i).1 (cellWords i).2) (r.foldRecords.record (alone i))) = e at *
  generalize r.foldRecords.flight (alone i) (cellWords i).1 (cellWords i).2 = f at *
  have hst : steppedFlights e (some f) = r.foldRecords.flights.map (fun (f : Flight) => { f with adv := f.adv + 1 }) ++ [{ f with adv := 1 }] := by
    unfold steppedFlights
    rw [hfl]
    rfl
  have hmem : ({ f with adv := 1 } : Flight) ∈ steppedFlights e (some f) := by
    rw [hst]
    exact List.mem_append_right _ (List.mem_singleton.2 rfl)
  have hre : c ∈ arrivals (benchOffsets r.foldRecords.arrays 0) f.skew 1 := by rw [hsk]; exact hcc
  have hcc' : c ∈ arrivals (benchOffsets e.arrays 0) ({ f with adv := 1 } : Flight).skew ({ f with adv := 1 } : Flight).adv := by
    rw [har]; exact hre
  obtain ⟨h1, h2, h3⟩ := moved_cell he hmem hcc' (by
    intro y hy z hz hk
    rw [har] at hz hk
    rw [hst] at hy
    rcases List.mem_append.1 hy with hy | hy
    · obtain ⟨g, hg, rfl⟩ := List.mem_map.1 hy
      have hec := cell_eq hre hz (.inl (hal g hg).1) hk
      subst hec
      exact absurd hz (hal g hg).2
    · obtain rfl := List.mem_singleton.1 hy
      exact ⟨rfl, cell_eq hre hz (.inr ((first_m hz).trans (first_m hre).symm)) hk⟩) hrun
  have hh' : Flight.holds { f with adv := 1 } i := hh
  generalize ({ f with adv := 1 } : Flight) = g at *
  obtain ⟨q2, q3⟩ := holds_slots hh' (g.laneIn (s.cellInput e (benchOffsets e.arrays 0) g c.1 c.2.1 c.2.2) c.1 c.2.1 c.2.2 0)
    (g.laneIn (s.cellInput e (benchOffsets e.arrays 0) g c.1 c.2.1 c.2.2) c.1 c.2.1 c.2.2 1)
  rw [hcell, h1]
  rw [q2] at h2 ⊢
  rw [q3] at h3 ⊢
  unfold cellSlotOf at hw ⊢
  simp only [har] at *
  by_cases hc : (ownClass i == SlotClass.cellA) = true
  · simp only [if_pos hc] at h2 hw ⊢
    rw [ho _ hw h2]
  · simp only [if_neg hc] at h3 hw ⊢
    rw [ho _ hw h3]

end Sys2Proof.Machine
end

