-- ==== Sys2Proof/Laws/Memory.lean ====
section
/-!
SUPPORT. Every memory operation keeps the canonical form of memory, and reset memory has it.
-/

namespace Sys2Proof.Machine

/-- The parts of the canonical form. -/
theorem wf_iff (s : State) : Memory.wf s = true ↔
    tabWf Config.powerOnByte s.mem = true ∧ tabSorted s.llc = true ∧ tabSorted s.unveiled = true
      ∧ (s.arrays.all fun e => tabWf 0 e.2.store) = true ∧ tabWf 0 s.hostMem = true := by
  simp [Memory.wf, and_assoc]

theorem wf_reset : Memory.wf State.reset = true := by decide

/-- An operation that leaves the tables of bytes alone keeps the form. -/
theorem wf_of_eq {s t : State} (h : Memory.wf s = true) (h1 : t.mem = s.mem := by rfl) (h2 : t.llc = s.llc := by rfl)
    (h3 : t.unveiled = s.unveiled := by rfl) (h4 : t.arrays = s.arrays := by rfl) (h5 : t.hostMem = s.hostMem := by rfl) : Memory.wf t = true := by
  simpa [Memory.wf, h1, h2, h3, h4, h5] using h

/-- A fold of operations that keep the form keeps it. -/
theorem wf_foldl {α : Type} (f : State → α → State) (hf : ∀ t x, Memory.wf t = true → Memory.wf (f t x) = true) :
    ∀ (l : List α) (s : State), Memory.wf s = true → Memory.wf (l.foldl f s) = true
  | [], _, h => h
  | x :: l, s, h => wf_foldl f hf l (f s x) (hf s x h)

/-- The same for operations that carry a second result. -/
theorem wf_foldl_fst {α β : Type} (f : State × β → α → State × β) (hf : ∀ t x, Memory.wf t.1 = true → Memory.wf (f t x).1 = true) :
    ∀ (l : List α) (s : State × β), Memory.wf s.1 = true → Memory.wf (l.foldl f s).1 = true
  | [], _, h => h
  | x :: l, s, h => wf_foldl_fst f hf l (f s x) (hf s x h)

/-- Of two states that have the form, either. -/
theorem wf_ite {c : Prop} [Decidable c] {s t : State} (hs : Memory.wf s = true) (ht : Memory.wf t = true) :
    Memory.wf (if c then s else t) = true := by split <;> assumption

/-! ## Arrays and dies -/

theorem arr_store_wf (s : State) (a : Nat) (h : Memory.wf s = true) : tabWf 0 (s.arr a).store = true := by
  obtain ⟨_, _, _, h, _⟩ := (wf_iff s).1 h
  unfold State.arr tabGet
  generalize s.arrays = l at h
  induction l with
  | nil => rfl
  | cons e l ih =>
    obtain ⟨b, x⟩ := e
    simp only [List.all_cons, Bool.and_eq_true] at h
    unfold tabFind
    split
    · exact h.1
    · exact ih h.2

/-- An array whose store has the form may replace another. -/
theorem wf_setArr (s : State) (a : Nat) (x : ArrayState) (h : Memory.wf s = true) (hx : tabWf 0 x.store = true) :
    Memory.wf (s.setArr a x) = true := by
  obtain ⟨h1, h2, h3, h4, h5⟩ := (wf_iff s).1 h
  exact (wf_iff _).2 ⟨h1, h2, h3, tabAll_put _ _ _ _ h4 hx, h5⟩

/-- An array that keeps its store may replace it. -/
theorem wf_setArr_same (s : State) (a : Nat) (x : ArrayState) (h : Memory.wf s = true) (hx : x.store = (s.arr a).store) :
    Memory.wf (s.setArr a x) = true := wf_setArr s a x h (by rw [hx]; exact arr_store_wf s a h)

theorem wf_setDie (s : State) (d : Nat) (x : Die) (h : Memory.wf s = true) : Memory.wf (s.setDie d x) = true := wf_of_eq h

theorem wf_setRun (s : State) (r : Run) (h : Memory.wf s = true) : Memory.wf (s.setRun r) = true := wf_of_eq h

theorem wf_putL1 (s : State) (a line : Nat) (l : Line) (h : Memory.wf s = true) : Memory.wf (s.putL1 a line l) = true :=
  wf_setArr_same _ _ _ h rfl

theorem wf_putL2 (s : State) (d line : Nat) (l : Line) (h : Memory.wf s = true) : Memory.wf (s.putL2 d line l) = true := wf_setDie _ _ _ h

/-- A face that changes leaves the store alone. -/
@[simp] theorem setFace_store (x : ArrayState) (side : Nat) (f : Face) : (x.setFace side f).store = x.store := by
  unfold ArrayState.setFace
  split <;> rfl

/-! ## HBM and the LLC -/

theorem wf_setHbm (s : State) (k : Nat) (b : Byte) (h : Memory.wf s = true) : Memory.wf (s.setHbm k b) = true := by
  obtain ⟨h1, h2, h3, h4, h5⟩ := (wf_iff s).1 h
  unfold State.setHbm
  split
  · exact (wf_iff _).2 ⟨h1, h2, tabSorted_put _ _ _ h3, h4, h5⟩
  · exact (wf_iff _).2 ⟨tabWf_set _ _ _ _ h1, h2, h3, h4, h5⟩

theorem wf_putPod (s : State) (k : Nat) (b : Byte) (h : Memory.wf s = true) : Memory.wf (s.putPod k b) = true := by
  obtain ⟨h1, h2, h3, h4, h5⟩ := (wf_iff s).1 h
  exact (wf_iff _).2 ⟨h1, tabSorted_put _ _ _ h2, h3, h4, h5⟩

theorem wf_eraseLlc (s : State) (k : Nat) (h : Memory.wf s = true) : Memory.wf { s with llc := tabErase s.llc k } = true := by
  obtain ⟨h1, h2, h3, h4, h5⟩ := (wf_iff s).1 h
  exact (wf_iff _).2 ⟨h1, tabSorted_erase _ _ h2, h3, h4, h5⟩

theorem wf_request (s : State) (k : Nat) (b : BitVec 4) (c w : Nat) (h : Memory.wf s = true) : Memory.wf (s.request k b c w) = true := by
  unfold State.request
  exact wf_ite (wf_of_eq h) h

theorem wf_cured (s : State) (g : Nat) (h : Memory.wf s = true) : Memory.wf (s.cured g) = true := wf_of_eq h

theorem wf_recodeTo (s : State) (w : Option KeyTag) (g : Nat) (h : Memory.wf s = true) : Memory.wf (s.recodeTo w g) = true := by
  unfold State.recodeTo
  have h1 := wf_foldl (fun (t : State) k => t.putPod k (s.podByteAs w k)) (fun _ _ ht => wf_putPod _ _ _ ht) (span (32 * g) 32) s h
  generalize List.foldl _ s _ = s2 at h1 ⊢
  exact wf_ite h (wf_of_eq h1)

theorem wf_recode (s : State) (e : Option Nat) (g : Nat) (h : Memory.wf s = true) : Memory.wf (s.recode e g) = true := wf_recodeTo s _ g h

theorem wf_settleTag (s : State) (g : Nat) (h : Memory.wf s = true) : Memory.wf (s.settleTag g) = true := by
  unfold State.settleTag
  split
  · exact h
  · exact wf_of_eq h

theorem wf_cleanGran (s : State) (g : Nat) (h : Memory.wf s = true) : Memory.wf (s.cleanGran g) = true := by
  unfold State.cleanGran
  have h1 := wf_foldl
    (fun (t : State) k => match tabFind t.llc k with | some b => ({ t with llc := tabErase t.llc k } : State).setHbm k b | none => t)
    (fun t k ht => by
      split
      · exact wf_setHbm _ _ _ (wf_eraseLlc _ _ ht)
      · exact ht) (span (32 * g) 32) s h
  generalize List.foldl _ s _ = s2 at h1 ⊢
  exact wf_ite h (wf_settleTag _ _ (wf_of_eq h1))

theorem wf_cleanLlc (s : State) (line : Nat) (h : Memory.wf s = true) : Memory.wf (s.cleanLlc line) = true := by
  unfold State.cleanLlc
  exact wf_cleanGran _ _ (wf_cleanGran _ _ (wf_ite (wf_request _ _ _ _ _ h) h))

theorem wf_dropLlc (s : State) (line : Nat) (h : Memory.wf s = true) : Memory.wf (s.dropLlc line) = true := wf_of_eq (wf_cleanLlc s line h)

theorem wf_podBring (s : State) (e : Option Nat) (line : Nat) (want : BitVec 4) (c w : Nat) (h : Memory.wf s = true) :
    Memory.wf (s.podBring e line want c w) = true := by
  unfold State.podBring
  exact wf_ite h (wf_ite (wf_of_eq (wf_request s (64 * line) want c w h)) (wf_request _ _ _ _ _ h))

theorem wf_podTouch (s : State) (e : Option Nat) (line c w : Nat) (h : Memory.wf s = true) : Memory.wf (s.podTouch e line c w) = true :=
  wf_podBring _ _ _ _ _ _ h

theorem wf_podReach (s : State) (e : Option Nat) (k n : Nat) (fine : Bool) (c w : Nat) (h : Memory.wf s = true) :
    Memory.wf (s.podReach e k n fine c w) = true := by
  unfold State.podReach
  exact wf_ite (wf_foldl _ (fun _ _ ht => wf_podBring _ _ _ _ _ _ ht) _ _ h) (wf_podTouch _ _ _ _ _ h)

theorem wf_podDone (s : State) (line : Nat) (h : Memory.wf s = true) : Memory.wf (s.podDone line) = true := by
  unfold State.podDone
  exact wf_ite h (wf_cleanLlc _ _ h)

theorem wf_repack (s : State) (c : Bool) (b : Nat) (h : Memory.wf s = true) : Memory.wf (s.repack c b) = true := by
  unfold State.repack
  split <;> exact wf_of_eq h

theorem wf_podWriteGran (s : State) (e : Option Nat) (k : Nat) (bs : List Byte) (h : Memory.wf s = true) :
    Memory.wf (s.podWriteGran e k bs).1 = true := by
  unfold State.podWriteGran
  split
  · exact h
  · dsimp only
    split
    · exact h
    · have h1 := wf_foldl (fun (t : State) (i : Nat) => t.putPod (k + i) (bs.getD i 0)) (fun _ _ ht => wf_putPod _ _ _ ht)
        (List.range bs.length) _ (wf_recode s e (k / 32) h)
      exact wf_ite (wf_cured _ _ h1) h1

theorem wf_podWrite (s : State) (e : Option Nat) (k : Nat) (bs : List Byte) (h : Memory.wf s = true) :
    Memory.wf (s.podWrite e k bs).1 = true := by
  unfold State.podWrite
  refine wf_foldl_fst _ (fun t c ht => ?_) _ _ h
  exact wf_podWriteGran _ _ _ _ ht

/-! ## Write-backs -/

theorem wf_halfToPod (x : State × BitVec 2) (line : Nat) (l : Line) (n : Nat) (h : Memory.wf x.1 = true) :
    Memory.wf (State.halfToPod x line l n).1 = true := by
  unfold State.halfToPod
  dsimp only
  split
  · exact h
  · split
    · exact wf_of_eq h
    · exact wf_foldl _ (fun _ _ ht => wf_ite (wf_putPod _ _ _ ht) ht) _ _ (wf_recodeTo _ _ _ h)

theorem wf_lineToPod (s : State) (line : Nat) (l : Line) (h : Memory.wf s = true) : Memory.wf (s.lineToPod line l).1 = true := by
  unfold State.lineToPod
  split
  · exact h
  · exact wf_podDone _ _ (wf_repack _ _ _ (wf_halfToPod _ _ _ _ (wf_halfToPod _ _ _ _ (wf_podTouch _ _ _ _ _ h))))

theorem wf_storeError (s : State) (o : Owner) (u n : Nat) (h : Memory.wf s = true) : Memory.wf (s.storeError o u n) = true := by
  unfold State.storeError
  dsimp only
  split
  · split
    · exact wf_ite (wf_setRun _ _ h) h
    · exact h
  · exact wf_ite (wf_setArr_same _ _ _ h (by simp)) h

theorem wf_reportHalves (s : State) (line : Nat) (l : Line) (b : BitVec 2) (h : Memory.wf s = true) : Memory.wf (s.reportHalves line l b) = true := by
  unfold State.reportHalves
  split
  · exact h
  · have h1 := wf_ite (c := bit b 0 = true) (wf_storeError s ‹Owner› (s.memUnit (64 * line)) 0 h) h
    exact wf_ite (wf_storeError _ _ _ _ h1) h1

theorem wf_cleanL2 (s : State) (d line : Nat) (h : Memory.wf s = true) : Memory.wf (s.cleanL2 d line) = true := by
  unfold State.cleanL2
  split
  · exact h
  · split
    · exact h
    · exact wf_reportHalves _ _ _ _ (wf_setDie _ _ _ (wf_lineToPod _ _ _ h))

theorem wf_dropL2 (s : State) (d line : Nat) (h : Memory.wf s = true) : Memory.wf (s.dropL2 d line) = true :=
  wf_setDie _ _ _ (wf_cleanL2 s d line h)

theorem wf_withL2 (s : State) (d : Nat) (e : Option Nat) (line c w : Nat) (h : Memory.wf s = true) :
    Memory.wf (s.withL2 d e line c w).2 = true := by
  have hf : ∀ t : State, Memory.wf t = true →
      Memory.wf (if (t.podTouch e line c w).roomL2 d line = true then (t.podTouch e line c w).putL2 d line ((t.podTouch e line c w).podFill e line)
        else t.podTouch e line c w) = true :=
    fun t ht => wf_ite (wf_putL2 _ _ _ _ (wf_podTouch _ _ _ _ _ ht)) (wf_podTouch _ _ _ _ _ ht)
  unfold State.withL2
  dsimp only
  split
  · split
    · exact h
    · exact hf _ (wf_dropL2 _ _ _ h)
  · exact hf _ h

theorem wf_cleanL1 (s : State) (a line : Nat) (h : Memory.wf s = true) : Memory.wf (s.cleanL1 a line) = true := by
  unfold State.cleanL1
  split
  · exact h
  · rename_i l _
    split
    · exact h
    · have h1 := wf_withL2 s (dieOf a) l.slot line 3 whoNone h
      dsimp only
      split
      · exact wf_reportHalves _ _ _ _ (wf_setArr_same _ _ _ (wf_lineToPod _ _ _ (wf_dropL2 _ _ _ h)) rfl)
      · split
        · exact wf_reportHalves _ _ _ _ (wf_setArr_same _ _ _ (wf_putL2 _ _ _ _ h1) rfl)
        · exact wf_reportHalves _ _ _ _ (wf_setArr_same _ _ _ (wf_lineToPod _ _ _ h1) rfl)

theorem wf_dropL1 (s : State) (a line : Nat) (h : Memory.wf s = true) : Memory.wf (s.dropL1 a line) = true :=
  wf_setArr_same _ _ _ (wf_cleanL1 s a line h) rfl

theorem wf_withL1 (s : State) (a : Nat) (e : Option Nat) (line c w : Nat) (h : Memory.wf s = true) :
    Memory.wf (s.withL1 a e line c w).2 = true := by
  unfold State.withL1
  dsimp only
  have hf : ∀ (t : State) (l : Line), Memory.wf t = true → Memory.wf (if t.roomL1 a = true then t.putL1 a line l else t) = true :=
    fun t l ht => wf_ite (wf_putL1 _ _ _ _ ht) ht
  split
  · split
    · exact h
    · exact hf _ _ (wf_withL2 _ _ _ _ _ _ (wf_dropL1 _ _ _ h))
  · exact hf _ _ (wf_withL2 _ _ _ _ _ _ h)

theorem wf_past (s : State) (a line : Nat) (h : Memory.wf s = true) : Memory.wf (s.past a line) = true :=
  wf_ite h (wf_dropL2 _ _ _ (wf_dropL1 _ _ _ h))

/-! ## Accesses -/

theorem wf_storeWrite (s : State) (a f : Nat) (bs : List Byte) (h : Memory.wf s = true) : Memory.wf (s.storeWrite a f bs).1 = true := by
  unfold State.storeWrite
  refine wf_foldl_fst _ (fun t c ht => ?_) _ _ h
  dsimp only
  split
  · exact ht
  · refine wf_setArr _ _ _ ht ?_
    dsimp only
    generalize List.range c.2 = l
    have h0 := arr_store_wf t.1 a ht
    revert h0
    generalize (t.1.arr a).store = st
    induction l generalizing st with
    | nil => exact id
    | cons i l ih => exact fun h0 => ih _ (tabWf_set _ _ _ _ h0)

/-- A read keeps the form: it may fill lines and queue requests. -/
theorem wf_read (s : State) (ag : Agent) (acc : Access) (n : Nat) (h : Memory.wf s = true) : Memory.wf (s.read ag acc n).st = true := by
  unfold State.read
  split
  · exact h
  · dsimp only
    split
    · split
      · exact wf_podReach _ _ _ _ _ _ _ (wf_past _ _ _ h)
      · exact wf_withL1 _ _ _ _ _ _ h
    · split
      · split
        · exact h
        · exact wf_podReach _ _ _ _ _ _ _ (wf_dropL2 _ _ _ h)
      · exact wf_podReach _ _ _ _ _ _ _ h

/-- A write keeps the form. -/
theorem wf_write (s : State) (ag : Agent) (acc : Access) (bs : List Byte) (h : Memory.wf s = true) : Memory.wf (s.write ag acc bs).1 = true := by
  unfold State.write
  split
  · exact wf_storeWrite _ _ _ _ h
  · rename_i key ord cache enc cmp
    dsimp only
    have hp : ∀ t : State, Memory.wf t = true → Memory.wf ((State.repack (t.podWrite enc key bs).1 cmp (key / 2048)).podDone (key / 64)) = true :=
      fun t ht => wf_podDone _ _ (wf_repack _ _ _ (wf_podWrite _ _ _ _ ht))
    have hd : ∀ (t : State) (f : Bool) (c w : Nat), Memory.wf t = true →
        Memory.wf ((State.repack ((t.podReach enc key bs.length f c w).podWrite enc key bs).1 cmp (key / 2048)).podDone (key / 64)) = true :=
      fun t f c w ht => hp _ (wf_podReach _ _ _ _ _ _ _ ht)
    split
    · exact h
    · split
      · split
        · exact hd _ _ _ _ (wf_past _ _ _ h)
        · rename_i a who _
          have h1 := wf_withL1 s a enc (key / 64) (whoClass who) who h
          split
          · exact h1
          · split
            · exact wf_putL1 _ _ _ _ h1
            · exact wf_putL2 _ _ _ _ h1
            · exact hp _ h1
      · rename_i d who cls fine
        split
        · exact hd _ _ _ _ h
        · split
          · exact hd _ _ _ _ (wf_dropL2 _ _ _ h)
          · split
            · exact hd _ _ _ _ (wf_dropL2 _ _ _ h)
            · exact wf_putL2 _ _ _ _ (hd _ _ _ _ h)

theorem wf_own (s : State) (a : Nat) (acc : Access) (o : Owner) (h : Memory.wf s = true) : Memory.wf (s.own a acc o) = true := by
  unfold State.own
  split
  · split
    · exact wf_putL1 _ _ _ _ h
    · exact wf_putL2 _ _ _ _ h
    · exact h
  · exact h

theorem wf_mark (s : State) (acc : Access) (h : Memory.wf s = true) : Memory.wf (s.mark acc) = true := by
  unfold State.mark
  split
  · exact wf_setArr_same _ _ _ h rfl
  · exact wf_of_eq h

theorem wf_attach (s : State) (p : Nat) (l : List Nat) (h : Memory.wf s = true) : Memory.wf (s.attach p l) = true := by
  unfold State.attach
  exact wf_ite h (wf_of_eq h)

/-! ## Releases and acquires -/

theorem wf_cleanBelow (s : State) (a scope line : Nat) (h : Memory.wf s = true) : Memory.wf (s.cleanBelow a scope line) = true := by
  unfold State.cleanBelow
  have h1 := wf_ite (c := belowL1 scope = true) (wf_cleanL1 s a line h) h
  exact wf_ite (wf_cleanL2 _ _ _ h1) h1

theorem wf_dropBelow (s : State) (a scope line : Nat) (h : Memory.wf s = true) : Memory.wf (s.dropBelow a scope line) = true := by
  unfold State.dropBelow
  have h1 := wf_ite (c := belowL1 scope = true) (wf_dropL1 s a line h) h
  exact wf_ite (wf_dropL2 _ _ _ h1) h1

theorem wf_releaseLines (s : State) (a scope : Nat) (l : List Nat) (h : Memory.wf s = true) : Memory.wf (s.releaseLines a scope l) = true :=
  wf_foldl _ (fun _ _ ht => wf_cleanBelow _ _ _ _ ht) _ _ h

theorem wf_acquireLines (s : State) (a scope : Nat) (l : List Nat) (h : Memory.wf s = true) : Memory.wf (s.acquireLines a scope l) = true :=
  wf_foldl _ (fun _ _ ht => wf_dropBelow _ _ _ _ ht) _ _ h

theorem wf_forkLines (s : State) (head : Nat) (arrays : List Nat) (scope : Nat) (l : List Nat) (h : Memory.wf s = true) :
    Memory.wf (s.forkLines head arrays scope l) = true :=
  wf_foldl _ (fun _ _ ht => wf_ite ht (wf_acquireLines _ _ _ _ ht)) _ _ h

theorem wf_fenceSt (s : State) (a scope : Nat) (w : Tab (BitVec 6)) (h : Memory.wf s = true) : Memory.wf (s.fenceSt a scope w) = true :=
  wf_releaseLines _ _ _ _ h

theorem wf_fenceLd (s : State) (a scope : Nat) (h : Memory.wf s = true) : Memory.wf (s.fenceLd a scope) = true := by
  unfold State.fenceLd
  have h1 := wf_ite (c := belowL1 scope = true)
    (wf_foldl (fun (t : State) l => t.dropL1 a l) (fun _ _ ht => wf_dropL1 _ _ _ ht) ((s.arr a).l1.map (·.1)) s h) h
  exact wf_ite (wf_foldl _ (fun _ _ ht => wf_dropL2 _ _ _ ht) _ _ h1) h1

/-! ## The host, power and reset -/

/-- Host memory keeps its form. -/
theorem wf_hostPut (s : State) (bus : Nat) (bs : List Byte) (h : Memory.wf s = true) : Memory.wf (s.hostPut bus bs) = true := by
  obtain ⟨h1, h2, h3, h4, h5⟩ := (wf_iff s).1 h
  refine (wf_iff _).2 ⟨h1, h2, h3, h4, ?_⟩
  unfold State.hostPut
  dsimp only
  generalize bs.zipIdx = l
  revert h5
  generalize s.hostMem = m
  induction l generalizing m with
  | nil => exact id
  | cons e l ih => exact fun h0 => ih _ (tabWf_set _ _ _ _ h0)

theorem wf_cleanLines (s : State) (l : List Nat) (h : Memory.wf s = true) : Memory.wf (s.cleanLines l) = true :=
  wf_foldl _ (fun _ _ ht => wf_cleanLlc _ _ ht) _ _ h

theorem wf_apertureGran (s : State) (k : Nat) (bs : List Byte) (h : Memory.wf s = true) : Memory.wf (s.apertureGran k bs) = true := by
  have hp : ∀ (f : State → Nat → State), (∀ t i, Memory.wf t = true → Memory.wf (f t i) = true) →
      ∀ t, (List.range 32).foldl f s = t → Memory.wf t = true := fun f hf t e => e ▸ wf_foldl f hf _ _ h
  unfold State.apertureGran
  dsimp only
  generalize e : List.foldl _ s _ = s1
  have h1 := hp _ (fun _ _ ht => wf_setHbm _ _ _ ht) s1 e
  exact wf_ite (wf_of_eq h) (wf_ite (wf_cured _ _ (wf_of_eq h1)) (wf_of_eq h1))

theorem wf_askLines (s : State) (ls : List Nat) (h : Memory.wf s = true) : Memory.wf (s.askLines ls) = true :=
  wf_foldl _ (fun _ _ ht => wf_request _ _ _ _ _ ht) _ _ h

theorem wf_apertureWrite (s : State) (p : Nat) (bs : List Byte) (h : Memory.wf s = true) : Memory.wf (s.apertureWrite p bs) = true := by
  unfold State.apertureWrite
  dsimp only
  refine wf_foldl _ (fun t c ht => wf_apertureGran _ _ _ (wf_of_eq ht)) _ _ ?_
  exact wf_of_eq (wf_askLines _ (linesOf p (bs.take (Config.hbmBytes - p)).length) (wf_foldl _ (fun _ _ ht => wf_dropLlc _ _ ht) _ _ h))

theorem wf_apertureRead (s : State) (p n : Nat) (h : Memory.wf s = true) : Memory.wf (s.apertureRead p n) = true :=
  wf_of_eq (wf_askLines _ (linesOf p (min n (Config.hbmBytes - p))) (wf_cleanLines s (linesOf p (min n (Config.hbmBytes - p))) h))

/-- The image of a task covers what HBM held there. -/
theorem wf_writeVeil (s : State) (v : Veil) (h : Memory.wf s = true) : Memory.wf (s.writeVeil v) = true := by
  obtain ⟨h1, h2, h3, h4, h5⟩ := (wf_iff s).1 h
  refine (wf_iff _).2 ⟨h1, tabSorted_filter _ _ h2, tabSorted_filter _ _ h3, h4, h5⟩

theorem wf_settleRemote (s : State) (h : Memory.wf s = true) : Memory.wf s.settleRemote = true :=
  wf_foldl _ (fun _ _ ht => wf_cleanGran _ _ ht) _ _ h

/-- Power loss and reset leave memory in its form. -/
theorem wf_loseMemory (s : State) (h : Memory.wf s = true) : Memory.wf s.loseMemory = true := by
  obtain ⟨h1, _, h3, h4, h5⟩ := (wf_iff _).1 (wf_settleRemote s h)
  exact (wf_iff _).2 ⟨tabWf_filter _ _ _ h1, rfl, tabSorted_filter _ _ h3, tabAll_filter _ _ _ h4, h5⟩

theorem wf_rebooted (s : State) (h : Memory.wf s = true) : Memory.wf s.rebooted = true := by
  obtain ⟨h1, _, h3, h4, _⟩ := (wf_iff _).1 (wf_loseMemory s h)
  exact (wf_iff _).2 ⟨h1, rfl, h3, h4, ((wf_iff s).1 h).2.2.2.2⟩

/-! ## Reads after writes -/

/-- A byte put at the .pod point is read there. -/
@[simp] theorem podByte_putPod_self (s : State) (k : Nat) (b : Byte) : (s.putPod k b).podByte k = b := by
  simp [State.podByte, State.putPod]

/-- A byte put elsewhere is not. -/
theorem podByte_putPod_ne (s : State) (k j : Nat) (b : Byte) (h : j ≠ k) : (s.putPod k b).podByte j = s.podByte j := by
  simp [State.podByte, State.putPod, State.hbmByte, State.veilOf, tabFind_put_ne _ _ _ _ h]

/-- A byte written into HBM is read there, whatever covered it. -/
@[simp] theorem hbmByte_setHbm_self (s : State) (k : Nat) (b : Byte) : (s.setHbm k b).hbmByte k = b := by
  cases hv : s.veilOf (k / 32) with
  | some v =>
    have hw : ({ s with unveiled := tabPut s.unveiled k b } : State).veilOf (k / 32) = some v := hv
    simp [State.setHbm, hv, State.hbmByte, hw, tabGet]
  | none =>
    have hw : ({ s with mem := tabSet Config.powerOnByte s.mem k b } : State).veilOf (k / 32) = none := hv
    simp [State.setHbm, hv, State.hbmByte, hw, tabGet_set_self]

/-- What a request, a change of a face or of a sequencer leaves at the .pod point: the same bytes. -/
theorem podByte_of_eq {s t : State} (h1 : t.llc = s.llc) (h2 : t.mem = s.mem) (h3 : t.veil = s.veil) (h4 : t.unveiled = s.unveiled) (k : Nat) :
    t.podByte k = s.podByte k := by
  simp [State.podByte, State.hbmByte, State.veilOf, h1, h2, h3, h4]

end Sys2Proof.Machine
end

