-- ==== Sys2Proof/Laws/PerInstr.lean ====
section
/-!
SUPPORT. Statements about every instruction: a well-formed slot instruction decodes from the word that encodes it (05_encoding.md R51, R56
to R64).
-/

namespace Sys2Proof.Laws.RoundTrip

open Sys2Proof.Machine

set_option Elab.async false
set_option linter.unusedSimpArgs false

/-- The instruction is what its own word decodes to, in every class that holds it. -/
def Statement (i : Instr) : Prop := ∀ c, wellFormed c i = true → (encode i).bind (decodeSlot c) = some i

/-! ## Fields of a word written as a chain of fields -/

theorem cat_hi {v w lo len : Nat} (x : BitVec v) (y : BitVec w) (h : w ≤ lo) :
    (x ++ y).extractLsb' lo len = x.extractLsb' (lo - w) len := BitVec.extractLsb'_append_eq_of_le h

theorem cat_lo {v w lo len : Nat} (x : BitVec v) (y : BitVec w) (h : lo + len ≤ w) :
    (x ++ y).extractLsb' lo len = y.extractLsb' lo len := BitVec.extractLsb'_append_eq_of_add_le h

theorem full {w : Nat} (x : BitVec w) : x.extractLsb' 0 w = x := BitVec.extractLsb'_eq_self

theorem flag (b : Bool) : (BitVec.ofBool b).getLsbD 0 = b := by cases b <;> rfl

theorem bit_hi {v w i : Nat} (x : BitVec v) (y : BitVec w) (h : w ≤ i) : (x ++ y).getLsbD i = x.getLsbD (i - w) := by
  rw [BitVec.getLsbD_append, if_neg (Nat.not_lt.2 h)]

theorem bit_lo {v w i : Nat} (x : BitVec v) (y : BitVec w) (h : i < w) : (x ++ y).getLsbD i = y.getLsbD i := by
  rw [BitVec.getLsbD_append, if_pos h]

/-! ## The class of a well-formed instruction -/

theorem ok_of {c : SlotClass} {i : Instr} (h : wellFormed c i = true) : fieldsOk i = true := by
  simp only [wellFormed, Bool.and_eq_true] at h
  exact h.2

theorem one_class {c d : SlotClass} {i : Instr} (e : slotClasses i = [d]) (h : wellFormed c i = true) : d = c := by
  simp only [wellFormed, e, Bool.and_eq_true, List.contains_eq_mem, List.mem_singleton, decide_eq_true_eq] at h
  exact h.1.symm

theorem two_classes {c d e : SlotClass} {i : Instr} (he : slotClasses i = [d, e]) (h : wellFormed c i = true) : d = c ∨ e = c := by
  simp only [wellFormed, he, Bool.and_eq_true, List.contains_eq_mem, List.mem_cons, List.not_mem_nil, or_false, decide_eq_true_eq] at h
  exact h.1.imp Eq.symm Eq.symm

theorem no_class (i : Instr) (e : slotClasses i = []) : Statement i := by
  intro c h
  simp [wellFormed, e] at h

theorem of_raw {c : SlotClass} {i : Instr} {w : Word} (h : wellFormed c i = true) (e : encode i = some w)
    (d : decodeRaw c w = some i) : (encode i).bind (decodeSlot c) = some i := by
  simp [e, decodeSlot, d, ok_of h]

/-! ## The fields of the words, by layout -/

theorem shape0 (x0 : BitVec 5) (x1 : BitVec 1) (x2 : BitVec 3) (x3 : BitVec 23) :
    (x0 ++ x1 ++ x2 ++ x3 : Word).extractLsb' 27 5 = x0 ∧
    (x0 ++ x1 ++ x2 ++ x3 : Word).extractLsb' 26 1 = x1 ∧
    (x0 ++ x1 ++ x2 ++ x3 : Word).getLsbD 26 = x1.getLsbD 0 ∧
    (x0 ++ x1 ++ x2 ++ x3 : Word).extractLsb' 23 3 = x2 ∧
    (x0 ++ x1 ++ x2 ++ x3 : Word).extractLsb' 0 23 = x3 :=
  ⟨by rw [cat_hi _ _ (by decide), cat_hi _ _ (by decide), cat_hi _ _ (by decide)]; exact full _,
    by rw [cat_hi _ _ (by decide), cat_hi _ _ (by decide), cat_lo _ _ (by decide)]; exact full _,
    by rw [bit_hi _ _ (by decide), bit_hi _ _ (by decide), bit_lo _ _ (by decide)],
    by rw [cat_hi _ _ (by decide), cat_lo _ _ (by decide)]; exact full _,
    by rw [cat_lo _ _ (by decide)]; exact full _⟩

theorem shape1 (x0 : BitVec 5) (x1 : BitVec 1) (x2 : BitVec 3) (x3 : BitVec 3) (x4 : BitVec 20) :
    (x0 ++ x1 ++ x2 ++ x3 ++ x4 : Word).extractLsb' 27 5 = x0 ∧
    (x0 ++ x1 ++ x2 ++ x3 ++ x4 : Word).extractLsb' 26 1 = x1 ∧
    (x0 ++ x1 ++ x2 ++ x3 ++ x4 : Word).getLsbD 26 = x1.getLsbD 0 ∧
    (x0 ++ x1 ++ x2 ++ x3 ++ x4 : Word).extractLsb' 23 3 = x2 ∧
    (x0 ++ x1 ++ x2 ++ x3 ++ x4 : Word).extractLsb' 20 3 = x3 ∧
    (x0 ++ x1 ++ x2 ++ x3 ++ x4 : Word).extractLsb' 0 20 = x4 :=
  ⟨by rw [cat_hi _ _ (by decide), cat_hi _ _ (by decide), cat_hi _ _ (by decide), cat_hi _ _ (by decide)]; exact full _,
    by rw [cat_hi _ _ (by decide), cat_hi _ _ (by decide), cat_hi _ _ (by decide), cat_lo _ _ (by decide)]; exact full _,
    by rw [bit_hi _ _ (by decide), bit_hi _ _ (by decide), bit_hi _ _ (by decide), bit_lo _ _ (by decide)],
    by rw [cat_hi _ _ (by decide), cat_hi _ _ (by decide), cat_lo _ _ (by decide)]; exact full _,
    by rw [cat_hi _ _ (by decide), cat_lo _ _ (by decide)]; exact full _,
    by rw [cat_lo _ _ (by decide)]; exact full _⟩

theorem shape2 (x0 : BitVec 5) (x1 : BitVec 1) (x2 : BitVec 3) (x3 : BitVec 6) (x4 : BitVec 17) :
    (x0 ++ x1 ++ x2 ++ x3 ++ x4 : Word).extractLsb' 27 5 = x0 ∧
    (x0 ++ x1 ++ x2 ++ x3 ++ x4 : Word).extractLsb' 26 1 = x1 ∧
    (x0 ++ x1 ++ x2 ++ x3 ++ x4 : Word).getLsbD 26 = x1.getLsbD 0 ∧
    (x0 ++ x1 ++ x2 ++ x3 ++ x4 : Word).extractLsb' 23 3 = x2 ∧
    (x0 ++ x1 ++ x2 ++ x3 ++ x4 : Word).extractLsb' 17 6 = x3 ∧
    (x0 ++ x1 ++ x2 ++ x3 ++ x4 : Word).extractLsb' 0 17 = x4 :=
  ⟨by rw [cat_hi _ _ (by decide), cat_hi _ _ (by decide), cat_hi _ _ (by decide), cat_hi _ _ (by decide)]; exact full _,
    by rw [cat_hi _ _ (by decide), cat_hi _ _ (by decide), cat_hi _ _ (by decide), cat_lo _ _ (by decide)]; exact full _,
    by rw [bit_hi _ _ (by decide), bit_hi _ _ (by decide), bit_hi _ _ (by decide), bit_lo _ _ (by decide)],
    by rw [cat_hi _ _ (by decide), cat_hi _ _ (by decide), cat_lo _ _ (by decide)]; exact full _,
    by rw [cat_hi _ _ (by decide), cat_lo _ _ (by decide)]; exact full _,
    by rw [cat_lo _ _ (by decide)]; exact full _⟩

theorem shape3 (x0 : BitVec 5) (x1 : BitVec 1) (x2 : BitVec 3) (x3 : BitVec 6) (x4 : BitVec 3) (x5 : BitVec 3) (x6 : BitVec 11) :
    (x0 ++ x1 ++ x2 ++ x3 ++ x4 ++ x5 ++ x6 : Word).extractLsb' 27 5 = x0 ∧
    (x0 ++ x1 ++ x2 ++ x3 ++ x4 ++ x5 ++ x6 : Word).extractLsb' 26 1 = x1 ∧
    (x0 ++ x1 ++ x2 ++ x3 ++ x4 ++ x5 ++ x6 : Word).getLsbD 26 = x1.getLsbD 0 ∧
    (x0 ++ x1 ++ x2 ++ x3 ++ x4 ++ x5 ++ x6 : Word).extractLsb' 23 3 = x2 ∧
    (x0 ++ x1 ++ x2 ++ x3 ++ x4 ++ x5 ++ x6 : Word).extractLsb' 17 6 = x3 ∧
    (x0 ++ x1 ++ x2 ++ x3 ++ x4 ++ x5 ++ x6 : Word).extractLsb' 14 3 = x4 ∧
    (x0 ++ x1 ++ x2 ++ x3 ++ x4 ++ x5 ++ x6 : Word).extractLsb' 11 3 = x5 ∧
    (x0 ++ x1 ++ x2 ++ x3 ++ x4 ++ x5 ++ x6 : Word).extractLsb' 0 11 = x6 :=
  ⟨by rw [cat_hi _ _ (by decide), cat_hi _ _ (by decide), cat_hi _ _ (by decide), cat_hi _ _ (by decide), cat_hi _ _ (by decide), cat_hi _ _ (by decide)]; exact full _,
    by rw [cat_hi _ _ (by decide), cat_hi _ _ (by decide), cat_hi _ _ (by decide), cat_hi _ _ (by decide), cat_hi _ _ (by decide), cat_lo _ _ (by decide)]; exact full _,
    by rw [bit_hi _ _ (by decide), bit_hi _ _ (by decide), bit_hi _ _ (by decide), bit_hi _ _ (by decide), bit_hi _ _ (by decide), bit_lo _ _ (by decide)],
    by rw [cat_hi _ _ (by decide), cat_hi _ _ (by decide), cat_hi _ _ (by decide), cat_hi _ _ (by decide), cat_lo _ _ (by decide)]; exact full _,
    by rw [cat_hi _ _ (by decide), cat_hi _ _ (by decide), cat_hi _ _ (by decide), cat_lo _ _ (by decide)]; exact full _,
    by rw [cat_hi _ _ (by decide), cat_hi _ _ (by decide), cat_lo _ _ (by decide)]; exact full _,
    by rw [cat_hi _ _ (by decide), cat_lo _ _ (by decide)]; exact full _,
    by rw [cat_lo _ _ (by decide)]; exact full _⟩

theorem shape4 (x0 : BitVec 5) (x1 : BitVec 1) (x2 : BitVec 3) (x3 : BitVec 8) (x4 : BitVec 3) (x5 : BitVec 3) (x6 : BitVec 9) :
    (x0 ++ x1 ++ x2 ++ x3 ++ x4 ++ x5 ++ x6 : Word).extractLsb' 27 5 = x0 ∧
    (x0 ++ x1 ++ x2 ++ x3 ++ x4 ++ x5 ++ x6 : Word).extractLsb' 26 1 = x1 ∧
    (x0 ++ x1 ++ x2 ++ x3 ++ x4 ++ x5 ++ x6 : Word).getLsbD 26 = x1.getLsbD 0 ∧
    (x0 ++ x1 ++ x2 ++ x3 ++ x4 ++ x5 ++ x6 : Word).extractLsb' 23 3 = x2 ∧
    (x0 ++ x1 ++ x2 ++ x3 ++ x4 ++ x5 ++ x6 : Word).extractLsb' 15 8 = x3 ∧
    (x0 ++ x1 ++ x2 ++ x3 ++ x4 ++ x5 ++ x6 : Word).extractLsb' 12 3 = x4 ∧
    (x0 ++ x1 ++ x2 ++ x3 ++ x4 ++ x5 ++ x6 : Word).extractLsb' 9 3 = x5 ∧
    (x0 ++ x1 ++ x2 ++ x3 ++ x4 ++ x5 ++ x6 : Word).extractLsb' 0 9 = x6 :=
  ⟨by rw [cat_hi _ _ (by decide), cat_hi _ _ (by decide), cat_hi _ _ (by decide), cat_hi _ _ (by decide), cat_hi _ _ (by decide), cat_hi _ _ (by decide)]; exact full _,
    by rw [cat_hi _ _ (by decide), cat_hi _ _ (by decide), cat_hi _ _ (by decide), cat_hi _ _ (by decide), cat_hi _ _ (by decide), cat_lo _ _ (by decide)]; exact full _,
    by rw [bit_hi _ _ (by decide), bit_hi _ _ (by decide), bit_hi _ _ (by decide), bit_hi _ _ (by decide), bit_hi _ _ (by decide), bit_lo _ _ (by decide)],
    by rw [cat_hi _ _ (by decide), cat_hi _ _ (by decide), cat_hi _ _ (by decide), cat_hi _ _ (by decide), cat_lo _ _ (by decide)]; exact full _,
    by rw [cat_hi _ _ (by decide), cat_hi _ _ (by decide), cat_hi _ _ (by decide), cat_lo _ _ (by decide)]; exact full _,
    by rw [cat_hi _ _ (by decide), cat_hi _ _ (by decide), cat_lo _ _ (by decide)]; exact full _,
    by rw [cat_hi _ _ (by decide), cat_lo _ _ (by decide)]; exact full _,
    by rw [cat_lo _ _ (by decide)]; exact full _⟩

theorem shape5 (x0 : BitVec 5) (x1 : BitVec 1) (x2 : BitVec 3) (x3 : BitVec 2) (x4 : BitVec 2) (x5 : BitVec 19) :
    (x0 ++ x1 ++ x2 ++ x3 ++ x4 ++ x5 : Word).extractLsb' 27 5 = x0 ∧
    (x0 ++ x1 ++ x2 ++ x3 ++ x4 ++ x5 : Word).extractLsb' 26 1 = x1 ∧
    (x0 ++ x1 ++ x2 ++ x3 ++ x4 ++ x5 : Word).getLsbD 26 = x1.getLsbD 0 ∧
    (x0 ++ x1 ++ x2 ++ x3 ++ x4 ++ x5 : Word).extractLsb' 23 3 = x2 ∧
    (x0 ++ x1 ++ x2 ++ x3 ++ x4 ++ x5 : Word).extractLsb' 21 2 = x3 ∧
    (x0 ++ x1 ++ x2 ++ x3 ++ x4 ++ x5 : Word).extractLsb' 19 2 = x4 ∧
    (x0 ++ x1 ++ x2 ++ x3 ++ x4 ++ x5 : Word).extractLsb' 0 19 = x5 :=
  ⟨by rw [cat_hi _ _ (by decide), cat_hi _ _ (by decide), cat_hi _ _ (by decide), cat_hi _ _ (by decide), cat_hi _ _ (by decide)]; exact full _,
    by rw [cat_hi _ _ (by decide), cat_hi _ _ (by decide), cat_hi _ _ (by decide), cat_hi _ _ (by decide), cat_lo _ _ (by decide)]; exact full _,
    by rw [bit_hi _ _ (by decide), bit_hi _ _ (by decide), bit_hi _ _ (by decide), bit_hi _ _ (by decide), bit_lo _ _ (by decide)],
    by rw [cat_hi _ _ (by decide), cat_hi _ _ (by decide), cat_hi _ _ (by decide), cat_lo _ _ (by decide)]; exact full _,
    by rw [cat_hi _ _ (by decide), cat_hi _ _ (by decide), cat_lo _ _ (by decide)]; exact full _,
    by rw [cat_hi _ _ (by decide), cat_lo _ _ (by decide)]; exact full _,
    by rw [cat_lo _ _ (by decide)]; exact full _⟩

theorem shape6 (x0 : BitVec 5) (x1 : BitVec 1) (x2 : BitVec 3) (x3 : BitVec 1) (x4 : BitVec 22) :
    (x0 ++ x1 ++ x2 ++ x3 ++ x4 : Word).extractLsb' 27 5 = x0 ∧
    (x0 ++ x1 ++ x2 ++ x3 ++ x4 : Word).extractLsb' 26 1 = x1 ∧
    (x0 ++ x1 ++ x2 ++ x3 ++ x4 : Word).getLsbD 26 = x1.getLsbD 0 ∧
    (x0 ++ x1 ++ x2 ++ x3 ++ x4 : Word).extractLsb' 23 3 = x2 ∧
    (x0 ++ x1 ++ x2 ++ x3 ++ x4 : Word).extractLsb' 22 1 = x3 ∧
    (x0 ++ x1 ++ x2 ++ x3 ++ x4 : Word).getLsbD 22 = x3.getLsbD 0 ∧
    (x0 ++ x1 ++ x2 ++ x3 ++ x4 : Word).extractLsb' 0 22 = x4 :=
  ⟨by rw [cat_hi _ _ (by decide), cat_hi _ _ (by decide), cat_hi _ _ (by decide), cat_hi _ _ (by decide)]; exact full _,
    by rw [cat_hi _ _ (by decide), cat_hi _ _ (by decide), cat_hi _ _ (by decide), cat_lo _ _ (by decide)]; exact full _,
    by rw [bit_hi _ _ (by decide), bit_hi _ _ (by decide), bit_hi _ _ (by decide), bit_lo _ _ (by decide)],
    by rw [cat_hi _ _ (by decide), cat_hi _ _ (by decide), cat_lo _ _ (by decide)]; exact full _,
    by rw [cat_hi _ _ (by decide), cat_lo _ _ (by decide)]; exact full _,
    by rw [bit_hi _ _ (by decide), bit_lo _ _ (by decide)],
    by rw [cat_lo _ _ (by decide)]; exact full _⟩

theorem shape7 (x0 : BitVec 5) (x1 : BitVec 1) (x2 : BitVec 3) (x3 : BitVec 4) (x4 : BitVec 6) (x5 : BitVec 13) :
    (x0 ++ x1 ++ x2 ++ x3 ++ x4 ++ x5 : Word).extractLsb' 27 5 = x0 ∧
    (x0 ++ x1 ++ x2 ++ x3 ++ x4 ++ x5 : Word).extractLsb' 26 1 = x1 ∧
    (x0 ++ x1 ++ x2 ++ x3 ++ x4 ++ x5 : Word).getLsbD 26 = x1.getLsbD 0 ∧
    (x0 ++ x1 ++ x2 ++ x3 ++ x4 ++ x5 : Word).extractLsb' 23 3 = x2 ∧
    (x0 ++ x1 ++ x2 ++ x3 ++ x4 ++ x5 : Word).extractLsb' 19 4 = x3 ∧
    (x0 ++ x1 ++ x2 ++ x3 ++ x4 ++ x5 : Word).extractLsb' 13 6 = x4 ∧
    (x0 ++ x1 ++ x2 ++ x3 ++ x4 ++ x5 : Word).extractLsb' 0 13 = x5 :=
  ⟨by rw [cat_hi _ _ (by decide), cat_hi _ _ (by decide), cat_hi _ _ (by decide), cat_hi _ _ (by decide), cat_hi _ _ (by decide)]; exact full _,
    by rw [cat_hi _ _ (by decide), cat_hi _ _ (by decide), cat_hi _ _ (by decide), cat_hi _ _ (by decide), cat_lo _ _ (by decide)]; exact full _,
    by rw [bit_hi _ _ (by decide), bit_hi _ _ (by decide), bit_hi _ _ (by decide), bit_hi _ _ (by decide), bit_lo _ _ (by decide)],
    by rw [cat_hi _ _ (by decide), cat_hi _ _ (by decide), cat_hi _ _ (by decide), cat_lo _ _ (by decide)]; exact full _,
    by rw [cat_hi _ _ (by decide), cat_hi _ _ (by decide), cat_lo _ _ (by decide)]; exact full _,
    by rw [cat_hi _ _ (by decide), cat_lo _ _ (by decide)]; exact full _,
    by rw [cat_lo _ _ (by decide)]; exact full _⟩

theorem shape8 (x0 : BitVec 5) (x1 : BitVec 1) (x2 : BitVec 3) (x3 : BitVec 6) (x4 : BitVec 3) (x5 : BitVec 14) :
    (x0 ++ x1 ++ x2 ++ x3 ++ x4 ++ x5 : Word).extractLsb' 27 5 = x0 ∧
    (x0 ++ x1 ++ x2 ++ x3 ++ x4 ++ x5 : Word).extractLsb' 26 1 = x1 ∧
    (x0 ++ x1 ++ x2 ++ x3 ++ x4 ++ x5 : Word).getLsbD 26 = x1.getLsbD 0 ∧
    (x0 ++ x1 ++ x2 ++ x3 ++ x4 ++ x5 : Word).extractLsb' 23 3 = x2 ∧
    (x0 ++ x1 ++ x2 ++ x3 ++ x4 ++ x5 : Word).extractLsb' 17 6 = x3 ∧
    (x0 ++ x1 ++ x2 ++ x3 ++ x4 ++ x5 : Word).extractLsb' 14 3 = x4 ∧
    (x0 ++ x1 ++ x2 ++ x3 ++ x4 ++ x5 : Word).extractLsb' 0 14 = x5 :=
  ⟨by rw [cat_hi _ _ (by decide), cat_hi _ _ (by decide), cat_hi _ _ (by decide), cat_hi _ _ (by decide), cat_hi _ _ (by decide)]; exact full _,
    by rw [cat_hi _ _ (by decide), cat_hi _ _ (by decide), cat_hi _ _ (by decide), cat_hi _ _ (by decide), cat_lo _ _ (by decide)]; exact full _,
    by rw [bit_hi _ _ (by decide), bit_hi _ _ (by decide), bit_hi _ _ (by decide), bit_hi _ _ (by decide), bit_lo _ _ (by decide)],
    by rw [cat_hi _ _ (by decide), cat_hi _ _ (by decide), cat_hi _ _ (by decide), cat_lo _ _ (by decide)]; exact full _,
    by rw [cat_hi _ _ (by decide), cat_hi _ _ (by decide), cat_lo _ _ (by decide)]; exact full _,
    by rw [cat_hi _ _ (by decide), cat_lo _ _ (by decide)]; exact full _,
    by rw [cat_lo _ _ (by decide)]; exact full _⟩

theorem shape9 (x0 : BitVec 5) (x1 : BitVec 1) (x2 : BitVec 3) (x3 : BitVec 6) (x4 : BitVec 6) (x5 : BitVec 3) (x6 : BitVec 8) :
    (x0 ++ x1 ++ x2 ++ x3 ++ x4 ++ x5 ++ x6 : Word).extractLsb' 27 5 = x0 ∧
    (x0 ++ x1 ++ x2 ++ x3 ++ x4 ++ x5 ++ x6 : Word).extractLsb' 26 1 = x1 ∧
    (x0 ++ x1 ++ x2 ++ x3 ++ x4 ++ x5 ++ x6 : Word).getLsbD 26 = x1.getLsbD 0 ∧
    (x0 ++ x1 ++ x2 ++ x3 ++ x4 ++ x5 ++ x6 : Word).extractLsb' 23 3 = x2 ∧
    (x0 ++ x1 ++ x2 ++ x3 ++ x4 ++ x5 ++ x6 : Word).extractLsb' 17 6 = x3 ∧
    (x0 ++ x1 ++ x2 ++ x3 ++ x4 ++ x5 ++ x6 : Word).extractLsb' 11 6 = x4 ∧
    (x0 ++ x1 ++ x2 ++ x3 ++ x4 ++ x5 ++ x6 : Word).extractLsb' 8 3 = x5 ∧
    (x0 ++ x1 ++ x2 ++ x3 ++ x4 ++ x5 ++ x6 : Word).extractLsb' 0 8 = x6 :=
  ⟨by rw [cat_hi _ _ (by decide), cat_hi _ _ (by decide), cat_hi _ _ (by decide), cat_hi _ _ (by decide), cat_hi _ _ (by decide), cat_hi _ _ (by decide)]; exact full _,
    by rw [cat_hi _ _ (by decide), cat_hi _ _ (by decide), cat_hi _ _ (by decide), cat_hi _ _ (by decide), cat_hi _ _ (by decide), cat_lo _ _ (by decide)]; exact full _,
    by rw [bit_hi _ _ (by decide), bit_hi _ _ (by decide), bit_hi _ _ (by decide), bit_hi _ _ (by decide), bit_hi _ _ (by decide), bit_lo _ _ (by decide)],
    by rw [cat_hi _ _ (by decide), cat_hi _ _ (by decide), cat_hi _ _ (by decide), cat_hi _ _ (by decide), cat_lo _ _ (by decide)]; exact full _,
    by rw [cat_hi _ _ (by decide), cat_hi _ _ (by decide), cat_hi _ _ (by decide), cat_lo _ _ (by decide)]; exact full _,
    by rw [cat_hi _ _ (by decide), cat_hi _ _ (by decide), cat_lo _ _ (by decide)]; exact full _,
    by rw [cat_hi _ _ (by decide), cat_lo _ _ (by decide)]; exact full _,
    by rw [cat_lo _ _ (by decide)]; exact full _⟩

theorem shape10 (x0 : BitVec 5) (x1 : BitVec 1) (x2 : BitVec 3) (x3 : BitVec 2) (x4 : BitVec 6) (x5 : BitVec 3) (x6 : BitVec 12) :
    (x0 ++ x1 ++ x2 ++ x3 ++ x4 ++ x5 ++ x6 : Word).extractLsb' 27 5 = x0 ∧
    (x0 ++ x1 ++ x2 ++ x3 ++ x4 ++ x5 ++ x6 : Word).extractLsb' 26 1 = x1 ∧
    (x0 ++ x1 ++ x2 ++ x3 ++ x4 ++ x5 ++ x6 : Word).getLsbD 26 = x1.getLsbD 0 ∧
    (x0 ++ x1 ++ x2 ++ x3 ++ x4 ++ x5 ++ x6 : Word).extractLsb' 23 3 = x2 ∧
    (x0 ++ x1 ++ x2 ++ x3 ++ x4 ++ x5 ++ x6 : Word).extractLsb' 21 2 = x3 ∧
    (x0 ++ x1 ++ x2 ++ x3 ++ x4 ++ x5 ++ x6 : Word).extractLsb' 15 6 = x4 ∧
    (x0 ++ x1 ++ x2 ++ x3 ++ x4 ++ x5 ++ x6 : Word).extractLsb' 12 3 = x5 ∧
    (x0 ++ x1 ++ x2 ++ x3 ++ x4 ++ x5 ++ x6 : Word).extractLsb' 0 12 = x6 :=
  ⟨by rw [cat_hi _ _ (by decide), cat_hi _ _ (by decide), cat_hi _ _ (by decide), cat_hi _ _ (by decide), cat_hi _ _ (by decide), cat_hi _ _ (by decide)]; exact full _,
    by rw [cat_hi _ _ (by decide), cat_hi _ _ (by decide), cat_hi _ _ (by decide), cat_hi _ _ (by decide), cat_hi _ _ (by decide), cat_lo _ _ (by decide)]; exact full _,
    by rw [bit_hi _ _ (by decide), bit_hi _ _ (by decide), bit_hi _ _ (by decide), bit_hi _ _ (by decide), bit_hi _ _ (by decide), bit_lo _ _ (by decide)],
    by rw [cat_hi _ _ (by decide), cat_hi _ _ (by decide), cat_hi _ _ (by decide), cat_hi _ _ (by decide), cat_lo _ _ (by decide)]; exact full _,
    by rw [cat_hi _ _ (by decide), cat_hi _ _ (by decide), cat_hi _ _ (by decide), cat_lo _ _ (by decide)]; exact full _,
    by rw [cat_hi _ _ (by decide), cat_hi _ _ (by decide), cat_lo _ _ (by decide)]; exact full _,
    by rw [cat_hi _ _ (by decide), cat_lo _ _ (by decide)]; exact full _,
    by rw [cat_lo _ _ (by decide)]; exact full _⟩

theorem shape11 (x0 : BitVec 5) (x1 : BitVec 1) (x2 : BitVec 3) (x3 : BitVec 3) (x4 : BitVec 2) (x5 : BitVec 18) :
    (x0 ++ x1 ++ x2 ++ x3 ++ x4 ++ x5 : Word).extractLsb' 27 5 = x0 ∧
    (x0 ++ x1 ++ x2 ++ x3 ++ x4 ++ x5 : Word).extractLsb' 26 1 = x1 ∧
    (x0 ++ x1 ++ x2 ++ x3 ++ x4 ++ x5 : Word).getLsbD 26 = x1.getLsbD 0 ∧
    (x0 ++ x1 ++ x2 ++ x3 ++ x4 ++ x5 : Word).extractLsb' 23 3 = x2 ∧
    (x0 ++ x1 ++ x2 ++ x3 ++ x4 ++ x5 : Word).extractLsb' 20 3 = x3 ∧
    (x0 ++ x1 ++ x2 ++ x3 ++ x4 ++ x5 : Word).extractLsb' 18 2 = x4 ∧
    (x0 ++ x1 ++ x2 ++ x3 ++ x4 ++ x5 : Word).extractLsb' 0 18 = x5 :=
  ⟨by rw [cat_hi _ _ (by decide), cat_hi _ _ (by decide), cat_hi _ _ (by decide), cat_hi _ _ (by decide), cat_hi _ _ (by decide)]; exact full _,
    by rw [cat_hi _ _ (by decide), cat_hi _ _ (by decide), cat_hi _ _ (by decide), cat_hi _ _ (by decide), cat_lo _ _ (by decide)]; exact full _,
    by rw [bit_hi _ _ (by decide), bit_hi _ _ (by decide), bit_hi _ _ (by decide), bit_hi _ _ (by decide), bit_lo _ _ (by decide)],
    by rw [cat_hi _ _ (by decide), cat_hi _ _ (by decide), cat_hi _ _ (by decide), cat_lo _ _ (by decide)]; exact full _,
    by rw [cat_hi _ _ (by decide), cat_hi _ _ (by decide), cat_lo _ _ (by decide)]; exact full _,
    by rw [cat_hi _ _ (by decide), cat_lo _ _ (by decide)]; exact full _,
    by rw [cat_lo _ _ (by decide)]; exact full _⟩

theorem shape12 (x0 : BitVec 5) (x1 : BitVec 1) (x2 : BitVec 3) (x3 : BitVec 3) (x4 : BitVec 6) (x5 : BitVec 14) :
    (x0 ++ x1 ++ x2 ++ x3 ++ x4 ++ x5 : Word).extractLsb' 27 5 = x0 ∧
    (x0 ++ x1 ++ x2 ++ x3 ++ x4 ++ x5 : Word).extractLsb' 26 1 = x1 ∧
    (x0 ++ x1 ++ x2 ++ x3 ++ x4 ++ x5 : Word).getLsbD 26 = x1.getLsbD 0 ∧
    (x0 ++ x1 ++ x2 ++ x3 ++ x4 ++ x5 : Word).extractLsb' 23 3 = x2 ∧
    (x0 ++ x1 ++ x2 ++ x3 ++ x4 ++ x5 : Word).extractLsb' 20 3 = x3 ∧
    (x0 ++ x1 ++ x2 ++ x3 ++ x4 ++ x5 : Word).extractLsb' 14 6 = x4 ∧
    (x0 ++ x1 ++ x2 ++ x3 ++ x4 ++ x5 : Word).extractLsb' 0 14 = x5 :=
  ⟨by rw [cat_hi _ _ (by decide), cat_hi _ _ (by decide), cat_hi _ _ (by decide), cat_hi _ _ (by decide), cat_hi _ _ (by decide)]; exact full _,
    by rw [cat_hi _ _ (by decide), cat_hi _ _ (by decide), cat_hi _ _ (by decide), cat_hi _ _ (by decide), cat_lo _ _ (by decide)]; exact full _,
    by rw [bit_hi _ _ (by decide), bit_hi _ _ (by decide), bit_hi _ _ (by decide), bit_hi _ _ (by decide), bit_lo _ _ (by decide)],
    by rw [cat_hi _ _ (by decide), cat_hi _ _ (by decide), cat_hi _ _ (by decide), cat_lo _ _ (by decide)]; exact full _,
    by rw [cat_hi _ _ (by decide), cat_hi _ _ (by decide), cat_lo _ _ (by decide)]; exact full _,
    by rw [cat_hi _ _ (by decide), cat_lo _ _ (by decide)]; exact full _,
    by rw [cat_lo _ _ (by decide)]; exact full _⟩

theorem shape13 (x0 : BitVec 5) (x1 : BitVec 1) (x2 : BitVec 3) (x3 : BitVec 3) (x4 : BitVec 6) (x5 : BitVec 1) (x6 : BitVec 6) (x7 : BitVec 3) (x8 : BitVec 4) :
    (x0 ++ x1 ++ x2 ++ x3 ++ x4 ++ x5 ++ x6 ++ x7 ++ x8 : Word).extractLsb' 27 5 = x0 ∧
    (x0 ++ x1 ++ x2 ++ x3 ++ x4 ++ x5 ++ x6 ++ x7 ++ x8 : Word).extractLsb' 26 1 = x1 ∧
    (x0 ++ x1 ++ x2 ++ x3 ++ x4 ++ x5 ++ x6 ++ x7 ++ x8 : Word).getLsbD 26 = x1.getLsbD 0 ∧
    (x0 ++ x1 ++ x2 ++ x3 ++ x4 ++ x5 ++ x6 ++ x7 ++ x8 : Word).extractLsb' 23 3 = x2 ∧
    (x0 ++ x1 ++ x2 ++ x3 ++ x4 ++ x5 ++ x6 ++ x7 ++ x8 : Word).extractLsb' 20 3 = x3 ∧
    (x0 ++ x1 ++ x2 ++ x3 ++ x4 ++ x5 ++ x6 ++ x7 ++ x8 : Word).extractLsb' 14 6 = x4 ∧
    (x0 ++ x1 ++ x2 ++ x3 ++ x4 ++ x5 ++ x6 ++ x7 ++ x8 : Word).extractLsb' 13 1 = x5 ∧
    (x0 ++ x1 ++ x2 ++ x3 ++ x4 ++ x5 ++ x6 ++ x7 ++ x8 : Word).getLsbD 13 = x5.getLsbD 0 ∧
    (x0 ++ x1 ++ x2 ++ x3 ++ x4 ++ x5 ++ x6 ++ x7 ++ x8 : Word).extractLsb' 7 6 = x6 ∧
    (x0 ++ x1 ++ x2 ++ x3 ++ x4 ++ x5 ++ x6 ++ x7 ++ x8 : Word).extractLsb' 4 3 = x7 ∧
    (x0 ++ x1 ++ x2 ++ x3 ++ x4 ++ x5 ++ x6 ++ x7 ++ x8 : Word).extractLsb' 0 4 = x8 :=
  ⟨by rw [cat_hi _ _ (by decide), cat_hi _ _ (by decide), cat_hi _ _ (by decide), cat_hi _ _ (by decide), cat_hi _ _ (by decide), cat_hi _ _ (by decide), cat_hi _ _ (by decide), cat_hi _ _ (by decide)]; exact full _,
    by rw [cat_hi _ _ (by decide), cat_hi _ _ (by decide), cat_hi _ _ (by decide), cat_hi _ _ (by decide), cat_hi _ _ (by decide), cat_hi _ _ (by decide), cat_hi _ _ (by decide), cat_lo _ _ (by decide)]; exact full _,
    by rw [bit_hi _ _ (by decide), bit_hi _ _ (by decide), bit_hi _ _ (by decide), bit_hi _ _ (by decide), bit_hi _ _ (by decide), bit_hi _ _ (by decide), bit_hi _ _ (by decide), bit_lo _ _ (by decide)],
    by rw [cat_hi _ _ (by decide), cat_hi _ _ (by decide), cat_hi _ _ (by decide), cat_hi _ _ (by decide), cat_hi _ _ (by decide), cat_hi _ _ (by decide), cat_lo _ _ (by decide)]; exact full _,
    by rw [cat_hi _ _ (by decide), cat_hi _ _ (by decide), cat_hi _ _ (by decide), cat_hi _ _ (by decide), cat_hi _ _ (by decide), cat_lo _ _ (by decide)]; exact full _,
    by rw [cat_hi _ _ (by decide), cat_hi _ _ (by decide), cat_hi _ _ (by decide), cat_hi _ _ (by decide), cat_lo _ _ (by decide)]; exact full _,
    by rw [cat_hi _ _ (by decide), cat_hi _ _ (by decide), cat_hi _ _ (by decide), cat_lo _ _ (by decide)]; exact full _,
    by rw [bit_hi _ _ (by decide), bit_hi _ _ (by decide), bit_hi _ _ (by decide), bit_lo _ _ (by decide)],
    by rw [cat_hi _ _ (by decide), cat_hi _ _ (by decide), cat_lo _ _ (by decide)]; exact full _,
    by rw [cat_hi _ _ (by decide), cat_lo _ _ (by decide)]; exact full _,
    by rw [cat_lo _ _ (by decide)]; exact full _⟩

theorem shape14 (x0 : BitVec 5) (x1 : BitVec 1) (x2 : BitVec 3) (x3 : BitVec 3) (x4 : BitVec 6) (x5 : BitVec 3) (x6 : BitVec 11) :
    (x0 ++ x1 ++ x2 ++ x3 ++ x4 ++ x5 ++ x6 : Word).extractLsb' 27 5 = x0 ∧
    (x0 ++ x1 ++ x2 ++ x3 ++ x4 ++ x5 ++ x6 : Word).extractLsb' 26 1 = x1 ∧
    (x0 ++ x1 ++ x2 ++ x3 ++ x4 ++ x5 ++ x6 : Word).getLsbD 26 = x1.getLsbD 0 ∧
    (x0 ++ x1 ++ x2 ++ x3 ++ x4 ++ x5 ++ x6 : Word).extractLsb' 23 3 = x2 ∧
    (x0 ++ x1 ++ x2 ++ x3 ++ x4 ++ x5 ++ x6 : Word).extractLsb' 20 3 = x3 ∧
    (x0 ++ x1 ++ x2 ++ x3 ++ x4 ++ x5 ++ x6 : Word).extractLsb' 14 6 = x4 ∧
    (x0 ++ x1 ++ x2 ++ x3 ++ x4 ++ x5 ++ x6 : Word).extractLsb' 11 3 = x5 ∧
    (x0 ++ x1 ++ x2 ++ x3 ++ x4 ++ x5 ++ x6 : Word).extractLsb' 0 11 = x6 :=
  ⟨by rw [cat_hi _ _ (by decide), cat_hi _ _ (by decide), cat_hi _ _ (by decide), cat_hi _ _ (by decide), cat_hi _ _ (by decide), cat_hi _ _ (by decide)]; exact full _,
    by rw [cat_hi _ _ (by decide), cat_hi _ _ (by decide), cat_hi _ _ (by decide), cat_hi _ _ (by decide), cat_hi _ _ (by decide), cat_lo _ _ (by decide)]; exact full _,
    by rw [bit_hi _ _ (by decide), bit_hi _ _ (by decide), bit_hi _ _ (by decide), bit_hi _ _ (by decide), bit_hi _ _ (by decide), bit_lo _ _ (by decide)],
    by rw [cat_hi _ _ (by decide), cat_hi _ _ (by decide), cat_hi _ _ (by decide), cat_hi _ _ (by decide), cat_lo _ _ (by decide)]; exact full _,
    by rw [cat_hi _ _ (by decide), cat_hi _ _ (by decide), cat_hi _ _ (by decide), cat_lo _ _ (by decide)]; exact full _,
    by rw [cat_hi _ _ (by decide), cat_hi _ _ (by decide), cat_lo _ _ (by decide)]; exact full _,
    by rw [cat_hi _ _ (by decide), cat_lo _ _ (by decide)]; exact full _,
    by rw [cat_lo _ _ (by decide)]; exact full _⟩

theorem shape15 (x0 : BitVec 5) (x1 : BitVec 1) (x2 : BitVec 3) (x3 : BitVec 8) (x4 : BitVec 15) :
    (x0 ++ x1 ++ x2 ++ x3 ++ x4 : Word).extractLsb' 27 5 = x0 ∧
    (x0 ++ x1 ++ x2 ++ x3 ++ x4 : Word).extractLsb' 26 1 = x1 ∧
    (x0 ++ x1 ++ x2 ++ x3 ++ x4 : Word).getLsbD 26 = x1.getLsbD 0 ∧
    (x0 ++ x1 ++ x2 ++ x3 ++ x4 : Word).extractLsb' 23 3 = x2 ∧
    (x0 ++ x1 ++ x2 ++ x3 ++ x4 : Word).extractLsb' 15 8 = x3 ∧
    (x0 ++ x1 ++ x2 ++ x3 ++ x4 : Word).extractLsb' 0 15 = x4 :=
  ⟨by rw [cat_hi _ _ (by decide), cat_hi _ _ (by decide), cat_hi _ _ (by decide), cat_hi _ _ (by decide)]; exact full _,
    by rw [cat_hi _ _ (by decide), cat_hi _ _ (by decide), cat_hi _ _ (by decide), cat_lo _ _ (by decide)]; exact full _,
    by rw [bit_hi _ _ (by decide), bit_hi _ _ (by decide), bit_hi _ _ (by decide), bit_lo _ _ (by decide)],
    by rw [cat_hi _ _ (by decide), cat_hi _ _ (by decide), cat_lo _ _ (by decide)]; exact full _,
    by rw [cat_hi _ _ (by decide), cat_lo _ _ (by decide)]; exact full _,
    by rw [cat_lo _ _ (by decide)]; exact full _⟩

theorem shape16 (x0 : BitVec 5) (x1 : BitVec 1) (x2 : BitVec 3) (x3 : BitVec 6) (x4 : BitVec 12) (x5 : BitVec 5) :
    (x0 ++ x1 ++ x2 ++ x3 ++ x4 ++ x5 : Word).extractLsb' 27 5 = x0 ∧
    (x0 ++ x1 ++ x2 ++ x3 ++ x4 ++ x5 : Word).extractLsb' 26 1 = x1 ∧
    (x0 ++ x1 ++ x2 ++ x3 ++ x4 ++ x5 : Word).getLsbD 26 = x1.getLsbD 0 ∧
    (x0 ++ x1 ++ x2 ++ x3 ++ x4 ++ x5 : Word).extractLsb' 23 3 = x2 ∧
    (x0 ++ x1 ++ x2 ++ x3 ++ x4 ++ x5 : Word).extractLsb' 17 6 = x3 ∧
    (x0 ++ x1 ++ x2 ++ x3 ++ x4 ++ x5 : Word).extractLsb' 5 12 = x4 ∧
    (x0 ++ x1 ++ x2 ++ x3 ++ x4 ++ x5 : Word).extractLsb' 0 5 = x5 :=
  ⟨by rw [cat_hi _ _ (by decide), cat_hi _ _ (by decide), cat_hi _ _ (by decide), cat_hi _ _ (by decide), cat_hi _ _ (by decide)]; exact full _,
    by rw [cat_hi _ _ (by decide), cat_hi _ _ (by decide), cat_hi _ _ (by decide), cat_hi _ _ (by decide), cat_lo _ _ (by decide)]; exact full _,
    by rw [bit_hi _ _ (by decide), bit_hi _ _ (by decide), bit_hi _ _ (by decide), bit_hi _ _ (by decide), bit_lo _ _ (by decide)],
    by rw [cat_hi _ _ (by decide), cat_hi _ _ (by decide), cat_hi _ _ (by decide), cat_lo _ _ (by decide)]; exact full _,
    by rw [cat_hi _ _ (by decide), cat_hi _ _ (by decide), cat_lo _ _ (by decide)]; exact full _,
    by rw [cat_hi _ _ (by decide), cat_lo _ _ (by decide)]; exact full _,
    by rw [cat_lo _ _ (by decide)]; exact full _⟩

theorem shape17 (x0 : BitVec 5) (x1 : BitVec 1) (x2 : BitVec 3) (x3 : BitVec 6) (x4 : BitVec 6) (x5 : BitVec 11) :
    (x0 ++ x1 ++ x2 ++ x3 ++ x4 ++ x5 : Word).extractLsb' 27 5 = x0 ∧
    (x0 ++ x1 ++ x2 ++ x3 ++ x4 ++ x5 : Word).extractLsb' 26 1 = x1 ∧
    (x0 ++ x1 ++ x2 ++ x3 ++ x4 ++ x5 : Word).getLsbD 26 = x1.getLsbD 0 ∧
    (x0 ++ x1 ++ x2 ++ x3 ++ x4 ++ x5 : Word).extractLsb' 23 3 = x2 ∧
    (x0 ++ x1 ++ x2 ++ x3 ++ x4 ++ x5 : Word).extractLsb' 17 6 = x3 ∧
    (x0 ++ x1 ++ x2 ++ x3 ++ x4 ++ x5 : Word).extractLsb' 11 6 = x4 ∧
    (x0 ++ x1 ++ x2 ++ x3 ++ x4 ++ x5 : Word).extractLsb' 0 11 = x5 :=
  ⟨by rw [cat_hi _ _ (by decide), cat_hi _ _ (by decide), cat_hi _ _ (by decide), cat_hi _ _ (by decide), cat_hi _ _ (by decide)]; exact full _,
    by rw [cat_hi _ _ (by decide), cat_hi _ _ (by decide), cat_hi _ _ (by decide), cat_hi _ _ (by decide), cat_lo _ _ (by decide)]; exact full _,
    by rw [bit_hi _ _ (by decide), bit_hi _ _ (by decide), bit_hi _ _ (by decide), bit_hi _ _ (by decide), bit_lo _ _ (by decide)],
    by rw [cat_hi _ _ (by decide), cat_hi _ _ (by decide), cat_hi _ _ (by decide), cat_lo _ _ (by decide)]; exact full _,
    by rw [cat_hi _ _ (by decide), cat_hi _ _ (by decide), cat_lo _ _ (by decide)]; exact full _,
    by rw [cat_hi _ _ (by decide), cat_lo _ _ (by decide)]; exact full _,
    by rw [cat_lo _ _ (by decide)]; exact full _⟩

theorem shape18 (x0 : BitVec 6) (x1 : BitVec 1) (x2 : BitVec 3) (x3 : BitVec 22) :
    (x0 ++ x1 ++ x2 ++ x3 : Word).extractLsb' 26 6 = x0 ∧
    (x0 ++ x1 ++ x2 ++ x3 : Word).extractLsb' 25 1 = x1 ∧
    (x0 ++ x1 ++ x2 ++ x3 : Word).getLsbD 25 = x1.getLsbD 0 ∧
    (x0 ++ x1 ++ x2 ++ x3 : Word).extractLsb' 22 3 = x2 ∧
    (x0 ++ x1 ++ x2 ++ x3 : Word).extractLsb' 0 22 = x3 :=
  ⟨by rw [cat_hi _ _ (by decide), cat_hi _ _ (by decide), cat_hi _ _ (by decide)]; exact full _,
    by rw [cat_hi _ _ (by decide), cat_hi _ _ (by decide), cat_lo _ _ (by decide)]; exact full _,
    by rw [bit_hi _ _ (by decide), bit_hi _ _ (by decide), bit_lo _ _ (by decide)],
    by rw [cat_hi _ _ (by decide), cat_lo _ _ (by decide)]; exact full _,
    by rw [cat_lo _ _ (by decide)]; exact full _⟩

theorem shape19 (x0 : BitVec 6) (x1 : BitVec 1) (x2 : BitVec 3) (x3 : BitVec 6) (x4 : BitVec 6) (x5 : BitVec 6) (x6 : BitVec 2) (x7 : BitVec 1) (x8 : BitVec 1) :
    (x0 ++ x1 ++ x2 ++ x3 ++ x4 ++ x5 ++ x6 ++ x7 ++ x8 : Word).extractLsb' 26 6 = x0 ∧
    (x0 ++ x1 ++ x2 ++ x3 ++ x4 ++ x5 ++ x6 ++ x7 ++ x8 : Word).extractLsb' 25 1 = x1 ∧
    (x0 ++ x1 ++ x2 ++ x3 ++ x4 ++ x5 ++ x6 ++ x7 ++ x8 : Word).getLsbD 25 = x1.getLsbD 0 ∧
    (x0 ++ x1 ++ x2 ++ x3 ++ x4 ++ x5 ++ x6 ++ x7 ++ x8 : Word).extractLsb' 22 3 = x2 ∧
    (x0 ++ x1 ++ x2 ++ x3 ++ x4 ++ x5 ++ x6 ++ x7 ++ x8 : Word).extractLsb' 16 6 = x3 ∧
    (x0 ++ x1 ++ x2 ++ x3 ++ x4 ++ x5 ++ x6 ++ x7 ++ x8 : Word).extractLsb' 10 6 = x4 ∧
    (x0 ++ x1 ++ x2 ++ x3 ++ x4 ++ x5 ++ x6 ++ x7 ++ x8 : Word).extractLsb' 4 6 = x5 ∧
    (x0 ++ x1 ++ x2 ++ x3 ++ x4 ++ x5 ++ x6 ++ x7 ++ x8 : Word).extractLsb' 2 2 = x6 ∧
    (x0 ++ x1 ++ x2 ++ x3 ++ x4 ++ x5 ++ x6 ++ x7 ++ x8 : Word).extractLsb' 1 1 = x7 ∧
    (x0 ++ x1 ++ x2 ++ x3 ++ x4 ++ x5 ++ x6 ++ x7 ++ x8 : Word).getLsbD 1 = x7.getLsbD 0 ∧
    (x0 ++ x1 ++ x2 ++ x3 ++ x4 ++ x5 ++ x6 ++ x7 ++ x8 : Word).extractLsb' 0 1 = x8 ∧
    (x0 ++ x1 ++ x2 ++ x3 ++ x4 ++ x5 ++ x6 ++ x7 ++ x8 : Word).getLsbD 0 = x8.getLsbD 0 :=
  ⟨by rw [cat_hi _ _ (by decide), cat_hi _ _ (by decide), cat_hi _ _ (by decide), cat_hi _ _ (by decide), cat_hi _ _ (by decide), cat_hi _ _ (by decide), cat_hi _ _ (by decide), cat_hi _ _ (by decide)]; exact full _,
    by rw [cat_hi _ _ (by decide), cat_hi _ _ (by decide), cat_hi _ _ (by decide), cat_hi _ _ (by decide), cat_hi _ _ (by decide), cat_hi _ _ (by decide), cat_hi _ _ (by decide), cat_lo _ _ (by decide)]; exact full _,
    by rw [bit_hi _ _ (by decide), bit_hi _ _ (by decide), bit_hi _ _ (by decide), bit_hi _ _ (by decide), bit_hi _ _ (by decide), bit_hi _ _ (by decide), bit_hi _ _ (by decide), bit_lo _ _ (by decide)],
    by rw [cat_hi _ _ (by decide), cat_hi _ _ (by decide), cat_hi _ _ (by decide), cat_hi _ _ (by decide), cat_hi _ _ (by decide), cat_hi _ _ (by decide), cat_lo _ _ (by decide)]; exact full _,
    by rw [cat_hi _ _ (by decide), cat_hi _ _ (by decide), cat_hi _ _ (by decide), cat_hi _ _ (by decide), cat_hi _ _ (by decide), cat_lo _ _ (by decide)]; exact full _,
    by rw [cat_hi _ _ (by decide), cat_hi _ _ (by decide), cat_hi _ _ (by decide), cat_hi _ _ (by decide), cat_lo _ _ (by decide)]; exact full _,
    by rw [cat_hi _ _ (by decide), cat_hi _ _ (by decide), cat_hi _ _ (by decide), cat_lo _ _ (by decide)]; exact full _,
    by rw [cat_hi _ _ (by decide), cat_hi _ _ (by decide), cat_lo _ _ (by decide)]; exact full _,
    by rw [cat_hi _ _ (by decide), cat_lo _ _ (by decide)]; exact full _,
    by rw [bit_hi _ _ (by decide), bit_lo _ _ (by decide)],
    by rw [cat_lo _ _ (by decide)]; exact full _,
    by rw [bit_lo _ _ (by decide)]⟩

theorem shape20 (x0 : BitVec 6) (x1 : BitVec 1) (x2 : BitVec 3) (x3 : BitVec 6) (x4 : BitVec 16) :
    (x0 ++ x1 ++ x2 ++ x3 ++ x4 : Word).extractLsb' 26 6 = x0 ∧
    (x0 ++ x1 ++ x2 ++ x3 ++ x4 : Word).extractLsb' 25 1 = x1 ∧
    (x0 ++ x1 ++ x2 ++ x3 ++ x4 : Word).getLsbD 25 = x1.getLsbD 0 ∧
    (x0 ++ x1 ++ x2 ++ x3 ++ x4 : Word).extractLsb' 22 3 = x2 ∧
    (x0 ++ x1 ++ x2 ++ x3 ++ x4 : Word).extractLsb' 16 6 = x3 ∧
    (x0 ++ x1 ++ x2 ++ x3 ++ x4 : Word).extractLsb' 0 16 = x4 :=
  ⟨by rw [cat_hi _ _ (by decide), cat_hi _ _ (by decide), cat_hi _ _ (by decide), cat_hi _ _ (by decide)]; exact full _,
    by rw [cat_hi _ _ (by decide), cat_hi _ _ (by decide), cat_hi _ _ (by decide), cat_lo _ _ (by decide)]; exact full _,
    by rw [bit_hi _ _ (by decide), bit_hi _ _ (by decide), bit_hi _ _ (by decide), bit_lo _ _ (by decide)],
    by rw [cat_hi _ _ (by decide), cat_hi _ _ (by decide), cat_lo _ _ (by decide)]; exact full _,
    by rw [cat_hi _ _ (by decide), cat_lo _ _ (by decide)]; exact full _,
    by rw [cat_lo _ _ (by decide)]; exact full _⟩

theorem shape21 (x0 : BitVec 6) (x1 : BitVec 1) (x2 : BitVec 3) (x3 : BitVec 6) (x4 : BitVec 10) (x5 : BitVec 6) :
    (x0 ++ x1 ++ x2 ++ x3 ++ x4 ++ x5 : Word).extractLsb' 26 6 = x0 ∧
    (x0 ++ x1 ++ x2 ++ x3 ++ x4 ++ x5 : Word).extractLsb' 25 1 = x1 ∧
    (x0 ++ x1 ++ x2 ++ x3 ++ x4 ++ x5 : Word).getLsbD 25 = x1.getLsbD 0 ∧
    (x0 ++ x1 ++ x2 ++ x3 ++ x4 ++ x5 : Word).extractLsb' 22 3 = x2 ∧
    (x0 ++ x1 ++ x2 ++ x3 ++ x4 ++ x5 : Word).extractLsb' 16 6 = x3 ∧
    (x0 ++ x1 ++ x2 ++ x3 ++ x4 ++ x5 : Word).extractLsb' 6 10 = x4 ∧
    (x0 ++ x1 ++ x2 ++ x3 ++ x4 ++ x5 : Word).extractLsb' 0 6 = x5 :=
  ⟨by rw [cat_hi _ _ (by decide), cat_hi _ _ (by decide), cat_hi _ _ (by decide), cat_hi _ _ (by decide), cat_hi _ _ (by decide)]; exact full _,
    by rw [cat_hi _ _ (by decide), cat_hi _ _ (by decide), cat_hi _ _ (by decide), cat_hi _ _ (by decide), cat_lo _ _ (by decide)]; exact full _,
    by rw [bit_hi _ _ (by decide), bit_hi _ _ (by decide), bit_hi _ _ (by decide), bit_hi _ _ (by decide), bit_lo _ _ (by decide)],
    by rw [cat_hi _ _ (by decide), cat_hi _ _ (by decide), cat_hi _ _ (by decide), cat_lo _ _ (by decide)]; exact full _,
    by rw [cat_hi _ _ (by decide), cat_hi _ _ (by decide), cat_lo _ _ (by decide)]; exact full _,
    by rw [cat_hi _ _ (by decide), cat_lo _ _ (by decide)]; exact full _,
    by rw [cat_lo _ _ (by decide)]; exact full _⟩

theorem shape22 (x0 : BitVec 6) (x1 : BitVec 1) (x2 : BitVec 3) (x3 : BitVec 3) (x4 : BitVec 3) (x5 : BitVec 6) (x6 : BitVec 6) (x7 : BitVec 2) (x8 : BitVec 1) (x9 : BitVec 1) :
    (x0 ++ x1 ++ x2 ++ x3 ++ x4 ++ x5 ++ x6 ++ x7 ++ x8 ++ x9 : Word).extractLsb' 26 6 = x0 ∧
    (x0 ++ x1 ++ x2 ++ x3 ++ x4 ++ x5 ++ x6 ++ x7 ++ x8 ++ x9 : Word).extractLsb' 25 1 = x1 ∧
    (x0 ++ x1 ++ x2 ++ x3 ++ x4 ++ x5 ++ x6 ++ x7 ++ x8 ++ x9 : Word).getLsbD 25 = x1.getLsbD 0 ∧
    (x0 ++ x1 ++ x2 ++ x3 ++ x4 ++ x5 ++ x6 ++ x7 ++ x8 ++ x9 : Word).extractLsb' 22 3 = x2 ∧
    (x0 ++ x1 ++ x2 ++ x3 ++ x4 ++ x5 ++ x6 ++ x7 ++ x8 ++ x9 : Word).extractLsb' 19 3 = x3 ∧
    (x0 ++ x1 ++ x2 ++ x3 ++ x4 ++ x5 ++ x6 ++ x7 ++ x8 ++ x9 : Word).extractLsb' 16 3 = x4 ∧
    (x0 ++ x1 ++ x2 ++ x3 ++ x4 ++ x5 ++ x6 ++ x7 ++ x8 ++ x9 : Word).extractLsb' 10 6 = x5 ∧
    (x0 ++ x1 ++ x2 ++ x3 ++ x4 ++ x5 ++ x6 ++ x7 ++ x8 ++ x9 : Word).extractLsb' 4 6 = x6 ∧
    (x0 ++ x1 ++ x2 ++ x3 ++ x4 ++ x5 ++ x6 ++ x7 ++ x8 ++ x9 : Word).extractLsb' 2 2 = x7 ∧
    (x0 ++ x1 ++ x2 ++ x3 ++ x4 ++ x5 ++ x6 ++ x7 ++ x8 ++ x9 : Word).extractLsb' 1 1 = x8 ∧
    (x0 ++ x1 ++ x2 ++ x3 ++ x4 ++ x5 ++ x6 ++ x7 ++ x8 ++ x9 : Word).getLsbD 1 = x8.getLsbD 0 ∧
    (x0 ++ x1 ++ x2 ++ x3 ++ x4 ++ x5 ++ x6 ++ x7 ++ x8 ++ x9 : Word).extractLsb' 0 1 = x9 ∧
    (x0 ++ x1 ++ x2 ++ x3 ++ x4 ++ x5 ++ x6 ++ x7 ++ x8 ++ x9 : Word).getLsbD 0 = x9.getLsbD 0 :=
  ⟨by rw [cat_hi _ _ (by decide), cat_hi _ _ (by decide), cat_hi _ _ (by decide), cat_hi _ _ (by decide), cat_hi _ _ (by decide), cat_hi _ _ (by decide), cat_hi _ _ (by decide), cat_hi _ _ (by decide), cat_hi _ _ (by decide)]; exact full _,
    by rw [cat_hi _ _ (by decide), cat_hi _ _ (by decide), cat_hi _ _ (by decide), cat_hi _ _ (by decide), cat_hi _ _ (by decide), cat_hi _ _ (by decide), cat_hi _ _ (by decide), cat_hi _ _ (by decide), cat_lo _ _ (by decide)]; exact full _,
    by rw [bit_hi _ _ (by decide), bit_hi _ _ (by decide), bit_hi _ _ (by decide), bit_hi _ _ (by decide), bit_hi _ _ (by decide), bit_hi _ _ (by decide), bit_hi _ _ (by decide), bit_hi _ _ (by decide), bit_lo _ _ (by decide)],
    by rw [cat_hi _ _ (by decide), cat_hi _ _ (by decide), cat_hi _ _ (by decide), cat_hi _ _ (by decide), cat_hi _ _ (by decide), cat_hi _ _ (by decide), cat_hi _ _ (by decide), cat_lo _ _ (by decide)]; exact full _,
    by rw [cat_hi _ _ (by decide), cat_hi _ _ (by decide), cat_hi _ _ (by decide), cat_hi _ _ (by decide), cat_hi _ _ (by decide), cat_hi _ _ (by decide), cat_lo _ _ (by decide)]; exact full _,
    by rw [cat_hi _ _ (by decide), cat_hi _ _ (by decide), cat_hi _ _ (by decide), cat_hi _ _ (by decide), cat_hi _ _ (by decide), cat_lo _ _ (by decide)]; exact full _,
    by rw [cat_hi _ _ (by decide), cat_hi _ _ (by decide), cat_hi _ _ (by decide), cat_hi _ _ (by decide), cat_lo _ _ (by decide)]; exact full _,
    by rw [cat_hi _ _ (by decide), cat_hi _ _ (by decide), cat_hi _ _ (by decide), cat_lo _ _ (by decide)]; exact full _,
    by rw [cat_hi _ _ (by decide), cat_hi _ _ (by decide), cat_lo _ _ (by decide)]; exact full _,
    by rw [cat_hi _ _ (by decide), cat_lo _ _ (by decide)]; exact full _,
    by rw [bit_hi _ _ (by decide), bit_lo _ _ (by decide)],
    by rw [cat_lo _ _ (by decide)]; exact full _,
    by rw [bit_lo _ _ (by decide)]⟩

theorem shape23 (x0 : BitVec 6) (x1 : BitVec 1) (x2 : BitVec 3) (x3 : BitVec 3) (x4 : BitVec 3) (x5 : BitVec 6) (x6 : BitVec 10) :
    (x0 ++ x1 ++ x2 ++ x3 ++ x4 ++ x5 ++ x6 : Word).extractLsb' 26 6 = x0 ∧
    (x0 ++ x1 ++ x2 ++ x3 ++ x4 ++ x5 ++ x6 : Word).extractLsb' 25 1 = x1 ∧
    (x0 ++ x1 ++ x2 ++ x3 ++ x4 ++ x5 ++ x6 : Word).getLsbD 25 = x1.getLsbD 0 ∧
    (x0 ++ x1 ++ x2 ++ x3 ++ x4 ++ x5 ++ x6 : Word).extractLsb' 22 3 = x2 ∧
    (x0 ++ x1 ++ x2 ++ x3 ++ x4 ++ x5 ++ x6 : Word).extractLsb' 19 3 = x3 ∧
    (x0 ++ x1 ++ x2 ++ x3 ++ x4 ++ x5 ++ x6 : Word).extractLsb' 16 3 = x4 ∧
    (x0 ++ x1 ++ x2 ++ x3 ++ x4 ++ x5 ++ x6 : Word).extractLsb' 10 6 = x5 ∧
    (x0 ++ x1 ++ x2 ++ x3 ++ x4 ++ x5 ++ x6 : Word).extractLsb' 0 10 = x6 :=
  ⟨by rw [cat_hi _ _ (by decide), cat_hi _ _ (by decide), cat_hi _ _ (by decide), cat_hi _ _ (by decide), cat_hi _ _ (by decide), cat_hi _ _ (by decide)]; exact full _,
    by rw [cat_hi _ _ (by decide), cat_hi _ _ (by decide), cat_hi _ _ (by decide), cat_hi _ _ (by decide), cat_hi _ _ (by decide), cat_lo _ _ (by decide)]; exact full _,
    by rw [bit_hi _ _ (by decide), bit_hi _ _ (by decide), bit_hi _ _ (by decide), bit_hi _ _ (by decide), bit_hi _ _ (by decide), bit_lo _ _ (by decide)],
    by rw [cat_hi _ _ (by decide), cat_hi _ _ (by decide), cat_hi _ _ (by decide), cat_hi _ _ (by decide), cat_lo _ _ (by decide)]; exact full _,
    by rw [cat_hi _ _ (by decide), cat_hi _ _ (by decide), cat_hi _ _ (by decide), cat_lo _ _ (by decide)]; exact full _,
    by rw [cat_hi _ _ (by decide), cat_hi _ _ (by decide), cat_lo _ _ (by decide)]; exact full _,
    by rw [cat_hi _ _ (by decide), cat_lo _ _ (by decide)]; exact full _,
    by rw [cat_lo _ _ (by decide)]; exact full _⟩

theorem shape24 (x0 : BitVec 6) (x1 : BitVec 1) (x2 : BitVec 3) (x3 : BitVec 6) (x4 : BitVec 6) (x5 : BitVec 9) (x6 : BitVec 1) :
    (x0 ++ x1 ++ x2 ++ x3 ++ x4 ++ x5 ++ x6 : Word).extractLsb' 26 6 = x0 ∧
    (x0 ++ x1 ++ x2 ++ x3 ++ x4 ++ x5 ++ x6 : Word).extractLsb' 25 1 = x1 ∧
    (x0 ++ x1 ++ x2 ++ x3 ++ x4 ++ x5 ++ x6 : Word).getLsbD 25 = x1.getLsbD 0 ∧
    (x0 ++ x1 ++ x2 ++ x3 ++ x4 ++ x5 ++ x6 : Word).extractLsb' 22 3 = x2 ∧
    (x0 ++ x1 ++ x2 ++ x3 ++ x4 ++ x5 ++ x6 : Word).extractLsb' 16 6 = x3 ∧
    (x0 ++ x1 ++ x2 ++ x3 ++ x4 ++ x5 ++ x6 : Word).extractLsb' 10 6 = x4 ∧
    (x0 ++ x1 ++ x2 ++ x3 ++ x4 ++ x5 ++ x6 : Word).extractLsb' 1 9 = x5 ∧
    (x0 ++ x1 ++ x2 ++ x3 ++ x4 ++ x5 ++ x6 : Word).extractLsb' 0 1 = x6 ∧
    (x0 ++ x1 ++ x2 ++ x3 ++ x4 ++ x5 ++ x6 : Word).getLsbD 0 = x6.getLsbD 0 :=
  ⟨by rw [cat_hi _ _ (by decide), cat_hi _ _ (by decide), cat_hi _ _ (by decide), cat_hi _ _ (by decide), cat_hi _ _ (by decide), cat_hi _ _ (by decide)]; exact full _,
    by rw [cat_hi _ _ (by decide), cat_hi _ _ (by decide), cat_hi _ _ (by decide), cat_hi _ _ (by decide), cat_hi _ _ (by decide), cat_lo _ _ (by decide)]; exact full _,
    by rw [bit_hi _ _ (by decide), bit_hi _ _ (by decide), bit_hi _ _ (by decide), bit_hi _ _ (by decide), bit_hi _ _ (by decide), bit_lo _ _ (by decide)],
    by rw [cat_hi _ _ (by decide), cat_hi _ _ (by decide), cat_hi _ _ (by decide), cat_hi _ _ (by decide), cat_lo _ _ (by decide)]; exact full _,
    by rw [cat_hi _ _ (by decide), cat_hi _ _ (by decide), cat_hi _ _ (by decide), cat_lo _ _ (by decide)]; exact full _,
    by rw [cat_hi _ _ (by decide), cat_hi _ _ (by decide), cat_lo _ _ (by decide)]; exact full _,
    by rw [cat_hi _ _ (by decide), cat_lo _ _ (by decide)]; exact full _,
    by rw [cat_lo _ _ (by decide)]; exact full _,
    by rw [bit_lo _ _ (by decide)]⟩

theorem shape25 (x0 : BitVec 6) (x1 : BitVec 1) (x2 : BitVec 3) (x3 : BitVec 6) (x4 : BitVec 6) (x5 : BitVec 8) (x6 : BitVec 2) :
    (x0 ++ x1 ++ x2 ++ x3 ++ x4 ++ x5 ++ x6 : Word).extractLsb' 26 6 = x0 ∧
    (x0 ++ x1 ++ x2 ++ x3 ++ x4 ++ x5 ++ x6 : Word).extractLsb' 25 1 = x1 ∧
    (x0 ++ x1 ++ x2 ++ x3 ++ x4 ++ x5 ++ x6 : Word).getLsbD 25 = x1.getLsbD 0 ∧
    (x0 ++ x1 ++ x2 ++ x3 ++ x4 ++ x5 ++ x6 : Word).extractLsb' 22 3 = x2 ∧
    (x0 ++ x1 ++ x2 ++ x3 ++ x4 ++ x5 ++ x6 : Word).extractLsb' 16 6 = x3 ∧
    (x0 ++ x1 ++ x2 ++ x3 ++ x4 ++ x5 ++ x6 : Word).extractLsb' 10 6 = x4 ∧
    (x0 ++ x1 ++ x2 ++ x3 ++ x4 ++ x5 ++ x6 : Word).extractLsb' 2 8 = x5 ∧
    (x0 ++ x1 ++ x2 ++ x3 ++ x4 ++ x5 ++ x6 : Word).extractLsb' 0 2 = x6 :=
  ⟨by rw [cat_hi _ _ (by decide), cat_hi _ _ (by decide), cat_hi _ _ (by decide), cat_hi _ _ (by decide), cat_hi _ _ (by decide), cat_hi _ _ (by decide)]; exact full _,
    by rw [cat_hi _ _ (by decide), cat_hi _ _ (by decide), cat_hi _ _ (by decide), cat_hi _ _ (by decide), cat_hi _ _ (by decide), cat_lo _ _ (by decide)]; exact full _,
    by rw [bit_hi _ _ (by decide), bit_hi _ _ (by decide), bit_hi _ _ (by decide), bit_hi _ _ (by decide), bit_hi _ _ (by decide), bit_lo _ _ (by decide)],
    by rw [cat_hi _ _ (by decide), cat_hi _ _ (by decide), cat_hi _ _ (by decide), cat_hi _ _ (by decide), cat_lo _ _ (by decide)]; exact full _,
    by rw [cat_hi _ _ (by decide), cat_hi _ _ (by decide), cat_hi _ _ (by decide), cat_lo _ _ (by decide)]; exact full _,
    by rw [cat_hi _ _ (by decide), cat_hi _ _ (by decide), cat_lo _ _ (by decide)]; exact full _,
    by rw [cat_hi _ _ (by decide), cat_lo _ _ (by decide)]; exact full _,
    by rw [cat_lo _ _ (by decide)]; exact full _⟩

theorem shape26 (x0 : BitVec 6) (x1 : BitVec 1) (x2 : BitVec 3) (x3 : BitVec 6) (x4 : BitVec 6) (x5 : BitVec 8) (x6 : BitVec 1) (x7 : BitVec 1) :
    (x0 ++ x1 ++ x2 ++ x3 ++ x4 ++ x5 ++ x6 ++ x7 : Word).extractLsb' 26 6 = x0 ∧
    (x0 ++ x1 ++ x2 ++ x3 ++ x4 ++ x5 ++ x6 ++ x7 : Word).extractLsb' 25 1 = x1 ∧
    (x0 ++ x1 ++ x2 ++ x3 ++ x4 ++ x5 ++ x6 ++ x7 : Word).getLsbD 25 = x1.getLsbD 0 ∧
    (x0 ++ x1 ++ x2 ++ x3 ++ x4 ++ x5 ++ x6 ++ x7 : Word).extractLsb' 22 3 = x2 ∧
    (x0 ++ x1 ++ x2 ++ x3 ++ x4 ++ x5 ++ x6 ++ x7 : Word).extractLsb' 16 6 = x3 ∧
    (x0 ++ x1 ++ x2 ++ x3 ++ x4 ++ x5 ++ x6 ++ x7 : Word).extractLsb' 10 6 = x4 ∧
    (x0 ++ x1 ++ x2 ++ x3 ++ x4 ++ x5 ++ x6 ++ x7 : Word).extractLsb' 2 8 = x5 ∧
    (x0 ++ x1 ++ x2 ++ x3 ++ x4 ++ x5 ++ x6 ++ x7 : Word).extractLsb' 1 1 = x6 ∧
    (x0 ++ x1 ++ x2 ++ x3 ++ x4 ++ x5 ++ x6 ++ x7 : Word).getLsbD 1 = x6.getLsbD 0 ∧
    (x0 ++ x1 ++ x2 ++ x3 ++ x4 ++ x5 ++ x6 ++ x7 : Word).extractLsb' 0 1 = x7 ∧
    (x0 ++ x1 ++ x2 ++ x3 ++ x4 ++ x5 ++ x6 ++ x7 : Word).getLsbD 0 = x7.getLsbD 0 :=
  ⟨by rw [cat_hi _ _ (by decide), cat_hi _ _ (by decide), cat_hi _ _ (by decide), cat_hi _ _ (by decide), cat_hi _ _ (by decide), cat_hi _ _ (by decide), cat_hi _ _ (by decide)]; exact full _,
    by rw [cat_hi _ _ (by decide), cat_hi _ _ (by decide), cat_hi _ _ (by decide), cat_hi _ _ (by decide), cat_hi _ _ (by decide), cat_hi _ _ (by decide), cat_lo _ _ (by decide)]; exact full _,
    by rw [bit_hi _ _ (by decide), bit_hi _ _ (by decide), bit_hi _ _ (by decide), bit_hi _ _ (by decide), bit_hi _ _ (by decide), bit_hi _ _ (by decide), bit_lo _ _ (by decide)],
    by rw [cat_hi _ _ (by decide), cat_hi _ _ (by decide), cat_hi _ _ (by decide), cat_hi _ _ (by decide), cat_hi _ _ (by decide), cat_lo _ _ (by decide)]; exact full _,
    by rw [cat_hi _ _ (by decide), cat_hi _ _ (by decide), cat_hi _ _ (by decide), cat_hi _ _ (by decide), cat_lo _ _ (by decide)]; exact full _,
    by rw [cat_hi _ _ (by decide), cat_hi _ _ (by decide), cat_hi _ _ (by decide), cat_lo _ _ (by decide)]; exact full _,
    by rw [cat_hi _ _ (by decide), cat_hi _ _ (by decide), cat_lo _ _ (by decide)]; exact full _,
    by rw [cat_hi _ _ (by decide), cat_lo _ _ (by decide)]; exact full _,
    by rw [bit_hi _ _ (by decide), bit_lo _ _ (by decide)],
    by rw [cat_lo _ _ (by decide)]; exact full _,
    by rw [bit_lo _ _ (by decide)]⟩

theorem shape27 (x0 : BitVec 6) (x1 : BitVec 1) (x2 : BitVec 3) (x3 : BitVec 6) (x4 : BitVec 6) (x5 : BitVec 6) (x6 : BitVec 1) (x7 : BitVec 1) (x8 : BitVec 1) (x9 : BitVec 1) :
    (x0 ++ x1 ++ x2 ++ x3 ++ x4 ++ x5 ++ x6 ++ x7 ++ x8 ++ x9 : Word).extractLsb' 26 6 = x0 ∧
    (x0 ++ x1 ++ x2 ++ x3 ++ x4 ++ x5 ++ x6 ++ x7 ++ x8 ++ x9 : Word).extractLsb' 25 1 = x1 ∧
    (x0 ++ x1 ++ x2 ++ x3 ++ x4 ++ x5 ++ x6 ++ x7 ++ x8 ++ x9 : Word).getLsbD 25 = x1.getLsbD 0 ∧
    (x0 ++ x1 ++ x2 ++ x3 ++ x4 ++ x5 ++ x6 ++ x7 ++ x8 ++ x9 : Word).extractLsb' 22 3 = x2 ∧
    (x0 ++ x1 ++ x2 ++ x3 ++ x4 ++ x5 ++ x6 ++ x7 ++ x8 ++ x9 : Word).extractLsb' 16 6 = x3 ∧
    (x0 ++ x1 ++ x2 ++ x3 ++ x4 ++ x5 ++ x6 ++ x7 ++ x8 ++ x9 : Word).extractLsb' 10 6 = x4 ∧
    (x0 ++ x1 ++ x2 ++ x3 ++ x4 ++ x5 ++ x6 ++ x7 ++ x8 ++ x9 : Word).extractLsb' 4 6 = x5 ∧
    (x0 ++ x1 ++ x2 ++ x3 ++ x4 ++ x5 ++ x6 ++ x7 ++ x8 ++ x9 : Word).extractLsb' 3 1 = x6 ∧
    (x0 ++ x1 ++ x2 ++ x3 ++ x4 ++ x5 ++ x6 ++ x7 ++ x8 ++ x9 : Word).getLsbD 3 = x6.getLsbD 0 ∧
    (x0 ++ x1 ++ x2 ++ x3 ++ x4 ++ x5 ++ x6 ++ x7 ++ x8 ++ x9 : Word).extractLsb' 2 1 = x7 ∧
    (x0 ++ x1 ++ x2 ++ x3 ++ x4 ++ x5 ++ x6 ++ x7 ++ x8 ++ x9 : Word).getLsbD 2 = x7.getLsbD 0 ∧
    (x0 ++ x1 ++ x2 ++ x3 ++ x4 ++ x5 ++ x6 ++ x7 ++ x8 ++ x9 : Word).extractLsb' 1 1 = x8 ∧
    (x0 ++ x1 ++ x2 ++ x3 ++ x4 ++ x5 ++ x6 ++ x7 ++ x8 ++ x9 : Word).getLsbD 1 = x8.getLsbD 0 ∧
    (x0 ++ x1 ++ x2 ++ x3 ++ x4 ++ x5 ++ x6 ++ x7 ++ x8 ++ x9 : Word).extractLsb' 0 1 = x9 ∧
    (x0 ++ x1 ++ x2 ++ x3 ++ x4 ++ x5 ++ x6 ++ x7 ++ x8 ++ x9 : Word).getLsbD 0 = x9.getLsbD 0 :=
  ⟨by rw [cat_hi _ _ (by decide), cat_hi _ _ (by decide), cat_hi _ _ (by decide), cat_hi _ _ (by decide), cat_hi _ _ (by decide), cat_hi _ _ (by decide), cat_hi _ _ (by decide), cat_hi _ _ (by decide), cat_hi _ _ (by decide)]; exact full _,
    by rw [cat_hi _ _ (by decide), cat_hi _ _ (by decide), cat_hi _ _ (by decide), cat_hi _ _ (by decide), cat_hi _ _ (by decide), cat_hi _ _ (by decide), cat_hi _ _ (by decide), cat_hi _ _ (by decide), cat_lo _ _ (by decide)]; exact full _,
    by rw [bit_hi _ _ (by decide), bit_hi _ _ (by decide), bit_hi _ _ (by decide), bit_hi _ _ (by decide), bit_hi _ _ (by decide), bit_hi _ _ (by decide), bit_hi _ _ (by decide), bit_hi _ _ (by decide), bit_lo _ _ (by decide)],
    by rw [cat_hi _ _ (by decide), cat_hi _ _ (by decide), cat_hi _ _ (by decide), cat_hi _ _ (by decide), cat_hi _ _ (by decide), cat_hi _ _ (by decide), cat_hi _ _ (by decide), cat_lo _ _ (by decide)]; exact full _,
    by rw [cat_hi _ _ (by decide), cat_hi _ _ (by decide), cat_hi _ _ (by decide), cat_hi _ _ (by decide), cat_hi _ _ (by decide), cat_hi _ _ (by decide), cat_lo _ _ (by decide)]; exact full _,
    by rw [cat_hi _ _ (by decide), cat_hi _ _ (by decide), cat_hi _ _ (by decide), cat_hi _ _ (by decide), cat_hi _ _ (by decide), cat_lo _ _ (by decide)]; exact full _,
    by rw [cat_hi _ _ (by decide), cat_hi _ _ (by decide), cat_hi _ _ (by decide), cat_hi _ _ (by decide), cat_lo _ _ (by decide)]; exact full _,
    by rw [cat_hi _ _ (by decide), cat_hi _ _ (by decide), cat_hi _ _ (by decide), cat_lo _ _ (by decide)]; exact full _,
    by rw [bit_hi _ _ (by decide), bit_hi _ _ (by decide), bit_hi _ _ (by decide), bit_lo _ _ (by decide)],
    by rw [cat_hi _ _ (by decide), cat_hi _ _ (by decide), cat_lo _ _ (by decide)]; exact full _,
    by rw [bit_hi _ _ (by decide), bit_hi _ _ (by decide), bit_lo _ _ (by decide)],
    by rw [cat_hi _ _ (by decide), cat_lo _ _ (by decide)]; exact full _,
    by rw [bit_hi _ _ (by decide), bit_lo _ _ (by decide)],
    by rw [cat_lo _ _ (by decide)]; exact full _,
    by rw [bit_lo _ _ (by decide)]⟩

theorem shape29 (x0 : BitVec 4) (x1 : BitVec 4) (x2 : BitVec 4) (x3 : BitVec 6) (x4 : BitVec 2) (x5 : BitVec 8) (x6 : BitVec 4) :
    (x0 ++ x1 ++ x2 ++ x3 ++ x4 ++ x5 ++ x6 : Word).extractLsb' 28 4 = x0 ∧
    (x0 ++ x1 ++ x2 ++ x3 ++ x4 ++ x5 ++ x6 : Word).extractLsb' 24 4 = x1 ∧
    (x0 ++ x1 ++ x2 ++ x3 ++ x4 ++ x5 ++ x6 : Word).extractLsb' 20 4 = x2 ∧
    (x0 ++ x1 ++ x2 ++ x3 ++ x4 ++ x5 ++ x6 : Word).extractLsb' 14 6 = x3 ∧
    (x0 ++ x1 ++ x2 ++ x3 ++ x4 ++ x5 ++ x6 : Word).extractLsb' 12 2 = x4 ∧
    (x0 ++ x1 ++ x2 ++ x3 ++ x4 ++ x5 ++ x6 : Word).extractLsb' 4 8 = x5 ∧
    (x0 ++ x1 ++ x2 ++ x3 ++ x4 ++ x5 ++ x6 : Word).extractLsb' 0 4 = x6 :=
  ⟨by rw [cat_hi _ _ (by decide), cat_hi _ _ (by decide), cat_hi _ _ (by decide), cat_hi _ _ (by decide), cat_hi _ _ (by decide), cat_hi _ _ (by decide)]; exact full _,
    by rw [cat_hi _ _ (by decide), cat_hi _ _ (by decide), cat_hi _ _ (by decide), cat_hi _ _ (by decide), cat_hi _ _ (by decide), cat_lo _ _ (by decide)]; exact full _,
    by rw [cat_hi _ _ (by decide), cat_hi _ _ (by decide), cat_hi _ _ (by decide), cat_hi _ _ (by decide), cat_lo _ _ (by decide)]; exact full _,
    by rw [cat_hi _ _ (by decide), cat_hi _ _ (by decide), cat_hi _ _ (by decide), cat_lo _ _ (by decide)]; exact full _,
    by rw [cat_hi _ _ (by decide), cat_hi _ _ (by decide), cat_lo _ _ (by decide)]; exact full _,
    by rw [cat_hi _ _ (by decide), cat_lo _ _ (by decide)]; exact full _,
    by rw [cat_lo _ _ (by decide)]; exact full _⟩

theorem shape30 (x0 : BitVec 4) (x1 : BitVec 4) (x2 : BitVec 4) (x3 : BitVec 6) (x4 : BitVec 10) (x5 : BitVec 4) :
    (x0 ++ x1 ++ x2 ++ x3 ++ x4 ++ x5 : Word).extractLsb' 28 4 = x0 ∧
    (x0 ++ x1 ++ x2 ++ x3 ++ x4 ++ x5 : Word).extractLsb' 24 4 = x1 ∧
    (x0 ++ x1 ++ x2 ++ x3 ++ x4 ++ x5 : Word).extractLsb' 20 4 = x2 ∧
    (x0 ++ x1 ++ x2 ++ x3 ++ x4 ++ x5 : Word).extractLsb' 14 6 = x3 ∧
    (x0 ++ x1 ++ x2 ++ x3 ++ x4 ++ x5 : Word).extractLsb' 4 10 = x4 ∧
    (x0 ++ x1 ++ x2 ++ x3 ++ x4 ++ x5 : Word).extractLsb' 0 4 = x5 :=
  ⟨by rw [cat_hi _ _ (by decide), cat_hi _ _ (by decide), cat_hi _ _ (by decide), cat_hi _ _ (by decide), cat_hi _ _ (by decide)]; exact full _,
    by rw [cat_hi _ _ (by decide), cat_hi _ _ (by decide), cat_hi _ _ (by decide), cat_hi _ _ (by decide), cat_lo _ _ (by decide)]; exact full _,
    by rw [cat_hi _ _ (by decide), cat_hi _ _ (by decide), cat_hi _ _ (by decide), cat_lo _ _ (by decide)]; exact full _,
    by rw [cat_hi _ _ (by decide), cat_hi _ _ (by decide), cat_lo _ _ (by decide)]; exact full _,
    by rw [cat_hi _ _ (by decide), cat_lo _ _ (by decide)]; exact full _,
    by rw [cat_lo _ _ (by decide)]; exact full _⟩

theorem shape31 (x0 : BitVec 4) (x1 : BitVec 4) (x2 : BitVec 4) (x3 : BitVec 5) (x4 : BitVec 5) (x5 : BitVec 6) (x6 : BitVec 4) :
    (x0 ++ x1 ++ x2 ++ x3 ++ x4 ++ x5 ++ x6 : Word).extractLsb' 28 4 = x0 ∧
    (x0 ++ x1 ++ x2 ++ x3 ++ x4 ++ x5 ++ x6 : Word).extractLsb' 24 4 = x1 ∧
    (x0 ++ x1 ++ x2 ++ x3 ++ x4 ++ x5 ++ x6 : Word).extractLsb' 20 4 = x2 ∧
    (x0 ++ x1 ++ x2 ++ x3 ++ x4 ++ x5 ++ x6 : Word).extractLsb' 15 5 = x3 ∧
    (x0 ++ x1 ++ x2 ++ x3 ++ x4 ++ x5 ++ x6 : Word).extractLsb' 10 5 = x4 ∧
    (x0 ++ x1 ++ x2 ++ x3 ++ x4 ++ x5 ++ x6 : Word).extractLsb' 4 6 = x5 ∧
    (x0 ++ x1 ++ x2 ++ x3 ++ x4 ++ x5 ++ x6 : Word).extractLsb' 0 4 = x6 :=
  ⟨by rw [cat_hi _ _ (by decide), cat_hi _ _ (by decide), cat_hi _ _ (by decide), cat_hi _ _ (by decide), cat_hi _ _ (by decide), cat_hi _ _ (by decide)]; exact full _,
    by rw [cat_hi _ _ (by decide), cat_hi _ _ (by decide), cat_hi _ _ (by decide), cat_hi _ _ (by decide), cat_hi _ _ (by decide), cat_lo _ _ (by decide)]; exact full _,
    by rw [cat_hi _ _ (by decide), cat_hi _ _ (by decide), cat_hi _ _ (by decide), cat_hi _ _ (by decide), cat_lo _ _ (by decide)]; exact full _,
    by rw [cat_hi _ _ (by decide), cat_hi _ _ (by decide), cat_hi _ _ (by decide), cat_lo _ _ (by decide)]; exact full _,
    by rw [cat_hi _ _ (by decide), cat_hi _ _ (by decide), cat_lo _ _ (by decide)]; exact full _,
    by rw [cat_hi _ _ (by decide), cat_lo _ _ (by decide)]; exact full _,
    by rw [cat_lo _ _ (by decide)]; exact full _⟩

theorem shape32 (x0 : BitVec 4) (x1 : BitVec 4) (x2 : BitVec 4) (x3 : BitVec 4) (x4 : BitVec 4) (x5 : BitVec 4) (x6 : BitVec 4) (x7 : BitVec 4) :
    (x0 ++ x1 ++ x2 ++ x3 ++ x4 ++ x5 ++ x6 ++ x7 : Word).extractLsb' 28 4 = x0 ∧
    (x0 ++ x1 ++ x2 ++ x3 ++ x4 ++ x5 ++ x6 ++ x7 : Word).extractLsb' 24 4 = x1 ∧
    (x0 ++ x1 ++ x2 ++ x3 ++ x4 ++ x5 ++ x6 ++ x7 : Word).extractLsb' 20 4 = x2 ∧
    (x0 ++ x1 ++ x2 ++ x3 ++ x4 ++ x5 ++ x6 ++ x7 : Word).extractLsb' 16 4 = x3 ∧
    (x0 ++ x1 ++ x2 ++ x3 ++ x4 ++ x5 ++ x6 ++ x7 : Word).extractLsb' 12 4 = x4 ∧
    (x0 ++ x1 ++ x2 ++ x3 ++ x4 ++ x5 ++ x6 ++ x7 : Word).extractLsb' 8 4 = x5 ∧
    (x0 ++ x1 ++ x2 ++ x3 ++ x4 ++ x5 ++ x6 ++ x7 : Word).extractLsb' 4 4 = x6 ∧
    (x0 ++ x1 ++ x2 ++ x3 ++ x4 ++ x5 ++ x6 ++ x7 : Word).extractLsb' 0 4 = x7 :=
  ⟨by rw [cat_hi _ _ (by decide), cat_hi _ _ (by decide), cat_hi _ _ (by decide), cat_hi _ _ (by decide), cat_hi _ _ (by decide), cat_hi _ _ (by decide), cat_hi _ _ (by decide)]; exact full _,
    by rw [cat_hi _ _ (by decide), cat_hi _ _ (by decide), cat_hi _ _ (by decide), cat_hi _ _ (by decide), cat_hi _ _ (by decide), cat_hi _ _ (by decide), cat_lo _ _ (by decide)]; exact full _,
    by rw [cat_hi _ _ (by decide), cat_hi _ _ (by decide), cat_hi _ _ (by decide), cat_hi _ _ (by decide), cat_hi _ _ (by decide), cat_lo _ _ (by decide)]; exact full _,
    by rw [cat_hi _ _ (by decide), cat_hi _ _ (by decide), cat_hi _ _ (by decide), cat_hi _ _ (by decide), cat_lo _ _ (by decide)]; exact full _,
    by rw [cat_hi _ _ (by decide), cat_hi _ _ (by decide), cat_hi _ _ (by decide), cat_lo _ _ (by decide)]; exact full _,
    by rw [cat_hi _ _ (by decide), cat_hi _ _ (by decide), cat_lo _ _ (by decide)]; exact full _,
    by rw [cat_hi _ _ (by decide), cat_lo _ _ (by decide)]; exact full _,
    by rw [cat_lo _ _ (by decide)]; exact full _⟩

theorem shape33 (x0 : BitVec 4) (x1 : BitVec 4) (x2 : BitVec 4) (x3 : BitVec 2) (x4 : BitVec 14) (x5 : BitVec 4) :
    (x0 ++ x1 ++ x2 ++ x3 ++ x4 ++ x5 : Word).extractLsb' 28 4 = x0 ∧
    (x0 ++ x1 ++ x2 ++ x3 ++ x4 ++ x5 : Word).extractLsb' 24 4 = x1 ∧
    (x0 ++ x1 ++ x2 ++ x3 ++ x4 ++ x5 : Word).extractLsb' 20 4 = x2 ∧
    (x0 ++ x1 ++ x2 ++ x3 ++ x4 ++ x5 : Word).extractLsb' 18 2 = x3 ∧
    (x0 ++ x1 ++ x2 ++ x3 ++ x4 ++ x5 : Word).extractLsb' 4 14 = x4 ∧
    (x0 ++ x1 ++ x2 ++ x3 ++ x4 ++ x5 : Word).extractLsb' 0 4 = x5 :=
  ⟨by rw [cat_hi _ _ (by decide), cat_hi _ _ (by decide), cat_hi _ _ (by decide), cat_hi _ _ (by decide), cat_hi _ _ (by decide)]; exact full _,
    by rw [cat_hi _ _ (by decide), cat_hi _ _ (by decide), cat_hi _ _ (by decide), cat_hi _ _ (by decide), cat_lo _ _ (by decide)]; exact full _,
    by rw [cat_hi _ _ (by decide), cat_hi _ _ (by decide), cat_hi _ _ (by decide), cat_lo _ _ (by decide)]; exact full _,
    by rw [cat_hi _ _ (by decide), cat_hi _ _ (by decide), cat_lo _ _ (by decide)]; exact full _,
    by rw [cat_hi _ _ (by decide), cat_lo _ _ (by decide)]; exact full _,
    by rw [cat_lo _ _ (by decide)]; exact full _⟩

theorem shape34 (x0 : BitVec 4) (x1 : BitVec 4) (x2 : BitVec 4) (x3 : BitVec 6) (x4 : BitVec 2) (x5 : BitVec 12) :
    (x0 ++ x1 ++ x2 ++ x3 ++ x4 ++ x5 : Word).extractLsb' 28 4 = x0 ∧
    (x0 ++ x1 ++ x2 ++ x3 ++ x4 ++ x5 : Word).extractLsb' 24 4 = x1 ∧
    (x0 ++ x1 ++ x2 ++ x3 ++ x4 ++ x5 : Word).extractLsb' 20 4 = x2 ∧
    (x0 ++ x1 ++ x2 ++ x3 ++ x4 ++ x5 : Word).extractLsb' 14 6 = x3 ∧
    (x0 ++ x1 ++ x2 ++ x3 ++ x4 ++ x5 : Word).extractLsb' 12 2 = x4 ∧
    (x0 ++ x1 ++ x2 ++ x3 ++ x4 ++ x5 : Word).extractLsb' 0 12 = x5 :=
  ⟨by rw [cat_hi _ _ (by decide), cat_hi _ _ (by decide), cat_hi _ _ (by decide), cat_hi _ _ (by decide), cat_hi _ _ (by decide)]; exact full _,
    by rw [cat_hi _ _ (by decide), cat_hi _ _ (by decide), cat_hi _ _ (by decide), cat_hi _ _ (by decide), cat_lo _ _ (by decide)]; exact full _,
    by rw [cat_hi _ _ (by decide), cat_hi _ _ (by decide), cat_hi _ _ (by decide), cat_lo _ _ (by decide)]; exact full _,
    by rw [cat_hi _ _ (by decide), cat_hi _ _ (by decide), cat_lo _ _ (by decide)]; exact full _,
    by rw [cat_hi _ _ (by decide), cat_lo _ _ (by decide)]; exact full _,
    by rw [cat_lo _ _ (by decide)]; exact full _⟩

theorem shape35 (x0 : BitVec 6) (x1 : BitVec 1) (x2 : BitVec 4) (x3 : BitVec 21) :
    (x0 ++ x1 ++ x2 ++ x3 : Word).extractLsb' 26 6 = x0 ∧
    (x0 ++ x1 ++ x2 ++ x3 : Word).extractLsb' 25 1 = x1 ∧
    (x0 ++ x1 ++ x2 ++ x3 : Word).getLsbD 25 = x1.getLsbD 0 ∧
    (x0 ++ x1 ++ x2 ++ x3 : Word).extractLsb' 21 4 = x2 ∧
    (x0 ++ x1 ++ x2 ++ x3 : Word).extractLsb' 0 21 = x3 :=
  ⟨by rw [cat_hi _ _ (by decide), cat_hi _ _ (by decide), cat_hi _ _ (by decide)]; exact full _,
    by rw [cat_hi _ _ (by decide), cat_hi _ _ (by decide), cat_lo _ _ (by decide)]; exact full _,
    by rw [bit_hi _ _ (by decide), bit_hi _ _ (by decide), bit_lo _ _ (by decide)],
    by rw [cat_hi _ _ (by decide), cat_lo _ _ (by decide)]; exact full _,
    by rw [cat_lo _ _ (by decide)]; exact full _⟩

theorem shape36 (x0 : BitVec 6) (x1 : BitVec 1) (x2 : BitVec 4) (x3 : BitVec 6) (x4 : BitVec 6) (x5 : BitVec 6) (x6 : BitVec 3) :
    (x0 ++ x1 ++ x2 ++ x3 ++ x4 ++ x5 ++ x6 : Word).extractLsb' 26 6 = x0 ∧
    (x0 ++ x1 ++ x2 ++ x3 ++ x4 ++ x5 ++ x6 : Word).extractLsb' 25 1 = x1 ∧
    (x0 ++ x1 ++ x2 ++ x3 ++ x4 ++ x5 ++ x6 : Word).getLsbD 25 = x1.getLsbD 0 ∧
    (x0 ++ x1 ++ x2 ++ x3 ++ x4 ++ x5 ++ x6 : Word).extractLsb' 21 4 = x2 ∧
    (x0 ++ x1 ++ x2 ++ x3 ++ x4 ++ x5 ++ x6 : Word).extractLsb' 15 6 = x3 ∧
    (x0 ++ x1 ++ x2 ++ x3 ++ x4 ++ x5 ++ x6 : Word).extractLsb' 9 6 = x4 ∧
    (x0 ++ x1 ++ x2 ++ x3 ++ x4 ++ x5 ++ x6 : Word).extractLsb' 3 6 = x5 ∧
    (x0 ++ x1 ++ x2 ++ x3 ++ x4 ++ x5 ++ x6 : Word).extractLsb' 0 3 = x6 :=
  ⟨by rw [cat_hi _ _ (by decide), cat_hi _ _ (by decide), cat_hi _ _ (by decide), cat_hi _ _ (by decide), cat_hi _ _ (by decide), cat_hi _ _ (by decide)]; exact full _,
    by rw [cat_hi _ _ (by decide), cat_hi _ _ (by decide), cat_hi _ _ (by decide), cat_hi _ _ (by decide), cat_hi _ _ (by decide), cat_lo _ _ (by decide)]; exact full _,
    by rw [bit_hi _ _ (by decide), bit_hi _ _ (by decide), bit_hi _ _ (by decide), bit_hi _ _ (by decide), bit_hi _ _ (by decide), bit_lo _ _ (by decide)],
    by rw [cat_hi _ _ (by decide), cat_hi _ _ (by decide), cat_hi _ _ (by decide), cat_hi _ _ (by decide), cat_lo _ _ (by decide)]; exact full _,
    by rw [cat_hi _ _ (by decide), cat_hi _ _ (by decide), cat_hi _ _ (by decide), cat_lo _ _ (by decide)]; exact full _,
    by rw [cat_hi _ _ (by decide), cat_hi _ _ (by decide), cat_lo _ _ (by decide)]; exact full _,
    by rw [cat_hi _ _ (by decide), cat_lo _ _ (by decide)]; exact full _,
    by rw [cat_lo _ _ (by decide)]; exact full _⟩

theorem shape37 (x0 : BitVec 6) (x1 : BitVec 1) (x2 : BitVec 4) (x3 : BitVec 6) (x4 : BitVec 6) (x5 : BitVec 6) (x6 : BitVec 2) (x7 : BitVec 1) :
    (x0 ++ x1 ++ x2 ++ x3 ++ x4 ++ x5 ++ x6 ++ x7 : Word).extractLsb' 26 6 = x0 ∧
    (x0 ++ x1 ++ x2 ++ x3 ++ x4 ++ x5 ++ x6 ++ x7 : Word).extractLsb' 25 1 = x1 ∧
    (x0 ++ x1 ++ x2 ++ x3 ++ x4 ++ x5 ++ x6 ++ x7 : Word).getLsbD 25 = x1.getLsbD 0 ∧
    (x0 ++ x1 ++ x2 ++ x3 ++ x4 ++ x5 ++ x6 ++ x7 : Word).extractLsb' 21 4 = x2 ∧
    (x0 ++ x1 ++ x2 ++ x3 ++ x4 ++ x5 ++ x6 ++ x7 : Word).extractLsb' 15 6 = x3 ∧
    (x0 ++ x1 ++ x2 ++ x3 ++ x4 ++ x5 ++ x6 ++ x7 : Word).extractLsb' 9 6 = x4 ∧
    (x0 ++ x1 ++ x2 ++ x3 ++ x4 ++ x5 ++ x6 ++ x7 : Word).extractLsb' 3 6 = x5 ∧
    (x0 ++ x1 ++ x2 ++ x3 ++ x4 ++ x5 ++ x6 ++ x7 : Word).extractLsb' 1 2 = x6 ∧
    (x0 ++ x1 ++ x2 ++ x3 ++ x4 ++ x5 ++ x6 ++ x7 : Word).extractLsb' 0 1 = x7 ∧
    (x0 ++ x1 ++ x2 ++ x3 ++ x4 ++ x5 ++ x6 ++ x7 : Word).getLsbD 0 = x7.getLsbD 0 :=
  ⟨by rw [cat_hi _ _ (by decide), cat_hi _ _ (by decide), cat_hi _ _ (by decide), cat_hi _ _ (by decide), cat_hi _ _ (by decide), cat_hi _ _ (by decide), cat_hi _ _ (by decide)]; exact full _,
    by rw [cat_hi _ _ (by decide), cat_hi _ _ (by decide), cat_hi _ _ (by decide), cat_hi _ _ (by decide), cat_hi _ _ (by decide), cat_hi _ _ (by decide), cat_lo _ _ (by decide)]; exact full _,
    by rw [bit_hi _ _ (by decide), bit_hi _ _ (by decide), bit_hi _ _ (by decide), bit_hi _ _ (by decide), bit_hi _ _ (by decide), bit_hi _ _ (by decide), bit_lo _ _ (by decide)],
    by rw [cat_hi _ _ (by decide), cat_hi _ _ (by decide), cat_hi _ _ (by decide), cat_hi _ _ (by decide), cat_hi _ _ (by decide), cat_lo _ _ (by decide)]; exact full _,
    by rw [cat_hi _ _ (by decide), cat_hi _ _ (by decide), cat_hi _ _ (by decide), cat_hi _ _ (by decide), cat_lo _ _ (by decide)]; exact full _,
    by rw [cat_hi _ _ (by decide), cat_hi _ _ (by decide), cat_hi _ _ (by decide), cat_lo _ _ (by decide)]; exact full _,
    by rw [cat_hi _ _ (by decide), cat_hi _ _ (by decide), cat_lo _ _ (by decide)]; exact full _,
    by rw [cat_hi _ _ (by decide), cat_lo _ _ (by decide)]; exact full _,
    by rw [cat_lo _ _ (by decide)]; exact full _,
    by rw [bit_lo _ _ (by decide)]⟩

theorem shape38 (x0 : BitVec 6) (x1 : BitVec 1) (x2 : BitVec 4) (x3 : BitVec 2) (x4 : BitVec 4) (x5 : BitVec 6) (x6 : BitVec 6) (x7 : BitVec 3) :
    (x0 ++ x1 ++ x2 ++ x3 ++ x4 ++ x5 ++ x6 ++ x7 : Word).extractLsb' 26 6 = x0 ∧
    (x0 ++ x1 ++ x2 ++ x3 ++ x4 ++ x5 ++ x6 ++ x7 : Word).extractLsb' 25 1 = x1 ∧
    (x0 ++ x1 ++ x2 ++ x3 ++ x4 ++ x5 ++ x6 ++ x7 : Word).getLsbD 25 = x1.getLsbD 0 ∧
    (x0 ++ x1 ++ x2 ++ x3 ++ x4 ++ x5 ++ x6 ++ x7 : Word).extractLsb' 21 4 = x2 ∧
    (x0 ++ x1 ++ x2 ++ x3 ++ x4 ++ x5 ++ x6 ++ x7 : Word).extractLsb' 19 2 = x3 ∧
    (x0 ++ x1 ++ x2 ++ x3 ++ x4 ++ x5 ++ x6 ++ x7 : Word).extractLsb' 15 4 = x4 ∧
    (x0 ++ x1 ++ x2 ++ x3 ++ x4 ++ x5 ++ x6 ++ x7 : Word).extractLsb' 9 6 = x5 ∧
    (x0 ++ x1 ++ x2 ++ x3 ++ x4 ++ x5 ++ x6 ++ x7 : Word).extractLsb' 3 6 = x6 ∧
    (x0 ++ x1 ++ x2 ++ x3 ++ x4 ++ x5 ++ x6 ++ x7 : Word).extractLsb' 0 3 = x7 :=
  ⟨by rw [cat_hi _ _ (by decide), cat_hi _ _ (by decide), cat_hi _ _ (by decide), cat_hi _ _ (by decide), cat_hi _ _ (by decide), cat_hi _ _ (by decide), cat_hi _ _ (by decide)]; exact full _,
    by rw [cat_hi _ _ (by decide), cat_hi _ _ (by decide), cat_hi _ _ (by decide), cat_hi _ _ (by decide), cat_hi _ _ (by decide), cat_hi _ _ (by decide), cat_lo _ _ (by decide)]; exact full _,
    by rw [bit_hi _ _ (by decide), bit_hi _ _ (by decide), bit_hi _ _ (by decide), bit_hi _ _ (by decide), bit_hi _ _ (by decide), bit_hi _ _ (by decide), bit_lo _ _ (by decide)],
    by rw [cat_hi _ _ (by decide), cat_hi _ _ (by decide), cat_hi _ _ (by decide), cat_hi _ _ (by decide), cat_hi _ _ (by decide), cat_lo _ _ (by decide)]; exact full _,
    by rw [cat_hi _ _ (by decide), cat_hi _ _ (by decide), cat_hi _ _ (by decide), cat_hi _ _ (by decide), cat_lo _ _ (by decide)]; exact full _,
    by rw [cat_hi _ _ (by decide), cat_hi _ _ (by decide), cat_hi _ _ (by decide), cat_lo _ _ (by decide)]; exact full _,
    by rw [cat_hi _ _ (by decide), cat_hi _ _ (by decide), cat_lo _ _ (by decide)]; exact full _,
    by rw [cat_hi _ _ (by decide), cat_lo _ _ (by decide)]; exact full _,
    by rw [cat_lo _ _ (by decide)]; exact full _⟩

theorem shape39 (x0 : BitVec 6) (x1 : BitVec 1) (x2 : BitVec 4) (x3 : BitVec 6) (x4 : BitVec 15) :
    (x0 ++ x1 ++ x2 ++ x3 ++ x4 : Word).extractLsb' 26 6 = x0 ∧
    (x0 ++ x1 ++ x2 ++ x3 ++ x4 : Word).extractLsb' 25 1 = x1 ∧
    (x0 ++ x1 ++ x2 ++ x3 ++ x4 : Word).getLsbD 25 = x1.getLsbD 0 ∧
    (x0 ++ x1 ++ x2 ++ x3 ++ x4 : Word).extractLsb' 21 4 = x2 ∧
    (x0 ++ x1 ++ x2 ++ x3 ++ x4 : Word).extractLsb' 15 6 = x3 ∧
    (x0 ++ x1 ++ x2 ++ x3 ++ x4 : Word).extractLsb' 0 15 = x4 :=
  ⟨by rw [cat_hi _ _ (by decide), cat_hi _ _ (by decide), cat_hi _ _ (by decide), cat_hi _ _ (by decide)]; exact full _,
    by rw [cat_hi _ _ (by decide), cat_hi _ _ (by decide), cat_hi _ _ (by decide), cat_lo _ _ (by decide)]; exact full _,
    by rw [bit_hi _ _ (by decide), bit_hi _ _ (by decide), bit_hi _ _ (by decide), bit_lo _ _ (by decide)],
    by rw [cat_hi _ _ (by decide), cat_hi _ _ (by decide), cat_lo _ _ (by decide)]; exact full _,
    by rw [cat_hi _ _ (by decide), cat_lo _ _ (by decide)]; exact full _,
    by rw [cat_lo _ _ (by decide)]; exact full _⟩

theorem shape40 (x0 : BitVec 6) (x1 : BitVec 1) (x2 : BitVec 4) (x3 : BitVec 6) (x4 : BitVec 6) (x5 : BitVec 9) :
    (x0 ++ x1 ++ x2 ++ x3 ++ x4 ++ x5 : Word).extractLsb' 26 6 = x0 ∧
    (x0 ++ x1 ++ x2 ++ x3 ++ x4 ++ x5 : Word).extractLsb' 25 1 = x1 ∧
    (x0 ++ x1 ++ x2 ++ x3 ++ x4 ++ x5 : Word).getLsbD 25 = x1.getLsbD 0 ∧
    (x0 ++ x1 ++ x2 ++ x3 ++ x4 ++ x5 : Word).extractLsb' 21 4 = x2 ∧
    (x0 ++ x1 ++ x2 ++ x3 ++ x4 ++ x5 : Word).extractLsb' 15 6 = x3 ∧
    (x0 ++ x1 ++ x2 ++ x3 ++ x4 ++ x5 : Word).extractLsb' 9 6 = x4 ∧
    (x0 ++ x1 ++ x2 ++ x3 ++ x4 ++ x5 : Word).extractLsb' 0 9 = x5 :=
  ⟨by rw [cat_hi _ _ (by decide), cat_hi _ _ (by decide), cat_hi _ _ (by decide), cat_hi _ _ (by decide), cat_hi _ _ (by decide)]; exact full _,
    by rw [cat_hi _ _ (by decide), cat_hi _ _ (by decide), cat_hi _ _ (by decide), cat_hi _ _ (by decide), cat_lo _ _ (by decide)]; exact full _,
    by rw [bit_hi _ _ (by decide), bit_hi _ _ (by decide), bit_hi _ _ (by decide), bit_hi _ _ (by decide), bit_lo _ _ (by decide)],
    by rw [cat_hi _ _ (by decide), cat_hi _ _ (by decide), cat_hi _ _ (by decide), cat_lo _ _ (by decide)]; exact full _,
    by rw [cat_hi _ _ (by decide), cat_hi _ _ (by decide), cat_lo _ _ (by decide)]; exact full _,
    by rw [cat_hi _ _ (by decide), cat_lo _ _ (by decide)]; exact full _,
    by rw [cat_lo _ _ (by decide)]; exact full _⟩

theorem shape41 (x0 : BitVec 6) (x1 : BitVec 1) (x2 : BitVec 4) (x3 : BitVec 6) (x4 : BitVec 6) (x5 : BitVec 6) (x6 : BitVec 1) (x7 : BitVec 2) :
    (x0 ++ x1 ++ x2 ++ x3 ++ x4 ++ x5 ++ x6 ++ x7 : Word).extractLsb' 26 6 = x0 ∧
    (x0 ++ x1 ++ x2 ++ x3 ++ x4 ++ x5 ++ x6 ++ x7 : Word).extractLsb' 25 1 = x1 ∧
    (x0 ++ x1 ++ x2 ++ x3 ++ x4 ++ x5 ++ x6 ++ x7 : Word).getLsbD 25 = x1.getLsbD 0 ∧
    (x0 ++ x1 ++ x2 ++ x3 ++ x4 ++ x5 ++ x6 ++ x7 : Word).extractLsb' 21 4 = x2 ∧
    (x0 ++ x1 ++ x2 ++ x3 ++ x4 ++ x5 ++ x6 ++ x7 : Word).extractLsb' 15 6 = x3 ∧
    (x0 ++ x1 ++ x2 ++ x3 ++ x4 ++ x5 ++ x6 ++ x7 : Word).extractLsb' 9 6 = x4 ∧
    (x0 ++ x1 ++ x2 ++ x3 ++ x4 ++ x5 ++ x6 ++ x7 : Word).extractLsb' 3 6 = x5 ∧
    (x0 ++ x1 ++ x2 ++ x3 ++ x4 ++ x5 ++ x6 ++ x7 : Word).extractLsb' 2 1 = x6 ∧
    (x0 ++ x1 ++ x2 ++ x3 ++ x4 ++ x5 ++ x6 ++ x7 : Word).getLsbD 2 = x6.getLsbD 0 ∧
    (x0 ++ x1 ++ x2 ++ x3 ++ x4 ++ x5 ++ x6 ++ x7 : Word).extractLsb' 0 2 = x7 :=
  ⟨by rw [cat_hi _ _ (by decide), cat_hi _ _ (by decide), cat_hi _ _ (by decide), cat_hi _ _ (by decide), cat_hi _ _ (by decide), cat_hi _ _ (by decide), cat_hi _ _ (by decide)]; exact full _,
    by rw [cat_hi _ _ (by decide), cat_hi _ _ (by decide), cat_hi _ _ (by decide), cat_hi _ _ (by decide), cat_hi _ _ (by decide), cat_hi _ _ (by decide), cat_lo _ _ (by decide)]; exact full _,
    by rw [bit_hi _ _ (by decide), bit_hi _ _ (by decide), bit_hi _ _ (by decide), bit_hi _ _ (by decide), bit_hi _ _ (by decide), bit_hi _ _ (by decide), bit_lo _ _ (by decide)],
    by rw [cat_hi _ _ (by decide), cat_hi _ _ (by decide), cat_hi _ _ (by decide), cat_hi _ _ (by decide), cat_hi _ _ (by decide), cat_lo _ _ (by decide)]; exact full _,
    by rw [cat_hi _ _ (by decide), cat_hi _ _ (by decide), cat_hi _ _ (by decide), cat_hi _ _ (by decide), cat_lo _ _ (by decide)]; exact full _,
    by rw [cat_hi _ _ (by decide), cat_hi _ _ (by decide), cat_hi _ _ (by decide), cat_lo _ _ (by decide)]; exact full _,
    by rw [cat_hi _ _ (by decide), cat_hi _ _ (by decide), cat_lo _ _ (by decide)]; exact full _,
    by rw [cat_hi _ _ (by decide), cat_lo _ _ (by decide)]; exact full _,
    by rw [bit_hi _ _ (by decide), bit_lo _ _ (by decide)],
    by rw [cat_lo _ _ (by decide)]; exact full _⟩

theorem shape42 (x0 : BitVec 6) (x1 : BitVec 1) (x2 : BitVec 4) (x3 : BitVec 2) (x4 : BitVec 4) (x5 : BitVec 6) (x6 : BitVec 6) (x7 : BitVec 1) (x8 : BitVec 2) :
    (x0 ++ x1 ++ x2 ++ x3 ++ x4 ++ x5 ++ x6 ++ x7 ++ x8 : Word).extractLsb' 26 6 = x0 ∧
    (x0 ++ x1 ++ x2 ++ x3 ++ x4 ++ x5 ++ x6 ++ x7 ++ x8 : Word).extractLsb' 25 1 = x1 ∧
    (x0 ++ x1 ++ x2 ++ x3 ++ x4 ++ x5 ++ x6 ++ x7 ++ x8 : Word).getLsbD 25 = x1.getLsbD 0 ∧
    (x0 ++ x1 ++ x2 ++ x3 ++ x4 ++ x5 ++ x6 ++ x7 ++ x8 : Word).extractLsb' 21 4 = x2 ∧
    (x0 ++ x1 ++ x2 ++ x3 ++ x4 ++ x5 ++ x6 ++ x7 ++ x8 : Word).extractLsb' 19 2 = x3 ∧
    (x0 ++ x1 ++ x2 ++ x3 ++ x4 ++ x5 ++ x6 ++ x7 ++ x8 : Word).extractLsb' 15 4 = x4 ∧
    (x0 ++ x1 ++ x2 ++ x3 ++ x4 ++ x5 ++ x6 ++ x7 ++ x8 : Word).extractLsb' 9 6 = x5 ∧
    (x0 ++ x1 ++ x2 ++ x3 ++ x4 ++ x5 ++ x6 ++ x7 ++ x8 : Word).extractLsb' 3 6 = x6 ∧
    (x0 ++ x1 ++ x2 ++ x3 ++ x4 ++ x5 ++ x6 ++ x7 ++ x8 : Word).extractLsb' 2 1 = x7 ∧
    (x0 ++ x1 ++ x2 ++ x3 ++ x4 ++ x5 ++ x6 ++ x7 ++ x8 : Word).getLsbD 2 = x7.getLsbD 0 ∧
    (x0 ++ x1 ++ x2 ++ x3 ++ x4 ++ x5 ++ x6 ++ x7 ++ x8 : Word).extractLsb' 0 2 = x8 :=
  ⟨by rw [cat_hi _ _ (by decide), cat_hi _ _ (by decide), cat_hi _ _ (by decide), cat_hi _ _ (by decide), cat_hi _ _ (by decide), cat_hi _ _ (by decide), cat_hi _ _ (by decide), cat_hi _ _ (by decide)]; exact full _,
    by rw [cat_hi _ _ (by decide), cat_hi _ _ (by decide), cat_hi _ _ (by decide), cat_hi _ _ (by decide), cat_hi _ _ (by decide), cat_hi _ _ (by decide), cat_hi _ _ (by decide), cat_lo _ _ (by decide)]; exact full _,
    by rw [bit_hi _ _ (by decide), bit_hi _ _ (by decide), bit_hi _ _ (by decide), bit_hi _ _ (by decide), bit_hi _ _ (by decide), bit_hi _ _ (by decide), bit_hi _ _ (by decide), bit_lo _ _ (by decide)],
    by rw [cat_hi _ _ (by decide), cat_hi _ _ (by decide), cat_hi _ _ (by decide), cat_hi _ _ (by decide), cat_hi _ _ (by decide), cat_hi _ _ (by decide), cat_lo _ _ (by decide)]; exact full _,
    by rw [cat_hi _ _ (by decide), cat_hi _ _ (by decide), cat_hi _ _ (by decide), cat_hi _ _ (by decide), cat_hi _ _ (by decide), cat_lo _ _ (by decide)]; exact full _,
    by rw [cat_hi _ _ (by decide), cat_hi _ _ (by decide), cat_hi _ _ (by decide), cat_hi _ _ (by decide), cat_lo _ _ (by decide)]; exact full _,
    by rw [cat_hi _ _ (by decide), cat_hi _ _ (by decide), cat_hi _ _ (by decide), cat_lo _ _ (by decide)]; exact full _,
    by rw [cat_hi _ _ (by decide), cat_hi _ _ (by decide), cat_lo _ _ (by decide)]; exact full _,
    by rw [cat_hi _ _ (by decide), cat_lo _ _ (by decide)]; exact full _,
    by rw [bit_hi _ _ (by decide), bit_lo _ _ (by decide)],
    by rw [cat_lo _ _ (by decide)]; exact full _⟩

theorem shape43 (x0 : BitVec 6) (x1 : BitVec 1) (x2 : BitVec 4) (x3 : BitVec 2) (x4 : BitVec 4) (x5 : BitVec 2) (x6 : BitVec 4) (x7 : BitVec 2) (x8 : BitVec 4) (x9 : BitVec 3) :
    (x0 ++ x1 ++ x2 ++ x3 ++ x4 ++ x5 ++ x6 ++ x7 ++ x8 ++ x9 : Word).extractLsb' 26 6 = x0 ∧
    (x0 ++ x1 ++ x2 ++ x3 ++ x4 ++ x5 ++ x6 ++ x7 ++ x8 ++ x9 : Word).extractLsb' 25 1 = x1 ∧
    (x0 ++ x1 ++ x2 ++ x3 ++ x4 ++ x5 ++ x6 ++ x7 ++ x8 ++ x9 : Word).getLsbD 25 = x1.getLsbD 0 ∧
    (x0 ++ x1 ++ x2 ++ x3 ++ x4 ++ x5 ++ x6 ++ x7 ++ x8 ++ x9 : Word).extractLsb' 21 4 = x2 ∧
    (x0 ++ x1 ++ x2 ++ x3 ++ x4 ++ x5 ++ x6 ++ x7 ++ x8 ++ x9 : Word).extractLsb' 19 2 = x3 ∧
    (x0 ++ x1 ++ x2 ++ x3 ++ x4 ++ x5 ++ x6 ++ x7 ++ x8 ++ x9 : Word).extractLsb' 15 4 = x4 ∧
    (x0 ++ x1 ++ x2 ++ x3 ++ x4 ++ x5 ++ x6 ++ x7 ++ x8 ++ x9 : Word).extractLsb' 13 2 = x5 ∧
    (x0 ++ x1 ++ x2 ++ x3 ++ x4 ++ x5 ++ x6 ++ x7 ++ x8 ++ x9 : Word).extractLsb' 9 4 = x6 ∧
    (x0 ++ x1 ++ x2 ++ x3 ++ x4 ++ x5 ++ x6 ++ x7 ++ x8 ++ x9 : Word).extractLsb' 7 2 = x7 ∧
    (x0 ++ x1 ++ x2 ++ x3 ++ x4 ++ x5 ++ x6 ++ x7 ++ x8 ++ x9 : Word).extractLsb' 3 4 = x8 ∧
    (x0 ++ x1 ++ x2 ++ x3 ++ x4 ++ x5 ++ x6 ++ x7 ++ x8 ++ x9 : Word).extractLsb' 0 3 = x9 :=
  ⟨by rw [cat_hi _ _ (by decide), cat_hi _ _ (by decide), cat_hi _ _ (by decide), cat_hi _ _ (by decide), cat_hi _ _ (by decide), cat_hi _ _ (by decide), cat_hi _ _ (by decide), cat_hi _ _ (by decide), cat_hi _ _ (by decide)]; exact full _,
    by rw [cat_hi _ _ (by decide), cat_hi _ _ (by decide), cat_hi _ _ (by decide), cat_hi _ _ (by decide), cat_hi _ _ (by decide), cat_hi _ _ (by decide), cat_hi _ _ (by decide), cat_hi _ _ (by decide), cat_lo _ _ (by decide)]; exact full _,
    by rw [bit_hi _ _ (by decide), bit_hi _ _ (by decide), bit_hi _ _ (by decide), bit_hi _ _ (by decide), bit_hi _ _ (by decide), bit_hi _ _ (by decide), bit_hi _ _ (by decide), bit_hi _ _ (by decide), bit_lo _ _ (by decide)],
    by rw [cat_hi _ _ (by decide), cat_hi _ _ (by decide), cat_hi _ _ (by decide), cat_hi _ _ (by decide), cat_hi _ _ (by decide), cat_hi _ _ (by decide), cat_hi _ _ (by decide), cat_lo _ _ (by decide)]; exact full _,
    by rw [cat_hi _ _ (by decide), cat_hi _ _ (by decide), cat_hi _ _ (by decide), cat_hi _ _ (by decide), cat_hi _ _ (by decide), cat_hi _ _ (by decide), cat_lo _ _ (by decide)]; exact full _,
    by rw [cat_hi _ _ (by decide), cat_hi _ _ (by decide), cat_hi _ _ (by decide), cat_hi _ _ (by decide), cat_hi _ _ (by decide), cat_lo _ _ (by decide)]; exact full _,
    by rw [cat_hi _ _ (by decide), cat_hi _ _ (by decide), cat_hi _ _ (by decide), cat_hi _ _ (by decide), cat_lo _ _ (by decide)]; exact full _,
    by rw [cat_hi _ _ (by decide), cat_hi _ _ (by decide), cat_hi _ _ (by decide), cat_lo _ _ (by decide)]; exact full _,
    by rw [cat_hi _ _ (by decide), cat_hi _ _ (by decide), cat_lo _ _ (by decide)]; exact full _,
    by rw [cat_hi _ _ (by decide), cat_lo _ _ (by decide)]; exact full _,
    by rw [cat_lo _ _ (by decide)]; exact full _⟩

theorem shape44 (x0 : BitVec 6) (x1 : BitVec 1) (x2 : BitVec 4) (x3 : BitVec 2) (x4 : BitVec 4) (x5 : BitVec 2) (x6 : BitVec 4) (x7 : BitVec 9) :
    (x0 ++ x1 ++ x2 ++ x3 ++ x4 ++ x5 ++ x6 ++ x7 : Word).extractLsb' 26 6 = x0 ∧
    (x0 ++ x1 ++ x2 ++ x3 ++ x4 ++ x5 ++ x6 ++ x7 : Word).extractLsb' 25 1 = x1 ∧
    (x0 ++ x1 ++ x2 ++ x3 ++ x4 ++ x5 ++ x6 ++ x7 : Word).getLsbD 25 = x1.getLsbD 0 ∧
    (x0 ++ x1 ++ x2 ++ x3 ++ x4 ++ x5 ++ x6 ++ x7 : Word).extractLsb' 21 4 = x2 ∧
    (x0 ++ x1 ++ x2 ++ x3 ++ x4 ++ x5 ++ x6 ++ x7 : Word).extractLsb' 19 2 = x3 ∧
    (x0 ++ x1 ++ x2 ++ x3 ++ x4 ++ x5 ++ x6 ++ x7 : Word).extractLsb' 15 4 = x4 ∧
    (x0 ++ x1 ++ x2 ++ x3 ++ x4 ++ x5 ++ x6 ++ x7 : Word).extractLsb' 13 2 = x5 ∧
    (x0 ++ x1 ++ x2 ++ x3 ++ x4 ++ x5 ++ x6 ++ x7 : Word).extractLsb' 9 4 = x6 ∧
    (x0 ++ x1 ++ x2 ++ x3 ++ x4 ++ x5 ++ x6 ++ x7 : Word).extractLsb' 0 9 = x7 :=
  ⟨by rw [cat_hi _ _ (by decide), cat_hi _ _ (by decide), cat_hi _ _ (by decide), cat_hi _ _ (by decide), cat_hi _ _ (by decide), cat_hi _ _ (by decide), cat_hi _ _ (by decide)]; exact full _,
    by rw [cat_hi _ _ (by decide), cat_hi _ _ (by decide), cat_hi _ _ (by decide), cat_hi _ _ (by decide), cat_hi _ _ (by decide), cat_hi _ _ (by decide), cat_lo _ _ (by decide)]; exact full _,
    by rw [bit_hi _ _ (by decide), bit_hi _ _ (by decide), bit_hi _ _ (by decide), bit_hi _ _ (by decide), bit_hi _ _ (by decide), bit_hi _ _ (by decide), bit_lo _ _ (by decide)],
    by rw [cat_hi _ _ (by decide), cat_hi _ _ (by decide), cat_hi _ _ (by decide), cat_hi _ _ (by decide), cat_hi _ _ (by decide), cat_lo _ _ (by decide)]; exact full _,
    by rw [cat_hi _ _ (by decide), cat_hi _ _ (by decide), cat_hi _ _ (by decide), cat_hi _ _ (by decide), cat_lo _ _ (by decide)]; exact full _,
    by rw [cat_hi _ _ (by decide), cat_hi _ _ (by decide), cat_hi _ _ (by decide), cat_lo _ _ (by decide)]; exact full _,
    by rw [cat_hi _ _ (by decide), cat_hi _ _ (by decide), cat_lo _ _ (by decide)]; exact full _,
    by rw [cat_hi _ _ (by decide), cat_lo _ _ (by decide)]; exact full _,
    by rw [cat_lo _ _ (by decide)]; exact full _⟩

theorem shape45 (x0 : BitVec 6) (x1 : BitVec 1) (x2 : BitVec 4) (x3 : BitVec 6) (x4 : BitVec 6) (x5 : BitVec 7) (x6 : BitVec 2) :
    (x0 ++ x1 ++ x2 ++ x3 ++ x4 ++ x5 ++ x6 : Word).extractLsb' 26 6 = x0 ∧
    (x0 ++ x1 ++ x2 ++ x3 ++ x4 ++ x5 ++ x6 : Word).extractLsb' 25 1 = x1 ∧
    (x0 ++ x1 ++ x2 ++ x3 ++ x4 ++ x5 ++ x6 : Word).getLsbD 25 = x1.getLsbD 0 ∧
    (x0 ++ x1 ++ x2 ++ x3 ++ x4 ++ x5 ++ x6 : Word).extractLsb' 21 4 = x2 ∧
    (x0 ++ x1 ++ x2 ++ x3 ++ x4 ++ x5 ++ x6 : Word).extractLsb' 15 6 = x3 ∧
    (x0 ++ x1 ++ x2 ++ x3 ++ x4 ++ x5 ++ x6 : Word).extractLsb' 9 6 = x4 ∧
    (x0 ++ x1 ++ x2 ++ x3 ++ x4 ++ x5 ++ x6 : Word).extractLsb' 2 7 = x5 ∧
    (x0 ++ x1 ++ x2 ++ x3 ++ x4 ++ x5 ++ x6 : Word).extractLsb' 0 2 = x6 :=
  ⟨by rw [cat_hi _ _ (by decide), cat_hi _ _ (by decide), cat_hi _ _ (by decide), cat_hi _ _ (by decide), cat_hi _ _ (by decide), cat_hi _ _ (by decide)]; exact full _,
    by rw [cat_hi _ _ (by decide), cat_hi _ _ (by decide), cat_hi _ _ (by decide), cat_hi _ _ (by decide), cat_hi _ _ (by decide), cat_lo _ _ (by decide)]; exact full _,
    by rw [bit_hi _ _ (by decide), bit_hi _ _ (by decide), bit_hi _ _ (by decide), bit_hi _ _ (by decide), bit_hi _ _ (by decide), bit_lo _ _ (by decide)],
    by rw [cat_hi _ _ (by decide), cat_hi _ _ (by decide), cat_hi _ _ (by decide), cat_hi _ _ (by decide), cat_lo _ _ (by decide)]; exact full _,
    by rw [cat_hi _ _ (by decide), cat_hi _ _ (by decide), cat_hi _ _ (by decide), cat_lo _ _ (by decide)]; exact full _,
    by rw [cat_hi _ _ (by decide), cat_hi _ _ (by decide), cat_lo _ _ (by decide)]; exact full _,
    by rw [cat_hi _ _ (by decide), cat_lo _ _ (by decide)]; exact full _,
    by rw [cat_lo _ _ (by decide)]; exact full _⟩

theorem shape46 (x0 : BitVec 6) (x1 : BitVec 1) (x2 : BitVec 4) (x3 : BitVec 2) (x4 : BitVec 4) (x5 : BitVec 6) (x6 : BitVec 6) (x7 : BitVec 2) (x8 : BitVec 1) :
    (x0 ++ x1 ++ x2 ++ x3 ++ x4 ++ x5 ++ x6 ++ x7 ++ x8 : Word).extractLsb' 26 6 = x0 ∧
    (x0 ++ x1 ++ x2 ++ x3 ++ x4 ++ x5 ++ x6 ++ x7 ++ x8 : Word).extractLsb' 25 1 = x1 ∧
    (x0 ++ x1 ++ x2 ++ x3 ++ x4 ++ x5 ++ x6 ++ x7 ++ x8 : Word).getLsbD 25 = x1.getLsbD 0 ∧
    (x0 ++ x1 ++ x2 ++ x3 ++ x4 ++ x5 ++ x6 ++ x7 ++ x8 : Word).extractLsb' 21 4 = x2 ∧
    (x0 ++ x1 ++ x2 ++ x3 ++ x4 ++ x5 ++ x6 ++ x7 ++ x8 : Word).extractLsb' 19 2 = x3 ∧
    (x0 ++ x1 ++ x2 ++ x3 ++ x4 ++ x5 ++ x6 ++ x7 ++ x8 : Word).extractLsb' 15 4 = x4 ∧
    (x0 ++ x1 ++ x2 ++ x3 ++ x4 ++ x5 ++ x6 ++ x7 ++ x8 : Word).extractLsb' 9 6 = x5 ∧
    (x0 ++ x1 ++ x2 ++ x3 ++ x4 ++ x5 ++ x6 ++ x7 ++ x8 : Word).extractLsb' 3 6 = x6 ∧
    (x0 ++ x1 ++ x2 ++ x3 ++ x4 ++ x5 ++ x6 ++ x7 ++ x8 : Word).extractLsb' 1 2 = x7 ∧
    (x0 ++ x1 ++ x2 ++ x3 ++ x4 ++ x5 ++ x6 ++ x7 ++ x8 : Word).extractLsb' 0 1 = x8 ∧
    (x0 ++ x1 ++ x2 ++ x3 ++ x4 ++ x5 ++ x6 ++ x7 ++ x8 : Word).getLsbD 0 = x8.getLsbD 0 :=
  ⟨by rw [cat_hi _ _ (by decide), cat_hi _ _ (by decide), cat_hi _ _ (by decide), cat_hi _ _ (by decide), cat_hi _ _ (by decide), cat_hi _ _ (by decide), cat_hi _ _ (by decide), cat_hi _ _ (by decide)]; exact full _,
    by rw [cat_hi _ _ (by decide), cat_hi _ _ (by decide), cat_hi _ _ (by decide), cat_hi _ _ (by decide), cat_hi _ _ (by decide), cat_hi _ _ (by decide), cat_hi _ _ (by decide), cat_lo _ _ (by decide)]; exact full _,
    by rw [bit_hi _ _ (by decide), bit_hi _ _ (by decide), bit_hi _ _ (by decide), bit_hi _ _ (by decide), bit_hi _ _ (by decide), bit_hi _ _ (by decide), bit_hi _ _ (by decide), bit_lo _ _ (by decide)],
    by rw [cat_hi _ _ (by decide), cat_hi _ _ (by decide), cat_hi _ _ (by decide), cat_hi _ _ (by decide), cat_hi _ _ (by decide), cat_hi _ _ (by decide), cat_lo _ _ (by decide)]; exact full _,
    by rw [cat_hi _ _ (by decide), cat_hi _ _ (by decide), cat_hi _ _ (by decide), cat_hi _ _ (by decide), cat_hi _ _ (by decide), cat_lo _ _ (by decide)]; exact full _,
    by rw [cat_hi _ _ (by decide), cat_hi _ _ (by decide), cat_hi _ _ (by decide), cat_hi _ _ (by decide), cat_lo _ _ (by decide)]; exact full _,
    by rw [cat_hi _ _ (by decide), cat_hi _ _ (by decide), cat_hi _ _ (by decide), cat_lo _ _ (by decide)]; exact full _,
    by rw [cat_hi _ _ (by decide), cat_hi _ _ (by decide), cat_lo _ _ (by decide)]; exact full _,
    by rw [cat_hi _ _ (by decide), cat_lo _ _ (by decide)]; exact full _,
    by rw [cat_lo _ _ (by decide)]; exact full _,
    by rw [bit_lo _ _ (by decide)]⟩

theorem shape47 (x0 : BitVec 6) (x1 : BitVec 1) (x2 : BitVec 4) (x3 : BitVec 2) (x4 : BitVec 4) (x5 : BitVec 15) :
    (x0 ++ x1 ++ x2 ++ x3 ++ x4 ++ x5 : Word).extractLsb' 26 6 = x0 ∧
    (x0 ++ x1 ++ x2 ++ x3 ++ x4 ++ x5 : Word).extractLsb' 25 1 = x1 ∧
    (x0 ++ x1 ++ x2 ++ x3 ++ x4 ++ x5 : Word).getLsbD 25 = x1.getLsbD 0 ∧
    (x0 ++ x1 ++ x2 ++ x3 ++ x4 ++ x5 : Word).extractLsb' 21 4 = x2 ∧
    (x0 ++ x1 ++ x2 ++ x3 ++ x4 ++ x5 : Word).extractLsb' 19 2 = x3 ∧
    (x0 ++ x1 ++ x2 ++ x3 ++ x4 ++ x5 : Word).extractLsb' 15 4 = x4 ∧
    (x0 ++ x1 ++ x2 ++ x3 ++ x4 ++ x5 : Word).extractLsb' 0 15 = x5 :=
  ⟨by rw [cat_hi _ _ (by decide), cat_hi _ _ (by decide), cat_hi _ _ (by decide), cat_hi _ _ (by decide), cat_hi _ _ (by decide)]; exact full _,
    by rw [cat_hi _ _ (by decide), cat_hi _ _ (by decide), cat_hi _ _ (by decide), cat_hi _ _ (by decide), cat_lo _ _ (by decide)]; exact full _,
    by rw [bit_hi _ _ (by decide), bit_hi _ _ (by decide), bit_hi _ _ (by decide), bit_hi _ _ (by decide), bit_lo _ _ (by decide)],
    by rw [cat_hi _ _ (by decide), cat_hi _ _ (by decide), cat_hi _ _ (by decide), cat_lo _ _ (by decide)]; exact full _,
    by rw [cat_hi _ _ (by decide), cat_hi _ _ (by decide), cat_lo _ _ (by decide)]; exact full _,
    by rw [cat_hi _ _ (by decide), cat_lo _ _ (by decide)]; exact full _,
    by rw [cat_lo _ _ (by decide)]; exact full _⟩

theorem shape48 (x0 : BitVec 6) (x1 : BitVec 1) (x2 : BitVec 4) (x3 : BitVec 2) (x4 : BitVec 4) (x5 : BitVec 4) (x6 : BitVec 2) (x7 : BitVec 9) :
    (x0 ++ x1 ++ x2 ++ x3 ++ x4 ++ x5 ++ x6 ++ x7 : Word).extractLsb' 26 6 = x0 ∧
    (x0 ++ x1 ++ x2 ++ x3 ++ x4 ++ x5 ++ x6 ++ x7 : Word).extractLsb' 25 1 = x1 ∧
    (x0 ++ x1 ++ x2 ++ x3 ++ x4 ++ x5 ++ x6 ++ x7 : Word).getLsbD 25 = x1.getLsbD 0 ∧
    (x0 ++ x1 ++ x2 ++ x3 ++ x4 ++ x5 ++ x6 ++ x7 : Word).extractLsb' 21 4 = x2 ∧
    (x0 ++ x1 ++ x2 ++ x3 ++ x4 ++ x5 ++ x6 ++ x7 : Word).extractLsb' 19 2 = x3 ∧
    (x0 ++ x1 ++ x2 ++ x3 ++ x4 ++ x5 ++ x6 ++ x7 : Word).extractLsb' 15 4 = x4 ∧
    (x0 ++ x1 ++ x2 ++ x3 ++ x4 ++ x5 ++ x6 ++ x7 : Word).extractLsb' 11 4 = x5 ∧
    (x0 ++ x1 ++ x2 ++ x3 ++ x4 ++ x5 ++ x6 ++ x7 : Word).extractLsb' 9 2 = x6 ∧
    (x0 ++ x1 ++ x2 ++ x3 ++ x4 ++ x5 ++ x6 ++ x7 : Word).extractLsb' 0 9 = x7 :=
  ⟨by rw [cat_hi _ _ (by decide), cat_hi _ _ (by decide), cat_hi _ _ (by decide), cat_hi _ _ (by decide), cat_hi _ _ (by decide), cat_hi _ _ (by decide), cat_hi _ _ (by decide)]; exact full _,
    by rw [cat_hi _ _ (by decide), cat_hi _ _ (by decide), cat_hi _ _ (by decide), cat_hi _ _ (by decide), cat_hi _ _ (by decide), cat_hi _ _ (by decide), cat_lo _ _ (by decide)]; exact full _,
    by rw [bit_hi _ _ (by decide), bit_hi _ _ (by decide), bit_hi _ _ (by decide), bit_hi _ _ (by decide), bit_hi _ _ (by decide), bit_hi _ _ (by decide), bit_lo _ _ (by decide)],
    by rw [cat_hi _ _ (by decide), cat_hi _ _ (by decide), cat_hi _ _ (by decide), cat_hi _ _ (by decide), cat_hi _ _ (by decide), cat_lo _ _ (by decide)]; exact full _,
    by rw [cat_hi _ _ (by decide), cat_hi _ _ (by decide), cat_hi _ _ (by decide), cat_hi _ _ (by decide), cat_lo _ _ (by decide)]; exact full _,
    by rw [cat_hi _ _ (by decide), cat_hi _ _ (by decide), cat_hi _ _ (by decide), cat_lo _ _ (by decide)]; exact full _,
    by rw [cat_hi _ _ (by decide), cat_hi _ _ (by decide), cat_lo _ _ (by decide)]; exact full _,
    by rw [cat_hi _ _ (by decide), cat_lo _ _ (by decide)]; exact full _,
    by rw [cat_lo _ _ (by decide)]; exact full _⟩

theorem shape49 (x0 : BitVec 6) (x1 : BitVec 1) (x2 : BitVec 4) (x3 : BitVec 6) (x4 : BitVec 6) (x5 : BitVec 2) (x6 : BitVec 4) (x7 : BitVec 3) :
    (x0 ++ x1 ++ x2 ++ x3 ++ x4 ++ x5 ++ x6 ++ x7 : Word).extractLsb' 26 6 = x0 ∧
    (x0 ++ x1 ++ x2 ++ x3 ++ x4 ++ x5 ++ x6 ++ x7 : Word).extractLsb' 25 1 = x1 ∧
    (x0 ++ x1 ++ x2 ++ x3 ++ x4 ++ x5 ++ x6 ++ x7 : Word).getLsbD 25 = x1.getLsbD 0 ∧
    (x0 ++ x1 ++ x2 ++ x3 ++ x4 ++ x5 ++ x6 ++ x7 : Word).extractLsb' 21 4 = x2 ∧
    (x0 ++ x1 ++ x2 ++ x3 ++ x4 ++ x5 ++ x6 ++ x7 : Word).extractLsb' 15 6 = x3 ∧
    (x0 ++ x1 ++ x2 ++ x3 ++ x4 ++ x5 ++ x6 ++ x7 : Word).extractLsb' 9 6 = x4 ∧
    (x0 ++ x1 ++ x2 ++ x3 ++ x4 ++ x5 ++ x6 ++ x7 : Word).extractLsb' 7 2 = x5 ∧
    (x0 ++ x1 ++ x2 ++ x3 ++ x4 ++ x5 ++ x6 ++ x7 : Word).extractLsb' 3 4 = x6 ∧
    (x0 ++ x1 ++ x2 ++ x3 ++ x4 ++ x5 ++ x6 ++ x7 : Word).extractLsb' 0 3 = x7 :=
  ⟨by rw [cat_hi _ _ (by decide), cat_hi _ _ (by decide), cat_hi _ _ (by decide), cat_hi _ _ (by decide), cat_hi _ _ (by decide), cat_hi _ _ (by decide), cat_hi _ _ (by decide)]; exact full _,
    by rw [cat_hi _ _ (by decide), cat_hi _ _ (by decide), cat_hi _ _ (by decide), cat_hi _ _ (by decide), cat_hi _ _ (by decide), cat_hi _ _ (by decide), cat_lo _ _ (by decide)]; exact full _,
    by rw [bit_hi _ _ (by decide), bit_hi _ _ (by decide), bit_hi _ _ (by decide), bit_hi _ _ (by decide), bit_hi _ _ (by decide), bit_hi _ _ (by decide), bit_lo _ _ (by decide)],
    by rw [cat_hi _ _ (by decide), cat_hi _ _ (by decide), cat_hi _ _ (by decide), cat_hi _ _ (by decide), cat_hi _ _ (by decide), cat_lo _ _ (by decide)]; exact full _,
    by rw [cat_hi _ _ (by decide), cat_hi _ _ (by decide), cat_hi _ _ (by decide), cat_hi _ _ (by decide), cat_lo _ _ (by decide)]; exact full _,
    by rw [cat_hi _ _ (by decide), cat_hi _ _ (by decide), cat_hi _ _ (by decide), cat_lo _ _ (by decide)]; exact full _,
    by rw [cat_hi _ _ (by decide), cat_hi _ _ (by decide), cat_lo _ _ (by decide)]; exact full _,
    by rw [cat_hi _ _ (by decide), cat_lo _ _ (by decide)]; exact full _,
    by rw [cat_lo _ _ (by decide)]; exact full _⟩

theorem shape50 (x0 : BitVec 6) (x1 : BitVec 1) (x2 : BitVec 4) (x3 : BitVec 2) (x4 : BitVec 12) (x5 : BitVec 4) (x6 : BitVec 1) (x7 : BitVec 1) (x8 : BitVec 1) :
    (x0 ++ x1 ++ x2 ++ x3 ++ x4 ++ x5 ++ x6 ++ x7 ++ x8 : Word).extractLsb' 26 6 = x0 ∧
    (x0 ++ x1 ++ x2 ++ x3 ++ x4 ++ x5 ++ x6 ++ x7 ++ x8 : Word).extractLsb' 25 1 = x1 ∧
    (x0 ++ x1 ++ x2 ++ x3 ++ x4 ++ x5 ++ x6 ++ x7 ++ x8 : Word).getLsbD 25 = x1.getLsbD 0 ∧
    (x0 ++ x1 ++ x2 ++ x3 ++ x4 ++ x5 ++ x6 ++ x7 ++ x8 : Word).extractLsb' 21 4 = x2 ∧
    (x0 ++ x1 ++ x2 ++ x3 ++ x4 ++ x5 ++ x6 ++ x7 ++ x8 : Word).extractLsb' 19 2 = x3 ∧
    (x0 ++ x1 ++ x2 ++ x3 ++ x4 ++ x5 ++ x6 ++ x7 ++ x8 : Word).extractLsb' 7 12 = x4 ∧
    (x0 ++ x1 ++ x2 ++ x3 ++ x4 ++ x5 ++ x6 ++ x7 ++ x8 : Word).extractLsb' 3 4 = x5 ∧
    (x0 ++ x1 ++ x2 ++ x3 ++ x4 ++ x5 ++ x6 ++ x7 ++ x8 : Word).extractLsb' 2 1 = x6 ∧
    (x0 ++ x1 ++ x2 ++ x3 ++ x4 ++ x5 ++ x6 ++ x7 ++ x8 : Word).getLsbD 2 = x6.getLsbD 0 ∧
    (x0 ++ x1 ++ x2 ++ x3 ++ x4 ++ x5 ++ x6 ++ x7 ++ x8 : Word).extractLsb' 1 1 = x7 ∧
    (x0 ++ x1 ++ x2 ++ x3 ++ x4 ++ x5 ++ x6 ++ x7 ++ x8 : Word).getLsbD 1 = x7.getLsbD 0 ∧
    (x0 ++ x1 ++ x2 ++ x3 ++ x4 ++ x5 ++ x6 ++ x7 ++ x8 : Word).extractLsb' 0 1 = x8 ∧
    (x0 ++ x1 ++ x2 ++ x3 ++ x4 ++ x5 ++ x6 ++ x7 ++ x8 : Word).getLsbD 0 = x8.getLsbD 0 :=
  ⟨by rw [cat_hi _ _ (by decide), cat_hi _ _ (by decide), cat_hi _ _ (by decide), cat_hi _ _ (by decide), cat_hi _ _ (by decide), cat_hi _ _ (by decide), cat_hi _ _ (by decide), cat_hi _ _ (by decide)]; exact full _,
    by rw [cat_hi _ _ (by decide), cat_hi _ _ (by decide), cat_hi _ _ (by decide), cat_hi _ _ (by decide), cat_hi _ _ (by decide), cat_hi _ _ (by decide), cat_hi _ _ (by decide), cat_lo _ _ (by decide)]; exact full _,
    by rw [bit_hi _ _ (by decide), bit_hi _ _ (by decide), bit_hi _ _ (by decide), bit_hi _ _ (by decide), bit_hi _ _ (by decide), bit_hi _ _ (by decide), bit_hi _ _ (by decide), bit_lo _ _ (by decide)],
    by rw [cat_hi _ _ (by decide), cat_hi _ _ (by decide), cat_hi _ _ (by decide), cat_hi _ _ (by decide), cat_hi _ _ (by decide), cat_hi _ _ (by decide), cat_lo _ _ (by decide)]; exact full _,
    by rw [cat_hi _ _ (by decide), cat_hi _ _ (by decide), cat_hi _ _ (by decide), cat_hi _ _ (by decide), cat_hi _ _ (by decide), cat_lo _ _ (by decide)]; exact full _,
    by rw [cat_hi _ _ (by decide), cat_hi _ _ (by decide), cat_hi _ _ (by decide), cat_hi _ _ (by decide), cat_lo _ _ (by decide)]; exact full _,
    by rw [cat_hi _ _ (by decide), cat_hi _ _ (by decide), cat_hi _ _ (by decide), cat_lo _ _ (by decide)]; exact full _,
    by rw [cat_hi _ _ (by decide), cat_hi _ _ (by decide), cat_lo _ _ (by decide)]; exact full _,
    by rw [bit_hi _ _ (by decide), bit_hi _ _ (by decide), bit_lo _ _ (by decide)],
    by rw [cat_hi _ _ (by decide), cat_lo _ _ (by decide)]; exact full _,
    by rw [bit_hi _ _ (by decide), bit_lo _ _ (by decide)],
    by rw [cat_lo _ _ (by decide)]; exact full _,
    by rw [bit_lo _ _ (by decide)]⟩

theorem shape51 (x0 : BitVec 6) (x1 : BitVec 1) (x2 : BitVec 4) (x3 : BitVec 2) (x4 : BitVec 4) (x5 : BitVec 4) (x6 : BitVec 2) (x7 : BitVec 2) (x8 : BitVec 4) (x9 : BitVec 1) (x10 : BitVec 2) :
    (x0 ++ x1 ++ x2 ++ x3 ++ x4 ++ x5 ++ x6 ++ x7 ++ x8 ++ x9 ++ x10 : Word).extractLsb' 26 6 = x0 ∧
    (x0 ++ x1 ++ x2 ++ x3 ++ x4 ++ x5 ++ x6 ++ x7 ++ x8 ++ x9 ++ x10 : Word).extractLsb' 25 1 = x1 ∧
    (x0 ++ x1 ++ x2 ++ x3 ++ x4 ++ x5 ++ x6 ++ x7 ++ x8 ++ x9 ++ x10 : Word).getLsbD 25 = x1.getLsbD 0 ∧
    (x0 ++ x1 ++ x2 ++ x3 ++ x4 ++ x5 ++ x6 ++ x7 ++ x8 ++ x9 ++ x10 : Word).extractLsb' 21 4 = x2 ∧
    (x0 ++ x1 ++ x2 ++ x3 ++ x4 ++ x5 ++ x6 ++ x7 ++ x8 ++ x9 ++ x10 : Word).extractLsb' 19 2 = x3 ∧
    (x0 ++ x1 ++ x2 ++ x3 ++ x4 ++ x5 ++ x6 ++ x7 ++ x8 ++ x9 ++ x10 : Word).extractLsb' 15 4 = x4 ∧
    (x0 ++ x1 ++ x2 ++ x3 ++ x4 ++ x5 ++ x6 ++ x7 ++ x8 ++ x9 ++ x10 : Word).extractLsb' 11 4 = x5 ∧
    (x0 ++ x1 ++ x2 ++ x3 ++ x4 ++ x5 ++ x6 ++ x7 ++ x8 ++ x9 ++ x10 : Word).extractLsb' 9 2 = x6 ∧
    (x0 ++ x1 ++ x2 ++ x3 ++ x4 ++ x5 ++ x6 ++ x7 ++ x8 ++ x9 ++ x10 : Word).extractLsb' 7 2 = x7 ∧
    (x0 ++ x1 ++ x2 ++ x3 ++ x4 ++ x5 ++ x6 ++ x7 ++ x8 ++ x9 ++ x10 : Word).extractLsb' 3 4 = x8 ∧
    (x0 ++ x1 ++ x2 ++ x3 ++ x4 ++ x5 ++ x6 ++ x7 ++ x8 ++ x9 ++ x10 : Word).extractLsb' 2 1 = x9 ∧
    (x0 ++ x1 ++ x2 ++ x3 ++ x4 ++ x5 ++ x6 ++ x7 ++ x8 ++ x9 ++ x10 : Word).getLsbD 2 = x9.getLsbD 0 ∧
    (x0 ++ x1 ++ x2 ++ x3 ++ x4 ++ x5 ++ x6 ++ x7 ++ x8 ++ x9 ++ x10 : Word).extractLsb' 0 2 = x10 :=
  ⟨by rw [cat_hi _ _ (by decide), cat_hi _ _ (by decide), cat_hi _ _ (by decide), cat_hi _ _ (by decide), cat_hi _ _ (by decide), cat_hi _ _ (by decide), cat_hi _ _ (by decide), cat_hi _ _ (by decide), cat_hi _ _ (by decide), cat_hi _ _ (by decide)]; exact full _,
    by rw [cat_hi _ _ (by decide), cat_hi _ _ (by decide), cat_hi _ _ (by decide), cat_hi _ _ (by decide), cat_hi _ _ (by decide), cat_hi _ _ (by decide), cat_hi _ _ (by decide), cat_hi _ _ (by decide), cat_hi _ _ (by decide), cat_lo _ _ (by decide)]; exact full _,
    by rw [bit_hi _ _ (by decide), bit_hi _ _ (by decide), bit_hi _ _ (by decide), bit_hi _ _ (by decide), bit_hi _ _ (by decide), bit_hi _ _ (by decide), bit_hi _ _ (by decide), bit_hi _ _ (by decide), bit_hi _ _ (by decide), bit_lo _ _ (by decide)],
    by rw [cat_hi _ _ (by decide), cat_hi _ _ (by decide), cat_hi _ _ (by decide), cat_hi _ _ (by decide), cat_hi _ _ (by decide), cat_hi _ _ (by decide), cat_hi _ _ (by decide), cat_hi _ _ (by decide), cat_lo _ _ (by decide)]; exact full _,
    by rw [cat_hi _ _ (by decide), cat_hi _ _ (by decide), cat_hi _ _ (by decide), cat_hi _ _ (by decide), cat_hi _ _ (by decide), cat_hi _ _ (by decide), cat_hi _ _ (by decide), cat_lo _ _ (by decide)]; exact full _,
    by rw [cat_hi _ _ (by decide), cat_hi _ _ (by decide), cat_hi _ _ (by decide), cat_hi _ _ (by decide), cat_hi _ _ (by decide), cat_hi _ _ (by decide), cat_lo _ _ (by decide)]; exact full _,
    by rw [cat_hi _ _ (by decide), cat_hi _ _ (by decide), cat_hi _ _ (by decide), cat_hi _ _ (by decide), cat_hi _ _ (by decide), cat_lo _ _ (by decide)]; exact full _,
    by rw [cat_hi _ _ (by decide), cat_hi _ _ (by decide), cat_hi _ _ (by decide), cat_hi _ _ (by decide), cat_lo _ _ (by decide)]; exact full _,
    by rw [cat_hi _ _ (by decide), cat_hi _ _ (by decide), cat_hi _ _ (by decide), cat_lo _ _ (by decide)]; exact full _,
    by rw [cat_hi _ _ (by decide), cat_hi _ _ (by decide), cat_lo _ _ (by decide)]; exact full _,
    by rw [cat_hi _ _ (by decide), cat_lo _ _ (by decide)]; exact full _,
    by rw [bit_hi _ _ (by decide), bit_lo _ _ (by decide)],
    by rw [cat_lo _ _ (by decide)]; exact full _⟩

theorem shape52 (x0 : BitVec 6) (x1 : BitVec 1) (x2 : BitVec 4) (x3 : BitVec 6) (x4 : BitVec 6) (x5 : BitVec 1) (x6 : BitVec 1) (x7 : BitVec 4) (x8 : BitVec 3) :
    (x0 ++ x1 ++ x2 ++ x3 ++ x4 ++ x5 ++ x6 ++ x7 ++ x8 : Word).extractLsb' 26 6 = x0 ∧
    (x0 ++ x1 ++ x2 ++ x3 ++ x4 ++ x5 ++ x6 ++ x7 ++ x8 : Word).extractLsb' 25 1 = x1 ∧
    (x0 ++ x1 ++ x2 ++ x3 ++ x4 ++ x5 ++ x6 ++ x7 ++ x8 : Word).getLsbD 25 = x1.getLsbD 0 ∧
    (x0 ++ x1 ++ x2 ++ x3 ++ x4 ++ x5 ++ x6 ++ x7 ++ x8 : Word).extractLsb' 21 4 = x2 ∧
    (x0 ++ x1 ++ x2 ++ x3 ++ x4 ++ x5 ++ x6 ++ x7 ++ x8 : Word).extractLsb' 15 6 = x3 ∧
    (x0 ++ x1 ++ x2 ++ x3 ++ x4 ++ x5 ++ x6 ++ x7 ++ x8 : Word).extractLsb' 9 6 = x4 ∧
    (x0 ++ x1 ++ x2 ++ x3 ++ x4 ++ x5 ++ x6 ++ x7 ++ x8 : Word).extractLsb' 8 1 = x5 ∧
    (x0 ++ x1 ++ x2 ++ x3 ++ x4 ++ x5 ++ x6 ++ x7 ++ x8 : Word).getLsbD 8 = x5.getLsbD 0 ∧
    (x0 ++ x1 ++ x2 ++ x3 ++ x4 ++ x5 ++ x6 ++ x7 ++ x8 : Word).extractLsb' 7 1 = x6 ∧
    (x0 ++ x1 ++ x2 ++ x3 ++ x4 ++ x5 ++ x6 ++ x7 ++ x8 : Word).getLsbD 7 = x6.getLsbD 0 ∧
    (x0 ++ x1 ++ x2 ++ x3 ++ x4 ++ x5 ++ x6 ++ x7 ++ x8 : Word).extractLsb' 3 4 = x7 ∧
    (x0 ++ x1 ++ x2 ++ x3 ++ x4 ++ x5 ++ x6 ++ x7 ++ x8 : Word).extractLsb' 0 3 = x8 :=
  ⟨by rw [cat_hi _ _ (by decide), cat_hi _ _ (by decide), cat_hi _ _ (by decide), cat_hi _ _ (by decide), cat_hi _ _ (by decide), cat_hi _ _ (by decide), cat_hi _ _ (by decide), cat_hi _ _ (by decide)]; exact full _,
    by rw [cat_hi _ _ (by decide), cat_hi _ _ (by decide), cat_hi _ _ (by decide), cat_hi _ _ (by decide), cat_hi _ _ (by decide), cat_hi _ _ (by decide), cat_hi _ _ (by decide), cat_lo _ _ (by decide)]; exact full _,
    by rw [bit_hi _ _ (by decide), bit_hi _ _ (by decide), bit_hi _ _ (by decide), bit_hi _ _ (by decide), bit_hi _ _ (by decide), bit_hi _ _ (by decide), bit_hi _ _ (by decide), bit_lo _ _ (by decide)],
    by rw [cat_hi _ _ (by decide), cat_hi _ _ (by decide), cat_hi _ _ (by decide), cat_hi _ _ (by decide), cat_hi _ _ (by decide), cat_hi _ _ (by decide), cat_lo _ _ (by decide)]; exact full _,
    by rw [cat_hi _ _ (by decide), cat_hi _ _ (by decide), cat_hi _ _ (by decide), cat_hi _ _ (by decide), cat_hi _ _ (by decide), cat_lo _ _ (by decide)]; exact full _,
    by rw [cat_hi _ _ (by decide), cat_hi _ _ (by decide), cat_hi _ _ (by decide), cat_hi _ _ (by decide), cat_lo _ _ (by decide)]; exact full _,
    by rw [cat_hi _ _ (by decide), cat_hi _ _ (by decide), cat_hi _ _ (by decide), cat_lo _ _ (by decide)]; exact full _,
    by rw [bit_hi _ _ (by decide), bit_hi _ _ (by decide), bit_hi _ _ (by decide), bit_lo _ _ (by decide)],
    by rw [cat_hi _ _ (by decide), cat_hi _ _ (by decide), cat_lo _ _ (by decide)]; exact full _,
    by rw [bit_hi _ _ (by decide), bit_hi _ _ (by decide), bit_lo _ _ (by decide)],
    by rw [cat_hi _ _ (by decide), cat_lo _ _ (by decide)]; exact full _,
    by rw [cat_lo _ _ (by decide)]; exact full _⟩

theorem shape53 (x0 : BitVec 6) (x1 : BitVec 1) (x2 : BitVec 4) (x3 : BitVec 2) (x4 : BitVec 4) (x5 : BitVec 6) (x6 : BitVec 4) (x7 : BitVec 4) (x8 : BitVec 1) :
    (x0 ++ x1 ++ x2 ++ x3 ++ x4 ++ x5 ++ x6 ++ x7 ++ x8 : Word).extractLsb' 26 6 = x0 ∧
    (x0 ++ x1 ++ x2 ++ x3 ++ x4 ++ x5 ++ x6 ++ x7 ++ x8 : Word).extractLsb' 25 1 = x1 ∧
    (x0 ++ x1 ++ x2 ++ x3 ++ x4 ++ x5 ++ x6 ++ x7 ++ x8 : Word).getLsbD 25 = x1.getLsbD 0 ∧
    (x0 ++ x1 ++ x2 ++ x3 ++ x4 ++ x5 ++ x6 ++ x7 ++ x8 : Word).extractLsb' 21 4 = x2 ∧
    (x0 ++ x1 ++ x2 ++ x3 ++ x4 ++ x5 ++ x6 ++ x7 ++ x8 : Word).extractLsb' 19 2 = x3 ∧
    (x0 ++ x1 ++ x2 ++ x3 ++ x4 ++ x5 ++ x6 ++ x7 ++ x8 : Word).extractLsb' 15 4 = x4 ∧
    (x0 ++ x1 ++ x2 ++ x3 ++ x4 ++ x5 ++ x6 ++ x7 ++ x8 : Word).extractLsb' 9 6 = x5 ∧
    (x0 ++ x1 ++ x2 ++ x3 ++ x4 ++ x5 ++ x6 ++ x7 ++ x8 : Word).extractLsb' 5 4 = x6 ∧
    (x0 ++ x1 ++ x2 ++ x3 ++ x4 ++ x5 ++ x6 ++ x7 ++ x8 : Word).extractLsb' 1 4 = x7 ∧
    (x0 ++ x1 ++ x2 ++ x3 ++ x4 ++ x5 ++ x6 ++ x7 ++ x8 : Word).extractLsb' 0 1 = x8 ∧
    (x0 ++ x1 ++ x2 ++ x3 ++ x4 ++ x5 ++ x6 ++ x7 ++ x8 : Word).getLsbD 0 = x8.getLsbD 0 :=
  ⟨by rw [cat_hi _ _ (by decide), cat_hi _ _ (by decide), cat_hi _ _ (by decide), cat_hi _ _ (by decide), cat_hi _ _ (by decide), cat_hi _ _ (by decide), cat_hi _ _ (by decide), cat_hi _ _ (by decide)]; exact full _,
    by rw [cat_hi _ _ (by decide), cat_hi _ _ (by decide), cat_hi _ _ (by decide), cat_hi _ _ (by decide), cat_hi _ _ (by decide), cat_hi _ _ (by decide), cat_hi _ _ (by decide), cat_lo _ _ (by decide)]; exact full _,
    by rw [bit_hi _ _ (by decide), bit_hi _ _ (by decide), bit_hi _ _ (by decide), bit_hi _ _ (by decide), bit_hi _ _ (by decide), bit_hi _ _ (by decide), bit_hi _ _ (by decide), bit_lo _ _ (by decide)],
    by rw [cat_hi _ _ (by decide), cat_hi _ _ (by decide), cat_hi _ _ (by decide), cat_hi _ _ (by decide), cat_hi _ _ (by decide), cat_hi _ _ (by decide), cat_lo _ _ (by decide)]; exact full _,
    by rw [cat_hi _ _ (by decide), cat_hi _ _ (by decide), cat_hi _ _ (by decide), cat_hi _ _ (by decide), cat_hi _ _ (by decide), cat_lo _ _ (by decide)]; exact full _,
    by rw [cat_hi _ _ (by decide), cat_hi _ _ (by decide), cat_hi _ _ (by decide), cat_hi _ _ (by decide), cat_lo _ _ (by decide)]; exact full _,
    by rw [cat_hi _ _ (by decide), cat_hi _ _ (by decide), cat_hi _ _ (by decide), cat_lo _ _ (by decide)]; exact full _,
    by rw [cat_hi _ _ (by decide), cat_hi _ _ (by decide), cat_lo _ _ (by decide)]; exact full _,
    by rw [cat_hi _ _ (by decide), cat_lo _ _ (by decide)]; exact full _,
    by rw [cat_lo _ _ (by decide)]; exact full _,
    by rw [bit_lo _ _ (by decide)]⟩

theorem shape54 (x0 : BitVec 6) (x1 : BitVec 1) (x2 : BitVec 4) (x3 : BitVec 6) (x4 : BitVec 6) (x5 : BitVec 2) (x6 : BitVec 4) (x7 : BitVec 1) (x8 : BitVec 2) :
    (x0 ++ x1 ++ x2 ++ x3 ++ x4 ++ x5 ++ x6 ++ x7 ++ x8 : Word).extractLsb' 26 6 = x0 ∧
    (x0 ++ x1 ++ x2 ++ x3 ++ x4 ++ x5 ++ x6 ++ x7 ++ x8 : Word).extractLsb' 25 1 = x1 ∧
    (x0 ++ x1 ++ x2 ++ x3 ++ x4 ++ x5 ++ x6 ++ x7 ++ x8 : Word).getLsbD 25 = x1.getLsbD 0 ∧
    (x0 ++ x1 ++ x2 ++ x3 ++ x4 ++ x5 ++ x6 ++ x7 ++ x8 : Word).extractLsb' 21 4 = x2 ∧
    (x0 ++ x1 ++ x2 ++ x3 ++ x4 ++ x5 ++ x6 ++ x7 ++ x8 : Word).extractLsb' 15 6 = x3 ∧
    (x0 ++ x1 ++ x2 ++ x3 ++ x4 ++ x5 ++ x6 ++ x7 ++ x8 : Word).extractLsb' 9 6 = x4 ∧
    (x0 ++ x1 ++ x2 ++ x3 ++ x4 ++ x5 ++ x6 ++ x7 ++ x8 : Word).extractLsb' 7 2 = x5 ∧
    (x0 ++ x1 ++ x2 ++ x3 ++ x4 ++ x5 ++ x6 ++ x7 ++ x8 : Word).extractLsb' 3 4 = x6 ∧
    (x0 ++ x1 ++ x2 ++ x3 ++ x4 ++ x5 ++ x6 ++ x7 ++ x8 : Word).extractLsb' 2 1 = x7 ∧
    (x0 ++ x1 ++ x2 ++ x3 ++ x4 ++ x5 ++ x6 ++ x7 ++ x8 : Word).getLsbD 2 = x7.getLsbD 0 ∧
    (x0 ++ x1 ++ x2 ++ x3 ++ x4 ++ x5 ++ x6 ++ x7 ++ x8 : Word).extractLsb' 0 2 = x8 :=
  ⟨by rw [cat_hi _ _ (by decide), cat_hi _ _ (by decide), cat_hi _ _ (by decide), cat_hi _ _ (by decide), cat_hi _ _ (by decide), cat_hi _ _ (by decide), cat_hi _ _ (by decide), cat_hi _ _ (by decide)]; exact full _,
    by rw [cat_hi _ _ (by decide), cat_hi _ _ (by decide), cat_hi _ _ (by decide), cat_hi _ _ (by decide), cat_hi _ _ (by decide), cat_hi _ _ (by decide), cat_hi _ _ (by decide), cat_lo _ _ (by decide)]; exact full _,
    by rw [bit_hi _ _ (by decide), bit_hi _ _ (by decide), bit_hi _ _ (by decide), bit_hi _ _ (by decide), bit_hi _ _ (by decide), bit_hi _ _ (by decide), bit_hi _ _ (by decide), bit_lo _ _ (by decide)],
    by rw [cat_hi _ _ (by decide), cat_hi _ _ (by decide), cat_hi _ _ (by decide), cat_hi _ _ (by decide), cat_hi _ _ (by decide), cat_hi _ _ (by decide), cat_lo _ _ (by decide)]; exact full _,
    by rw [cat_hi _ _ (by decide), cat_hi _ _ (by decide), cat_hi _ _ (by decide), cat_hi _ _ (by decide), cat_hi _ _ (by decide), cat_lo _ _ (by decide)]; exact full _,
    by rw [cat_hi _ _ (by decide), cat_hi _ _ (by decide), cat_hi _ _ (by decide), cat_hi _ _ (by decide), cat_lo _ _ (by decide)]; exact full _,
    by rw [cat_hi _ _ (by decide), cat_hi _ _ (by decide), cat_hi _ _ (by decide), cat_lo _ _ (by decide)]; exact full _,
    by rw [cat_hi _ _ (by decide), cat_hi _ _ (by decide), cat_lo _ _ (by decide)]; exact full _,
    by rw [cat_hi _ _ (by decide), cat_lo _ _ (by decide)]; exact full _,
    by rw [bit_hi _ _ (by decide), bit_lo _ _ (by decide)],
    by rw [cat_lo _ _ (by decide)]; exact full _⟩

theorem shape55 (x0 : BitVec 6) (x1 : BitVec 1) (x2 : BitVec 4) (x3 : BitVec 2) (x4 : BitVec 4) (x5 : BitVec 4) (x6 : BitVec 2) (x7 : BitVec 6) (x8 : BitVec 3) :
    (x0 ++ x1 ++ x2 ++ x3 ++ x4 ++ x5 ++ x6 ++ x7 ++ x8 : Word).extractLsb' 26 6 = x0 ∧
    (x0 ++ x1 ++ x2 ++ x3 ++ x4 ++ x5 ++ x6 ++ x7 ++ x8 : Word).extractLsb' 25 1 = x1 ∧
    (x0 ++ x1 ++ x2 ++ x3 ++ x4 ++ x5 ++ x6 ++ x7 ++ x8 : Word).getLsbD 25 = x1.getLsbD 0 ∧
    (x0 ++ x1 ++ x2 ++ x3 ++ x4 ++ x5 ++ x6 ++ x7 ++ x8 : Word).extractLsb' 21 4 = x2 ∧
    (x0 ++ x1 ++ x2 ++ x3 ++ x4 ++ x5 ++ x6 ++ x7 ++ x8 : Word).extractLsb' 19 2 = x3 ∧
    (x0 ++ x1 ++ x2 ++ x3 ++ x4 ++ x5 ++ x6 ++ x7 ++ x8 : Word).extractLsb' 15 4 = x4 ∧
    (x0 ++ x1 ++ x2 ++ x3 ++ x4 ++ x5 ++ x6 ++ x7 ++ x8 : Word).extractLsb' 11 4 = x5 ∧
    (x0 ++ x1 ++ x2 ++ x3 ++ x4 ++ x5 ++ x6 ++ x7 ++ x8 : Word).extractLsb' 9 2 = x6 ∧
    (x0 ++ x1 ++ x2 ++ x3 ++ x4 ++ x5 ++ x6 ++ x7 ++ x8 : Word).extractLsb' 3 6 = x7 ∧
    (x0 ++ x1 ++ x2 ++ x3 ++ x4 ++ x5 ++ x6 ++ x7 ++ x8 : Word).extractLsb' 0 3 = x8 :=
  ⟨by rw [cat_hi _ _ (by decide), cat_hi _ _ (by decide), cat_hi _ _ (by decide), cat_hi _ _ (by decide), cat_hi _ _ (by decide), cat_hi _ _ (by decide), cat_hi _ _ (by decide), cat_hi _ _ (by decide)]; exact full _,
    by rw [cat_hi _ _ (by decide), cat_hi _ _ (by decide), cat_hi _ _ (by decide), cat_hi _ _ (by decide), cat_hi _ _ (by decide), cat_hi _ _ (by decide), cat_hi _ _ (by decide), cat_lo _ _ (by decide)]; exact full _,
    by rw [bit_hi _ _ (by decide), bit_hi _ _ (by decide), bit_hi _ _ (by decide), bit_hi _ _ (by decide), bit_hi _ _ (by decide), bit_hi _ _ (by decide), bit_hi _ _ (by decide), bit_lo _ _ (by decide)],
    by rw [cat_hi _ _ (by decide), cat_hi _ _ (by decide), cat_hi _ _ (by decide), cat_hi _ _ (by decide), cat_hi _ _ (by decide), cat_hi _ _ (by decide), cat_lo _ _ (by decide)]; exact full _,
    by rw [cat_hi _ _ (by decide), cat_hi _ _ (by decide), cat_hi _ _ (by decide), cat_hi _ _ (by decide), cat_hi _ _ (by decide), cat_lo _ _ (by decide)]; exact full _,
    by rw [cat_hi _ _ (by decide), cat_hi _ _ (by decide), cat_hi _ _ (by decide), cat_hi _ _ (by decide), cat_lo _ _ (by decide)]; exact full _,
    by rw [cat_hi _ _ (by decide), cat_hi _ _ (by decide), cat_hi _ _ (by decide), cat_lo _ _ (by decide)]; exact full _,
    by rw [cat_hi _ _ (by decide), cat_hi _ _ (by decide), cat_lo _ _ (by decide)]; exact full _,
    by rw [cat_hi _ _ (by decide), cat_lo _ _ (by decide)]; exact full _,
    by rw [cat_lo _ _ (by decide)]; exact full _⟩

theorem shape56 (x0 : BitVec 5) (x1 : BitVec 1) (x2 : BitVec 3) (x3 : BitVec 6) (x4 : BitVec 12) (x5 : BitVec 1) (x6 : BitVec 4) :
    (x0 ++ x1 ++ x2 ++ x3 ++ x4 ++ x5 ++ x6 : Word).extractLsb' 27 5 = x0 ∧
    (x0 ++ x1 ++ x2 ++ x3 ++ x4 ++ x5 ++ x6 : Word).extractLsb' 26 1 = x1 ∧
    (x0 ++ x1 ++ x2 ++ x3 ++ x4 ++ x5 ++ x6 : Word).getLsbD 26 = x1.getLsbD 0 ∧
    (x0 ++ x1 ++ x2 ++ x3 ++ x4 ++ x5 ++ x6 : Word).extractLsb' 23 3 = x2 ∧
    (x0 ++ x1 ++ x2 ++ x3 ++ x4 ++ x5 ++ x6 : Word).extractLsb' 17 6 = x3 ∧
    (x0 ++ x1 ++ x2 ++ x3 ++ x4 ++ x5 ++ x6 : Word).extractLsb' 5 12 = x4 ∧
    (x0 ++ x1 ++ x2 ++ x3 ++ x4 ++ x5 ++ x6 : Word).extractLsb' 4 1 = x5 ∧
    (x0 ++ x1 ++ x2 ++ x3 ++ x4 ++ x5 ++ x6 : Word).getLsbD 4 = x5.getLsbD 0 ∧
    (x0 ++ x1 ++ x2 ++ x3 ++ x4 ++ x5 ++ x6 : Word).extractLsb' 0 4 = x6 :=
  ⟨by rw [cat_hi _ _ (by decide), cat_hi _ _ (by decide), cat_hi _ _ (by decide), cat_hi _ _ (by decide), cat_hi _ _ (by decide), cat_hi _ _ (by decide)]; exact full _,
    by rw [cat_hi _ _ (by decide), cat_hi _ _ (by decide), cat_hi _ _ (by decide), cat_hi _ _ (by decide), cat_hi _ _ (by decide), cat_lo _ _ (by decide)]; exact full _,
    by rw [bit_hi _ _ (by decide), bit_hi _ _ (by decide), bit_hi _ _ (by decide), bit_hi _ _ (by decide), bit_hi _ _ (by decide), bit_lo _ _ (by decide)],
    by rw [cat_hi _ _ (by decide), cat_hi _ _ (by decide), cat_hi _ _ (by decide), cat_hi _ _ (by decide), cat_lo _ _ (by decide)]; exact full _,
    by rw [cat_hi _ _ (by decide), cat_hi _ _ (by decide), cat_hi _ _ (by decide), cat_lo _ _ (by decide)]; exact full _,
    by rw [cat_hi _ _ (by decide), cat_hi _ _ (by decide), cat_lo _ _ (by decide)]; exact full _,
    by rw [cat_hi _ _ (by decide), cat_lo _ _ (by decide)]; exact full _,
    by rw [bit_hi _ _ (by decide), bit_lo _ _ (by decide)],
    by rw [cat_lo _ _ (by decide)]; exact full _⟩

theorem shape57 (x0 : BitVec 5) (x1 : BitVec 1) (x2 : BitVec 3) (x3 : BitVec 18) (x4 : BitVec 1) (x5 : BitVec 3) (x6 : BitVec 1) :
    (x0 ++ x1 ++ x2 ++ x3 ++ x4 ++ x5 ++ x6 : Word).extractLsb' 27 5 = x0 ∧
    (x0 ++ x1 ++ x2 ++ x3 ++ x4 ++ x5 ++ x6 : Word).extractLsb' 26 1 = x1 ∧
    (x0 ++ x1 ++ x2 ++ x3 ++ x4 ++ x5 ++ x6 : Word).getLsbD 26 = x1.getLsbD 0 ∧
    (x0 ++ x1 ++ x2 ++ x3 ++ x4 ++ x5 ++ x6 : Word).extractLsb' 23 3 = x2 ∧
    (x0 ++ x1 ++ x2 ++ x3 ++ x4 ++ x5 ++ x6 : Word).extractLsb' 5 18 = x3 ∧
    (x0 ++ x1 ++ x2 ++ x3 ++ x4 ++ x5 ++ x6 : Word).extractLsb' 4 1 = x4 ∧
    (x0 ++ x1 ++ x2 ++ x3 ++ x4 ++ x5 ++ x6 : Word).getLsbD 4 = x4.getLsbD 0 ∧
    (x0 ++ x1 ++ x2 ++ x3 ++ x4 ++ x5 ++ x6 : Word).extractLsb' 1 3 = x5 ∧
    (x0 ++ x1 ++ x2 ++ x3 ++ x4 ++ x5 ++ x6 : Word).extractLsb' 0 1 = x6 ∧
    (x0 ++ x1 ++ x2 ++ x3 ++ x4 ++ x5 ++ x6 : Word).getLsbD 0 = x6.getLsbD 0 :=
  ⟨by rw [cat_hi _ _ (by decide), cat_hi _ _ (by decide), cat_hi _ _ (by decide), cat_hi _ _ (by decide), cat_hi _ _ (by decide), cat_hi _ _ (by decide)]; exact full _,
    by rw [cat_hi _ _ (by decide), cat_hi _ _ (by decide), cat_hi _ _ (by decide), cat_hi _ _ (by decide), cat_hi _ _ (by decide), cat_lo _ _ (by decide)]; exact full _,
    by rw [bit_hi _ _ (by decide), bit_hi _ _ (by decide), bit_hi _ _ (by decide), bit_hi _ _ (by decide), bit_hi _ _ (by decide), bit_lo _ _ (by decide)],
    by rw [cat_hi _ _ (by decide), cat_hi _ _ (by decide), cat_hi _ _ (by decide), cat_hi _ _ (by decide), cat_lo _ _ (by decide)]; exact full _,
    by rw [cat_hi _ _ (by decide), cat_hi _ _ (by decide), cat_hi _ _ (by decide), cat_lo _ _ (by decide)]; exact full _,
    by rw [cat_hi _ _ (by decide), cat_hi _ _ (by decide), cat_lo _ _ (by decide)]; exact full _,
    by rw [bit_hi _ _ (by decide), bit_hi _ _ (by decide), bit_lo _ _ (by decide)],
    by rw [cat_hi _ _ (by decide), cat_lo _ _ (by decide)]; exact full _,
    by rw [cat_lo _ _ (by decide)]; exact full _,
    by rw [bit_lo _ _ (by decide)]⟩

theorem shape58 (x0 : BitVec 5) (x1 : BitVec 1) (x2 : BitVec 3) (x3 : BitVec 18) (x4 : BitVec 1) (x5 : BitVec 4) :
    (x0 ++ x1 ++ x2 ++ x3 ++ x4 ++ x5 : Word).extractLsb' 27 5 = x0 ∧
    (x0 ++ x1 ++ x2 ++ x3 ++ x4 ++ x5 : Word).extractLsb' 26 1 = x1 ∧
    (x0 ++ x1 ++ x2 ++ x3 ++ x4 ++ x5 : Word).getLsbD 26 = x1.getLsbD 0 ∧
    (x0 ++ x1 ++ x2 ++ x3 ++ x4 ++ x5 : Word).extractLsb' 23 3 = x2 ∧
    (x0 ++ x1 ++ x2 ++ x3 ++ x4 ++ x5 : Word).extractLsb' 5 18 = x3 ∧
    (x0 ++ x1 ++ x2 ++ x3 ++ x4 ++ x5 : Word).extractLsb' 4 1 = x4 ∧
    (x0 ++ x1 ++ x2 ++ x3 ++ x4 ++ x5 : Word).getLsbD 4 = x4.getLsbD 0 ∧
    (x0 ++ x1 ++ x2 ++ x3 ++ x4 ++ x5 : Word).extractLsb' 0 4 = x5 :=
  ⟨by rw [cat_hi _ _ (by decide), cat_hi _ _ (by decide), cat_hi _ _ (by decide), cat_hi _ _ (by decide), cat_hi _ _ (by decide)]; exact full _,
    by rw [cat_hi _ _ (by decide), cat_hi _ _ (by decide), cat_hi _ _ (by decide), cat_hi _ _ (by decide), cat_lo _ _ (by decide)]; exact full _,
    by rw [bit_hi _ _ (by decide), bit_hi _ _ (by decide), bit_hi _ _ (by decide), bit_hi _ _ (by decide), bit_lo _ _ (by decide)],
    by rw [cat_hi _ _ (by decide), cat_hi _ _ (by decide), cat_hi _ _ (by decide), cat_lo _ _ (by decide)]; exact full _,
    by rw [cat_hi _ _ (by decide), cat_hi _ _ (by decide), cat_lo _ _ (by decide)]; exact full _,
    by rw [cat_hi _ _ (by decide), cat_lo _ _ (by decide)]; exact full _,
    by rw [bit_hi _ _ (by decide), bit_lo _ _ (by decide)],
    by rw [cat_lo _ _ (by decide)]; exact full _⟩

theorem shape59 (x0 : BitVec 5) (x1 : BitVec 1) (x2 : BitVec 3) (x3 : BitVec 6) (x4 : BitVec 12) (x5 : BitVec 1) (x6 : BitVec 2) (x7 : BitVec 2) :
    (x0 ++ x1 ++ x2 ++ x3 ++ x4 ++ x5 ++ x6 ++ x7 : Word).extractLsb' 27 5 = x0 ∧
    (x0 ++ x1 ++ x2 ++ x3 ++ x4 ++ x5 ++ x6 ++ x7 : Word).extractLsb' 26 1 = x1 ∧
    (x0 ++ x1 ++ x2 ++ x3 ++ x4 ++ x5 ++ x6 ++ x7 : Word).getLsbD 26 = x1.getLsbD 0 ∧
    (x0 ++ x1 ++ x2 ++ x3 ++ x4 ++ x5 ++ x6 ++ x7 : Word).extractLsb' 23 3 = x2 ∧
    (x0 ++ x1 ++ x2 ++ x3 ++ x4 ++ x5 ++ x6 ++ x7 : Word).extractLsb' 17 6 = x3 ∧
    (x0 ++ x1 ++ x2 ++ x3 ++ x4 ++ x5 ++ x6 ++ x7 : Word).extractLsb' 5 12 = x4 ∧
    (x0 ++ x1 ++ x2 ++ x3 ++ x4 ++ x5 ++ x6 ++ x7 : Word).extractLsb' 4 1 = x5 ∧
    (x0 ++ x1 ++ x2 ++ x3 ++ x4 ++ x5 ++ x6 ++ x7 : Word).getLsbD 4 = x5.getLsbD 0 ∧
    (x0 ++ x1 ++ x2 ++ x3 ++ x4 ++ x5 ++ x6 ++ x7 : Word).extractLsb' 2 2 = x6 ∧
    (x0 ++ x1 ++ x2 ++ x3 ++ x4 ++ x5 ++ x6 ++ x7 : Word).extractLsb' 0 2 = x7 :=
  ⟨by rw [cat_hi _ _ (by decide), cat_hi _ _ (by decide), cat_hi _ _ (by decide), cat_hi _ _ (by decide), cat_hi _ _ (by decide), cat_hi _ _ (by decide), cat_hi _ _ (by decide)]; exact full _,
    by rw [cat_hi _ _ (by decide), cat_hi _ _ (by decide), cat_hi _ _ (by decide), cat_hi _ _ (by decide), cat_hi _ _ (by decide), cat_hi _ _ (by decide), cat_lo _ _ (by decide)]; exact full _,
    by rw [bit_hi _ _ (by decide), bit_hi _ _ (by decide), bit_hi _ _ (by decide), bit_hi _ _ (by decide), bit_hi _ _ (by decide), bit_hi _ _ (by decide), bit_lo _ _ (by decide)],
    by rw [cat_hi _ _ (by decide), cat_hi _ _ (by decide), cat_hi _ _ (by decide), cat_hi _ _ (by decide), cat_hi _ _ (by decide), cat_lo _ _ (by decide)]; exact full _,
    by rw [cat_hi _ _ (by decide), cat_hi _ _ (by decide), cat_hi _ _ (by decide), cat_hi _ _ (by decide), cat_lo _ _ (by decide)]; exact full _,
    by rw [cat_hi _ _ (by decide), cat_hi _ _ (by decide), cat_hi _ _ (by decide), cat_lo _ _ (by decide)]; exact full _,
    by rw [cat_hi _ _ (by decide), cat_hi _ _ (by decide), cat_lo _ _ (by decide)]; exact full _,
    by rw [bit_hi _ _ (by decide), bit_hi _ _ (by decide), bit_lo _ _ (by decide)],
    by rw [cat_hi _ _ (by decide), cat_lo _ _ (by decide)]; exact full _,
    by rw [cat_lo _ _ (by decide)]; exact full _⟩

theorem shape60 (x0 : BitVec 5) (x1 : BitVec 1) (x2 : BitVec 3) (x3 : BitVec 18) (x4 : BitVec 1) (x5 : BitVec 1) (x6 : BitVec 3) :
    (x0 ++ x1 ++ x2 ++ x3 ++ x4 ++ x5 ++ x6 : Word).extractLsb' 27 5 = x0 ∧
    (x0 ++ x1 ++ x2 ++ x3 ++ x4 ++ x5 ++ x6 : Word).extractLsb' 26 1 = x1 ∧
    (x0 ++ x1 ++ x2 ++ x3 ++ x4 ++ x5 ++ x6 : Word).getLsbD 26 = x1.getLsbD 0 ∧
    (x0 ++ x1 ++ x2 ++ x3 ++ x4 ++ x5 ++ x6 : Word).extractLsb' 23 3 = x2 ∧
    (x0 ++ x1 ++ x2 ++ x3 ++ x4 ++ x5 ++ x6 : Word).extractLsb' 5 18 = x3 ∧
    (x0 ++ x1 ++ x2 ++ x3 ++ x4 ++ x5 ++ x6 : Word).extractLsb' 4 1 = x4 ∧
    (x0 ++ x1 ++ x2 ++ x3 ++ x4 ++ x5 ++ x6 : Word).getLsbD 4 = x4.getLsbD 0 ∧
    (x0 ++ x1 ++ x2 ++ x3 ++ x4 ++ x5 ++ x6 : Word).extractLsb' 3 1 = x5 ∧
    (x0 ++ x1 ++ x2 ++ x3 ++ x4 ++ x5 ++ x6 : Word).getLsbD 3 = x5.getLsbD 0 ∧
    (x0 ++ x1 ++ x2 ++ x3 ++ x4 ++ x5 ++ x6 : Word).extractLsb' 0 3 = x6 :=
  ⟨by rw [cat_hi _ _ (by decide), cat_hi _ _ (by decide), cat_hi _ _ (by decide), cat_hi _ _ (by decide), cat_hi _ _ (by decide), cat_hi _ _ (by decide)]; exact full _,
    by rw [cat_hi _ _ (by decide), cat_hi _ _ (by decide), cat_hi _ _ (by decide), cat_hi _ _ (by decide), cat_hi _ _ (by decide), cat_lo _ _ (by decide)]; exact full _,
    by rw [bit_hi _ _ (by decide), bit_hi _ _ (by decide), bit_hi _ _ (by decide), bit_hi _ _ (by decide), bit_hi _ _ (by decide), bit_lo _ _ (by decide)],
    by rw [cat_hi _ _ (by decide), cat_hi _ _ (by decide), cat_hi _ _ (by decide), cat_hi _ _ (by decide), cat_lo _ _ (by decide)]; exact full _,
    by rw [cat_hi _ _ (by decide), cat_hi _ _ (by decide), cat_hi _ _ (by decide), cat_lo _ _ (by decide)]; exact full _,
    by rw [cat_hi _ _ (by decide), cat_hi _ _ (by decide), cat_lo _ _ (by decide)]; exact full _,
    by rw [bit_hi _ _ (by decide), bit_hi _ _ (by decide), bit_lo _ _ (by decide)],
    by rw [cat_hi _ _ (by decide), cat_lo _ _ (by decide)]; exact full _,
    by rw [bit_hi _ _ (by decide), bit_lo _ _ (by decide)],
    by rw [cat_lo _ _ (by decide)]; exact full _⟩

theorem shape61 (x0 : BitVec 5) (x1 : BitVec 1) (x2 : BitVec 3) (x3 : BitVec 6) (x4 : BitVec 6) (x5 : BitVec 6) (x6 : BitVec 1) (x7 : BitVec 3) (x8 : BitVec 1) :
    (x0 ++ x1 ++ x2 ++ x3 ++ x4 ++ x5 ++ x6 ++ x7 ++ x8 : Word).extractLsb' 27 5 = x0 ∧
    (x0 ++ x1 ++ x2 ++ x3 ++ x4 ++ x5 ++ x6 ++ x7 ++ x8 : Word).extractLsb' 26 1 = x1 ∧
    (x0 ++ x1 ++ x2 ++ x3 ++ x4 ++ x5 ++ x6 ++ x7 ++ x8 : Word).getLsbD 26 = x1.getLsbD 0 ∧
    (x0 ++ x1 ++ x2 ++ x3 ++ x4 ++ x5 ++ x6 ++ x7 ++ x8 : Word).extractLsb' 23 3 = x2 ∧
    (x0 ++ x1 ++ x2 ++ x3 ++ x4 ++ x5 ++ x6 ++ x7 ++ x8 : Word).extractLsb' 17 6 = x3 ∧
    (x0 ++ x1 ++ x2 ++ x3 ++ x4 ++ x5 ++ x6 ++ x7 ++ x8 : Word).extractLsb' 11 6 = x4 ∧
    (x0 ++ x1 ++ x2 ++ x3 ++ x4 ++ x5 ++ x6 ++ x7 ++ x8 : Word).extractLsb' 5 6 = x5 ∧
    (x0 ++ x1 ++ x2 ++ x3 ++ x4 ++ x5 ++ x6 ++ x7 ++ x8 : Word).extractLsb' 4 1 = x6 ∧
    (x0 ++ x1 ++ x2 ++ x3 ++ x4 ++ x5 ++ x6 ++ x7 ++ x8 : Word).getLsbD 4 = x6.getLsbD 0 ∧
    (x0 ++ x1 ++ x2 ++ x3 ++ x4 ++ x5 ++ x6 ++ x7 ++ x8 : Word).extractLsb' 1 3 = x7 ∧
    (x0 ++ x1 ++ x2 ++ x3 ++ x4 ++ x5 ++ x6 ++ x7 ++ x8 : Word).extractLsb' 0 1 = x8 ∧
    (x0 ++ x1 ++ x2 ++ x3 ++ x4 ++ x5 ++ x6 ++ x7 ++ x8 : Word).getLsbD 0 = x8.getLsbD 0 :=
  ⟨by rw [cat_hi _ _ (by decide), cat_hi _ _ (by decide), cat_hi _ _ (by decide), cat_hi _ _ (by decide), cat_hi _ _ (by decide), cat_hi _ _ (by decide), cat_hi _ _ (by decide), cat_hi _ _ (by decide)]; exact full _,
    by rw [cat_hi _ _ (by decide), cat_hi _ _ (by decide), cat_hi _ _ (by decide), cat_hi _ _ (by decide), cat_hi _ _ (by decide), cat_hi _ _ (by decide), cat_hi _ _ (by decide), cat_lo _ _ (by decide)]; exact full _,
    by rw [bit_hi _ _ (by decide), bit_hi _ _ (by decide), bit_hi _ _ (by decide), bit_hi _ _ (by decide), bit_hi _ _ (by decide), bit_hi _ _ (by decide), bit_hi _ _ (by decide), bit_lo _ _ (by decide)],
    by rw [cat_hi _ _ (by decide), cat_hi _ _ (by decide), cat_hi _ _ (by decide), cat_hi _ _ (by decide), cat_hi _ _ (by decide), cat_hi _ _ (by decide), cat_lo _ _ (by decide)]; exact full _,
    by rw [cat_hi _ _ (by decide), cat_hi _ _ (by decide), cat_hi _ _ (by decide), cat_hi _ _ (by decide), cat_hi _ _ (by decide), cat_lo _ _ (by decide)]; exact full _,
    by rw [cat_hi _ _ (by decide), cat_hi _ _ (by decide), cat_hi _ _ (by decide), cat_hi _ _ (by decide), cat_lo _ _ (by decide)]; exact full _,
    by rw [cat_hi _ _ (by decide), cat_hi _ _ (by decide), cat_hi _ _ (by decide), cat_lo _ _ (by decide)]; exact full _,
    by rw [cat_hi _ _ (by decide), cat_hi _ _ (by decide), cat_lo _ _ (by decide)]; exact full _,
    by rw [bit_hi _ _ (by decide), bit_hi _ _ (by decide), bit_lo _ _ (by decide)],
    by rw [cat_hi _ _ (by decide), cat_lo _ _ (by decide)]; exact full _,
    by rw [cat_lo _ _ (by decide)]; exact full _,
    by rw [bit_lo _ _ (by decide)]⟩

theorem shape62 (x0 : BitVec 5) (x1 : BitVec 1) (x2 : BitVec 3) (x3 : BitVec 6) (x4 : BitVec 6) (x5 : BitVec 6) (x6 : BitVec 2) (x7 : BitVec 3) :
    (x0 ++ x1 ++ x2 ++ x3 ++ x4 ++ x5 ++ x6 ++ x7 : Word).extractLsb' 27 5 = x0 ∧
    (x0 ++ x1 ++ x2 ++ x3 ++ x4 ++ x5 ++ x6 ++ x7 : Word).extractLsb' 26 1 = x1 ∧
    (x0 ++ x1 ++ x2 ++ x3 ++ x4 ++ x5 ++ x6 ++ x7 : Word).getLsbD 26 = x1.getLsbD 0 ∧
    (x0 ++ x1 ++ x2 ++ x3 ++ x4 ++ x5 ++ x6 ++ x7 : Word).extractLsb' 23 3 = x2 ∧
    (x0 ++ x1 ++ x2 ++ x3 ++ x4 ++ x5 ++ x6 ++ x7 : Word).extractLsb' 17 6 = x3 ∧
    (x0 ++ x1 ++ x2 ++ x3 ++ x4 ++ x5 ++ x6 ++ x7 : Word).extractLsb' 11 6 = x4 ∧
    (x0 ++ x1 ++ x2 ++ x3 ++ x4 ++ x5 ++ x6 ++ x7 : Word).extractLsb' 5 6 = x5 ∧
    (x0 ++ x1 ++ x2 ++ x3 ++ x4 ++ x5 ++ x6 ++ x7 : Word).extractLsb' 3 2 = x6 ∧
    (x0 ++ x1 ++ x2 ++ x3 ++ x4 ++ x5 ++ x6 ++ x7 : Word).extractLsb' 0 3 = x7 :=
  ⟨by rw [cat_hi _ _ (by decide), cat_hi _ _ (by decide), cat_hi _ _ (by decide), cat_hi _ _ (by decide), cat_hi _ _ (by decide), cat_hi _ _ (by decide), cat_hi _ _ (by decide)]; exact full _,
    by rw [cat_hi _ _ (by decide), cat_hi _ _ (by decide), cat_hi _ _ (by decide), cat_hi _ _ (by decide), cat_hi _ _ (by decide), cat_hi _ _ (by decide), cat_lo _ _ (by decide)]; exact full _,
    by rw [bit_hi _ _ (by decide), bit_hi _ _ (by decide), bit_hi _ _ (by decide), bit_hi _ _ (by decide), bit_hi _ _ (by decide), bit_hi _ _ (by decide), bit_lo _ _ (by decide)],
    by rw [cat_hi _ _ (by decide), cat_hi _ _ (by decide), cat_hi _ _ (by decide), cat_hi _ _ (by decide), cat_hi _ _ (by decide), cat_lo _ _ (by decide)]; exact full _,
    by rw [cat_hi _ _ (by decide), cat_hi _ _ (by decide), cat_hi _ _ (by decide), cat_hi _ _ (by decide), cat_lo _ _ (by decide)]; exact full _,
    by rw [cat_hi _ _ (by decide), cat_hi _ _ (by decide), cat_hi _ _ (by decide), cat_lo _ _ (by decide)]; exact full _,
    by rw [cat_hi _ _ (by decide), cat_hi _ _ (by decide), cat_lo _ _ (by decide)]; exact full _,
    by rw [cat_hi _ _ (by decide), cat_lo _ _ (by decide)]; exact full _,
    by rw [cat_lo _ _ (by decide)]; exact full _⟩

theorem shape63 (x0 : BitVec 5) (x1 : BitVec 1) (x2 : BitVec 3) (x3 : BitVec 6) (x4 : BitVec 6) (x5 : BitVec 6) (x6 : BitVec 1) (x7 : BitVec 1) (x8 : BitVec 3) :
    (x0 ++ x1 ++ x2 ++ x3 ++ x4 ++ x5 ++ x6 ++ x7 ++ x8 : Word).extractLsb' 27 5 = x0 ∧
    (x0 ++ x1 ++ x2 ++ x3 ++ x4 ++ x5 ++ x6 ++ x7 ++ x8 : Word).extractLsb' 26 1 = x1 ∧
    (x0 ++ x1 ++ x2 ++ x3 ++ x4 ++ x5 ++ x6 ++ x7 ++ x8 : Word).getLsbD 26 = x1.getLsbD 0 ∧
    (x0 ++ x1 ++ x2 ++ x3 ++ x4 ++ x5 ++ x6 ++ x7 ++ x8 : Word).extractLsb' 23 3 = x2 ∧
    (x0 ++ x1 ++ x2 ++ x3 ++ x4 ++ x5 ++ x6 ++ x7 ++ x8 : Word).extractLsb' 17 6 = x3 ∧
    (x0 ++ x1 ++ x2 ++ x3 ++ x4 ++ x5 ++ x6 ++ x7 ++ x8 : Word).extractLsb' 11 6 = x4 ∧
    (x0 ++ x1 ++ x2 ++ x3 ++ x4 ++ x5 ++ x6 ++ x7 ++ x8 : Word).extractLsb' 5 6 = x5 ∧
    (x0 ++ x1 ++ x2 ++ x3 ++ x4 ++ x5 ++ x6 ++ x7 ++ x8 : Word).extractLsb' 4 1 = x6 ∧
    (x0 ++ x1 ++ x2 ++ x3 ++ x4 ++ x5 ++ x6 ++ x7 ++ x8 : Word).getLsbD 4 = x6.getLsbD 0 ∧
    (x0 ++ x1 ++ x2 ++ x3 ++ x4 ++ x5 ++ x6 ++ x7 ++ x8 : Word).extractLsb' 3 1 = x7 ∧
    (x0 ++ x1 ++ x2 ++ x3 ++ x4 ++ x5 ++ x6 ++ x7 ++ x8 : Word).getLsbD 3 = x7.getLsbD 0 ∧
    (x0 ++ x1 ++ x2 ++ x3 ++ x4 ++ x5 ++ x6 ++ x7 ++ x8 : Word).extractLsb' 0 3 = x8 :=
  ⟨by rw [cat_hi _ _ (by decide), cat_hi _ _ (by decide), cat_hi _ _ (by decide), cat_hi _ _ (by decide), cat_hi _ _ (by decide), cat_hi _ _ (by decide), cat_hi _ _ (by decide), cat_hi _ _ (by decide)]; exact full _,
    by rw [cat_hi _ _ (by decide), cat_hi _ _ (by decide), cat_hi _ _ (by decide), cat_hi _ _ (by decide), cat_hi _ _ (by decide), cat_hi _ _ (by decide), cat_hi _ _ (by decide), cat_lo _ _ (by decide)]; exact full _,
    by rw [bit_hi _ _ (by decide), bit_hi _ _ (by decide), bit_hi _ _ (by decide), bit_hi _ _ (by decide), bit_hi _ _ (by decide), bit_hi _ _ (by decide), bit_hi _ _ (by decide), bit_lo _ _ (by decide)],
    by rw [cat_hi _ _ (by decide), cat_hi _ _ (by decide), cat_hi _ _ (by decide), cat_hi _ _ (by decide), cat_hi _ _ (by decide), cat_hi _ _ (by decide), cat_lo _ _ (by decide)]; exact full _,
    by rw [cat_hi _ _ (by decide), cat_hi _ _ (by decide), cat_hi _ _ (by decide), cat_hi _ _ (by decide), cat_hi _ _ (by decide), cat_lo _ _ (by decide)]; exact full _,
    by rw [cat_hi _ _ (by decide), cat_hi _ _ (by decide), cat_hi _ _ (by decide), cat_hi _ _ (by decide), cat_lo _ _ (by decide)]; exact full _,
    by rw [cat_hi _ _ (by decide), cat_hi _ _ (by decide), cat_hi _ _ (by decide), cat_lo _ _ (by decide)]; exact full _,
    by rw [cat_hi _ _ (by decide), cat_hi _ _ (by decide), cat_lo _ _ (by decide)]; exact full _,
    by rw [bit_hi _ _ (by decide), bit_hi _ _ (by decide), bit_lo _ _ (by decide)],
    by rw [cat_hi _ _ (by decide), cat_lo _ _ (by decide)]; exact full _,
    by rw [bit_hi _ _ (by decide), bit_lo _ _ (by decide)],
    by rw [cat_lo _ _ (by decide)]; exact full _⟩

theorem shape64 (x0 : BitVec 5) (x1 : BitVec 1) (x2 : BitVec 3) (x3 : BitVec 6) (x4 : BitVec 6) (x5 : BitVec 8) (x6 : BitVec 3) :
    (x0 ++ x1 ++ x2 ++ x3 ++ x4 ++ x5 ++ x6 : Word).extractLsb' 27 5 = x0 ∧
    (x0 ++ x1 ++ x2 ++ x3 ++ x4 ++ x5 ++ x6 : Word).extractLsb' 26 1 = x1 ∧
    (x0 ++ x1 ++ x2 ++ x3 ++ x4 ++ x5 ++ x6 : Word).getLsbD 26 = x1.getLsbD 0 ∧
    (x0 ++ x1 ++ x2 ++ x3 ++ x4 ++ x5 ++ x6 : Word).extractLsb' 23 3 = x2 ∧
    (x0 ++ x1 ++ x2 ++ x3 ++ x4 ++ x5 ++ x6 : Word).extractLsb' 17 6 = x3 ∧
    (x0 ++ x1 ++ x2 ++ x3 ++ x4 ++ x5 ++ x6 : Word).extractLsb' 11 6 = x4 ∧
    (x0 ++ x1 ++ x2 ++ x3 ++ x4 ++ x5 ++ x6 : Word).extractLsb' 3 8 = x5 ∧
    (x0 ++ x1 ++ x2 ++ x3 ++ x4 ++ x5 ++ x6 : Word).extractLsb' 0 3 = x6 :=
  ⟨by rw [cat_hi _ _ (by decide), cat_hi _ _ (by decide), cat_hi _ _ (by decide), cat_hi _ _ (by decide), cat_hi _ _ (by decide), cat_hi _ _ (by decide)]; exact full _,
    by rw [cat_hi _ _ (by decide), cat_hi _ _ (by decide), cat_hi _ _ (by decide), cat_hi _ _ (by decide), cat_hi _ _ (by decide), cat_lo _ _ (by decide)]; exact full _,
    by rw [bit_hi _ _ (by decide), bit_hi _ _ (by decide), bit_hi _ _ (by decide), bit_hi _ _ (by decide), bit_hi _ _ (by decide), bit_lo _ _ (by decide)],
    by rw [cat_hi _ _ (by decide), cat_hi _ _ (by decide), cat_hi _ _ (by decide), cat_hi _ _ (by decide), cat_lo _ _ (by decide)]; exact full _,
    by rw [cat_hi _ _ (by decide), cat_hi _ _ (by decide), cat_hi _ _ (by decide), cat_lo _ _ (by decide)]; exact full _,
    by rw [cat_hi _ _ (by decide), cat_hi _ _ (by decide), cat_lo _ _ (by decide)]; exact full _,
    by rw [cat_hi _ _ (by decide), cat_lo _ _ (by decide)]; exact full _,
    by rw [cat_lo _ _ (by decide)]; exact full _⟩

theorem shape65 (x0 : BitVec 5) (x1 : BitVec 1) (x2 : BitVec 3) (x3 : BitVec 6) (x4 : BitVec 6) (x5 : BitVec 6) (x6 : BitVec 5) :
    (x0 ++ x1 ++ x2 ++ x3 ++ x4 ++ x5 ++ x6 : Word).extractLsb' 27 5 = x0 ∧
    (x0 ++ x1 ++ x2 ++ x3 ++ x4 ++ x5 ++ x6 : Word).extractLsb' 26 1 = x1 ∧
    (x0 ++ x1 ++ x2 ++ x3 ++ x4 ++ x5 ++ x6 : Word).getLsbD 26 = x1.getLsbD 0 ∧
    (x0 ++ x1 ++ x2 ++ x3 ++ x4 ++ x5 ++ x6 : Word).extractLsb' 23 3 = x2 ∧
    (x0 ++ x1 ++ x2 ++ x3 ++ x4 ++ x5 ++ x6 : Word).extractLsb' 17 6 = x3 ∧
    (x0 ++ x1 ++ x2 ++ x3 ++ x4 ++ x5 ++ x6 : Word).extractLsb' 11 6 = x4 ∧
    (x0 ++ x1 ++ x2 ++ x3 ++ x4 ++ x5 ++ x6 : Word).extractLsb' 5 6 = x5 ∧
    (x0 ++ x1 ++ x2 ++ x3 ++ x4 ++ x5 ++ x6 : Word).extractLsb' 0 5 = x6 :=
  ⟨by rw [cat_hi _ _ (by decide), cat_hi _ _ (by decide), cat_hi _ _ (by decide), cat_hi _ _ (by decide), cat_hi _ _ (by decide), cat_hi _ _ (by decide)]; exact full _,
    by rw [cat_hi _ _ (by decide), cat_hi _ _ (by decide), cat_hi _ _ (by decide), cat_hi _ _ (by decide), cat_hi _ _ (by decide), cat_lo _ _ (by decide)]; exact full _,
    by rw [bit_hi _ _ (by decide), bit_hi _ _ (by decide), bit_hi _ _ (by decide), bit_hi _ _ (by decide), bit_hi _ _ (by decide), bit_lo _ _ (by decide)],
    by rw [cat_hi _ _ (by decide), cat_hi _ _ (by decide), cat_hi _ _ (by decide), cat_hi _ _ (by decide), cat_lo _ _ (by decide)]; exact full _,
    by rw [cat_hi _ _ (by decide), cat_hi _ _ (by decide), cat_hi _ _ (by decide), cat_lo _ _ (by decide)]; exact full _,
    by rw [cat_hi _ _ (by decide), cat_hi _ _ (by decide), cat_lo _ _ (by decide)]; exact full _,
    by rw [cat_hi _ _ (by decide), cat_lo _ _ (by decide)]; exact full _,
    by rw [cat_lo _ _ (by decide)]; exact full _⟩

/-! ## One lemma for each instruction -/

theorem nopControl g : Statement (.nopControl g) := by
  intro k h
  obtain ⟨n, p⟩ := g
  obtain rfl := one_class rfl h
  refine of_raw h rfl ?_
  show decodeControl _ = _
  unfold decodeControl
  rw [show (fld _ 27 5).toNat = 0 by simp only [fld, shape0]; rfl]
  dsimp only
  simp only [qGuardOf, fld, bit, shape0, flag]
  rfl

theorem br g c o : Statement (.br g c o) := by
  intro k h
  obtain ⟨n, p⟩ := g
  obtain rfl := one_class rfl h
  refine of_raw h rfl ?_
  show decodeControl _ = _
  unfold decodeControl
  rw [show (fld _ 27 5).toNat = 1 by simp only [fld, shape1]; rfl]
  dsimp only
  simp only [qGuardOf, fld, bit, shape1, flag]

theorem call g c o : Statement (.call g c o) := by
  intro k h
  obtain ⟨n, p⟩ := g
  obtain rfl := one_class rfl h
  refine of_raw h rfl ?_
  show decodeControl _ = _
  unfold decodeControl
  rw [show (fld _ 27 5).toNat = 2 by simp only [fld, shape1]; rfl]
  dsimp only
  simp only [qGuardOf, fld, bit, shape1, flag]

theorem calli g s : Statement (.calli g s) := by
  intro k h
  obtain ⟨n, p⟩ := g
  obtain rfl := one_class rfl h
  refine of_raw h rfl ?_
  show decodeControl _ = _
  unfold decodeControl
  rw [show (fld _ 27 5).toNat = 3 by simp only [fld, shape2]; rfl]
  dsimp only
  simp only [qGuardOf, fld, bit, shape2, flag]
  rfl

theorem ret g : Statement (.ret g) := by
  intro k h
  obtain ⟨n, p⟩ := g
  obtain rfl := one_class rfl h
  refine of_raw h rfl ?_
  show decodeControl _ = _
  unfold decodeControl
  rw [show (fld _ 27 5).toNat = 4 by simp only [fld, shape0]; rfl]
  dsimp only
  simp only [qGuardOf, fld, bit, shape0, flag]
  rfl

theorem jmpi g s : Statement (.jmpi g s) := by
  intro k h
  obtain ⟨n, p⟩ := g
  obtain rfl := one_class rfl h
  refine of_raw h rfl ?_
  show decodeControl _ = _
  unfold decodeControl
  rw [show (fld _ 27 5).toNat = 5 by simp only [fld, shape2]; rfl]
  dsimp only
  simp only [qGuardOf, fld, bit, shape2, flag]
  rfl

theorem loop g s k r e : Statement (.loop g s k r e) := by
  intro k h
  obtain ⟨n, p⟩ := g
  obtain rfl := one_class rfl h
  refine of_raw h rfl ?_
  show decodeControl _ = _
  unfold decodeControl
  rw [show (fld _ 27 5).toNat = 6 by simp only [fld, shape3]; rfl]
  dsimp only
  simp only [qGuardOf, fld, bit, shape3, flag]

theorem loops g i k r e : Statement (.loops g i k r e) := by
  intro k h
  obtain ⟨n, p⟩ := g
  obtain rfl := one_class rfl h
  refine of_raw h rfl ?_
  show decodeControl _ = _
  unfold decodeControl
  rw [show (fld _ 27 5).toNat = 7 by simp only [fld, shape4]; rfl]
  dsimp only
  simp only [qGuardOf, fld, bit, shape4, flag]

theorem lbrk g : Statement (.lbrk g) := by
  intro k h
  obtain ⟨n, p⟩ := g
  obtain rfl := one_class rfl h
  refine of_raw h rfl ?_
  show decodeControl _ = _
  unfold decodeControl
  rw [show (fld _ 27 5).toNat = 8 by simp only [fld, shape0]; rfl]
  dsimp only
  simp only [qGuardOf, fld, bit, shape0, flag]
  rfl

theorem lbrka g : Statement (.lbrka g) := by
  intro k h
  obtain ⟨n, p⟩ := g
  obtain rfl := one_class rfl h
  refine of_raw h rfl ?_
  show decodeControl _ = _
  unfold decodeControl
  rw [show (fld _ 27 5).toNat = 9 by simp only [fld, shape0]; rfl]
  dsimp only
  simp only [qGuardOf, fld, bit, shape0, flag]
  rfl

theorem rotcfg g x y : Statement (.rotcfg g x y) := by
  intro k h
  obtain ⟨n, p⟩ := g
  obtain rfl := one_class rfl h
  refine of_raw h rfl ?_
  show decodeControl _ = _
  unfold decodeControl
  rw [show (fld _ 27 5).toNat = 10 by simp only [fld, shape5]; rfl]
  dsimp only
  simp only [qGuardOf, fld, bit, shape5, flag]
  rfl

theorem wave g w : Statement (.wave g w) := by
  intro k h
  obtain ⟨n, p⟩ := g
  obtain rfl := one_class rfl h
  refine of_raw h rfl ?_
  show decodeControl _ = _
  unfold decodeControl
  rw [show (fld _ 27 5).toNat = 11 by simp only [fld, shape6]; rfl]
  dsimp only
  simp only [qGuardOf, fld, bit, shape6, flag]
  rfl

theorem fmtset g s : Statement (.fmtset g s) := by
  intro k h
  obtain ⟨n, p⟩ := g
  obtain rfl := one_class rfl h
  refine of_raw h rfl ?_
  show decodeControl _ = _
  unfold decodeControl
  rw [show (fld _ 27 5).toNat = 12 by simp only [fld, shape2]; rfl]
  dsimp only
  simp only [qGuardOf, fld, bit, shape2, flag]
  rfl

theorem semset g e s : Statement (.semset g e s) := by
  intro k h
  obtain ⟨n, p⟩ := g
  obtain rfl := one_class rfl h
  refine of_raw h rfl ?_
  show decodeControl _ = _
  unfold decodeControl
  rw [show (fld _ 27 5).toNat = 13 by simp only [fld, shape7]; rfl]
  dsimp only
  simp only [qGuardOf, fld, bit, shape7, flag]
  rfl

theorem waitf g t q : Statement (.waitf g t q) := by
  intro k h
  obtain ⟨n, p⟩ := g
  obtain rfl := one_class rfl h
  refine of_raw h rfl ?_
  show decodeControl _ = _
  unfold decodeControl
  rw [show (fld _ 27 5).toNat = 14 by simp only [fld, shape8]; rfl]
  dsimp only
  simp only [qGuardOf, fld, bit, shape8, flag]
  rfl

theorem waitr g a t q : Statement (.waitr g a t q) := by
  intro k h
  obtain ⟨n, p⟩ := g
  obtain rfl := one_class rfl h
  refine of_raw h rfl ?_
  show decodeControl _ = _
  unfold decodeControl
  rw [show (fld _ 27 5).toNat = 15 by simp only [fld, shape9]; rfl]
  dsimp only
  simp only [qGuardOf, fld, bit, shape9, flag]
  rfl

theorem drain g p t q : Statement (.drain g p t q) := by
  intro k h
  obtain ⟨n, p⟩ := g
  obtain rfl := one_class rfl h
  refine of_raw h rfl ?_
  show decodeControl _ = _
  unfold decodeControl
  rw [show (fld _ 27 5).toNat = 16 by simp only [fld, shape10]; rfl]
  dsimp only
  simp only [qGuardOf, fld, bit, shape10, flag]
  rfl

theorem fence g s k : Statement (.fence g s k) := by
  intro k h
  obtain ⟨n, p⟩ := g
  obtain rfl := one_class rfl h
  refine of_raw h rfl ?_
  show decodeControl _ = _
  unfold decodeControl
  rw [show (fld _ 27 5).toNat = 17 by simp only [fld, shape11]; rfl]
  dsimp only
  simp only [qGuardOf, fld, bit, shape11, flag]
  rfl

theorem rel g s : Statement (.rel g s) := by
  intro k h
  obtain ⟨n, p⟩ := g
  obtain rfl := one_class rfl h
  refine of_raw h rfl ?_
  show decodeControl _ = _
  unfold decodeControl
  rw [show (fld _ 27 5).toNat = 18 by simp only [fld, shape1]; rfl]
  dsimp only
  simp only [qGuardOf, fld, bit, shape1, flag]
  rfl

theorem acq g s a : Statement (.acq g s a) := by
  intro k h
  obtain ⟨n, p⟩ := g
  obtain rfl := one_class rfl h
  refine of_raw h rfl ?_
  show decodeControl _ = _
  unfold decodeControl
  rw [show (fld _ 27 5).toNat = 19 by simp only [fld, shape12]; rfl]
  dsimp only
  simp only [qGuardOf, fld, bit, shape12, flag]
  rfl

theorem acqW g s a t q : Statement (.acqW g s a t q) := by
  intro k h
  obtain ⟨n, p⟩ := g
  obtain rfl := one_class rfl h
  refine of_raw h rfl ?_
  show decodeControl _ = _
  unfold decodeControl
  rw [show (fld _ 27 5).toNat = 19 by simp only [fld, shape13]; rfl]
  dsimp only
  simp only [qGuardOf, fld, bit, shape13, flag]
  rw [if_neg (fun e => ?_)]
  · rfl
  · have := congrArg (fun v : BitVec 14 => v.getLsbD 13) e
    rw [BitVec.getLsbD_extractLsb'] at this
    revert this
    simp only [Nat.zero_add]
    rw [bit_hi _ _ (by decide), bit_hi _ _ (by decide), bit_hi _ _ (by decide), bit_lo _ _ (by decide)]
    decide

theorem bar g s t q : Statement (.bar g s t q) := by
  intro k h
  obtain ⟨n, p⟩ := g
  obtain rfl := one_class rfl h
  refine of_raw h rfl ?_
  show decodeControl _ = _
  unfold decodeControl
  rw [show (fld _ 27 5).toNat = 20 by simp only [fld, shape14]; rfl]
  dsimp only
  simp only [qGuardOf, fld, bit, shape14, flag]
  rfl

theorem launch g s : Statement (.launch g s) := by
  intro k h
  obtain ⟨n, p⟩ := g
  obtain rfl := one_class rfl h
  refine of_raw h rfl ?_
  show decodeControl _ = _
  unfold decodeControl
  rw [show (fld _ 27 5).toNat = 21 by simp only [fld, shape2]; rfl]
  dsimp only
  simp only [qGuardOf, fld, bit, shape2, flag]
  rfl

theorem signal g s : Statement (.signal g s) := by
  intro k h
  obtain ⟨n, p⟩ := g
  obtain rfl := one_class rfl h
  refine of_raw h rfl ?_
  show decodeControl _ = _
  unfold decodeControl
  rw [show (fld _ 27 5).toNat = 22 by simp only [fld, shape2]; rfl]
  dsimp only
  simp only [qGuardOf, fld, bit, shape2, flag]
  rfl

theorem yield g : Statement (.yield g) := by
  intro k h
  obtain ⟨n, p⟩ := g
  obtain rfl := one_class rfl h
  refine of_raw h rfl ?_
  show decodeControl _ = _
  unfold decodeControl
  rw [show (fld _ 27 5).toNat = 23 by simp only [fld, shape0]; rfl]
  dsimp only
  simp only [qGuardOf, fld, bit, shape0, flag]
  rfl

theorem done g : Statement (.done g) := by
  intro k h
  obtain ⟨n, p⟩ := g
  obtain rfl := one_class rfl h
  refine of_raw h rfl ?_
  show decodeControl _ = _
  unfold decodeControl
  rw [show (fld _ 27 5).toNat = 24 by simp only [fld, shape0]; rfl]
  dsimp only
  simp only [qGuardOf, fld, bit, shape0, flag]
  rfl

theorem trap g c : Statement (.trap g c) := by
  intro k h
  obtain ⟨n, p⟩ := g
  obtain rfl := one_class rfl h
  refine of_raw h rfl ?_
  show decodeControl _ = _
  unfold decodeControl
  rw [show (fld _ 27 5).toNat = 25 by simp only [fld, shape15]; rfl]
  dsimp only
  simp only [qGuardOf, fld, bit, shape15, flag]
  rfl

theorem rft g : Statement (.rft g) := by
  intro k h
  obtain ⟨n, p⟩ := g
  obtain rfl := one_class rfl h
  refine of_raw h rfl ?_
  show decodeControl _ = _
  unfold decodeControl
  rw [show (fld _ 27 5).toNat = 26 by simp only [fld, shape0]; rfl]
  dsimp only
  simp only [qGuardOf, fld, bit, shape0, flag]
  rfl

theorem sysrd g d r : Statement (.sysrd g d r) := by
  intro k h
  obtain ⟨n, p⟩ := g
  obtain rfl := one_class rfl h
  refine of_raw h rfl ?_
  show decodeControl _ = _
  unfold decodeControl
  rw [show (fld _ 27 5).toNat = 27 by simp only [fld, shape16]; rfl]
  dsimp only
  simp only [qGuardOf, fld, bit, shape16, flag]
  rfl

theorem syswr g s r : Statement (.syswr g s r) := by
  intro k h
  obtain ⟨n, p⟩ := g
  obtain rfl := one_class rfl h
  refine of_raw h rfl ?_
  show decodeControl _ = _
  unfold decodeControl
  rw [show (fld _ 27 5).toNat = 28 by simp only [fld, shape16]; rfl]
  dsimp only
  simp only [qGuardOf, fld, bit, shape16, flag]
  rfl

theorem docket g a b : Statement (.docket g a b) := by
  intro k h
  obtain ⟨n, p⟩ := g
  obtain rfl := one_class rfl h
  refine of_raw h rfl ?_
  show decodeControl _ = _
  unfold decodeControl
  rw [show (fld _ 27 5).toNat = 29 by simp only [fld, shape17]; rfl]
  dsimp only
  simp only [qGuardOf, fld, bit, shape17, flag]
  rfl

theorem dcheck g : Statement (.dcheck g) := by
  intro k h
  obtain ⟨n, p⟩ := g
  obtain rfl := one_class rfl h
  refine of_raw h rfl ?_
  show decodeControl _ = _
  unfold decodeControl
  rw [show (fld _ 27 5).toNat = 30 by simp only [fld, shape0]; rfl]
  dsimp only
  simp only [qGuardOf, fld, bit, shape0, flag]
  rfl

theorem stamp g d : Statement (.stamp g d) := by
  intro k h
  obtain ⟨n, p⟩ := g
  obtain rfl := one_class rfl h
  refine of_raw h rfl ?_
  show decodeControl _ = _
  unfold decodeControl
  rw [show (fld _ 27 5).toNat = 31 by simp only [fld, shape2]; rfl]
  dsimp only
  simp only [qGuardOf, fld, bit, shape2, flag]
  rfl

theorem stampS g d : Statement (.stampS g d) := by
  intro k h
  obtain ⟨n, p⟩ := g
  obtain rfl := one_class rfl h
  refine of_raw h rfl ?_
  show decodeControl _ = _
  unfold decodeControl
  rw [show (fld _ 27 5).toNat = 31 by simp only [fld, shape2]; rfl]
  dsimp only
  simp only [qGuardOf, fld, bit, shape2, flag]
  rfl

theorem nopScalar g : Statement (.nopScalar g) := by
  intro k h
  obtain ⟨n, p⟩ := g
  obtain rfl := one_class rfl h
  refine of_raw h rfl ?_
  show decodeScalar _ = _
  unfold decodeScalar
  rw [show (fld _ 26 6).toNat = 0 by simp only [fld, shape18]; rfl]
  dsimp only
  simp only [sGuardOf, fld, bit, shape18, flag]
  rfl

theorem add g d a b y x : Statement (.add g d a b y x) := by
  intro k h
  obtain ⟨n, p⟩ := g
  obtain rfl := one_class rfl h
  refine of_raw h rfl ?_
  show decodeScalar _ = _
  unfold decodeScalar
  rw [show (fld _ 26 6).toNat = 1 by simp only [fld, shape19]; rfl]
  dsimp only
  simp only [sGuardOf, fld, bit, shape19, flag]
  rfl

theorem sub g d a b y x : Statement (.sub g d a b y x) := by
  intro k h
  obtain ⟨n, p⟩ := g
  obtain rfl := one_class rfl h
  refine of_raw h rfl ?_
  show decodeScalar _ = _
  unfold decodeScalar
  rw [show (fld _ 26 6).toNat = 2 by simp only [fld, shape19]; rfl]
  dsimp only
  simp only [sGuardOf, fld, bit, shape19, flag]
  rfl

theorem addi g d i : Statement (.addi g d i) := by
  intro k h
  obtain ⟨n, p⟩ := g
  obtain rfl := one_class rfl h
  refine of_raw h rfl ?_
  show decodeScalar _ = _
  unfold decodeScalar
  rw [show (fld _ 26 6).toNat = 3 by simp only [fld, shape20]; rfl]
  dsimp only
  simp only [sGuardOf, fld, bit, shape20, flag]

theorem mul g d a b y x : Statement (.mul g d a b y x) := by
  intro k h
  obtain ⟨n, p⟩ := g
  obtain rfl := one_class rfl h
  refine of_raw h rfl ?_
  show decodeScalar _ = _
  unfold decodeScalar
  rw [show (fld _ 26 6).toNat = 4 by simp only [fld, shape19]; rfl]
  dsimp only
  simp only [sGuardOf, fld, bit, shape19, flag]
  rfl

theorem mulh g d a b y x : Statement (.mulh g d a b y x) := by
  intro k h
  obtain ⟨n, p⟩ := g
  obtain rfl := one_class rfl h
  refine of_raw h rfl ?_
  show decodeScalar _ = _
  unfold decodeScalar
  rw [show (fld _ 26 6).toNat = 5 by simp only [fld, shape19]; rfl]
  dsimp only
  simp only [sGuardOf, fld, bit, shape19, flag]
  rfl

theorem mulhu g d a b y x : Statement (.mulhu g d a b y x) := by
  intro k h
  obtain ⟨n, p⟩ := g
  obtain rfl := one_class rfl h
  refine of_raw h rfl ?_
  show decodeScalar _ = _
  unfold decodeScalar
  rw [show (fld _ 26 6).toNat = 6 by simp only [fld, shape19]; rfl]
  dsimp only
  simp only [sGuardOf, fld, bit, shape19, flag]
  rfl

theorem div g d a b y x : Statement (.div g d a b y x) := by
  intro k h
  obtain ⟨n, p⟩ := g
  obtain rfl := one_class rfl h
  refine of_raw h rfl ?_
  show decodeScalar _ = _
  unfold decodeScalar
  rw [show (fld _ 26 6).toNat = 7 by simp only [fld, shape19]; rfl]
  dsimp only
  simp only [sGuardOf, fld, bit, shape19, flag]
  rfl

theorem divu g d a b y x : Statement (.divu g d a b y x) := by
  intro k h
  obtain ⟨n, p⟩ := g
  obtain rfl := one_class rfl h
  refine of_raw h rfl ?_
  show decodeScalar _ = _
  unfold decodeScalar
  rw [show (fld _ 26 6).toNat = 8 by simp only [fld, shape19]; rfl]
  dsimp only
  simp only [sGuardOf, fld, bit, shape19, flag]
  rfl

theorem rem g d a b y x : Statement (.rem g d a b y x) := by
  intro k h
  obtain ⟨n, p⟩ := g
  obtain rfl := one_class rfl h
  refine of_raw h rfl ?_
  show decodeScalar _ = _
  unfold decodeScalar
  rw [show (fld _ 26 6).toNat = 9 by simp only [fld, shape19]; rfl]
  dsimp only
  simp only [sGuardOf, fld, bit, shape19, flag]
  rfl

theorem remu g d a b y x : Statement (.remu g d a b y x) := by
  intro k h
  obtain ⟨n, p⟩ := g
  obtain rfl := one_class rfl h
  refine of_raw h rfl ?_
  show decodeScalar _ = _
  unfold decodeScalar
  rw [show (fld _ 26 6).toNat = 10 by simp only [fld, shape19]; rfl]
  dsimp only
  simp only [sGuardOf, fld, bit, shape19, flag]
  rfl

theorem and g d a b y x : Statement (.and g d a b y x) := by
  intro k h
  obtain ⟨n, p⟩ := g
  obtain rfl := one_class rfl h
  refine of_raw h rfl ?_
  show decodeScalar _ = _
  unfold decodeScalar
  rw [show (fld _ 26 6).toNat = 11 by simp only [fld, shape19]; rfl]
  dsimp only
  simp only [sGuardOf, fld, bit, shape19, flag]
  rfl

theorem or g d a b y x : Statement (.or g d a b y x) := by
  intro k h
  obtain ⟨n, p⟩ := g
  obtain rfl := one_class rfl h
  refine of_raw h rfl ?_
  show decodeScalar _ = _
  unfold decodeScalar
  rw [show (fld _ 26 6).toNat = 12 by simp only [fld, shape19]; rfl]
  dsimp only
  simp only [sGuardOf, fld, bit, shape19, flag]
  rfl

theorem xor g d a b y x : Statement (.xor g d a b y x) := by
  intro k h
  obtain ⟨n, p⟩ := g
  obtain rfl := one_class rfl h
  refine of_raw h rfl ?_
  show decodeScalar _ = _
  unfold decodeScalar
  rw [show (fld _ 26 6).toNat = 13 by simp only [fld, shape19]; rfl]
  dsimp only
  simp only [sGuardOf, fld, bit, shape19, flag]
  rfl

theorem andi g d i : Statement (.andi g d i) := by
  intro k h
  obtain ⟨n, p⟩ := g
  obtain rfl := one_class rfl h
  refine of_raw h rfl ?_
  show decodeScalar _ = _
  unfold decodeScalar
  rw [show (fld _ 26 6).toNat = 14 by simp only [fld, shape20]; rfl]
  dsimp only
  simp only [sGuardOf, fld, bit, shape20, flag]

theorem ori g d i : Statement (.ori g d i) := by
  intro k h
  obtain ⟨n, p⟩ := g
  obtain rfl := one_class rfl h
  refine of_raw h rfl ?_
  show decodeScalar _ = _
  unfold decodeScalar
  rw [show (fld _ 26 6).toNat = 15 by simp only [fld, shape20]; rfl]
  dsimp only
  simp only [sGuardOf, fld, bit, shape20, flag]

theorem xori g d i : Statement (.xori g d i) := by
  intro k h
  obtain ⟨n, p⟩ := g
  obtain rfl := one_class rfl h
  refine of_raw h rfl ?_
  show decodeScalar _ = _
  unfold decodeScalar
  rw [show (fld _ 26 6).toNat = 16 by simp only [fld, shape20]; rfl]
  dsimp only
  simp only [sGuardOf, fld, bit, shape20, flag]

theorem shl g d a b y x : Statement (.shl g d a b y x) := by
  intro k h
  obtain ⟨n, p⟩ := g
  obtain rfl := one_class rfl h
  refine of_raw h rfl ?_
  show decodeScalar _ = _
  unfold decodeScalar
  rw [show (fld _ 26 6).toNat = 17 by simp only [fld, shape19]; rfl]
  dsimp only
  simp only [sGuardOf, fld, bit, shape19, flag]
  rfl

theorem shr g d a b y x : Statement (.shr g d a b y x) := by
  intro k h
  obtain ⟨n, p⟩ := g
  obtain rfl := one_class rfl h
  refine of_raw h rfl ?_
  show decodeScalar _ = _
  unfold decodeScalar
  rw [show (fld _ 26 6).toNat = 18 by simp only [fld, shape19]; rfl]
  dsimp only
  simp only [sGuardOf, fld, bit, shape19, flag]
  rfl

theorem sra g d a b y x : Statement (.sra g d a b y x) := by
  intro k h
  obtain ⟨n, p⟩ := g
  obtain rfl := one_class rfl h
  refine of_raw h rfl ?_
  show decodeScalar _ = _
  unfold decodeScalar
  rw [show (fld _ 26 6).toNat = 19 by simp only [fld, shape19]; rfl]
  dsimp only
  simp only [sGuardOf, fld, bit, shape19, flag]
  rfl

theorem shli g d i : Statement (.shli g d i) := by
  intro k h
  obtain ⟨n, p⟩ := g
  obtain rfl := one_class rfl h
  refine of_raw h rfl ?_
  show decodeScalar _ = _
  unfold decodeScalar
  rw [show (fld _ 26 6).toNat = 20 by simp only [fld, shape21]; rfl]
  dsimp only
  simp only [sGuardOf, fld, bit, shape21, flag]
  rfl

theorem shri g d i : Statement (.shri g d i) := by
  intro k h
  obtain ⟨n, p⟩ := g
  obtain rfl := one_class rfl h
  refine of_raw h rfl ?_
  show decodeScalar _ = _
  unfold decodeScalar
  rw [show (fld _ 26 6).toNat = 21 by simp only [fld, shape21]; rfl]
  dsimp only
  simp only [sGuardOf, fld, bit, shape21, flag]
  rfl

theorem srai g d i : Statement (.srai g d i) := by
  intro k h
  obtain ⟨n, p⟩ := g
  obtain rfl := one_class rfl h
  refine of_raw h rfl ?_
  show decodeScalar _ = _
  unfold decodeScalar
  rw [show (fld _ 26 6).toNat = 22 by simp only [fld, shape21]; rfl]
  dsimp only
  simp only [sGuardOf, fld, bit, shape21, flag]
  rfl

theorem min g d a b y x : Statement (.min g d a b y x) := by
  intro k h
  obtain ⟨n, p⟩ := g
  obtain rfl := one_class rfl h
  refine of_raw h rfl ?_
  show decodeScalar _ = _
  unfold decodeScalar
  rw [show (fld _ 26 6).toNat = 23 by simp only [fld, shape19]; rfl]
  dsimp only
  simp only [sGuardOf, fld, bit, shape19, flag]
  rfl

theorem max g d a b y x : Statement (.max g d a b y x) := by
  intro k h
  obtain ⟨n, p⟩ := g
  obtain rfl := one_class rfl h
  refine of_raw h rfl ?_
  show decodeScalar _ = _
  unfold decodeScalar
  rw [show (fld _ 26 6).toNat = 24 by simp only [fld, shape19]; rfl]
  dsimp only
  simp only [sGuardOf, fld, bit, shape19, flag]
  rfl

theorem minu g d a b y x : Statement (.minu g d a b y x) := by
  intro k h
  obtain ⟨n, p⟩ := g
  obtain rfl := one_class rfl h
  refine of_raw h rfl ?_
  show decodeScalar _ = _
  unfold decodeScalar
  rw [show (fld _ 26 6).toNat = 25 by simp only [fld, shape19]; rfl]
  dsimp only
  simp only [sGuardOf, fld, bit, shape19, flag]
  rfl

theorem maxu g d a b y x : Statement (.maxu g d a b y x) := by
  intro k h
  obtain ⟨n, p⟩ := g
  obtain rfl := one_class rfl h
  refine of_raw h rfl ?_
  show decodeScalar _ = _
  unfold decodeScalar
  rw [show (fld _ 26 6).toNat = 26 by simp only [fld, shape19]; rfl]
  dsimp only
  simp only [sGuardOf, fld, bit, shape19, flag]
  rfl

theorem selScalar g d a b y x : Statement (.selScalar g d a b y x) := by
  intro k h
  obtain ⟨n, p⟩ := g
  obtain rfl := one_class rfl h
  refine of_raw h rfl ?_
  show decodeScalar _ = _
  unfold decodeScalar
  rw [show (fld _ 26 6).toNat = 27 by simp only [fld, shape19]; rfl]
  dsimp only
  simp only [sGuardOf, fld, bit, shape19, flag]
  rfl

theorem cmp g c q a b y x : Statement (.cmp g c q a b y x) := by
  intro k h
  obtain ⟨n, p⟩ := g
  obtain rfl := one_class rfl h
  refine of_raw h rfl ?_
  show decodeScalar _ = _
  unfold decodeScalar
  rw [show (fld _ 26 6).toNat = 28 by simp only [fld, shape22]; rfl]
  dsimp only
  simp only [sGuardOf, fld, bit, shape22, flag]
  rfl

theorem cmpi g c q a i : Statement (.cmpi g c q a i) := by
  intro k h
  obtain ⟨n, p⟩ := g
  obtain rfl := one_class rfl h
  refine of_raw h rfl ?_
  show decodeScalar _ = _
  unfold decodeScalar
  rw [show (fld _ 26 6).toNat = 29 by simp only [fld, shape23]; rfl]
  dsimp only
  simp only [sGuardOf, fld, bit, shape23, flag]

theorem li g d i : Statement (.li g d i) := by
  intro k h
  obtain ⟨n, p⟩ := g
  obtain rfl := one_class rfl h
  refine of_raw h rfl ?_
  show decodeScalar _ = _
  unfold decodeScalar
  rw [show (fld _ 26 6).toNat = 30 by simp only [fld, shape20]; rfl]
  dsimp only
  simp only [sGuardOf, fld, bit, shape20, flag]

theorem lui g d i : Statement (.lui g d i) := by
  intro k h
  obtain ⟨n, p⟩ := g
  obtain rfl := one_class rfl h
  refine of_raw h rfl ?_
  show decodeScalar _ = _
  unfold decodeScalar
  rw [show (fld _ 26 6).toNat = 31 by simp only [fld, shape20]; rfl]
  dsimp only
  simp only [sGuardOf, fld, bit, shape20, flag]

theorem movScalar g d a x : Statement (.movScalar g d a x) := by
  intro k h
  obtain ⟨n, p⟩ := g
  obtain rfl := one_class rfl h
  refine of_raw h rfl ?_
  show decodeScalar _ = _
  unfold decodeScalar
  rw [show (fld _ 26 6).toNat = 32 by simp only [fld, shape24]; rfl]
  dsimp only
  simp only [sGuardOf, fld, bit, shape24, flag]
  rfl

theorem clz g d a x : Statement (.clz g d a x) := by
  intro k h
  obtain ⟨n, p⟩ := g
  obtain rfl := one_class rfl h
  refine of_raw h rfl ?_
  show decodeScalar _ = _
  unfold decodeScalar
  rw [show (fld _ 26 6).toNat = 33 by simp only [fld, shape24]; rfl]
  dsimp only
  simp only [sGuardOf, fld, bit, shape24, flag]
  rfl

theorem popc g d a x : Statement (.popc g d a x) := by
  intro k h
  obtain ⟨n, p⟩ := g
  obtain rfl := one_class rfl h
  refine of_raw h rfl ?_
  show decodeScalar _ = _
  unfold decodeScalar
  rw [show (fld _ 26 6).toNat = 34 by simp only [fld, shape24]; rfl]
  dsimp only
  simp only [sGuardOf, fld, bit, shape24, flag]
  rfl

theorem lea g d a b h y x : Statement (.lea g d a b h y x) := by
  intro k h
  obtain ⟨n, p⟩ := g
  obtain rfl := one_class rfl h
  refine of_raw h rfl ?_
  show decodeScalar _ = _
  unfold decodeScalar
  rw [show (fld _ 26 6).toNat = 35 by simp only [fld, shape19]; rfl]
  dsimp only
  simp only [sGuardOf, fld, bit, shape19, flag]

theorem ld g d b o z : Statement (.ld g d b o z) := by
  intro k h
  obtain ⟨n, p⟩ := g
  obtain rfl := one_class rfl h
  refine of_raw h rfl ?_
  show decodeScalar _ = _
  unfold decodeScalar
  rw [show (fld _ 26 6).toNat = 36 by simp only [fld, shape25]; rfl]
  dsimp only
  simp only [sGuardOf, fld, bit, shape25, flag]

theorem st g d b o z : Statement (.st g d b o z) := by
  intro k h
  obtain ⟨n, p⟩ := g
  obtain rfl := one_class rfl h
  refine of_raw h rfl ?_
  show decodeScalar _ = _
  unfold decodeScalar
  rw [show (fld _ 26 6).toNat = 37 by simp only [fld, shape25]; rfl]
  dsimp only
  simp only [sGuardOf, fld, bit, shape25, flag]

theorem lda g d b o z : Statement (.lda g d b o z) := by
  intro k h
  obtain ⟨n, p⟩ := g
  obtain rfl := one_class rfl h
  refine of_raw h rfl ?_
  show decodeScalar _ = _
  unfold decodeScalar
  rw [show (fld _ 26 6).toNat = 38 by simp only [fld, shape26]; rfl]
  dsimp only
  simp only [sGuardOf, fld, bit, shape26, flag]
  rfl

theorem stl g d b o z : Statement (.stl g d b o z) := by
  intro k h
  obtain ⟨n, p⟩ := g
  obtain rfl := one_class rfl h
  refine of_raw h rfl ?_
  show decodeScalar _ = _
  unfold decodeScalar
  rw [show (fld _ 26 6).toNat = 39 by simp only [fld, shape26]; rfl]
  dsimp only
  simp only [sGuardOf, fld, bit, shape26, flag]
  rfl

theorem ldlast g d b o z : Statement (.ldlast g d b o z) := by
  intro k h
  obtain ⟨n, p⟩ := g
  obtain rfl := one_class rfl h
  refine of_raw h rfl ?_
  show decodeScalar _ = _
  unfold decodeScalar
  rw [show (fld _ 26 6).toNat = 40 by simp only [fld, shape25]; rfl]
  dsimp only
  simp only [sGuardOf, fld, bit, shape25, flag]

theorem pref g h b o z : Statement (.pref g h b o z) := by
  intro k h
  obtain ⟨n, p⟩ := g
  obtain rfl := one_class rfl h
  refine of_raw h rfl ?_
  show decodeScalar _ = _
  unfold decodeScalar
  rw [show (fld _ 26 6).toNat = 41 by simp only [fld, shape25]; rfl]
  dsimp only
  simp only [sGuardOf, fld, bit, shape25, flag]

theorem aadd g d a b w y x : Statement (.aadd g d a b w y x) := by
  intro k h
  obtain ⟨n, p⟩ := g
  obtain rfl := one_class rfl h
  refine of_raw h rfl ?_
  show decodeScalar _ = _
  unfold decodeScalar
  rw [show (fld _ 26 6).toNat = 42 by simp only [fld, shape27]; rfl]
  dsimp only
  simp only [sGuardOf, fld, bit, shape27, flag]
  rfl

theorem amin g d a b w y x : Statement (.amin g d a b w y x) := by
  intro k h
  obtain ⟨n, p⟩ := g
  obtain rfl := one_class rfl h
  refine of_raw h rfl ?_
  show decodeScalar _ = _
  unfold decodeScalar
  rw [show (fld _ 26 6).toNat = 43 by simp only [fld, shape27]; rfl]
  dsimp only
  simp only [sGuardOf, fld, bit, shape27, flag]
  rfl

theorem amax g d a b w y x : Statement (.amax g d a b w y x) := by
  intro k h
  obtain ⟨n, p⟩ := g
  obtain rfl := one_class rfl h
  refine of_raw h rfl ?_
  show decodeScalar _ = _
  unfold decodeScalar
  rw [show (fld _ 26 6).toNat = 44 by simp only [fld, shape27]; rfl]
  dsimp only
  simp only [sGuardOf, fld, bit, shape27, flag]
  rfl

theorem aand g d a b w y x : Statement (.aand g d a b w y x) := by
  intro k h
  obtain ⟨n, p⟩ := g
  obtain rfl := one_class rfl h
  refine of_raw h rfl ?_
  show decodeScalar _ = _
  unfold decodeScalar
  rw [show (fld _ 26 6).toNat = 45 by simp only [fld, shape27]; rfl]
  dsimp only
  simp only [sGuardOf, fld, bit, shape27, flag]
  rfl

theorem aor g d a b w y x : Statement (.aor g d a b w y x) := by
  intro k h
  obtain ⟨n, p⟩ := g
  obtain rfl := one_class rfl h
  refine of_raw h rfl ?_
  show decodeScalar _ = _
  unfold decodeScalar
  rw [show (fld _ 26 6).toNat = 46 by simp only [fld, shape27]; rfl]
  dsimp only
  simp only [sGuardOf, fld, bit, shape27, flag]
  rfl

theorem axor g d a b w y x : Statement (.axor g d a b w y x) := by
  intro k h
  obtain ⟨n, p⟩ := g
  obtain rfl := one_class rfl h
  refine of_raw h rfl ?_
  show decodeScalar _ = _
  unfold decodeScalar
  rw [show (fld _ 26 6).toNat = 47 by simp only [fld, shape27]; rfl]
  dsimp only
  simp only [sGuardOf, fld, bit, shape27, flag]
  rfl

theorem aswap g d a b w y x : Statement (.aswap g d a b w y x) := by
  intro k h
  obtain ⟨n, p⟩ := g
  obtain rfl := one_class rfl h
  refine of_raw h rfl ?_
  show decodeScalar _ = _
  unfold decodeScalar
  rw [show (fld _ 26 6).toNat = 48 by simp only [fld, shape27]; rfl]
  dsimp only
  simp only [sGuardOf, fld, bit, shape27, flag]
  rfl

theorem acas g d a b w y x : Statement (.acas g d a b w y x) := by
  intro k h
  obtain ⟨n, p⟩ := g
  obtain rfl := one_class rfl h
  refine of_raw h rfl ?_
  show decodeScalar _ = _
  unfold decodeScalar
  rw [show (fld _ 26 6).toNat = 49 by simp only [fld, shape27]; rfl]
  dsimp only
  simp only [sGuardOf, fld, bit, shape27, flag]
  rfl

theorem afadd g d a b w y x : Statement (.afadd g d a b w y x) := by
  intro k h
  obtain ⟨n, p⟩ := g
  obtain rfl := one_class rfl h
  refine of_raw h rfl ?_
  show decodeScalar _ = _
  unfold decodeScalar
  rw [show (fld _ 26 6).toNat = 50 by simp only [fld, shape27]; rfl]
  dsimp only
  simp only [sGuardOf, fld, bit, shape27, flag]
  rfl

theorem nopSelector : Statement .nopSelector := by
  intro k h
  obtain rfl := one_class rfl h
  refine of_raw h rfl ?_
  rfl

theorem selSelector r c s p a : Statement (.selSelector r c s p a) := by
  intro k h
  obtain rfl := one_class rfl h
  refine of_raw h rfl ?_
  show decodeSelector _ = _
  unfold decodeSelector
  rw [show (fld _ 28 4).toNat = 1 by simp only [fld, shape29]; rfl]
  simp only [fld, bit, shape29, flag]
  rfl

theorem mset r c s d : Statement (.mset r c s d) := by
  intro k h
  obtain rfl := one_class rfl h
  refine of_raw h rfl ?_
  show decodeSelector _ = _
  unfold decodeSelector
  rw [show (fld _ 28 4).toNat = 2 by simp only [fld, shape30]; rfl]
  simp only [fld, bit, shape30, flag]
  rfl

theorem mrange r c l h d : Statement (.mrange r c l h d) := by
  intro k h
  obtain rfl := one_class rfl h
  refine of_raw h rfl ?_
  show decodeSelector _ = _
  unfold decodeSelector
  rw [show (fld _ 28 4).toNat = 3 by simp only [fld, shape31]; rfl]
  simp only [fld, bit, shape31, flag]
  rfl

theorem mop r c a b o d : Statement (.mop r c a b o d) := by
  intro k h
  obtain rfl := one_class rfl h
  refine of_raw h rfl ?_
  show decodeSelector _ = _
  unfold decodeSelector
  rw [show (fld _ 28 4).toNat = 4 by simp only [fld, shape32]; rfl]
  simp only [fld, bit, shape32, flag]
  rfl

theorem mflag r c k d : Statement (.mflag r c k d) := by
  intro k h
  obtain rfl := one_class rfl h
  refine of_raw h rfl ?_
  show decodeSelector _ = _
  unfold decodeSelector
  rw [show (fld _ 28 4).toNat = 5 by simp only [fld, shape33]; rfl]
  simp only [fld, bit, shape33, flag]
  rfl

theorem tscale r c s t : Statement (.tscale r c s t) := by
  intro k h
  obtain rfl := one_class rfl h
  refine of_raw h rfl ?_
  show decodeSelector _ = _
  unfold decodeSelector
  rw [show (fld _ 28 4).toNat = 6 by simp only [fld, shape34]; rfl]
  simp only [fld, bit, shape34, flag]
  rfl

theorem nopCell g : Statement (.nopCell g) := by
  intro k h
  obtain ⟨n, p⟩ := g
  rcases two_classes rfl h with rfl | rfl
  · refine of_raw h rfl ?_
    show decodeCellA _ = _
    unfold decodeCellA
    rw [show (fld _ 26 6).toNat = 0 by simp only [fld, shape35]; rfl]
    dsimp only
    simp only [pGuardOf, fld, bit, shape35, flag]
    rfl
  · refine of_raw h rfl ?_
    show decodeCellB _ = _
    unfold decodeCellB
    rw [show (fld _ 26 6).toNat = 0 by simp only [fld, shape35]; rfl]
    dsimp only
    simp only [pGuardOf, fld, bit, shape35, flag]
    rfl

theorem iadd g d a b : Statement (.iadd g d a b) := by
  intro k h
  obtain ⟨n, p⟩ := g
  rcases two_classes rfl h with rfl | rfl
  · refine of_raw h rfl ?_
    show decodeCellA _ = _
    unfold decodeCellA
    rw [show (fld _ 26 6).toNat = 1 by simp only [fld, shape36]; rfl]
    dsimp only
    simp only [pGuardOf, fld, bit, shape36, flag]
    rfl
  · refine of_raw h rfl ?_
    show decodeCellB _ = _
    unfold decodeCellB
    rw [show (fld _ 26 6).toNat = 1 by simp only [fld, shape36]; rfl]
    dsimp only
    simp only [pGuardOf, fld, bit, shape36, flag]
    rfl

theorem isub g d a b : Statement (.isub g d a b) := by
  intro k h
  obtain ⟨n, p⟩ := g
  rcases two_classes rfl h with rfl | rfl
  · refine of_raw h rfl ?_
    show decodeCellA _ = _
    unfold decodeCellA
    rw [show (fld _ 26 6).toNat = 2 by simp only [fld, shape36]; rfl]
    dsimp only
    simp only [pGuardOf, fld, bit, shape36, flag]
    rfl
  · refine of_raw h rfl ?_
    show decodeCellB _ = _
    unfold decodeCellB
    rw [show (fld _ 26 6).toNat = 2 by simp only [fld, shape36]; rfl]
    dsimp only
    simp only [pGuardOf, fld, bit, shape36, flag]
    rfl

theorem imul g d a b : Statement (.imul g d a b) := by
  intro k h
  obtain ⟨n, p⟩ := g
  rcases two_classes rfl h with rfl | rfl
  · refine of_raw h rfl ?_
    show decodeCellA _ = _
    unfold decodeCellA
    rw [show (fld _ 26 6).toNat = 3 by simp only [fld, shape36]; rfl]
    dsimp only
    simp only [pGuardOf, fld, bit, shape36, flag]
    rfl
  · refine of_raw h rfl ?_
    show decodeCellB _ = _
    unfold decodeCellB
    rw [show (fld _ 26 6).toNat = 3 by simp only [fld, shape36]; rfl]
    dsimp only
    simp only [pGuardOf, fld, bit, shape36, flag]
    rfl

theorem imulh g d a b u : Statement (.imulh g d a b u) := by
  intro k h
  obtain ⟨n, p⟩ := g
  rcases two_classes rfl h with rfl | rfl
  · refine of_raw h rfl ?_
    show decodeCellA _ = _
    unfold decodeCellA
    rw [show (fld _ 26 6).toNat = 4 by simp only [fld, shape37]; rfl]
    dsimp only
    simp only [pGuardOf, fld, bit, shape37, flag]
    rfl
  · refine of_raw h rfl ?_
    show decodeCellB _ = _
    unfold decodeCellB
    rw [show (fld _ 26 6).toNat = 4 by simp only [fld, shape37]; rfl]
    dsimp only
    simp only [pGuardOf, fld, bit, shape37, flag]
    rfl

theorem iand g d a b : Statement (.iand g d a b) := by
  intro k h
  obtain ⟨n, p⟩ := g
  rcases two_classes rfl h with rfl | rfl
  · refine of_raw h rfl ?_
    show decodeCellA _ = _
    unfold decodeCellA
    rw [show (fld _ 26 6).toNat = 5 by simp only [fld, shape36]; rfl]
    dsimp only
    simp only [pGuardOf, fld, bit, shape36, flag]
    rfl
  · refine of_raw h rfl ?_
    show decodeCellB _ = _
    unfold decodeCellB
    rw [show (fld _ 26 6).toNat = 5 by simp only [fld, shape36]; rfl]
    dsimp only
    simp only [pGuardOf, fld, bit, shape36, flag]
    rfl

theorem ior g d a b : Statement (.ior g d a b) := by
  intro k h
  obtain ⟨n, p⟩ := g
  rcases two_classes rfl h with rfl | rfl
  · refine of_raw h rfl ?_
    show decodeCellA _ = _
    unfold decodeCellA
    rw [show (fld _ 26 6).toNat = 6 by simp only [fld, shape36]; rfl]
    dsimp only
    simp only [pGuardOf, fld, bit, shape36, flag]
    rfl
  · refine of_raw h rfl ?_
    show decodeCellB _ = _
    unfold decodeCellB
    rw [show (fld _ 26 6).toNat = 6 by simp only [fld, shape36]; rfl]
    dsimp only
    simp only [pGuardOf, fld, bit, shape36, flag]
    rfl

theorem ixor g d a b : Statement (.ixor g d a b) := by
  intro k h
  obtain ⟨n, p⟩ := g
  rcases two_classes rfl h with rfl | rfl
  · refine of_raw h rfl ?_
    show decodeCellA _ = _
    unfold decodeCellA
    rw [show (fld _ 26 6).toNat = 7 by simp only [fld, shape36]; rfl]
    dsimp only
    simp only [pGuardOf, fld, bit, shape36, flag]
    rfl
  · refine of_raw h rfl ?_
    show decodeCellB _ = _
    unfold decodeCellB
    rw [show (fld _ 26 6).toNat = 7 by simp only [fld, shape36]; rfl]
    dsimp only
    simp only [pGuardOf, fld, bit, shape36, flag]
    rfl

theorem ishl g d a b : Statement (.ishl g d a b) := by
  intro k h
  obtain ⟨n, p⟩ := g
  rcases two_classes rfl h with rfl | rfl
  · refine of_raw h rfl ?_
    show decodeCellA _ = _
    unfold decodeCellA
    rw [show (fld _ 26 6).toNat = 8 by simp only [fld, shape36]; rfl]
    dsimp only
    simp only [pGuardOf, fld, bit, shape36, flag]
    rfl
  · refine of_raw h rfl ?_
    show decodeCellB _ = _
    unfold decodeCellB
    rw [show (fld _ 26 6).toNat = 8 by simp only [fld, shape36]; rfl]
    dsimp only
    simp only [pGuardOf, fld, bit, shape36, flag]
    rfl

theorem ishr g d a b : Statement (.ishr g d a b) := by
  intro k h
  obtain ⟨n, p⟩ := g
  rcases two_classes rfl h with rfl | rfl
  · refine of_raw h rfl ?_
    show decodeCellA _ = _
    unfold decodeCellA
    rw [show (fld _ 26 6).toNat = 9 by simp only [fld, shape36]; rfl]
    dsimp only
    simp only [pGuardOf, fld, bit, shape36, flag]
    rfl
  · refine of_raw h rfl ?_
    show decodeCellB _ = _
    unfold decodeCellB
    rw [show (fld _ 26 6).toNat = 9 by simp only [fld, shape36]; rfl]
    dsimp only
    simp only [pGuardOf, fld, bit, shape36, flag]
    rfl

theorem isra g d a b : Statement (.isra g d a b) := by
  intro k h
  obtain ⟨n, p⟩ := g
  rcases two_classes rfl h with rfl | rfl
  · refine of_raw h rfl ?_
    show decodeCellA _ = _
    unfold decodeCellA
    rw [show (fld _ 26 6).toNat = 10 by simp only [fld, shape36]; rfl]
    dsimp only
    simp only [pGuardOf, fld, bit, shape36, flag]
    rfl
  · refine of_raw h rfl ?_
    show decodeCellB _ = _
    unfold decodeCellB
    rw [show (fld _ 26 6).toNat = 10 by simp only [fld, shape36]; rfl]
    dsimp only
    simp only [pGuardOf, fld, bit, shape36, flag]
    rfl

theorem imin g d a b u : Statement (.imin g d a b u) := by
  intro k h
  obtain ⟨n, p⟩ := g
  rcases two_classes rfl h with rfl | rfl
  · refine of_raw h rfl ?_
    show decodeCellA _ = _
    unfold decodeCellA
    rw [show (fld _ 26 6).toNat = 11 by simp only [fld, shape37]; rfl]
    dsimp only
    simp only [pGuardOf, fld, bit, shape37, flag]
    rfl
  · refine of_raw h rfl ?_
    show decodeCellB _ = _
    unfold decodeCellB
    rw [show (fld _ 26 6).toNat = 11 by simp only [fld, shape37]; rfl]
    dsimp only
    simp only [pGuardOf, fld, bit, shape37, flag]
    rfl

theorem imax g d a b u : Statement (.imax g d a b u) := by
  intro k h
  obtain ⟨n, p⟩ := g
  rcases two_classes rfl h with rfl | rfl
  · refine of_raw h rfl ?_
    show decodeCellA _ = _
    unfold decodeCellA
    rw [show (fld _ 26 6).toNat = 12 by simp only [fld, shape37]; rfl]
    dsimp only
    simp only [pGuardOf, fld, bit, shape37, flag]
    rfl
  · refine of_raw h rfl ?_
    show decodeCellB _ = _
    unfold decodeCellB
    rw [show (fld _ 26 6).toNat = 12 by simp only [fld, shape37]; rfl]
    dsimp only
    simp only [pGuardOf, fld, bit, shape37, flag]
    rfl

theorem icmp g p a b c : Statement (.icmp g p a b c) := by
  intro k h
  obtain ⟨n, p⟩ := g
  rcases two_classes rfl h with rfl | rfl
  · refine of_raw h rfl ?_
    show decodeCellA _ = _
    unfold decodeCellA
    rw [show (fld _ 26 6).toNat = 13 by simp only [fld, shape38]; rfl]
    dsimp only
    simp only [pGuardOf, fld, bit, shape38, flag]
    rfl
  · refine of_raw h rfl ?_
    show decodeCellB _ = _
    unfold decodeCellB
    rw [show (fld _ 26 6).toNat = 13 by simp only [fld, shape38]; rfl]
    dsimp only
    simp only [pGuardOf, fld, bit, shape38, flag]
    rfl

theorem isel g d a b : Statement (.isel g d a b) := by
  intro k h
  obtain ⟨n, p⟩ := g
  rcases two_classes rfl h with rfl | rfl
  · refine of_raw h rfl ?_
    show decodeCellA _ = _
    unfold decodeCellA
    rw [show (fld _ 26 6).toNat = 14 by simp only [fld, shape36]; rfl]
    dsimp only
    simp only [pGuardOf, fld, bit, shape36, flag]
    rfl
  · refine of_raw h rfl ?_
    show decodeCellB _ = _
    unfold decodeCellB
    rw [show (fld _ 26 6).toNat = 14 by simp only [fld, shape36]; rfl]
    dsimp only
    simp only [pGuardOf, fld, bit, shape36, flag]
    rfl

theorem iaddi g d i : Statement (.iaddi g d i) := by
  intro k h
  obtain ⟨n, p⟩ := g
  rcases two_classes rfl h with rfl | rfl
  · refine of_raw h rfl ?_
    show decodeCellA _ = _
    unfold decodeCellA
    rw [show (fld _ 26 6).toNat = 15 by simp only [fld, shape39]; rfl]
    dsimp only
    simp only [pGuardOf, fld, bit, shape39, flag]
  · refine of_raw h rfl ?_
    show decodeCellB _ = _
    unfold decodeCellB
    rw [show (fld _ 26 6).toNat = 15 by simp only [fld, shape39]; rfl]
    dsimp only
    simp only [pGuardOf, fld, bit, shape39, flag]

theorem movi g d i : Statement (.movi g d i) := by
  intro k h
  obtain ⟨n, p⟩ := g
  rcases two_classes rfl h with rfl | rfl
  · refine of_raw h rfl ?_
    show decodeCellA _ = _
    unfold decodeCellA
    rw [show (fld _ 26 6).toNat = 16 by simp only [fld, shape39]; rfl]
    dsimp only
    simp only [pGuardOf, fld, bit, shape39, flag]
  · refine of_raw h rfl ?_
    show decodeCellB _ = _
    unfold decodeCellB
    rw [show (fld _ 26 6).toNat = 16 by simp only [fld, shape39]; rfl]
    dsimp only
    simp only [pGuardOf, fld, bit, shape39, flag]

theorem movhi g d i : Statement (.movhi g d i) := by
  intro k h
  obtain ⟨n, p⟩ := g
  rcases two_classes rfl h with rfl | rfl
  · refine of_raw h rfl ?_
    show decodeCellA _ = _
    unfold decodeCellA
    rw [show (fld _ 26 6).toNat = 17 by simp only [fld, shape39]; rfl]
    dsimp only
    simp only [pGuardOf, fld, bit, shape39, flag]
  · refine of_raw h rfl ?_
    show decodeCellB _ = _
    unfold decodeCellB
    rw [show (fld _ 26 6).toNat = 17 by simp only [fld, shape39]; rfl]
    dsimp only
    simp only [pGuardOf, fld, bit, shape39, flag]

theorem movCell g d a : Statement (.movCell g d a) := by
  intro k h
  obtain ⟨n, p⟩ := g
  rcases two_classes rfl h with rfl | rfl
  · refine of_raw h rfl ?_
    show decodeCellA _ = _
    unfold decodeCellA
    rw [show (fld _ 26 6).toNat = 18 by simp only [fld, shape40]; rfl]
    dsimp only
    simp only [pGuardOf, fld, bit, shape40, flag]
    rfl
  · refine of_raw h rfl ?_
    show decodeCellB _ = _
    unfold decodeCellB
    rw [show (fld _ 26 6).toNat = 18 by simp only [fld, shape40]; rfl]
    dsimp only
    simp only [pGuardOf, fld, bit, shape40, flag]
    rfl

theorem fadd g d a b : Statement (.fadd g d a b) := by
  intro k h
  obtain ⟨n, p⟩ := g
  rcases two_classes rfl h with rfl | rfl
  · refine of_raw h rfl ?_
    show decodeCellA _ = _
    unfold decodeCellA
    rw [show (fld _ 26 6).toNat = 19 by simp only [fld, shape36]; rfl]
    dsimp only
    simp only [pGuardOf, fld, bit, shape36, flag]
    rfl
  · refine of_raw h rfl ?_
    show decodeCellB _ = _
    unfold decodeCellB
    rw [show (fld _ 26 6).toNat = 19 by simp only [fld, shape36]; rfl]
    dsimp only
    simp only [pGuardOf, fld, bit, shape36, flag]
    rfl

theorem fsub g d a b : Statement (.fsub g d a b) := by
  intro k h
  obtain ⟨n, p⟩ := g
  rcases two_classes rfl h with rfl | rfl
  · refine of_raw h rfl ?_
    show decodeCellA _ = _
    unfold decodeCellA
    rw [show (fld _ 26 6).toNat = 20 by simp only [fld, shape36]; rfl]
    dsimp only
    simp only [pGuardOf, fld, bit, shape36, flag]
    rfl
  · refine of_raw h rfl ?_
    show decodeCellB _ = _
    unfold decodeCellB
    rw [show (fld _ 26 6).toNat = 20 by simp only [fld, shape36]; rfl]
    dsimp only
    simp only [pGuardOf, fld, bit, shape36, flag]
    rfl

theorem fmul g d a b : Statement (.fmul g d a b) := by
  intro k h
  obtain ⟨n, p⟩ := g
  rcases two_classes rfl h with rfl | rfl
  · refine of_raw h rfl ?_
    show decodeCellA _ = _
    unfold decodeCellA
    rw [show (fld _ 26 6).toNat = 21 by simp only [fld, shape36]; rfl]
    dsimp only
    simp only [pGuardOf, fld, bit, shape36, flag]
    rfl
  · refine of_raw h rfl ?_
    show decodeCellB _ = _
    unfold decodeCellB
    rw [show (fld _ 26 6).toNat = 21 by simp only [fld, shape36]; rfl]
    dsimp only
    simp only [pGuardOf, fld, bit, shape36, flag]
    rfl

theorem ffma g d a b : Statement (.ffma g d a b) := by
  intro k h
  obtain ⟨n, p⟩ := g
  rcases two_classes rfl h with rfl | rfl
  · refine of_raw h rfl ?_
    show decodeCellA _ = _
    unfold decodeCellA
    rw [show (fld _ 26 6).toNat = 22 by simp only [fld, shape36]; rfl]
    dsimp only
    simp only [pGuardOf, fld, bit, shape36, flag]
    rfl
  · refine of_raw h rfl ?_
    show decodeCellB _ = _
    unfold decodeCellB
    rw [show (fld _ 26 6).toNat = 22 by simp only [fld, shape36]; rfl]
    dsimp only
    simp only [pGuardOf, fld, bit, shape36, flag]
    rfl

theorem fmin g d a b : Statement (.fmin g d a b) := by
  intro k h
  obtain ⟨n, p⟩ := g
  rcases two_classes rfl h with rfl | rfl
  · refine of_raw h rfl ?_
    show decodeCellA _ = _
    unfold decodeCellA
    rw [show (fld _ 26 6).toNat = 23 by simp only [fld, shape36]; rfl]
    dsimp only
    simp only [pGuardOf, fld, bit, shape36, flag]
    rfl
  · refine of_raw h rfl ?_
    show decodeCellB _ = _
    unfold decodeCellB
    rw [show (fld _ 26 6).toNat = 23 by simp only [fld, shape36]; rfl]
    dsimp only
    simp only [pGuardOf, fld, bit, shape36, flag]
    rfl

theorem fmax g d a b : Statement (.fmax g d a b) := by
  intro k h
  obtain ⟨n, p⟩ := g
  rcases two_classes rfl h with rfl | rfl
  · refine of_raw h rfl ?_
    show decodeCellA _ = _
    unfold decodeCellA
    rw [show (fld _ 26 6).toNat = 24 by simp only [fld, shape36]; rfl]
    dsimp only
    simp only [pGuardOf, fld, bit, shape36, flag]
    rfl
  · refine of_raw h rfl ?_
    show decodeCellB _ = _
    unfold decodeCellB
    rw [show (fld _ 26 6).toNat = 24 by simp only [fld, shape36]; rfl]
    dsimp only
    simp only [pGuardOf, fld, bit, shape36, flag]
    rfl

theorem fcmp g p a b c : Statement (.fcmp g p a b c) := by
  intro k h
  obtain ⟨n, p⟩ := g
  rcases two_classes rfl h with rfl | rfl
  · refine of_raw h rfl ?_
    show decodeCellA _ = _
    unfold decodeCellA
    rw [show (fld _ 26 6).toNat = 25 by simp only [fld, shape38]; rfl]
    dsimp only
    simp only [pGuardOf, fld, bit, shape38, flag]
    rfl
  · refine of_raw h rfl ?_
    show decodeCellB _ = _
    unfold decodeCellB
    rw [show (fld _ 26 6).toNat = 25 by simp only [fld, shape38]; rfl]
    dsimp only
    simp only [pGuardOf, fld, bit, shape38, flag]
    rfl

theorem fabs g d a : Statement (.fabs g d a) := by
  intro k h
  obtain ⟨n, p⟩ := g
  rcases two_classes rfl h with rfl | rfl
  · refine of_raw h rfl ?_
    show decodeCellA _ = _
    unfold decodeCellA
    rw [show (fld _ 26 6).toNat = 26 by simp only [fld, shape40]; rfl]
    dsimp only
    simp only [pGuardOf, fld, bit, shape40, flag]
    rfl
  · refine of_raw h rfl ?_
    show decodeCellB _ = _
    unfold decodeCellB
    rw [show (fld _ 26 6).toNat = 26 by simp only [fld, shape40]; rfl]
    dsimp only
    simp only [pGuardOf, fld, bit, shape40, flag]
    rfl

theorem fneg g d a : Statement (.fneg g d a) := by
  intro k h
  obtain ⟨n, p⟩ := g
  rcases two_classes rfl h with rfl | rfl
  · refine of_raw h rfl ?_
    show decodeCellA _ = _
    unfold decodeCellA
    rw [show (fld _ 26 6).toNat = 27 by simp only [fld, shape40]; rfl]
    dsimp only
    simp only [pGuardOf, fld, bit, shape40, flag]
    rfl
  · refine of_raw h rfl ?_
    show decodeCellB _ = _
    unfold decodeCellB
    rw [show (fld _ 26 6).toNat = 27 by simp only [fld, shape40]; rfl]
    dsimp only
    simp only [pGuardOf, fld, bit, shape40, flag]
    rfl

theorem frcp g d a : Statement (.frcp g d a) := by
  intro k h
  obtain ⟨n, p⟩ := g
  rcases two_classes rfl h with rfl | rfl
  · refine of_raw h rfl ?_
    show decodeCellA _ = _
    unfold decodeCellA
    rw [show (fld _ 26 6).toNat = 28 by simp only [fld, shape40]; rfl]
    dsimp only
    simp only [pGuardOf, fld, bit, shape40, flag]
    rfl
  · refine of_raw h rfl ?_
    show decodeCellB _ = _
    unfold decodeCellB
    rw [show (fld _ 26 6).toNat = 28 by simp only [fld, shape40]; rfl]
    dsimp only
    simp only [pGuardOf, fld, bit, shape40, flag]
    rfl

theorem frsq g d a : Statement (.frsq g d a) := by
  intro k h
  obtain ⟨n, p⟩ := g
  rcases two_classes rfl h with rfl | rfl
  · refine of_raw h rfl ?_
    show decodeCellA _ = _
    unfold decodeCellA
    rw [show (fld _ 26 6).toNat = 29 by simp only [fld, shape40]; rfl]
    dsimp only
    simp only [pGuardOf, fld, bit, shape40, flag]
    rfl
  · refine of_raw h rfl ?_
    show decodeCellB _ = _
    unfold decodeCellB
    rw [show (fld _ 26 6).toNat = 29 by simp only [fld, shape40]; rfl]
    dsimp only
    simp only [pGuardOf, fld, bit, shape40, flag]
    rfl

theorem fexp2 g d a : Statement (.fexp2 g d a) := by
  intro k h
  obtain ⟨n, p⟩ := g
  rcases two_classes rfl h with rfl | rfl
  · refine of_raw h rfl ?_
    show decodeCellA _ = _
    unfold decodeCellA
    rw [show (fld _ 26 6).toNat = 30 by simp only [fld, shape40]; rfl]
    dsimp only
    simp only [pGuardOf, fld, bit, shape40, flag]
    rfl
  · refine of_raw h rfl ?_
    show decodeCellB _ = _
    unfold decodeCellB
    rw [show (fld _ 26 6).toNat = 30 by simp only [fld, shape40]; rfl]
    dsimp only
    simp only [pGuardOf, fld, bit, shape40, flag]
    rfl

theorem flog2 g d a : Statement (.flog2 g d a) := by
  intro k h
  obtain ⟨n, p⟩ := g
  rcases two_classes rfl h with rfl | rfl
  · refine of_raw h rfl ?_
    show decodeCellA _ = _
    unfold decodeCellA
    rw [show (fld _ 26 6).toNat = 31 by simp only [fld, shape40]; rfl]
    dsimp only
    simp only [pGuardOf, fld, bit, shape40, flag]
    rfl
  · refine of_raw h rfl ?_
    show decodeCellB _ = _
    unfold decodeCellB
    rw [show (fld _ 26 6).toNat = 31 by simp only [fld, shape40]; rfl]
    dsimp only
    simp only [pGuardOf, fld, bit, shape40, flag]
    rfl

theorem ftanh g d a : Statement (.ftanh g d a) := by
  intro k h
  obtain ⟨n, p⟩ := g
  rcases two_classes rfl h with rfl | rfl
  · refine of_raw h rfl ?_
    show decodeCellA _ = _
    unfold decodeCellA
    rw [show (fld _ 26 6).toNat = 32 by simp only [fld, shape40]; rfl]
    dsimp only
    simp only [pGuardOf, fld, bit, shape40, flag]
    rfl
  · refine of_raw h rfl ?_
    show decodeCellB _ = _
    unfold decodeCellB
    rw [show (fld _ 26 6).toNat = 32 by simp only [fld, shape40]; rfl]
    dsimp only
    simp only [pGuardOf, fld, bit, shape40, flag]
    rfl

theorem fcvt g d a b m : Statement (.fcvt g d a b m) := by
  intro k h
  obtain ⟨n, p⟩ := g
  rcases two_classes rfl h with rfl | rfl
  · refine of_raw h rfl ?_
    show decodeCellA _ = _
    unfold decodeCellA
    rw [show (fld _ 26 6).toNat = 33 by simp only [fld, shape36]; rfl]
    dsimp only
    simp only [pGuardOf, fld, bit, shape36, flag]
  · refine of_raw h rfl ?_
    show decodeCellB _ = _
    unfold decodeCellB
    rw [show (fld _ 26 6).toNat = 33 by simp only [fld, shape36]; rfl]
    dsimp only
    simp only [pGuardOf, fld, bit, shape36, flag]

theorem frnd g d a m : Statement (.frnd g d a m) := by
  intro k h
  obtain ⟨n, p⟩ := g
  rcases two_classes rfl h with rfl | rfl
  · refine of_raw h rfl ?_
    show decodeCellA _ = _
    unfold decodeCellA
    rw [show (fld _ 26 6).toNat = 34 by simp only [fld, shape36]; rfl]
    dsimp only
    simp only [pGuardOf, fld, bit, shape36, flag]
    rfl
  · refine of_raw h rfl ?_
    show decodeCellB _ = _
    unfold decodeCellB
    rw [show (fld _ 26 6).toNat = 34 by simp only [fld, shape36]; rfl]
    dsimp only
    simp only [pGuardOf, fld, bit, shape36, flag]
    rfl

theorem bfma g d a b m : Statement (.bfma g d a b m) := by
  intro k h
  obtain ⟨n, p⟩ := g
  rcases two_classes rfl h with rfl | rfl
  · refine of_raw h rfl ?_
    show decodeCellA _ = _
    unfold decodeCellA
    rw [show (fld _ 26 6).toNat = 35 by simp only [fld, shape41]; rfl]
    dsimp only
    simp only [pGuardOf, fld, bit, shape41, flag]
    rfl
  · refine of_raw h rfl ?_
    show decodeCellB _ = _
    unfold decodeCellB
    rw [show (fld _ 26 6).toNat = 35 by simp only [fld, shape41]; rfl]
    dsimp only
    simp only [pGuardOf, fld, bit, shape41, flag]
    rfl

theorem hadd2 g d a b : Statement (.hadd2 g d a b) := by
  intro k h
  obtain ⟨n, p⟩ := g
  rcases two_classes rfl h with rfl | rfl
  · refine of_raw h rfl ?_
    show decodeCellA _ = _
    unfold decodeCellA
    rw [show (fld _ 26 6).toNat = 36 by simp only [fld, shape36]; rfl]
    dsimp only
    simp only [pGuardOf, fld, bit, shape36, flag]
    rfl
  · refine of_raw h rfl ?_
    show decodeCellB _ = _
    unfold decodeCellB
    rw [show (fld _ 26 6).toNat = 36 by simp only [fld, shape36]; rfl]
    dsimp only
    simp only [pGuardOf, fld, bit, shape36, flag]
    rfl

theorem hmul2 g d a b : Statement (.hmul2 g d a b) := by
  intro k h
  obtain ⟨n, p⟩ := g
  rcases two_classes rfl h with rfl | rfl
  · refine of_raw h rfl ?_
    show decodeCellA _ = _
    unfold decodeCellA
    rw [show (fld _ 26 6).toNat = 37 by simp only [fld, shape36]; rfl]
    dsimp only
    simp only [pGuardOf, fld, bit, shape36, flag]
    rfl
  · refine of_raw h rfl ?_
    show decodeCellB _ = _
    unfold decodeCellB
    rw [show (fld _ 26 6).toNat = 37 by simp only [fld, shape36]; rfl]
    dsimp only
    simp only [pGuardOf, fld, bit, shape36, flag]
    rfl

theorem hfma2 g d a b : Statement (.hfma2 g d a b) := by
  intro k h
  obtain ⟨n, p⟩ := g
  rcases two_classes rfl h with rfl | rfl
  · refine of_raw h rfl ?_
    show decodeCellA _ = _
    unfold decodeCellA
    rw [show (fld _ 26 6).toNat = 38 by simp only [fld, shape36]; rfl]
    dsimp only
    simp only [pGuardOf, fld, bit, shape36, flag]
    rfl
  · refine of_raw h rfl ?_
    show decodeCellB _ = _
    unfold decodeCellB
    rw [show (fld _ 26 6).toNat = 38 by simp only [fld, shape36]; rfl]
    dsimp only
    simp only [pGuardOf, fld, bit, shape36, flag]
    rfl

theorem vset g d : Statement (.vset g d) := by
  intro k h
  obtain ⟨n, p⟩ := g
  rcases two_classes rfl h with rfl | rfl
  · refine of_raw h rfl ?_
    show decodeCellA _ = _
    unfold decodeCellA
    rw [show (fld _ 26 6).toNat = 39 by simp only [fld, shape39]; rfl]
    dsimp only
    simp only [pGuardOf, fld, bit, shape39, flag]
    rfl
  · refine of_raw h rfl ?_
    show decodeCellB _ = _
    unfold decodeCellB
    rw [show (fld _ 26 6).toNat = 39 by simp only [fld, shape39]; rfl]
    dsimp only
    simp only [pGuardOf, fld, bit, shape39, flag]
    rfl

theorem vclr g d : Statement (.vclr g d) := by
  intro k h
  obtain ⟨n, p⟩ := g
  rcases two_classes rfl h with rfl | rfl
  · refine of_raw h rfl ?_
    show decodeCellA _ = _
    unfold decodeCellA
    rw [show (fld _ 26 6).toNat = 40 by simp only [fld, shape39]; rfl]
    dsimp only
    simp only [pGuardOf, fld, bit, shape39, flag]
    rfl
  · refine of_raw h rfl ?_
    show decodeCellB _ = _
    unfold decodeCellB
    rw [show (fld _ 26 6).toNat = 40 by simp only [fld, shape39]; rfl]
    dsimp only
    simp only [pGuardOf, fld, bit, shape39, flag]
    rfl

theorem vtest g p a b c : Statement (.vtest g p a b c) := by
  intro k h
  obtain ⟨n, p⟩ := g
  rcases two_classes rfl h with rfl | rfl
  · refine of_raw h rfl ?_
    show decodeCellA _ = _
    unfold decodeCellA
    rw [show (fld _ 26 6).toNat = 41 by simp only [fld, shape42]; rfl]
    dsimp only
    simp only [pGuardOf, fld, bit, shape42, flag]
    rfl
  · refine of_raw h rfl ?_
    show decodeCellB _ = _
    unfold decodeCellB
    rw [show (fld _ 26 6).toNat = 41 by simp only [fld, shape42]; rfl]
    dsimp only
    simp only [pGuardOf, fld, bit, shape42, flag]
    rfl

theorem vsel g d a b : Statement (.vsel g d a b) := by
  intro k h
  obtain ⟨n, p⟩ := g
  rcases two_classes rfl h with rfl | rfl
  · refine of_raw h rfl ?_
    show decodeCellA _ = _
    unfold decodeCellA
    rw [show (fld _ 26 6).toNat = 42 by simp only [fld, shape36]; rfl]
    dsimp only
    simp only [pGuardOf, fld, bit, shape36, flag]
    rfl
  · refine of_raw h rfl ?_
    show decodeCellB _ = _
    unfold decodeCellB
    rw [show (fld _ 26 6).toNat = 42 by simp only [fld, shape36]; rfl]
    dsimp only
    simp only [pGuardOf, fld, bit, shape36, flag]
    rfl

theorem vmov g d a : Statement (.vmov g d a) := by
  intro k h
  obtain ⟨n, p⟩ := g
  rcases two_classes rfl h with rfl | rfl
  · refine of_raw h rfl ?_
    show decodeCellA _ = _
    unfold decodeCellA
    rw [show (fld _ 26 6).toNat = 43 by simp only [fld, shape40]; rfl]
    dsimp only
    simp only [pGuardOf, fld, bit, shape40, flag]
    rfl
  · refine of_raw h rfl ?_
    show decodeCellB _ = _
    unfold decodeCellB
    rw [show (fld _ 26 6).toNat = 43 by simp only [fld, shape40]; rfl]
    dsimp only
    simp only [pGuardOf, fld, bit, shape40, flag]
    rfl

theorem pand g p q r : Statement (.pand g p q r) := by
  intro k h
  obtain ⟨n, p⟩ := g
  rcases two_classes rfl h with rfl | rfl
  · refine of_raw h rfl ?_
    show decodeCellA _ = _
    unfold decodeCellA
    rw [show (fld _ 26 6).toNat = 44 by simp only [fld, shape43]; rfl]
    dsimp only
    simp only [pGuardOf, fld, bit, shape43, flag]
    rfl
  · refine of_raw h rfl ?_
    show decodeCellB _ = _
    unfold decodeCellB
    rw [show (fld _ 26 6).toNat = 44 by simp only [fld, shape43]; rfl]
    dsimp only
    simp only [pGuardOf, fld, bit, shape43, flag]
    rfl

theorem por g p q r : Statement (.por g p q r) := by
  intro k h
  obtain ⟨n, p⟩ := g
  rcases two_classes rfl h with rfl | rfl
  · refine of_raw h rfl ?_
    show decodeCellA _ = _
    unfold decodeCellA
    rw [show (fld _ 26 6).toNat = 45 by simp only [fld, shape43]; rfl]
    dsimp only
    simp only [pGuardOf, fld, bit, shape43, flag]
    rfl
  · refine of_raw h rfl ?_
    show decodeCellB _ = _
    unfold decodeCellB
    rw [show (fld _ 26 6).toNat = 45 by simp only [fld, shape43]; rfl]
    dsimp only
    simp only [pGuardOf, fld, bit, shape43, flag]
    rfl

theorem pxor g p q r : Statement (.pxor g p q r) := by
  intro k h
  obtain ⟨n, p⟩ := g
  rcases two_classes rfl h with rfl | rfl
  · refine of_raw h rfl ?_
    show decodeCellA _ = _
    unfold decodeCellA
    rw [show (fld _ 26 6).toNat = 46 by simp only [fld, shape43]; rfl]
    dsimp only
    simp only [pGuardOf, fld, bit, shape43, flag]
    rfl
  · refine of_raw h rfl ?_
    show decodeCellB _ = _
    unfold decodeCellB
    rw [show (fld _ 26 6).toNat = 46 by simp only [fld, shape43]; rfl]
    dsimp only
    simp only [pGuardOf, fld, bit, shape43, flag]
    rfl

theorem pnot g p q : Statement (.pnot g p q) := by
  intro k h
  obtain ⟨n, p⟩ := g
  rcases two_classes rfl h with rfl | rfl
  · refine of_raw h rfl ?_
    show decodeCellA _ = _
    unfold decodeCellA
    rw [show (fld _ 26 6).toNat = 47 by simp only [fld, shape44]; rfl]
    dsimp only
    simp only [pGuardOf, fld, bit, shape44, flag]
    rfl
  · refine of_raw h rfl ?_
    show decodeCellB _ = _
    unfold decodeCellB
    rw [show (fld _ 26 6).toNat = 47 by simp only [fld, shape44]; rfl]
    dsimp only
    simp only [pGuardOf, fld, bit, shape44, flag]
    rfl

theorem pmov g p q : Statement (.pmov g p q) := by
  intro k h
  obtain ⟨n, p⟩ := g
  rcases two_classes rfl h with rfl | rfl
  · refine of_raw h rfl ?_
    show decodeCellA _ = _
    unfold decodeCellA
    rw [show (fld _ 26 6).toNat = 48 by simp only [fld, shape44]; rfl]
    dsimp only
    simp only [pGuardOf, fld, bit, shape44, flag]
    rfl
  · refine of_raw h rfl ?_
    show decodeCellB _ = _
    unfold decodeCellB
    rw [show (fld _ 26 6).toNat = 48 by simp only [fld, shape44]; rfl]
    dsimp only
    simp only [pGuardOf, fld, bit, shape44, flag]
    rfl

theorem rand g d a w : Statement (.rand g d a w) := by
  intro k h
  obtain ⟨n, p⟩ := g
  rcases two_classes rfl h with rfl | rfl
  · refine of_raw h rfl ?_
    show decodeCellA _ = _
    unfold decodeCellA
    rw [show (fld _ 26 6).toNat = 49 by simp only [fld, shape45]; rfl]
    dsimp only
    simp only [pGuardOf, fld, bit, shape45, flag]
    rfl
  · refine of_raw h rfl ?_
    show decodeCellB _ = _
    unfold decodeCellB
    rw [show (fld _ 26 6).toNat = 49 by simp only [fld, shape45]; rfl]
    dsimp only
    simp only [pGuardOf, fld, bit, shape45, flag]
    rfl

theorem lexit g : Statement (.lexit g) := by
  intro k h
  obtain ⟨n, p⟩ := g
  rcases two_classes rfl h with rfl | rfl
  · refine of_raw h rfl ?_
    show decodeCellA _ = _
    unfold decodeCellA
    rw [show (fld _ 26 6).toNat = 50 by simp only [fld, shape35]; rfl]
    dsimp only
    simp only [pGuardOf, fld, bit, shape35, flag]
    rfl
  · refine of_raw h rfl ?_
    show decodeCellB _ = _
    unfold decodeCellB
    rw [show (fld _ 26 6).toNat = 50 by simp only [fld, shape35]; rfl]
    dsimp only
    simp only [pGuardOf, fld, bit, shape35, flag]
    rfl

theorem ldc g d b o : Statement (.ldc g d b o) := by
  intro k h
  obtain ⟨n, p⟩ := g
  obtain rfl := one_class rfl h
  refine of_raw h rfl ?_
  show decodeCellB _ = _
  unfold decodeCellB
  rw [show (fld _ 26 6).toNat = 51 by simp only [fld, shape40]; rfl]
  dsimp only
  simp only [pGuardOf, fld, bit, shape40, flag]

theorem stc g d b o : Statement (.stc g d b o) := by
  intro k h
  obtain ⟨n, p⟩ := g
  obtain rfl := one_class rfl h
  refine of_raw h rfl ?_
  show decodeCellB _ = _
  unfold decodeCellB
  rw [show (fld _ 26 6).toNat = 52 by simp only [fld, shape40]; rfl]
  dsimp only
  simp only [pGuardOf, fld, bit, shape40, flag]

theorem ldc2 g d b o : Statement (.ldc2 g d b o) := by
  intro k h
  obtain ⟨n, p⟩ := g
  obtain rfl := one_class rfl h
  refine of_raw h rfl ?_
  show decodeCellB _ = _
  unfold decodeCellB
  rw [show (fld _ 26 6).toNat = 53 by simp only [fld, shape40]; rfl]
  dsimp only
  simp only [pGuardOf, fld, bit, shape40, flag]

theorem stc2 g d b o : Statement (.stc2 g d b o) := by
  intro k h
  obtain ⟨n, p⟩ := g
  obtain rfl := one_class rfl h
  refine of_raw h rfl ?_
  show decodeCellB _ = _
  unfold decodeCellB
  rw [show (fld _ 26 6).toNat = 54 by simp only [fld, shape40]; rfl]
  dsimp only
  simp only [pGuardOf, fld, bit, shape40, flag]

theorem ldca g d b o : Statement (.ldca g d b o) := by
  intro k h
  obtain ⟨n, p⟩ := g
  obtain rfl := one_class rfl h
  refine of_raw h rfl ?_
  show decodeCellB _ = _
  unfold decodeCellB
  rw [show (fld _ 26 6).toNat = 55 by simp only [fld, shape40]; rfl]
  dsimp only
  simp only [pGuardOf, fld, bit, shape40, flag]

theorem stca g d b o : Statement (.stca g d b o) := by
  intro k h
  obtain ⟨n, p⟩ := g
  obtain rfl := one_class rfl h
  refine of_raw h rfl ?_
  show decodeCellB _ = _
  unfold decodeCellB
  rw [show (fld _ 26 6).toNat = 56 by simp only [fld, shape40]; rfl]
  dsimp only
  simp only [pGuardOf, fld, bit, shape40, flag]

theorem comm g d a m : Statement (.comm g d a m) := by
  intro k h
  obtain ⟨n, p⟩ := g
  obtain rfl := one_class rfl h
  refine of_raw h rfl ?_
  show decodeCellB _ = _
  unfold decodeCellB
  rw [show (fld _ 26 6).toNat = 57 by simp only [fld, shape45]; rfl]
  dsimp only
  simp only [pGuardOf, fld, bit, shape45, flag]
  rfl

theorem smm g c e a b z : Statement (.smm g c e a b z) := by
  intro k h
  obtain ⟨n, p⟩ := g
  obtain rfl := one_class rfl h
  refine of_raw h rfl ?_
  show decodeCellA _ = _
  unfold decodeCellA
  rw [show (fld _ 26 6).toNat = 51 by simp only [fld, shape46]; rfl]
  dsimp only
  simp only [pGuardOf, fld, bit, shape46, flag]
  rfl

theorem smms g c e a b z : Statement (.smms g c e a b z) := by
  intro k h
  obtain ⟨n, p⟩ := g
  obtain rfl := one_class rfl h
  refine of_raw h rfl ?_
  show decodeCellA _ = _
  unfold decodeCellA
  rw [show (fld _ 26 6).toNat = 52 by simp only [fld, shape46]; rfl]
  dsimp only
  simp only [pGuardOf, fld, bit, shape46, flag]
  rfl

theorem smz g c e : Statement (.smz g c e) := by
  intro k h
  obtain ⟨n, p⟩ := g
  obtain rfl := one_class rfl h
  refine of_raw h rfl ?_
  show decodeCellA _ = _
  unfold decodeCellA
  rw [show (fld _ 26 6).toNat = 53 by simp only [fld, shape47]; rfl]
  dsimp only
  simp only [pGuardOf, fld, bit, shape47, flag]
  rfl

theorem smadd g c e k : Statement (.smadd g c e k) := by
  intro k h
  obtain ⟨n, p⟩ := g
  obtain rfl := one_class rfl h
  refine of_raw h rfl ?_
  show decodeCellA _ = _
  unfold decodeCellA
  rw [show (fld _ 26 6).toNat = 54 by simp only [fld, shape48]; rfl]
  dsimp only
  simp only [pGuardOf, fld, bit, shape48, flag]
  rfl

theorem smrd g d c e : Statement (.smrd g d c e) := by
  intro k h
  obtain ⟨n, p⟩ := g
  obtain rfl := one_class rfl h
  refine of_raw h rfl ?_
  show decodeCellA _ = _
  unfold decodeCellA
  rw [show (fld _ 26 6).toNat = 55 by simp only [fld, shape49]; rfl]
  dsimp only
  simp only [pGuardOf, fld, bit, shape49, flag]
  rfl

theorem smwr g a c e : Statement (.smwr g a c e) := by
  intro k h
  obtain ⟨n, p⟩ := g
  obtain rfl := one_class rfl h
  refine of_raw h rfl ?_
  show decodeCellA _ = _
  unfold decodeCellA
  rw [show (fld _ 26 6).toNat = 56 by simp only [fld, shape49]; rfl]
  dsimp only
  simp only [pGuardOf, fld, bit, shape49, flag]
  rfl

theorem smout g c e b f : Statement (.smout g c e b f) := by
  intro k h
  obtain ⟨n, p⟩ := g
  obtain rfl := one_class rfl h
  refine of_raw h rfl ?_
  show decodeCellA _ = _
  unfold decodeCellA
  rw [show (fld _ 26 6).toNat = 57 by simp only [fld, shape50]; rfl]
  dsimp only
  simp only [pGuardOf, fld, bit, shape50, flag]
  rfl

theorem smcmp g c e k p m : Statement (.smcmp g c e k p m) := by
  intro k h
  obtain ⟨n, p⟩ := g
  obtain rfl := one_class rfl h
  refine of_raw h rfl ?_
  show decodeCellA _ = _
  unfold decodeCellA
  rw [show (fld _ 26 6).toNat = 58 by simp only [fld, shape51]; rfl]
  dsimp only
  simp only [pGuardOf, fld, bit, shape51, flag]
  rfl

theorem scmpr g d a c e : Statement (.scmpr g d a c e) := by
  intro k h
  obtain ⟨n, p⟩ := g
  obtain rfl := one_class rfl h
  refine of_raw h rfl ?_
  show decodeCellA _ = _
  unfold decodeCellA
  rw [show (fld _ 26 6).toNat = 59 by simp only [fld, shape52]; rfl]
  dsimp only
  simp only [pGuardOf, fld, bit, shape52, flag]
  rfl

theorem scmprPair g d c e : Statement (.scmprPair g d c e) := by
  intro k h
  obtain ⟨n, p⟩ := g
  obtain rfl := one_class rfl h
  refine of_raw h rfl ?_
  show decodeCellA _ = _
  unfold decodeCellA
  rw [show (fld _ 26 6).toNat = 59 by simp only [fld, shape52]; rfl]
  dsimp only
  simp only [pGuardOf, fld, bit, shape52, flag]
  rfl

theorem sexpn g c e a b z : Statement (.sexpn g c e a b z) := by
  intro k h
  obtain ⟨n, p⟩ := g
  obtain rfl := one_class rfl h
  refine of_raw h rfl ?_
  show decodeCellA _ = _
  unfold decodeCellA
  rw [show (fld _ 26 6).toNat = 60 by simp only [fld, shape53]; rfl]
  dsimp only
  simp only [pGuardOf, fld, bit, shape53, flag]
  rfl

theorem bpack g d c e s j : Statement (.bpack g d c e s j) := by
  intro k h
  obtain ⟨n, p⟩ := g
  obtain rfl := one_class rfl h
  refine of_raw h rfl ?_
  show decodeCellA _ = _
  unfold decodeCellA
  rw [show (fld _ 26 6).toNat = 61 by simp only [fld, shape54]; rfl]
  dsimp only
  simp only [pGuardOf, fld, bit, shape54, flag]
  rfl

theorem bunpk g a c s j : Statement (.bunpk g a c s j) := by
  intro k h
  obtain ⟨n, p⟩ := g
  obtain rfl := one_class rfl h
  refine of_raw h rfl ?_
  show decodeCellA _ = _
  unfold decodeCellA
  rw [show (fld _ 26 6).toNat = 62 by simp only [fld, shape54]; rfl]
  dsimp only
  simp only [pGuardOf, fld, bit, shape54, flag]
  rfl

theorem smred g c e k m : Statement (.smred g c e k m) := by
  intro k h
  obtain ⟨n, p⟩ := g
  obtain rfl := one_class rfl h
  refine of_raw h rfl ?_
  show decodeCellA _ = _
  unfold decodeCellA
  rw [show (fld _ 26 6).toNat = 63 by simp only [fld, shape55]; rfl]
  dsimp only
  simp only [pGuardOf, fld, bit, shape55, flag]
  rfl

theorem nopInject g : Statement (.nopInject g) := by
  intro k h
  obtain ⟨n, p⟩ := g
  obtain rfl := one_class rfl h
  refine of_raw h rfl ?_
  show decodeInject _ = _
  unfold decodeInject
  rw [show (fld _ 27 5).toNat = 0 by simp only [fld, shape0]; rfl]
  dsimp only
  simp only [qGuardOf, fld, bit, shape0, flag]
  rfl

theorem ficfg g s f : Statement (.ficfg g s f) := by
  intro k h
  obtain ⟨n, p⟩ := g
  obtain rfl := one_class rfl h
  refine of_raw h rfl ?_
  show decodeInject _ = _
  unfold decodeInject
  rw [show (fld _ 27 5).toNat = 1 by simp only [fld, shape56]; rfl]
  dsimp only
  simp only [qGuardOf, fld, bit, shape56, flag]
  rfl

theorem figo g f b : Statement (.figo g f b) := by
  intro k h
  obtain ⟨n, p⟩ := g
  obtain rfl := one_class rfl h
  refine of_raw h rfl ?_
  show decodeInject _ = _
  unfold decodeInject
  rw [show (fld _ 27 5).toNat = 2 by simp only [fld, shape57]; rfl]
  dsimp only
  simp only [qGuardOf, fld, bit, shape57, flag]
  rfl

theorem fihalt g f : Statement (.fihalt g f) := by
  intro k h
  obtain ⟨n, p⟩ := g
  obtain rfl := one_class rfl h
  refine of_raw h rfl ?_
  show decodeInject _ = _
  unfold decodeInject
  rw [show (fld _ 27 5).toNat = 3 by simp only [fld, shape58]; rfl]
  dsimp only
  simp only [qGuardOf, fld, bit, shape58, flag]
  rfl

theorem fipad g s f m : Statement (.fipad g s f m) := by
  intro k h
  obtain ⟨n, p⟩ := g
  obtain rfl := one_class rfl h
  refine of_raw h rfl ?_
  show decodeInject _ = _
  unfold decodeInject
  rw [show (fld _ 27 5).toNat = 4 by simp only [fld, shape59]; rfl]
  dsimp only
  simp only [qGuardOf, fld, bit, shape59, flag]
  rfl

theorem fisel g f q : Statement (.fisel g f q) := by
  intro k h
  obtain ⟨n, p⟩ := g
  obtain rfl := one_class rfl h
  refine of_raw h rfl ?_
  show decodeInject _ = _
  unfold decodeInject
  rw [show (fld _ 27 5).toNat = 5 by simp only [fld, shape60]; rfl]
  dsimp only
  simp only [qGuardOf, fld, bit, shape60, flag]
  rfl

theorem fiqb g a t f b : Statement (.fiqb g a t f b) := by
  intro k h
  obtain ⟨n, p⟩ := g
  obtain rfl := one_class rfl h
  refine of_raw h rfl ?_
  show decodeInject _ = _
  unfold decodeInject
  rw [show (fld _ 27 5).toNat = 6 by simp only [fld, shape61]; rfl]
  dsimp only
  simp only [qGuardOf, fld, bit, shape61, flag]
  rfl

theorem nopDrain g : Statement (.nopDrain g) := by
  intro k h
  obtain ⟨n, p⟩ := g
  obtain rfl := one_class rfl h
  refine of_raw h rfl ?_
  show decodeDrain _ = _
  unfold decodeDrain
  rw [show (fld _ 27 5).toNat = 0 by simp only [fld, shape0]; rfl]
  dsimp only
  simp only [qGuardOf, fld, bit, shape0, flag]
  rfl

theorem fdcfg g s f : Statement (.fdcfg g s f) := by
  intro k h
  obtain ⟨n, p⟩ := g
  obtain rfl := one_class rfl h
  refine of_raw h rfl ?_
  show decodeDrain _ = _
  unfold decodeDrain
  rw [show (fld _ 27 5).toNat = 1 by simp only [fld, shape56]; rfl]
  dsimp only
  simp only [qGuardOf, fld, bit, shape56, flag]
  rfl

theorem fdgo g f : Statement (.fdgo g f) := by
  intro k h
  obtain ⟨n, p⟩ := g
  obtain rfl := one_class rfl h
  refine of_raw h rfl ?_
  show decodeDrain _ = _
  unfold decodeDrain
  rw [show (fld _ 27 5).toNat = 2 by simp only [fld, shape58]; rfl]
  dsimp only
  simp only [qGuardOf, fld, bit, shape58, flag]
  rfl

theorem fdhalt g f : Statement (.fdhalt g f) := by
  intro k h
  obtain ⟨n, p⟩ := g
  obtain rfl := one_class rfl h
  refine of_raw h rfl ?_
  show decodeDrain _ = _
  unfold decodeDrain
  rw [show (fld _ 27 5).toNat = 3 by simp only [fld, shape58]; rfl]
  dsimp only
  simp only [qGuardOf, fld, bit, shape58, flag]
  rfl

theorem fdchain g s f : Statement (.fdchain g s f) := by
  intro k h
  obtain ⟨n, p⟩ := g
  obtain rfl := one_class rfl h
  refine of_raw h rfl ?_
  show decodeDrain _ = _
  unfold decodeDrain
  rw [show (fld _ 27 5).toNat = 4 by simp only [fld, shape56]; rfl]
  dsimp only
  simp only [qGuardOf, fld, bit, shape56, flag]
  rfl

theorem fdflush g s f : Statement (.fdflush g s f) := by
  intro k h
  obtain ⟨n, p⟩ := g
  obtain rfl := one_class rfl h
  refine of_raw h rfl ?_
  show decodeDrain _ = _
  unfold decodeDrain
  rw [show (fld _ 27 5).toNat = 5 by simp only [fld, shape56]; rfl]
  dsimp only
  simp only [qGuardOf, fld, bit, shape56, flag]
  rfl

theorem nopEngine g : Statement (.nopEngine g) := by
  intro k h
  obtain ⟨n, p⟩ := g
  obtain rfl := one_class rfl h
  refine of_raw h rfl ?_
  show decodeEngine _ = _
  unfold decodeEngine
  rw [show (fld _ 27 5).toNat = 0 by simp only [fld, shape0]; rfl]
  dsimp only
  simp only [qGuardOf, fld, bit, shape0, flag]
  rfl

theorem cpy g d r t c : Statement (.cpy g d r t c) := by
  intro k h
  obtain ⟨n, p⟩ := g
  obtain rfl := one_class rfl h
  refine of_raw h rfl ?_
  show decodeEngine _ = _
  unfold decodeEngine
  rw [show (fld _ 27 5).toNat = 1 by simp only [fld, shape62]; rfl]
  dsimp only
  simp only [qGuardOf, fld, bit, shape62, flag]
  rfl

theorem cpya g d r t c : Statement (.cpya g d r t c) := by
  intro k h
  obtain ⟨n, p⟩ := g
  obtain rfl := one_class rfl h
  refine of_raw h rfl ?_
  show decodeEngine _ = _
  unfold decodeEngine
  rw [show (fld _ 27 5).toNat = 2 by simp only [fld, shape62]; rfl]
  dsimp only
  simp only [qGuardOf, fld, bit, shape62, flag]
  rfl

theorem gath g d r t u c : Statement (.gath g d r t u c) := by
  intro k h
  obtain ⟨n, p⟩ := g
  obtain rfl := one_class rfl h
  refine of_raw h rfl ?_
  show decodeEngine _ = _
  unfold decodeEngine
  rw [show (fld _ 27 5).toNat = 3 by simp only [fld, shape63]; rfl]
  dsimp only
  simp only [qGuardOf, fld, bit, shape63, flag]
  rfl

theorem scat g d r t u c : Statement (.scat g d r t u c) := by
  intro k h
  obtain ⟨n, p⟩ := g
  obtain rfl := one_class rfl h
  refine of_raw h rfl ?_
  show decodeEngine _ = _
  unfold decodeEngine
  rw [show (fld _ 27 5).toNat = 4 by simp only [fld, shape63]; rfl]
  dsimp only
  simp only [qGuardOf, fld, bit, shape63, flag]
  rfl

theorem red g d r t c : Statement (.red g d r t c) := by
  intro k h
  obtain ⟨n, p⟩ := g
  obtain rfl := one_class rfl h
  refine of_raw h rfl ?_
  show decodeEngine _ = _
  unfold decodeEngine
  rw [show (fld _ 27 5).toNat = 5 by simp only [fld, shape62]; rfl]
  dsimp only
  simp only [qGuardOf, fld, bit, shape62, flag]
  rfl

theorem ared g d r t c : Statement (.ared g d r t c) := by
  intro k h
  obtain ⟨n, p⟩ := g
  obtain rfl := one_class rfl h
  refine of_raw h rfl ?_
  show decodeEngine _ = _
  unfold decodeEngine
  rw [show (fld _ 27 5).toNat = 6 by simp only [fld, shape62]; rfl]
  dsimp only
  simp only [qGuardOf, fld, bit, shape62, flag]
  rfl

theorem bcst g d r t c : Statement (.bcst g d r t c) := by
  intro k h
  obtain ⟨n, p⟩ := g
  obtain rfl := one_class rfl h
  refine of_raw h rfl ?_
  show decodeEngine _ = _
  unfold decodeEngine
  rw [show (fld _ 27 5).toNat = 7 by simp only [fld, shape62]; rfl]
  dsimp only
  simp only [qGuardOf, fld, bit, shape62, flag]
  rfl

theorem fill g d r t c : Statement (.fill g d r t c) := by
  intro k h
  obtain ⟨n, p⟩ := g
  obtain rfl := one_class rfl h
  refine of_raw h rfl ?_
  show decodeEngine _ = _
  unfold decodeEngine
  rw [show (fld _ 27 5).toNat = 8 by simp only [fld, shape62]; rfl]
  dsimp only
  simp only [qGuardOf, fld, bit, shape62, flag]
  rfl

theorem ccan g t r c : Statement (.ccan g t r c) := by
  intro k h
  obtain ⟨n, p⟩ := g
  obtain rfl := one_class rfl h
  refine of_raw h rfl ?_
  show decodeEngine _ = _
  unfold decodeEngine
  rw [show (fld _ 27 5).toNat = 9 by simp only [fld, shape64]; rfl]
  dsimp only
  simp only [qGuardOf, fld, bit, shape64, flag]
  rfl

theorem ckpt g d r t c : Statement (.ckpt g d r t c) := by
  intro k h
  obtain ⟨n, p⟩ := g
  obtain rfl := one_class rfl h
  refine of_raw h rfl ?_
  show decodeEngine _ = _
  unfold decodeEngine
  rw [show (fld _ 27 5).toNat = 10 by simp only [fld, shape62]; rfl]
  dsimp only
  simp only [qGuardOf, fld, bit, shape62, flag]
  rfl

theorem sortb g d r : Statement (.sortb g d r) := by
  intro k h
  obtain ⟨n, p⟩ := g
  obtain rfl := one_class rfl h
  refine of_raw h rfl ?_
  show decodeEngine _ = _
  unfold decodeEngine
  rw [show (fld _ 27 5).toNat = 11 by simp only [fld, shape17]; rfl]
  dsimp only
  simp only [qGuardOf, fld, bit, shape17, flag]
  rfl

theorem sortl g d r : Statement (.sortl g d r) := by
  intro k h
  obtain ⟨n, p⟩ := g
  obtain rfl := one_class rfl h
  refine of_raw h rfl ?_
  show decodeEngine _ = _
  unfold decodeEngine
  rw [show (fld _ 27 5).toNat = 12 by simp only [fld, shape17]; rfl]
  dsimp only
  simp only [qGuardOf, fld, bit, shape17, flag]
  rfl

theorem sortm g d r : Statement (.sortm g d r) := by
  intro k h
  obtain ⟨n, p⟩ := g
  obtain rfl := one_class rfl h
  refine of_raw h rfl ?_
  show decodeEngine _ = _
  unfold decodeEngine
  rw [show (fld _ 27 5).toNat = 13 by simp only [fld, shape17]; rfl]
  dsimp only
  simp only [qGuardOf, fld, bit, shape17, flag]
  rfl

theorem sortd g d r : Statement (.sortd g d r) := by
  intro k h
  obtain ⟨n, p⟩ := g
  obtain rfl := one_class rfl h
  refine of_raw h rfl ?_
  show decodeEngine _ = _
  unfold decodeEngine
  rw [show (fld _ 27 5).toNat = 14 by simp only [fld, shape17]; rfl]
  dsimp only
  simp only [qGuardOf, fld, bit, shape17, flag]
  rfl

theorem post g a h r : Statement (.post g a h r) := by
  intro k h
  obtain ⟨n, p⟩ := g
  obtain rfl := one_class rfl h
  refine of_raw h rfl ?_
  show decodeEngine _ = _
  unfold decodeEngine
  rw [show (fld _ 27 5).toNat = 15 by simp only [fld, shape65]; rfl]
  dsimp only
  simp only [qGuardOf, fld, bit, shape65, flag]
  rfl

theorem precv g d t h q : Statement (.precv g d t h q) := by
  intro k h
  obtain ⟨n, p⟩ := g
  obtain rfl := one_class rfl h
  refine of_raw h rfl ?_
  show decodeEngine _ = _
  unfold decodeEngine
  rw [show (fld _ 27 5).toNat = 16 by simp only [fld, shape62]; rfl]
  dsimp only
  simp only [qGuardOf, fld, bit, shape62, flag]
  rfl

theorem loadDataReturn i : Statement (.loadDataReturn i) := no_class _ rfl

theorem resultLanding m c : Statement (.resultLanding m c) := no_class _ rfl

theorem preempt die : Statement (.preempt die) := no_class _ rfl

theorem taskRestore die : Statement (.taskRestore die) := no_class _ rfl

theorem machineCheck die : Statement (.machineCheck die) := no_class _ rfl

theorem taskAccept die : Statement (.taskAccept die) := no_class _ rfl

theorem taskDispatch die : Statement (.taskDispatch die) := no_class _ rfl

theorem priorityAging die : Statement (.priorityAging die) := no_class _ rfl

theorem benchReserve die : Statement (.benchReserve die) := no_class _ rfl

theorem taskPull die : Statement (.taskPull die) := no_class _ rfl

theorem taskRerun die : Statement (.taskRerun die) := no_class _ rfl

theorem dieTakeover die heir : Statement (.dieTakeover die heir) := no_class _ rfl

theorem barGenerationComplete i : Statement (.barGenerationComplete i) := no_class _ rfl

theorem engineCommandStart i : Statement (.engineCommandStart i) := no_class _ rfl

theorem engineCommandEnd i : Statement (.engineCommandEnd i) := no_class _ rfl

theorem sortlTimeout i : Statement (.sortlTimeout i) := no_class _ rfl

theorem collectiveGroupTimeout i : Statement (.collectiveGroupTimeout i) := no_class _ rfl

theorem collectiveChunkReceive i chunk : Statement (.collectiveChunkReceive i chunk) := no_class _ rfl

theorem injectElementFetch a face lane : Statement (.injectElementFetch a face lane) := no_class _ rfl

theorem drainElementWrite a face lane : Statement (.drainElementWrite a face lane) := no_class _ rfl

theorem fdflushReceipt a face : Statement (.fdflushReceipt a face) := no_class _ rfl

theorem postPacketHop i : Statement (.postPacketHop i) := no_class _ rfl

theorem postInboxEnter i : Statement (.postInboxEnter i) := no_class _ rfl

theorem memoryRequestServe channel : Statement (.memoryRequestServe channel) := no_class _ rfl

theorem hbmScrub stack : Statement (.hbmScrub stack) := no_class _ rfl

theorem carrierFlitReceive port good : Statement (.carrierFlitReceive port good) := no_class _ rfl

theorem droopAlarm die quad : Statement (.droopAlarm die quad) := no_class _ rfl

theorem droopStretchEnd die quad : Statement (.droopStretchEnd die quad) := no_class _ rfl

theorem droopHoldEnd die quad : Statement (.droopHoldEnd die quad) := no_class _ rfl

theorem droopRearm die quad : Statement (.droopRearm die quad) := no_class _ rfl

theorem lbwidxWrite ctx box v : Statement (.lbwidxWrite ctx box v) := no_class _ rfl

theorem hostRegisterWrite off v : Statement (.hostRegisterWrite off v) := no_class _ rfl

theorem ctxisrWrite ctx v : Statement (.ctxisrWrite ctx v) := no_class _ rfl

theorem hbarWrite ctx : Statement (.hbarWrite ctx) := no_class _ rfl

theorem hcopyWrite v : Statement (.hcopyWrite v) := no_class _ rfl

theorem hostApertureRead p n : Statement (.hostApertureRead p n) := no_class _ rfl

theorem hostApertureWrite p bytes : Statement (.hostApertureWrite p bytes) := no_class _ rfl

theorem remoteResponderTimeout i : Statement (.remoteResponderTimeout i) := no_class _ rfl

theorem unitLoss kind index : Statement (.unitLoss kind index) := no_class _ rfl

theorem bundleIssue : Statement (.bundleIssue) := no_class _ rfl

theorem blankAdvance : Statement (.blankAdvance) := no_class _ rfl

theorem drainAdvance : Statement (.drainAdvance) := no_class _ rfl

theorem stallResume : Statement (.stallResume) := no_class _ rfl

theorem stallTimeout : Statement (.stallTimeout) := no_class _ rfl

theorem feTimeout : Statement (.feTimeout) := no_class _ rfl

theorem flagRecordReadable : Statement (.flagRecordReadable) := no_class _ rfl

theorem waitSatisfied : Statement (.waitSatisfied) := no_class _ rfl

theorem waitTimeout : Statement (.waitTimeout) := no_class _ rfl

theorem trapEntry : Statement (.trapEntry) := no_class _ rfl

theorem supervisorFaultTake : Statement (.supervisorFaultTake) := no_class _ rfl

theorem interruptTake : Statement (.interruptTake) := no_class _ rfl

theorem memUeStore : Statement (.memUeStore) := no_class _ rfl

theorem preemptImageWrite : Statement (.preemptImageWrite) := no_class _ rfl

theorem flttmoExpiry : Statement (.flttmoExpiry) := no_class _ rfl

theorem taskEnd : Statement (.taskEnd) := no_class _ rfl

theorem yieldComplete : Statement (.yieldComplete) := no_class _ rfl

theorem descriptorTake : Statement (.descriptorTake) := no_class _ rfl

theorem engineFullTimeout : Statement (.engineFullTimeout) := no_class _ rfl

theorem launchFullTimeout : Statement (.launchFullTimeout) := no_class _ rfl

theorem postcodeAutoSwap : Statement (.postcodeAutoSwap) := no_class _ rfl

theorem powerLoss : Statement (.powerLoss) := no_class _ rfl

theorem moduleReset : Statement (.moduleReset) := no_class _ rfl

theorem ctxCreate : Statement (.ctxCreate) := no_class _ rfl

theorem ctxDestroy : Statement (.ctxDestroy) := no_class _ rfl

theorem keyLoad : Statement (.keyLoad) := no_class _ rfl

theorem keyDestroy : Statement (.keyDestroy) := no_class _ rfl

theorem xlateInv : Statement (.xlateInv) := no_class _ rfl

theorem interrupt : Statement (.interrupt) := no_class _ rfl

theorem faultResume : Statement (.faultResume) := no_class _ rfl

theorem faultFail : Statement (.faultFail) := no_class _ rfl

theorem dspSet : Statement (.dspSet) := no_class _ rfl

theorem tokenRetire : Statement (.tokenRetire) := no_class _ rfl

theorem dlrRead : Statement (.dlrRead) := no_class _ rfl

theorem dlrRelease : Statement (.dlrRelease) := no_class _ rfl

theorem postcodeSwap : Statement (.postcodeSwap) := no_class _ rfl

theorem postcodeMode : Statement (.postcodeMode) := no_class _ rfl

theorem sclass : Statement (.sclass) := no_class _ rfl

theorem drpSet : Statement (.drpSet) := no_class _ rfl

theorem countersRead : Statement (.countersRead) := no_class _ rfl

theorem attest : Statement (.attest) := no_class _ rfl

theorem routeSet : Statement (.routeSet) := no_class _ rfl

theorem moduleSetid : Statement (.moduleSetid) := no_class _ rfl

theorem flashLoad : Statement (.flashLoad) := no_class _ rfl

theorem clawynLinkFailure : Statement (.clawynLinkFailure) := no_class _ rfl

end Sys2Proof.Laws.RoundTrip
end

