-- ==== Sys2Proof/Tests/Slice0.lean ====
section
/-!
SUPPORT. Tests of the definitions, and for every statement with hypotheses states and operands that meet them all. Expected results come from
the specification's own examples and tables, or are worked out from them by hand.
-/

set_option Elab.async false

open Sys2Proof Sys2Proof.Machine

namespace Sys2Proof.Tests

/-! ## Small states -/

/-- The guard q0, and p0. -/
def g0 : QGuard := ⟨false, 0⟩
def p0 : PGuard := ⟨false, 0⟩

/-- A virtual address in the scratchpad of the bench's head, with room for a trap frame. -/
def spad : DWord := 0x7FFFFFFE300400

/-- The sequencer of a task alone on array 0, in the skew shape, with some register values. -/
def run0 : Run :=
  let r := { Run.reset 1 0 [0] 0 0x40 0 0 (benchWord 0 0) with skew := true }
  [(4, spad), (5, 3), (6, 0x8000000000000000), (7, 0xFFFFFFFFFFFFFFFF), (8, 0x200), (9, 0x203), (10,
    0x500000000)].foldl (fun r e => r.setS e.1 e.2) r

/-- A task in the tables of die 0. -/
def task0 : Task :=
  { id := 0, die := 0, ctx := 1, desc := parseDesc (List.replicate 128 0), prio := 1, eff := 1, phase := .running, readyAt := 0, passedAt := none,
    reserved := none, started := true, args := some [], reruns := 0, image := none, frank := [], lastProg := 0, patch := none, fromHost := false,
      slot := none }

/-- The module with that task running, and with the page at virtual address 0 cached in its translation cache: readable, writable, executable and
cached, of the given page kind (R247, R251). -/
def stateOn (kind : Nat) (r : Run) : State :=
  { State.reset with
    ticks := 100, runs := [(0, r)], arrays := [(0, ArrayState.reset)], tasks := [task0], nextTask := 1,
    contexts := [newContext 1 3 0 0 256 0 0], tlb := [⟨.seq 0, 1, 0, false, BitVec.ofNat 64 (0x4004F + 16 * kind)⟩] }

/-- The same with an ordinary page. -/
def state0 : State := stateOn 0 run0

/-- `state0` with another sequencer. -/
def withRun (f : Run → Run) : State := stateOn 0 (f run0)

/-- The current bench may issue the instruction now. -/
def isReady (s : State) (i : Instr) : Bool :=
  match s.run? s.cur with
  | none => false
  | some r =>
    r.head == s.cur && r.mayIssue && r.waitEnd.isNone && r.precvEnd.isNone && wellFormed (ownClass i) i && conflicts (alone i) == 0
      && !r.foldRecords.mismatch (alone i)
      && !r.foldRecords.endOfOuter
      && (r.foldRecords.reads (alone i)).all (fun x => (r.foldRecords.sreg x.1).full && (r.foldRecords.sreg x.1).poison.isNone)

/-- The instruction is ready, and its bundle enters the wave once its slots have left the sequencer as `x` and the rest as `u`. -/
def meets (s : State) (i : Instr) (x : Run → Run := id) (u : State → State := id) : Bool :=
  isReady s i && match s.run? s.cur with
  | none => false
  | some r => ((u s).leaving (x r.foldRecords)).moves r.foldRecords i

/-- `isReady` is `State.ready`. -/
theorem ready_of_isReady (s : State) (i : Instr) (h : isReady s i = true) : ∃ r, s.ready r i := by
  unfold isReady at h
  split at h
  · simp at h
  · rename_i r hr
    simp only [Bool.and_eq_true, beq_iff_eq, Bool.not_eq_true', List.all_eq_true, Option.isNone_iff_eq_none] at h
    obtain ⟨⟨⟨⟨⟨⟨⟨⟨h1, h2⟩, h8⟩, h9⟩, h3⟩, h4⟩, h5⟩, h6⟩, h7⟩ := h
    exact ⟨r, hr, h1, h2, h8, h9, h3, h4, h5, h6, h7⟩

/-- `meets` gives both premises of `Completes`. -/
theorem premises_of_meets (s : State) (i : Instr) (x : Run → Run) (u : State → State) (h : meets s i x u = true) :
    ∃ r, s.ready r i ∧ ((u s).leaving (x r.foldRecords)).moves r.foldRecords i = true := by
  unfold meets at h
  rw [Bool.and_eq_true] at h
  obtain ⟨r, hr⟩ := ready_of_isReady s i h.1
  refine ⟨r, hr, ?_⟩
  have := h.2
  rw [hr.1] at this
  exact this

/-- Every instruction of a list is ready and enters, with what it writes to the sequencer. -/
def allMeet (s : State) (l : List (Instr × (Run → Run))) : Bool := l.all (fun p => meets s p.1 p.2)

/-- Where an address of the current bench lies. -/
def accessOf (s : State) (va : DWord) (need : Need) : Option Access :=
  match s.run? s.cur with
  | none => none
  | some r => match (s.translate (.seq r.head) r.die r.ctx r.arrays (va.toNat % 2 ^ 55) need).1 with | .ok a => some a | .error _ => none

/-! ## Witnesses: the scalar slot and the sequencer's registers -/

/-- Two sources, their destination and another one. -/
def scalarOps : List (Instr × (Run → Run)) :=
  let w (v : DWord) (r : Run) : Run := r.setS 11 v
  [(.add g0 11 7 6 false false, w 0x7FFFFFFFFFFFFFFF), (.sub g0 11 5 6 true true, w 0x8000000000000003), (.addi g0 5 0xFFFF, fun r => r.setS 5 2),
   (.mul g0 11 7 5 false false, w (-3)), (.mulh g0 11 7 5 false false, w (-1)), (.mulhu g0 11 7 5 false false, w 2),
   (.and g0 11 7 5 false false, w 3), (.or g0 11 6 5 false false, w 0x8000000000000003), (.xor g0 11 7 5 false false, w (-4)),
   (.andi g0 5 1, fun r => r.setS 5 1), (.ori g0 5 4, fun r => r.setS 5 7), (.xori g0 5 1, fun r => r.setS 5 2),
   (.shl g0 11 5 5 false false, w 24), (.shr g0 11 6 5 false false, w 0x1000000000000000), (.sra g0 11 6 5 false false, w 0xF000000000000000),
   (.shli g0 5 63, fun r => r.setS 5 0x8000000000000000), (.shri g0 5 1, fun r => r.setS 5 1), (.srai g0 6 63, fun r => r.setS 6 (-1)),
   (.min g0 11 5 6 false false, w 0x8000000000000000), (.max g0 11 5 6 false false, w 3), (.minu g0 11 5 6 false false, w 3),
   (.maxu g0 11 5 6 false false, w 0x8000000000000000), (.li g0 11 0x8000, w 0xFFFFFFFFFFFF8000), (.lui g0 5 0x1234, fun r => r.setS 5 0x31234),
   (.movScalar g0 0 5 false, id), (.clz g0 11 5 false, w 62), (.popc g0 11 7 false, w 64), (.lea g0 11 5 5 3 false false, w 99)]

theorem witness_scalarArithmetic : run0.foldRecords.guard g0 = true ∧ allMeet state0 scalarOps = true := by decide +kernel

theorem witness_divisionsComparesAndSelects :
    allMeet state0 [(.div g0 11 6 7 false false, fun r => r.setS 11 0x8000000000000000), (.divu g0 11 7 5 false false,
      fun r => r.setS 11 0x5555555555555555),
      (.rem g0 11 7 5 false false, fun r => r.setS 11 (-1)), (.remu g0 11 7 5 false false, fun r => r.setS 11 0),
      (.cmp g0 4 0 5 7 false false, id), (.cmp g0 7 3 5 6 false false, fun r => r.setQ 3 true), (.cmpi g0 2 1 6 0x200, fun r => r.setQ 1 true),
      (.selScalar ⟨true, 0⟩ 11 5 7 false false, fun r => r.setS 11 (-1))] = true
    ∧ isReady state0 (.div g0 11 6 0 false false) = true ∧ run0.foldRecords.x 0 = 0 ∧ run0.foldRecords.x 7 ≠ 0 := by decide +kernel

theorem witness_nullified :
    allMeet (withRun (fun r => { r with s := vset r.s 20 ⟨0, false, none⟩ }))
      [(.nopControl ⟨true, 7⟩, id), (.nopScalar g0, id), (.nopInject g0, id), (.nopDrain g0, id), (.nopEngine g0, id), (.jmpi ⟨true, 0⟩ 5, id),
       (.div ⟨true, 0⟩ 1 2 0 false false, id), (.ficfg ⟨false, 1⟩ 7 true, id), (.fdgo ⟨false, 7⟩ false, id), (.cpy ⟨true, 0⟩ 5 5 5 0, id)] = true
    ∧ run0.foldRecords.guard ⟨true, 0⟩ = false ∧ run0.foldRecords.guard ⟨false, 7⟩ = false := by decide +kernel

theorem witness_scalarRegisters :
    run0.sPhys 63 < 64 ∧ { run0 with rs := 16, sbase := 1 }.sPhys 63 = 48 ∧ { run0 with rs := 16, sbase := 1 }.sPhys 48 = 49
    ∧ { run0 with rs := 16 }.sPhys 47 = 47 := by decide +kernel

def sysNumbers : List Nat :=
  [0, 1, 2, 3, 4, 5, 6, 7, 8, 0x10, 0x11, 0x20, 0x2F, 0x30, 0x40, 0x4F, 0x50, 0x60, 0x61, 0x62, 0x63, 0x100, 0x101, 0x102, 0x103, 0x104, 0x105,
    0x106,
   0x107, 0x108, 0x109, 0x10A]

theorem witness_systemRegisterReads : sysNumbers.all (fun n => isReady state0 (.sysrd g0 11 (BitVec.ofNat 12 n))) = true
    ∧ meets state0 (.sysrd g0 11 0x060) (fun r => r.setS 11 690) = true ∧ run0.arrays.length = 1 := by decide +kernel

theorem witness_systemRegisterWrites :
    [1, 2, 3, 4, 0x100, 0x101, 0x103, 0x108].all (fun n => isReady state0 (.syswr g0 5 (BitVec.ofNat 12 n))) = true
    ∧ allMeet state0 [(.syswr g0 5 2, fun r => { r with rndseed := 3 }), (.syswr g0 5 5, fun r => { r with lscope := 3 }), (.syswr g0 5 6, fun r => { r with barn := 3 }),
      (.syswr g0 5 0x30, fun r => { r with csp := 3 }), (.syswr g0 6 0x2F, fun r => { r with cstk := vset r.cstk 15 0x8000000000000000 })] = true
    ∧ [(7, 5), (0, 6), (7, 0x30), (7, 0x20)].all (fun p => isReady state0 (.syswr g0 p.1 p.2)) = true
    ∧ (run0.x 7).toNat % 32 > 16 ∧ ((run0.x 7).setWidth 3 : BitVec 3).toNat > 5 ∧ ((run0.x 7).extractLsb' 61 3).toNat > 4
    ∧ ((run0.x 6).extractLsb' 61 3).toNat = 4 := by decide +kernel

/-! ## Witnesses: memory -/

/-- The pages of the other kinds: strictly ordered, and unordered and not cached. -/
def stateUo : State := { stateOn 2 run0 with tlb := [⟨.seq 0, 1, 0, false, BitVec.ofNat 64 0x4002F⟩] }

/-- A release of scope .pkg that waits for its synchronising write. -/
def waiting (r : Run) : Run := { r with rel := some 3, relFrank := [77], wrote := [(0x1000, 0x3F)] }

/-- The granule at virtual address 0x200 carries an uncorrectable error. -/
def statePoison : State := { state0 with poison := [(0x40000 + 0x200) / 32] }

/-- The premises of a load's statement: the address is aligned and translates, and the load completes with what it read. -/
def loadMeets (s : State) (i : Instr) (d : BitVec 6) (va size : Nat) (last : Bool) : Bool :=
  match s.run? s.cur with
  | none => false
  | some r =>
    let old := r.foldRecords
    match s.translate (.seq old.head) old.die old.ctx old.arrays va .read with
    | (.error _, _) => false
    | (.ok acc, s1) =>
      let out := s1.read old.agent acc size
      let u := match acc.line? with | some l => if last && acc.cached then out.st.discardLine old.head l else out.st | none => out.st
      va % size == 0 && isReady s i && (u.leaving (old.loadTo d acc (BitVec.ofNat 64 (leNat out.bytes)) out.poison out.near)).moves old i

theorem witness_loads :
    loadMeets state0 (.ld g0 11 4 0xFF 3) 11 (spad.toNat - 8) 8 false = true ∧ loadMeets state0 (.ld g0 11 8 1 2) 11 0x204 4 false = true
    ∧ loadMeets stateUo (.ld g0 0 9 0 0) 0 0x203 1 false = true ∧ loadMeets statePoison (.ld g0 11 8 0 1) 11 0x200 2 false = true
    ∧ loadMeets state0 (.ldlast g0 11 8 0 3) 11 0x200 8 true = true ∧ loadMeets stateUo (.ldlast g0 11 8 0 3) 11 0x200 8 true = true
    ∧ loadMeets state0 (.ldlast g0 11 4 0 3) 11 spad.toNat 8 true = true
    ∧ run0.sPhys 11 < 64 ∧ run0.sPhys 12 ≠ run0.sPhys 11 := by decide +kernel

/-- The premises of PREF: the address translates or not, and what it brings. -/
def prefMeets (s : State) (h b : BitVec 6) : Bool :=
  match s.run? s.cur with
  | none => false
  | some r =>
    let old := r.foldRecords
    let t := s.translate (.seq old.head) old.die old.ctx old.arrays ((old.x b).toNat % 2 ^ 55) .read
    let u := match t.1 with
      | .error _ => t.2
      | .ok (.store _ _ _) => t.2
      | .ok (.mem key ord cache enc cmp) =>
        if (Access.mem key ord cache enc cmp).cached = false then t.2
        else if h = 0 then (t.2.withL1 old.head enc (key / 64) 3 (whoSeq old.head)).2
        else if h = 1 then (t.2.withL2 (dieOf old.head) enc (key / 64) 3 (whoSeq old.head)).2 else t.2.podTouch enc (key / 64) 3 (whoSeq old.head)
    isReady s (.pref g0 h b 0 0) && (u.leaving old).moves old (.pref g0 h b 0 0)

theorem witness_prefetches :
    prefMeets state0 0 8 = true ∧ prefMeets state0 1 8 = true ∧ prefMeets state0 2 8 = true ∧ prefMeets stateUo 0 8 = true
    ∧ prefMeets state0 0 4 = true ∧ prefMeets state0 0 10 = true ∧ accessOf state0 0x500000000 .read = none
    ∧ (match accessOf state0 spad .read with | some (.store 0 0x300400 0) => true | _ => false) = true := by decide +kernel

/-- The premises of ST, with or without a release that waits. -/
def storeMeets (s : State) (b : BitVec 6) (z : BitVec 2) : Bool :=
  match s.run? s.cur with
  | none => false
  | some r =>
    let old := r.foldRecords
    let va := (old.x b).toNat % 2 ^ 55
    match s.translate (.seq old.head) old.die old.ctx old.arrays va .write with
    | (.error _, _) => false
    | (.ok acc, s1) =>
      let w := s1.write old.agent acc (leBytes (2 ^ z.toNat) (old.x 7).toNat)
      let x := match w.2, acc.line? with
        | some _, _ => { old with ueStore := old.ueStore ++ [va / 32 * 32] }
        | none, some l => { old with wrote := wroteAdd old.wrote l }
        | none, none => old
      let u := if w.2.isSome then w.1.mark acc else w.1.own old.head acc ⟨whoSeq old.head, old.task, va / 64 * 64⟩
      let p := match old.rel with
        | some sc => if acc.syncs = false then (x, u)
          else ({ x with rel := none, relFrank := [] },
            (match acc.line? with | some l => u.cleanBelow old.head sc l | none => u).attach acc.place old.relFrank)
        | none => (x, u)
      va % 2 ^ z.toNat == 0 && isReady s (.st g0 7 b 0 z) && (p.2.leaving p.1).moves old (.st g0 7 b 0 z)

theorem witness_stores :
    storeMeets state0 4 3 = true ∧ storeMeets state0 8 2 = true ∧ storeMeets stateUo 9 0 = true ∧ storeMeets statePoison 8 1 = true
    ∧ storeMeets (withRun waiting) 8 3 = true ∧ storeMeets (withRun waiting) 4 3 = true ∧ storeMeets (stateOn 1 (waiting run0)) 8 3 = true
    ∧ storeMeets (stateOn 2 (waiting run0)) 8 3 = true := by decide +kernel

/-- The premises of LDA. -/
def ldaMeets (s : State) (b : BitVec 6) (z : Bool) : Bool :=
  match s.run? s.cur with
  | none => false
  | some r =>
    let old := r.foldRecords
    let size := if z then 3 else 2
    let va := (old.x b).toNat % 2 ^ 55
    let sc := old.lscope.toNat
    let i := Instr.lda g0 11 b 0 z
    match s.translate (.seq old.head) old.die old.ctx old.arrays va .read with
    | (.error _, _) => false
    | (.ok acc, s1) =>
      let out := (match acc.line? with | some l => s1.dropBelow old.head sc l | none => s1).read old.agent acc (2 ^ size)
      let frank := out.st.frankOf acc.place
      let x := { old with wrote := frank.foldl wroteAdd old.wrote }.loadTo 11 acc (BitVec.ofNat 64 (leNat out.bytes)) out.poison out.near
      va % 2 ^ size == 0 && isReady s i && ((out.st.acquireLines old.head sc frank).leaving x).moves old i

/-- The premises of STL. -/
def stlMeets (s : State) (b : BitVec 6) (z : Bool) : Bool :=
  match s.run? s.cur with
  | none => false
  | some r =>
    let old := r.foldRecords
    let size := if z then 3 else 2
    let va := (old.x b).toNat % 2 ^ 55
    let i := Instr.stl g0 7 b 0 z
    match s.translate (.seq old.head) old.die old.ctx old.arrays va .write with
    | (.error _, _) => false
    | (.ok acc, s1) =>
      let syncs := acc.syncs
      let sc := if syncs then max old.lscope.toNat (old.rel.getD 0) else old.lscope.toNat
      let lines := wroteAt old.wrote sc
      let frank := setUnion lines old.relFrank
      let w := ((s1.releaseLines old.head sc lines).forkLines old.head old.arrays sc frank).write old.agent acc (leBytes (2 ^ size) (old.x 7).toNat)
      let x := { old with
        wrote := wroteClear old.wrote sc, rel := if syncs then none else old.rel, relFrank := if syncs then [] else old.relFrank }
      let y := match w.2, acc.line? with
        | some _, _ => { x with ueStore := old.ueStore ++ [va / 32 * 32] }
        | none, some l => { x with wrote := wroteAdd x.wrote l }
        | none, none => x
      let u := if w.2.isSome then w.1.mark acc else w.1.own old.head acc ⟨whoSeq old.head, old.task, va / 64 * 64⟩
      let u1 := match acc.line? with | some l => u.cleanBelow old.head sc l | none => u
      let v := if syncs then u1.attach acc.place frank else u1
      va % 2 ^ size == 0 && isReady s i && (v.leaving y).moves old i

theorem witness_scopedAccesses :
    ldaMeets state0 4 true = true ∧ ldaMeets { state0 with franks := [(0x40200 / 64, [5, 9])] } 8 true = true ∧ ldaMeets (stateOn 2 run0) 8 false = true
    ∧ stlMeets state0 4 true = true ∧ stlMeets (withRun waiting) 8 true = true ∧ stlMeets (stateOn 2 (waiting run0)) 8 false = true := by
  decide +kernel

/-- The premises of the atomics. -/
def atomicsMeet (s : State) (a : BitVec 6) (w : Bool) : Bool :=
  match s.run? s.cur with
  | none => false
  | some r =>
    let old := r.foldRecords
    let n := if w then 8 else 4
    let va := (old.x a).toNat % 2 ^ 55
    match s.translate (.seq old.head) old.die old.ctx old.arrays va .both with
    | (.error _, _) => false
    | (.ok acc, s1) =>
      let point := match acc with | .store e o k => Access.store e o k | .mem key _ _ enc cmp => .mem key 1 false enc cmp
      let s2 := match acc with | .store _ _ _ => s1 | .mem key _ _ _ _ => s1.dropBelow old.head 4 (key / 64)
      let out := s2.read old.agent point n
      let u := if out.poison.isSome then out.st else (out.st.write old.agent point (leBytes n (old.x 5).toNat)).1
      let z := if out.poison.isSome then old else match acc.line? with | some l => { old with wrote := wroteAdd old.wrote l } | none => old
      let p := match old.rel with
        | some sc => if acc.syncs = false ∨ out.poison.isSome = true then (z, u)
          else ({ z with rel := none, relFrank := [] },
            (match acc.line? with | some l => u.cleanBelow old.head sc l | none => u).attach acc.place old.relFrank)
        | none => (z, u)
      va % n == 0
        && (p.2.leaving (p.1.loadTo 11 acc (BitVec.ofNat 64 (leNat out.bytes)) out.poison out.near)).moves old (.aswap g0 11 a 5 w false false)
        && [Instr.aadd g0 11 a 5 w false false, .amin g0 11 a 5 w false false, .amax g0 11 a 5 w false false, .aand g0 11 a 5 w false false,
          .aor g0 11 a 5 w false false, .axor g0 11 a 5 w false false, .aswap g0 11 a 5 w false false, .acas g0 11 a 5 w false false,
          .afadd g0 11 a 5 w false false].all (isReady s)

theorem witness_atomics :
    atomicsMeet state0 4 true = true ∧ atomicsMeet state0 8 false = true ∧ atomicsMeet (stateOn 2 (waiting run0)) 8 true = true
    ∧ atomicsMeet (withRun waiting) 8 true = true ∧ atomicsMeet statePoison 8 true = true := by decide +kernel

/-- s9 is a multiple of no access size above 1, and s10 holds an address that nothing maps. -/
theorem witness_scalarAccessFaults :
    [Instr.ld g0 11 9 0 3, .st g0 11 9 0 1, .ldlast g0 11 9 0 2, .lda g0 11 9 0 true, .stl g0 11 9 0 false, .aadd g0 11 9 9 true false false,
      .aswap g0 11 9 9 false false false, .ld g0 11 10 0 0, .st g0 11 10 0 3, .ldlast g0 11 10 0 2, .lda g0 11 10 0 true, .stl g0 11 10 0 true,
      .aadd g0 11 10 10 true false false, .aswap g0 11 10 10 false false false].all (isReady state0) = true
    ∧ (run0.x 9).toNat % 2 ≠ 0 ∧ (run0.x 10).toNat % 8 = 0
    ∧ accessOf state0 (run0.x 10) .write = none ∧ accessOf state0 (run0.x 10) .both = none := by decide +kernel

/-! ## Witnesses: selectors, configuration and control flow -/

theorem witness_selectors :
    allMeet state0 [(.mset 0 0 7 1, fun r => r.setMask 1 0xFFFFFFFF), (.mrange 0 0 0 31 2, fun r => r.setMask 2 0xFFFFFFFF),
      (.mrange 0 0 5 4 2, fun r => r.setMask 2 0), (.mop 0 0 1 2 3 4, fun r => r.setMask 4 0), (.mop 0 0 1 0 7 4, fun r => r.setMask 4 0xFFFFFFFF),
      (.mflag 0 0 3 4, fun r => r.setMask 4 0xFFFFFFFF), (.selSelector 1 2 5 3 0xFF, id), (.tscale 0 0 5 3, id), (.nopSelector, id)] = true := by
  decide +kernel

/-- A bundle of two advances stands in the wave. -/
def flying (r : Run) : Run := { r with flights := [{ (r.flight (alone (.nopCell p0)) 0 0) with adv := 2 }] }

/-- One loop level is open from 0x40 to 0x80, and the bundle at PC is its first. -/
def looping (r : Run) : Run := { r with depth := 1, levels := vset r.levels 0 ⟨true, 2, 0, 2, 4, 3, 5⟩ }

theorem witness_configuration :
    meets state0 (.rotcfg g0 3 2) (fun r => { r with rg := 24, rs := 16, sbase := 0 })
      (fun s => s.mapCells run0 (fun _ _ c => { c with gbase := 0, pbase := 0 })) = true
    ∧ isReady (withRun looping) (.rotcfg g0 0 0) = true ∧ isReady (withRun flying) (.rotcfg g0 1 1) = true ∧ (flying run0).flights ≠ []
    ∧ allMeet state0 [(.wave g0 false, fun r => { r with skew := false, blanks := 31 }), (.wave g0 true, fun r => { r with skew := true })] = true
    ∧ fmtValid (run0.x 0).toNat = true ∧ fmtValid ((run0.x 7).setWidth 32) = false
    ∧ meets state0 (.fmtset g0 0) (fun r => { r with fmtPend := r.fmtPend ++ [(4, 0)] }) = true ∧ isReady state0 (.fmtset g0 7) = true
    ∧ semValid semEntry0 = true ∧ semValid (run0.x 7) = false ∧ isReady state0 (.semset g0 8 7) = true
    ∧ allMeet (withRun (fun r => r.setS 11 semEntry0)) [(.semset g0 15 11, fun r => { r with semPend := r.semPend ++ [(4, 7, semEntry0)] })] = true := by
  decide +kernel

/-- The premises of a transfer of control. -/
def transfers (s : State) (i : Instr) (target : Nat) (x : Run → Run := id) : Bool :=
  isReady s i && match s.run? s.cur with
  | none => false
  | some r => ({ s.leaving (x r.foldRecords) with jump := some target } : Ctl).moves r.foldRecords i

/-- Sixteen entries on the call stack, or one of depth 0. -/
def full (r : Run) : Run := { r with csp := 16 }
def called (r : Run) : Run := { r with csp := 1, cstk := vset r.cstk 0 0x60 }

theorem witness_branches :
    run0.inBody 0x20 = true ∧ (looping run0).inBody 0x80 = true ∧ (looping run0).inBody 0xA0 = false ∧ (looping run0).atEnd = false
    ∧ meets state0 (.br g0 1 5) = true ∧ transfers state0 (.br g0 0 0xFFFFF) 0x20 = true
    ∧ isReady (withRun looping) (.br g0 3 3) = true
    ∧ transfers (withRun (fun r => r.setS 11 0x8060)) (.jmpi g0 11) 0x8060 = true ∧ isReady state0 (.jmpi g0 5) = true
    ∧ isReady (withRun (fun r => looping (r.setS 11 0xA0))) (.jmpi g0 11) = true := by decide +kernel

theorem witness_calls :
    meets state0 (.call g0 1 5) = true
    ∧ transfers state0 (.call g0 3 1) 0x60 (fun r => { r with cstk := vset r.cstk 0 0x60, csp := 1 }) = true
    ∧ isReady (withRun full) (.call g0 0 1) = true ∧ (full run0).csp = 16 ∧ isReady (withRun looping) (.call g0 0 3) = true
    ∧ transfers (withRun (fun r => r.setS 11 0xFF00000000000080)) (.calli g0 11) 0x80 (fun r => { r with cstk := vset r.cstk 0 0x60, csp := 1 }) = true
    ∧ isReady state0 (.calli g0 5) = true ∧ transfers (withRun called) (.ret g0) 0x60 (fun r => { r with csp := 0 }) = true
    ∧ isReady (withRun (fun r => looping (called r))) (.ret g0) = true ∧ isReady state0 (.ret g0) = true := by decide +kernel

theorem witness_loops :
    transfers state0 (.loops g0 0 2 5 4) 0xE0 = true ∧ isReady (withRun (fun r => { r with depth := 4 })) (.loop g0 5 0 0 1) = true
    ∧ isReady (withRun looping) (.loop g0 5 7 7 3) = true
    ∧ (match run0.inner? with | some _ => false | none => true) = true ∧ (looping run0).inner?.map (·.stop) = some 4
    ∧ (let old := run0.foldRecords
       let level : Level := ⟨true, 2, 0, 3, 4, 3, 5⟩
       let opened : Run := { old with levels := vset old.levels 0 level, depth := 1, exits := vset old.exits 0 none }
       ({ state0.leaving opened with tag := some ⟨.opens, 0, 5⟩ } : Ctl).moves old (.loop g0 5 2 5 2) && isReady state0 (.loop g0 5 2 5 2)) = true
    ∧ isReady (withRun looping) (.loops g0 0 0 0 2) = true
    ∧ (((withRun looping).leaving (looping run0)).backEdge.moves (looping run0) (.loops g0 0 0 0 2)) = true := by decide +kernel

/-- The bundle at PC is the END of the level, with iterations left, in the epilog, or in the last pass. -/
def atEnd (n st : Nat) (r : Run) : Run := { r with pc := 0x80, depth := 1, levels := vset r.levels 0 ⟨true, BitVec.ofNat 32 n, 0, 2, 4, BitVec.ofNat 4 st, 5⟩ }

theorem witness_backEdges :
    [(2, 3), (0, 2), (0, 1)].all (fun p => (atEnd p.1 p.2 run0).foldRecords.atEnd && isReady (withRun (atEnd p.1 p.2)) (.nopControl g0)
      && ((withRun (atEnd p.1 p.2)).leaving (atEnd p.1 p.2 run0).foldRecords).moves (atEnd p.1 p.2 run0).foldRecords (.nopControl g0)) = true
    ∧ (atEnd 0 1 run0).base < (atEnd 0 1 run0).depth := by decide +kernel

theorem witness_breaks :
    isReady state0 (.lbrk g0) = true ∧ isReady state0 (.lbrka g0) = true ∧ meets (withRun looping) (.lbrka g0) = true
    ∧ (let r := { looping run0 with exits := vset run0.exits 0 (some true) }
       let s := stateOn 0 r
       let closed : Run := { r with levels := vset r.levels 0 ⟨false, 2, 0, 2, 4, 3, 5⟩, depth := 0 }
       [Instr.lbrk g0, .lbrka g0].all (fun i => isReady s i
        && ({ s.leaving closed with tag := some ⟨.close, 0, 5⟩, jump := some 0xA0 } : Ctl).moves r i)) = true := by decide +kernel

/-- A flag bundle's record is on its way, and a wait has stood since tick 10. -/
def recorded (r : Run) : Run :=
  { r with records := [⟨0, 50, 50, some Flags.reset, none, 0, false⟩], stall := some (7, 10) }

/-- A receipt at virtual address 0x200: COMPLETE, or not there yet. -/
def withReceipt (state : Nat) (s : State) : State := { s with mem := (receiptBytes state 0 0 0 0).zipIdx.filterMap (fun e => if e.1 = 0 then none else some (0x40200 + e.2, e.1)) }

/-- The premises of a WAITR that is met: its receipt shows a terminal state. -/
def waitrMet (s : State) : Bool :=
  match s.run? s.cur with
  | none => false
  | some r =>
    let old := r.foldRecords
    match s.translate (.seq old.head) old.die old.ctx old.arrays 0x200 .read with
    | (.error _, _) => false
    | (.ok acc, s1) =>
      let s2 := match acc.line? with | some l => s1.dropBelow old.head 5 l | none => s1
      let out := s2.read old.agent acc 16
      let state := leNat (out.bytes.take 1) % 16
      let frank := out.st.frankOf acc.place
      decide (3 ≤ state) && decide (state ≤ 6) && out.poison.isNone && isReady s (.waitr g0 8 7 1)
        && ((out.st.acquireLines old.head 5 frank).leaving ({ old with wrote := frank.foldl wroteAdd old.wrote }.setQ 1 false)).moves old (.waitr g0 8 7 1)

/-- A copy command of the task that is not terminal, and one that is. -/
def copyCmd (done : Bool) : Cmd :=
  { id := 0, die := 0, unit := 0, op := .cpy g0 8 8 0 0, ctx := 1, task := some 0, arrays := [0], array := 0, desc := 0x200, rcpt := 0x200,
    racc := some (.mem 0x40200 0 true none false), tag := 0, words := [0x600, 0x200, 64, 0, 0, 0, 0, 0], started := true, startAt := 90,
      tmo := 5, prog := 0, wrote := false, lines := [],
    frank := [], sealSum := 0, parts := [], next := 0, waitAt := none, members := [], fresh := false, chunks := [], gen := 0, results := [],
      terminal := done, level := some 2 }

theorem witness_waits :
    meets state0 (.waitf g0 5 1) (fun r => r.setQ 1 false) = true ∧ meets (withRun recorded) (.waitf g0 5 1) (fun r => r.setQ 1 true) = true
    ∧ isReady (withRun recorded) (.waitf g0 7 1) = true ∧ (∃ x ∈ (recorded run0).foldRecords.records, x.flags ≠ none)
    ∧ waitrMet (withReceipt 3 state0) = true ∧ waitrMet (withReceipt 6 (stateOn 2 run0)) = true ∧ waitrMet (withReceipt 2 state0) = false
    ∧ isReady state0 (.waitr g0 9 7 1) = true ∧ isReady state0 (.waitr g0 8 7 1) = true
    ∧ isReady { state0 with cmds := [copyCmd false] } (.drain g0 2 7 1) = true
    ∧ (let s := { state0 with cmds := [copyCmd true] }
       let c := (s.leaving run0.foldRecords).joinAll s.cmds
       (c.s.leaving (c.r.setQ 1 false)).moves run0.foldRecords (.drain g0 2 7 1)) = true := by decide +kernel

/-! ## Witnesses: ordering, barriers, tasks and traps -/

/-- The premises of ACQ and ACQ.W at the scope. -/
def acqMeets (s : State) (a : BitVec 6) (sc : BitVec 3) (word : Bool) : Bool :=
  match s.run? s.cur with
  | none => false
  | some r =>
    let old := r.foldRecords
    let va := (old.x a).toNat % 2 ^ 55
    match s.translate (.seq old.head) old.die old.ctx old.arrays va .read with
    | (.error _, _) => false
    | (.ok acc, s1) =>
      let s2 := match acc.line? with | some l => s1.dropBelow old.head sc.toNat l | none => s1
      let out := s2.read old.agent acc 8
      let frank := out.st.frankOf acc.place
      let x := { old with wrote := frank.foldl wroteAdd old.wrote }
      let u := out.st.acquireLines old.head sc.toNat frank
      va % 8 == 0 && isReady s (.acq g0 sc a) && isReady s (.acqW g0 sc a 7 1) && (u.leaving x).moves old (.acq g0 sc a)
        && (if word then leNat out.bytes != 0 && (u.leaving (x.setQ 1 false)).moves old (.acqW g0 sc a 7 1) else leNat out.bytes == 0)

theorem witness_acquires :
    acqMeets (withReceipt 3 { state0 with franks := [(0x40200 / 64, [5, 9])] }) 8 5 true = true ∧ acqMeets state0 8 0 false = true
    ∧ acqMeets state0 4 2 false = true ∧ isReady state0 (.acq g0 2 9) = true ∧ isReady state0 (.acqW g0 2 9 7 1) = true := by decide +kernel

theorem witness_fencesAndReleases :
    isReady (withRun (fun r => r.loadTo 11 (.mem 0x40200 0 true none false) 0 none false)) (.fence g0 2 0) = true
    ∧ [(0, 2), (1, 5), (2, 0)].all (fun p =>
      let s := withRun waiting
      let s1 := if p.1 = 1 then s else (s.releaseLines 0 p.2 [0x1000]).forkLines 0 [0] p.2 [0x1000]
      let u := if p.1 = 2 then s1 else s1.fenceLdBench 0 [0] p.2
      isReady s (.fence g0 (BitVec.ofNat 3 p.2) (BitVec.ofNat 2 p.1))
        && (u.leaving (waiting run0).foldRecords).moves (waiting run0).foldRecords (.fence g0 (BitVec.ofNat 3 p.2) (BitVec.ofNat 2 p.1))) = true
    ∧ [0, 3, 5].all (fun sc =>
      let old := (waiting run0).foldRecords
      let scope := max sc 3
      let lines := wroteAt old.wrote scope
      let frank := setUnion lines old.relFrank
      let u := ((withRun waiting).releaseLines 0 scope lines).forkLines 0 [0] scope frank
      isReady (withRun waiting) (.rel g0 (BitVec.ofNat 3 sc))
        && (u.leaving { old with wrote := wroteClear old.wrote scope, rel := some scope, relFrank := frank }).moves old
          (.rel g0 (BitVec.ofNat 3 sc))) = true := by decide +kernel

/-- A generation at .die with arrivals, this task's own (participant 0) among them or not, or a completed one. -/
def barrier (n : BitVec 32) (parties done : List Nat) : Barrier := ⟨1, 2, barInst 2 0, n, parties.map (fun h => (h, [])), 0, done, []⟩

/-- What the arrival at PC has released, and an arrival with another BAR. -/
def owed : Owed := ⟨0, 0x40, 2, [(0x1000, 0x3F)], some 3, [77]⟩
def owedElsewhere : Owed := ⟨0, 0x80, 2, [], none, []⟩

theorem witness_barriers :
    isReady (withRun flying) (.bar g0 0 7 1) = true
    ∧ (let d := (state0.leaving run0.foldRecords).release 0
       let e := d.2.acquire 0 d.1
       (e.s.leaving (e.r.setQ 1 false)).moves run0.foldRecords (.bar g0 0 7 1) && isReady state0 (.bar g0 0 7 1)) = true
    ∧ ({ state0 with barriers := [barrier 2 [1] []] }).openBar 1 2 0 = some (barrier 2 [1] []) ∧ run0.barn = 1
    ∧ isReady { state0 with barriers := [barrier 2 [1] []] } (.bar g0 2 7 1) = true
    -- the arrival completes the generation of one
    ∧ (let rel := (state0.leaving run0.foldRecords).release 2
       let u := (rel.2.s.quitBar 0).arriveBar 1 2 0 0 1 rel.1
       match u.doneBar 0 with
       | some b =>
         let d := ((u.leaveBar 0).leaving { rel.2.r with arrived := none }).acquire 2 b.frank
         isReady state0 (.bar g0 2 7 1) && isReady (withRun (fun r => { r with arrived := some owedElsewhere })) (.bar g0 2 7 1) && (d.s.leaving (d.r.setQ 1 false)).moves run0.foldRecords (.bar g0 2 7 1)
       | none => false) = true
    -- it waits for the second, and times out
    ∧ (let r := { run0 with arrived := some owed, barn := 2 }
       let s := { stateOn 0 r with barriers := [barrier 2 [0] []] }
       isReady s (.bar g0 2 7 1) && isReady s (.bar g0 2 0 1) && (s.doneBar 0).isNone
         && ((s.withdrawBar 0).leaving (r.unarrive.setQ 1 true)).moves r (.bar g0 2 0 1)) = true
    ∧ tabSorted owed.wrote = true := by
  decide +kernel

theorem witness_barrierGenerations :
    (barrier 2 [1] []).full = false ∧ state0.doneBar 0 = none
    ∧ (let s := { state0 with barriers := [barrier 2 [0, 1] []] }
       s.barriers[0]? = some (barrier 2 [0, 1] []) ∧ (barrier 2 [0, 1] []).count.toNat ≤ (barrier 2 [0, 1] []).arrived.length)
    ∧ (state0.context 1).isSome = true := by decide +kernel

theorem witness_signals :
    (state0.context 1).isSome = true ∧ isReady { state0 with contexts := [newContext 1 3 0 0 0 0 0] } (.signal g0 7) = true
    ∧ (newContext 1 3 0 0 0 0 0).token 0xFFFFFFFFFFFF = none ∧ { state0 with contexts := [newContext 1 3 0 0 0 0 0] }.tokensFree (newContext 1 3 0 0 0 0 0) = 0
    ∧ (let rel := ((withRun waiting).leaving (waiting run0).foldRecords).release 2
       let u := rel.2.s.ripen 1 ((waiting run0).x 7 |>.setWidth 48) true rel.1
       isReady (withRun waiting) (.signal g0 7)
         && (u.settleAll.leaving rel.2.r).moves (waiting run0).foldRecords (.signal g0 7)) = true := by decide +kernel

/-- A descriptor at virtual address 0x200 whose receipt lies there too: SHAPE 0, and a reserved SHAPE. -/
def withDesc (valid : Bool) (s : State) : State :=
  let bytes := (List.range 128).map (fun k => if k = 0x19 then (2 : Byte) else if k = 0x12 ∧ !valid then 12 else 0)
  { s with
    tlb := s.tlb ++ [⟨.die 0, 1, 0, false, BitVec.ofNat 64 0x4004F⟩]
    mem := bytes.zipIdx.filterMap (fun e => if e.1 = 0 then none else some (0x40200 + e.2, e.1)) }

/-- The premises of LAUNCH at virtual address 0x200: what it would leave where it completes, and whether the descriptor is valid and has room. -/
def launchMeets (s : State) (valid room : Bool) : Bool :=
  match s.run? s.cur with
  | none => false
  | some r =>
    let old := r.foldRecords
    match s.translate (.seq old.head) old.die old.ctx old.arrays 0x200 .read with
    | (.error _, _) => false
    | (.ok acc, s1) =>
      match (s1.leaving old).readBlock acc 2 0 with
      | (.error _, _) => false
      | (.ok bs, c1) =>
        match c1.s.context old.ctx with
        | none => false
        | some x =>
          let d := parseDesc bs
          let die := if d.aff = 1 ∨ d.aff = 2 then d.target / 16 else old.die
          let rel := c1.release (if (d.aff = 1 ∨ d.aff = 2) ∧ d.target / 16 = old.die then 2 else 3)
          let w := rel.2.s.translate (.die die) die x.num [] d.rcpt.toNat .write
          let fits := decide (w.2.entries die < tableSize) && decide (d.outs.length ≤ w.2.tokensFree x) && (w.2.die die).alive
          let t := newTask rel.2.s.nextTask die x d d.prio none rel.1 false
          let f := w.2.taskReceipt t stFailed 0x07 (unitCode die 4 0) 0 0 []
          let u := if descValid bs x.tokcap then ({ w.2 with tasks := w.2.tasks ++ [t], nextTask := w.2.nextTask + 1 }.taskReceipt t stAccepted 0 0 0 0 []).settleAll
            else (f.deadLetter die (f.dlrEntry 0 d.rcpt.toNat (unitCode die 4 0) 1 (16 * die) x.num 0)).refuse x.num die d.rcpt.toNat
          isReady s (.launch g0 8) && (d.rcpt.toNat % 16 == 0) && (match w.1 with | .ok _ => true | .error _ => false)
            && descValid bs x.tokcap == valid && fits == room
            && (!room || (u.leaving rel.2.r).moves old (.launch g0 8))

/-- Without a free entry in the die's table. -/
def noRoom (s : State) : State := { s with tasks := List.replicate 4096 task0 }

theorem witness_launches :
    launchMeets (withDesc true state0) true true = true ∧ launchMeets (withDesc false state0) false true = true
    ∧ launchMeets (noRoom (withDesc true state0)) true false = true ∧ isReady state0 (.launch g0 5) = true
    ∧ (run0.x 5).toNat % 128 ≠ 0
    ∧ (let s := { withDesc true state0 with tlb := [⟨.seq 0, 1, 0, false, BitVec.ofNat 64 0x4004B⟩] }
       isReady s (.launch g0 8) && (match (s.translate (.die 0) 0 1 [] 0x200 .write).1 with | .error _ => true | .ok _ => false)) = true := by
  decide +kernel

theorem witness_ends :
    isReady (withRun flying) (.done g0) = true ∧ isReady (withRun flying) (.yield g0) = true
    ∧ [(Instr.done g0, Phase.ended), (.yield g0, .yielded)].all (fun p =>
      isReady state0 p.1 && ({ state0.leaving run0.foldRecords with ending := some p.2 } : Ctl).moves run0.foldRecords p.1) = true := by decide +kernel

theorem witness_traps : isReady state0 (.trap g0 0xFF) = true ∧ run0.foldRecords.endOfOuter = false := by decide +kernel

/-- The bench has drained for a cause, with a handler and a frame in its scratchpad. -/
def drained (cause : Nat) (r : Run) : Run :=
  { r with phase := .drain (issueFault cause 0), trap := { r.trap with tvec := 0x2000, tfp := spad } }

/-- A handler runs, and what its trap has saved. -/
def savedOf (r : Run) : Saved :=
  { flights := [], kept := [], redo := false, mute := false, fmt := 0, fmtPend := [], semPend := [], flags := Flags.reset, records := [], exits := r.exits, rg := 0,
    rs := 16, sbase := 3, bases := [], skew := true, blanks := 0, tag := none, num := 5, issued := [], vadvs := 0, levels := r.levels, depth := 0,
    docket := none, arrived := none, closing := none, ueStore := [] }
def handling (r : Run) : Run :=
  { r with trap := { r.trap with tvec := 0x2000, tfp := spad, active := true, tpc := 0x60 }, saved := some (savedOf r) }

theorem witness_trapEntry :
    (withRun (drained 0x003)).run? 0 = some (drained 3 run0) ∧ supervised 0x003 = false ∧ ((drained 3 run0).flights = []
      ∧ (drained 3 run0).loads = [])
    ∧ ((withRun (drained 0x003)).frameOff (drained 3 run0)).isSome = true ∧ spad.toNat % 64 = 0
    ∧ (withRun (fun r => { r with phase := .drain (issueFault 3 0) })).frameOff { run0 with phase := .drain (issueFault 3 0) } = none := by decide +kernel

theorem witness_trapReturn :
    isReady state0 (.rft g0) = true ∧ isReady (withRun (fun r => flying (handling r))) (.rft g0) = true
    ∧ isReady (withRun (fun r => looping (handling r))) (.rft g0) = true
    ∧ isReady (withRun handling) (.rft g0) = true ∧ (handling run0).saved = some (savedOf run0) ∧ (savedOf run0).rs ≤ 64
    ∧ ((withRun handling).frameOff (handling run0)).any (fun off => (withRun handling).storePoison 0 off 0x240 == none) = true := by decide +kernel

theorem witness_stops :
    (withRun (fun r => { r with ueStore := [0x200, 0x220], intr := true })).run? 0 = some { run0 with ueStore := [0x200, 0x220], intr := true }
    ∧ (withRun (fun r => { r with intr := true })).run? 0 = some { run0 with intr := true } ∧ run0.phase = .issue ∧ run0.redo = false
    ∧ (handling run0).trap.active = true ∧ (handling run0).phase = .issue := by decide +kernel

theorem witness_supervision :
    (withRun (drained 0x105)).run? 0 = some (drained 0x105 run0) ∧ (withRun (drained 0x104)).run? 0 = some (drained 0x104 run0)
    ∧ ((withRun (drained 0x0A4)).context 1).isSome = true ∧ (drained 0x105 run0).trap.active = false
      ∧ ((withRun (drained 0x105)).die 0).frozen = false
    ∧ (let r := { run0 with phase := .held (issueFault 0x104 0) 3 }
       (stateOn 0 r).run? 0 = some r ∧ (stateOn 0 r).fltTmo.toNat ≤ (stateOn 0 r).ticks - 3
         ∧ (stateOn 0 r).task 0 = some task0) := by decide +kernel

theorem witness_illegalBundles :
    run0.mayIssue = true ∧ wellFormed .control (.br g0 7 0) = false ∧ wellFormed .cellA (.iadd p0 1 61 2) = false
    ∧ wellFormed .cellA (.hadd2 p0 1 2 3) = true ∧ conflicts (alone (.sexpn p0 0 1 30 2 true)) = 4
    ∧ wellFormed .cellA (.sexpn p0 0 1 30 2 true) = true
    ∧ (let i := Instr.smm p0 0 4 0 2 true
       wellFormed (ownClass i) i = true ∧ conflicts (alone i) = 0 ∧ ownClass i = .cellA ∧ tileEntry i = some 4
         ∧ semMismatch run0.fmt (run0.entry 4) false = true) := by decide +kernel

/-! ## Witnesses: cells -/

/-- Cell (0, 0) of array 0: its registers hold valid words but g7, the accumulators are valid, and the first granule of the cell store is marked
in `ue` when asked. -/
def cell0 : Cell :=
  let vals : List (Nat × Word) := [(0, 0x3F800000), (1, 0xC0200000), (2, 5), (3, 0xFFFFFFFD), (4, 0x20), (5, 0x7F800000), (6, 0x21), (8, 0x3000)]
  { Cell.reset with
    g := vals.foldl (fun g e => vset g e.1 ⟨e.2, true⟩) ((Vector.replicate 44 ⟨0, true⟩).set 7 ⟨9, false⟩), p := 3,
    acc := Vector.replicate 4 ⟨Vector.replicate 16 0x40000000, true⟩ }

def stateCells (r : Run) (c : Cell) : State := { stateOn 0 r with arrays := [(0, { ArrayState.reset with cells := [(0, c)] })] }
def stateC : State := stateCells run0 cell0

/-- The premises of `CellsDo`: the instruction enters an empty wave, and a cell that it reaches first meets `when`. -/
def cellMeets (s : State) (i : Instr) (when : LaneIn → Bool) : Bool :=
  meets s i && match s.run? s.cur with
  | none => false
  | some r =>
    let old := r.foldRecords
    let e := s.entersAs old i
    old.flights.isEmpty && old.firstCells.any (fun c => s.runsIn e.1 e.2 c.1 c.2.1 c.2.2 && when (s.cellSees old i c))

/-- The instruction executes with valid inputs. -/
def isLive (i : Instr) (x : LaneIn) : Bool :=
  x.inp.guard (cellGuard i) && !x.readsUe i && (cellSrcs i).all (fun c => (x.inp.word c).v)

/-- Instructions of every lane form. -/
def laneOps : List Instr :=
  [.iadd p0 9 3 2, .isub p0 9 3 2, .imul p0 9 3 2, .imulh p0 9 3 2 true, .iand p0 9 3 2, .ior p0 9 3 2, .ixor p0 9 3 2, .ishl p0 9 3 2,
    .ishr p0 9 3 2,
   .isra p0 9 3 2, .imin p0 9 3 2 false, .imax p0 9 3 2 true, .iaddi p0 2 0x7FFF, .movi p0 9 0x4000, .movhi p0 2 1, .movCell p0 9 3,
   .icmp p0 1 3 2 4, .fcmp p0 1 0 1 2, .pand p0 1 0 1, .por p0 1 0 1, .pxor p0 1 0 1, .pnot p0 1 0, .pmov p0 1 0,
   .fadd p0 9 0 1, .fsub p0 9 0 1, .fmul p0 9 0 1, .ffma p0 2 0 1, .fmin p0 9 0 1, .fmax p0 9 0 1, .fabs p0 9 1, .fneg p0 9 1, .frcp p0 9 0,
     .frsq p0 9 0,
   .fexp2 p0 9 0, .flog2 p0 9 0, .ftanh p0 10 9, .frnd p0 9 1 4, .fcvt p0 9 0 0 0, .fcvt p0 9 0 1 7, .hadd2 p0 9 0 1, .hmul2 p0 9 0 1,
     .hfma2 p0 2 0 1,
   .bfma p0 2 0 1 3, .rand p0 9 2 3]

theorem witness_laneInstructions : laneOps.all (fun i => cellMeets stateC i (isLive i)) = true := by decide +kernel

theorem witness_validityInstructions :
    [Instr.vset p0 7, .vclr p0 2, .vmov p0 9 7, .vsel p0 9 7 2, .isel ⟨true, 0⟩ 9 2 7, .lexit p0,
      .vtest p0 1 7 2 2].all (fun i => cellMeets stateC i (fun x =>
      (x.inp.guard (cellGuard i) || isIsel i) && !x.readsUe i)) = true := by decide +kernel

theorem witness_selection :
    [Instr.iadd ⟨true, 0⟩ 9 3 2, .smm ⟨false, 2⟩ 0 1 0 2 true, .stc ⟨true, 1⟩ 2 4 0, .frcp ⟨true, 0⟩ 9 0].all (fun i =>
      cellMeets stateC i (fun x => !x.inp.guard (cellGuard i) && !isNopCell i && !isIsel i)) = true
    ∧ [Instr.iadd p0 9 7 2, .fcmp p0 1 0 7 7, .movCell p0 9 7, .ldc p0 9 7 0, .comm p0 10 6 1].all (fun i => cellMeets stateC i (fun x =>
      (x.inp.guard (cellGuard i) || isIsel i) && !x.readsUe i && (testedWords i).any (fun l => l.any (fun c => !(x.inp.word c).v)))) = true
    ∧ cellMeets stateC (.nopCell p0) (fun _ => true) = true
    -- a cell that has left the open loop level
    ∧ (let s := stateCells (looping run0) { cell0 with active := 0 }
       let e := s.entersAs (looping run0) (.iadd p0 9 3 2)
       meets s (.iadd p0 9 3 2) && !s.runsIn e.1 e.2 0 0 0) = true ∧ run0.firstCells = [(0, 0, 0)]
    ∧ run0.tag = none ∧ (stateC.cellAt run0 0 0 0).latches = [] := by decide +kernel

/-- What the cell store instructions meet in g4 = 0x20, g6 = 0x21 and g8 = 0x3000. -/
theorem witness_cellStores :
    [Instr.ldc p0 9 4 0x1F8, .ldc2 p0 10 4 1, .ldca p0 9 4 0, .ldc p0 9 6 0, .ldc2 p0 10 6 0, .ldca p0 9 6 0, .ldc p0 9 8 0, .ldc2 p0 10 8 0x1FF,
      .ldca p0 9 8 0,
      .stc p0 2 4 0, .stc2 p0 2 4 0, .stca p0 2 4 0, .comm p0 10 2 3].all (fun i => cellMeets stateC i (isLive i) || isReady stateC i) = true
    ∧ [Instr.ldc p0 9 4 0x1F8, .ldc2 p0 10 4 1, .ldca p0 9 4 0, .stc p0 2 4 0, .stc2 p0 6 4 0, .stca p0 2 4 0, .comm p0 10 2 3, .stc p0 7 4 0,
      .stc p0 2 7 0].all (fun i =>
      cellMeets stateC i (fun x => x.inp.guard p0 && !x.readsUe i)) = true
    ∧ (cell0.getWord 8).val.toNat + 4 > 0x2100 ∧ (cell0.getWord 6).val.toNat % 4 ≠ 0 := by decide +kernel

/-- The premises of `CellsFault`: every cell that the bundle reaches first meets `why`, and no stream withholds the advance. -/
def faultMeets (s : State) (i : Instr) (why : LaneIn → Bool) : Bool :=
  isReady s i && match s.run? s.cur with
  | none => false
  | some r =>
    let old := r.foldRecords
    let e := s.entersAs old i
    old.flights.isEmpty && (match (s.leaving old).enters old i with | .stalled _ => false | _ => true)
      && old.firstCells.any (fun c => s.runsIn e.1 e.2 c.1 c.2.1 c.2.2)
      && old.firstCells.all (fun c => (s.cellAt old c.1 c.2.1 c.2.2).latches.isEmpty
        && (takeFault c.1 c.2.1 c.2.2 [] (s.cellTakes e.1 (benchOffsets old.arrays 0) e.2 c.1 c.2.1 c.2.2 0
            ++ s.cellTakes e.1 (benchOffsets old.arrays 0) e.2 c.1 c.2.1 c.2.2 1)).isNone
        && (!s.runsIn e.1 e.2 c.1 c.2.1 c.2.2 || why (s.cellSees old i c)))

theorem witness_cellStoreFaults :
    [Instr.ldc p0 9 8 0, .ldc2 p0 10 8 0x1FF, .ldca p0 9 8 0, .stc p0 2 8 0, .stc2 p0 2 8 0,
      .stca p0 2 8 0].all (fun i => faultMeets stateC i (fun x =>
      isLive i x && decide ((x.inp.word 8).val.toNat ≥ 0x3000))) = true
    ∧ [Instr.ldc p0 9 6 0, .ldc2 p0 10 6 0, .ldca p0 9 6 0, .stc p0 2 6 0, .stc2 p0 2 6 0,
      .stca p0 2 6 0].all (fun i => faultMeets stateC i (fun x =>
      isLive i x && (x.inp.word 6).val.toNat % 4 == 1)) = true := by decide +kernel

/-- No place of the instruction and no accumulator carries an uncorrectable error. -/
def clean (i : Instr) (x : LaneIn) : Bool := x.inp.guard p0 && !x.readsUe i && x.inp.cell.ue.isEmpty

theorem witness_tileInstructions :
    [Instr.smm p0 0 0 0 2 true, .smms p0 1 0 0 2 false, .sexpn p0 2 0 0 0 true].all (fun i => cellMeets stateC i (fun x =>
      clean i x && (cellSrcs i).all (fun n => (x.inp.word n).v))) = true
    ∧ cellMeets stateC (.smm p0 0 0 6 2 false) (fun x => clean (.smm p0 0 0 6 2 false) x && !(x.inp.word 7).v) = true
    ∧ [Instr.smz p0 3 0, .smadd p0 0 0 1, .smred p0 0 0 1 2, .smcmp p0 0 0 1 5 3, .scmprPair p0 9 true 0, .smrd p0 10 2 7, .smout p0 1 7 false true,
      .smout p0 1 3 true false, .bpack p0 10 3 0 true 3, .smwr p0 6 3 7, .bunpk p0 2 0 false 0].all (fun i => cellMeets stateC i (clean i)) = true
    ∧ cellMeets stateC (.scmpr p0 9 2 true 0) (fun x => clean (.scmpr p0 9 2 true 0) x && (x.inp.word 2).v) = true
    ∧ cellMeets stateC (.scmpr p0 9 7 false 0) (fun x => clean (.scmpr p0 9 7 false 0) x && !(x.inp.word 7).v) = true := by decide +kernel

/-- SPECIAL functions are stated for every k, j and n of their range and every operand word of a kind; one of each: -/
theorem witness_specialFunctions :
    (252 : Nat) < 253 ∧ (126 : Nat) < 127 ∧ (2 : Nat) < 3 ∧ fp32.read 0xFFFFFFFF = .nan
    ∧ (match fp32.readIn 1 0x80800000 with | .fin true m _ => m != 0 | _ => false) = true
    ∧ (match fp32.readIn 0 0x80000001 with | .fin true m _ => m != 0 | _ => false) = true := by decide +kernel

/-! ## Witnesses: faces and engines -/

/-- A pattern of one step over one lane, and a bank that holds it. -/
def pat : Pattern := ⟨true, 0x1000, 0, 1, 8, [false, false, false, false], [8, 0, 0, 0], [1, 1, 1, 1], 0, 0⟩
def bank : Bank := ⟨0, pat, 0⟩
def loaded : Face := { Face.reset with bank0 := some bank, bank1 := some bank, pending := some pat }

/-- Array 0 with one face in place of each of its four. -/
def stateFace (f : Face) : State := { state0 with arrays := [(0, { ArrayState.reset with west := f, north := f, east := f, south := f })] }

theorem witness_facePatterns :
    loaded.bank true = some bank ∧ loaded.pending = some pat ∧ (∀ q ∈ loaded.log, q.1 ≤ 0) ∧ pat.count = [1, 1, 1, 1]
    ∧ pat.stride = [8, 0, 0, 0] ∧ pat.rev = [false, false, false, false] := by decide +kernel

/-- The premises of `FacesDo`. -/
def facesMeet (s : State) (i : Instr) (side : Nat) (f : Face → Face) (s1 : State → State := id) : Bool :=
  isReady s i && match s.run? s.cur with
  | none => false
  | some r =>
    let old := r.foldRecords
    (((s1 s).withFaces old side f).leaving old).moves old i && old.flights.isEmpty && old.arrays.eraseDups == old.arrays
      && old.firstCells.all (fun c => (s.cellAt old c.1 c.2.1 c.2.2).latches.isEmpty)

theorem witness_injectCommands :
    facesMeet state0 (.ficfg g0 0 false) 0 (fun f => f.cfg 0 false) = true ∧ isReady state0 (.ficfg g0 7 true) = true
    ∧ facesMeet (stateFace loaded) (.figo g0 true true) 1 (fun f => f.go 0 true) = true ∧ isReady state0 (.figo g0 false false) = true
    ∧ state0.face 0 0 = Face.reset ∧ loaded.held.length < 2
    ∧ facesMeet state0 (.fihalt g0 true) 1 (fun f => f.add 0 .halt) = true
    ∧ facesMeet state0 (.fipad g0 7 false 0) 0 (fun f => f.add 0 (.pad ⟨⟨0xFFFFFFFF, true⟩, ⟨0xFFFFFFFF, true⟩⟩)) = true
    ∧ facesMeet state0 (.fipad g0 5 true 1) 1 (fun f => f.add 0 (.pad (padZero run0.fmt (run0.entry 3) true))) = true
    ∧ isReady state0 (.fipad g0 7 true 1) = true ∧ facesMeet state0 (.fipad g0 0 false 2) 0 (fun f => f.add 0 (.pad VPair.zero)) = true
    ∧ facesMeet (stateFace loaded) (.fisel g0 false 0) 0 (fun f => f.sel 0 true) = true
      ∧ isReady state0 (.fisel g0 false 3) = true := by decide +kernel

/-- 64 bytes at virtual address 0x200 (in the page) that hold a pattern, a chain of one stage, or neither. -/
def withBytes (bs : List Byte) (s : State) : State :=
  { s with mem := bs.zipIdx.filterMap (fun e => if e.1 = 0 then none else some (0x40200 + e.2, e.1)) }
def patternBytes : List Byte := ([0x1000, 0x100000008, 0x800000001, 1, 1, 1, 0, 0] : List Nat).flatMap (leBytes 8)

/-- What a command that reads the descriptor at 0x200 finds: the bytes, the poison and the state that the read leaves. -/
def descRead (s : State) : Option (ReadOut × State) :=
  match s.run? s.cur with
  | none => none
  | some r => match s.translate (.seq r.head) r.die r.ctx r.arrays 0x200 .read with
    | (.ok acc, s1) => let o := s1.read r.agent acc 64; some (o, o.st)
    | _ => none

def afterRead (s : State) : State := match descRead s with | some (_, t) => t | none => s

theorem witness_descriptorCommands :
    [Instr.fiqb g0 8 5 true false, .fdcfg g0 8 true, .fdchain g0 8 false, .fiqb g0 9 5 true false, .fdcfg g0 9 true,
      .fdchain g0 9 false].all (isReady state0) = true
    ∧ (run0.x 9).toNat % 64 ≠ 0
    ∧ (descRead statePoison).any (fun o => o.1.poison == some .ue) = true
    ∧ (descRead (withBytes patternBytes state0)).any (fun o => (parsePattern (leWords 8 8 o.1.bytes) false false).isSome
      && (parsePattern (leWords 8 8 o.1.bytes) true true).isSome && o.1.poison.isNone) = true
    ∧ (descRead state0).any (fun o => parseChain o.1.bytes 0 == some none && o.1.poison.isNone) = true
    ∧ (descRead (withBytes (List.replicate 64 0xFF) state0)).any (fun o => (parsePattern (leWords 8 8 o.1.bytes) false false).isNone
      && (parsePattern (leWords 8 8 o.1.bytes) true true).isNone && (parseChain o.1.bytes 0).isNone && o.1.poison.isNone) = true
    ∧ facesMeet (withBytes patternBytes state0) (.fiqb g0 8 5 true false) 1 (fun f => f.load false pat 3) afterRead = true
    ∧ facesMeet (withBytes patternBytes state0) (.fdcfg g0 8 true) 3 (fun f => { f with pending := some pat }) afterRead = true
    ∧ facesMeet state0 (.fdchain g0 8 false) 2 (fun f => f.add 0 (.chain none)) afterRead = true := by decide +kernel

/-- The page of virtual address 0x200 is encrypted under key slot 0, which holds a key of generation 1, or none. The granule at 0x200 is recorded
under generation 0. -/
def stateKey (loaded : Bool) : State :=
  { state0 with
    tlb := [⟨.seq 0, 1, 0, false, 0x4014F⟩], keys := [(0, ⟨7, 1, loaded⟩)], tags := [((0x40000 + 0x200) / 32, ⟨0, 0, 5, 0⟩)] }

theorem witness_keyDead :
    (descRead (stateKey true)).any (fun o => o.1.poison == some .keyDead) = true
    ∧ (match accessOf (stateKey false) 0x200 .write with | some acc => (stateKey false).keyGone acc.slot | none => false) = true
    ∧ storeMeets (stateKey false) 8 3 = true := by decide +kernel

theorem witness_drainCommands :
    facesMeet (stateFace loaded) (.fdgo g0 true) 3 (fun f => f.drainGo 0) = true ∧ isReady state0 (.fdgo g0 false) = true
    ∧ facesMeet state0 (.fdhalt g0 false) 2 (fun f => f.add 0 .halt) = true ∧ isReady state0 (.fdflush g0 9 false) = true
    ∧ facesMeet state0 (.fdflush g0 8 true) 3 (fun f => { f with
        flushes := f.flushes ++ [{ f.tally with rcpt := .mem 0x40200 0 true none false, va := 0x200, head := 0, ctx := 1 }], tally := Flush.zero }) = true := by
  decide +kernel

def engineOps (d c : BitVec 6) : List Instr :=
  [.cpy g0 d c 5 0, .cpya g0 d c 5 7, .gath g0 d c 5 true 1, .scat g0 d c 5 false 2, .red g0 d c 5 3, .ared g0 d c 5 4, .bcst g0 d c 5 5,
    .fill g0 d c 5 6,
   .ckpt g0 d c 5 0, .sortb g0 d c, .sortm g0 d c, .sortd g0 d c, .sortl g0 d c]

/-- The premises of an engine command that enters the queue: what is left of the sequencer and the state. -/
def submits (s : State) (i : Instr) (unit desc : Nat) (tag : BitVec 48) (words : List Nat) (sortl : Bool) : Bool :=
  isReady s i && match s.run? s.cur with
  | none => false
  | some r =>
    let old := r.foldRecords
    match s.translate (.seq old.head) old.die old.ctx old.arrays 0x200 .write with
    | (.error _, _) => false
    | (.ok acc, s1) =>
      let lines := wroteAt old.wrote (max 3 (old.rel.getD 3))
      let x := if sortl then { old with wrote := wroteClear old.wrote (max 2 (old.rel.getD 2)), rel := none, relFrank := [] } else old
      let wide := max 3 (old.rel.getD 3)
      let frank := setUnion lines old.relFrank
      let s2 := if sortl then (s1.releaseLines old.head wide lines).forkLines old.head old.arrays wide frank else s1
      let cmd : Cmd :=
        { copyCmd false with
          id := s2.nextCmd, unit := unit, op := i, desc := desc, rcpt := 0x200, racc := some acc, tag := tag, words := words, started := false,
            startAt := 0,
          tmo := 0x01000000, frank := if sortl then frank else [], level := none }
      let v := { s2 with cmds := s2.cmds ++ [cmd], nextCmd := s2.nextCmd + 1 }.cmdReceipt cmd stAccepted 0 cmd.code 0 0 []
      (v.leaving x).moves old i

theorem witness_engineCommands :
    (engineOps 8 8 ++ [Instr.ccan g0 5 8 0, Instr.post g0 4 5 8]).all (isReady state0) = true
    ∧ submits state0 (.cpy g0 8 8 5 0) 0 0x200 3 [] false = true ∧ submits (withRun waiting) (.sortl g0 8 8) 8 0x200 0 [] true = true
    ∧ submits state0 (.ccan g0 5 8 0) 0 0 3 [] false = true ∧ submits state0 (.post g0 4 5 8) 9 0x300400 0 [3] false = true
    ∧ (engineOps 9 8 ++ engineOps 8 9 ++ engineOps 8 10 ++ [Instr.ccan g0 5 9 0, Instr.ccan g0 5 10 0, Instr.post g0 9 5 8, Instr.post g0 4 5 9,
      Instr.post g0 4 5 10]).all (isReady state0) = true
    ∧ (run0.x 9).toNat % 16 ≠ 0 ∧ (run0.x 10).toNat % 16 = 0 ∧ accessOf state0 (run0.x 10) .write = none := by decide +kernel

theorem witness_fullQueues :
    (let s := { state0 with cmds := List.replicate 32 (copyCmd false) }
     isReady s (.fill g0 8 8 5 0) = true ∧ 32 ≤ (s.cmds.filter (fun z => z.task == some 0 && !z.terminal)).length
       ∧ run0.stalledFor 3 100 ≤ tmoTicks run0.stallTmo)
    ∧ tmoTicks 5 < { run0 with stall := some (3, 10), stallTmo := 5 }.stalledFor 3 100 := by decide +kernel

def message : Message := ⟨0x10, List.replicate 16 7⟩

theorem witness_precv :
    isReady state0 (.precv g0 9 7 11 1) = true ∧ meets state0 (.precv g0 4 0 11 1) (fun r => r.setQ 1 true) = true
    ∧ isReady state0 (.precv g0 4 7 11 1) = true ∧ (state0.arr 0).inbox = []
    ∧ (let s := { state0 with arrays := [(0, { ArrayState.reset with inbox := [message] })] }
       match (s.leaving run0.foldRecords).storeFlits (spad.toNat % 2 ^ 55) message.flits with
       | .ok c =>
         let u := c.s.setArr 0 { c.s.arr 0 with inbox := [] }
         isReady s (.precv g0 4 7 11 1) && (u.leaving ((c.r.setQ 1 false).setS 11 message.hdr)).moves run0.foldRecords (.precv g0 4 7 11 1)
       | .error _ => false) = true := by decide +kernel

/-! ## Witnesses: engines at work, streams, packets -/

/-- A FILL of one page that has not started, and one whose units are done. -/
def fillCmd (started : Bool) (prog : Nat) : Cmd :=
  { copyCmd false with op := .fill g0 8 8 0 0, words := [0x1000, 64, 7, 0, 0, 0, 0, 0], started := started, startAt := 90, tmo := 5, prog := prog, level := none }
def ccanCmd (started : Bool) : Cmd := { copyCmd false with op := .ccan g0 5 8 0, tag := 3, words := [], started := started }
def withCmds (l : List Cmd) : State := { state0 with cmds := l, nextCmd := 5, tlb := state0.tlb ++ [⟨.die 0, 1, 0, false, BitVec.ofNat 64 0x4004F⟩] }

/-- The all-reduce of one 32-bit integer by two members of this module. -/
def aredCmd (rank : Nat) : Cmd :=
  { copyCmd false with
    id := rank, unit := rank, op := .ared g0 8 8 0 0, array := rank, words := [0x200, 0x400, 1 + 2 ^ 40 * 6 + 2 ^ 44 * 15, 0, 2 + 2 ^ 32 * rank,
      0, 0, 0],
    members := [(0, 0), (0, 1)], fresh := true }

/-- The descriptor of that all-reduce at virtual address 0x200, and its group table at 0. -/
def withColl (l : List Cmd) : State :=
  { withCmds l with mem := ((aredCmd 0).words.flatMap (leBytes 8)).zipIdx.filterMap (fun e => if e.1 = 0 then none else some (0x40200 + e.2, e.1)) }

/-- A command that has not started, one of each kind that reads a descriptor there, and a POST of one flit from the scratchpad. -/
def fresh (i : Instr) (unit : Nat) : Cmd := { copyCmd false with op := i, unit := unit, words := [], started := false, level := none }
def postCmd : Cmd := { fresh (.post g0 4 5 8) 9 with words := [0x904], desc := spad.toNat }

/-- The bytes that a command reads, and the state that the read leaves. -/
def cmdBytes (s : State) (x : Cmd) (va n : Nat) : Option (List Byte × State) :=
  match s.cmdRead x va n with | (.ok bs, u) => some (bs, u) | _ => none

theorem witness_engineStarts :
    (withCmds [ccanCmd false]).mayStart (ccanCmd false) = true
    ∧ [Instr.cpy g0 8 8 5 0, .cpya g0 8 8 5 0, .gath g0 8 8 5 true 0, .scat g0 8 8 5 true 0, .fill g0 8 8 5 0, .ckpt g0 8 8 5 0, .sortb g0 8 8,
      .sortm g0 8 8,
      .sortd g0 8 8, .sortl g0 8 8].all (fun i =>
        let x := fresh i 0
        (withCmds [x]).cmd 0 == some x && (withCmds [x]).mayStart x && (cmdBytes (withCmds [x]) x x.desc 64).isSome) = true := by decide +kernel

theorem witness_collectiveStarts :
    [Instr.red g0 8 8 0 0, .ared g0 8 8 0 0].all (fun i =>
      let x := fresh i 0
      let s := withColl [x]
      match cmdBytes s x x.desc 64 with
      | some (bs, u) =>
        let z := { x with words := leWords 8 8 bs, started := true, startAt := u.ticks }
        let s1 := (u.cmdReceipt z stStarted 0 x.code 0 0 []).setCmd z
        s.mayStart x && isCollective x.op && z.collValid && z.w 5 == 0 && (cmdBytes s1 z (z.w 3) (16 * z.collN)).isSome
      | none => false) = true
    ∧ (let x := fresh (.bcst g0 8 8 0 0) 0
       (cmdBytes (withCmds [x]) x x.desc 64).isSome && !{ x with words := List.replicate 8 0 }.collValid) = true
    ∧ (let s := withCmds [postCmd]
       let z := { postCmd with started := true, startAt := s.ticks }
       let u := (s.cmdReceipt z stStarted 0 z.code 0 0 []).setCmd z
       s.mayStart postCmd && decide (postCmd.w 0 < 2 ^ 24)
         && match u.postData z (postCmd.w 0 / 32 % 8 + 1) postCmd.desc with
           | (.ok _, _) => true
           | _ => false) = true := by
  decide +kernel

/-- Commands that are at work with all that is theirs done, or with a descriptor that is not valid. -/
def ckptCmd : Cmd := { fillCmd true 1 with op := .ckpt g0 8 8 5 0, words := [0x1000, 0x200, 64, 7, 0, 0, 0, 0] }
def sortCmd (n : Nat) : Cmd := { fillCmd true 5 with op := .sortb g0 8 8, unit := 8, words := [0x1000, 1, 0x400, 5, 0, 0, 0, 0], chunks := [(n, [])] }
def sortlCmd : Cmd := { fillCmd true 0 with op := .sortl g0 8 8, unit := 8, words := List.replicate 8 0, chunks := [(0, []), (0, [])] }

theorem witness_engineEnds :
    (fillCmd true 1).valid = true ∧ (fillCmd true 1).prog = (fillCmd true 1).units ∧ (fillCmd true 1).parts = []
    ∧ { fillCmd true 1 with words := [0x1000, 64, 7, 1, 0, 0, 0, 0] }.valid = false
    ∧ (let s := withCmds [ckptCmd]
       let w := Work.puts { s := s, x := ckptCmd, err := none } true (ckptCmd.w 1)
         (leBytes 8 (ckptCmd.w 3) ++ leBytes 8 (ckptCmd.w 2) ++ leBytes 8 ckptCmd.sealSum.toNat ++ List.replicate 40 0)
       ckptCmd.valid && ckptCmd.prog == ckptCmd.units && ckptCmd.w 1 % 64 == 0 && w.err.isNone) = true
    ∧ (sortCmd 5).valid = true ∧ min 5 (sortCmd 5).output.2 ≤ (sortCmd 5).prog ∧ (sortCmd 9).output.2 < 9
      ∧ min 9 (sortCmd 9).output.2 ≤ (sortCmd 9).prog
    ∧ sortlCmd.valid = true ∧ ((withCmds [ccanCmd true]).cmds.all (fun y => !(ccanCmd true).matches y)) = true
    ∧ (aredCmd 0).collValid = true ∧ (aredCmd 0).numChunks ≤ { aredCmd 0 with next := 1 }.next ∧ { aredCmd 0 with words := [] }.collValid = false
    ∧ (let s := withCmds [aredCmd 0]
       s.formed (aredCmd 0) = false ∧ (aredCmd 0).startAt + (aredCmd 0).tmo < s.ticks ∧ (aredCmd 0).next = 0)
    ∧ (let s := { withCmds [fillCmd true 0] with pod := [3], tlb := [⟨.die 0, 1, 0, false, BitVec.ofNat 64 (3 * 2 ^ 44 + 0x4004F)⟩] }
       s.remotePlace (fillCmd true 0) = some (3, 0x1000) ∧ (fillCmd true 0).tmo < s.ticks - (fillCmd true 0).startAt) := by decide +kernel

/-- The premises of a chunk of the all-reduce, whose members have both started; it takes their contributions in rank order. -/
def chunkMeets (x : Cmd) : Bool :=
  let s := withCmds [x, aredCmd 1]
  let c : Chunk := ⟨0, [0, 1], []⟩
  x.collValid && s.formed x && s.orderOk x c && decide (c.index < x.numChunks) && x.receives
    && match s.sendAll x 0 with
      | (s1, true) => match s1.cmd 0 with
        | some x1 =>
          let ks := c.order.map (fun k => if k < x1.collN then s1.contributed x1 c k else none)
          let sum := combineAll x1.collWire x1.collOp ks
          let res := sum.1.map (result1 x1.collFormat)
          let made : ChunkResult := { index := c.index, elems := res, wild := sum.2, sealed := x1.sealOk res (ks.filterMap id) }
          let had := x1.results.find? (fun r => r.index == c.index)
          let r := had.getD made
          let w : Work := if had.isSome then { s := s1, x := x1, err := none }
            else { s := s1.publish x1 made, x := { x1 with results := x1.results ++ [made] }, err := none }
          let w1 := w.puts true (x1.w 1 : Nat) (r.elems.flatMap (leBytes 4))
          !x1.terminal && ks.all (·.isSome) && r.sealed && w1.err.isNone
            && (x1.w 7 == 0 || match w1.s.cmdRead w1.x (x1.w 7 : Nat) 1 with
              | (.ok [b], v) => (Work.put { w1 with s := v } true (x1.w 7 : Nat) [b]).err.isNone
              | _ => false)
        | none => false
      | _ => false

theorem witness_collectiveChunk :
    chunkMeets (aredCmd 0) = true
    ∧ chunkMeets { aredCmd 0 with words := [0x200, 0x400, 1 + 2 ^ 40 * 6 + 2 ^ 44 * 15, 0, 2, 0, 0, 0x600], results := [⟨0, [5], false, true⟩] } = true := by
  decide +kernel

/-- A lane with one element to write. -/
def pushed : PushElem := ⟨0, 0, 0, 0, .mem 0x40200 0 true none false, 0x200, ⟨⟨5, true⟩, ⟨0, false⟩⟩, none⟩
def flush0 : Flush := { Flush.zero with stamp := 1, rcpt := .mem 0x40300 0 true none false, va := 0x300, ctx := 1 }

theorem witness_streams :
    (state0.runOn 0) = some run0
    ∧ (({ Face.reset with log := [(0, .go 0 pat)] } : Face).nextFetch 0) = some (0, pat, 0)
    ∧ (({ Face.reset with lanes := [(0, { Lane.reset with queue := [pushed] })] } : Face).lane 0).queue = [pushed]
    ∧ (state0.write (.array 0 (whoFace 0 2)) (pushed.acc.plus 0) (leBytes 4 5)).2 = none
    ∧ (state0.write (.array 0 (whoFace 0 2)) (pushed.acc.plus 4) (leBytes 4 5)).2 = none
    ∧ (let ch : Chain := { stages := [], k0 := 0, k1 := 0, fmt := 0 }
       let out := runChain ch (fun st k => chainDraw 0 1 0 0 2 st k) ⟨⟨5, true⟩, ⟨6, true⟩⟩
       out.1.lo.v && out.1.hi.v) = true ∧ tabSorted state0.runs = true ∧ (∀ e ∈ state0.runs, e.2.head = e.1)
    ∧ (let s := stateFace { Face.reset with flushes := [flush0] }
       s.flushDone 2 flush0 [0] = true ∧ tabSorted s.arrays = true ∧ (s.face 0 2).flushes = [flush0]) := by decide +kernel

/-- A packet of two flits from array 0 to array 4, at the start of its way, and at its end. -/
def packet (h : Nat) : Packet := ⟨7, 0, 1, 0, 4, false, 9, List.replicate 32 1, [(h, false), (h, false)], [], false⟩

theorem witness_packets :
    (let s := { state0 with packets := [packet 0] }
     (s.mayShip (packet 0)).any (fun x => !s.preferred (packet 0) x) = true)
    ∧ (let p := packet (packet 0).hops
       let s := { state0 with packets := [p], runs := [(0, run0), (4, { run0 with head := 4, arrays := [4] })] }
       p.flitAt.all (fun f => p.hops ≤ f.1) && s.hasTask p && s.roomFor p) = true := by decide +kernel

/-! ## Witnesses: what happens beside the issue of bundles -/

theorem witness_advances :
    (let r := { run0 with blanks := 31 }
     r.owesBlank && ((stateOn 0 r).advance r none true).isMoved) = true
    ∧ (let r := { flying run0 with phase := .drain (issueFault 3 0) }
       r.drains && ((stateOn 0 r).advance r none false).isMoved) = true := by decide +kernel

/-- The bundle at PC is a NOP, or one instruction of the sequencer, in the bundle cache. -/
def cached (i : Instr) (c : SlotClass) (r : Run) : State :=
  let w : Bundle := ((encode i).getD 0).zeroExtend 256 <<< (32 * c.index)
  { stateOn 0 r with arrays := [(0, { ArrayState.reset with icache := [(2, w)] })] }

/-- The premises of `State.atPc`. -/
def isAtPc (s : State) (i : Instr) : Bool :=
  match s.run? s.cur with
  | none => false
  | some r => r.head == s.cur && !(slotClasses i).isEmpty && match tabFind (s.arr r.head).icache (r.pc.toNat / 32) with
    | none => false
    | some w => (match legal w with | .ok b => b == alone i | .error _ => false) && slotWord w .cellA == (cellWords i).1
      && slotWord w .cellB == (cellWords i).2

theorem witness_atPc :
    isAtPc (cached (.addi g0 5 1) .scalar run0) (.addi g0 5 1) = true ∧ run0.mayIssue = true
    ∧ isAtPc (cached (.addi g0 5 1) .scalar { run0 with blanks := 1, stall := some (5, 3) }) (.addi g0 5 1) = true
    ∧ { run0 with blanks := 1 }.owesBlank = true ∧ { run0 with blanks := 1 }.drains = false
    ∧ (let r := recorded (flying run0)
       isAtPc (cached (.waitf g0 7 1) .control { r with face := some 3 }) (.waitf g0 7 1) && { r with face := some 3 }.drains) = true
    ∧ isAtPc (cached (.cpy g0 8 8 5 0) .engine { run0 with stall := some (3, 10), stallTmo := 5 }) (.cpy g0 8 8 5 0) = true ∧ tmoTicks 5 < 90
    ∧ isAtPc (cached (.launch g0 8) .control { run0 with stall := some (4, 10), stallTmo := 5 }) (.launch g0 8) = true
    ∧ (let r := { run0.loadTo 11 (.mem 0x40200 0 true none false) 0 none false with stall := some (0, 10), fetmo := 5 }
       isAtPc (cached (.jmpi g0 11) .control r) (.jmpi g0 11) && r.mayIssue && r.readBlocked (alone (.jmpi g0 11))
         && (r.readFault (alone (.jmpi g0 11))).isNone
         && r.feq == 0) = true
    ∧ (let i := Instr.add g0 12 11 5 false false
       let r := { run0.loadTo 11 (.mem 0x40200 0 true none false) 0 none false with stall := some (0, 10), fetmo := 5, feq := 3 }
       let s := cached i .scalar r
       let x := (r.setS 12 (r.x 11 + r.x 5)).setQ 3 true
       isAtPc s i && r.mayIssue && r.readBlocked (alone i) && (r.readFault (alone i)).isNone && !r.mismatch (alone i)
         && (r.reads (alone i)).all (fun e => (r.sreg e.1).poison.isNone) && !r.endOfOuter && !r.atEnd
           && (s.leaving x).moves r i) = true := by decide +kernel

/-- An advance that a stream withholds: cell (0, 0) reads an inject face whose first element has not come. -/
def starved : State :=
  let r := { run0 with
    flights := [{ run0.flight (alone (.movCell p0 1 50)) ((encode (.movCell p0 1 50)).getD 0) 0 with adv := 0 }], blanks := 1, face := some 3, stallTmo := 5 }
  { stateOn 0 r with arrays := [(0, { ArrayState.reset with west := { Face.reset with log := [(0, .go 0 { pat with count := [4, 1, 1, 1] })] } })] }

theorem witness_faceStall :
    (match starved.run? 0 with
     | some r => (match starved.advance r none true with | .stalled _ => true | _ => false) && r.owesBlank && r.arrived.isNone
     | none => false) = true ∧ tmoTicks 5 < 97 := by decide +kernel

theorem witness_waitEvents :
    isAtPc (cached (.waitf g0 5 1) .control { run0 with stall := some (7, 10) }) (.waitf g0 5 1) = true
    ∧ meets (cached (.waitf g0 5 1) .control { run0 with stall := some (7, 10) }) (.waitf g0 5 1) (fun r => r.setQ 1 false) = true
    ∧ isAtPc (cached (.waitf g0 5 1) .control (recorded run0)) (.waitf g0 5 1) = true
    ∧ meets (cached (.waitf g0 5 1) .control (recorded run0)) (.waitf g0 5 1) (fun r => r.setQ 1 true) = true := by decide +kernel

theorem witness_arrivals :
    (run0.loadTo 11 (.mem 0x40200 0 true none false) 5 none false).loads[0]? = some ⟨some 11, .mem 0x40200 0 true none false, 5, none, false⟩
    ∧ (run0.loadTo 11 (.mem 0x40200 0 true none false) 5 (some .ue) false).loads[0]?.bind (·.poison) = some .ue
    ∧ (let h : Latch := ⟨0, 0, 0, 0, false, 0, false, false, [.word 43 (some 7) true]⟩
       ((stateCells run0 { cell0 with latches := [h] }).cellAt run0 0 0 0).latches = [h] ∧ h.rem = 0)
    ∧ (let h (n : Nat) : Latch := ⟨n, 0, 0, 0, false, 0, false, false, [.word 43 (some 7) true]⟩
       [1, 2].all (fun n =>
         let s := stateCells run0 { cell0 with latches := [h n] }
         meets s (.nopControl g0) && run0.firstCells.contains (0, 0, 0) && (s.cellAt run0 0 0 0).latches == [h n] && (h n).rem == n
           && !run0.trap.active) = true)
    ∧ (let c : Record := ⟨0, 1, 5, some Flags.reset, none, 0, false⟩
       { run0 with records := [c] }.records = [c] ∧ c.left ≤ 1)
    ∧ (let c : Record := ⟨0, 2, 5, some Flags.reset, none, 0, false⟩
       { run0 with records := [c] }.records = [c] ∧ 1 < c.left ∧ 0 < c.advs) := by decide +kernel

/-! ## Witnesses: the dispatchers -/

/-- A ready task that is pinned to array 0, which a run of lower priority holds. -/
def pinned : Task := { task0 with id := 1, phase := .ready, prio := 3, eff := 3, desc := { task0.desc with aff := 2 }, passedAt := some 0 }
/-- A ready task that may go anywhere, and a failed one that may run again. -/
def roaming (d : Nat) : Task := { task0 with id := 1, phase := .ready, die := d }
def failedTask : Task := { task0 with phase := .failed 0x10 0 0, desc := { task0.desc with restart := true, retry := 1 } }

theorem witness_readyTasks :
    ({ state0 with tasks := [task0, pinned] }.freeBenches.ageTasks 0).toReserve 0 = some (pinned, [0])
    ∧ { state0 with tasks := [task0, roaming 1] }.freeBenches.toPull 0 = some (roaming 1)
    ∧ failedTask.reruns? 0x10 = true ∧ { state0 with runs := [] }.freeBenches.runs = []
    ∧ ({ State.reset with dies := State.reset.dies.set 1 { Die.reset with alive := false } }.die 1).alive = false
    ∧ ({ State.reset with dies := State.reset.dies.set 1 { Die.reset with alive := false } }.die 0).alive = true
    -- a task that only array 16, of the failed die 1, could run
    ∧ (let s := { stateOn 0 run0 with dies := State.reset.dies.set 1 { Die.reset with alive := false } }
       let x := { roaming 0 with desc := { task0.desc with aff := 2, target := 16 } }
       s.candidates x 0 = [] ∧ (∀ e ∈ s.runs, e.2.task ≠ x.id)) := by decide +kernel

def image0 : Image := ⟨{ run0 with phase := .issue }, [ArrayState.reset], some 0, 1, []⟩

theorem witness_dispatch :
    ({ state0 with tasks := [task0, { roaming 0 with args := none }] }.freeBenches.ageTasks 0).pick 0 = (some ({ roaming 0 with args := none }, [1]), [])
    ∧ (roaming 0).image = none ∧ (roaming 0).patch = none ∧ (roaming 0).desc.argLen = 0
    ∧ ({ state0 with tasks := [task0, { roaming 0 with image := some image0 }] }.freeBenches.ageTasks 0).pick 0
        = (some ({ roaming 0 with image := some image0 }, [1]), [])
    ∧ (let s := { state0 with tasks := [task0, { roaming 0 with image := some image0 }] }
       let s3 := (((s.freeBenches.ageTasks 0).passOver []).settleFaces [1] 2 |>.settleFaces [1] 3).cleanBench [1]
       (s3.context 1).any (fun c => !s3.imageBad c image0) = true)
    ∧ (state0.freeBenches.ageTasks 0).runs = state0.runs := by decide +kernel

/-- A task with an argument block of 16 bytes at virtual address 0x200, without a patch, and with one at its second word. -/
theorem witness_arguments :
    [none, some (4, 9)].all (fun patch =>
      let t : Task := { roaming 0 with args := none, patch := patch, desc := { task0.desc with args := 0x200, argLen := 16 } }
      let s := { withCmds [] with tasks := [task0, t], tlb := [⟨.die 0, 1, 0, false, BitVec.ofNat 64 0x4004F⟩, ⟨.seq 1, 1, 0, false, BitVec.ofNat 64 0x4004F⟩] }
      let s1 := s.freeBenches.ageTasks 0
      let s3 := ((s1.passOver []).settleFaces [1] 2).settleFaces [1] 3
      let s4 := (s3.prepare 1 t.ctx t.desc.spad true).hostFirst t [1]
      s1.pick 0 == (some (t, [1]), []) && match s4.readArgs t [1] 2 0x200 16 with
        | (.ok bs, u) =>
          let block := match t.patch with | none => bs | some (o, n) => bs.take o ++ leBytes 4 n ++ bs.drop (o + 4)
          (u.storeWrite 1 0x300000 block).2.isNone && block.length == 16
        | _ => false) = true := by decide +kernel

theorem witness_taskEnds :
    (let r := { run0 with phase := .ended }
     (stateOn 0 r).run? 0 = some r ∧ (stateOn 0 r).task 0 = some task0 ∧ ((stateOn 0 r).context 1).isSome = true
       ∧ tabSorted (stateOn 0 r).runs = true)
    ∧ { failedTask with desc := { task0.desc with retry := 0 } }.reruns? 0x10 = false ∧ failedTask.reruns? 0x10 = true := by decide +kernel

theorem witness_images :
    (let r := { run0 with phase := .preempt }
     (stateOn 0 r).commandsDone r = true ∧ (stateOn 0 r).run? 0 = some r ∧ tabSorted (stateOn 0 r).runs = true
     ∧ (stateOn 0 r).inboxesQuiet r = true ∧ (∀ a ∈ r.arrays, (stateOn 0 r).runOn a = some r))
    ∧ (let r := { run0 with phase := .yielded }
       (stateOn 0 r).run? 0 = some r)
    ∧ ({ state0 with tasks := [task0, pinned] }.freeBenches.ageTasks 0).chooseVictims 0 = [run0]
    ∧ run0.intr = false ∧ run0.arrived = none ∧ run0.inEndStall = false := by decide +kernel

/-- Letterbox 3 of context 1 holds one descriptor, at virtual address 0x200. -/
def boxCtx : Context :=
  { newContext 1 3 0 0 256 0 0 with
    lbBase := (Vector.replicate 4 0).set 3 0x200, lbSize := (Vector.replicate 4 0).set 3 1, lbWidx := (Vector.replicate 4 0).set 3 1 }
def boxState (valid : Bool) : State := { withDesc valid state0 with contexts := [boxCtx], tasks := [] }

theorem witness_descriptors :
    [true, false].all (fun ok =>
      let s := boxState ok
      boxCtx.boxLive 3 && match s.readDesc 0 1 (boxCtx.boxSlot 3) with
      | (some bs, u) => match u.submit boxCtx ((parseDesc bs).dieOr s.freestDie) bs 3 none [] true with
        | .accepted v => ok && (v.context 1).isSome && s.acceptedOn (v.boxTaken 1 3) ((parseDesc bs).dieOr s.freestDie)
        | .refused v => !ok && (v.context 1).isSome
        | _ => false
      | (none, _) => false) = true
    ∧ (let z := { copyCmd false with op := .sortl g0 8 8, unit := 8, waitAt := some 90 }
       (withCmds [z]).cmd 0 = some z ∧ z.tmo < 100 - 90) := by decide +kernel

theorem witness_acceptOutside : { boxState true with runs := [] }.run? 0 = none ∧ { boxState true with runs := [] }.cmds = [] := by decide +kernel

/-! ## Witnesses: the module's parts, the host, and steps -/

theorem witness_droop : (3 : Nat) < 4 ∧ Quadrant.reset.armed = true ∧ state0.holdDone 0 0 { Quadrant.reset with holdOf := some 0 } = true := by decide +kernel

def request0 : Request := ⟨5, 77, 15, 1, 3, 0, 3⟩

theorem witness_channels :
    (0, request0) ∈ { state0 with requests := [request0] }.heads 5 ∧ ({ state0 with requests := [request0] }.heads 5).length = 1
    ∧ { state0 with requests := [request0] }.overdueReq request0 = true ∧ request0.who < whoNone := by decide +kernel

theorem witness_autoSwap :
    (let s := { state0 with autoSwap := true, chanCount := [(0, 100)] }
     s.swapInterval.toNat ≤ s.ticks - s.swapAt ∧ s.stackCount s.busiest < 8 * (s.stackCount s.busiest - s.stackCount s.idlest)) := by decide +kernel

theorem witness_losses :
    tabSorted state0.runs = true ∧ (∀ e ∈ state0.runs, e.2.head = e.1) ∧ state0.run? 0 = some run0 ∧ run0.phase ≠ .closed ∧ run0.phase ≠ .ended
    ∧ run0.arrays.any (fun a => dieOf a == 0) = true ∧ state0.task run0.task = some task0 ∧ (∀ e ∈ state0.runs, e.2.task = run0.task → e.1 = 0)
    ∧ (state0.die 0).frozen = false ∧ state0.portsDown.getLsbD 17 = false ∧ tabGet 0 state0.portFails 17 < 7
    ∧ 7 ≤ tabGet 0 { state0 with portFails := [(17, 7)] }.portFails 17
    ∧ { copyCmd false with unit := 10 } ∈ { state0 with cmds := [{ copyCmd false with unit := 10 }] }.cmds ∧ (copyCmd false).started = true := by decide +kernel

theorem witness_power : state0.powered = true ∧ { state0 with powered := false }.powered = false ∧ Instr.bundleIssue ≠ .moduleReset := by decide +kernel

theorem witness_hostWrites :
    state0.context (newContext 1 3 0 0 256 0 0).num = some (newContext 1 3 0 0 256 0 0) ∧ (0x40 : DWord).toNat % 64 = 0
      ∧ (0x41 : DWord).toNat % 64 ≠ 0
    ∧ (∀ b ∈ state0.barriers, b.full = false) ∧ state0.mstat ≠ 1 ∧ state0.mcode = 0 ∧ { state0 with mcmd := vset state0.mcmd 0 0x15 }.mcode = 0x15
    ∧ { state0 with mcmd := vset state0.mcmd 0 0x16 }.mcode = 0x16
    ∧ { state0 with mcmd := vset state0.mcmd 0 4 }.mcode = 4 ∧ { state0 with mcmd := vset state0.mcmd 0 4 }.spare [0xFF, 0xFF] = false ∧ state0.recovery = false ∧ { state0 with mstat := 1 }.mstat = 1 := by decide +kernel

theorem witness_aperture :
    Memory.wf state0 = true ∧ state0.llc = [] ∧ state0.llcTags = [] ∧ 0x200 / 32 ∉ state0.poison ∧ 0x200 / 32 ∉ state0.latent
    ∧ 0x200 + 32 ≤ Config.hbmBytes ∧ 0 < (List.replicate 32 (1 : Byte)).length
      ∧ (List.replicate 32 (1 : Byte)).length ≤ 32 - 0x200 % 32 := by decide +kernel

/-- The management command of a code at work, with its words. -/
def commanded (code : Nat) (words : List Nat) : State :=
  { state0 with mstat := 1, mcmd := words.zipIdx.foldl (fun m e => vset m (e.2 + 1) (BitVec.ofNat 64 e.1)) (vset (Vector.replicate 8 0) 0 (BitVec.ofNat 64 code)) }

/-- The command is busy and its words hold no reserved bit. -/
def isBusy (s : State) (code : Nat) (used : List Nat) : Bool :=
  s.mstat == 1 && s.mcode == code && (List.range 8).all (fun k => vget s.mcmd k 0 &&& ~~~(BitVec.ofNat 64 (used.getD k 0)) == 0)

theorem witness_settings :
    isBusy (commanded 0x09 [1, 2, 2 ^ 64 - 1]) 0x09 [0xFF, 2 ^ 64 - 1, 2 ^ 64 - 1, 2 ^ 64 - 1] = true ∧ isBusy (commanded 0x0E [1,
      9]) 0x0E [0xFF, 1, 2 ^ 64 - 1] = true
    ∧ isBusy (commanded 0x0F [1, 2, 3, 0xFFFF]) 0x0F [0xFF, 0xFFFF, 0xFFFF, 0xFFFF, 0xFFFF] = true
    ∧ isBusy (commanded 0x13 [0x3FF, 1]) 0x13 [0xFF, 0x3FF, 2 ^ 18 - 1] = true ∧ isBusy (commanded 0x0C [3]) 0x0C [0xFF, 3] = true
    ∧ isBusy (commanded 0x14 [5]) 0x14 [0xFF, 0x3FF] = true ∧ State.reset.contexts = []
    ∧ isBusy (commanded 0x10 [0x303, 600, 15, 65535]) 0x10 [0xFF, 0x303, 2 ^ 64 - 1, 2 ^ 64 - 1, 2 ^ 64 - 1] = true
    ∧ isBusy (commanded 0x0A [1, 77]) 0x0A [0xFF, 0xFFFF, 2 ^ 48 - 1] = true ∧ ((commanded 0x0A [1]).context 1).isSome = true
    ∧ isBusy (commanded 0x05 [1, 0, 2 ^ 64 - 1]) 0x05 [0xFF, 0xFFFF, 2 ^ 64 - 1, 2 ^ 64 - 1] = true
    ∧ (∃ k, k < 8 ∧ vget (commanded 0x0E [2]).mcmd k 0 &&& ~~~(BitVec.ofNat 64 ([0xFF, 1].getD k 0)) ≠ 0)
    ∧ (commanded 0x0E [2]).mcode ≠ 0x09 := by decide +kernel

theorem witness_contextCommands :
    isBusy (commanded 0x01 [2, 0x10000, 5]) 0x01 [0xFF, 0xFF03FFFF, 2 ^ 54 - 1, 2 ^ 64 - 1, 2 ^ 64 - 1, 2 ^ 64 - 1] = true
    ∧ (commanded 0x01 []).place 0x10000 = .hbm ∧ (commanded 0x01 []).context 2 = none ∧ (commanded 0x01 []).context 1 ≠ none
    ∧ isBusy (commanded 0x02 [1]) 0x02 [0xFF, 0xFFFF] = true ∧ { commanded 0x02 [1] with runs := [] }.runs = []
    ∧ isBusy (commanded 0x03 [255]) 0x03 [0xFF, 0xFF] = true ∧ isBusy (commanded 0x04 [255]) 0x04 [0xFF, 0xFF] = true
    ∧ isBusy (commanded 0x0D [0, 2 ^ 18 - 1]) 0x0D [0xFF, 2 ^ 18 - 1, 2 ^ 18 - 1] = true
    ∧ isBusy (commanded 0x15 [3, 0, 4]) 0x15 [0xFF, 2 ^ 64 - 1, 2 ^ 64 - 1, 2 ^ 64 - 1] = true := by decide +kernel

theorem witness_taskCommands :
    isBusy (commanded 0x06 [1, 0]) 0x06 [0xFF, 0xFFFF, 0x3F] = true ∧ (commanded 0x06 [1]).run? 0 = some run0 ∧ run0.head = 0 ∧ run0.ctx = 1
      ∧ run0.phase ≠ .closed
    ∧ isBusy (commanded 0x07 [1, 0]) 0x07 [0xFF, 0xFFFF, 0x3F] = true ∧ isBusy (commanded 0x08 [1, 0]) 0x08 [0xFF, 0xFFFF, 0x3F] = true
    ∧ (let r := { run0 with phase := .held (issueFault 0x104 0) 3 }
       { commanded 0x08 [1] with runs := [(0, r)] }.run? 0 = some r ∧ (commanded 0x08 [1]).task 0 = some task0)
    ∧ (∀ x ∈ (commanded 0x07 [1]).tasks, x.image = none)
    ∧ isBusy (commanded 0x0B [3, 0x1000]) 0x0B [0xFF, 0x103, 2 ^ 64 - 1] = true ∧ tabWf 0 (commanded 0x0B []).hostMem = true
    ∧ isBusy (commanded 0x11 [0x1000]) 0x11 [0xFF, 2 ^ 64 - 1] = true
    ∧ isBusy (commanded 0x12 [0, 0x1000]) 0x12 [0xFF, 0, 2 ^ 64 - 1, 0, 2 ^ 64 - 1, 2 ^ 64 - 1, 2 ^ 64 - 1, 2 ^ 64 - 1] = true := by decide +kernel

/-- A step with the turn of a bundle issue: the bundle cache has the bundle, the bundle is fetched, its fetch fails, and it is illegal. -/
def turn0 : Turn := { ticks := 1, head := 0, background := [], event := .bundleIssue }

theorem witness_steps :
    (let s := { cached (.addi g0 5 1) .scalar run0 with sched := [turn0] }
     s.powered = true ∧ turn0.background = [] ∧ s.run? 0 = some run0 ∧ (tabFind (s.arr 0).icache 2).isSome = true)
    ∧ tabFind (state0.arr 0).icache 2 = none
    ∧ (match state0.translate (.seq 0) 0 1 [0] 0x40 .fetch with
       | (.ok acc, s0) => (s0.read (.engine 0 (whoSeq 0) 0) acc 32).poison.isNone
         && (match legal (bundleOfBytes (s0.read (.engine 0 (whoSeq 0) 0) acc 32).bytes) with | .ok _ => true | .error _ => false)
       | _ => false) = true
    ∧ (match state0.translate (.seq 0) 0 1 [0] 0x500000000 .fetch with | (.error e, _) => e != xUe | _ => false) = true
    ∧ (match legal (0xFFFFFFFF : Bundle) with | .error m => m == 1 | .ok _ => false) = true
    ∧ slotClasses (.addi g0 5 1) ≠ [] := by decide +kernel

theorem witness_encodings :
    wellFormed .control (.semset ⟨true, 7⟩ 15 63) = true ∧ wellFormed .cellB (.stc2 ⟨true, 15⟩ 56 60 511) = true
    ∧ decodeSlot .engine 0x1928AACD ≠ none ∧ decodeSlot .inject 0x30082811 ≠ none := by decide +kernel

/-- A step after reset: both invariants hold there, and the step answers a next state. -/
theorem witness_invariants :
    Memory.wf State.reset = true ∧ State.reset.tasks = [] ∧ tabSorted State.reset.runs = true ∧ (∀ e ∈ State.reset.runs, e.2.head = e.1)
    ∧ (match step State.reset with | .next t => t.ticks == 2 | _ => false) = true
    ∧ Memory.wf state0 = true ∧ (match step { state0 with sched := [turn0] } with | .next t => (t.run? 0).any (fun r => r.num == 1) | _ => false) = true := by
  decide +kernel


/-! ## Witnesses: bundles in flight, streams and records at an advance -/

/-- A bundle of one instruction in the wave, after `n` advances, in a bench that owes a blank advance. -/
def inFlight (i : Instr) (n : Nat) (r : Run) : Run :=
  { r with flights := [{ r.flight (alone i) ((encode i).getD 0) 0 with adv := n }], blanks := 1 }

/-- Array 0 with the cell at (0, `j`), and a run. -/
def stateAt (j : Nat) (c : Cell) (r : Run) : State := { stateOn 0 r with arrays := [(0, { ArrayState.reset with cells := [(j, c)] })] }

/-- The premises of `CellsGoOn` for a cell of array 0: the blank advance is made, and the bundle reaches the cell, which meets `when`. -/
def goesOn (s : State) (i : Instr) (k j : Nat) (when : LaneIn → Bool) : Bool :=
  match s.run? s.cur with
  | some r =>
    match s.advance r none true, r.flights with
    | .moved _ _, [f] =>
      let g := { f with adv := f.adv + 1 }
      r.arrays.eraseDups == r.arrays && r.owesBlank && (if ownClass i == .cellA then f.s2 == i && isNopCell f.s3 else isNopCell f.s2 && f.s3 == i)
        && (arrivals (benchOffsets r.arrays 0) f.skew g.adv).contains (0, k, j) && s.runsIn r g 0 k j
        && when (g.laneIn (s.cellInput r (benchOffsets r.arrays 0) g 0 k j) 0 k j (cellSlotOf i))
    | _, _ => false
  | none => false

theorem witness_bundlesInFlight :
    [Instr.iadd p0 9 3 2, .icmp p0 1 3 2 4, .movCell p0 9 3].all (fun i => goesOn (stateAt 5 cell0 (inFlight i 5 run0)) i 0 5 (isLive i)) = true
    ∧ goesOn (stateAt 32 cell0 (inFlight (.fadd p0 9 0 1) 1 run0)) (.fadd p0 9 0 1) 1 0 (isLive (.fadd p0 9 0 1)) = true
    ∧ (let s := stateAt 0 cell0 { inFlight (.iadd p0 9 3 2) 0 run0 with phase := .drain (issueFault 3 0) }
       match s.run? 0 with | some r => r.drains && (s.advance r none false).isMoved | none => false) = true := by decide +kernel

/-- The result of the bundle in flight is in the cell that it reaches: -3 + 5 = 2 (R139). -/
theorem test_in_flight :
    (match exec .blankAdvance (stateAt 5 cell0 (inFlight (.iadd p0 9 3 2) 5 run0)) with
     | .next t => some ((t.cellAt run0 0 0 5).getWord 9).val | _ => none) = some 2 := by decide +kernel

/-- Bundle 0 reaches (1, 0) and (0, 1) a step after (0, 0), whose ch and cv it wrote (R41, R42). -/
theorem witness_neighbours :
    (let cell : Cell := { Cell.reset with ch := ⟨⟨7, true⟩, ⟨8, true⟩⟩, cv := ⟨⟨5, true⟩, ⟨6, true⟩⟩ }
     let r := { inFlight (.iadd p0 9 3 2) 2 run0 with issued := [(0, 1, true)], num := 1 }
     let s := stateAt 0 cell r
     let f : Flight := { run0.flight (alone (.iadd p0 9 3 2)) 0 0 with adv := 2 }
     r.flights.map (·.num) == [0] && f.handler == false && f.vadv == 1 + f.num && r.issued.all (fun e => e.2 == (1 + e.1, f.skew))
       && s.runsIn r f 0 1 0 && s.runsIn r f 0 0 1 && !isNopCell f.s2
       && (s.cellInput r (benchOffsets r.arrays 0) f 0 1 0).north == cell.cv && (s.cellInput r (benchOffsets r.arrays 0) f 0 0 1).west == cell.ch
       && (s.cellInput r (benchOffsets r.arrays 0) f 0 31 1).south == VPair.zero) = true
    ∧ ({ cell0 with hist := [⟨3, false, VPair.zero, VPair.zero, []⟩] }.hist.all (fun h => h.handler || h.num < 4)) = true := by decide +kernel

/-- A west face with one element in the buffer of lane 0, and an east face with a pattern. -/
def streaming (r : Run) (c : Cell) (j : Nat) : State :=
  { stateOn 0 r with
    arrays := [(0, { ArrayState.reset with
      cells := [(j, c)]
      west := { Face.reset with log := [(0, .go 0 pat)], lanes := [(0, { Lane.reset with buf := [⟨0, 0, .elem ⟨⟨5, true⟩, ⟨6, true⟩⟩⟩] })] }
      east := { Face.reset with log := [(0, .go 0 { pat with src := false, base := 0x200 })] } })]
    tlb := (stateOn 0 r).tlb ++ [⟨.face 0 2, 1, 0, false, BitVec.ofNat 64 0x4004F⟩] }

theorem witness_takesAndPushes :
    (let r := inFlight (.movCell p0 1 50) 0 run0
     let s := streaming r cell0 0
     match s.advance r none true, r.flights with
     | .moved t _, [f] => (match (s.face 0 0).take f.stamp 0 with | .elem 0 0 e => e == ⟨⟨5, true⟩, ⟨6, true⟩⟩ | _ => false)
       && (t.face 0 0).lane 0 == ((s.face 0 0).taken 0 0 0).lane 0
     | _, _ => false) = true
    ∧ (let r := inFlight (.nopCell p0) 31 run0
       let l : Latch := ⟨1, 0, 0, 0, false, 0, true, false, [.word 52 (some 7) true]⟩
       let s := streaming r { cell0 with latches := [l] } 31
       match s.advance r none true with
       | .moved t _ => (match s.push 0 2 1 [0] (s.face 0 2) 0 0 0 with | .elem 0 0 _ va => va == 0x200 | _ => false)
         && ((t.face 0 2).lane 0).queue.map (fun e => (e.e, e.addr)) == [((t.cellAt r 0 0 31).ch, 0x200)] && (t.cellAt r 0 0 31).ch.lo == ⟨7, true⟩
       | _ => false) = true := by decide +kernel

/-- The record of a comparison collects what its cell contributes (R46). -/
theorem witness_contributions :
    cellPred (.icmp p0 1 3 2 4) = some 1
    ∧ (let r := { inFlight (.icmp p0 1 3 2 0) 0 run0 with records := [⟨0, 50, 50, some Flags.none, none, 0, false⟩] }
       let s := stateAt 0 cell0 r
       match s.advance r none true, r.flights with
       | .moved _ y, [f] => f.num == 0 && !f.handler && y.records.map (·.flags) == [some ⟨false, false, 0, 0xFFFFFFFE⟩]
       | _, _ => false) = true := by decide +kernel

/-! ## Witnesses: the later clauses of engines, dispatchers and the host -/

/-- A collective whose second member is of module 3, past its first chunk. -/
def farCmd : Cmd :=
  { aredCmd 0 with words := [0x200, 0x400, 100000 + 2 ^ 40 * 6 + 2 ^ 44 * 15, 0, 2, 0, 0, 0], members := [(0, 0), (3, 1)], next := 1, prog := 1 }

theorem witness_farMembers :
    isCollective farCmd.op = true ∧ farCmd.started = true ∧ farCmd.startAt + farCmd.tmo < (withCmds [farCmd]).ticks ∧ farCmd.next < farCmd.numChunks
    ∧ 1 < farCmd.collN ∧ 1 ∉ (withCmds [farCmd]).localRanks farCmd
    ∧ (match (withCmds [farCmd]).cmdAccess farCmd 0x600 .write with
       | (.ok acc, v0) => (v0.read farCmd.agent acc 1).poison.isNone && (v0.read farCmd.agent acc 1).bytes.length == 1
       | _ => false) = true := by decide +kernel

theorem witness_strandedTasks :
    (let s := { state0 with runs := [], dies := State.reset.dies.set 1 { Die.reset with alive := false } }
     let t := { failedTask with id := 1, desc := { failedTask.desc with aff := 2, target := 16 } }
     s.candidates { t with image := none } 0 = [] ∧ t.reruns? 0x10 = true ∧ (s.die 0).alive = true)
    ∧ (let s := { stateOn 0 run0 with tasks := [task0, { pinned with passedAt := some 0, eff := 1 }] }
       ((s.candidates pinned 0).length = 1)) := by decide +kernel

/-- The .sys barrier of context 1 stands open: with an arrival of two, and with none. -/
def sysBarrier (n : BitVec 32) (parties : List Nat) : Barrier := ⟨1, 5, 0, n, parties.map (fun h => (h, [])), 0, [], []⟩

theorem witness_hostBarriers :
    (∀ x ∈ ([] : List Barrier), x.full = false) ∧ (sysBarrier 3 [0]).arrived.length + (sysBarrier 3 [0]).hosts + 1 < (sysBarrier 3 [0]).count.toNat
    ∧ (sysBarrier 2 [0]).arrived.length + (sysBarrier 2 [0]).hosts + 1 = (sysBarrier 2 [0]).count.toNat
    ∧ (match exec (.hbarWrite 1) { state0 with barriers := [sysBarrier 2 [0]] } with
       | .next t => t.barriers.map (·.done) == [[0]] && (t.context 1).any (fun c => c.barGen == 1)
       | _ => false) = true := by decide +kernel

/-- The LLC holds a changed byte of a line. -/
def llcState : State := { state0 with llc := [(0x205, 9)], llcLines := [(8, ⟨none, 3⟩)] }
theorem witness_apertureWritesBack :
    Memory.wf llcState = true ∧ (∀ e ∈ llcState.llcTags, llcState.dirtyGran e.1 = true)
    ∧ (match exec (.hostApertureRead 0x200 8) llcState with
       | .next t => t.hostReads.getLast? == some [0, 0, 0, 0, 0, 9, 0, 0] && (tabFind t.llc 0x205).isNone && tabFind t.mem 0x205 == some 9
       | _ => false) = true := by decide +kernel

theorem witness_settingsRefused :
    isBusy (commanded 0x10 [0, 599, 1, 1]) 0x10 [0xFF, 0x303, 2 ^ 64 - 1, 2 ^ 64 - 1, 2 ^ 64 - 1] = true ∧ ¬ (600 ≤ ((commanded 0x10 [0, 599, 1,
      1]).mcmd[2]).toNat) := by decide +kernel

/-- A code that is no pair names no word: only S2 offends where its destination is cW.hi, though S3 writes ch.lo (R65, R66). -/
theorem test_illegal_pair :
    (let w : Bundle := ((encode (.smrd p0 51 2 7)).getD 0).zeroExtend 256 <<< (32 * SlotClass.cellA.index)
      ||| ((encode (.movCell p0 52 1)).getD 0).zeroExtend 256 <<< (32 * SlotClass.cellB.index)
     match legal w with | .error m => m == 0x04 | .ok _ => false) = true := by decide +kernel

/-! ## Witnesses: faults of the other accesses, waits that have ended, tags -/

/-- Sequencer commands with an address in a register, and what they need of it. -/
def addressed (a : BitVec 6) : List (Instr × Nat × Need) :=
  [(.waitr g0 a 7 1, 16, .read), (.acq g0 2 a, 8, .read), (.acqW g0 2 a 7 1, 8, .read), (.launch g0 a, 128, .read), (.fiqb g0 a 5 false true, 64,
    .read),
   (.fdcfg g0 a true, 64, .read), (.fdchain g0 a false, 64, .read), (.fdflush g0 a true, 16, .write)]

theorem witness_addressFaults :
    (addressed 9).all (fun p => isReady state0 p.1 && (run0.x 9).toNat % p.2.1 != 0) = true
    ∧ (addressed 10).all (fun p => isReady state0 p.1 && (run0.x 10).toNat % p.2.1 == 0
      && (accessOf state0 (run0.x 10) p.2.2).isNone) = true := by decide +kernel

/-- A wait of S0 beside a PRECV that holds the bundle. -/
def besidePrecv (i : Instr) : Slots := { alone i with s7 := .precv g0 8 7 11 2 }

/-- How the bundle's wait has ended, once its PRECV has held it. -/
def heldEnd (s : State) (r : Run) (i : Instr) : Option (Option Bool) :=
  match evalSlots r (s.leaving r) (besidePrecv i) with
  | .wait _ d => some d.r.waitEnd
  | _ => none

theorem witness_endedWaits :
    heldEnd state0 run0 (.waitf g0 7 1) = some (some true) ∧ heldEnd (withRun recorded) (recorded run0) (.waitf g0 5 1) = some (some false)
    ∧ heldEnd state0 { run0 with waitEnd := some false } (.waitf g0 7 1) = some (some false)
    ∧ heldEnd (withRun recorded) { recorded run0 with waitEnd := some true } (.waitf g0 5 1) = some (some true)
    ∧ heldEnd state0 run0 (.nopControl g0) = some none
    ∧ (accessOf state0 0x200 .read).isSome = true ∧ (run0.x 8).toNat % 16 = 0
    -- a BAR that has arrived and whose timeout has run out
    ∧ (let r := { run0 with arrived := some owed, barn := 2, stall := some (1, 10) }
       let s := { stateOn 0 r with barriers := [barrier 2 [0] []] }
       heldEnd s r (.bar g0 2 5 1) = some (some false) ∧ s.doneBar 0 = none ∧ (r.x 5).toNat ≤ 90 ∧ owed.num = r.num ∧ owed.pc = r.pc
         ∧ owed.scope = 2) := by
  decide +kernel

theorem witness_tags :
    cell0.pbase < 8
    ∧ (let s := stateCells { looping run0 with tag := some ⟨.rotate true, 0, 5⟩ } { cell0 with active := 0 }
       let r := { looping run0 with tag := some ⟨.rotate true, 0, 5⟩ }
       let e := s.entersAs r (.iadd p0 9 3 2)
       meets s (.iadd p0 9 3 2) && !s.runsIn e.1 e.2 0 0 0 && (s.cellAt r 0 0 0).latches.isEmpty && r.firstCells.contains (0, 0,
         0)) = true := by decide +kernel

/-! ## Witnesses: the bounds of the special functions -/

/-- 1.5, and the subnormal 3 × 2^−149, of which the reciprocal is too large. -/
theorem witness_bounds :
    fp32.read (0x3FC00000 : Word).toNat = .fin false 0xC00000 (-23) ∧ fp32.readIn 2 (0x3FC00000 : Word).toNat = fp32.read (0x3FC00000 : Word).toNat
    ∧ fp32.read (0x00000003 : Word).toNat = .fin false 3 (-149) := by decide +kernel

theorem witness_boundsReal :
    (|(1 : ℝ) * ((0xC00000 : ℕ) : ℝ) * (2 : ℝ) ^ (-23 : ℤ)|⁻¹ < (2 : ℝ) ^ (128 : ℕ)) ∧ (1 : ℝ) * ((0xC00000 : ℕ) : ℝ) * (2 : ℝ) ^ (-23 : ℤ) < 128
    ∧ (2 : ℝ) ^ (128 : ℕ) ≤ |(1 : ℝ) * ((3 : ℕ) : ℝ) * (2 : ℝ) ^ (-149 : ℤ)|⁻¹ := by
  norm_num [zpow_neg]

/-! ## Witnesses: host copies, packets, returns, reservations -/

/-- A host copy of 64 bytes under context 1, whose receipt lies at virtual address 0x200, with its control block at bus address 0x1000. -/
def hostWords : List Nat := [0x2000, 0x600, 64, 1, 0x200, 0, 0, 0]
def withBlock (words : List Nat) : State :=
  { withCmds [] with
    hostMem := (words.flatMap (leBytes 8)).zipIdx.filterMap (fun e => if e.1 = 0 then none else some (0x1000 + e.2, e.1)),
    tlb := state0.tlb ++ [⟨.die 0, 1, 0, false, BitVec.ofNat 64 0x4004F⟩] }
def hostCmd : Cmd := { copyCmd false with op := .hcopyWrite 0x1000, unit := 10, task := none, arrays := [], desc := 0x1000, words := hostWords, started := false }

theorem witness_hostCopies :
    [hostWords, [0x2000, 0x600, 64, 1, 0x201, 0, 0, 0], [0x2000, 0x600, 64, 9, 0x200, 0, 0, 0]].all (fun ws =>
      let s := withBlock ws
      let bs := (List.range 64).map (fun k => tabGet 0 s.hostMem (0x1000 + k))
      leWords 8 8 bs == ws && bs.length == 64) = true
    ∧ (match (withBlock hostWords).cmdAccess hostCmd 0x200 .write with | (.ok _, _) => true | _ => false) = true
    ∧ (match (withBlock hostWords).cmdAccess { hostCmd with ctx := 9 } 0x200 .write with | (.error _, _) => true | _ => false) = true
    ∧ { withBlock hostWords with cmds := [hostCmd] }.mayStart hostCmd = true
    ∧ (let x := { hostCmd with started := true, prog := 1 }; x.valid && x.units == 1 && x.parts.isEmpty) = true
    ∧ { hostCmd with words := [0x2000, 0x600, 64, 1, 0x200, 1, 0, 0] }.valid = false := by decide +kernel

theorem witness_windowRegisters :
    (let c := newContext 1 3 0 0 256 0 0
     state0.context c.num = some c ∧ 1 ≤ c.num ∧ c.num < 65536 ∧ boxOf c.lbWidx 3 = boxOf c.lbRidx 3) := by decide +kernel

/-- A packet of one flit, one hop before the stop of its destination. -/
def packet1 : Packet := ⟨7, 0, 1, 0, 4, false, 9, List.replicate 16 1, [(1, false)], [1], false⟩

theorem witness_sends :
    (let s := { state0 with packets := [packet 0] }
     match s.mayShip (packet 0) with
     | some x => ((packet 0).ship x).flitAt.all (fun f => f.1 < (packet 0).hops)
     | none => false) = true
    ∧ (let s := { state0 with packets := [packet1], runs := [(0, run0), (4, { run0 with head := 4, arrays := [4] })] }
       match s.mayShip packet1 with
       | some x => packet1.hops == x.hop + 1 && s.hasTask packet1 && s.roomFor packet1 && ((packet1.ship x).flitAt.getD 0 (0, false)).1 == 2
       | none => false) = true := by decide +kernel

/-- The bundle of an RFT at 0x60 goes through the cells, or waits for data. -/
theorem witness_returns :
    (let r := { flying run0 with phase := .returning 0x60 }
     r.drains && ((stateOn 0 r).advance r none false).isMoved && (match r.flights with | [f] => f.adv + 1 ≤ endPos [0] true | _ => false)) = true
    ∧ (let r := { run0 with flights := [{ run0.flight (alone (.nopCell p0)) 0 0 with adv := 62 }], phase := .returning 0x60 }
       r.drains && ((stateOn 0 r).advance r none false).isMoved && endPos [0] true == 62 && r.loads.isEmpty) = true
    ∧ ({ run0.loadTo 11 (.mem 0x40200 0 true none false) 5 none false with phase := .returning 0x60 }).loads[0]?
        = some ⟨some 11, .mem 0x40200 0 true none false, 5, none, false⟩ := by decide +kernel

theorem witness_movedReservation :
    (let t := { roaming 0 with reserved := some [0] }
     let s := { state0 with tasks := [task0, t] }
     let s0 := ({ s with runs := s.runs.filter (fun e => !(e.2.phase == .closed && s.commandsDone e.2)) } : State).dropEntering
     s0.tasks.filter (fun x => x.ready && x.reserved.isSome) = [t] ∧ s0.benchFree t [0] = false ∧ s0.fit t t.die = some [1])
    -- an image on two quads, of which one is lost
    ∧ (let s := { stateOn 0 run0 with dies := State.reset.dies.set 1 { Die.reset with alive := false } }
       let x : Task := { roaming 0 with
         desc := { task0.desc with aff := 2, shape := 8, restart := true, retry := 1 },
         image := some { image0 with run := { run0 with arrays := [0, 1, 2, 3, 16, 17, 18, 19] } } }
       x.reruns? 0x13 = true ∧ s.candidates x 0 = [] ∧ s.candidates { x with image := none } 0 ≠ [] ∧ ∀ e ∈ s.runs, e.2.task ≠ x.id) := by decide +kernel

theorem witness_heads :
    (let s := { state0 with requests := [request0, { request0 with who := 2 }] }
     s.requests[0]? = some request0 ∧ (∀ m x, m < 0 → s.requests[m]? = some x → x.channel = 5 → x.line ≠ request0.line)) := by
  exact ⟨rfl, fun m x h => absurd h (Nat.not_lt_zero m)⟩
/-! ## Well-formed instructions (R55, R57, R62, R63, R65, R130, R132, R174, R207, R216, R218, R221) -/

/-- An instruction in a slot whose class does not hold it. -/
theorem test_slotsRefuse :
    [(SlotClass.control, Instr.add g0 1 2 3 false false), (.scalar, .br g0 0 0), (.cellA, .ldc p0 1 2 0), (.cellA, .comm p0 0 2 0), (.cellB,
      .smm p0 0 0 0 2 true),
     (.selector, .nopInject g0), (.inject, .fdgo g0 true), (.drain, .figo g0 true true), (.engine, .sysrd g0 1 0), (.control, .powerLoss)].all
      (fun p => !wellFormed p.1 p.2) = true := by decide

theorem test_controlFieldsRefused :
    [Instr.br g0 5 0, .call g0 7 0, .loop g0 1 0 0 0, .loops g0 1 0 0 0, .rotcfg g0 0 3, .semset g0 7 1, .fence g0 6 0, .fence g0 0 3, .rel g0 6,
      .acq g0 7 1,
     .acqW g0 6 1 2 3, .bar g0 6 1 2, .sysrd g0 1 0x009, .sysrd g0 1 0x10B, .syswr g0 1 0x000,
       .syswr g0 1 0x104].all (fun i => !wellFormed .control i) = true := by decide

theorem test_otherFieldsRefused :
    wellFormed .scalar (.pref g0 3 1 0 0) = false ∧ wellFormed .selector (.mop 0 0 1 2 8 3) = false
      ∧ wellFormed .selector (.mop 0 0 1 2 4 3) = false
    ∧ wellFormed .selector (.tscale 0 0 1 0) = false ∧ wellFormed .inject (.fipad g0 1 true 3) = false
      ∧ wellFormed .inject (.fipad g0 1 true 2) = false := by decide

theorem test_laneFieldsRefused :
    [Instr.iadd p0 44 1 2, .iadd p0 1 61 2, .iadd p0 1 2 62, .icmp p0 1 61 2 0, .movi p0 48 0, .vset p0 63, .fabs p0 1 62, .fcvt p0 1 2 3 0,
      .frnd p0 1 2 5, .vtest p0 1 2 3 0,
     .rand p0 56 1 0].all (fun i => !wellFormed .cellB i) = true := by decide

theorem test_storeAndTileFieldsRefused :
    [Instr.ldc p0 44 1 0, .stc p0 61 1 0, .ldc2 p0 1 2 0, .stc2 p0 3 2 0, .comm p0 1 2 0,
      .comm p0 2 57 0].all (fun i => !wellFormed .cellB i) = true
    ∧ [Instr.smm p0 0 0 1 2 true, .smms p0 0 0 0 58 true, .sexpn p0 0 0 0 11 true, .smrd p0 1 0 0, .bpack p0 43 0 0 true 0, .smwr p0 1 0 0,
      .bunpk p0 57 0 true 0,
       .smout p0 0 8 false true, .smout p0 0 4 true true, .scmpr p0 44 1 true 0, .scmprPair p0 63 true 0,
         .smred p0 0 0 1 3].all (fun i => !wellFormed .cellA i) = true := by decide

theorem test_wellFormedAtTheLimits :
    wellFormed .control (.loop g0 63 7 7 2047) = true ∧ wellFormed .control (.semset g0 8 63) = true
      ∧ wellFormed .scalar (.pref g0 2 63 255 3) = true
    ∧ wellFormed .cellA (.fcvt p0 55 63 0 0) = true ∧ wellFormed .cellB (.stc2 p0 56 60 0) = true
      ∧ wellFormed .cellA (.sexpn p0 3 15 56 10 false) = true
    ∧ wellFormed .cellA (.smout p0 3 7 false false) = true ∧ wellFormed .inject (.fipad g0 0 false 2) = true := by decide

/-! ## Decoding: words that the specification writes out -/

theorem test_decodeControl :
    decodeSlot .control 0x300CA805 = some (.loop g0 6 2 5 5) ∧ decodeSlot .control 0x40000000 = some (.lbrk g0)
      ∧ decodeSlot .control 0x48000000 = some (.lbrka g0)
    ∧ decodeSlot .control 0x50680000 = some (.rotcfg g0 3 1) ∧ decodeSlot .control 0x78104B00 = some (.waitr g0 8 9 3)
      ∧ decodeSlot .control 0xD0000000 = some (.rft g0)
    ∧ decodeSlot .control 0xE8145800 = some (.docket g0 10 11) ∧ decodeSlot .control 0xF0000000 = some (.dcheck g0) := by decide

theorem test_decodeSystem :
    decodeSlot .control 0xD80E0C00 = some (.sysrd g0 7 0x060) ∧ decodeSlot .control 0xD8100C60 = some (.sysrd g0 8 0x063)
    ∧ decodeSlot .control 0xF8120000 = some (.stamp g0 9) ∧ decodeSlot .control 0xF8150000 = some (.stampS g0 10)
    ∧ decodeSlot .control 0x88200000 = some (.fence g0 2 0) ∧ decodeSlot .control 0x90200000 = some (.rel g0 2)
    ∧ decodeSlot .control 0x98310000 = some (.acq g0 3 4) := by decide

theorem test_decodeScalar :
    decodeSlot .scalar 0x900A2003 = some (.ld g0 10 8 0 3) ∧ decodeSlot .scalar 0x98061C02 = some (.lda g0 6 7 0 false)
    ∧ decodeSlot .scalar 0x9C050C07 = some (.stl g0 5 3 1 true) ∧ decodeSlot .scalar 0xA00913FB = some (.ldlast g0 9 4 0xFE 3)
    ∧ decodeSlot .scalar 0x380A000F = some (.andi g0 10 15) ∧ decodeSlot .scalar 0x740C2803 = some (.cmpi g0 1 4 10 3) := by decide

theorem test_decodeCells :
    decodeSlot .cellA 0x04628D90 = some (.iadd ⟨false, 3⟩ 5 6 50) ∧ decodeSlot .cellB 0x04628D90 = some (.iadd ⟨false, 3⟩ 5 6 50)
    ∧ decodeSlot .cellA 0xE8008228 = some (.smcmp p0 0 1 1 5 0) ∧ decodeSlot .cellB 0xE8008228 = none
    ∧ decodeSlot .cellA 0xF0106441 = some (.sexpn p0 2 0 50 2 true) ∧ decodeSlot .cellA 0xCC088960 = some (.smm p0 1 1 4 44 false) := by decide

theorem test_decodeFacesAndEngines :
    decodeSlot .selector 0x10014000 = some (.selSelector 0 0 5 0 0) ∧ decodeSlot .inject 0x30082811 = some (.fiqb g0 4 5 true true)
    ∧ decodeSlot .drain 0x10000010 = some (.fdgo g0 true) ∧ decodeSlot .engine 0x1928AACD = some (.gath ⟨false, 2⟩ 20 21 22 true 5) := by decide

/-- The all-zero word is NOP in every class (R52), and an operation that no row has decodes to nothing (R65). -/
theorem test_decodeNop :
    decodeSlot .control 0 = some (.nopControl g0) ∧ decodeSlot .scalar 0 = some (.nopScalar g0) ∧ decodeSlot .cellA 0 = some (.nopCell p0)
    ∧ decodeSlot .selector 0 = some .nopSelector ∧ decodeSlot .engine 0 = some (.nopEngine g0) ∧ decodeSlot .selector 0xF0000000 = none
    ∧ decodeSlot .control 0x40000001 = none := by decide

/-! ## One step -/

/-- The sequencer, the cell (0, 0) and an s register after the issue of one instruction. -/
def after (s : State) (i : Instr) : Option Run := match exec i s with | .next t => t.run? 0 | _ => none
def cellAfter (i : Instr) : Option Cell := match exec i stateC with | .next t => some (t.cellAt run0 0 0 0) | _ => none
def sAfter (i : Instr) (n : Nat) : Option DWord := (after state0 i).map (·.sval n)

theorem test_add_wraps : sAfter (.add g0 11 7 5 false false) 11 = some 2 ∧ sAfter (.add g0 0 7 5 false false) 0 = some 0 := by decide +kernel
theorem test_mulh_signs : sAfter (.mulh g0 11 6 7 false false) 11 = some 0
  ∧ sAfter (.mulhu g0 11 6 7 false false) 11 = some 0x7FFFFFFFFFFFFFFF := by decide +kernel
/-- DIV of −2^63 by −1 gives −2^63 (R124). -/
theorem test_div_overflow : sAfter (.div g0 11 6 7 false false) 11 = some 0x8000000000000000
  ∧ sAfter (.rem g0 11 6 7 false false) 11 = some 0 := by decide +kernel
theorem test_div_zero : (after state0 (.div g0 11 6 0 false false)).map (·.phase) = some (.drain { issueFault 0x003 0 with tpc := 0x40 }) := by decide +kernel
theorem test_sra_lui : sAfter (.sra g0 11 6 5 false false) 11 = some 0xF000000000000000
  ∧ sAfter (.lui g0 5 0xABCD) 5 = some 0x3ABCD := by decide +kernel
theorem test_pc_moves : (after state0 (.nopControl g0)).map (fun r => (r.pc, r.num)) = some (0x60, 1) := by decide +kernel
theorem test_cmpi_unsigned : (after state0 (.cmpi g0 4 3 7 0x3FE)).map (·.qval 3) = some false
  ∧ (after state0 (.cmpi g0 5 3 7 0x3FE)).map (·.qval 3) = some true := by
  decide +kernel

/-- A store's bytes are little-endian (R4), and a load of one of them is zero-extended (R126). -/
theorem test_store_then_load :
    (match exec (.st g0 6 4 0 3) state0 with
     | .next t => (match exec (.ld g0 11 4 7 0) t with | .next u => (u.run? 0).map (·.sval 11) | _ => none)
     | _ => none) = some 0x80 := by decide +kernel

/-- LOAD from farther than L1 marks its destination empty (R22). -/
theorem test_load_far : (after state0 (.ld g0 11 8 0 3)).map (fun r => ((r.sreg 11).full, r.loads.length)) = some (false, 1) := by decide +kernel

/-- The constant −2.5 is built by MOVI −1, MOVHI 0x40 and MOVHI 0 (R141). -/
theorem test_constant :
    (cellAfter (.movi p0 5 0x7FFF)).map (fun c => (c.getWord 5).val) = some 0xFFFFFFFF
    ∧ (match exec (.movhi p0 5 0x40) (stateCells run0 (cell0.setWord 5 ⟨0xFFFFFFFF,
      true⟩)) with | .next t => some ((t.cellAt run0 0 0 0).getWord 5).val | _ => none) = some 0xFFFF8040
    ∧ (match exec (.movhi p0 5 0) (stateCells run0 (cell0.setWord 5 ⟨0xFFFF8040,
      true⟩)) with | .next t => some ((t.cellAt run0 0 0 0).getWord 5).val | _ => none) = some 0xC0200000 := by
  decide +kernel

/-- An invalid source nullifies (R135). -/
theorem test_iadd_invalid : (cellAfter (.iadd p0 9 7 2)).map (fun c => (c.getWord 9).v) = some false
    ∧ (cellAfter (.iadd p0 9 3 2)).map (fun c => c.getWord 9) = some ⟨2, true⟩ := by decide +kernel
theorem test_isra : (cellAfter (.isra p0 9 3 2)).map (fun c => (c.getWord 9).val) = some 0xFFFFFFFF := by decide +kernel
theorem test_icmp_signed : (cellAfter (.icmp p0 5 3 2 2)).map (fun c => c.p.getLsbD 5) = some true
  ∧ (cellAfter (.icmp p0 5 3 2 4)).map (fun c => c.p.getLsbD 5) = some false := by
  decide +kernel
/-- FADD lands after four steps: 1 + (−2.5) = −1.5 (R39, R143). -/
theorem test_fadd_latency : (cellAfter (.fadd p0 9 0 1)).map (fun c => (c.latches.map (fun h => (h.rem, h.lands)), (c.getWord 9).val))
    = some ([(3, [.word 9 (some 0xBFC00000) true])], 0) := by decide +kernel
theorem test_stc_ldc :
    (cellAfter (.stc p0 1 4 1)).map (fun c => c.load4 0x24) = some 0xC0200000
      ∧ (cellAfter (.ldc p0 9 4 0)).map (fun c => c.latches.map (·.rem)) = some [1] := by decide +kernel
/-- An even sum of squares: the product of two tiles of zeros adds nothing to 2.0. -/
theorem test_smm : (cellAfter (.smm p0 0 0 10 12 false)).map (fun c => c.latches.map (fun h => (h.rem, h.lands)))
    = some [(3, [.acc 0 ((List.range 16).map (fun i => (i, 0x40000000))) true])] := by decide +kernel
theorem test_smcmp : (cellAfter (.smcmp p0 0 0 1 5 0)).map (fun c => c.p.getLsbD 5) = some true := by decide +kernel

/-- Pass 0 to pass 1 of the table of R228: n = 3 and S = 3. -/
theorem test_loop_passes :
    (after (withRun (atEnd 2 3)) (.nopControl g0)).map (fun r => (r.pc, (vget r.levels 0 Level.reset).count,
      (vget r.levels 0 Level.reset).index)) = some (0x40, 1, 1)
    ∧ (after (withRun (atEnd 0 3)) (.nopControl g0)).map (fun r => (r.pc, (vget r.levels 0 Level.reset).stages,
      (vget r.levels 0 Level.reset).count)) = some (0x40, 2, 0)
    ∧ (after (withRun (atEnd 0 1)) (.nopControl g0)).map (fun r => (r.pc, r.depth)) = some (0xA0, 0) := by decide +kernel

theorem test_call_ret : (after state0 (.call g0 0 2)).map (fun r => (r.pc, r.csp, vget r.cstk 0 0)) = some (0x80, 1, 0x60)
    ∧ (after (withRun called) (.ret g0)).map (fun r => (r.pc, r.csp)) = some (0x60, 0) := by decide +kernel
theorem test_br_backward : (after state0 (.br g0 0 0xFFFFF)).map (·.pc) = some 0x20
  ∧ (after state0 (.br g0 1 0xFFFFF)).map (·.pc) = some 0x60 := by decide +kernel
theorem test_jmpi_misaligned : (after state0 (.jmpi g0 5)).map (·.phase) = some (.drain { issueFault 0x002 3 with tpc := 0x40 }) := by decide +kernel

/-- A handler takes over with s1 in the first word of its frame, and RFT goes on behind it (R293, R296). -/
theorem test_trap_entry :
    (match exec .trapEntry (withRun (fun r => drained 0x00F (r.setS 1 0x1234))) with
     | .next t => (t.run? 0).map (fun r => (r.pc, r.trap.active, leNat (t.storeBytes 0 0x300400 8)))
     | _ => none) = some (0x2000, true, 0x1234) := by decide +kernel
theorem test_rft : (after (withRun handling) (.rft g0)).map (fun r => (r.pc, r.trap.active, r.num)) = some (0x60, false, 5) := by decide +kernel

theorem test_sysrd : sAfter (.sysrd g0 11 0x061) 11 = some 6 ∧ sAfter (.sysrd g0 11 0x003) 11 = some 0x01000000 := by decide +kernel
theorem test_syswr_invalid : (after state0 (.syswr g0 7 0x005)).map (·.phase) = some (.drain { issueFault 0x00A 0 with tpc := 0x40 }) := by decide +kernel
theorem test_mrange : (after state0 (.mrange 0 0 4 7 2)).map (·.mask 2) = some 0xF0
  ∧ (after state0 (.mop 0 0 2 0 4 3)).map (·.mask 3) = some 0 := by decide +kernel

/-- 32 bytes of zeros have the CRC-32C 0x8A9136AA (RFC 3720, B.4). -/
theorem test_crc : ~~~(crcFeed 0xFFFFFFFF (List.replicate 32 0)) = 0x8A9136AA := by decide +kernel
theorem test_receipt : receiptBytes 3 0 0 0x11223344 0x55 = [3, 0, 0, 0, 0x44, 0x33, 0x22, 0x11, 0x55, 0, 0, 0, 0, 0, 0, 0] := by decide +kernel

/-- The first step after reset runs a word of each class that is placed where it fetches (log entry 15). -/
theorem test_first_step :
    [0x40000000, 0x900A2003].all (fun w => match step (State.reset.withFetchWord 32 w) with | .next t => (t.run? 0).isSome | _ => false) = true
    ∧ decodeTableWord 32 0x900A2003 ≠ none := by decide +kernel


/-- FIPS-197, C.3. -/
theorem test_aes :
    aesEncrypt (aesRoundKeys ((List.range 32).map (BitVec.ofNat 8))) ((List.range 16).map (fun i => BitVec.ofNat 8 (17 * i)))
      = leBytes 16 0x8960494B9049FCEABF456751CAB7A28E := by decide +kernel
theorem test_aes_back :
    aesDecrypt (aesRoundKeys ((List.range 32).map (BitVec.ofNat 8))) (leBytes 16 0x8960494B9049FCEABF456751CAB7A28E)
      = (List.range 16).map (fun i => BitVec.ofNat 8 (17 * i)) := by decide +kernel
/-- FIPS 180-4: the first and the last eight bytes of the SHA-384 of "abc". -/
theorem test_sha384 :
    (let h := sha384 [0x61, 0x62, 0x63]
     (h.length, beNat (h.take 8), beNat (h.drop 40))) = (48, 0xCB00753F45A35E8B, 0x58BAECA134C825A7) := by decide +kernel
/-- The example of R309. -/
theorem test_hbmPlace :
    State.reset.hbmPlace 0x1234560048
      = { stack := 1, channel := 21, channelLine := 0x468AC0, bankGroup := 2, bank := 1, burst := 12, row := 0x2345, subChannel := 0 } := by decide +kernel
/-- MSTAT shows its error in bits 15 to 8, and MKEY0 reads 0 (R4, R318). -/
theorem test_hostRead :
    { state0 with mstat := 3, merr := 2 }.readWindow 0x148 = 0x203 ∧ { state0 with mkey := vset state0.mkey 0 9 }.readWindow 0x180 = 0
    ∧ { state0 with mcmd := vset state0.mcmd 1 9 }.readWindow 0x108 = 9 := by decide +kernel

end Sys2Proof.Tests
end

section
/-!
PROOF. The s registers of a sequencer: their names, rotation and writes (01_machine.md R21, R22, 17_loops.md R232).
-/

namespace Sys2Proof.Machine

/-! ## The physical register of a name (R232) -/

/-- A name below the rotating region names its own register. -/
theorem sPhys_below (r : Run) {n : Nat} (h : n < 64 - r.rs) : r.sPhys n = n := by
  have hn : ¬ 64 - r.rs ≤ n := by omega
  simp [Run.sPhys, rotName, hn]

/-- A name of the rotating region is moved on by the base, within the region. -/
theorem sPhys_region (r : Run) {k : Nat} (h : k < r.rs) : r.sPhys (64 - r.rs + k) = 64 - r.rs + (k + r.sbase) % r.rs := by
  have hz : r.rs ≠ 0 := by omega
  simp [Run.sPhys, rotName, hz, h]

/-- A name lies below the region, or at a place of it. -/
theorem name_cases {rs n : Nat} (hn : n < 64) (hr : rs ≤ 64) : n < 64 - rs ∨ ∃ k, k < rs ∧ n = 64 - rs + k := by
  rcases Nat.lt_or_ge n (64 - rs) with h | h
  · exact .inl h
  · exact .inr ⟨n - (64 - rs), by omega, by omega⟩

theorem sPhys_lt (r : Run) {n : Nat} (hn : n < 64) (hr : r.rs ≤ 64) : r.sPhys n < 64 := by
  rcases name_cases hn hr with h | ⟨k, hk, rfl⟩
  · rwa [sPhys_below r h]
  · have := Nat.mod_lt (k + r.sbase) (show r.rs > 0 by omega)
    rw [sPhys_region r hk]
    omega

/-- Different names name different registers: a rotation moves the places of its region round. -/
theorem sPhys_inj (r : Run) {n m : Nat} (hn : n < 64) (hm : m < 64) (hr : r.rs ≤ 64) (h : r.sPhys n = r.sPhys m) : n = m := by
  rcases name_cases hn hr with hn | ⟨k, hk, rfl⟩ <;> rcases name_cases hm hr with hm | ⟨j, hj, rfl⟩
  · rwa [sPhys_below r hn, sPhys_below r hm] at h
  · rw [sPhys_below r hn, sPhys_region r hj] at h
    omega
  · rw [sPhys_region r hk, sPhys_below r hm] at h
    omega
  · rw [sPhys_region r hk, sPhys_region r hj] at h
    have hc : k ≡ j [MOD r.rs] := Nat.ModEq.add_right_cancel' r.sbase (Nat.add_left_cancel h)
    rw [hc.eq_of_lt_of_lt hk hj]

/-! ## A write to an s register (R22) -/

theorem setS_of_ne (r : Run) {n : Nat} (v : DWord) (h : n ≠ 0) :
    r.setS n v = { r with
      s := vset r.s (r.sPhys n) (SReg.of v),
      loads := r.loads.map (fun l => if l.dst == some (r.sPhys n) then { l with dst := none } else l) } := by
  simp [Run.setS, h]

theorem sreg_of_ne (r : Run) {n : Nat} (h : n ≠ 0) : r.sreg n = vget r.s (r.sPhys n) (SReg.of 0) := by simp [Run.sreg, h]

/-- A write is read back, full and without a mark. -/
theorem sreg_setS_self (r : Run) {n : Nat} (v : DWord) (h : n ≠ 0) (hp : r.sPhys n < 64) : (r.setS n v).sreg n = SReg.of v := by
  rw [sreg_of_ne _ h, setS_of_ne r v h]
  exact (vget_vset ..).trans (if_pos ⟨rfl, hp⟩)

/-- A write leaves the registers of other places as they were. -/
theorem sreg_setS_ne (r : Run) {n m : Nat} (v : DWord) (h : n ≠ 0) (hm : m ≠ 0) (hp : r.sPhys m ≠ r.sPhys n) :
    (r.setS n v).sreg m = r.sreg m := by
  rw [sreg_of_ne _ hm, sreg_of_ne _ hm, setS_of_ne r v h]
  exact (vget_vset ..).trans (if_neg fun e => hp e.1)

/-- No outstanding load has the register of a write as its destination any more. -/
theorem setS_loads_dst (r : Run) {n : Nat} (v : DWord) (h : n ≠ 0) : ∀ l ∈ (r.setS n v).loads, l.dst ≠ some (r.sPhys n) := by
  rw [setS_of_ne r v h]
  intro l hl
  obtain ⟨x, -, rfl⟩ := List.mem_map.1 hl
  by_cases hx : x.dst = some (r.sPhys n)
  · simp [hx]
  · simp [hx]

/-! ## The statement -/

/-- Settles O9: a register that is written is the one that its name then names, and the rotation permutes the places of its region. -/
theorem scalarRegistersReadBack : Obligations.ScalarRegistersReadBack := by
  refine ⟨fun r v b m => ⟨rfl, rfl, rfl, rfl, rfl, rfl, rfl⟩, fun r n m v hn hp => ?_, fun r n m hn hm hr => ?_⟩
  · refine ⟨sreg_setS_self r v hn hp, fun hm => sreg_setS_ne r v hn hm, setS_loads_dst r v hn, ?_⟩
    rw [setS_of_ne r v hn]
    exact ⟨rfl, rfl, rfl, rfl⟩
  · exact ⟨sPhys_inj r hn hm hr, sPhys_lt r hn hr, sPhys_below r, fun k hk h => hk ▸ sPhys_region r h⟩

end Sys2Proof.Machine
end

section
/-!
PROOF. What arrives at a bench: contributions to flag records (03_wave.md R46 to R48), results in cells (R39, R40), load data (01_machine.md R22).
-/

namespace Sys2Proof.Machine

/-! ## What the cells of an advance contribute to a record (R46) -/

/-- A record's flags after contributions, each with its row. -/
def Flags.collect (f : Flags) (l : List (Nat × Bool)) : Flags := l.foldl (fun g p => g.contribute p.1 p.2) f

theorem Flags.collect_append (f : Flags) (l k : List (Nat × Bool)) : f.collect (l ++ k) = (f.collect l).collect k := List.foldl_append

theorem Flags.collect_cons (f : Flags) (p : Nat × Bool) (l : List (Nat × Bool)) : f.collect (p :: l) = (f.contribute p.1 p.2).collect l := rfl

/-- Bit `k` of a row's mask is the bit of its own row alone. -/
theorem rowBit (row k : Nat) (hk : k < 32) : (1#32 <<< row).getLsbD k = true ↔ k = row := by
  simp only [BitVec.getLsbD_shiftLeft, BitVec.getLsbD_one, Bool.and_eq_true, decide_eq_true_eq, Bool.not_eq_true']
  constructor
  · rintro ⟨⟨-, h1⟩, h2⟩
    simp at h1 h2
    omega
  · rintro rfl
    simp [hk]

/-- ANY and the row OR of a contribution. -/
theorem Flags.contribute_any (f : Flags) (row : Nat) (b : Bool) : (f.contribute row b).any = true ↔ f.any = true ∨ b = true := by
  simp [Flags.contribute]

theorem Flags.contribute_all (f : Flags) (row : Nat) (b : Bool) : (f.contribute row b).all = true ↔ f.all = true ∧ b ≠ false := by
  simp [Flags.contribute]

theorem Flags.contribute_rowOr (f : Flags) (row k : Nat) (b : Bool) (hk : k < 32) :
    (f.contribute row b).rowOr.getLsbD k = true ↔ f.rowOr.getLsbD k = true ∨ (k, true) = (row, b) := by
  cases b
  · simp [Flags.contribute]
  · simp only [Flags.contribute, if_true, BitVec.getLsbD_or, Bool.or_eq_true, rowBit row k hk, Prod.mk.injEq, and_true]

theorem Flags.contribute_rowAnd (f : Flags) (row k : Nat) (b : Bool) (hk : k < 32) :
    (f.contribute row b).rowAnd.getLsbD k = true ↔ f.rowAnd.getLsbD k = true ∧ (k, false) ≠ (row, b) := by
  cases b
  · simp only [Flags.contribute, Bool.false_eq_true, if_false, BitVec.getLsbD_and, BitVec.getLsbD_not, hk, decide_true, Bool.true_and,
      Bool.and_eq_true, Bool.not_eq_true', ← Bool.not_eq_true, rowBit row k hk, Prod.mk.injEq, and_true, ne_eq]
  · simp [Flags.contribute]

theorem Flags.collect_any (f : Flags) (l : List (Nat × Bool)) : (f.collect l).any = true ↔ f.any = true ∨ ∃ k, (k, true) ∈ l := by
  induction l generalizing f with
  | nil => simp [Flags.collect]
  | cons p l ih =>
    rw [Flags.collect_cons, ih, Flags.contribute_any, or_assoc]
    obtain ⟨row, b⟩ := p
    cases b <;> simp

theorem Flags.collect_all (f : Flags) (l : List (Nat × Bool)) : (f.collect l).all = true ↔ f.all = true ∧ ¬ ∃ k, (k, false) ∈ l := by
  induction l generalizing f with
  | nil => simp [Flags.collect]
  | cons p l ih =>
    rw [Flags.collect_cons, ih, Flags.contribute_all, and_assoc]
    obtain ⟨row, b⟩ := p
    cases b <;> simp

theorem Flags.collect_rowOr (f : Flags) (l : List (Nat × Bool)) {k : Nat} (hk : k < 32) :
    (f.collect l).rowOr.getLsbD k = true ↔ f.rowOr.getLsbD k = true ∨ (k, true) ∈ l := by
  induction l generalizing f with
  | nil => simp [Flags.collect]
  | cons p l ih => rw [Flags.collect_cons, ih, Flags.contribute_rowOr _ _ _ _ hk, or_assoc, List.mem_cons]

theorem Flags.collect_rowAnd (f : Flags) (l : List (Nat × Bool)) {k : Nat} (hk : k < 32) :
    (f.collect l).rowAnd.getLsbD k = true ↔ f.rowAnd.getLsbD k = true ∧ (k, false) ∉ l := by
  induction l generalizing f with
  | nil => simp [Flags.collect]
  | cons p l ih => rw [Flags.collect_cons, ih, Flags.contribute_rowAnd _ _ _ _ hk, and_assoc, List.mem_cons, not_or]

/-- What a cell gives its bundle's record, with its row. -/
def CellRes.gifts (c : CellRes) : List (Nat × Bool) := c.contrib.map (fun b => (c.i, b))

theorem CellRes.mem_gifts (c : CellRes) (k : Nat) (b : Bool) : (k, b) ∈ c.gifts ↔ k = c.i ∧ b ∈ c.contrib := by
  simp only [CellRes.gifts, List.mem_map, Prod.mk.injEq]
  constructor
  · rintro ⟨x, hx, rfl, rfl⟩
    exact ⟨rfl, hx⟩
  · rintro ⟨rfl, hb⟩
    exact ⟨b, hb, rfl, rfl⟩

/-- What cells leave of a record: who its bundle is, and its flags with what the cells give when they step that bundle. -/
def Record.Took (num : Nat) (handler : Bool) (l : List (Nat × Bool)) (x z : Record) : Prop :=
  z.num = x.num ∧ z.handler = x.handler
    ∧ z.flags = if x.num = num ∧ x.handler = handler then x.flags.map (·.collect l) else x.flags

theorem Record.took_nil (num : Nat) (handler : Bool) (x : Record) : Record.Took num handler [] x x := by
  refine ⟨rfl, rfl, ?_⟩
  simp [Flags.collect]

theorem Record.Took.trans {num : Nat} {handler : Bool} {l k : List (Nat × Bool)} {x y z : Record} (h : Record.Took num handler l x y)
    (g : Record.Took num handler k y z) : Record.Took num handler (l ++ k) x z := by
  obtain ⟨h1, h2, h3⟩ := h
  obtain ⟨g1, g2, g3⟩ := g
  refine ⟨g1.trans h1, g2.trans h2, ?_⟩
  rw [g3, h1, h2, h3]
  split
  · simp [Function.comp_def, Flags.collect_append]
  · rfl

/-- One cell's contribution to the records. -/
theorem contribute_took (r : Run) (c : CellRes) {n : Nat} {x : Record} (hx : r.records[n]? = some x) :
    ∃ z, (r.contribute c).records[n]? = some z ∧ Record.Took c.f.num c.f.handler c.gifts x z := by
  unfold Run.contribute
  split
  · rename_i h
    simp only [Bool.and_eq_true, List.isEmpty_iff] at h
    refine ⟨x, hx, ?_⟩
    rw [CellRes.gifts, h.1.1]
    exact Record.took_nil _ _ x
  · simp only [Run.updRecord, List.getElem?_map, hx, Option.map_some]
    refine ⟨_, rfl, ?_⟩
    by_cases hb : x.num = c.f.num ∧ x.handler = c.f.handler
    · rw [if_pos (by simp [hb])]
      exact ⟨rfl, rfl, by simp [hb, Flags.collect, CellRes.gifts, List.foldl_map]⟩
    · rw [if_neg (by simpa using hb)]
      exact ⟨rfl, rfl, (if_neg hb).symm⟩

/-- The contributions of cells that step one bundle. -/
theorem contributes_took (num : Nat) (handler : Bool) (l : List CellRes) (hl : ∀ c ∈ l, c.f.num = num ∧ c.f.handler = handler) (r : Run)
    {n : Nat} {x : Record} (hx : r.records[n]? = some x) :
    ∃ z, (l.foldl Run.contribute r).records[n]? = some z ∧ Record.Took num handler (l.flatMap CellRes.gifts) x z := by
  induction l generalizing r x with
  | nil => exact ⟨x, hx, Record.took_nil _ _ x⟩
  | cons c l ih =>
    obtain ⟨⟨rfl, rfl⟩, hl⟩ := List.forall_mem_cons.1 hl
    obtain ⟨y, hy, h⟩ := contribute_took r c hx
    obtain ⟨z, hz, g⟩ := ih hl (r.contribute c) hy
    exact ⟨z, hz, h.trans g⟩

theorem leaves_records (l : List Flight) (r : Run) : (l.foldl Run.leave r).records = r.records := by
  induction l generalizing r with
  | nil => rfl
  | cons f l ih => exact (ih _).trans (by unfold Run.leave; split <;> rfl)

theorem countRecords_flags (r : Run) (issue blank : Bool) : (r.countRecords issue blank).records.map (·.flags) = r.records.map (·.flags) := by
  unfold Run.countRecords
  split
  · rfl
  · simp [Function.comp_def]

/-- An advance changes the flags of its records by what its cells contribute alone. -/
theorem advance_flags {s t : State} {r y : Run} {new : Option Flight} {blank : Bool} (h : s.advance r new blank = .moved t y) :
    y.records.map (·.flags) = ((s.stepsOf r new).foldl Run.contribute r).records.map (·.flags) := by
  unfold State.advance at h
  dsimp only at h
  split at h
  · cases h
  · split at h
    · cases h
    · injection h with _ h
      subst h
      exact (countRecords_flags _ _ _).trans (congrArg (List.map (·.flags)) (leaves_records _ _))

theorem slotOut_idle {s : State} {r : Run} {f : Flight} {m i j : Nat} (h : s.runsIn r f m i j = false) (offs : List Nat) (n : Nat) (x : Instr) :
    (s.slotOut r offs f m i j n x).contrib = none := by
  unfold State.slotOut
  rw [if_neg (by simp [h])]
  split <;> rfl

/-- What a cell contributes at its step of a bundle is what the bundle's slots contribute where it executes. -/
theorem mem_cellStep_gifts (s : State) (r : Run) (offs : List Nat) (f : Flight) (m i j k : Nat) (b : Bool) :
    (k, b) ∈ (s.cellStep r offs f m i j).gifts ↔ k = i ∧ s.runsIn r f m i j = true
      ∧ ∃ p ∈ [(0, f.s2), (1, f.s3)], ((f.laneIn (s.cellInput r offs f m i j) m i j p.1).slot p.2).contrib = some b := by
  rw [CellRes.mem_gifts]
  unfold State.cellStep
  dsimp only
  split
  · rename_i hk
    refine and_congr_right' (iff_of_false List.not_mem_nil ?_)
    rintro ⟨hr, p, hp, hc⟩
    unfold State.marksCell at hk
    simp only [hr, Bool.true_or, Bool.true_and, Bool.not_eq_true', Bool.or_eq_false_iff, Bool.not_eq_false', Bool.and_eq_true] at hk
    obtain ⟨⟨⟨⟨h2, h3⟩, -⟩, -⟩, -⟩ := hk
    simp only [List.mem_cons, List.not_mem_nil, or_false] at hp
    rcases hp with rfl | rfl
    · rw [slot_nop _ _ h2] at hc
      cases hc
    · rw [slot_nop _ _ h3] at hc
      cases hc
  · cases hr : s.runsIn r f m i j with
    | true => simp [State.slotOut, hr]
    | false => simp [slotOut_idle hr]

theorem cellStep_flight (s : State) (r : Run) (offs : List Nat) (f : Flight) (m i j : Nat) : (s.cellStep r offs f m i j).f = f := by
  unfold State.cellStep
  dsimp only
  split <;> rfl

/-- A bundle's slot gives a contribution in a cell that the bundle reaches at the advance that a wave makes. -/
def State.gives (s : State) (r : Run) (f : Flight) (m k j : Nat) (b : Bool) : Prop :=
  let g := { f with adv := f.adv + 1 }
  f.reaches r.arrays (m, k, j) ∧ s.runsIn r g m k j = true
    ∧ ∃ p ∈ [(0, g.s2), (1, g.s3)], ((g.laneIn (s.cellInput r (benchOffsets r.arrays 0) g m k j) m k j p.1).slot p.2).contrib = some b

/-- Of a wave of one bundle, row `k` gives what a cell of that row gives. -/
theorem mem_stepsOf_gifts {s : State} {r : Run} {f : Flight} (hf : r.flights = [f]) (k : Nat) (b : Bool) :
    (k, b) ∈ (s.stepsOf r none).flatMap CellRes.gifts ↔ ∃ m j, s.gives r f m k j b := by
  have hs : steppedFlights r none = [{ f with adv := f.adv + 1 }] := by simp [steppedFlights, hf]
  simp only [State.stepsOf, hs, List.flatMap_cons, List.flatMap_nil, List.append_nil, List.mem_flatMap, List.mem_map]
  constructor
  · rintro ⟨x, ⟨⟨m, i, j⟩, hc, rfl⟩, h⟩
    obtain ⟨rfl, h⟩ := (mem_cellStep_gifts ..).1 h
    exact ⟨m, j, hc, h⟩
  · rintro ⟨m, j, hc, h⟩
    exact ⟨_, ⟨(m, k, j), hc, rfl⟩, (mem_cellStep_gifts ..).2 ⟨rfl, h⟩⟩

/-- The records after the advance of a wave of one bundle. -/
theorem advance_took {s t : State} {r y : Run} {f : Flight} {blank : Bool} {n : Nat} {c : Record} (hf : r.flights = [f])
    (h : s.advance r none blank = .moved t y) (hc : r.records[n]? = some c) :
    (y.records[n]?).map (·.flags) = some (if c.num = f.num ∧ c.handler = f.handler then
      c.flags.map (·.collect ((s.stepsOf r none).flatMap CellRes.gifts)) else c.flags) := by
  have hl : ∀ x ∈ s.stepsOf r none, x.f.num = f.num ∧ x.f.handler = f.handler := by
    intro x hx
    obtain ⟨g, hg, e, -, rfl⟩ := mem_stepsOf hx
    simp only [steppedFlights, hf, List.map_cons, List.map_nil, Option.map_none, Option.toList_none, List.append_nil, List.mem_singleton] at hg
    subst hg
    rw [cellStep_flight]
    exact ⟨rfl, rfl⟩
  obtain ⟨z, hz, -, -, e⟩ := contributes_took f.num f.handler _ hl r hc
  rw [← List.getElem?_map, advance_flags h, List.getElem?_map, hz, ← e]
  rfl

/-- The record of a bundle alone in the wave collects what its cells give: ANY and the row OR a 1, ALL and the row AND a 0. -/
theorem advance_collects {s t : State} {r y : Run} {f : Flight} {blank : Bool} {n : Nat} {c : Record} {fl : Flags} (hf : r.flights = [f])
    (h : s.advance r none blank = .moved t y) (hc : r.records[n]? = some c) (hn : c.num = f.num) (hh : c.handler = f.handler)
    (hfl : c.flags = some fl) :
    ∃ z, (y.records[n]?).map (·.flags) = some (some z)
      ∧ (z.any = true ↔ fl.any = true ∨ ∃ m k j, s.gives r f m k j true)
      ∧ (z.all = true ↔ fl.all = true ∧ ¬ ∃ m k j, s.gives r f m k j false)
      ∧ ∀ k, k < 32 → (z.rowOr.getLsbD k = true ↔ fl.rowOr.getLsbD k = true ∨ ∃ m j, s.gives r f m k j true)
        ∧ (z.rowAnd.getLsbD k = true ↔ fl.rowAnd.getLsbD k = true ∧ ¬ ∃ m j, s.gives r f m k j false) := by
  refine ⟨fl.collect ((s.stepsOf r none).flatMap CellRes.gifts), ?_, ?_, ?_, fun k hk => ⟨?_, ?_⟩⟩
  · rw [advance_took hf h hc, if_pos ⟨hn, hh⟩, hfl]
    rfl
  · simp only [Flags.collect_any, mem_stepsOf_gifts hf]
    rw [exists_comm]
  · simp only [Flags.collect_all, mem_stepsOf_gifts hf]
    rw [exists_comm]
  · rw [Flags.collect_rowOr _ _ hk, mem_stepsOf_gifts hf]
  · rw [Flags.collect_rowAnd _ _ hk, mem_stepsOf_gifts hf]

/-! ## A cell after an advance -/

/-- A cell at which an advance steps one bundle alone holds what that step leaves, whether the bundle executes there or not. -/
theorem moved_cellStep {s s1 : State} {r r1 : Run} {new : Option Flight} {blank : Bool} (h : s.advance r new blank = .moved s1 r1) {f : Flight}
    {m i j : Nat} (hf : f ∈ steppedFlights r new) (hc : (m, i, j) ∈ arrivals (benchOffsets r.arrays 0) f.skew f.adv)
    (hz : ∀ g ∈ steppedFlights r new, ∀ e ∈ arrivals (benchOffsets r.arrays 0) g.skew g.adv,
      (r.arrays.getD e.1 0, 32 * e.2.1 + e.2.2) = (r.arrays.getD m 0, 32 * i + j) → g = f ∧ e = (m, i, j)) :
    s1.cellAt r m i j = (s.cellStep r (benchOffsets r.arrays 0) f m i j).cell := by
  have hx : s.cellStep r (benchOffsets r.arrays 0) f m i j ∈ s.stepsOf r new :=
    List.mem_flatMap.2 ⟨f, hf, List.mem_map.2 ⟨(m, i, j), hc, rfl⟩⟩
  rw [(advance_commits h).1]
  refine cells_commits r _ _ _ _ s (fun x hx hk _ => ?_) ?_
  · obtain ⟨g, hg, e, he, rfl⟩ := mem_stepsOf hx
    rw [cellStep_key] at hk
    obtain ⟨rfl, rfl⟩ := hz g hg e he hk
    rfl
  · by_cases ht : (s.cellStep r (benchOffsets r.arrays 0) f m i j).touched = true
    · exact .inr ⟨_, hx, cellStep_key .., ht⟩
    · exact .inl (cellStep_untouched s r _ f m i j ht).symm

/-! ## Results that land in a cell (R39, R40) -/

/-- The cell with other latches. -/
def Cell.holding (c : Cell) (l : List Latch) : Cell := { c with latches := l }

@[simp] theorem Cell.holding_latches (c : Cell) (l : List Latch) : (c.holding l).latches = l := rfl

theorem setWord_latches (c : Cell) (reg : Nat) (w : VWord) : (c.setWord reg w).latches = c.latches := by
  unfold Cell.setWord
  split
  · rfl
  · split <;> rfl

theorem land1_latches (c : Cell) (l : Landing) : (c.land1 l).latches = c.latches := by
  cases l with
  | word reg val v =>
    unfold Cell.land1
    dsimp only
    split <;> exact setWord_latches ..
  | pred reg b => rfl
  | acc a elems v => rfl

theorem landAll_latches (c : Cell) (l : List Landing) : (c.landAll l).latches = c.latches := by
  induction l generalizing c with
  | nil => rfl
  | cons x l ih => exact (ih _).trans (land1_latches c x)

/-- A word of the g registers reads the registers alone. -/
theorem getWord_congr {c d : Cell} (h : d.g = c.g) {reg : Nat} (hr : reg < 44) : d.getWord reg = c.getWord reg := by
  simp [Cell.getWord, hr, h]

/-- The landing of a value in a g register writes that register alone. -/
theorem getWord_landAll_word (c : Cell) {reg k : Nat} (v : Word) (ok : Bool) (hr : reg < 44) (hk : k < 44) :
    (c.landAll [.word reg (some v) ok]).getWord k = if k = reg then ⟨v, ok⟩ else c.getWord k := by
  have hg : (c.landAll [.word reg (some v) ok]).g = vset c.g reg ⟨v, ok⟩ := by
    simp [Cell.landAll, Cell.land1, Cell.setWord, hr]
  simp only [Cell.getWord, hk, if_true, hg, vget_vset, hr, and_true]

/-- A latch that is due lands at this step. -/
theorem stepLatches_due {handler : Bool} {h : Latch} (hh : handler = true → h.handler = true) (hr : h.rem ≤ 1) :
    stepLatches handler [h] = ([h], []) := by
  have hc : (h.handler || !handler) = true := by simpa [or_iff_not_imp_right] using hh
  simp only [stepLatches, List.filter_cons, List.filter_nil, List.filterMap_cons, List.filterMap_nil, hc, hr, decide_true, Bool.and_self, if_true,
    Bool.not_true, Bool.false_eq_true, if_false, List.foldl_cons, List.foldl_nil, List.takeWhile_nil, List.dropWhile_nil, List.nil_append]

/-- A latch with more steps to go has one less. -/
theorem stepLatches_waiting {handler : Bool} {h : Latch} (hh : handler = true → h.handler = true) (hr : 2 ≤ h.rem) :
    stepLatches handler [h] = ([], [{ h with rem := h.rem - 1 }]) := by
  have hc : (h.handler || !handler) = true := by simpa [or_iff_not_imp_right] using hh
  have hn : ¬ h.rem ≤ 1 := by omega
  simp only [stepLatches, List.filter_cons, List.filter_nil, List.filterMap_cons, List.filterMap_nil, hc, hn, decide_false, Bool.and_false,
    Bool.not_true, Bool.false_eq_true, if_false, List.foldl_nil]

theorem scales_keeps (f : Flight) (sel : Bool) (c : Cell) : (f.scales sel c).g = c.g ∧ (f.scales sel c).latches = c.latches := by
  unfold Flight.scales
  split
  · split
    · exact ⟨rfl, rfl⟩
    · split
      · exact ⟨rfl, rfl⟩
      · split <;> exact ⟨rfl, rfl⟩
  · exact ⟨rfl, rfl⟩

theorem exitsCell_not (f : Flight) (c : Cell) : f.exitsCell false c = c := by
  unfold Flight.exitsCell
  split <;> rfl

/-- A bundle without results of its own leaves in a cell what the landings of its latches leave, but for the tensor scales, the loop-active bits, the
history and the marks of the image. -/
theorem stepped_nop_keeps (c : Cell) (f : Flight) (sel : Bool) (m i j last done : Nat) :
    (c.stepped f sel m i j last done {} {}).g = (c.afterLatches f m i j last {} {}).1.g
      ∧ (c.stepped f sel m i j last done {} {}).latches = (c.afterLatches f m i j last {} {}).1.latches := by
  unfold Cell.stepped
  rw [Bool.or_self, exitsCell_not]
  exact scales_keeps ..

/-- The one latch of a cell at the step of a bundle without results of its own. -/
theorem afterLatches_one {c : Cell} {f : Flight} {h : Latch} (m i j last : Nat) (hl : c.latches = [h]) (hh : f.handler = true → h.handler = true) :
    (h.rem ≤ 1 → (c.afterLatches f m i j last {} {}).1 = (c.holding []).landAll h.lands)
      ∧ (2 ≤ h.rem → (c.afterLatches f m i j last {} {}).1 = c.holding [{ h with rem := h.rem - 1 }]) := by
  have hn : c.latches ++ newLatches f {} {} = [h] := by rw [hl]; rfl
  unfold Cell.afterLatches
  rw [hn]
  exact ⟨fun hr => by rw [stepLatches_due hh hr]; rfl, fun hr => by rw [stepLatches_waiting hh hr]; rfl⟩

/-- A cell that holds one latch, after its step of a bundle without results of its own: the latch has landed, or has one step less to go. -/
theorem stepped_one {c : Cell} {f : Flight} {h : Latch} (sel : Bool) (m i j last done : Nat) (hl : c.latches = [h])
    (hh : f.handler = true → h.handler = true) :
    (h.rem ≤ 1 → (c.stepped f sel m i j last done {} {}).latches = []
        ∧ (c.stepped f sel m i j last done {} {}).g = ((c.holding []).landAll h.lands).g)
      ∧ (2 ≤ h.rem → (c.stepped f sel m i j last done {} {}).latches = [{ h with rem := h.rem - 1 }]
        ∧ (c.stepped f sel m i j last done {} {}).g = c.g) := by
  obtain ⟨hg, hk⟩ := stepped_nop_keeps c f sel m i j last done
  obtain ⟨due, waits⟩ := afterLatches_one m i j last hl hh
  rw [hg, hk]
  refine ⟨fun hr => ?_, fun hr => ?_⟩
  · rw [due hr]
    exact ⟨(landAll_latches ..).trans (Cell.holding_latches ..), rfl⟩
  · rw [waits hr]
    exact ⟨rfl, rfl⟩

/-- A cell that holds one latch, at its step of a bundle that has two NOPs and no loop tag. -/
theorem cellStep_nops {s : State} {r : Run} {offs : List Nat} {f : Flight} {m i j : Nat} {h : Latch} (h2 : isNopCell f.s2 = true)
    (h3 : isNopCell f.s3 = true) (ht : f.tag = none) (hl : (s.cellAt r m i j).latches = [h]) :
    (s.cellStep r offs f m i j).cell = (s.cellAt r m i j).stepped f (f.selects m i j) m i j (r.arrays.length - 1) (r.executed offs m i j) {} {} := by
  have idle : ∀ (n : Nat) (x : Instr), isNopCell x = true → s.slotOut r offs f m i j n x = {} := by
    intro n x hx
    unfold State.slotOut
    rw [slot_nop _ _ hx, hx, Bool.not_true, Bool.and_false]
    split <;> rfl
  have hc : s.cellThen r f m i j = s.cellAt r m i j := by
    unfold State.cellThen
    rw [ht]
    rfl
  have hm : s.marksCell r f m i j = true := by simp [State.marksCell, hl]
  unfold State.cellStep
  rw [hm]
  simp only [Bool.not_true, Bool.false_eq_true, if_false, idle _ _ h2, idle _ _ h3, hc]

/-- A commit of a cell that takes and pushes nothing, of a handler's bundle, writes the cell alone. -/
theorem commitCell_cell (s : State) (r : Run) (c : CellRes) (ht : c.takes = []) (hp : c.pushes = []) (hc : c.touched = true)
    (hh : c.f.handler = true) :
    s.commitCell r c = s.setArr (r.arrays.getD c.m 0)
      { s.arr (r.arrays.getD c.m 0) with cells := tabPut (s.arr (r.arrays.getD c.m 0)).cells (32 * c.i + c.j) c.cell } := by
  simp [State.commitCell, State.takeAll, State.pushAll, ht, hp, hc, hh]

/-- The landing of one latch that pushes nothing. -/
theorem landStep_one (m i j last : Nat) (h : Latch) (c : Cell) (he : h.pushE = false) (hs : h.pushS = false) :
    landStep m i j last [h] c = (c.landAll h.lands, []) := by
  simp [landStep, Latch.pushed, he, hs]

/-- The results of a cell that has one latch, due and without a push, land there, and nothing else changes. -/
theorem landDue_one {s : State} {r : Run} {m a b : Nat} {h : Latch} (ha : a < 32) (hb : b < 32) (hl : (s.cellAt r m a b).latches = [h])
    (h0 : h.rem = 0) (he : h.pushE = false) (hs : h.pushS = false) :
    s.landDue r m (32 * a + b) = s.setArr (r.arrays.getD m 0) { s.arr (r.arrays.getD m 0) with
      cells := tabPut (s.arr (r.arrays.getD m 0)).cells (32 * a + b) (((s.cellAt r m a b).holding []).landAll h.lands) } := by
  have e1 : (32 * a + b) / 32 % 32 = a := by omega
  have e2 : (32 * a + b) % 32 = b := by omega
  have due : [h].filter (fun l => l.rem == 0) = [h] := by simp [h0]
  have rest : [h].filter (fun l => l.rem != 0) = [] := by simp [h0]
  have hd : stepLatches true [{ h with handler := true }] = ([{ h with handler := true }], []) :=
    stepLatches_due (fun _ => rfl) (show h.rem ≤ 1 by omega)
  have hn : ∀ c, landStep m a b (r.arrays.length - 1) [{ h with handler := true }] c = (c.landAll h.lands, []) :=
    fun c => landStep_one m a b _ _ c he hs
  unfold State.landDue
  dsimp only
  simp only [e1, e2, hl, due, rest, List.map_cons, List.map_nil, hd, hn]
  exact commitCell_cell _ _ _ rfl rfl rfl rfl

/-- Where no result of a cell is due, RESULT_LANDING finds nothing. -/
theorem landDue_none {s : State} {r : Run} {m a b : Nat} (ha : a < 32) (hb : b < 32) (hl : ∀ e ∈ (s.cellAt r m a b).latches, 1 ≤ e.rem) :
    s.landDue r m (32 * a + b) = s := by
  have e1 : (32 * a + b) / 32 % 32 = a := by omega
  have e2 : (32 * a + b) % 32 = b := by omega
  have due : (s.cellAt r m a b).latches.filter (fun l => l.rem == 0) = [] := by
    rw [List.filter_eq_nil_iff]
    intro e h
    have := hl e h
    simp only [beq_iff_eq]
    omega
  unfold State.landDue
  dsimp only
  simp only [e1, e2, due]

/-- A write of cells of the bench changes nothing outside the wave. -/
theorem kept_setCells {l : List Nat} (s : State) (a : Nat) (c : Tab Cell) (ha : a ∈ l) : Kept l s (s.setArr a { s.arr a with cells := c }) :=
  (waveKept_setArr s a { s.arr a with cells := c } ha rfl).kept

/-- A cell that has been written. -/
theorem cellAt_setCell (s : State) (r : Run) (m a b : Nat) (c : Cell) :
    (s.setArr (r.arrays.getD m 0) { s.arr (r.arrays.getD m 0) with
      cells := tabPut (s.arr (r.arrays.getD m 0)).cells (32 * a + b) c }).cellAt r m a b = c := by
  simp [State.cellAt, arr_setArr, tabGet]

/-- A bundle enters the wave on the arrays of its bench. -/
theorem entersAs_arrays (s : State) (old : Run) (i : Instr) : (s.entersAs old i).1.arrays = old.arrays :=
  (issued_keeps (s.leaving old) old (alone i) rfl).2.1.arrays

theorem entersAs_flights (s : State) (old : Run) (i : Instr) : (s.entersAs old i).1.flights = old.flights :=
  issued_flights (s.leaving old) old (alone i) rfl

/-- An instruction that changes nothing at issue: with no bundle in flight, a cell of the first advance holds what the step of its own bundle
leaves. -/
theorem issueAlone_cell {s : State} {r : Run} {i : Instr} {m a b : Nat} (hr : s.ready r i)
    (ha : attempt r.foldRecords (s.fresh r.foldRecords) (alone i) = .ok (s.leaving r.foldRecords))
    (hm : (s.leaving r.foldRecords).moves r.foldRecords i = true) (hfl : r.foldRecords.flights = []) (hc : (m, a, b) ∈ r.foldRecords.firstCells) :
    ∃ t, s.issueAlone i = .next t ∧ t.cellAt r.foldRecords m a b = (s.cellStep (s.entersAs r.foldRecords i).1
      (benchOffsets r.foldRecords.arrays 0) (s.entersAs r.foldRecords i).2 m a b).cell := by
  obtain ⟨s1, r1, he, hn⟩ := issueAlone_next hr ha rfl hm
  have har := entersAs_arrays s r.foldRecords i
  have hs : ((s.leaving r.foldRecords).issued r.foldRecords (alone i) false).s = s :=
    (issued_keeps (s.leaving r.foldRecords) r.foldRecords (alone i) rfl).1
  have hmv : s.advance (s.entersAs r.foldRecords i).1 (some (r.foldRecords.flight (alone i) (cellWords i).1 (cellWords i).2)) false
      = .moved s1 r1 := by
    unfold Ctl.enters at he
    dsimp only at he
    rw [hs] at he
    exact he
  have hst : steppedFlights (s.entersAs r.foldRecords i).1 (some (r.foldRecords.flight (alone i) (cellWords i).1 (cellWords i).2))
      = [(s.entersAs r.foldRecords i).2] := by
    unfold steppedFlights
    rw [entersAs_flights, hfl]
    rfl
  have hre : (m, a, b) ∈ arrivals (benchOffsets (s.entersAs r.foldRecords i).1.arrays 0) (s.entersAs r.foldRecords i).2.skew 1 := by
    rw [har]
    exact hc
  refine ⟨_, hn, ?_⟩
  rw [← har, ← moved_cellStep hmv (by rw [hst]; exact List.mem_singleton_self _) hre ?_]
  · exact cellAt_congr har.symm (fun a => cells_settle _ _ _ _ a) _ _ _
  · intro g hg e he hk
    rw [hst, List.mem_singleton] at hg
    subst hg
    exact ⟨rfl, cell_eq hre he (.inr ((first_m he).trans (first_m hre).symm)) hk⟩

/-- A NOP that issues with no bundle in flight and no loop tag steps the one latch of a cell of the first advance. -/
theorem nopControl_latch {s : State} {r : Run} {g : QGuard} {m a b : Nat} {h : Latch} (hr : s.ready r (.nopControl g))
    (hm : (s.leaving r.foldRecords).moves r.foldRecords (.nopControl g) = true) (hfl : r.foldRecords.flights = [])
    (ht : r.foldRecords.tag = none) (hc : (m, a, b) ∈ r.foldRecords.firstCells) (hl : (s.cellAt r.foldRecords m a b).latches = [h])
    (hh : r.foldRecords.trap.active = true → h.handler = true) :
    ∃ t, exec (.nopControl g) s = .next t
      ∧ (h.rem ≤ 1 → (t.cellAt r.foldRecords m a b).latches = []
        ∧ (t.cellAt r.foldRecords m a b).g = (((s.cellAt r.foldRecords m a b).holding []).landAll h.lands).g)
      ∧ (2 ≤ h.rem → (t.cellAt r.foldRecords m a b).latches = [{ h with rem := h.rem - 1 }]
        ∧ (t.cellAt r.foldRecords m a b).g = (s.cellAt r.foldRecords m a b).g) := by
  have hp := ready_poison hr (List.mem_cons_of_mem _ (List.mem_cons_self ..))
  obtain ⟨t, hx, hcell⟩ := issueAlone_cell hr (attempt_control rfl hp rfl) hm hfl hc
  have hs : s.cellAt (s.entersAs r.foldRecords (.nopControl g)).1 m a b = s.cellAt r.foldRecords m a b :=
    cellAt_congr (entersAs_arrays ..) (fun _ => rfl) _ _ _
  refine ⟨t, hx, ?_⟩
  rw [hcell, cellStep_nops rfl rfl ht (by rw [hs]; exact hl), hs]
  exact stepped_one _ _ _ _ _ _ hl hh

/-! ## Loads and records (01_machine.md R22, 03_wave.md R47, R48) -/

theorem atBench_of_run {s : State} {r : Run} (h : s.run? s.cur = some r) (f : Run → State) : s.atBench f = .next (f r) := by
  simp only [State.atBench, h]

/-- The data of a load leaves the list of the outstanding loads, and changes no more than the registers. -/
theorem loadReturn_keeps {r : Run} {i : Nat} {l : Load} (h : r.loads[i]? = some l) :
    (r.loadReturn i).loads = r.loads.eraseIdx i ∧ { r.loadReturn i with loads := r.loads, s := r.s } = r := by
  unfold Run.loadReturn
  rw [h]
  dsimp only
  split <;> exact ⟨rfl, rfl⟩

/-- Data that no register waits for any more is dropped. -/
theorem loadReturn_dropped {r : Run} {i : Nat} {l : Load} (h : r.loads[i]? = some l) (hd : l.dst = none) : (r.loadReturn i).s = r.s := by
  simp only [Run.loadReturn, h, hd]

/-- Good data is written to the register that waits for it. -/
theorem loadReturn_good {r : Run} {i p : Nat} {l : Load} (h : r.loads[i]? = some l) (hd : l.dst = some p) (hp : l.poison = none) :
    (r.loadReturn i).s = vset r.s p (SReg.of l.data) := by
  simp only [Run.loadReturn, h, hd, hp]

/-- Poisoned data marks the register that waits for it. -/
theorem loadReturn_poisoned {r : Run} {i p : Nat} {l : Load} {e : Poison} (h : r.loads[i]? = some l) (hd : l.dst = some p)
    (hp : l.poison = some e) : (r.loadReturn i).s = vset r.s p ⟨(vget r.s p (SReg.of 0)).val, false, some e⟩ := by
  simp only [Run.loadReturn, h, hd, hp]

/-- Data arrives at the register that waits for it and at no other. -/
theorem loadReturn_other {r : Run} {i p k : Nat} {l : Load} (h : r.loads[i]? = some l) (hd : l.dst = some p) (hk : k ≠ p) :
    vget (r.loadReturn i).s k (SReg.of 0) = vget r.s k (SReg.of 0) := by
  cases hp : l.poison with
  | none => rw [loadReturn_good h hd hp, vget_vset, if_neg fun e => hk e.1]
  | some e => rw [loadReturn_poisoned h hd hp, vget_vset, if_neg fun e => hk e.1]

/-- The return of an RFT follows the arrival of data when nothing else is on its way. -/
theorem returned_returning (s : State) {y : Run} {pc : BitVec 55} (h : y.phase = .returning pc) :
    s.returned y = if y.flights = [] ∧ y.loads = [] ∧ y.redo = false then s.doReturn pc y else s.setRun y := by
  simp [State.returned, h, Run.quiet, and_assoc]

theorem returned_other (s : State) {y : Run} (h : ∀ pc, y.phase ≠ .returning pc) : s.returned y = s.setRun y := by
  unfold State.returned
  split
  · rename_i pc hp
    exact absurd hp (h pc)
  · rfl

/-- A readable record of flags becomes the flag state, and its raises join XFLAGS. -/
theorem foldRecords_readable {r : Run} {c : Record} {f : Flags} (hr : r.records = [c]) (hl : c.left ≤ 1) (hf : c.flags = some f)
    (he : c.exit = none) : r.foldRecords = { r with records := [], flags := f, xflags := r.xflags ||| c.raises } := by
  simp [Run.foldRecords, hr, Record.readable, Record.raised, hl, hf, he]

/-- A record that is not readable yet stays. -/
theorem foldRecords_unreadable {r : Run} {c : Record} (hr : r.records = [c]) (hl : 1 < c.left) (ha : 0 < c.advs) : r.foldRecords = r := by
  have h1 : ¬ c.left ≤ 1 := by omega
  have h2 : ¬ c.advs = 0 := by omega
  have hf : r.foldRecords = { r with records := [c] } := by simp [Run.foldRecords, hr, Record.readable, Record.raised, h1, h2]
  rw [hf, ← hr]

/-- The record of a bundle that writes predicates starts with no contribution (R46). -/
theorem record_of_pred {r : Run} {i : Instr} {p : Nat} (hp : cellPred i = some p) (hc : ownClass i = .cellA ∨ ownClass i = .cellB) :
    (r.record (alone i)).map (fun c => (c.num, c.handler, c.flags)) = [(r.num, r.trap.active, some ⟨false, true, 0, 0xFFFFFFFF⟩)] := by
  have hn : isNopCell i = false := by
    unfold isNopCell
    split
    · cases hp
    · rfl
  rcases hc with h | h
  · have e : (alone i).s2 = i := by
      unfold alone
      rw [h]
      rfl
    simp [Run.record, e, hn, hp, Flags.none]
  · have e : (alone i).s3 = i := by
      unfold alone
      rw [h]
      rfl
    simp [Run.record, e, hn, hp, Flags.none]

/-! ## The statement -/

/-- Settles O41: `advance_collects` for what cells contribute, `loadReturn_good` and its siblings for the data of loads, `landDue_one` and
`nopControl_latch` for results in cells, `foldRecords_readable` for records. -/
theorem resultsArriveAtTheirPlace : Obligations.ResultsArriveAtTheirPlace := by
  refine ⟨fun r i p => record_of_pred, ?_, fun s r i m a b reg l h v ok c f hrun _ => ⟨?_, ?_, ?_, ?_, ?_, ?_⟩⟩
  · intro s t r y f blank n c fl g gives hf h hc
    refine ⟨fun hne => ?_, fun hn hh hfl => advance_collects hf h hc hn hh hfl⟩
    rw [advance_took hf h hc, if_neg fun e => hne.elim (fun k => k e.1) (fun k => k e.2)]
  · intro hl
    obtain ⟨k1, k2⟩ := loadReturn_keeps hl
    have hph : (r.loadReturn i).phase = r.phase := (congrArg Run.phase k2 :)
    have hfl : (r.loadReturn i).flights = r.flights := (congrArg Run.flights k2 :)
    have hre : (r.loadReturn i).redo = r.redo := (congrArg Run.redo k2 :)
    refine ⟨_, r.loadReturn i, atBench_of_run hrun _, k1, fun hp => returned_other s (hph ▸ hp), fun pc hp => ?_, k2, loadReturn_dropped hl,
      fun p hp hd => ⟨fun hn => ?_, fun e he => ?_, fun k hk => loadReturn_other hl hd hk⟩⟩
    · rw [returned_returning s (hph.trans hp), hfl, hre]
    · rw [loadReturn_good hl hd hn, vget_vset, if_pos ⟨rfl, hp⟩]
      rfl
    · rw [loadReturn_poisoned hl hd he, vget_vset, if_pos ⟨rfl, hp⟩]
      exact ⟨rfl, rfl⟩
  · intro hm ha hb hreg hl h0 hlands he hs
    have hin : r.arrays.getD m 0 ∈ r.arrays := by
      rw [List.getD_eq_getElem _ _ hm]
      exact List.getElem_mem _
    have hx : exec (.resultLanding m (32 * a + b)) s = .next (s.landDue r m (32 * a + b)) := atBench_of_run hrun _
    rw [landDue_one ha hb hl h0 he hs, hlands] at hx
    refine ⟨_, hx, ?_, ?_, fun k hk hne => ?_, kept_setCells s _ _ hin, (kept_setCells s _ _ hin).sameBytes⟩
    · rw [cellAt_setCell, getWord_landAll_word _ v ok hreg hreg, if_pos rfl]
    · rw [cellAt_setCell, landAll_latches, Cell.holding_latches]
    · rw [cellAt_setCell, getWord_landAll_word _ v ok hreg hk, if_neg hne]
      exact getWord_congr rfl hk
  · intro hl ha hb
    exact (atBench_of_run hrun _).trans (congrArg _ (landDue_none ha hb hl))
  · intro g old hr hm hfl ht hc hreg hl hlands hh
    obtain ⟨t, hx, due, waits⟩ := nopControl_latch hr hm hfl ht hc hl hh
    refine ⟨t, hx, fun hrem => ?_, fun hrem => ?_⟩
    · obtain ⟨k1, k2⟩ := due hrem
      rw [hlands] at k2
      refine ⟨k1, ?_⟩
      rw [getWord_congr k2 hreg, getWord_landAll_word _ v ok hreg hreg, if_pos rfl]
    · obtain ⟨k1, k2⟩ := waits hrem
      exact ⟨k1, getWord_congr k2 hreg⟩
  · exact fun hr hl hf he => (atBench_of_run hrun _).trans (by rw [foldRecords_readable hr hl hf he])
  · exact fun hr hl ha => (atBench_of_run hrun _).trans (by rw [foldRecords_unreadable hr hl ha])

end Sys2Proof.Machine
end

section
/-!
PROOF. The issue of the bundle at PC: the meaning of a slot instruction by itself, the fetch, and one step of the module (03_wave.md R31, R35,
09_sequencer_isa.md R100).
-/

namespace Sys2Proof.Machine

/-! ## A slot instruction by itself -/

/-- A slot instruction by itself is the issue of a bundle that holds it alone; what stands in no slot is an event. -/
theorem exec_slot {i : Instr} (h : slotClasses i ≠ []) (s : State) : exec i s = s.issueAlone i := by
  cases i with
  | bundleIssue | blankAdvance | drainAdvance | stallResume | stallTimeout | feTimeout | loadDataReturn | resultLanding | flagRecordReadable
  | waitSatisfied | waitTimeout | trapEntry | supervisorFaultTake | interruptTake | memUeStore | preempt | preemptImageWrite | taskRestore
  | flttmoExpiry | machineCheck | taskEnd | yieldComplete | descriptorTake | taskAccept | taskDispatch | priorityAging | benchReserve | taskPull
  | taskRerun | dieTakeover | barGenerationComplete | engineCommandStart | engineCommandEnd | engineFullTimeout | launchFullTimeout | sortlTimeout
  | collectiveGroupTimeout | collectiveChunkReceive | injectElementFetch | drainElementWrite | fdflushReceipt | postPacketHop | postInboxEnter
  | memoryRequestServe | hbmScrub | postcodeAutoSwap | carrierFlitReceive | powerLoss | moduleReset | droopAlarm | droopStretchEnd | droopHoldEnd
  | droopRearm | lbwidxWrite | hostRegisterWrite | ctxisrWrite | hbarWrite | hcopyWrite | hostApertureRead | hostApertureWrite | ctxCreate
  | ctxDestroy | keyLoad | keyDestroy | xlateInv | interrupt | faultResume | faultFail | dspSet | tokenRetire | dlrRead | dlrRelease | postcodeSwap
  | postcodeMode | sclass | drpSet | countersRead | attest | routeSet | moduleSetid | flashLoad | remoteResponderTimeout | clawynLinkFailure
  | unitLoss => exact absurd rfl h
  | _ => rfl

theorem exec_slot_of_run {s : State} {r : Run} {i : Instr} (h : slotClasses i ≠ []) (hr : s.run? s.cur = some r) :
    exec i s = .next (s.issueOne r i) := by
  simp only [exec_slot h, State.issueAlone, hr]

/-! ## Legal bundles (R65 to R69) -/

theorem decodeSlot_fieldsOk {c : SlotClass} {w : Word} {i : Instr} (h : decodeSlot c w = some i) : fieldsOk i = true := by
  unfold decodeSlot at h
  split at h
  · split at h
    · cases h
      assumption
    · cases h
  · cases h

/-- The slot of class `c` of a decoded bundle that holds one instruction there. -/
theorem decodeBundle_single {w : Bundle} {c : SlotClass} {i : Instr} (h : decodeBundle w = .ok (Slots.single c i)) :
    decodeSlot c (slotWord w c) = some i := by
  unfold decodeBundle at h
  split at h
  · rename_i h0 h1 h2 h3 h4 h5 h6 h7
    injection h with h
    cases c
    · exact h0.trans (congrArg (fun b : Slots => some b.s0) h)
    · exact h1.trans (congrArg (fun b : Slots => some b.s1) h)
    · exact h2.trans (congrArg (fun b : Slots => some b.s2) h)
    · exact h3.trans (congrArg (fun b : Slots => some b.s3) h)
    · exact h4.trans (congrArg (fun b : Slots => some b.s4) h)
    · exact h5.trans (congrArg (fun b : Slots => some b.s5) h)
    · exact h6.trans (congrArg (fun b : Slots => some b.s6) h)
    · exact h7.trans (congrArg (fun b : Slots => some b.s7) h)
  · cases h

theorem legal_ok {w : Bundle} {b : Slots} (h : legal w = .ok b) : decodeBundle w = .ok b ∧ conflicts b = 0 := by
  unfold legal at h
  dsimp only at h
  split at h
  · rename_i hd
    split at h
    · rename_i hc
      cases h
      exact ⟨hd, by simpa using hc⟩
    · cases h
  · cases h

/-- An instruction that stands in a slot is well formed in its own class where its fields are. -/
theorem wellFormed_ownClass {i : Instr} (h : slotClasses i ≠ []) (hf : fieldsOk i = true) : wellFormed (ownClass i) i = true := by
  unfold wellFormed ownClass
  cases hl : slotClasses i with
  | nil => exact absurd hl h
  | cons c l => simp [hf]

/-! ## The issue of a bundle's words -/

theorem issueWord_ok {w : Bundle} {b : Slots} (s : State) (r : Run) (h : legal w = .ok b) :
    s.issueWord r w = s.issueSlots r b (slotWord w .cellA) (slotWord w .cellB) := by simp only [State.issueWord, h]

theorem issueWord_error {w : Bundle} {m : BitVec 8} (s : State) (r : Run) (h : legal w = .error m) :
    s.issueWord r w = s.stopIssue r.foldRecords (illegal m) := by simp only [State.issueWord, h]

/-- The words of a legal bundle that holds one instruction issue as that instruction does. -/
theorem issueWord_alone {w : Bundle} {i : Instr} {r : Run} (s : State) (hm : r.mayIssue = true) (hi : slotClasses i ≠ [])
    (hl : legal w = .ok (alone i)) (h2 : slotWord w .cellA = (cellWords i).1) (h3 : slotWord w .cellB = (cellWords i).2) :
    s.issueWord r w = s.issueOne r i := by
  obtain ⟨hd, hc⟩ := legal_ok hl
  have hw : wellFormed (ownClass i) i = true := wellFormed_ownClass hi (decodeSlot_fieldsOk (decodeBundle_single hd))
  rw [issueWord_ok s r hl, h2, h3]
  simp [State.issueOne, hm, hw, hc]

/-! ## The fetch (R26, R35) -/

theorem fetchBundle_cached {s : State} {r : Run} {w : Bundle} (h : tabFind (s.arr r.head).icache (r.pc.toNat / 32) = some w) :
    s.fetchBundle r = (.ok w, s) := by simp only [State.fetchBundle, h]

theorem fetchBundle_read {s t : State} {r : Run} {acc : Access} (h : tabFind (s.arr r.head).icache (r.pc.toNat / 32) = none)
    (ht : s.translate (.seq r.head) r.die r.ctx r.arrays r.pc.toNat .fetch = (.ok acc, t))
    (hp : (t.read (.engine r.die (whoSeq r.head) 0) acc 32).poison = none) :
    s.fetchBundle r = (.ok (bundleOfBytes (t.read (.engine r.die (whoSeq r.head) 0) acc 32).bytes),
      (t.read (.engine r.die (whoSeq r.head) 0) acc 32).st.keepBundle r.head (r.pc.toNat / 32)
        (bundleOfBytes (t.read (.engine r.die (whoSeq r.head) 0) acc 32).bytes)) := by
  simp only [State.fetchBundle, h, ht, hp]

theorem fetchBundle_untranslated {s t : State} {r : Run} {e : Nat} (h : tabFind (s.arr r.head).icache (r.pc.toNat / 32) = none)
    (ht : s.translate (.seq r.head) r.die r.ctx r.arrays r.pc.toNat .fetch = (.error e, t)) (he : e ≠ xUe) :
    s.fetchBundle r = (.error (issueFault e r.pc.toNat), t) := by
  simp [State.fetchBundle, h, ht, he]

theorem issueNext_fetched {s t : State} {r : Run} {w : Bundle} (hm : r.mayIssue = true) (hf : s.fetchBundle r = (.ok w, t)) :
    s.issueNext r = t.issueWord r w := by simp [State.issueNext, hm, hf]

theorem issueNext_failed {s t : State} {r : Run} {e : TrapInfo} (hm : r.mayIssue = true) (hf : s.fetchBundle r = (.error e, t)) :
    s.issueNext r = t.stopIssue r.foldRecords e := by simp [State.issueNext, hm, hf]

/-! ## One step -/

/-- A step takes the event of the schedule's next turn, in the state in which the turn finds the module. -/
theorem step_turn {s : State} {t : Turn} {rest : List Turn} (hs : s.sched = t :: rest) (hp : s.powered = true) (hb : t.background = []) :
    step s = exec t.event { s with sched := rest, ticks := s.ticks + t.ticks, cur := t.head } := by
  simp [step, hs, State.beginTurn, hb, State.happen, hp]

/-- What a step does with the words that its fetch has brought. -/
theorem fetched_issues {v : State} {o : Host.Outcome State Fault Refusal} {r : Run} {w : Bundle} (ho : o = .next (v.issueWord r w))
    (hm : r.mayIssue = true) :
    (∀ b, legal w = .ok b → o = .next (v.issueSlots r b (slotWord w .cellA) (slotWord w .cellB)))
      ∧ (∀ m, legal w = .error m → o = .next (v.stopIssue r.foldRecords (illegal m)))
      ∧ (∀ i, slotClasses i ≠ [] → legal w = .ok (alone i) → slotWord w .cellA = (cellWords i).1 → slotWord w .cellB = (cellWords i).2 →
          v.run? v.cur = some r → o = exec i v) := by
  subst ho
  refine ⟨fun b hl => ?_, fun m hl => ?_, fun i hi hl h2 h3 hr => ?_⟩
  · rw [issueWord_ok v r hl]
  · rw [issueWord_error v r hl]
  · rw [issueWord_alone v hm hi hl h2 h3, exec_slot_of_run hi hr]

/-- Settles O54: a step is the event of its turn, and the issue of a bundle fetches the words at PC and issues them. -/
theorem stepRunsTheDecodedBundle : Obligations.StepRunsTheDecodedBundle := by
  intro s t rest r acc s0 e u pc o word s1 hs hp hb
  have hstep : step s = exec t.event u := step_turn hs hp hb
  refine ⟨hstep, fun he hr _ hm => ?_⟩
  have hx : step s = .next (u.issueNext r) := by
    rw [hstep, he]
    exact atBench_of_run hr _
  refine ⟨fun w hw => ?_, fun hn ht hq => ?_, fun hn ht hne => ?_⟩
  · exact fetched_issues (hx.trans (congrArg _ (issueNext_fetched hm (fetchBundle_cached hw)))) hm
  · exact fetched_issues (hx.trans (congrArg _ (issueNext_fetched hm (fetchBundle_read hn ht hq)))) hm
  · exact hx.trans (congrArg _ (issueNext_failed hm (fetchBundle_untranslated hn ht hne)))

end Sys2Proof.Machine
end

section
/-!
PROOF. The cells that a bundle passes by (03_wave.md R37, 17_loops.md R230): the loop tag of a bundle makes a part of the cell's image dirty
(23_traps.md R300), also where the bundle does not execute.
-/

namespace Sys2Proof.Machine

/-! ## The part of the image that a loop tag belongs to -/

theorem mem_setAdd_self (l : List Nat) (k : Nat) : k ∈ setAdd l k := by
  induction l with
  | nil => exact List.mem_singleton_self k
  | cons a t ih =>
    unfold setAdd
    split
    · exact List.mem_cons_self ..
    · split
      · rename_i h
        exact h ▸ List.mem_cons_self ..
      · exact List.mem_cons_of_mem _ ih

/-- A step of a bundle that carries a loop tag makes part 9 of the cell's image dirty. -/
theorem stepped_touches_of_tag (c : Cell) {f : Flight} (sel : Bool) (m i j last done : Nat) (o2 o3 : SlotOut) (h : f.tag.isSome = true) :
    9 ∈ (c.stepped f sel m i j last done o2 o3).touched := by
  unfold Cell.stepped Cell.touch Cell.partsOf setUnion
  simp only [h, Bool.or_true, Bool.true_or, if_true, List.foldl_append, List.foldl_cons, List.foldl_nil]
  exact mem_setAdd_self _ _

/-- So it does in every cell that the bundle reaches, selected or not. -/
theorem cellStep_touches_of_tag (s : State) (r : Run) (offs : List Nat) {f : Flight} (m i j : Nat) (h : f.tag.isSome = true) :
    9 ∈ (s.cellStep r offs f m i j).cell.touched := by
  have hm : s.marksCell r f m i j = true := by simp [State.marksCell, h]
  unfold State.cellStep
  rw [hm]
  exact stepped_touches_of_tag _ _ _ _ _ _ _ _ _ h

/-- An event of a tag itself changes no mark of the image. -/
theorem tagged_touched (c : Cell) (rg : Nat) (t : Option Tag) : (c.tagged rg t).touched = c.touched := by
  unfold Cell.tagged
  split
  · rfl
  · split
    · split <;> rfl
    · dsimp only
      split <;> split <;> rfl
    · rfl

/-- A cell instruction that enters an empty wave with a loop tag makes part 9 dirty in each cell of its first advance. -/
theorem issue_touches_of_tag {s : State} {r : Run} {i : Instr} {m a b : Nat} (hi : ownClass i = .cellA ∨ ownClass i = .cellB) (hr : s.ready r i)
    (hm : (s.leaving r.foldRecords).moves r.foldRecords i = true) (hfl : r.foldRecords.flights = [])
    (ht : r.foldRecords.tag.isSome = true) (hc : (m, a, b) ∈ r.foldRecords.firstCells) :
    ∃ t, s.issueAlone i = .next t ∧ 9 ∈ (t.cellAt r.foldRecords m a b).touched := by
  obtain ⟨t, hx, hcell⟩ := issueAlone_cell hr (attempt_cell hi) hm hfl hc
  exact ⟨t, hx, hcell ▸ cellStep_touches_of_tag _ _ _ _ _ _ ht⟩

/-! ## A cell that has left the loop -/

/-- A sequencer in a loop, with the tag of the loop's last back-edge for its next bundle. -/
def loopRun : Run :=
  { Run.reset 1 0 [0] 0 0x40 0 0 0 with
    skew := true, depth := 1, levels := vset (Vector.replicate 4 Level.reset) 0 ⟨true, 2, 0, 2, 4, 1, 0⟩, tag := some ⟨.rotate true, 0, 0⟩ }

/-- The same on array 0, where cell (0, 0) has left the loop. -/
def leftLoop : State :=
  { State.reset with
    runs := [(0, loopRun)], arrays := [(0, { ArrayState.reset with cells := [(0, { Cell.reset with active := 0 })] })] }

/-- MOVI of 1 to g9. -/
def loopInstr : Instr := .movi ⟨false, 0⟩ 9 1

theorem leftLoop_ready : leftLoop.ready loopRun loopInstr := by
  unfold State.ready
  decide +kernel

theorem leftLoop_moves : (leftLoop.leaving loopRun.foldRecords).moves loopRun.foldRecords loopInstr = true := by decide +kernel

/-- The bundle does not execute in the cell. -/
theorem leftLoop_idle :
    leftLoop.runsIn (leftLoop.entersAs loopRun.foldRecords loopInstr).1 (leftLoop.entersAs loopRun.foldRecords loopInstr).2 0 0 0 = false := by
  decide +kernel

/-- Refutes O26: a loop tag makes part 9 of the cell's image dirty (R300), so a cell that the bundle does not execute in holds more than
`Cell.tagged` makes of it. In `leftLoop` a bundle with the tag of a back-edge reaches a cell that has left the loop and holds no dirty part. -/
theorem not_cellSlotsRespectTheirSelection : ¬ Obligations.CellSlotsRespectTheirSelection := by
  intro h
  obtain ⟨-, passes, -⟩ := h
  have hi : ownClass loopInstr = .cellA ∨ ownClass loopInstr = .cellB := .inl rfl
  have hc : (0, 0, 0) ∈ loopRun.foldRecords.firstCells := by decide +kernel
  obtain ⟨t, hx, -, idle⟩ := passes leftLoop loopRun loopInstr hi leftLoop_ready leftLoop_moves
  obtain ⟨hcell, -⟩ := idle (0, 0, 0) hc (fun _ h => nomatch h) leftLoop_idle rfl
  obtain ⟨u, hu, dirty⟩ := issue_touches_of_tag hi leftLoop_ready leftLoop_moves rfl rfl hc
  obtain rfl : t = u := Host.Outcome.next.inj (hx.symm.trans hu)
  rw [hcell, tagged_touched] at dirty
  exact List.not_mem_nil dirty

end Sys2Proof.Machine
end

section
/-!
PROOF. A bench beside the issue of its bundles: advances without issue, the ends of stalls and of waits (03_wave.md R33, R35, R45, R331,
09_sequencer_isa.md R103, R104, R111).
-/

namespace Sys2Proof.Machine

/-! ## Readable records leave the rest of the sequencer alone (R48) -/

/-- What the records of a sequencer may change in it. -/
def RecordsOnly (x y : Run) : Prop := { y with records := x.records, flags := x.flags, exits := x.exits, xflags := x.xflags } = x

theorem RecordsOnly.trans {x y z : Run} (h : RecordsOnly x y) (k : RecordsOnly y z) : RecordsOnly x z := by
  unfold RecordsOnly at *
  rw [← k] at h
  exact h

theorem recordsOnly_foldl {α : Type} (f : Run → α → Run) (hf : ∀ r a, RecordsOnly r (f r a)) (l : List α) (r : Run) :
    RecordsOnly r (l.foldl f r) := by
  induction l generalizing r with
  | nil => rfl
  | cons a l ih => exact (hf r a).trans (ih (f r a))

theorem foldRecords_only (r : Run) : RecordsOnly r r.foldRecords := by
  unfold Run.foldRecords
  refine RecordsOnly.trans (y := { r with records := [] }) rfl (recordsOnly_foldl _ (fun t c => ?_) r.records _)
  extract_lets t2 t1 t3
  have h2 : RecordsOnly t t2 := by
    unfold t2
    split <;> rfl
  have h1 : RecordsOnly t t1 := by
    unfold t1
    split
    · split
      · exact h2
      · exact h2
    · rfl
  have h3 : RecordsOnly t t3 := by
    unfold t3
    split
    · exact h1
    · exact h1
  split
  · exact h3
  · exact h3

/-- A sequencer with another stall in progress. -/
def Run.stallAs (r : Run) (w : Option (Nat × Nat)) : Run := { r with stall := w }

/-- The stall in progress plays no part in the records. -/
theorem foldRecords_stallAs (r : Run) (w : Option (Nat × Nat)) : (r.stallAs w).foldRecords = r.foldRecords.stallAs w := by
  unfold Run.foldRecords
  refine List.foldl_hom (fun t : Run => t.stallAs w) (init := { r with records := [] }) (fun t c => ?_)
  extract_lets a2 a1 a3 c1 b2 b1 b3
  have h2 : a2 = b2.stallAs w := by
    unfold a2 b2
    split <;> rfl
  have h1 : a1 = b1.stallAs w := by
    unfold a1 b1
    rw [h2]
    split
    · split <;> rfl
    · rfl
  have h3 : a3 = b3.stallAs w := by
    unfold a3 b3
    rw [h1]
    split <;> rfl
  rw [h3]
  split <;> rfl

/-! ## The issue of a bundle whose slots succeed -/

/-- A bundle enters the wave, and the advance with which it does is made. -/
theorem enterWave_moved {hd e : Ctl} {old : Run} {f : Flight} {rec : List Record} {s1 : State} {r1 : Run}
    (h : e.s.advance (e.entering old f rec) (some f) false = .moved s1 r1) :
    enterWave hd old e f rec = s1.settleIssue (e.entered old r1) := by simp only [enterWave, h]

/-- What issues is what the slots leave, once no check stops the bundle: registers that block it are read as they stand when FECTL.FETMO has run out
(R103). -/
theorem issueSlots_ok {s : State} {r : Run} {b : Slots} {d : Ctl} (w2 w3 : Word) (hm : r.foldRecords.mismatch b = false)
    (hf : r.foldRecords.readFault b = none)
    (hb : r.foldRecords.readBlocked b = true → r.foldRecords.feLate s.ticks = true ∧ r.foldRecords.feq ≠ 0)
    (ho : r.foldRecords.endOfOuter = false) (ha : attempt r.foldRecords (s.fresh r.foldRecords) b = .ok d) (hr : d.rft = false) :
    s.issueSlots r b w2 w3 = enterWave (attemptHeld r.foldRecords (s.fresh r.foldRecords) b) r.foldRecords
      (d.issued r.foldRecords b (r.foldRecords.readBlocked b)) (r.foldRecords.flight b w2 w3) (r.foldRecords.record b) := by
  unfold State.issueSlots
  cases hk : r.foldRecords.readBlocked b with
  | false => simp [hm, hf, ho, ha, hr, hk]
  | true =>
    obtain ⟨hl, hq⟩ := hb hk
    have hq0 : r.foldRecords.feq ≠ 0#3 := hq
    simp [hm, hf, ho, ha, hr, hk, hl, hq0]

/-- An empty register that has blocked the bundle for FECTL.FETMO raises F/E.EMPTY where FEQ is 0 (R103). -/
theorem issueSlots_empty {s : State} {r : Run} {b : Slots} (w2 w3 : Word) (hm : r.foldRecords.mismatch b = false)
    (hf : r.foldRecords.readFault b = none) (hb : r.foldRecords.readBlocked b = true) (hl : r.foldRecords.feLate s.ticks = true)
    (hq : r.foldRecords.feq = 0) : s.issueSlots r b w2 w3 = s.stopIssue r.foldRecords (issueFault 0x001 0) := by
  simp [State.issueSlots, hm, hf, hb, hl, hq]

/-- A ready instruction finds every register that it reads full. -/
theorem ready_reads {s : State} {r : Run} {i : Instr} (h : s.ready r i) :
    r.foldRecords.readFault (alone i) = none ∧ r.foldRecords.readBlocked (alone i) = false := by
  obtain ⟨-, -, -, -, -, -, -, -, -, hx⟩ := h
  have full : ∀ x ∈ r.foldRecords.reads (alone i), r.foldRecords.isEmpty x.1 = false := fun x hxm => by simp [Run.isEmpty, (hx x hxm).1]
  constructor
  · unfold Run.readFault
    rw [if_neg]
    rw [Bool.not_eq_true, List.any_eq_false]
    exact fun x hxm => by simp [full x hxm]
  · unfold Run.readBlocked
    rw [List.any_eq_false]
    exact fun x hxm => by simp [full x hxm]

theorem ready_mayIssue {s : State} {r : Run} {i : Instr} (h : s.ready r i) : r.mayIssue = true := by
  obtain ⟨-, -, hmay, -⟩ := h
  exact hmay

/-- No wait of a ready sequencer has ended before. -/
theorem ready_waitEnd {s : State} {r : Run} {i : Instr} (h : s.ready r i) : r.foldRecords.waitEnd = none := by
  obtain ⟨-, -, -, hwait, -⟩ := h
  exact (congrArg Run.waitEnd (foldRecords_only r) :).trans hwait

/-! ## What an event does that issues a bundle -/

/-- Where a sequencer goes on that the slots have left as `x`. -/
theorem onward_of_issued {s : State} {old x y : Run} {b : Slots} (hpc : y.pc = ((s.leaving x).issued old b false).r.pc)
    (hl : y.levels = ((s.leaving x).issued old b false).r.levels) (hd : y.depth = ((s.leaving x).issued old b false).r.depth)
    (hs : y.sbase = ((s.leaving x).issued old b false).r.sbase) : Onward old x y := by
  rw [Onward, hpc, hl, hd, hs]
  exact ⟨issued_onward (s.leaving x) old b rfl rfl rfl, fun h c hr hc => issued_atEnd (s.leaving x) old b rfl rfl h hr hc⟩

/-- The sequencer behind the advance with which a bundle entered is the one that its slots have left, but for the wave and where it goes on. -/
theorem entered_regsOf {s s1 : State} {old x r1 : Run} {i : Instr} (he : (s.leaving x).enters old i = .moved s1 r1) :
    RegsOf x (((s.leaving x).issued old (alone i) false).entered old r1) := by
  obtain ⟨-, hregs, -⟩ := issued_keeps (s.leaving x) old (alone i) rfl
  unfold Ctl.enters at he
  obtain ⟨-, hwave, -⟩ := advance_moved he
  generalize (s.leaving x).issued old (alone i) false = e at *
  exact regsOf_trans hregs (regsOf_trans (y := e.entering old (old.flight (alone i) (cellWords i).1 (cellWords i).2) (old.record (alone i))) rfl
    hwave.regsOf)

/-- The end of an event that issues a bundle whose slots have left the sequencer as `x` and changed nothing else, once the advance has been made. -/
theorem does_of_enters {s s1 : State} {ev i : Instr} {old x r1 : Run} (hh : x.head = s.cur) (ha : x.arrays = old.arrays)
    (he : (s.leaving x).enters old i = .moved s1 r1)
    (hx : exec ev s = .next (s1.settleIssue (((s.leaving x).issued old (alone i) false).entered old r1))) : Does s ev old x s := by
  obtain ⟨hs, hregs, hfmt, hsrt, hfp, hsp, hclosing, ⟨hstall, hwait, hprecv⟩, hrft⟩ := issued_keeps (s.leaving x) old (alone i) rfl
  have hy := entered_regsOf he
  have onward (y : Run) := onward_of_issued (s := s) (old := old) (x := x) (y := y) (b := alone i)
  unfold Ctl.enters at he
  dsimp only at he
  rw [hs] at he
  obtain ⟨hkept, hwave, -⟩ := advance_moved he
  generalize (s.leaving x).issued old (alone i) false = e at *
  have hya : (e.entered old r1).arrays = old.arrays := hy.arrays.trans ha
  have hyh : (e.entered old r1).head = s.cur := hy.head.trans hh
  have hk : Kept old.arrays s (s1.settleIssue (e.entered old r1)) := by
    have := settle_kept s1 (e.entered old r1)
    rw [hya] at this
    rw [show (e.entering old _ _).arrays = old.arrays from hregs.arrays.trans ha] at hkept
    exact kept_trans hkept.kept this
  refine ⟨_, s1.hears (e.entered old r1), hx, ?_, ⟨hy.hears hkept.runs, ?_, ?_, ?_, ?_⟩, onward _ ?_ ?_ ?_ ?_, ⟨rfl, ?_, ?_, ?_, ?_⟩, hk, ?_,
    hk.sameBytes⟩
  · rw [settle_run, if_pos hyh.symm]
  · exact (congrArg Run.fmt hwave).trans hfmt
  · exact (congrArg Run.srt hwave).trans hsrt
  · exact (congrArg Run.fmtPend hwave).trans hfp
  · exact (congrArg Run.semPend hwave).trans hsp
  · exact (congrArg Run.pc hwave :)
  · exact (congrArg Run.levels hwave :)
  · exact (congrArg Run.depth hwave :)
  · exact (congrArg Run.sbase hwave :)
  · show (if e.rft = true then Phase.returning old.pc else goOn e.r.closing) = .issue
    rw [hrft, hclosing]
    rfl
  · exact (congrArg Run.stall hwave).trans hstall
  · exact (congrArg Run.waitEnd hwave).trans hwait
  · exact (congrArg Run.precvEnd hwave).trans hprecv
  · intro h hne
    rw [settle_run, if_neg (hyh ▸ hne)]
    exact congrArg (tabFind · h) hkept.runs

/-! ## Ends of waits and empty registers in the issue of a bundle (R103, R104) -/

/-- A bundle's record with another stall in progress and another end of a wait. -/
def Ctl.waitOver (c : Ctl) (w : Option (Nat × Nat)) (j : Option Bool) : Ctl := { c with r := c.r.stallAs w, judged := j }

theorem backEdge_waitOver (c : Ctl) (w : Option (Nat × Nat)) (j : Option Bool) : (c.waitOver w j).backEdge = c.backEdge.waitOver w j := by
  have h := apply_ite (fun c : Ctl => c.waitOver w j)
  unfold Ctl.backEdge
  rw [h]
  refine if_congr Iff.rfl rfl ?_
  extract_lets
  rw [h]
  refine if_congr Iff.rfl rfl ?_
  rw [h]
  rfl

/-- They leave no trace in the sequencer that goes on. -/
theorem issued_waitOver {c : Ctl} (old : Run) (b : Slots) (w : Option (Nat × Nat)) (j : Option Bool) (hr : c.rot = none) :
    (c.waitOver w j).issued (old.stallAs w) b false = { c.issued old b false with judged := j } := by
  have h1 : c.applyRot = c := by
    unfold Ctl.applyRot
    rw [hr]
  have h2 : (c.waitOver w j).applyRot = c.waitOver w j := by
    unfold Ctl.applyRot
    rw [show (c.waitOver w j).rot = none from hr]
  unfold Ctl.issued
  rw [h1, h2]
  extract_lets c1 c2 q written r1 r2 next d1 d2
  have hc : c2 = d2.waitOver w j := by
    unfold c2 d2
    rw [apply_ite (fun c : Ctl => c.waitOver w j), ← backEdge_waitOver]
    rfl
  clear_value c2 d2
  subst hc
  rfl

/-- A bundle reads its empty registers as they stand and sets the q register of FEQ: as one that sets it itself (R103). -/
theorem issued_stale {s : State} {old x : Run} {b : Slots} (he : old.atEnd = false)
    (hq : ∀ i ∈ seqSlots b, seqQ i ≠ some old.feq.toNat) :
    (s.leaving x).issued old b true = (s.leaving (x.setQ old.feq.toNat true)).issued old b false := by
  have hw : (seqSlots b).any (fun i => old.guard (seqGuard i) && seqQ i == some old.feq.toNat) = false := by
    rw [List.any_eq_false]
    intro i hi
    simp [hq i hi]
  unfold Ctl.issued
  simp only [he, hw]
  rfl

/-! ## Bundles at PC that hold one instruction (R35, R100) -/

/-- The issue of the bundle at PC, whatever stall is in progress, tries the slots of its instruction. -/
theorem issueNext_atPc {s : State} {r : Run} {i : Instr} {w : Option (Nat × Nat)} (h : s.atPc r i) (hm : (r.stallAs w).mayIssue = true) :
    s.issueNext (r.stallAs w) = s.issueSlots (r.stallAs w) (alone i) (cellWords i).1 (cellWords i).2 := by
  obtain ⟨-, -, -, b, hb, hl, h2, h3⟩ := h
  rw [issueNext_fetched hm (fetchBundle_cached hb), issueWord_ok _ _ hl, h2, h3]

/-- The issue of the bundle at PC does what its instruction does by itself. -/
theorem exec_atPc {s : State} {r : Run} {i : Instr} (h : s.atPc r i) (hm : r.mayIssue = true) : exec i s = .next (s.issueNext r) := by
  obtain ⟨hr, -, hi, b, hb, hl, h2, h3⟩ := h
  rw [exec_slot_of_run hi hr, issueNext_fetched hm (fetchBundle_cached hb), issueWord_alone s hm hi hl h2 h3]

/-- The clock of a WAITF plays no part in whether the sequencer may issue. -/
theorem mayIssue_waitf {r : Run} {n : Nat} (m : Nat) (h : r.stall = some (7, n)) (hm : r.mayIssue = true) :
    (r.stallAs (some (7, m))).mayIssue = true := by
  have ha : (r.stallAs (some (7, m))).asyncPending = r.asyncPending := by
    unfold Run.asyncPending Run.inEndStall
    rw [h]
    rfl
  unfold Run.mayIssue at *
  rw [ha]
  exact hm

theorem moved_of_isMoved {a : Advance} (h : a.isMoved = true) : ∃ s r, a = .moved s r := by
  cases a with
  | stalled _ => cases h
  | fault _ _ _ => cases h
  | moved s r => exact ⟨s, r, rfl⟩

/-! ## Changes of registers -/

theorem setQ_keeps (r : Run) (n : Nat) (b : Bool) : { r.setQ n b with q := r.q } = r := by
  unfold Run.setQ
  split <;> rfl

theorem setS_keeps (r : Run) (n : Nat) (v : DWord) : { r.setS n v with s := r.s, loads := r.loads } = r := by
  unfold Run.setS
  split <;> rfl

theorem setQ_stallAs (r : Run) (n : Nat) (b : Bool) (w : Option (Nat × Nat)) : (r.stallAs w).setQ n b = (r.setQ n b).stallAs w := by
  unfold Run.setQ
  split <;> rfl

/-- A slot of a bundle that reads no poisoned register. -/
theorem poisonedRead_of_reads {r : Run} {b : Slots} {i : Instr} (h : ∀ e ∈ r.reads b, (r.sreg e.1).poison = none) (hi : i ∈ seqSlots b) :
    r.poisonedRead i = none := by
  unfold Run.poisonedRead
  rw [List.findSome?_eq_none_iff]
  intro x hx
  rw [h x (List.mem_flatMap.2 ⟨i, hi, hx⟩), Option.map_none]

/-! ## A stall that has lasted (R103, R117, R162) -/

theorem stalledFor_kind {r : Run} {k n : Nat} (now : Nat) (h : r.stall = some (k, n)) : r.stalledFor k now = now - n := by
  simp [Run.stalledFor, h, sameClock]

/-- A stall that has lasted long enough tries its bundle once more. -/
theorem tryLate_late {s : State} {r : Run} {k n : Nat} (h : r.stall = some (k, n)) : s.tryLate r k true = s.issueNext r := by
  simp [State.tryLate, h]

theorem fullTimeout_late {s : State} {r : Run} {k n : Nat} (h : r.stall = some (k, n)) (hl : tmoTicks r.stallTmo < s.ticks - n) :
    s.fullTimeout r k = s.issueNext r := by
  unfold State.fullTimeout Run.overdue
  rw [stalledFor_kind s.ticks h, decide_eq_true hl, tryLate_late h]

theorem feTimeout_late {s : State} {r : Run} {n : Nat} (h : r.stall = some (0, n)) (hl : tmoTicks r.fetmo ≤ s.ticks - n) :
    s.feTimeout r = s.issueNext r := by
  unfold State.feTimeout
  rw [stalledFor_kind s.ticks h, decide_eq_true hl, tryLate_late h]

theorem feLate_of_stall {r : Run} {n now : Nat} (h : r.stall = some (0, n)) (hl : tmoTicks r.fetmo ≤ now - n) :
    r.foldRecords.feLate now = true := by
  have hs : r.foldRecords.stall = r.stall := (congrArg Run.stall (foldRecords_only r) :)
  have hf : r.foldRecords.fetmo = r.fetmo := (congrArg Run.fetmo (foldRecords_only r) :)
  simp [Run.feLate, hs, hf, h, hl]

/-- FECTL.FETMO with FEQ = 0 raises F/E.EMPTY. -/
theorem feTimeout_traps {s : State} {r : Run} {i : Instr} {n : Nat} (h : s.atPc r i) (hm : r.mayIssue = true) (hs : r.stall = some (0, n))
    (hl : tmoTicks r.fetmo ≤ s.ticks - n) (hmis : r.foldRecords.mismatch (alone i) = false) (hf : r.foldRecords.readFault (alone i) = none)
    (hb : r.foldRecords.readBlocked (alone i) = true) (hq : r.feq = 0) : Traps s .feTimeout r (issueFault 0x001 0) := by
  have hq' : r.foldRecords.feq = 0 := (congrArg Run.feq (foldRecords_only r) :).trans hq
  refine (atBench_of_run h.1 _).trans (congrArg _ ?_)
  rw [feTimeout_late hs hl]
  exact (issueNext_atPc (w := r.stall) h hm).trans (issueSlots_empty _ _ hmis hf hb (feLate_of_stall hs hl) hq')

/-- FECTL.FETMO with FEQ = n issues the bundle of an instruction that only writes the sequencer, with the data that its registers hold, and sets
qn. -/
theorem feTimeout_does {s : State} {r x : Run} {i : Instr} {n : Nat} (h : s.atPc r i) (hm : r.mayIssue = true) (hs : r.stall = some (0, n))
    (hl : tmoTicks r.fetmo ≤ s.ticks - n) (hmis : r.foldRecords.mismatch (alone i) = false) (hf : r.foldRecords.readFault (alone i) = none)
    (hb : r.foldRecords.readBlocked (alone i) = true) (ho : r.foldRecords.endOfOuter = false) (hend : r.foldRecords.atEnd = false) (hq : r.feq ≠ 0)
    (ha : attempt r.foldRecords (s.fresh r.foldRecords) (alone i) = .ok (s.leaving x))
    (hsq : ∀ j ∈ seqSlots (alone i), seqQ j ≠ some r.foldRecords.feq.toNat) (hh : x.head = r.head) (har : x.arrays = r.foldRecords.arrays)
    (hmv : (s.leaving (x.setQ r.foldRecords.feq.toNat true)).moves r.foldRecords i = true) :
    Does s .feTimeout r.foldRecords (x.setQ r.foldRecords.feq.toNat true) s := by
  have hq' : r.foldRecords.feq ≠ 0 := (congrArg Run.feq (foldRecords_only r) :) ▸ hq
  have hkeep := setQ_keeps x r.foldRecords.feq.toNat true
  obtain ⟨s1, r1, he⟩ := moved_of_isMoved hmv
  refine does_of_enters ((congrArg Run.head hkeep :).trans (hh.trans h.2.1)) ((congrArg Run.arrays hkeep :).trans har) he ?_
  refine (atBench_of_run h.1 _).trans (congrArg _ ?_)
  rw [feTimeout_late hs hl, show s.issueNext r = s.issueNext (r.stallAs r.stall) from rfl, issueNext_atPc h hm]
  refine (issueSlots_ok _ _ hmis hf (fun _ => ⟨feLate_of_stall hs hl, hq'⟩) ho ha rfl).trans ?_
  rw [hb, issued_stale hend hsq]
  exact enterWave_moved he

/-! ## Waits that end (R104, R111) -/

/-- An instruction whose wait has ended issues as one that never waited. -/
theorem issueNext_waitOver {s s1 : State} {r x r1 : Run} {i : Instr} {w : Option (Nat × Nat)} {j : Option Bool} (h : s.atPc r i)
    (hr : s.ready r i) (hm : (r.stallAs w).mayIssue = true)
    (ha : attempt (r.foldRecords.stallAs w) (s.fresh (r.foldRecords.stallAs w)) (alone i) = .ok ((s.leaving x).waitOver w j))
    (he : (s.leaving x).enters r.foldRecords i = .moved s1 r1) :
    s.issueNext (r.stallAs w) = s1.settleIssue (((s.leaving x).issued r.foldRecords (alone i) false).entered r.foldRecords r1) := by
  obtain ⟨hf, hb⟩ := ready_reads hr
  obtain ⟨-, -, -, -, -, -, -, hmis, ho, -⟩ := hr
  have hold := foldRecords_stallAs r w
  have hb' : (r.stallAs w).foldRecords.readBlocked (alone i) = false := hold ▸ hb
  rw [issueNext_atPc h hm, issueSlots_ok (r := r.stallAs w) _ _ (hold ▸ hmis) (hold ▸ hf) (fun hk => absurd (hb'.symm.trans hk) Bool.false_ne_true)
    (hold ▸ ho) (hold ▸ ha) rfl, hb', hold, issued_waitOver _ _ _ _ rfl]
  exact enterWave_moved he

theorem waitf_met {s : State} {old : Run} {g : QGuard} (t : BitVec 6) (q : BitVec 3) (w : Option (Nat × Nat)) (hg : old.guard g = true)
    (hw : old.waitEnd = none) (hf : old.flagsReady = true) :
    waitfSlot g t q (old.stallAs w) (s.fresh (old.stallAs w)) = .ok ((s.leaving (old.setQ q.toNat false)).waitOver w (some true)) := by
  have hg' : (old.stallAs w).guard g = true := hg
  have hw' : (old.stallAs w).waitEnd = none := hw
  have hf' : (old.stallAs w).flagsReady = true := hf
  simp only [waitfSlot, guarded, hg', if_true, Ctl.awaitKind, Ctl.awaitAs, hw', hf', Ctl.setQ, Ctl.upd, Ctl.waitOver, State.leaving, State.fresh,
    setQ_stallAs]

theorem waitf_late {s : State} {old : Run} {g : QGuard} {t : BitVec 6} (q : BitVec 3) {n : Nat} (hg : old.guard g = true) (hw : old.waitEnd = none)
    (hf : old.flagsReady = false) (hl : (old.x t).toNat ≤ s.ticks - n) :
    waitfSlot g t q (old.stallAs (some (7, n))) (s.fresh (old.stallAs (some (7, n))))
      = .ok ((s.leaving (old.setQ q.toNat true)).waitOver (some (7, n)) (some false)) := by
  have hg' : (old.stallAs (some (7, n))).guard g = true := hg
  have hw' : (old.stallAs (some (7, n))).waitEnd = none := hw
  have hf' : (old.stallAs (some (7, n))).flagsReady = false := hf
  have hl' : ((old.stallAs (some (7, n))).x t).toNat ≤ (s.fresh (old.stallAs (some (7, n)))).waited (old.stallAs (some (7, n))) := hl
  simp only [waitfSlot, guarded, hg', if_true, Ctl.awaitKind, Ctl.awaitAs, hw', hf', Bool.false_eq_true, if_false, if_pos hl', id]
  simp only [Ctl.setQ, Ctl.upd, Ctl.waitOver, State.leaving, State.fresh, setQ_stallAs]

/-- The event of a wait whose condition holds issues its bundle. -/
theorem waitSatisfied_issues {s t : State} {r z : Run} {k n : Nat} (hw : r.waits = true) (hs : r.stall = some (k, n))
    (ht : s.issueNext (r.stallAs (some (k, s.ticks))) = t) (hz : t.run? r.head = some z) (hn : z.num ≠ r.num) : s.waitSatisfied r = t := by
  have ht' : s.issueNext { r with stall := some (k, s.ticks) } = t := ht
  simp [State.waitSatisfied, hs, hw, ht', hz, hn]

/-- A WAITF whose wait has ended as `j` says, with the q bit `b` of that end, completes at an event that tries its bundle. -/
theorem waitf_does {s : State} {r : Run} {ev : Instr} {g : QGuard} {t : BitVec 6} {q : BitVec 3} {n m : Nat} {b : Bool} {j : Option Bool}
    (h : s.atPc r (.waitf g t q)) (hr : s.ready r (.waitf g t q)) (hs : r.stall = some (7, n))
    (hw : waitfSlot g t q (r.foldRecords.stallAs (some (7, m))) (s.fresh (r.foldRecords.stallAs (some (7, m))))
      = .ok ((s.leaving (r.foldRecords.setQ q.toNat b)).waitOver (some (7, m)) j))
    (hx : ∀ u z, s.issueNext (r.stallAs (some (7, m))) = u → u.run? r.head = some z → z.num = r.num + 1 → exec ev s = .next u)
    (hm : (s.leaving (r.foldRecords.setQ q.toNat b)).moves r.foldRecords (.waitf g t q) = true) :
    Does s ev r.foldRecords (r.foldRecords.setQ q.toNat b) s := by
  have hkeep := setQ_keeps r.foldRecords q.toNat b
  have hh : (r.foldRecords.setQ q.toNat b).head = r.head := (congrArg Run.head hkeep :).trans (congrArg Run.head (foldRecords_only r) :)
  have hp := ready_poison hr (List.mem_cons_of_mem _ (List.mem_cons_self ..))
  have hmay : r.mayIssue = true := ready_mayIssue hr
  obtain ⟨s1, r1, he⟩ := moved_of_isMoved hm
  have hnext := issueNext_waitOver h hr (mayIssue_waitf m hs hmay) (attempt_control rfl hp hw) he
  refine does_of_enters (hh.trans h.2.1) (congrArg Run.arrays hkeep :) he (hx _ _ hnext ((settle_run ..).trans (if_pos ?_)) ?_)
  · exact ((entered_regsOf he).head.trans hh).symm
  · exact congrArg (· + 1) (congrArg Run.num (foldRecords_only r) :)

/-! ## Advances without issue (R33, R331) -/

theorem leaves_flights (l : List Flight) (r : Run) : (l.foldl Run.leave r).flights = r.flights := by
  induction l generalizing r with
  | nil => rfl
  | cons f l ih => exact (ih _).trans (by unfold Run.leave; split <;> rfl)

theorem countRecords_flights (r : Run) (issue blank : Bool) : (r.countRecords issue blank).flights = r.flights := by
  unfold Run.countRecords
  split <;> rfl

theorem steppedFlights_none (r : Run) : steppedFlights r none = r.flights.map (fun (f : Flight) => { f with adv := f.adv + 1 }) :=
  List.append_nil _

/-- After an advance the bundles are in flight that have not passed the last cells. -/
theorem advance_flights {s s1 : State} {r r1 : Run} {new : Option Flight} {blank : Bool} (h : s.advance r new blank = .moved s1 r1) :
    r1.flights = (steppedFlights r new).filter (fun f => f.adv ≤ endPos (benchOffsets r.arrays 0) f.skew) := by
  unfold State.advance at h
  dsimp only at h
  split at h
  · cases h
  · split at h
    · cases h
    · injection h with _ h
      subst h
      refine (countRecords_flights _ _ _).trans ((leaves_flights _ _).trans (List.filter_congr fun f _ => ?_))
      simp [← decide_not]

/-- The FACE.STALL of a stream that withholds an advance. -/
theorem advance_stalled_cause {s : State} {r : Run} {new : Option Flight} {blank : Bool} {info : TrapInfo}
    (h : s.advance r new blank = .stalled info) : info.cause = 0x0A0 := by
  unfold State.advance at h
  dsimp only at h
  split at h
  · cases h
    unfold CellRes.stallInfo
    split
    · rfl
    · split <;> rfl
  · split at h <;> cases h

/-- The sequencer with an advance counted: a blank one as blank. -/
def Run.counted (r : Run) (blank : Bool) : Run := if blank then r.blankMade else r

theorem counted_keeps (r : Run) (blank : Bool) : { r.counted blank with blanks := r.blanks, vadvs := r.vadvs } = r := by cases blank <;> rfl

theorem Waved.counted {x y : Run} (h : Waved x y) (blank : Bool) : Waved (x.counted blank) (y.counted blank) := by
  cases blank with
  | false => exact h
  | true => exact congrArg Run.blankMade h

theorem idleAdvance_moved {s s1 : State} {r r1 : Run} {blank : Bool} (h : s.advance r none blank = .moved s1 r1) :
    s.idleAdvance r blank = ((s1.countHold (r1.counted blank)).tidy (r1.counted blank)).returned (r1.counted blank) := by
  simp only [State.idleAdvance, h, Run.counted]

theorem idleAdvance_stalled {s : State} {r : Run} {blank : Bool} {info : TrapInfo} (h : s.advance r none blank = .stalled info) :
    s.idleAdvance r blank = s.streamStall r info := by simp only [State.idleAdvance, h]

/-- The sequencer of the current bench put back. -/
theorem setRun_keeps (s : State) {y : Run} {cur : Nat} (l : List Nat) (hy : y.head = cur) :
    (s.setRun y).run? cur = some y ∧ Kept l s (s.setRun y) ∧ OtherRuns cur s (s.setRun y) :=
  ⟨(run_setRun ..).trans (if_pos hy.symm), ⟨rfl, fun _ _ => rfl, fun _ => rfl, fun _ => rfl, fun _ _ => rfl⟩,
    fun _ hne => (run_setRun ..).trans (if_neg (hy ▸ hne))⟩

/-- What the end of an advance without issue leaves: the return of an RFT follows when nothing is on its way any more, and otherwise the sequencer is
put back. -/
theorem returned_of_busy (s : State) {y : Run} (h : (∀ pc, y.phase ≠ .returning pc) ∨ y.flights ≠ [] ∨ y.loads ≠ []) :
    s.returned y = s.setRun y := by
  by_cases hp : ∃ pc, y.phase = .returning pc
  · obtain ⟨pc, hp⟩ := hp
    rw [returned_returning s hp, if_neg]
    rintro ⟨hf, hl, -⟩
    rcases h with h | h | h
    · exact h pc hp
    · exact h hf
    · exact h hl
  · exact returned_other s (fun pc hq => hp ⟨pc, hq⟩)

/-- An advance that a wave makes with no bundle entering. -/
theorem idleAdvance_goes {s : State} {r : Run} {blank : Bool} (hh : r.head = s.cur) (hm : (s.advance r none blank).isMoved = true) :
    ∃ u y, s.idleAdvance r blank = u.returned y ∧ Waved (r.counted blank) y ∧ y.kept = [] ∧ y.redo = false ∧ y.face = none
      ∧ y.flights = (r.flights.map (fun f => { f with adv := f.adv + 1 })).filter (fun f => f.adv ≤ endPos (benchOffsets r.arrays 0) f.skew)
      ∧ Kept r.arrays s u ∧ OtherRuns s.cur s u ∧ y.phase = r.phase ∧ y.head = s.cur := by
  obtain ⟨s1, r1, ha⟩ := moved_of_isMoved hm
  obtain ⟨hkept, hwave, h1, h2, h3⟩ := advance_moved ha
  have hc := counted_keeps r1 blank
  have hp : (r1.counted blank).phase = r.phase := (congrArg Run.phase hc :).trans (congrArg Run.phase hwave :)
  have har : (r1.counted blank).arrays = r.arrays := (congrArg Run.arrays hc :).trans (congrArg Run.arrays hwave :)
  have hd : (r1.counted blank).head = s.cur := (congrArg Run.head hc :).trans ((congrArg Run.head hwave :).trans hh)
  have hfl : (r1.counted blank).flights = r1.flights := (congrArg Run.flights hc :)
  have hend := (waveKept_tidy (s1.countHold (r1.counted blank)) (r1.counted blank)).kept
  rw [har] at hend
  have hruns : (((s1.countHold (r1.counted blank)).tidy (r1.counted blank))).runs = s.runs :=
    (waveKept_tidy ..).runs.trans ((countHold_runs ..).trans hkept.runs)
  refine ⟨_, _, idleAdvance_moved ha, hwave.counted blank, (congrArg Run.kept hc :).trans h1, (congrArg Run.redo hc :).trans h2,
    (congrArg Run.face hc :).trans h3, hfl.trans ((advance_flights ha).trans (by rw [steppedFlights_none])),
    kept_trans hkept.kept (kept_trans (kept_countHold ..) hend),
    fun h _ => congrArg (tabFind · h) hruns, hp, hd⟩

theorem exec_blankAdvance {s : State} {r : Run} (hr : s.run? s.cur = some r) (h : r.owesBlank = true) :
    exec .blankAdvance s = .next (s.idleAdvance r true) := (atBench_of_run hr _).trans (congrArg _ (if_pos h))

theorem exec_drainAdvance {s : State} {r : Run} (hr : s.run? s.cur = some r) (h : r.drains = true) :
    exec .drainAdvance s = .next (s.idleAdvance r false) := (atBench_of_run hr _).trans (congrArg _ (if_pos h))

/-- A stalled bench goes on. -/
theorem exec_stallResume {s : State} {r : Run} (hr : s.run? s.cur = some r) (h : r.stall.isSome = true ∨ r.face.isSome = true) :
    exec .stallResume s = .next (s.goAhead r) := (atBench_of_run hr _).trans (congrArg _ (if_pos (by simpa using h)))

theorem goAhead_drains (s : State) {r : Run} (hd : r.drains = true) (hf : r.face.isSome = true) : s.goAhead r = s.idleAdvance r false := by
  simp [State.goAhead, hd, hf]

/-- No withdrawn advance has to be made again. -/
def Run.unwithdrawn (r : Run) : Prop := r.drains = false ∨ r.face = none

theorem goAhead_blank (s : State) {r : Run} (h : r.unwithdrawn) (hb : r.owesBlank = true) : s.goAhead r = s.idleAdvance r true := by
  rcases h with h | h <;> simp [State.goAhead, h, hb]

theorem goAhead_issue (s : State) {r : Run} (h : r.unwithdrawn) (hm : r.mayIssue = true) : s.goAhead r = s.issueNext r := by
  have hb : r.owesBlank = false := by
    simp only [Run.mayIssue, Bool.and_eq_true, beq_iff_eq] at hm
    obtain ⟨⟨⟨-, hz⟩, -⟩, -⟩ := hm
    simp [Run.owesBlank, hz]
  rcases h with h | h <;> simp [State.goAhead, h, hb]

/-- A face stream withholds the advance of a bench for longer than STALL.TMO (R45). -/
theorem stallTimeout_stops {s : State} {r : Run} {n : Nat} {info : TrapInfo} (hface : r.face = some n) (hl : tmoTicks r.stallTmo < s.ticks - n)
    (ha : r.arrived = none) (hg : r.owesBlank = true ∨ r.drains = true) (hadv : s.advance r none (!r.drains) = .stalled info) :
    s.stallTimeout r = s.setRun (r.stopFor info) := by
  have hover : r.overdue (s.ticks - n) = true := decide_eq_true hl
  have hidle : s.idleAdvance r (!r.drains) = s.setRun (r.stopFor info) := by
    rw [idleAdvance_stalled hadv]
    simp [State.streamStall, hface, hover, State.stopIssue, State.stopBar, ha]
  rw [← hidle]
  unfold State.stallTimeout State.goAhead
  cases hd : r.drains with
  | true => simp [hface, hover]
  | false => simp [hface, hover, hg.resolve_right (by simp [hd])]

theorem flagsReady_iff (r : Run) : r.flagsReady = true ↔ ∀ x ∈ r.records, x.flags = none := by
  simp [Run.flagsReady]

/-- A WAITF that waits issues with q = 0 once its records are readable. -/
theorem waitf_satisfied {s : State} {r : Run} {g : QGuard} {t : BitVec 6} {q : BitVec 3} {n : Nat} (h : s.atPc r (.waitf g t q))
    (hr : s.ready r (.waitf g t q)) (hg : r.foldRecords.guard g = true) (hs : r.stall = some (7, n)) (hf : r.foldRecords.flagsReady = true)
    (hm : (s.leaving (r.foldRecords.setQ q.toNat false)).moves r.foldRecords (.waitf g t q) = true) :
    Does s .waitSatisfied r.foldRecords (r.foldRecords.setQ q.toNat false) s := by
  have hw := ready_waitEnd hr
  refine waitf_does (m := s.ticks) h hr hs (waitf_met t q _ hg hw hf) (fun u z hu hz hn => ?_) hm
  rw [← waitSatisfied_issues (by simp [Run.waits, hs]) hs hu hz (by omega)]
  exact atBench_of_run h.1 _

/-- It issues with q = 1 once its timeout has run out. -/
theorem waitf_timeout {s : State} {r : Run} {g : QGuard} {t : BitVec 6} {q : BitVec 3} {n : Nat} (h : s.atPc r (.waitf g t q))
    (hr : s.ready r (.waitf g t q)) (hg : r.foldRecords.guard g = true) (hs : r.stall = some (7, n)) (hf : r.foldRecords.flagsReady = false)
    (hl : (r.foldRecords.x t).toNat ≤ s.ticks - n)
    (hm : (s.leaving (r.foldRecords.setQ q.toNat true)).moves r.foldRecords (.waitf g t q) = true) :
    Does s .waitTimeout r.foldRecords (r.foldRecords.setQ q.toNat true) s := by
  have hw := ready_waitEnd hr
  refine waitf_does (m := n) h hr hs (waitf_late q hg hw hf hl) (fun u z hu _ _ => ?_) hm
  have hr' : r.stallAs (some (7, n)) = r := by rw [← hs]; rfl
  rw [← hu, hr']
  refine (atBench_of_run h.1 _).trans (congrArg _ (if_pos ?_))
  simp [Run.waits, hs]

/-- ADD at an empty register that FECTL.FETMO lets it read. -/
theorem feTimeout_add {s : State} {r : Run} {g : QGuard} {d a b : BitVec 6} {y z : Bool} {n : Nat} (h : s.atPc r (.add g d a b y z))
    (hm : r.mayIssue = true) (hs : r.stall = some (0, n)) (hl : tmoTicks r.fetmo ≤ s.ticks - n)
    (hmis : r.foldRecords.mismatch (alone (.add g d a b y z)) = false) (hf : r.foldRecords.readFault (alone (.add g d a b y z)) = none)
    (hb : r.foldRecords.readBlocked (alone (.add g d a b y z)) = true) (hg : r.foldRecords.guard g = true)
    (hp : ∀ e ∈ r.foldRecords.reads (alone (.add g d a b y z)), (r.foldRecords.sreg e.1).poison = none) (ho : r.foldRecords.endOfOuter = false)
    (hend : r.foldRecords.atEnd = false) (hq : r.feq ≠ 0)
    (hmv : (s.leaving ((r.foldRecords.setS d.toNat (r.foldRecords.x a + r.foldRecords.x b)).setQ r.feq.toNat true)).moves r.foldRecords
      (.add g d a b y z) = true) :
    Does s .feTimeout r.foldRecords ((r.foldRecords.setS d.toNat (r.foldRecords.x a + r.foldRecords.x b)).setQ r.feq.toNat true) s := by
  have hfeq : r.foldRecords.feq = r.feq := (congrArg Run.feq (foldRecords_only r) :)
  have hkeep := setS_keeps r.foldRecords d.toNat (r.foldRecords.x a + r.foldRecords.x b)
  have hslot : scalarSlot (.add g d a b y z) r.foldRecords (s.fresh r.foldRecords)
      = .ok (s.leaving (r.foldRecords.setS d.toNat (r.foldRecords.x a + r.foldRecords.x b))) := if_pos hg
  have hattempt := attempt_scalar rfl (poisonedRead_of_reads hp (List.mem_cons_self ..)) hslot
  have hsq : ∀ j ∈ seqSlots (alone (.add g d a b y z)), seqQ j ≠ some r.foldRecords.feq.toNat := by
    simp [seqSlots, alone, ownClass, slotClasses, Slots.single, Slots.set, Slots.nop, nopOf, seqQ]
  rw [← hfeq] at hmv ⊢
  exact feTimeout_does h hm hs hl hmis hf hb ho hend hq hattempt hsq
    ((congrArg Run.head hkeep :).trans (congrArg Run.head (foldRecords_only r) :)) (congrArg Run.arrays hkeep :) hmv

/-! ## The statement -/

/-- Settles O40: `idleAdvance_goes` for the advances without issue, `exec_atPc` for the bundle at PC, `feTimeout_does` for FECTL.FETMO,
`stallTimeout_stops` for the faces, and `waitf_does` for the ends of a WAITF. -/
theorem benchesGoOn : Obligations.BenchesGoOn := by
  refine ⟨fun s r hr hh p hp hgo => ?_, fun s r i h => ⟨fun hm => ⟨_, exec_atPc h hm, atBench_of_run h.1 _⟩, fun hst => ⟨?_, ?_, ?_⟩, ?_, ?_, ?_,
    ?_, ?_⟩, fun s r g t q n => ?_⟩
  · have hx : exec p.1 s = .next (s.idleAdvance r p.2.2.1) ∧ p.2.2.2 = r.counted p.2.2.1 := by
      simp only [List.mem_cons, List.not_mem_nil, or_false] at hp
      rcases hp with rfl | rfl
      · exact ⟨exec_blankAdvance hr hgo, rfl⟩
      · exact ⟨exec_drainAdvance hr hgo, rfl⟩
    obtain ⟨hx, hcount⟩ := hx
    refine ⟨fun hm => ?_, fun info hs hf => ?_⟩
    · obtain ⟨u, y, hidle, hw, h1, h2, h3, hfl, hk, ho, hph, hhead⟩ := idleAdvance_goes hh hm
      refine ⟨_, u, y, hx, hcount ▸ hw, h1, h2, h3, hfl, hk, ho, hk.sameBytes, fun hb => ?_, fun pc hp hf hl => ?_⟩
      · obtain ⟨k1, k2, k3⟩ := setRun_keeps u r.arrays hhead
        rw [hidle, returned_of_busy u (hph ▸ hb)]
        exact ⟨k1, kept_trans hk k2, fun h hne => (k3 h hne).trans (ho h hne), (kept_trans hk k2).sameBytes⟩
      · rw [hidle, returned_returning u (hph.trans hp), if_pos ⟨hf, hl, h2⟩]
    · rw [hx, idleAdvance_stalled hs]
      simp [State.streamStall, Run.stream, hf]
  · exact fun hd hf => ⟨_, exec_drainAdvance h.1 hd, (exec_stallResume h.1 hst).trans (congrArg _ (goAhead_drains s hd hf))⟩
  · exact fun hn hb => ⟨_, exec_blankAdvance h.1 hb, (exec_stallResume h.1 hst).trans (congrArg _ (goAhead_blank s hn hb))⟩
  · exact fun hn hm => ⟨_, exec_atPc h hm, (exec_stallResume h.1 hst).trans (congrArg _ (goAhead_issue s hn hm))⟩
  · exact fun n hm hs hl => ⟨_, exec_atPc h hm, (atBench_of_run h.1 _).trans (congrArg _ (fullTimeout_late hs hl))⟩
  · exact fun n hm hs hl => ⟨_, exec_atPc h hm, (atBench_of_run h.1 _).trans (congrArg _ (fullTimeout_late hs hl))⟩
  · exact fun n hm hs hl hmis hf hb hq => feTimeout_traps h hm hs hl hmis hf hb hq
  · rintro n g d a b y z rfl hm hs hl
    exact fun hmis hf hb hg hp ho hend hq hmv => feTimeout_add h hm hs hl hmis hf hb hg hp ho hend hq hmv
  · intro n info hface hl ha hg hadv
    obtain ⟨k1, k2, k3⟩ := setRun_keeps s (y := r.stopFor info) r.arrays h.2.1
    exact ⟨_, _, (atBench_of_run h.1 _).trans (congrArg _ (stallTimeout_stops hface hl ha hg hadv)), k1, rfl, advance_stalled_cause hadv, rfl, rfl,
      rfl, k3, k2.sameBytes⟩
  · intro old i h hr hg hs
    refine ⟨fun hf hm => waitf_satisfied h hr hg hs ((flagsReady_iff _).2 hf) hm, fun hf hl hm => waitf_timeout h hr hg hs ?_ hl hm⟩
    rw [← Bool.not_eq_true, flagsReady_iff]
    intro hn
    obtain ⟨x, hx, hne⟩ := hf
    exact hne (hn x hx)

end Sys2Proof.Machine
end

section
/-!
PROOF. Encoding and decoding (05_encoding.md R56 to R67): a well-formed instruction is read back from its word, and a word that decodes is the word
of a well-formed instruction.
-/

namespace Sys2Proof.Laws.RoundTrip

/-- Every instruction is what its word decodes to; an event stands in no slot. -/
theorem roundTrip (i : Instr) : Statement i := by
  cases i with
  | nopControl => apply nopControl | br => apply br | call => apply call | calli => apply calli | ret => apply ret
  | jmpi => apply jmpi | loop => apply loop | loops => apply loops | lbrk => apply lbrk | lbrka => apply lbrka
  | rotcfg => apply rotcfg | wave => apply wave | fmtset => apply fmtset | semset => apply semset | waitf => apply waitf
  | waitr => apply waitr | drain => apply drain | fence => apply fence | rel => apply rel | acq => apply acq
  | acqW => apply acqW | bar => apply bar | launch => apply launch | signal => apply signal | yield => apply yield
  | done => apply done | trap => apply trap | rft => apply rft | sysrd => apply sysrd | syswr => apply syswr
  | docket => apply docket | dcheck => apply dcheck | stamp => apply stamp | stampS => apply stampS
  | nopScalar => apply nopScalar | add => apply add | sub => apply sub | addi => apply addi | mul => apply mul
  | mulh => apply mulh | mulhu => apply mulhu | div => apply div | divu => apply divu | rem => apply rem
  | remu => apply remu | and => apply and | or => apply or | xor => apply xor | andi => apply andi | ori => apply ori
  | xori => apply xori | shl => apply shl | shr => apply shr | sra => apply sra | shli => apply shli | shri => apply shri
  | srai => apply srai | min => apply min | max => apply max | minu => apply minu | maxu => apply maxu
  | selScalar => apply selScalar | cmp => apply cmp | cmpi => apply cmpi | li => apply li | lui => apply lui
  | movScalar => apply movScalar | clz => apply clz | popc => apply popc | lea => apply lea | ld => apply ld
  | st => apply st | lda => apply lda | stl => apply stl | ldlast => apply ldlast | pref => apply pref
  | aadd => apply aadd | amin => apply amin | amax => apply amax | aand => apply aand | aor => apply aor
  | axor => apply axor | aswap => apply aswap | acas => apply acas | afadd => apply afadd | nopSelector => exact nopSelector
  | selSelector => apply selSelector | mset => apply mset | mrange => apply mrange | mop => apply mop | mflag => apply mflag
  | tscale => apply tscale | nopCell => apply nopCell | iadd => apply iadd | isub => apply isub | imul => apply imul
  | imulh => apply imulh | iand => apply iand | ior => apply ior | ixor => apply ixor | ishl => apply ishl
  | ishr => apply ishr | isra => apply isra | imin => apply imin | imax => apply imax | icmp => apply icmp
  | isel => apply isel | iaddi => apply iaddi | movi => apply movi | movhi => apply movhi | movCell => apply movCell
  | fadd => apply fadd | fsub => apply fsub | fmul => apply fmul | ffma => apply ffma | fmin => apply fmin
  | fmax => apply fmax | fcmp => apply fcmp | fabs => apply fabs | fneg => apply fneg | frcp => apply frcp
  | frsq => apply frsq | fexp2 => apply fexp2 | flog2 => apply flog2 | ftanh => apply ftanh | fcvt => apply fcvt
  | frnd => apply frnd | bfma => apply bfma | hadd2 => apply hadd2 | hmul2 => apply hmul2 | hfma2 => apply hfma2
  | vset => apply vset | vclr => apply vclr | vtest => apply vtest | vsel => apply vsel | vmov => apply vmov
  | pand => apply pand | por => apply por | pxor => apply pxor | pnot => apply pnot | pmov => apply pmov
  | rand => apply rand | lexit => apply lexit | ldc => apply ldc | stc => apply stc | ldc2 => apply ldc2
  | stc2 => apply stc2 | ldca => apply ldca | stca => apply stca | comm => apply comm | smm => apply smm
  | smms => apply smms | smz => apply smz | smadd => apply smadd | smrd => apply smrd | smwr => apply smwr
  | smout => apply smout | smcmp => apply smcmp | scmpr => apply scmpr | scmprPair => apply scmprPair | sexpn => apply sexpn
  | bpack => apply bpack | bunpk => apply bunpk | smred => apply smred | nopInject => apply nopInject | ficfg => apply ficfg
  | figo => apply figo | fihalt => apply fihalt | fipad => apply fipad | fisel => apply fisel | fiqb => apply fiqb
  | nopDrain => apply nopDrain | fdcfg => apply fdcfg | fdgo => apply fdgo | fdhalt => apply fdhalt
  | fdchain => apply fdchain | fdflush => apply fdflush | nopEngine => apply nopEngine | cpy => apply cpy
  | cpya => apply cpya | gath => apply gath | scat => apply scat | red => apply red | ared => apply ared
  | bcst => apply bcst | fill => apply fill | ccan => apply ccan | ckpt => apply ckpt | sortb => apply sortb
  | sortl => apply sortl | sortm => apply sortm | sortd => apply sortd | post => apply post | precv => apply precv
  | _ => exact no_class _ rfl

end Sys2Proof.Laws.RoundTrip

namespace Sys2Proof

/-- Settles O56, by the round trip of each instruction. -/
theorem decodeReadsBackEveryEncoding : Obligations.DecodeReadsBackEveryEncoding := fun c i h =>
  Option.bind_eq_some_iff.1 (Laws.RoundTrip.roundTrip i c h)

open Machine

/-! ## A word from its fields -/

/-- From bit `lo` up, the word reads as `x`. -/
structure Holds (w : Word) (lo : Nat) {len : Nat} (x : BitVec len) : Prop where
  eq : fld w lo len = x

section
variable {w : Word} {lo : Nat}

/-- Fields that stand side by side make up one field. -/
theorem Holds.cat {a b : Nat} {x : BitVec a} {y : BitVec b} (hx : Holds w (lo + b) x) (hy : Holds w lo y) : Holds w lo (x ++ y) := by
  obtain ⟨rfl⟩ := hx
  obtain ⟨rfl⟩ := hy
  exact ⟨(BitVec.extractLsb'_append_extractLsb'_eq_extractLsb' rfl).symm⟩

theorem Holds.field (w : Word) (lo len : Nat) : Holds w lo (fld w lo len) := ⟨rfl⟩

theorem Holds.flag (w : Word) (lo : Nat) : Holds w lo (BitVec.ofBool (bit w lo)) := by
  constructor
  ext i hi
  obtain rfl : i = 0 := by omega
  simp [BitVec.getElem_extractLsb', bit]

/-- A decoder compares the number of an operation. -/
theorem Holds.op {len n : Nat} (h : (fld w lo len).toNat = n) : Holds w lo (BitVec.ofNat len n) := by
  subst h
  exact ⟨by rw [BitVec.ofNat_toNat, BitVec.setWidth_eq]⟩

/-- The word of NOP in S4 is written whole. -/
theorem Holds.nopSelector (hop : (fld w 28 4).toNat = 0) (hr : fld w 0 28 = 0) : Holds w 0 0#32 :=
  Holds.cat (x := 0#4) (y := 0#28) (.op hop) ⟨hr⟩

theorem Holds.whole {x : Word} (h : Holds w 0 x) : x = w := by
  rw [← h.eq]
  exact BitVec.extractLsb'_eq_self

end

/-! ## What a decoder reads -/

/-- The instruction stands in the class, and the word is its encoding. -/
structure Names (c : SlotClass) (w : Word) (i : Instr) : Prop where
  stands : (slotClasses i).contains c = true
  word : encode i = some w

/-- An instruction whose fields the word holds. -/
theorem names_of_holds {c : SlotClass} {w x : Word} {i : Instr} (hc : (slotClasses i).contains c = true) (e : encode i = some x)
    (h : Holds w 0 x) : Names c w i := ⟨hc, h.whole ▸ e⟩

/-- Whatever is read is named by the word. -/
def Reads (c : SlotClass) (w : Word) (o : Option Instr) : Prop := ∀ i, o = some i → Names c w i

section
variable (c : SlotClass) (w : Word)

theorem reads_none : Reads c w none := nofun

theorem reads_some (i : Instr) : Reads c w (some i) ↔ Names c w i := by simp [Reads]

theorem reads_ite (p : Prop) [Decidable p] (a b : Option Instr) :
    Reads c w (if p then a else b) ↔ (p → Reads c w a) ∧ (¬p → Reads c w b) := by split <;> simp [*]

end

/-- Whatever a class's map reads is named by the word: in the case of each operation, the reserved bits that the decoder has checked and the fields
that it has read make up the word by the rules of `Holds`. -/
theorem reads_decodeRaw (c : SlotClass) (w : Word) : Reads c w (decodeRaw c w) := by
  unfold decodeRaw decodeControl decodeScalar decodeCellA decodeCellB decodeSelector decodeInject decodeDrain decodeEngine
  split
  all_goals split
  all_goals simp only [reads_ite, reads_some, reads_none, and_imp, implies_true, and_true]
  all_goals and_intros
  all_goals
    intros
    refine names_of_holds rfl rfl ?_
    repeat' refine Holds.cat ?_ ?_
    all_goals solve_by_elim [Holds.field, Holds.flag, Holds.mk, Holds.op, Holds.nopSelector]

theorem decodeRaw_of_decodeSlot {c : SlotClass} {w : Word} {i : Instr} (h : decodeSlot c w = some i) : decodeRaw c w = some i := by
  unfold decodeSlot at h
  split at h
  · rename_i hd
    split at h
    · exact hd.trans h
    · cases h
  · cases h

/-- Settles O57: the fields that a decoder reads, and the reserved bits that it has checked, make up the word. -/
theorem everyDecodedWordIsAnEncoding : Obligations.EveryDecodedWordIsAnEncoding := by
  intro c w i h
  obtain ⟨hc, he⟩ := reads_decodeRaw c w i (decodeRaw_of_decodeSlot h)
  exact ⟨Bool.and_eq_true_iff.2 ⟨hc, decodeSlot_fieldsOk h⟩, he⟩

/-- Settles O55: each word decodes by computation. -/
theorem specWordsDecode : Obligations.SpecWordsDecode := by
  unfold Obligations.SpecWordsDecode
  decide

end Sys2Proof
end

section
/-!
PROOF. Slots that change nothing (05_encoding.md R52, R53, 09_sequencer_isa.md R101), and bundles that do not issue because they are illegal or do
not fit FMT (05_encoding.md R65 to R69, 07_numbers.md R98).
-/

namespace Sys2Proof.Machine

/-! ## A slot with a false guard (R53, R101) -/

section
variable {old : Run} {i : Instr} (h : old.guard (seqGuard i) = false) (c : Ctl)
include h

theorem controlSlot_off : controlSlot i old c = .ok c := by
  unfold controlSlot
  split
  case h_34 => rfl
  all_goals exact if_neg (Bool.eq_false_iff.1 h)

/-- SEL of S1 writes one of its sources under either guard. -/
theorem scalarSlot_off (hs : isSelScalar i = false) : scalarSlot i old c = .ok c := by
  unfold scalarSlot
  split
  case h_27 => cases hs
  case h_51 => rfl
  all_goals exact if_neg (Bool.eq_false_iff.1 h)

theorem injectSlot_off : injectSlot i old c = .ok c := by
  unfold injectSlot
  split
  case h_7 => rfl
  all_goals exact if_neg (Bool.eq_false_iff.1 h)

theorem drainSlotOf_off : drainSlotOf i old c = .ok c := by
  unfold drainSlotOf
  split
  case h_6 => rfl
  all_goals exact if_neg (Bool.eq_false_iff.1 h)

theorem engineSlot_off : engineSlot i old c = .ok c := by
  unfold engineSlot
  split
  case h_17 => rfl
  all_goals exact if_neg (Bool.eq_false_iff.1 h)

end

/-! ## A bundle of an instruction that no slot acts on -/

/-- None of the guarded slots S0, S1, S5, S6 and S7 does anything with the instruction. -/
def Idle (old : Run) (c : Ctl) (i : Instr) : Prop :=
  controlSlot i old c = .ok c ∧ scalarSlot i old c = .ok c ∧ injectSlot i old c = .ok c ∧ drainSlotOf i old c = .ok c ∧ engineSlot i old c = .ok c

theorem idle_of_guard {old : Run} {i : Instr} (c : Ctl) (h : old.guard (seqGuard i) = false) (hs : isSelScalar i = false) : Idle old c i :=
  ⟨controlSlot_off h c, scalarSlot_off h c hs, injectSlot_off h c, drainSlotOf_off h c, engineSlot_off h c⟩

theorem mem_seqSlots_alone {i : Instr} (h : ownClass i ∉ [SlotClass.cellA, .cellB]) : i ∈ seqSlots (alone i) := by
  unfold alone
  cases hc : ownClass i with
  | cellA | cellB => simp [hc] at h
  | control | scalar | selector | inject | drain | engine => simp [seqSlots, Slots.single, Slots.set]

/-- The slots of the bundle that holds an idle instruction leave everything as it was. -/
theorem attempt_idle {old : Run} {c : Ctl} {i : Instr} (hc : ownClass i ∉ [SlotClass.cellA, .cellB, .selector]) (hp : old.poisonedRead i = none)
    (hi : Idle old c i) : attempt old c (alone i) = .ok c := by
  obtain ⟨h0, h1, h5, h6, h7⟩ := hi
  cases h : ownClass i with
  | control => exact attempt_control h hp h0
  | scalar => exact attempt_scalar h hp h1
  | inject => exact attempt_inject h hp h5
  | drain => exact attempt_drain h hp h6
  | engine => exact attempt_engine h hp h7
  | cellA | cellB | selector => simp [h] at hc

/-- An idle instruction completes, and only the sequencer goes on. -/
theorem completes_idle {s : State} {r : Run} {i : Instr} (hs : slotClasses i ≠ []) (hc : ownClass i ∉ [SlotClass.cellA, .cellB, .selector])
    (hi : Idle r.foldRecords (s.fresh r.foldRecords) i) : Completes s r i r.foldRecords s := by
  intro hr hm
  have hp := ready_poison hr (mem_seqSlots_alone fun h => hc (List.mem_of_mem_dropLast h))
  exact does_of_issue (exec_slot hs s) hr (attempt_idle hc hp hi) hm rfl rfl rfl rfl rfl (congrArg Run.head (foldRecords_only r) :) rfl

/-- Settles O8: a false guard makes every slot but SEL of S1 idle, and a NOP is idle under any guard. -/
theorem nullifiedSlotsChangeNothing : Obligations.NullifiedSlotsChangeNothing := by
  intro s r i g hc hsel hi
  rcases hi with rfl | rfl | rfl | rfl | rfl | ⟨hg, hs⟩
  case inr.inr.inr.inr.inr => exact completes_idle hs hc (idle_of_guard _ hg hsel)
  all_goals exact completes_idle (List.cons_ne_nil _ _) hc ⟨rfl, rfl, rfl, rfl, rfl⟩

/-! ## Bundles that do not issue -/

/-- An instruction that its own slot does not admit. -/
theorem issueOne_unformed {s : State} {r : Run} {i : Instr} (hm : r.mayIssue = true) (hw : wellFormed (ownClass i) i = false) :
    s.issueOne r i = s.stopIssue r.foldRecords (illegal (1#8 <<< (ownClass i).index)) := by
  simp [State.issueOne, hm, hw]

/-- An instruction whose bundle has a conflict. -/
theorem issueOne_conflict {s : State} {r : Run} {i : Instr} (hm : r.mayIssue = true) (hw : wellFormed (ownClass i) i = true)
    (hc : conflicts (alone i) ≠ 0) : s.issueOne r i = s.stopIssue r.foldRecords (illegal (conflicts (alone i))) := by
  simpa [State.issueOne, hm, hw] using fun h => absurd h hc

theorem issueOne_legal {s : State} {r : Run} {i : Instr} (hm : r.mayIssue = true) (hw : wellFormed (ownClass i) i = true)
    (hc : conflicts (alone i) = 0) : s.issueOne r i = s.issueSlots r (alone i) (cellWords i).1 (cellWords i).2 := by
  simp [State.issueOne, hm, hw, hc]

/-- A bundle whose tile instruction does not fit FMT stops before its registers are looked at. -/
theorem issueSlots_mismatch {s : State} {r : Run} {b : Slots} (w2 w3 : Word) (h : r.foldRecords.mismatch b = true) :
    s.issueSlots r b w2 w3 = s.stopIssue r.foldRecords (issueFault 0x009 0) := by simp [State.issueSlots, h]

theorem mismatch_alone {old : Run} {i : Instr} {e : Nat} (hc : ownClass i = .cellA) (he : tileEntry i = some e) :
    old.mismatch (alone i) = semMismatch old.fmt (old.entry e) (isSmms i) := by
  have h2 : (alone i).s2 = i := by unfold alone; rw [hc]; rfl
  simp only [Run.mismatch, h2, he]

/-- Settles O25: the legality of a bundle and its fit to FMT are looked at before anything else of it. -/
theorem illegalAndMismatchedBundlesTrap : Obligations.IllegalAndMismatchedBundlesTrap := by
  refine ⟨fun s r i hr _ hm hs => ⟨fun hw => ?_, fun hw hc => ?_⟩, fun s r i e => ?_⟩
  · exact (exec_slot_of_run hs hr).trans (congrArg _ (issueOne_unformed hm hw))
  · exact (exec_slot_of_run hs hr).trans (congrArg _ (issueOne_conflict hm hw hc))
  · intro old hr _ hm hw hc ha he hmis
    have hs : slotClasses i ≠ [] := fun h => by simp [ownClass, h] at ha
    refine (exec_slot_of_run hs hr).trans (congrArg _ ?_)
    rw [issueOne_legal hm hw hc, issueSlots_mismatch _ _ ((mismatch_alone ha he).trans hmis)]

end Sys2Proof.Machine
end

section
/-!
PROOF. Products in a cell (15_semiring_isa.md R209, R211 to R213): what SMM, SMMS and SEXPN do with the words that their codes name, and a bundle
in flight whose codes name no pair (05_encoding.md R55).
-/

namespace Sys2Proof.Machine

/-! ## A tile slot that executes (R209, rows 4 and 5) -/

/-- The guard holds, and no place that the slot reads carries an uncorrectable error. -/
def LaneIn.computes (x : LaneIn) (i : Instr) : Prop :=
  x.inp.guard (cellGuard i) = true ∧ x.readsUe i = false ∧ (accReads i).any (fun n => x.inp.cell.ue.contains (64 + n)) = false

theorem slot_of_computes {x : LaneIn} {i : Instr} (ht : isTile i = true) (h : x.computes i) : x.slot i = x.tileCompute i := by
  obtain ⟨hg, hu, ha⟩ := h
  have hgu : x.guardUe i = false := by
    simp only [LaneIn.readsUe, Bool.or_eq_false_iff] at hu
    obtain ⟨⟨⟨-, hgu⟩, -⟩, -⟩ := hu
    exact hgu
  simp only [LaneIn.slot, ht, LaneIn.tile, hgu, hg, hu, ha, Bool.not_true, Bool.or_self, Bool.false_eq_true, if_true, if_false]

theorem tileTrap_of_fault_none {x : LaneIn} {o : SlotOut} (h : (x.tileTrap o).fault = none) : x.tileTrap o = o := by
  unfold LaneIn.tileTrap at h ⊢
  split at h
  · cases h
  · rfl

/-! ## The slot of a product -/

/-- A product into the accumulator `c`, from ZERO where `z` is set. -/
inductive IsProduct (c : BitVec 2) (z : Bool) : Instr → Prop
  | smm (g : PGuard) (e : BitVec 4) (a b : BitVec 6) : IsProduct c z (.smm g c e a b z)
  | smms (g : PGuard) (e : BitVec 4) (a b : BitVec 6) : IsProduct c z (.smms g c e a b z)
  | sexpn (g : PGuard) (e : BitVec 4) (a : BitVec 6) (b : BitVec 4) : IsProduct c z (.sexpn g c e a b z)

/-- The words at a product's codes. They are `cellSrcs` where the codes name pairs and a quad. -/
def productWords : Instr → List Nat
  | .smm _ _ _ a b _ | .smms _ _ _ a b _ => span a.toNat 2 ++ span b.toNat 2
  | .sexpn _ _ _ a b _ => span a.toNat 2 ++ (span (4 * b.toNat) 2 ++ span (4 * b.toNat + 2) 2)
  | _ => []

/-- The terms of a product for the element in row `r` and column `n`. -/
def LaneIn.productTerms (x : LaneIn) (i : Instr) (r n : Nat) : List (ExactNum × XFlags) :=
  let frag (c : Nat) : DWord := (x.pairBits c).1
  match i with
  | .smm _ _ _ a b _ => x.smmTerms (fun _ _ => none) (frag a.toNat) (frag b.toNat) r n
  | .smms _ _ _ a b _ => x.smmTerms (fun r n => some (x.scalesOf r n)) (frag a.toNat) (frag b.toNat) r n
  | .sexpn _ c _ a b _ => x.sexpnTerms c.toNat (frag a.toNat) (frag (4 * b.toNat)) (frag (4 * b.toNat + 2)) r n
  | _ => []

/-- The scale store carries an uncorrectable error where a product reads it (R287). -/
def LaneIn.productBad (x : LaneIn) : Instr → Bool
  | .smms .. => x.scalesBad
  | .sexpn _ c _ _ _ _ => x.selBad c.toNat
  | _ => false

/-- The sixteen results of a product of which no raise traps (R91). -/
def LaneIn.productOut (x : LaneIn) (c : Nat) (z : Bool) (terms : Nat → Nat → List (ExactNum × XFlags)) : SlotOut :=
  let v (i : Nat) : Word × XFlags :=
    combine x.entry x.fmt (x.draw i) (if z then semZero x.entry else x.accElem c i) (terms (i / 4) (i % 4))
  { lat := 4, lands := [.acc c ((List.range 16).map (fun i => (i, (v i).1))) true],
    raises := (List.range 16).foldl (fun f i => f ||| (v i).2) 0 }

theorem product_of_fault_none {x : LaneIn} {c : Nat} {z : Bool} {terms : Nat → Nat → List (ExactNum × XFlags)}
    (h : (x.product c z terms).fault = none) : x.product c z terms = x.productOut c z terms := by
  unfold LaneIn.product LaneIn.accOut at h ⊢
  rw [tileTrap_of_fault_none h]
  rfl

theorem all_valid_span_two (x : LaneIn) (n : Nat) : (span n 2).all (fun k => (x.inp.word k).v) = (x.pairBits n).2 := by
  simp [show span n 2 = [n, n + 1] from rfl, LaneIn.pairBits, CellIn.pair]

section
variable {x : LaneIn} {c : BitVec 2} {z : Bool} {i : Instr} (hp : IsProduct c z i)
include hp

theorem isTile_product : isTile i = true := by cases hp <;> rfl

/-- An invalid word skips a product, whether its codes name a pair or not. -/
theorem tileCompute_product : x.tileCompute i = if (productWords i).all (fun n => (x.inp.word n).v) then
    (if x.productBad i then SlotOut.faulted 0x1D1 else x.product c.toNat z (x.productTerms i)) else {} := by
  cases hp with
  | smm g e a b =>
    simp only [productWords, List.all_append, all_valid_span_two]
    rfl
  | smms g e a b =>
    simp only [productWords, List.all_append, all_valid_span_two, LaneIn.tileCompute, Bool.not_eq_true', ← Bool.not_eq_true, ite_not]
    rfl
  | sexpn g e a b =>
    simp only [productWords, List.all_append, all_valid_span_two, ← Bool.and_assoc, LaneIn.tileCompute, Bool.not_eq_true', ← Bool.not_eq_true,
      ite_not]
    rfl

theorem slot_product_valid (h : x.computes i) (hv : ∀ n ∈ productWords i, (x.inp.word n).v = true) (hf : (x.slot i).fault = none) :
    x.slot i = x.productOut c.toNat z (x.productTerms i) := by
  rw [slot_of_computes (isTile_product hp) h, tileCompute_product hp, if_pos (List.all_eq_true.2 hv)] at hf ⊢
  split at hf
  · cases hf
  · rename_i hb
    rw [if_neg hb, product_of_fault_none hf]

theorem slot_product_invalid (h : x.computes i) (hv : ∃ n ∈ productWords i, (x.inp.word n).v = false) : x.slot i = {} := by
  rw [slot_of_computes (isTile_product hp) h, tileCompute_product hp, if_neg (by simpa using hv)]

/-! ## Products whose codes name pairs and a quad -/

theorem cellSrcs_product (hw : wellFormed .cellA i = true) : cellSrcs i = productWords i := by
  have pair (d : BitVec 6) (h : pairSrc d = true) : pairWords d = span d.toNat 2 := if_pos h
  cases hp with
  | smm g e a b | smms g e a b =>
    obtain ⟨ha, hb⟩ : pairSrc a = true ∧ pairSrc b = true := by simpa [wellFormed, slotClasses, fieldsOk] using hw
    exact congrArg₂ (· ++ ·) (pair a ha) (pair b hb)
  | sexpn g e a b =>
    obtain ⟨ha, hb⟩ : pairSrc a = true ∧ b.toNat ≤ 10 := by simpa [wellFormed, slotClasses, fieldsOk] using hw
    exact congrArg₂ (· ++ ·) (pair a ha) (if_pos hb)

/-- What O31 says, for the products that the encoding admits: with valid words every element combines with its terms, and with an invalid word
the instruction is skipped. -/
theorem product_combines_its_terms {s : State} {r : Run} (hw : wellFormed .cellA i = true) :
    CellsDo s r i (fun x => x.computes i ∧ ∀ n ∈ cellSrcs i, (x.inp.word n).v = true) (fun x => x.productOut c.toNat z (x.productTerms i))
    ∧ CellsDo s r i (fun x => x.computes i ∧ ∃ n ∈ cellSrcs i, (x.inp.word n).v = false) (fun _ => {}) := by
  have hx : exec i s = s.issueAlone i := by cases hp <;> rfl
  have hc : ownClass i = .cellA ∨ ownClass i = .cellB := by cases hp <;> exact .inl rfl
  rw [cellSrcs_product hp hw]
  exact ⟨cellsDo hx hc fun x h hf => slot_product_valid hp h.1 h.2 hf, cellsDo hx hc fun x h _ => slot_product_invalid hp h.1 h.2⟩

end

/-! ## A bundle in flight whose codes name no pair -/

/-- SMM from ZERO with the code 1, which is no pair code, for both fragments. -/
def oddProduct : Instr := .smm ⟨false, 0⟩ 0 0 1 1 true

/-- Its bundle, before its first advance. -/
def oddFlight : Flight := (Run.reset 1 0 [0] 0 0x40 0 0 0).flight (alone oddProduct) 0 0

/-- A sequencer with that bundle in flight. -/
def oddRun : Run := { Run.reset 1 0 [0] 0 0x40 0 0 0 with flights := [oddFlight] }

theorem oddFlight_holds : oddFlight.holds oddProduct := ⟨rfl, rfl⟩

theorem oddFlight_reaches : oddFlight.reaches oddRun.arrays (0, 0, 0) := by
  unfold Flight.reaches
  decide +kernel

theorem oddFlight_runs : State.reset.runsIn oddRun { oddFlight with adv := 1 } 0 0 0 = true := by decide +kernel

theorem oddRun_moves : (State.reset.advance oddRun none false).isMoved = true := by decide +kernel

/-- The word at the code 1 is invalid in the cell, so the instruction is skipped there and leaves no result on its way. -/
theorem oddProduct_skipped {t : State} {y : Run} (h : State.reset.advance oddRun none false = .moved t y) :
    (t.cellAt oddRun 0 0 0).latches.length = 0 := by
  have skip : ∀ x : LaneIn, x.computes oddProduct ∧ (∃ n ∈ productWords oddProduct, (x.inp.word n).v = false) →
      (x.slot oddProduct).fault = none → x.slot oddProduct = {} := fun x hx _ => slot_product_invalid (.smm _ _ _ _) hx.1 hx.2
  rw [cellsAfter skip (by decide) h [] oddFlight [] rfl oddFlight_holds 0 0 0 oddFlight_reaches (fun _ h => nomatch h) oddFlight_runs
    ⟨⟨by decide +kernel, by decide +kernel, rfl⟩, 1, by decide, by decide +kernel⟩]
  decide +kernel

/-- Refutes O31: `CellsDo` speaks of every bundle in flight, also of one whose instruction no encoding gives. A code that names no pair names no
word of `cellSrcs`, so the first clause asks nothing of the fragments and claims results, while the words at the codes are invalid and the model
skips the instruction (R209, row 4a): `oddProduct` in the first cell of the reset state. Of the instructions that the encoding admits the claim
holds (`product_combines_its_terms`). -/
theorem not_tileProductsCombineTheirTerms : ¬ Obligations.TileProductsCombineTheirTerms := by
  intro h
  obtain ⟨⟨-, goOn⟩, -⟩ := h State.reset oddRun ⟨false, 0⟩ 0 0 1 1 0 true _ (List.mem_cons_self ..)
  obtain ⟨t, y, moved⟩ := moved_of_isMoved oddRun_moves
  have results := (goOn (by decide)).1 none false t y moved [] oddFlight [] rfl oddFlight_holds 0 0 0 oddFlight_reaches (fun _ h => nomatch h)
    oddFlight_runs ⟨⟨by decide +kernel, by decide +kernel, .inl rfl⟩, fun _ h => nomatch h⟩
  have skipped := oddProduct_skipped moved
  rw [results] at skipped
  exact absurd skipped (by decide +kernel)

end Sys2Proof.Machine
end

section
/-!
PROOF. Lane instructions in a cell (11_cell_isa.md R135 to R152, R157): what a slot computes once it executes with valid inputs, and the values
that the integer, predicate, FP32 and BF16 instructions give.
-/

namespace Sys2Proof.Machine

/-! ## A lane slot that executes (R135, row 5) -/

/-- An instruction of S2 or S3 that is neither a tile instruction nor a NOP. -/
structure IsLane (i : Instr) : Prop where
  own : ownClass i = .cellA ∨ ownClass i = .cellB
  notTile : isTile i = false
  notNop : isNopCell i = false

theorem IsLane.slotClasses_ne {i : Instr} (h : IsLane i) : slotClasses i ≠ [] := by
  intro e
  have := h.own
  simp [ownClass, e] at this

theorem testedWords_subset {i : Instr} {ws : List Nat} (h : testedWords i = some ws) : ws ⊆ cellSrcs i := by
  unfold testedWords at h
  split at h
  case h_16 =>
    cases h
    exact List.Subset.refl _
  all_goals cases h
  all_goals exact List.cons_subset.2 ⟨List.mem_cons_self .., List.nil_subset _⟩

section
variable {x : LaneIn} {i : Instr}

/-- A slot whose guard holds, or that its guard does not nullify, computes when the words that it tests are valid and nothing that it reads carries an
error. -/
theorem slot_eq_compute (hi : IsLane i) (hg : x.inp.guard (cellGuard i) = true ∨ isIsel i = true) (hu : x.readsUe i = false)
    (hw : ∀ ws, testedWords i = some ws → ∀ c ∈ ws, (x.inp.word c).v = true) : x.slot i = x.compute i := by
  have hgu : x.guardUe i = false := by
    simp only [LaneIn.readsUe, Bool.or_eq_false_iff] at hu
    obtain ⟨⟨⟨-, hgu⟩, -⟩, -⟩ := hu
    exact hgu
  have hoff : (!x.inp.guard (cellGuard i) && !isIsel i) = false := by rcases hg with h | h <;> simp [h]
  simp only [LaneIn.slot, LaneIn.lane, hi.notTile, hi.notNop, hgu, hoff, hu, Bool.false_eq_true, if_false]
  cases ht : testedWords i with
  | none => rfl
  | some ws => exact if_pos (List.all_eq_true.2 (hw ws ht))

theorem slot_of_live (hi : IsLane i) (h : x.live i) : x.slot i = x.compute i := by
  obtain ⟨hg, hu, hv⟩ := h
  exact slot_eq_compute hi (.inl hg) hu fun ws ht c hc => hv c (testedWords_subset ht hc)

theorem trapped_of_fault_none {o : SlotOut} (h : (x.trapped o).fault = none) : x.trapped o = o := by
  unfold LaneIn.trapped at h ⊢
  split at h
  · cases h
  · rfl

end

/-! ## What lane instructions do in the cells -/

section
variable {s : State} {r : Run} {i : Instr} (hi : IsLane i)
include hi

/-- An instruction that tests no word does what it computes wherever it executes. -/
theorem cellsDo_untested {when : LaneIn → Prop} {out : LaneIn → SlotOut} (ht : testedWords i = none)
    (hw : ∀ x, when x → (x.inp.guard (cellGuard i) = true ∨ isIsel i = true) ∧ x.readsUe i = false)
    (hc : ∀ x, (x.compute i).fault = none → x.compute i = out x) : CellsDo s r i when out :=
  cellsDo (exec_slot hi.slotClasses_ne s) hi.own fun x h hf => by
    obtain ⟨hg, hu⟩ := hw x h
    rw [slot_eq_compute hi hg hu fun ws e => absurd (ht.symm.trans e) nofun] at hf ⊢
    exact hc x hf

theorem cellsDo_live {out : LaneIn → SlotOut} (hc : ∀ x, (x.compute i).fault = none → x.compute i = out x) :
    CellsDo s r i (fun x => x.live i) out :=
  cellsDo (exec_slot hi.slotClasses_ne s) hi.own fun x h hf => by
    rw [slot_of_live hi h] at hf ⊢
    exact hc x hf

/-- An instruction that writes one word. -/
theorem cellsDo_word {d : BitVec 6} {lat : Nat} {v : LaneIn → Word × XFlags} (hc : ∀ x : LaneIn, x.compute i = x.wordOut d lat (v x)) :
    CellsDo s r i (fun x => x.live i) (fun x => x.gives d lat (v x).1 (v x).2) :=
  cellsDo_live hi fun x hf => by
    rw [hc] at hf ⊢
    exact trapped_of_fault_none hf

/-- An instruction that writes a predicate. -/
theorem cellsDo_pred {p : BitVec 4} {v : LaneIn → Bool × XFlags} (hc : ∀ x : LaneIn, x.compute i = x.predOut p (v x).1 (v x).2) :
    CellsDo s r i (fun x => x.live i) (fun x => x.decides p (v x).1 (v x).2) :=
  cellsDo_live hi fun x hf => by
    rw [hc] at hf ⊢
    exact trapped_of_fault_none hf

end

/-! ## Integer values (R81, R139 to R142) -/

/-- A result in 32 bits: clamped with OVF under SAT, wrapped otherwise. -/
theorem satWord_eq (fmt : BitVec 32) (v : Int) : satWord fmt v = if fmtSat fmt = true then
    (BitVec.ofInt 32 (max (-2 ^ 31) (min (2 ^ 31 - 1) v)), if v < -2 ^ 31 ∨ 2 ^ 31 - 1 < v then xOvf else 0) else (BitVec.ofInt 32 v, 0) := by
  unfold satWord fitInt
  dsimp only
  split
  · have hc : clampInt 32 v = max (-2 ^ 31) (min (2 ^ 31 - 1) v) := rfl
    rw [hc]
    refine Prod.ext rfl ?_
    by_cases h : v < -2 ^ 31 ∨ 2 ^ 31 - 1 < v
    · rw [if_pos h, if_neg (by simp only [beq_iff_eq]; omega)]
    · rw [if_neg h, if_pos (by simp only [beq_iff_eq]; omega)]
  · refine Prod.ext (BitVec.eq_of_toNat_eq ?_) rfl
    unfold sext wrap
    rw [BitVec.toNat_ofInt, BitVec.toNat_ofInt]
    split <;> omega

/-- A shift takes the low five bits of its amount. -/
theorem fld_low_five (b : Word) : (fld b 0 5).toNat = b.toNat % 32 := by
  simp [fld, BitVec.extractLsb'_toNat]

theorem iminVal_eq (u : Bool) (a b : Word) :
    iminVal u a b = if (if u then decide (b.toNat < a.toNat) else decide (b.toInt < a.toInt)) then b else a := rfl

theorem imaxVal_eq (u : Bool) (a b : Word) :
    imaxVal u a b = if (if u then decide (a.toNat < b.toNat) else decide (a.toInt < b.toInt)) then b else a := rfl

/-! ## Conditions (R142, R145, R151) -/

theorem intCond_eq (c : BitVec 3) (a b : Word) : intCond c.toNat a b
    = [a == b, a != b, decide (a.toInt < b.toInt), decide (b.toInt ≤ a.toInt), decide (a.toNat < b.toNat), decide (b.toNat ≤ a.toNat),
      a &&& b != 0, a &&& b == 0].getD c.toNat false := by
  have hs : (!a.slt b) = decide (b.toInt ≤ a.toInt) := by simp [BitVec.slt, ← decide_not]
  have hu : (!a.ult b) = decide (b.toNat ≤ a.toNat) := by simp [BitVec.ult, ← decide_not]
  rw [← hs, ← hu]
  have hc := c.isLt
  generalize c.toNat = n at hc ⊢
  interval_cases n <;> rfl

theorem floatCond_eq (c : BitVec 3) (a b : ExactNum) :
    let n := a == .nan || b == .nan
    floatCond c.toNat a b = ([a.eqv b, !a.eqv b, a.lt b, !n && !a.lt b, !n && !b.lt a, b.lt a, n, !n].getD c.toNat false,
      n && decide (2 ≤ c.toNat ∧ c.toNat ≤ 5)) := by
  intro n
  have hc := c.isLt
  generalize c.toNat = k at hc ⊢
  interval_cases k <;> simp [floatCond, n]

theorem validCond_eq (c : BitVec 2) (a b : Bool) :
    validCond c.toNat a b = if c = 0 then a else if c = 1 then !a else if c = 2 then a && b else a || b := by
  match c with
  | 0 | 1 | 2 | 3 => rfl

/-! ## The statements -/

/-- Settles O27: each instruction computes its value by its rule of R139 to R152 once its slot executes (`cellsDo_word`, `cellsDo_pred`,
`cellsDo_untested`). -/
theorem integerPredicateAndValidityResults : Obligations.IntegerPredicateAndValidityResults := by
  refine ⟨fun s r g d a b u n => ?_, fun s r g p q q2 a b c c2 => ?_, fun s r g d a b => ?_⟩
  · intro top A B D sh p hp
    suffices h : IsLane p.1 ∧ ∀ x : LaneIn, x.compute p.1 = x.wordOut d 1 (p.2 x) from cellsDo_word h.1 h.2
    have sat (x : LaneIn) (v : Int) : x.wordOut d 1 (satWord x.fmt v) = x.wordOut d 1 (top x v) := congrArg _ (satWord_eq x.fmt v)
    have shift (x : LaneIn) (f : Nat → Word) : x.wordOut d 1 (f (fld (B x) 0 5).toNat, 0) = x.wordOut d 1 (f (sh x), 0) :=
      congrArg (fun n => x.wordOut d 1 (f n, 0)) (fld_low_five (B x))
    revert p
    simp only [List.forall_mem_cons]
    exact ⟨⟨⟨.inl rfl, rfl, rfl⟩, fun x => sat x _⟩, ⟨⟨.inl rfl, rfl, rfl⟩, fun x => sat x _⟩, ⟨⟨.inl rfl, rfl, rfl⟩, fun x => sat x _⟩,
      ⟨⟨.inl rfl, rfl, rfl⟩, fun x => rfl⟩, ⟨⟨.inl rfl, rfl, rfl⟩, fun x => rfl⟩, ⟨⟨.inl rfl, rfl, rfl⟩, fun x => rfl⟩,
      ⟨⟨.inl rfl, rfl, rfl⟩, fun x => rfl⟩, ⟨⟨.inl rfl, rfl, rfl⟩, fun x => shift x (A x <<< ·)⟩,
      ⟨⟨.inl rfl, rfl, rfl⟩, fun x => shift x (A x >>> ·)⟩, ⟨⟨.inl rfl, rfl, rfl⟩, fun x => shift x (A x).sshiftRight⟩,
      ⟨⟨.inl rfl, rfl, rfl⟩, fun x => rfl⟩, ⟨⟨.inl rfl, rfl, rfl⟩, fun x => rfl⟩, ⟨⟨.inl rfl, rfl, rfl⟩, fun x => sat x _⟩,
      ⟨⟨.inl rfl, rfl, rfl⟩, fun x => rfl⟩, ⟨⟨.inl rfl, rfl, rfl⟩, fun x => rfl⟩, ⟨⟨.inl rfl, rfl, rfl⟩, fun x => rfl⟩, nofun⟩
  · intro A B F lt nan
    refine ⟨fun k hk => ?_, ?_⟩
    · refine (fun h : IsLane k.1 ∧ ∀ x : LaneIn, x.compute k.1 = x.predOut p (k.2 x).1 (k.2 x).2 => cellsDo_pred h.1 h.2) ?_
      revert k
      simp only [List.forall_mem_cons]
      refine ⟨⟨⟨.inl rfl, rfl, rfl⟩, fun x => congrArg (x.predOut p · 0) (intCond_eq c (A x) (B x))⟩, ⟨⟨.inl rfl, rfl, rfl⟩, fun x => ?_⟩,
        ⟨⟨.inl rfl, rfl, rfl⟩, fun x => rfl⟩, ⟨⟨.inl rfl, rfl, rfl⟩, fun x => rfl⟩, ⟨⟨.inl rfl, rfl, rfl⟩, fun x => rfl⟩,
        ⟨⟨.inl rfl, rfl, rfl⟩, fun x => rfl⟩, ⟨⟨.inl rfl, rfl, rfl⟩, fun x => rfl⟩, nofun⟩
      refine (congrArg (fun v : Bool × Bool => x.predOut p v.1 (if v.2 then xInv else 0)) (floatCond_eq c (F x (A x)) (F x (B x)))).trans ?_
      simp only [Bool.and_eq_true, decide_eq_true_eq]
      rfl
    · refine cellsDo_untested ⟨.inl rfl, rfl, rfl⟩ rfl (fun x h => ⟨.inl h.1, h.2⟩) fun x hf => ?_
      exact (trapped_of_fault_none hf).trans (congrArg (x.decides p · 0) (validCond_eq c2 _ _))
  · intro W yields runs p hp
    suffices h : IsLane p.1 ∧ testedWords p.1 = none ∧ ∀ x : LaneIn, x.compute p.1 = p.2 x by
      obtain ⟨hl, ht, hc⟩ := h
      exact cellsDo_untested hl ht (fun x h => h) fun x _ => hc x
    revert p
    simp only [List.forall_mem_cons]
    refine ⟨⟨⟨.inl rfl, rfl, rfl⟩, rfl, fun x => rfl⟩, ⟨⟨.inl rfl, rfl, rfl⟩, rfl, fun x => rfl⟩, ⟨⟨.inl rfl, rfl, rfl⟩, rfl, fun x => rfl⟩,
      ⟨⟨.inl rfl, rfl, rfl⟩, rfl, fun x => ?_⟩, ⟨⟨.inl rfl, rfl, rfl⟩, rfl, fun x => rfl⟩, ⟨⟨.inl rfl, rfl, rfl⟩, rfl, fun x => rfl⟩, nofun⟩
    show yields x (some (if (W x a).v then W x a else W x b).val) (if (W x a).v then W x a else W x b).v = _
    split
    · rename_i ha
      rw [ha]
    · rfl

/-! ## FP32 values (R82, R143, R148) -/

/-- Nothing is written of a source but its sign where it is subnormal and SUBN flushes. -/
theorem tinyWord_eq (fmt : BitVec 32) (w : Word) :
    tinyWord fmt w = if fmtSubn fmt ≠ 0 ∧ fp32.subnormal w.toNat = true then w &&& 0x80000000 else w := by
  unfold tinyWord
  simp only [Bool.and_eq_true, bne_iff_ne]

/-- The mode that FRND names. -/
theorem frndVal_eq (x : LaneIn) (m : BitVec 3) (a : Word) :
    frndVal x m.toNat a = match rdF x.fmt a with
      | .nan => 0x7FC00000
      | .inf _ => a
      | .fin neg k e =>
        let mode := if m = 0 then modeOf (fmtRm x.fmt) else if m = 1 then .rne else if m = 2 then .rz else if m = 3 then .ru else .rd
        BitVec.ofNat 32 (fp32.round roundPlain (.fin neg (roundUnits mode (x.draw 0) neg k e 0) 0)).1 := by
  unfold frndVal
  cases rdF x.fmt a with
  | nan | inf => rfl
  | fin neg k e => match m with
    | 0 | 1 | 2 | 3 | 4 | 5 | 6 | 7 => rfl

theorem fabsVal_eq (fmt : BitVec 32) (a : Word) :
    fabsVal fmt a = if rdF fmt a = .nan then 0x7FC00000 else tinyWord fmt a &&& 0x7FFFFFFF := by
  unfold fabsVal
  simp only [beq_iff_eq]
  rfl

theorem fnegVal_eq (fmt : BitVec 32) (a : Word) :
    fnegVal fmt a = if rdF fmt a = .nan then 0x7FC00000 else tinyWord fmt a ^^^ 0x80000000 := by
  unfold fnegVal
  simp only [beq_iff_eq]
  rfl

/-! ## Conversions, BFMA and RAND (R147, R150, R157) -/

/-- The elements that BFMA selects. -/
theorem bfmaVal_eq (x : LaneIn) (m : BitVec 2) (a b d : Word) :
    bfmaVal x m.toNat a b d =
      let p := (rdB x.fmt a (if m = 1 ∨ m = 3 then 1 else 0)).mul (rdB x.fmt b (if m = 1 ∨ m = 2 then 1 else 0))
      let s := p.1.add (fmtDown x.fmt) (rdF x.fmt d)
      rndF x s.1 (p.2 || s.2) := by
  match m with
  | 0 | 1 | 2 | 3 => rfl

/-- The word of the generator that RAND takes. -/
theorem randVal_eq (x : LaneIn) (m : BitVec 2) (a : Word) :
    randVal x m.toNat a =
      let o := x.random (a &&& 0x7FFFFFFF)
      if m = 0 then o.1 else if m = 1 then o.2.1 else if m = 2 then o.2.2.1 else o.2.2.2 := by
  match m with
  | 0 | 1 | 2 | 3 => rfl

/-- The conversion that FCVT names. -/
theorem fcvtVal_eq (x : LaneIn) (m : BitVec 3) (a b : Word) :
    fcvtVal x m.toNat a b =
      if m = 0 then let r := toIntFmt 32 (fmtRounding x.fmt (x.draw 0)) (rdF x.fmt a); (BitVec.ofInt 32 r.1, r.2)
      else if m = 1 then rndF x (numOfInt a.toInt) false
      else if m = 2 then cvtPair x bf16 a b
      else if m = 3 then cvtPair x fp16 a b
      else if m = 4 then rndF x (bf16.readIn (fmtSubn x.fmt) (a.toNat % 2 ^ 16)) false
      else if m = 5 then rndF x (fp16.readIn (fmtSubn x.fmt) (a.toNat % 2 ^ 16)) false
      else if m = 6 then cvtPair x fpE4m3 a b
      else cvtPair x fpE5m2 a b := by
  match m with
  | 0 | 1 | 2 | 3 | 4 | 5 | 6 | 7 => rfl

/-- Settles O28: each value of the model is the one of the statement, read under SUBN and rounded as FMT says (`cellsDo_word`). -/
theorem floatAndPackedResults : Obligations.FloatAndPackedResults := by
  refine ⟨fun s r g d a b m3 => ?_, fun s r g d a b m3 m2 => ?_⟩
  · intro A B F how rounded down keep nan2 word p hp
    suffices h : IsLane p.1 ∧ ∀ x : LaneIn, x.compute p.1 = x.wordOut d p.2.1 (p.2.2 x) from cellsDo_word h.1 h.2
    have tiny (x : LaneIn) (w : Word) : tinyWord x.fmt w = keep x w := tinyWord_eq x.fmt w
    have plain (x : LaneIn) (lat : Nat) {v w : Word} (h : v = w) : x.wordOut d lat (v, 0) = x.wordOut d lat (w, 0) := congrArg (x.wordOut d lat ⟨·, 0⟩) h
    revert p
    simp only [List.forall_mem_cons]
    refine ⟨⟨⟨.inl rfl, rfl, rfl⟩, fun x => rfl⟩, ⟨⟨.inl rfl, rfl, rfl⟩, fun x => rfl⟩, ⟨⟨.inl rfl, rfl, rfl⟩, fun x => rfl⟩,
      ⟨⟨.inl rfl, rfl, rfl⟩, fun x => rfl⟩, ⟨⟨.inl rfl, rfl, rfl⟩, fun x => plain x 1 ?_⟩, ⟨⟨.inl rfl, rfl, rfl⟩, fun x => plain x 1 ?_⟩,
      ⟨⟨.inl rfl, rfl, rfl⟩, fun x => plain x 1 ?_⟩, ⟨⟨.inl rfl, rfl, rfl⟩, fun x => plain x 1 ?_⟩, ⟨⟨.inl rfl, rfl, rfl⟩, fun x => rfl⟩,
      ⟨⟨.inl rfl, rfl, rfl⟩, fun x => rfl⟩, ⟨⟨.inl rfl, rfl, rfl⟩, fun x => rfl⟩, ⟨⟨.inl rfl, rfl, rfl⟩, fun x => rfl⟩,
      ⟨⟨.inl rfl, rfl, rfl⟩, fun x => rfl⟩, ⟨⟨.inl rfl, rfl, rfl⟩, fun x => plain x 4 ((frndVal_eq x m3 (A x)).trans ?_)⟩, nofun⟩
    · rw [← tiny, ← tiny]
      rfl
    · rw [← tiny, ← tiny]
      rfl
    · rw [← tiny]
      exact fabsVal_eq x.fmt (A x)
    · rw [← tiny]
      exact fnegVal_eq x.fmt (A x)
    · rfl
  · intro A B D how down F H inv single pair both fused p hp
    suffices h : IsLane p.1 ∧ ∀ x : LaneIn, x.compute p.1 = x.wordOut d 4 (p.2 x) from cellsDo_word h.1 h.2
    revert p
    simp only [List.forall_mem_cons]
    exact ⟨⟨⟨.inl rfl, rfl, rfl⟩, fun x => congrArg (x.wordOut d 4) (fcvtVal_eq x m3 (A x) (B x))⟩, ⟨⟨.inl rfl, rfl, rfl⟩, fun x => rfl⟩,
      ⟨⟨.inl rfl, rfl, rfl⟩, fun x => rfl⟩, ⟨⟨.inl rfl, rfl, rfl⟩, fun x => rfl⟩,
      ⟨⟨.inl rfl, rfl, rfl⟩, fun x => congrArg (x.wordOut d 4) (bfmaVal_eq x m2 (A x) (B x) (D x))⟩,
      ⟨⟨.inl rfl, rfl, rfl⟩, fun x => congrArg (x.wordOut d 4 ⟨·, 0⟩) (randVal_eq x m2 (A x))⟩, nofun⟩

end Sys2Proof.Machine
end

section
/-!
PROOF. A fault of the cell store beside a cell that cannot read its loop-active bits (11_cell_isa.md R138, R153, 23_traps.md R287, R290).
-/

namespace Sys2Proof.Machine

/-! ## A loop-active bit with an uncorrectable error beside a load outside the store -/

/-- A sequencer in a loop, in the shape whose first advance reaches a whole row. -/
def rowRun : Run :=
  { Run.reset 1 0 [0] 0 0x40 0 0 0 with depth := 1, levels := vset (Vector.replicate 4 Level.reset) 0 ⟨true, 2, 0, 2, 4, 1, 0⟩ }

/-- The same on array 0, where the loop-active bit of level 0 carries an uncorrectable error in cell (0, 0). -/
def spoiltLoop : State :=
  { State.reset with
    runs := [(0, rowRun)], arrays := [(0, { ArrayState.reset with cells := [(0, { Cell.reset with ue := [530] })] })] }

/-- LDC from 4 bytes below the row number (code 59), which is 0 in every cell of the first row. -/
def lowLoad : Instr := .ldc ⟨false, 0⟩ 9 59 0x1FF

/-- The cause of the trap for which the wave of a bench drains. -/
def drainCause (t : State) (head : Nat) : Option (BitVec 9) := (t.run? head).bind fun y => match y.phase with | .drain w => some w.cause | _ => none

theorem spoiltLoop_ready : spoiltLoop.ready rowRun lowLoad := by
  unfold State.ready
  decide +kernel

/-- No stream withholds the advance with which the load enters. -/
theorem lowLoad_enters : ∀ info, (spoiltLoop.leaving rowRun.foldRecords).enters rowRun.foldRecords lowLoad ≠ .stalled info := by
  have h : (match (spoiltLoop.leaving rowRun.foldRecords).enters rowRun.foldRecords lowLoad with | .stalled _ => true | _ => false) = false := by
    decide +kernel
  intro info e
  rw [e] at h
  cases h

/-- It executes in cell (0, 1). -/
theorem lowLoad_runs : ∃ c ∈ rowRun.foldRecords.firstCells, spoiltLoop.runsIn (spoiltLoop.entersAs rowRun.foldRecords lowLoad).1
    (spoiltLoop.entersAs rowRun.foldRecords lowLoad).2 c.1 c.2.1 c.2.2 = true :=
  ⟨(0, 0, 1), by decide +kernel, by decide +kernel⟩

/-- Its cells take nothing and hold no result on its way, and wherever it executes its address lies outside the store. -/
theorem lowLoad_meets : ∀ c ∈ rowRun.foldRecords.firstCells,
    let e := spoiltLoop.entersAs rowRun.foldRecords lowLoad
    let x := spoiltLoop.cellSees rowRun.foldRecords lowLoad c
    (takeFault c.1 c.2.1 c.2.2 [] (spoiltLoop.cellTakes e.1 (benchOffsets rowRun.foldRecords.arrays 0) e.2 c.1 c.2.1 c.2.2 0
        ++ spoiltLoop.cellTakes e.1 (benchOffsets rowRun.foldRecords.arrays 0) e.2 c.1 c.2.1 c.2.2 1)).isNone = true
      ∧ (spoiltLoop.cellAt rowRun.foldRecords c.1 c.2.1 c.2.2).latches.isEmpty = true
      ∧ x.inp.guard (cellGuard lowLoad) = true ∧ x.readsUe lowLoad = false ∧ (∀ n ∈ cellSrcs lowLoad, (x.inp.word n).v = true)
      ∧ cellAddr (x.inp.word 59).val 0x1FF 4 < 0 := by
  decide +kernel

/-- The fault that is reported is the one of cell (0, 0), which is selected and cannot read its loop-active bit. -/
theorem lowLoad_cause {t : State} (h : exec lowLoad spoiltLoop = .next t) : drainCause t spoiltLoop.cur = some 0x1D1 := by
  have hx : (match exec lowLoad spoiltLoop with | .next t => drainCause t spoiltLoop.cur | _ => none) = some 0x1D1 := by decide +kernel
  rwa [h] at hx

/-- Refutes O30: `CellsFault` asks for an address outside the store only in the cells in which the load executes, and lets a selected cell be among
the first whose loop-active bit carries an uncorrectable error. That cell faults with UE.CONSUMED (R287), and where it is the first of them its
cause is the one reported (R290): in `spoiltLoop` the load `lowLoad` ends with 0x1D1 in cell (0, 0), not with CELL.RANGE of cell (0, 1). -/
theorem not_cellStoreAccesses : ¬ Obligations.CellStoreAccesses := by
  intro h
  obtain ⟨loads, -⟩ := h spoiltLoop rowRun ⟨false, 0⟩ 9 0 59 0x1FF 0
  obtain ⟨-, range, -⟩ := loads _ (List.mem_cons_self ..)
  obtain ⟨t, y, w, hx, hy, hp, hc, -⟩ := range spoiltLoop_ready rfl lowLoad_enters lowLoad_runs fun c hc => by
    obtain ⟨takes, latches, guard, clean, valid, low⟩ := lowLoad_meets c hc
    exact ⟨Option.isNone_iff_eq_none.1 takes, List.isEmpty_iff.1 latches, fun _ => ⟨⟨guard, clean, valid⟩, fun inside => absurd inside.1 low.not_ge⟩⟩
  have reported := lowLoad_cause hx
  simp only [drainCause, hy, Option.bind_some, hp, hc] at reported
  exact absurd reported (by decide)

end Sys2Proof.Machine
end

section
/-!
PROOF. FP32 words and exact values as real numbers (07_numbers.md R74, R79, R81, R82): what a word reads as, the order, and what a result rounds to.
-/

namespace Sys2Proof.Machine

/-! ## Finite values as real numbers -/

/-- The real number (−1)^neg × m × 2^e. -/
noncomputable def finVal (neg : Bool) (m : Nat) (e : Int) : ℝ := (if neg then -1 else 1) * (m : ℝ) * (2 : ℝ) ^ e

theorem finVal_false (m : Nat) (e : Int) : finVal false m e = m * (2 : ℝ) ^ e := by simp [finVal]

theorem finVal_true (m : Nat) (e : Int) : finVal true m e = -(m * (2 : ℝ) ^ e) := by simp [finVal]

theorem abs_finVal (neg : Bool) (m : Nat) (e : Int) : |finVal neg m e| = m * (2 : ℝ) ^ e := by
  have h : (0 : ℝ) ≤ m * (2 : ℝ) ^ e := by positivity
  cases neg
  · rw [finVal_false, abs_of_nonneg h]
  · rw [finVal_true, abs_neg, abs_of_nonneg h]

/-- A power of two of a non-negative exponent, in the naturals and in the reals. -/
theorem two_pow_toNat {k : Int} (h : 0 ≤ k) : (2 : ℝ) ^ k.toNat = (2 : ℝ) ^ k := by
  rw [← zpow_natCast, Int.toNat_of_nonneg h]

/-- A mantissa in units of a smaller exponent. -/
theorem mul_two_pow_unit {u e : Int} (h : u ≤ e) : (2 : ℝ) ^ (e - u).toNat * (2 : ℝ) ^ u = (2 : ℝ) ^ e := by
  rw [two_pow_toNat (by omega), ← zpow_add₀ (by norm_num)]
  congr 1
  omega

theorem scaled_val {u e : Int} (neg : Bool) (m : Nat) (h : u ≤ e) : (scaled neg m e u : ℝ) * (2 : ℝ) ^ u = finVal neg m e := by
  have hp := mul_two_pow_unit h
  unfold scaled
  cases neg
  · rw [finVal_false, ← hp]
    push_cast
    ring
  · rw [finVal_true, ← hp]
    simp only [if_true]
    push_cast
    ring

/-- The order of finite values is that of the reals. -/
theorem lt_fin_iff (a b : Bool) (m n : Nat) (e d : Int) :
    (ExactNum.fin a m e).lt (.fin b n d) = true ↔ finVal a m e < finVal b n d := by
  have hu : (0 : ℝ) < (2 : ℝ) ^ min e d := by positivity
  rw [← scaled_val a m (min_le_left e d), ← scaled_val b n (min_le_right e d), mul_lt_mul_iff_left₀ hu, Int.cast_lt]
  exact decide_eq_true_iff

/-! ## Words (R74) -/

/-- A mantissa and an exponent as FP32 holds them: of a normal number, or in units of 2^−149. -/
structure IsFp32 (m : Nat) (e : Int) : Prop where
  lt : m < 2 ^ 24
  low : -149 ≤ e
  high : e ≤ 104
  normal : 2 ^ 23 ≤ m ∨ e = -149

/-- The encoding of a finite value. -/
theorem pack_fp32 (neg : Bool) (m : Nat) (e : Int) :
    fp32.pack neg m e = b2n neg * 2 ^ 31 + if m < 2 ^ 23 then m else (e + 150).toNat * 2 ^ 23 + (m - 2 ^ 23) := by
  have he : e + (fp32.bias : Int) + (fp32.fbits : Int) = e + 150 := by
    show e + 127 + 23 = e + 150
    omega
  unfold FloatFmt.pack
  rw [he]
  show (if m < 2 ^ 23 then _ else _) = _
  split
  · rfl
  · exact Nat.add_assoc ..

/-- What a word reads as, by its fields. -/
theorem read_fp32 (b : Nat) : fp32.read b =
    if b / 2 ^ 23 % 2 ^ 8 = 255 then (if b % 2 ^ 23 = 0 then .inf (b / 2 ^ 31 % 2 == 1) else .nan)
    else if b / 2 ^ 23 % 2 ^ 8 = 0 then .fin (b / 2 ^ 31 % 2 == 1) (b % 2 ^ 23) (-149)
    else .fin (b / 2 ^ 31 % 2 == 1) (b % 2 ^ 23 + 2 ^ 23) ((b / 2 ^ 23 % 2 ^ 8 : Nat) - 150) := by
  unfold FloatFmt.read
  show (if (false && _) = true then _ else if (true && (b / 2 ^ 23 % 2 ^ 8 == 255)) = true then
    (if (b % 2 ^ 23 == 0) = true then _ else _) else if (b / 2 ^ 23 % 2 ^ 8 == 0) = true then _ else _) = _
  simp only [Bool.false_and, Bool.true_and, Bool.false_eq_true, if_false, beq_iff_eq]
  split
  · rfl
  · split
    · rfl
    · congr 1
      show ((b / 2 ^ 23 % 2 ^ 8 : Nat) : Int) - (127 : Nat) - (23 : Nat) = _
      omega

/-- A word that reads as a finite value is the encoding of it. -/
theorem isFp32_of_read {b : Nat} {neg : Bool} {m : Nat} {e : Int} (hb : b < 2 ^ 32) (h : fp32.read b = .fin neg m e) :
    IsFp32 m e ∧ b = fp32.pack neg m e := by
  rw [read_fp32] at h
  have hs : b2n (b / 2 ^ 31 % 2 == 1) = b / 2 ^ 31 := by
    unfold b2n
    split <;> rename_i h <;> simp only [beq_iff_eq] at h <;> omega
  split at h
  · split at h <;> cases h
  · split at h
    · injection h with h1 h2 h3
      subst h1 h2 h3
      refine ⟨⟨by omega, by omega, by omega, .inr rfl⟩, ?_⟩
      rw [pack_fp32, hs, if_pos (by omega)]
      omega
    · injection h with h1 h2 h3
      subst h1 h2 h3
      refine ⟨⟨by omega, by omega, by omega, .inl (by omega)⟩, ?_⟩
      rw [pack_fp32, hs, if_neg (by omega)]
      omega

/-- The encoding of a finite value reads as it. -/
theorem read_pack {m : Nat} {e : Int} (neg : Bool) (h : IsFp32 m e) : fp32.read (fp32.pack neg m e) = .fin neg m e := by
  obtain ⟨hlt, hlow, hhigh, hn⟩ := h
  have hs : b2n neg = 0 ∧ neg = false ∨ b2n neg = 1 ∧ neg = true := by cases neg <;> simp [b2n]
  rw [pack_fp32, read_fp32]
  by_cases hm : m < 2 ^ 23
  · obtain rfl : e = -149 := by omega
    rw [if_pos hm, if_neg (by omega), if_pos (by omega)]
    congr 1
    · rcases hs with ⟨h, rfl⟩ | ⟨h, rfl⟩ <;> simp only [beq_iff_eq, beq_eq_false_iff_ne] <;> omega
    · omega
  · rw [if_neg hm, if_neg (by omega), if_neg (by omega)]
    congr 1
    · rcases hs with ⟨h, rfl⟩ | ⟨h, rfl⟩ <;> simp only [beq_iff_eq, beq_eq_false_iff_ne] <;> omega
    · omega
    · omega

theorem pack_lt {m : Nat} {e : Int} (neg : Bool) (h : IsFp32 m e) : fp32.pack neg m e < 2 ^ 32 := by
  obtain ⟨hlt, hlow, hhigh, hn⟩ := h
  have hs : b2n neg ≤ 1 := by cases neg <;> simp [b2n]
  rw [pack_fp32]
  split <;> omega

/-! ## Rounding to nearest (R79, R81, R82) -/

/-- Rounded to nearest, a magnitude lies within half a unit. -/
theorem roundUnits_near (neg : Bool) (m : Nat) (e u : Int) :
    |(roundUnits .rne 0 neg m e u : ℝ) * 2 ^ u - m * 2 ^ e| ≤ (2 : ℝ) ^ u / 2 := by
  have hu : (0 : ℝ) < (2 : ℝ) ^ u := by positivity
  unfold roundUnits
  by_cases h : u ≤ e
  · rw [if_pos h, Nat.cast_mul, Nat.cast_pow, Nat.cast_ofNat, mul_assoc, mul_two_pow_unit h, sub_self, abs_zero]
    positivity
  · rw [if_neg h]
    have hp := mul_two_pow_unit (u := e) (e := u) (by omega)
    generalize (u - e).toNat = k at hp
    have hk : 0 < 2 ^ k := Nat.two_pow_pos k
    have hd := Nat.div_add_mod m (2 ^ k)
    have hr := Nat.mod_lt m hk
    dsimp only
    generalize m / 2 ^ k = q at hd ⊢
    generalize m % 2 ^ k = r at hd hr ⊢
    -- the rounding adds c to q, of which r / 2^k is at most one half away
    obtain ⟨c, hc, hq⟩ : ∃ c : Nat, (2 * r ≤ 2 * c * 2 ^ k + 2 ^ k ∧ 2 * c * 2 ^ k ≤ 2 * r + 2 ^ k) ∧
        (if (r == 0) = true then q else if (decide (2 ^ k < 2 * r) || 2 * r == 2 ^ k && q % 2 == 1) = true then q + 1 else q) = q + c := by
      split
      · rename_i h0
        exact ⟨0, by simp only [beq_iff_eq] at h0; omega, rfl⟩
      · split
        · rename_i h1
          refine ⟨1, ?_, rfl⟩
          simp only [Bool.or_eq_true, decide_eq_true_eq, Bool.and_eq_true, beq_iff_eq] at h1
          omega
        · rename_i h1
          refine ⟨0, ?_, rfl⟩
          simp only [Bool.or_eq_true, decide_eq_true_eq, not_or] at h1
          omega
    rw [hq, ← hp, ← hd]
    have h1 : (2 : ℝ) * r ≤ 2 * c * 2 ^ k + 2 ^ k := by exact_mod_cast hc.1
    have h2 : (2 : ℝ) * c * 2 ^ k ≤ 2 * r + 2 ^ k := by exact_mod_cast hc.2
    have he : (0 : ℝ) < (2 : ℝ) ^ e := by positivity
    have hx : ((q + c : Nat) : ℝ) * (2 ^ k * 2 ^ e) - ((2 ^ k * q + r : Nat) : ℝ) * 2 ^ e = (c * 2 ^ k - r) * 2 ^ e := by
      push_cast
      ring
    rw [hx, abs_mul, abs_of_pos he]
    have : |(c : ℝ) * 2 ^ k - r| ≤ 2 ^ k / 2 := abs_le.2 ⟨by linarith, by linarith⟩
    calc |(c : ℝ) * 2 ^ k - r| * 2 ^ e ≤ 2 ^ k / 2 * 2 ^ e := mul_le_mul_of_nonneg_right this he.le
      _ = 2 ^ k * 2 ^ e / 2 := by ring

/-- A magnitude of no smaller exponent needs no rounding. -/
theorem roundUnits_exact (md : Mode) (draw : Nat) (neg : Bool) (m : Nat) {e u : Int} (h : u ≤ e) :
    roundUnits md draw neg m e u = m * 2 ^ (e - u).toNat := if_pos h

theorem unit_fp32 (m : Nat) (e : Int) : fp32.unit m e = max ((Nat.log2 m : Int) + e - 23) (-149) := rfl

theorem log2_bounds {m : Nat} (hm : m ≠ 0) : 2 ^ Nat.log2 m ≤ m ∧ m < 2 ^ (Nat.log2 m + 1) := by
  rw [Nat.log2_eq_log_two]
  exact ⟨Nat.pow_log_le_self 2 hm, Nat.lt_pow_succ_log_self (by norm_num) m⟩

/-- In its unit a magnitude has at most 24 bits, and 24 where it is normal. -/
theorem roundUnits_fp32 (neg : Bool) {m : Nat} (e : Int) (hm : m ≠ 0) :
    roundUnits .rne 0 neg m e (fp32.unit m e) ≤ 2 ^ 24 ∧ (2 ^ 23 ≤ roundUnits .rne 0 neg m e (fp32.unit m e) ∨ fp32.unit m e = -149) := by
  obtain ⟨hlo, hhi⟩ := log2_bounds hm
  have hu := unit_fp32 m e
  generalize fp32.unit m e = u at hu ⊢
  generalize Nat.log2 m = l at hlo hhi hu
  have hu1 : (l : Int) + e - 23 ≤ u := by omega
  have hu2 : u = (l : Int) + e - 23 ∨ u = -149 := by omega
  unfold roundUnits
  by_cases h : u ≤ e
  · rw [if_pos h]
    have hk : l + 1 + (e - u).toNat ≤ 24 := by omega
    constructor
    · calc m * 2 ^ (e - u).toNat ≤ 2 ^ (l + 1) * 2 ^ (e - u).toNat := Nat.mul_le_mul_right _ hhi.le
        _ = 2 ^ (l + 1 + (e - u).toNat) := (Nat.pow_add ..).symm
        _ ≤ 2 ^ 24 := Nat.pow_le_pow_right (by norm_num) hk
    · refine hu2.imp (fun hu => ?_) id
      calc 2 ^ 23 = 2 ^ (l + (e - u).toNat) := by congr 1; omega
        _ = 2 ^ l * 2 ^ (e - u).toNat := Nat.pow_add ..
        _ ≤ m * 2 ^ (e - u).toNat := Nat.mul_le_mul_right _ hlo
  · rw [if_neg h]
    have hq : m / 2 ^ (u - e).toNat < 2 ^ 24 := by
      rw [Nat.div_lt_iff_lt_mul (Nat.two_pow_pos _), ← Nat.pow_add]
      exact hhi.trans_le (Nat.pow_le_pow_right (by norm_num) (by omega))
    have hn : 2 ^ 23 ≤ m / 2 ^ (u - e).toNat ∨ u = -149 := by
      refine hu2.imp (fun hu => ?_) id
      rw [Nat.le_div_iff_mul_le (Nat.two_pow_pos _), ← Nat.pow_add]
      exact le_trans (Nat.pow_le_pow_right (by norm_num) (by omega)) hlo
    dsimp only
    generalize m / 2 ^ (u - e).toNat = q at hq hn ⊢
    split
    · omega
    · split <;> omega

/-- A magnitude rounds to q × 2^u: a normal number, or one in units of 2^−149. -/
structure RoundsTo (m : Nat) (e : Int) (q : Nat) (u : Int) : Prop where
  lt : q < 2 ^ 24
  low : -149 ≤ u
  normal : 2 ^ 23 ≤ q ∨ u = -149
  near : |(q : ℝ) * 2 ^ u - m * 2 ^ e| ≤ (2 : ℝ) ^ fp32.unit m e / 2
  exact : fp32.unit m e ≤ e → (q : ℝ) * 2 ^ u = m * 2 ^ e

/-- The word and the flags for the rounded value q × 2^u: flushed under SUBN where it is subnormal, infinity where it is too large. -/
def settleFp32 (subn : Nat) (neg : Bool) (q : Nat) (u : Int) : Nat × XFlags :=
  if q < 2 ^ 23 then (if subn = 0 then (fp32.pack neg q u, 0) else (fp32.pack neg 0 0, xUnf))
  else if 105 ≤ u then (fp32.infBits neg, xOvf) else (fp32.pack neg q u, 0)

/-- The last step of `FloatFmt.round`, which looks for overflow in the encoding. -/
theorem settleFp32_eq (subn : Nat) (neg : Bool) {q : Nat} {u : Int} (hq : q < 2 ^ 24) (hu : -149 ≤ u) :
    (if q < 2 ^ 23 then (if (subn == 0) = true then (b2n neg * 2 ^ 31 + q, 0) else (b2n neg * 2 ^ 31, xUnf))
      else if decide (fp32.maxBits < fp32.pack false q u) = true then fp32.overflow ⟨.rne, false, subn, 0⟩ neg else (fp32.pack neg q u, 0))
      = settleFp32 subn neg q u := by
  have hmax : fp32.maxBits = 254 * 2 ^ 23 + (2 ^ 23 - 1) := rfl
  unfold settleFp32
  split
  · rename_i h
    have h0 : fp32.pack neg 0 0 = b2n neg * 2 ^ 31 := by rw [pack_fp32, if_pos (Nat.two_pow_pos _), Nat.add_zero]
    rw [pack_fp32, if_pos h, h0]
    simp only [beq_iff_eq]
  · rename_i h
    have hz : b2n false = 0 := rfl
    have ho : fp32.maxBits < fp32.pack false q u ↔ 105 ≤ u := by
      rw [pack_fp32, if_neg h, hmax, hz]
      omega
    simp only [decide_eq_true_eq, ho]
    rfl

/-- Rounding: the units of the value, where 2^24 of them are 2^23 of the next size. -/
theorem round_fp32 (subn : Nat) (neg : Bool) {m : Nat} (e : Int) (hm : m ≠ 0) : fp32.round ⟨.rne, false, subn, 0⟩ (.fin neg m e) =
    if roundUnits .rne 0 neg m e (fp32.unit m e) = 2 ^ 24 then settleFp32 subn neg (2 ^ 23) (fp32.unit m e + 1)
    else settleFp32 subn neg (roundUnits .rne 0 neg m e (fp32.unit m e)) (fp32.unit m e) := by
  obtain ⟨hle, -⟩ := roundUnits_fp32 neg e hm
  have hlow : -149 ≤ fp32.unit m e := le_max_right ..
  have h0 : (m == 0) = false := by simpa using hm
  by_cases h : roundUnits .rne 0 neg m e (fp32.unit m e) = 2 ^ 24
  · rw [if_pos h, ← settleFp32_eq subn neg (by norm_num) (by omega)]
    simp only [FloatFmt.round, h0, h, Bool.false_eq_true, if_false]
    rfl
  · have hb : (roundUnits .rne 0 neg m e (fp32.unit m e) == 2 ^ (fp32.fbits + 1)) = false := beq_eq_false_iff_ne.2 h
    rw [if_neg h, ← settleFp32_eq subn neg (by omega) hlow]
    simp only [FloatFmt.round, h0, hb, Bool.false_eq_true, if_false]
    rfl

theorem round_settles (neg : Bool) {m : Nat} (e : Int) (hm : m ≠ 0) :
    ∃ q u, RoundsTo m e q u ∧ ∀ subn, fp32.round ⟨.rne, false, subn, 0⟩ (.fin neg m e) = settleFp32 subn neg q u := by
  obtain ⟨hle, hn⟩ := roundUnits_fp32 neg e hm
  have hnear := roundUnits_near neg m e (fp32.unit m e)
  have hexact : fp32.unit m e ≤ e → (roundUnits .rne 0 neg m e (fp32.unit m e) : ℝ) * 2 ^ fp32.unit m e = m * 2 ^ e := fun h => by
    rw [roundUnits_exact _ _ _ _ h, Nat.cast_mul, Nat.cast_pow, Nat.cast_ofNat, mul_assoc, mul_two_pow_unit h]
  have hlow : -149 ≤ fp32.unit m e := le_max_right ..
  have hround (subn : Nat) := round_fp32 subn neg e hm
  generalize roundUnits .rne 0 neg m e (fp32.unit m e) = q at *
  by_cases h : q = 2 ^ 24
  · subst h
    have hd : (((2 ^ 23 : Nat) : ℝ)) * 2 ^ (fp32.unit m e + 1) = ((2 ^ 24 : Nat) : ℝ) * 2 ^ fp32.unit m e := by
      rw [zpow_add_one₀ (by norm_num)]
      push_cast
      ring
    exact ⟨2 ^ 23, fp32.unit m e + 1, ⟨by norm_num, by omega, .inl le_rfl, by rwa [hd], by rwa [hd]⟩, fun subn => (hround subn).trans (if_pos rfl)⟩
  · exact ⟨q, fp32.unit m e, ⟨by omega, hlow, hn, hnear, hexact⟩, fun subn => (hround subn).trans (if_neg h)⟩

/-- Below the largest finite magnitude by half a unit there is no overflow. -/
theorem RoundsTo.isFp32 {m : Nat} {e : Int} {q : Nat} {u : Int} (h : RoundsTo m e q u)
    (hb : (m : ℝ) * 2 ^ e + 2 ^ fp32.unit m e / 2 < 2 ^ 128) : IsFp32 q u := by
  refine ⟨h.lt, h.low, ?_, h.normal⟩
  by_contra hc
  have hq : (2 : ℝ) ^ 23 ≤ q := by exact_mod_cast h.normal.resolve_right (by omega)
  have hbig : (2 : ℝ) ^ 23 * 2 ^ (105 : Int) ≤ q * 2 ^ u :=
    mul_le_mul hq (zpow_le_zpow_right₀ (by norm_num) (by omega)) (by positivity) (Nat.cast_nonneg q)
  have hn := (abs_le.1 h.near).2
  norm_num at hbig hb
  linarith

/-- A value of FP32 rounds to itself. -/
theorem round_isFp32 (neg : Bool) {m : Nat} {e : Int} (h : IsFp32 m e) (hm : m ≠ 0) :
    ∃ q u, IsFp32 q u ∧ (q : ℝ) * 2 ^ u = m * 2 ^ e ∧ ∀ subn, fp32.round ⟨.rne, false, subn, 0⟩ (.fin neg m e) = settleFp32 subn neg q u := by
  obtain ⟨q, u, hq, hround⟩ := round_settles neg e hm
  have hl : Nat.log2 m < 24 := (Nat.log2_lt hm).2 h.lt
  have hu : fp32.unit m e ≤ e := by
    rw [unit_fp32]
    have := h.low
    omega
  refine ⟨q, u, hq.isFp32 ?_, hq.exact hu, hround⟩
  have hm' : (m : ℝ) ≤ 2 ^ 24 - 1 := by
    have : (m : ℝ) + 1 ≤ 2 ^ 24 := by exact_mod_cast h.lt
    linarith
  have he : (2 : ℝ) ^ e ≤ 2 ^ (104 : Int) := zpow_le_zpow_right₀ (by norm_num) h.high
  have h1 : (2 : ℝ) ^ fp32.unit m e ≤ 2 ^ (104 : Int) := zpow_le_zpow_right₀ (by norm_num) (hu.trans h.high)
  have h2 := mul_le_mul hm' he (by positivity) (by norm_num)
  norm_num at h1 h2 ⊢
  linarith

end Sys2Proof.Machine
end

section
/-!
PROOF. The bounds in ulp of the special functions (07_numbers.md R82, R92): a result taken from an enclosure of the exact value lies within them,
and under another SUBN it is the same or flushed.
-/

namespace Sys2Proof.Machine

/-! ## Flushed results (R82) -/

/-- The result `y` is `x`, or zero with UNF where `x` is zero or subnormal, of the sign of `x`. -/
def Flushes (x y : Nat × XFlags) : Prop := y = x ∨ (x.1 % 2 ^ 31 ≤ 2 ^ 23 ∧ y = (x.1 / 2 ^ 31 * 2 ^ 31, xUnf))

theorem flushes_refl (x : Nat × XFlags) : Flushes x x := .inl rfl

theorem pack_subnormal (neg : Bool) {q : Nat} (u : Int) (h : q < 2 ^ 23) : fp32.pack neg q u = b2n neg * 2 ^ 31 + q := by
  rw [pack_fp32, if_pos h]

/-- A zero. -/
theorem read_zero (neg : Bool) : fp32.read (fp32.pack neg 0 0) = .fin neg 0 (-149) := by
  have h : fp32.pack neg 0 0 = fp32.pack neg 0 (-149) := by
    rw [pack_subnormal neg 0 (Nat.two_pow_pos _), pack_subnormal neg (-149) (Nat.two_pow_pos _)]
  rw [h]
  exact read_pack neg ⟨by norm_num, le_rfl, by norm_num, .inr rfl⟩

/-- A subnormal result, or a zero, flushed. -/
theorem flushes_pack (neg : Bool) {q : Nat} (u : Int) (h : q < 2 ^ 23) : Flushes (fp32.pack neg q u, 0) (fp32.pack neg 0 0, xUnf) := by
  rw [pack_subnormal neg u h, pack_subnormal neg 0 (Nat.two_pow_pos _)]
  have hr : (b2n neg * 2 ^ 31 + q) % 2 ^ 31 ≤ 2 ^ 23 := by omega
  have hs : b2n neg * 2 ^ 31 + 0 = (b2n neg * 2 ^ 31 + q) / 2 ^ 31 * 2 ^ 31 := by omega
  exact .inr ⟨hr, Prod.ext hs rfl⟩

theorem settle_flushes (subn : Nat) (neg : Bool) (q : Nat) (u : Int) : Flushes (settleFp32 0 neg q u) (settleFp32 subn neg q u) := by
  unfold settleFp32
  by_cases hq : q < 2 ^ 23
  · rw [if_pos hq, if_pos hq, if_pos rfl]
    split
    · exact flushes_refl _
    · exact flushes_pack neg u hq
  · rw [if_neg hq, if_neg hq]
    exact flushes_refl _

/-- A value that fits is held as it is where subnormal ones are kept. -/
theorem settle_fits (neg : Bool) (q : Nat) {u : Int} (h : u ≤ 104) : settleFp32 0 neg q u = (fp32.pack neg q u, 0) := by
  unfold settleFp32
  rw [if_pos rfl, if_neg (show ¬ 105 ≤ u by omega), ite_self]

/-- A result rounded under another SUBN. -/
theorem round_flushes (subn : Nat) (x : ExactNum) :
    Flushes (fp32.round ⟨.rne, false, 0, 0⟩ x) (fp32.round ⟨.rne, false, subn, 0⟩ x) := by
  cases x with
  | nan => exact flushes_refl _
  | inf neg => exact flushes_refl _
  | fin neg m e =>
    by_cases hm : m = 0
    · subst hm
      exact flushes_refl _
    · obtain ⟨q, u, -, h⟩ := round_settles neg e hm
      rw [h, h]
      exact settle_flushes subn neg q u

theorem boundedApprox_flushes (op : Nat) (a : Word) (n : Nat) (neg : Bool) (off : Int) (enc : Enc) (subn : Nat) :
    Flushes (boundedApprox op a n neg off enc 0) (boundedApprox op a n neg off enc subn) := by
  unfold boundedApprox
  dsimp only
  generalize (withinUlp n off _ _ && _) = near
  generalize fp32.read (Config.approx op a).toNat = c
  cases near
  · exact round_flushes subn (.fin neg enc.mid.natAbs (off - encBits))
  · cases c.isZero
    · exact round_flushes subn c
    · by_cases hs : subn = 0
      · subst hs
        exact flushes_refl _
      · have hb : (subn == 0) = false := beq_eq_false_iff_ne.2 hs
        rw [hb]
        exact flushes_pack neg 0 (Nat.two_pow_pos _)

/-! ## Signs -/

/-- A magnitude with a sign. -/
noncomputable def signed (neg : Bool) (y : ℝ) : ℝ := (if neg then -1 else 1) * y

theorem finVal_eq_signed (neg : Bool) (m : Nat) (e : Int) : finVal neg m e = signed neg (m * (2 : ℝ) ^ e) := mul_assoc ..

theorem abs_signed (neg : Bool) (y : ℝ) : |signed neg y| = |y| := by cases neg <;> simp [signed]

theorem signed_sub (neg : Bool) (x y : ℝ) : signed neg x - signed neg y = signed neg (x - y) := (mul_sub ..).symm

/-! ## Units in the last place (R92) -/

/-- The ulp of R92. -/
noncomputable def ulp (y : ℝ) : ℝ := (2 : ℝ) ^ (max ⌊Real.logb 2 |y|⌋ (-126) - 23)

/-- A word holds a finite value that lies within `n` ulp of `y`. -/
def WithinUlps (q : Nat × XFlags) (n : Nat) (y : ℝ) : Prop :=
  ∃ neg m e, fp32.read q.1 = .fin neg m e ∧ |finVal neg m e - y| ≤ n * ulp y

theorem ulp_signed (neg : Bool) (y : ℝ) : ulp (signed neg y) = ulp y := by rw [ulp, abs_signed]; rfl

/-- The exponent of a positive number: of the powers of two at or below it the greatest. -/
theorem le_floor_logb {y : ℝ} (hy : 0 < y) (k : Int) : k ≤ ⌊Real.logb 2 |y|⌋ ↔ (2 : ℝ) ^ k ≤ y := by
  rw [abs_of_pos hy, Int.le_floor, Real.le_logb_iff_rpow_le (by norm_num) hy, Real.rpow_intCast]

/-- The ulp of a number is at least that of a smaller exponent. -/
theorem two_pow_le_ulp {y : ℝ} (hy : 0 < y) {k : Int} (h : (2 : ℝ) ^ k ≤ y) : (2 : ℝ) ^ (max k (-126) - 23) ≤ ulp y := by
  have hk := (le_floor_logb hy k).2 h
  exact zpow_le_zpow_right₀ (by norm_num) (by omega)

theorem ulp_pos (y : ℝ) : 0 < ulp y := by
  unfold ulp
  positivity

/-- A positive number lies below 2^24 of its ulps. -/
theorem lt_ulp {y : ℝ} (hy : 0 < y) : y < 2 ^ 24 * ulp y := by
  have h : y < (2 : ℝ) ^ (⌊Real.logb 2 |y|⌋ + 1) := by
    by_contra hc
    have := (le_floor_logb hy _).2 (not_lt.1 hc)
    omega
  calc y < (2 : ℝ) ^ (⌊Real.logb 2 |y|⌋ + 1) := h
    _ ≤ (2 : ℝ) ^ ((24 : Int) + (max ⌊Real.logb 2 |y|⌋ (-126) - 23)) := zpow_le_zpow_right₀ (by norm_num) (by omega)
    _ = 2 ^ 24 * ulp y := by rw [zpow_add₀ (by norm_num)]; rfl

/-- An ulp is 2^−149 or at most 2^−23 of its number. -/
theorem ulp_le {y : ℝ} (hy : 0 < y) : ulp y ≤ y / 2 ^ 23 + 1 := by
  unfold ulp
  rcases le_total ⌊Real.logb 2 |y|⌋ (-126) with h | h
  · rw [max_eq_right h]
    have : (2 : ℝ) ^ ((-126 : Int) - 23) ≤ 1 := zpow_le_one_of_nonpos₀ (by norm_num) (by norm_num)
    have : 0 ≤ y / 2 ^ 23 := by positivity
    linarith
  · rw [max_eq_left h, zpow_sub₀ (by norm_num)]
    have := (le_floor_logb hy _).1 le_rfl
    have : (2 : ℝ) ^ ⌊Real.logb 2 |y|⌋ / 2 ^ 23 ≤ y / 2 ^ 23 := div_le_div_of_nonneg_right this (by positivity)
    exact this.trans (by linarith)

/-! ## Enclosures -/

/-- The enclosure at the exponent offset `off` holds the positive number `y`, and is narrow against it. -/
structure Encloses (enc : Enc) (off : Int) (y : ℝ) : Prop where
  pos : 0 < enc.mid
  near : |(enc.mid : ℝ) * 2 ^ (off - 160) - y| ≤ enc.err * 2 ^ (off - 160)
  narrow : (enc.err : Int) * 2 ^ 26 ≤ enc.mid

section
variable {enc : Enc} {off : Int} {y : ℝ} (h : Encloses enc off y)
include h

/-- The width of the enclosure. -/
theorem Encloses.err_le : (enc.err : ℝ) * 2 ^ (off - 160) ≤ enc.mid * 2 ^ (off - 160) / 2 ^ 26 := by
  have hn : (enc.err : ℝ) * 2 ^ 26 ≤ enc.mid := by exact_mod_cast h.narrow
  have hp : (0 : ℝ) < 2 ^ (off - 160) := by positivity
  rw [le_div_iff₀ (by positivity)]
  nlinarith

theorem Encloses.mid_pos : (0 : ℝ) < enc.mid * 2 ^ (off - 160) := by
  have := h.pos
  positivity

theorem Encloses.val_pos : 0 < y := by
  have h1 := (abs_le.1 h.near).2
  have h2 := h.err_le
  have h3 := h.mid_pos
  linarith

/-- The middle lies close to the value. -/
theorem Encloses.mid_le : (enc.mid : ℝ) * 2 ^ (off - 160) ≤ y * (1 + 2 / 2 ^ 26) := by
  have h1 := (abs_le.1 h.near).2
  have h2 := h.err_le
  have h3 := h.val_pos
  linarith

/-- The width is small against an ulp. -/
theorem Encloses.err_le_ulp : (enc.err : ℝ) * 2 ^ (off - 160) ≤ ulp y / 2 := by
  have h1 := h.err_le
  have h2 := h.mid_le
  have h3 := lt_ulp h.val_pos
  have h4 := h.val_pos
  norm_num at h1 h2 h3 ⊢
  linarith

/-- The least exponent that the enclosure admits is not above that of the value. -/
theorem Encloses.top_le : (2 : ℝ) ^ ((Nat.log2 (enc.mid.natAbs - enc.err) : Int) - 160 + off) ≤ y := by
  have hpos := h.pos
  have hnarrow := h.narrow
  have hm : enc.mid.natAbs - enc.err ≠ 0 := by omega
  obtain ⟨hlo, -⟩ := log2_bounds hm
  have hz : ((enc.mid.natAbs - enc.err : Nat) : Int) = enc.mid - enc.err := by omega
  have hr : ((enc.mid.natAbs - enc.err : Nat) : ℝ) = enc.mid - enc.err := by
    rw [← Int.cast_natCast, hz]
    push_cast
    ring
  have hp : (0 : ℝ) < 2 ^ (off - 160) := by positivity
  have h1 := (abs_le.1 h.near).2
  calc (2 : ℝ) ^ ((Nat.log2 (enc.mid.natAbs - enc.err) : Int) - 160 + off)
      = (2 : ℝ) ^ Nat.log2 (enc.mid.natAbs - enc.err) * 2 ^ (off - 160) := by
        rw [← zpow_natCast, ← zpow_add₀ (by norm_num)]
        congr 1
        ring
    _ ≤ ((enc.mid.natAbs - enc.err : Nat) : ℝ) * 2 ^ (off - 160) := by
        refine mul_le_mul_of_nonneg_right ?_ hp.le
        exact_mod_cast hlo
    _ ≤ y := by
        rw [hr, sub_mul]
        linarith

end

/-! ## Candidates and middles within the bound -/

/-- The enclosure of the value with its sign. -/
def Enc.signed (enc : Enc) (neg : Bool) : Enc := if neg then ⟨-enc.mid, enc.err⟩ else enc

theorem Enc.signed_mid (enc : Enc) (neg : Bool) : ((enc.signed neg).mid : ℝ) = Machine.signed neg enc.mid := by
  cases neg <;> simp [Enc.signed, Machine.signed]

theorem Enc.signed_err (enc : Enc) (neg : Bool) : (enc.signed neg).err = enc.err := by cases neg <;> rfl

theorem Enc.signed_natAbs (enc : Enc) (neg : Bool) : (enc.signed neg).mid.natAbs = enc.mid.natAbs := by
  cases neg
  · rfl
  · exact Int.natAbs_neg _

/-- What the comparison of a candidate with an enclosure says: it lies so near to the middle that it is near to every enclosed value. -/
theorem near_of_withinUlp {n : Nat} {off : Int} {enc : Enc} {neg : Bool} {m : Nat} {e : Int} (h : withinUlp n off enc (.fin neg m e) = true) :
    |finVal neg m e - enc.mid * 2 ^ (off - 160)|
      ≤ n * 2 ^ (max ((Nat.log2 (enc.mid.natAbs - enc.err) : Int) - 160 + off) (-126) - 23) - enc.err * 2 ^ (off - 160) := by
  unfold withinUlp at h
  dsimp only at h
  rw [show (encBits : Int) = 160 from rfl] at h
  generalize max ((Nat.log2 (enc.mid.natAbs - enc.err) : Int) - 160 + off) (-126) - 23 = k at h ⊢
  have h1 : min (min e k) (off - 160) ≤ e := (min_le_left _ _).trans (min_le_left _ _)
  have h2 : min (min e k) (off - 160) ≤ k := (min_le_left _ _).trans (min_le_right _ _)
  have h3 : min (min e k) (off - 160) ≤ off - 160 := min_le_right _ _
  generalize min (min e k) (off - 160) = u at h h1 h2 h3
  have hu : (0 : ℝ) < (2 : ℝ) ^ u := by positivity
  simp only [Bool.and_eq_true, decide_eq_true_eq, tsub_le_iff_right] at h
  obtain ⟨hl, hr⟩ := h
  rw [← scaled_val neg m h1, ← mul_two_pow_unit h2, ← mul_two_pow_unit h3]
  have hl' : ((enc.mid : ℝ) * 2 ^ (off - 160 - u).toNat - (n * 2 ^ (k - u).toNat - enc.err * 2 ^ (off - 160 - u).toNat)) ≤ scaled neg m e u := by
    have : (enc.mid : ℝ) * 2 ^ (off - 160 - u).toNat ≤ scaled neg m e u + (n * 2 ^ (k - u).toNat - enc.err * 2 ^ (off - 160 - u).toNat) := by
      exact_mod_cast hl
    linarith
  have hr' : (scaled neg m e u : ℝ) ≤ (enc.mid : ℝ) * 2 ^ (off - 160 - u).toNat + (n * 2 ^ (k - u).toNat - enc.err * 2 ^ (off - 160 - u).toNat) := by
    exact_mod_cast hr
  rw [← mul_assoc, ← sub_mul, abs_mul, abs_of_pos hu, ← mul_assoc, ← mul_assoc, ← sub_mul]
  exact mul_le_mul_of_nonneg_right (abs_le.2 ⟨by linarith, by linarith⟩) hu.le

/-- A bounded result: the free value where it is near enough and of the right sign, else the middle. -/
theorem boundedApprox_eq (op : Nat) (a : Word) (n : Nat) (neg : Bool) (off : Int) (enc : Enc) (subn : Nat) :
    boundedApprox op a n neg off enc subn =
      let c := fp32.read (Config.approx op a).toNat
      if (withinUlp n off (enc.signed neg) c && (c.isZero || c.sign == neg)) = true then
        (if c.isZero = true then (fp32.pack neg 0 0, if (subn == 0) = true then 0 else xUnf) else fp32.round ⟨.rne, false, subn, 0⟩ c)
      else fp32.round ⟨.rne, false, subn, 0⟩ (.fin neg enc.mid.natAbs (off - 160)) := rfl

section
variable {enc : Enc} {off : Int} {y : ℝ} (h : Encloses enc off y)
include h

/-- A candidate that is accepted lies within the bound of the enclosed value. -/
theorem Encloses.candidate {n : Nat} {neg cn : Bool} {cm : Nat} {ce : Int} (hc : withinUlp n off (enc.signed neg) (.fin cn cm ce) = true) :
    |finVal cn cm ce - signed neg y| ≤ n * ulp y := by
  have h1 := near_of_withinUlp hc
  rw [Enc.signed_mid, Enc.signed_err, Enc.signed_natAbs] at h1
  have h2 : |signed neg (enc.mid : ℝ) * 2 ^ (off - 160) - signed neg y| ≤ enc.err * 2 ^ (off - 160) := by
    rw [show signed neg (enc.mid : ℝ) * 2 ^ (off - 160) = signed neg (enc.mid * 2 ^ (off - 160)) from mul_assoc .., signed_sub, abs_signed]
    exact h.near
  have h3 := mul_le_mul_of_nonneg_left (two_pow_le_ulp h.val_pos h.top_le) (Nat.cast_nonneg (α := ℝ) n)
  calc |finVal cn cm ce - signed neg y|
      ≤ |finVal cn cm ce - signed neg (enc.mid : ℝ) * 2 ^ (off - 160)| + |signed neg (enc.mid : ℝ) * 2 ^ (off - 160) - signed neg y| :=
        abs_sub_le ..
    _ ≤ n * ulp y := by linarith

/-- Half a unit of the middle, in ulps of the value: one half where the middle is not above the value, and one in any case. -/
theorem Encloses.half_unit_le : (2 : ℝ) ^ fp32.unit enc.mid.natAbs (off - 160) / 2 ≤ ulp y
    ∧ ((enc.mid : ℝ) * 2 ^ (off - 160) ≤ y → (2 : ℝ) ^ fp32.unit enc.mid.natAbs (off - 160) / 2 ≤ ulp y / 2) := by
  have hpos := h.pos
  have hm : enc.mid.natAbs ≠ 0 := by omega
  have hc : ((enc.mid.natAbs : Nat) : ℝ) = enc.mid := by
    rw [← Int.cast_natCast, Int.natAbs_of_nonneg hpos.le]
  have hlog : (2 : ℝ) ^ ((Nat.log2 enc.mid.natAbs : Int) + (off - 160)) ≤ enc.mid * 2 ^ (off - 160) := by
    rw [zpow_add₀ (by norm_num), zpow_natCast, ← hc]
    refine mul_le_mul_of_nonneg_right ?_ (by positivity)
    exact_mod_cast (log2_bounds hm).1
  have hu : fp32.unit enc.mid.natAbs (off - 160) = max ((Nat.log2 enc.mid.natAbs : Int) + (off - 160)) (-126) - 23 := by
    rw [unit_fp32]
    omega
  generalize (Nat.log2 enc.mid.natAbs : Int) + (off - 160) = k at hlog hu
  rw [hu]
  have hy := h.val_pos
  constructor
  · have hk : (2 : ℝ) ^ (k - 1) ≤ y := by
      rw [zpow_sub_one₀ (by norm_num)]
      have := h.mid_le
      norm_num at this ⊢
      linarith
    calc (2 : ℝ) ^ (max k (-126) - 23) / 2 = (2 : ℝ) ^ (max k (-126) - 23 - 1) := by rw [zpow_sub_one₀ (by norm_num), div_eq_mul_inv]
      _ ≤ (2 : ℝ) ^ (max (k - 1) (-126) - 23) := zpow_le_zpow_right₀ (by norm_num) (by omega)
      _ ≤ ulp y := two_pow_le_ulp hy hk
  · intro hle
    have := two_pow_le_ulp hy (hlog.trans hle)
    linarith

/-- The middle, rounded, lies within the bound: 1 ulp where it is not above the value, otherwise 2. -/
theorem Encloses.middle {n : Nat} (neg : Bool) (hn : 2 ≤ n ∨ n = 1 ∧ (enc.mid : ℝ) * 2 ^ (off - 160) ≤ y) (hy : y ≤ 2 ^ 128 * (1 - 1 / 2 ^ 22)) :
    WithinUlps (fp32.round ⟨.rne, false, 0, 0⟩ (.fin neg enc.mid.natAbs (off - 160))) n (signed neg y) := by
  have hpos := h.pos
  have hm : enc.mid.natAbs ≠ 0 := by omega
  have hc : ((enc.mid.natAbs : Nat) : ℝ) = enc.mid := by
    rw [← Int.cast_natCast, Int.natAbs_of_nonneg hpos.le]
  obtain ⟨q, u, hq, hround⟩ := round_settles neg (off - 160) hm
  have hnear := hq.near
  rw [hc] at hnear
  obtain ⟨hunit, hunit'⟩ := h.half_unit_le
  have hbound : |(q : ℝ) * 2 ^ u - y| ≤ n * ulp y := by
    have h2 := h.near
    have h3 := h.err_le_ulp
    have h4 := ulp_pos y
    have h5 := abs_sub_le ((q : ℝ) * 2 ^ u) (enc.mid * 2 ^ (off - 160)) y
    rcases hn with hn | ⟨rfl, hle⟩
    · have : (2 : ℝ) * ulp y ≤ n * ulp y := mul_le_mul_of_nonneg_right (by exact_mod_cast hn) h4.le
      linarith
    · have := hunit' hle
      rw [Nat.cast_one, one_mul]
      linarith
  have hfp : IsFp32 q u := hq.isFp32 <| by
    have h1 := h.mid_le
    have h2 := ulp_le h.val_pos
    rw [hc]
    norm_num at hy h1 h2 ⊢
    linarith
  refine ⟨neg, q, u, ?_, ?_⟩
  · rw [hround, settle_fits neg q hfp.high]
    exact read_pack neg hfp
  · rw [finVal_eq_signed, signed_sub, abs_signed, ulp_signed]
    exact hbound

/-- A result that R92 bounds lies within its bound. -/
theorem Encloses.within {n : Nat} (op : Nat) (a : Word) (neg : Bool) (hn : 2 ≤ n ∨ n = 1 ∧ (enc.mid : ℝ) * 2 ^ (off - 160) ≤ y)
    (hy : y ≤ 2 ^ 128 * (1 - 1 / 2 ^ 22)) : WithinUlps (boundedApprox op a n neg off enc 0) n (signed neg y) := by
  rw [boundedApprox_eq]
  have hlt := (Config.approx op a).isLt
  generalize (Config.approx op a).toNat = w at hlt ⊢
  dsimp only
  split
  · rename_i hw
    rw [Bool.and_eq_true] at hw
    obtain ⟨hw, -⟩ := hw
    cases hc : fp32.read w with
    | nan | inf => rw [hc] at hw; cases hw
    | fin cn cm ce =>
      rw [hc] at hw
      have hval := h.candidate hw
      rw [← ulp_signed neg y] at hval
      obtain ⟨hfp, -⟩ := isFp32_of_read hlt hc
      by_cases hz : cm = 0
      · subst hz
        refine ⟨neg, 0, -149, read_zero neg, ?_⟩
        simpa [finVal] using hval
      · obtain ⟨q, u, hq, hqu, hround⟩ := round_isFp32 cn hfp hz
        have hi : (ExactNum.fin cn cm ce).isZero = false := beq_eq_false_iff_ne.2 hz
        refine ⟨cn, q, u, ?_, ?_⟩
        · rw [hi, if_neg Bool.false_ne_true, hround, settle_fits cn q hq.high]
          exact read_pack cn hq
        · rwa [finVal_eq_signed, hqu, ← finVal_eq_signed]
  · exact h.middle neg hn hy

end

end Sys2Proof.Machine
end

section
/-!
PROOF. The exponential series and ln 2 in fixed point (07_numbers.md R92, 11_cell_isa.md R146): `exp2Frac` encloses 2^f.
-/

namespace Sys2Proof.Machine

/-! ## Quotients rounded down -/

theorem natDiv_near (a b : Nat) : (a : ℝ) / b - 1 ≤ (a / b : Nat) ∧ ((a / b : Nat) : ℝ) ≤ a / b := by
  have h := Nat.lt_floor_add_one ((a : ℝ) / b)
  rw [Nat.floor_div_eq_div] at h
  exact ⟨by linarith, Nat.cast_div_le⟩

/-! ## The series -/

/-- The exact term of the series of exp (x / 2^160), in units of 2^−160. -/
noncomputable def expTerm (x k : Nat) : ℝ := 2 ^ 160 * ((x : ℝ) / 2 ^ 160) ^ k / k.factorial

theorem expTerm_zero (x : Nat) : expTerm x 0 = 2 ^ 160 := by simp [expTerm]

theorem expTerm_succ (x k : Nat) : expTerm x (k + 1) = expTerm x k * (x / 2 ^ 160) / (k + 1 : Nat) := by
  unfold expTerm
  generalize (x : ℝ) / 2 ^ 160 = z
  rw [Nat.factorial_succ, Nat.cast_mul]
  field_simp
  ring

/-- A term computed from the last falls short by less than 2 more. -/
theorem expTerm_step {x t k : Nat} {c : ℝ} (hx : x ≤ 2 ^ 160) (hc : 0 ≤ c) (hlo : expTerm x k - c ≤ t) (hhi : (t : ℝ) ≤ expTerm x k) :
    expTerm x (k + 1) - (c + 2) ≤ (t * x / 2 ^ 160 / (k + 1) : Nat) ∧ ((t * x / 2 ^ 160 / (k + 1) : Nat) : ℝ) ≤ expTerm x (k + 1) := by
  have hz0 : (0 : ℝ) ≤ x / 2 ^ 160 := by positivity
  have hz1 : (x : ℝ) / 2 ^ 160 ≤ 1 := by
    rw [div_le_one (by positivity)]
    exact_mod_cast hx
  have hk : (1 : ℝ) ≤ (k + 1 : Nat) := by exact_mod_cast Nat.succ_le_succ (Nat.zero_le k)
  have hk0 : (0 : ℝ) < (k + 1 : Nat) := by linarith
  have hq := natDiv_near (t * x) (2 ^ 160)
  have he : ((t * x : Nat) : ℝ) / ((2 ^ 160 : Nat) : ℝ) = t * (x / 2 ^ 160) := by
    rw [Nat.cast_mul, Nat.cast_pow, Nat.cast_ofNat, mul_div_assoc]
  rw [he] at hq
  generalize t * x / 2 ^ 160 = q at hq ⊢
  obtain ⟨h2, h1⟩ := natDiv_near q (k + 1)
  have h3 : (q : ℝ) / (k + 1 : Nat) ≤ t * (x / 2 ^ 160) / (k + 1 : Nat) := div_le_div_of_nonneg_right hq.2 hk0.le
  have h4 : (t * (x / 2 ^ 160) - 1) / (k + 1 : Nat) ≤ (q : ℝ) / (k + 1 : Nat) := div_le_div_of_nonneg_right hq.1 hk0.le
  have h5 : t * ((x : ℝ) / 2 ^ 160) / (k + 1 : Nat) ≤ expTerm x (k + 1) := by
    rw [expTerm_succ]
    exact div_le_div_of_nonneg_right (mul_le_mul_of_nonneg_right hhi hz0) hk0.le
  have h6 : expTerm x (k + 1) - c ≤ t * ((x : ℝ) / 2 ^ 160) / (k + 1 : Nat) := by
    rw [expTerm_succ]
    have hcz : c * ((x : ℝ) / 2 ^ 160) / (k + 1 : Nat) ≤ c :=
      (div_le_self (mul_nonneg hc hz0) hk).trans (mul_le_of_le_one_right hc hz1)
    have := div_le_div_of_nonneg_right (mul_le_mul_of_nonneg_right hlo hz0) hk0.le
    rw [sub_mul, sub_div] at this
    linarith
  have h7 : (1 : ℝ) / (k + 1 : Nat) ≤ 1 := by rwa [div_le_one hk0]
  rw [sub_div] at h4
  exact ⟨by linarith, by linarith⟩

/-- The sum of the computed terms falls short of that of the exact ones by less than 2 for each rounding in it. -/
theorem expTerms_near {x : Nat} (hx : x ≤ 2 ^ 160) (n : Nat) : ∀ (t k : Nat) (c : ℝ), 0 ≤ c → expTerm x k - c ≤ t → (t : ℝ) ≤ expTerm x k →
    ∑ i ∈ Finset.range n, expTerm x (k + 1 + i) - n * (c + 2 * n) ≤ expTerms n x t k
      ∧ (expTerms n x t k : ℝ) ≤ ∑ i ∈ Finset.range n, expTerm x (k + 1 + i) := by
  induction n with
  | zero => intro t k c _ _ _; simp [expTerms]
  | succ n ih =>
    intro t k c hc hlo hhi
    obtain ⟨hlo', hhi'⟩ := expTerm_step hx hc hlo hhi
    obtain ⟨h1, h2⟩ := ih _ (k + 1) (c + 2) (by linarith) hlo' hhi'
    have hs : ∑ i ∈ Finset.range (n + 1), expTerm x (k + 1 + i)
        = ∑ i ∈ Finset.range n, expTerm x (k + 1 + 1 + i) + expTerm x (k + 1) := by
      rw [Finset.sum_range_succ']
      simp only [Nat.add_zero, Nat.add_assoc, Nat.add_comm 1]
    have he : (expTerms (n + 1) x t k : ℝ) = (t * x / 2 ^ 160 / (k + 1) : Nat) + expTerms n x (t * x / 2 ^ 160 / (k + 1)) (k + 1) := by
      exact_mod_cast rfl
    rw [hs, he]
    push_cast at *
    refine ⟨?_, by linarith⟩
    have hn : (0 : ℝ) ≤ n := Nat.cast_nonneg n
    nlinarith

/-- The exponential in fixed point. -/
def expFix (x : Nat) : Nat := 2 ^ 160 + expTerms 48 x (2 ^ 160) 0

theorem expFix_near {x : Nat} (hx : x ≤ 2 ^ 160) : |(expFix x : ℝ) - 2 ^ 160 * Real.exp (x / 2 ^ 160)| ≤ 2 ^ 13 := by
  have hz0 : (0 : ℝ) ≤ x / 2 ^ 160 := by positivity
  have hz1 : (x : ℝ) / 2 ^ 160 ≤ 1 := by
    rw [div_le_one (by positivity)]
    exact_mod_cast hx
  obtain ⟨h1, h2⟩ := expTerms_near hx 48 (2 ^ 160) 0 0 le_rfl (by rw [expTerm_zero]; norm_num) (by rw [expTerm_zero]; norm_num)
  have hexp := Real.exp_bound (x := (x : ℝ) / 2 ^ 160) (abs_le.2 ⟨by linarith, hz1⟩) (n := 49) (by norm_num)
  have hsum : 2 ^ 160 * ∑ m ∈ Finset.range 49, ((x : ℝ) / 2 ^ 160) ^ m / m.factorial
      = ∑ i ∈ Finset.range 48, expTerm x (0 + 1 + i) + 2 ^ 160 := by
    rw [Finset.sum_range_succ', mul_add, Finset.mul_sum]
    simp [expTerm, mul_div_assoc, add_comm]
  have hrest : |(x : ℝ) / 2 ^ 160| ^ 49 * (((49 : Nat).succ : ℝ) / ((49 : Nat).factorial * (49 : Nat))) ≤ 1 / 2 ^ 160 := by
    have h : |(x : ℝ) / 2 ^ 160| ^ 49 ≤ 1 := pow_le_one₀ (abs_nonneg _) (by rwa [abs_of_nonneg hz0])
    calc _ ≤ 1 * (((49 : Nat).succ : ℝ) / ((49 : Nat).factorial * (49 : Nat))) := mul_le_mul_of_nonneg_right h (by positivity)
      _ ≤ 1 / 2 ^ 160 := by
        norm_num [Nat.factorial]
  have hb := abs_le.1 (hexp.trans hrest)
  have hs : (0 : ℝ) < 2 ^ 160 := by positivity
  have hc : (expFix x : ℝ) = 2 ^ 160 + expTerms 48 x (2 ^ 160) 0 := by
    unfold expFix
    rw [Nat.cast_add, Nat.cast_pow, Nat.cast_ofNat]
  have hlo := mul_le_mul_of_nonneg_left hb.1 hs.le
  have hhi := mul_le_mul_of_nonneg_left hb.2 hs.le
  rw [mul_sub, hsum] at hlo hhi
  rw [hc]
  have hone : (2 : ℝ) ^ 160 * (1 / 2 ^ 160) = 1 := by norm_num
  rw [mul_neg, hone] at hlo
  rw [hone] at hhi
  rw [Nat.cast_ofNat] at h1
  generalize Real.exp ((x : ℝ) / 2 ^ 160) = w at hlo hhi
  generalize ∑ i ∈ Finset.range 48, expTerm x (0 + 1 + i) = v at h1 h2 hlo hhi
  exact abs_le.2 ⟨by linarith, by linarith⟩

/-! ## ln 2 -/

theorem expFix_ln2Fix : expFix ln2Fix ≤ 2 ^ 161 + 2 ^ 13 ∧ 2 ^ 161 ≤ expFix ln2Fix + 2 ^ 13 := by decide +kernel

/-- ln 2 lies within 2^−146 of its fixed-point value. -/
theorem ln2Fix_near : |(ln2Fix : ℝ) / 2 ^ 160 - Real.log 2| ≤ 2 ^ 14 / 2 ^ 160 := by
  have hnear := abs_le.1 (expFix_near (x := ln2Fix) (by decide))
  obtain ⟨hhi, hlo⟩ := expFix_ln2Fix
  have hlo' : (2 : ℝ) ^ 161 ≤ expFix ln2Fix + 2 ^ 13 := by exact_mod_cast hlo
  have hhi' : (expFix ln2Fix : ℝ) ≤ 2 ^ 161 + 2 ^ 13 := by exact_mod_cast hhi
  generalize (ln2Fix : ℝ) / 2 ^ 160 = z at hnear ⊢
  generalize (expFix ln2Fix : ℝ) = w at hnear hlo' hhi'
  have hpos := Real.exp_pos z
  -- exp z ÷ 2 is so near to 1 that its logarithm is near to 0
  have h1 : Real.log (Real.exp z / 2) ≤ Real.exp z / 2 - 1 := Real.log_le_sub_one_of_pos (by positivity)
  have h2 : 1 - (Real.exp z / 2)⁻¹ ≤ Real.log (Real.exp z / 2) := Real.one_sub_inv_le_log_of_pos (by positivity)
  rw [Real.log_div hpos.ne' two_ne_zero, Real.log_exp] at h1 h2
  have h3 : (Real.exp z / 2)⁻¹ ≤ 1 + 2 ^ 14 / 2 ^ 160 := by
    rw [inv_le_comm₀ (by positivity) (by positivity)]
    have : (1 + (2 : ℝ) ^ 14 / 2 ^ 160)⁻¹ ≤ 1 - 2 ^ 13 / 2 ^ 160 := by norm_num
    refine this.trans ?_
    norm_num at *
    linarith
  norm_num at *
  exact abs_le.2 ⟨by linarith, by linarith⟩

/-! ## Fractions of an octave -/

theorem exp2Frac_eq (f : Nat) : exp2Frac f = expFix (f * ln2Fix / 2 ^ 160) := rfl

/-- The argument of the exponential for a fraction of an octave. -/
theorem exp2Frac_arg {f : Nat} (hf : (f : ℝ) / 2 ^ 160 ≤ 1) :
    |((f * ln2Fix / 2 ^ 160 : Nat) : ℝ) / 2 ^ 160 - Real.log 2 * (f / 2 ^ 160)| ≤ 2 ^ 15 / 2 ^ 160 := by
  have hs : (0 : ℝ) < 2 ^ 160 := by positivity
  have hf0 : (0 : ℝ) ≤ f / 2 ^ 160 := by positivity
  obtain ⟨h1, h2⟩ := natDiv_near (f * ln2Fix) (2 ^ 160)
  have he : ((f * ln2Fix : Nat) : ℝ) / ((2 ^ 160 : Nat) : ℝ) = 2 ^ 160 * (f / 2 ^ 160 * (ln2Fix / 2 ^ 160)) := by
    rw [Nat.cast_mul, Nat.cast_pow, Nat.cast_ofNat]
    field_simp
  rw [he] at h1 h2
  have h3 := abs_le.1 ln2Fix_near
  generalize (ln2Fix : ℝ) / 2 ^ 160 = l at h1 h2 h3
  generalize ((f * ln2Fix / 2 ^ 160 : Nat) : ℝ) = v at h1 h2 ⊢
  generalize (f : ℝ) / 2 ^ 160 = g at h1 h2 hf0 hf ⊢
  have h4 : v / 2 ^ 160 ≤ g * l := by
    rw [div_le_iff₀ hs]
    linarith
  have h5 : g * l - 1 / 2 ^ 160 ≤ v / 2 ^ 160 := by
    rw [le_div_iff₀ hs, sub_mul, one_div, inv_mul_cancel₀ hs.ne']
    linarith
  have h6 : |g * (l - Real.log 2)| ≤ 2 ^ 14 / 2 ^ 160 := by
    rw [abs_mul, abs_of_nonneg hf0]
    exact (mul_le_of_le_one_left (abs_nonneg _) hf).trans (abs_le.2 h3)
  have h7 := abs_le.1 h6
  rw [mul_sub] at h7
  norm_num at h4 h5 h7 ⊢
  exact abs_le.2 ⟨by linarith, by linarith⟩

theorem abs_exp_sub_exp_le {v b : ℝ} (h : |v - b| ≤ 1) : |Real.exp v - Real.exp b| ≤ Real.exp b * (2 * |v - b|) := by
  have he : Real.exp v - Real.exp b = Real.exp b * (Real.exp (v - b) - 1) := by
    rw [mul_sub, ← Real.exp_add, mul_one, add_sub_cancel]
  rw [he, abs_mul, abs_of_pos (Real.exp_pos b)]
  exact mul_le_mul_of_nonneg_left (Real.abs_exp_sub_one_le h) (Real.exp_pos b).le

/-- The enclosure of 2^f for a fraction f. -/
theorem exp2Frac_near {f : Nat} (hf : f ≤ 2 ^ 160) : |(exp2Frac f : ℝ) - 2 ^ 160 * (2 : ℝ) ^ ((f : ℝ) / 2 ^ 160)| ≤ 2 ^ 18 := by
  have hs : (0 : ℝ) < 2 ^ 160 := by positivity
  have hf1 : (f : ℝ) / 2 ^ 160 ≤ 1 := by
    rw [div_le_one hs]
    exact_mod_cast hf
  have hx := exp2Frac_arg hf1
  have hle : f * ln2Fix / 2 ^ 160 ≤ 2 ^ 160 := Nat.div_le_of_le_mul (Nat.mul_le_mul hf (by decide))
  have hnear := expFix_near hle
  rw [← exp2Frac_eq] at hnear
  have htwo : (2 : ℝ) ^ ((f : ℝ) / 2 ^ 160) ≤ 2 := by
    calc (2 : ℝ) ^ ((f : ℝ) / 2 ^ 160) ≤ (2 : ℝ) ^ (1 : ℝ) := Real.rpow_le_rpow_of_exponent_le one_le_two hf1
      _ = 2 := Real.rpow_one 2
  rw [Real.rpow_def_of_pos two_pos] at htwo ⊢
  generalize (exp2Frac f : ℝ) = w at hnear ⊢
  generalize ((f * ln2Fix / 2 ^ 160 : Nat) : ℝ) / 2 ^ 160 = v at hx hnear
  generalize Real.log 2 * ((f : ℝ) / 2 ^ 160) = b at hx htwo ⊢
  have hdiff : |Real.exp v - Real.exp b| ≤ 2 * (2 * (2 ^ 15 / 2 ^ 160)) :=
    (abs_exp_sub_exp_le (hx.trans (by norm_num))).trans
      (mul_le_mul htwo (mul_le_mul_of_nonneg_left hx zero_le_two) (by positivity) zero_le_two)
  have hsum := abs_sub_le w (2 ^ 160 * Real.exp v) (2 ^ 160 * Real.exp b)
  rw [← mul_sub, abs_mul, abs_of_pos hs] at hsum
  have hmul := mul_le_mul_of_nonneg_left hdiff hs.le
  have heq : (2 : ℝ) ^ 160 * (2 * (2 * (2 ^ 15 / 2 ^ 160))) = 2 ^ 17 := by norm_num
  rw [heq] at hmul
  linarith

theorem exp2Frac_ge (f : Nat) : 2 ^ 160 ≤ exp2Frac f := Nat.le_add_right ..

end Sys2Proof.Machine
end

section
/-!
PROOF. The enclosures of reciprocals, roots and powers of two (07_numbers.md R92, 11_cell_isa.md R146).
-/

namespace Sys2Proof.Machine

/-- An enclosure of a number that is given in the enclosure's own units. -/
theorem encloses_of {enc : Enc} (off : Int) {z : ℝ} (hnear : |(enc.mid : ℝ) - z| ≤ enc.err) (hpos : 0 < enc.mid)
    (hnarrow : (enc.err : Int) * 2 ^ 26 ≤ enc.mid) : Encloses enc off (z * 2 ^ (off - 160)) := by
  refine ⟨hpos, ?_, hnarrow⟩
  have hp : (0 : ℝ) < 2 ^ (off - 160) := by positivity
  rw [← sub_mul, abs_mul, abs_of_pos hp]
  exact mul_le_mul_of_nonneg_right hnear hp.le

/-- An enclosure of a number in units of 2^−160. -/
theorem encloses_of_zero {enc : Enc} {y : ℝ} (hnear : |(enc.mid : ℝ) - 2 ^ 160 * y| ≤ (enc.err : ℝ)) (hpos : 0 < enc.mid)
    (hnarrow : (enc.err : Int) * 2 ^ 26 ≤ enc.mid) : Encloses enc 0 y := by
  have h := encloses_of 0 hnear hpos hnarrow
  have hy : (2 : ℝ) ^ 160 * y * 2 ^ ((0 : Int) - 160) = y := by
    rw [mul_right_comm, show (2 : ℝ) ^ 160 * 2 ^ ((0 : Int) - 160) = 1 by norm_num, one_mul]
  rwa [hy] at h

/-! ## Reciprocals -/

/-- The enclosure of a reciprocal, with its middle rounded down. -/
theorem rcpEnc_encloses {m : Nat} (e : Int) (hm : m ≠ 0) :
    Encloses (rcpEnc m e).2 (-(e + Nat.log2 m)) ((m : ℝ) * 2 ^ e)⁻¹
      ∧ (((rcpEnc m e).2.mid : Int) : ℝ) * 2 ^ (-(e + (Nat.log2 m : Int)) - 160) ≤ ((m : ℝ) * 2 ^ e)⁻¹ := by
  obtain ⟨-, hhi⟩ := log2_bounds hm
  have hm0 : (0 : ℝ) < m := by exact_mod_cast Nat.pos_of_ne_zero hm
  obtain ⟨h1, h2⟩ := natDiv_near (2 ^ (160 + Nat.log2 m)) m
  have hmid : 2 ^ 159 ≤ 2 ^ (160 + Nat.log2 m) / m := by
    rw [Nat.le_div_iff_mul_le (Nat.pos_of_ne_zero hm)]
    calc 2 ^ 159 * m ≤ 2 ^ 159 * 2 ^ (Nat.log2 m + 1) := Nat.mul_le_mul_left _ hhi.le
      _ = 2 ^ (160 + Nat.log2 m) := by rw [← Nat.pow_add]; congr 1; omega
  have henc : (rcpEnc m e).2 = ⟨(2 ^ (160 + Nat.log2 m) / m : Nat), 1⟩ := rfl
  rw [henc]
  generalize hl : Nat.log2 m = l at *
  have hy : ((m : ℝ) * 2 ^ e)⁻¹ = ((2 ^ (160 + l) : Nat) : ℝ) / m * 2 ^ (-(e + (l : Int)) - 160) := by
    rw [mul_inv, ← zpow_neg, Nat.cast_pow, Nat.cast_ofNat, div_mul_eq_mul_div, ← zpow_natCast, ← zpow_add₀ two_ne_zero, inv_mul_eq_div]
    congr 2
    push_cast
    ring
  rw [hy]
  generalize 2 ^ (160 + l) / m = q at *
  have hq : ((q : Int) : ℝ) = q := Int.cast_natCast q
  refine ⟨encloses_of _ ?_ ?_ ?_, ?_⟩
  · dsimp only
    rw [hq, Nat.cast_one]
    exact abs_le.2 ⟨by linarith, by linarith⟩
  · dsimp only
    omega
  · dsimp only
    omega
  · rw [hq]
    exact mul_le_mul_of_nonneg_right h2 (by positivity)

/-! ## Reciprocals of square roots -/

/-- The root is found bit by bit. -/
theorem sqrtFix_eq {x : Nat} (n : Nat) : ∀ r : Nat, r * r ≤ x → x < (r + 2 ^ n) * (r + 2 ^ n) → sqrtFix n x r = Nat.sqrt x := by
  induction n with
  | zero => exact fun r hlo hhi => Nat.eq_sqrt.2 ⟨hlo, hhi⟩
  | succ n ih =>
    intro r hlo hhi
    have h2 : 2 ^ (n + 1) = 2 ^ n + 2 ^ n := by rw [Nat.pow_succ]; omega
    unfold sqrtFix
    dsimp only
    split
    · rename_i h
      exact ih _ h (by rwa [Nat.add_assoc, ← h2])
    · rename_i h
      exact ih _ hlo (not_le.1 h)

/-- The root of a quotient rounded down. -/
theorem sqrt_div_near (a b : Nat) : (Nat.sqrt (a / b) : ℝ) ≤ √((a : ℝ) / b) ∧ √((a : ℝ) / b) ≤ Nat.sqrt (a / b) + 1 := by
  obtain ⟨h1, h2⟩ := natDiv_near a b
  constructor
  · refine Real.le_sqrt_of_sq_le (le_trans ?_ h2)
    exact_mod_cast Nat.sqrt_le' (a / b)
  · refine Real.sqrt_le_iff.2 ⟨by positivity, ?_⟩
    have : ((a / b : Nat) : ℝ) + 1 ≤ (Nat.sqrt (a / b) + 1) ^ 2 := by exact_mod_cast Nat.lt_succ_sqrt' (a / b)
    linarith

/-- The enclosure of the reciprocal of a root, with its middle rounded down. -/
theorem rsqEnc_encloses {m : Nat} (e : Int) (hm : m ≠ 0) :
    Encloses (rsqEnc m e).2 (rsqEnc m e).1 (√((m : ℝ) * 2 ^ e))⁻¹
      ∧ (((rsqEnc m e).2.mid : Int) : ℝ) * 2 ^ ((rsqEnc m e).1 - 160) ≤ (√((m : ℝ) * 2 ^ e))⁻¹ := by
  obtain ⟨hlo, hhi⟩ := log2_bounds hm
  have henc : rsqEnc m e = (-((e + Nat.log2 m) / 2),
    ⟨(sqrtFix 162 (2 ^ (320 + Nat.log2 m) / (m * 2 ^ ((e + Nat.log2 m) % 2).toNat)) 0 : Nat), 2⟩) := rfl
  rw [henc]
  dsimp only
  generalize Nat.log2 m = l at *
  have hmod : ((e + l) % 2).toNat = 0 ∨ ((e + l) % 2).toNat = 1 := by omega
  have hex : e = 2 * ((e + l) / 2) + ((e + l) % 2).toNat - l := by omega
  generalize (e + l) / 2 = h at *
  generalize ((e + l) % 2).toNat = p at *
  have hd0 : 0 < m * 2 ^ p := Nat.mul_pos (Nat.pos_of_ne_zero hm) (Nat.two_pow_pos p)
  have hdlo : 2 ^ l ≤ m * 2 ^ p := hlo.trans (Nat.le_mul_of_pos_right m (Nat.two_pow_pos p))
  have hdhi : m * 2 ^ p ≤ 2 ^ (l + 2) := by
    calc m * 2 ^ p ≤ 2 ^ (l + 1) * 2 ^ 1 := Nat.mul_le_mul hhi.le (Nat.pow_le_pow_right (by norm_num) (by omega))
      _ = 2 ^ (l + 2) := by rw [← Nat.pow_add]
  have hval : (m : ℝ) * 2 ^ e = (m * 2 ^ p : Nat) * 2 ^ (2 * h - (l : Int)) := by
    rw [Nat.cast_mul, Nat.cast_pow, Nat.cast_ofNat, mul_assoc, ← zpow_natCast, ← zpow_add₀ two_ne_zero]
    congr 2
    omega
  generalize m * 2 ^ p = d at *
  have hxhi : 2 ^ (320 + l) / d ≤ 2 ^ 320 := by
    refine Nat.div_le_of_le_mul ?_
    calc 2 ^ (320 + l) = 2 ^ l * 2 ^ 320 := Nat.pow_add' 2 320 l
      _ ≤ d * 2 ^ 320 := Nat.mul_le_mul_right _ hdlo
  have hxlo : 2 ^ 318 ≤ 2 ^ (320 + l) / d := by
    rw [Nat.le_div_iff_mul_le hd0]
    calc 2 ^ 318 * d ≤ 2 ^ 318 * 2 ^ (l + 2) := Nat.mul_le_mul_left _ hdhi
      _ = 2 ^ (320 + l) := by rw [← Nat.pow_add]; congr 1; omega
  obtain ⟨h1, h2⟩ := sqrt_div_near (2 ^ (320 + l)) d
  rw [sqrtFix_eq 162 0 (Nat.zero_le _) (by
    rw [Nat.zero_add, ← Nat.pow_add]
    exact lt_of_le_of_lt hxhi (Nat.pow_lt_pow_right (by norm_num) (by norm_num)))]
  have hmid : 2 ^ 159 ≤ Nat.sqrt (2 ^ (320 + l) / d) := Nat.le_sqrt.2 (by rwa [← Nat.pow_add])
  have hy : (√((m : ℝ) * 2 ^ e))⁻¹ = √(((2 ^ (320 + l) : Nat) : ℝ) / d) * 2 ^ (-h - 160) := by
    have hs : (2 : ℝ) ^ (-h - 160) = √((2 : ℝ) ^ (2 * (-h - 160))) := by
      rw [mul_comm, zpow_mul, zpow_ofNat, Real.sqrt_sq (by positivity)]
    rw [hval, hs, ← Real.sqrt_mul (by positivity), ← Real.sqrt_inv, mul_inv, ← zpow_neg, Nat.cast_pow, Nat.cast_ofNat, div_mul_eq_mul_div,
      ← zpow_natCast, ← zpow_add₀ two_ne_zero, inv_mul_eq_div]
    congr 3
    push_cast
    ring
  rw [hy]
  generalize Nat.sqrt (2 ^ (320 + l) / d) = q at *
  have hq : ((q : Int) : ℝ) = q := Int.cast_natCast q
  refine ⟨encloses_of _ ?_ ?_ ?_, ?_⟩
  · dsimp only
    rw [hq, Nat.cast_ofNat]
    exact abs_le.2 ⟨by linarith, by linarith⟩
  · dsimp only
    omega
  · dsimp only
    omega
  · rw [hq]
    exact mul_le_mul_of_nonneg_right h1 (by positivity)

/-! ## Powers of two -/

/-- A value that is a multiple of 2^−160 is held exactly. -/
theorem toFix_val (neg : Bool) (m : Nat) {e : Int} (he : -160 ≤ e) : (toFix neg m e : ℝ) = finVal neg m e * 2 ^ 160 := by
  have hp : (2 : ℝ) ^ (e + 160).toNat = (2 : ℝ) ^ e * 2 ^ 160 := by
    rw [two_pow_toNat (by omega), zpow_add₀ two_ne_zero]
    rfl
  have hx : (m * 2 ^ (e + (160 : Nat)).toNat : ℝ) = m * 2 ^ e * 2 ^ 160 := by
    rw [show e + ((160 : Nat) : Int) = e + 160 from rfl, hp, mul_assoc]
  unfold toFix
  rw [show encBits = 160 from rfl, if_pos (by omega : (0 : Int) ≤ e + (160 : Nat))]
  cases neg
  · rw [finVal_false, ← hx]
    simp
  · rw [finVal_true, neg_mul, ← hx]
    simp

/-- The enclosure of a power of two. -/
theorem exp2Enc_encloses (neg : Bool) (m : Nat) {e : Int} (he : -160 ≤ e) :
    Encloses (exp2Enc neg m e).2 (exp2Enc neg m e).1 ((2 : ℝ) ^ finVal neg m e) := by
  have hfix := toFix_val neg m he
  have henc : exp2Enc neg m e = (toFix neg m e / 2 ^ 160, ⟨exp2Frac (toFix neg m e - toFix neg m e / 2 ^ 160 * 2 ^ 160).toNat, 2 ^ 20⟩) := rfl
  rw [henc]
  dsimp only
  generalize toFix neg m e = x at *
  have hn := Int.mul_ediv_add_emod x (2 ^ 160)
  have hr0 := Int.emod_nonneg x (show (2 ^ 160 : Int) ≠ 0 by norm_num)
  have hr1 := Int.emod_lt_of_pos x (show (0 : Int) < 2 ^ 160 by norm_num)
  have hsub : x - x / 2 ^ 160 * 2 ^ 160 = x % 2 ^ 160 := by omega
  rw [hsub]
  generalize x / 2 ^ 160 = n at *
  obtain ⟨f, hf⟩ := Int.eq_ofNat_of_zero_le hr0
  rw [hf] at hn hr1 ⊢
  rw [Int.toNat_natCast]
  have hflt : f ≤ 2 ^ 160 := by omega
  have hval : finVal neg m e = n + f / 2 ^ 160 := by
    have : (x : ℝ) = 2 ^ 160 * n + f := by exact_mod_cast hn.symm
    rw [this] at hfix
    field_simp
    linarith
  have hy : (2 : ℝ) ^ finVal neg m e = 2 ^ 160 * (2 : ℝ) ^ ((f : ℝ) / 2 ^ 160) * 2 ^ (n - 160) := by
    rw [hval, Real.rpow_add two_pos, Real.rpow_intCast, zpow_sub₀ two_ne_zero]
    field_simp
  have hge := exp2Frac_ge f
  rw [hy]
  refine encloses_of n ?_ ?_ ?_
  · dsimp only
    rw [Int.cast_natCast]
    exact (exp2Frac_near hflt).trans (by norm_num)
  · dsimp only
    omega
  · dsimp only
    omega

end Sys2Proof.Machine
end

section
/-!
PROOF. The enclosure of logarithms (07_numbers.md R92, 11_cell_isa.md R146).
-/

namespace Sys2Proof.Machine

/-! ## Bits of a logarithm by squaring -/

/-- A mantissa rounded down at its 240th bit: its logarithm falls by less than 2^−239. -/
theorem logb_floor {x : ℝ} {n : Nat} (hn : 2 ^ 240 ≤ n) (hlo : (n : ℝ) ≤ x) (hhi : x ≤ n + 1) :
    Real.logb 2 n ≤ Real.logb 2 x ∧ Real.logb 2 x ≤ Real.logb 2 n + 1 / 2 ^ 239 := by
  have hn' : (2 : ℝ) ^ 240 ≤ n := by exact_mod_cast hn
  have hn0 : (0 : ℝ) < n := lt_of_lt_of_le (by positivity) hn'
  refine ⟨Real.logb_le_logb_of_le one_lt_two hn0 hlo, ?_⟩
  have hr : (n : ℝ) + 1 = n * (1 + 1 / n) := by field_simp
  have hlog2 : 1 / 2 < Real.log 2 := lt_trans (by norm_num) Real.log_two_gt_d9
  have hsmall : Real.logb 2 (1 + 1 / n) ≤ 1 / 2 ^ 239 := by
    unfold Real.logb
    rw [div_le_iff₀ (by linarith)]
    have h1 : Real.log (1 + 1 / n) ≤ 1 / n := by
      have := Real.log_le_sub_one_of_pos (x := 1 + 1 / (n : ℝ)) (by positivity)
      linarith
    have h2 : 1 / (n : ℝ) ≤ 1 / 2 ^ 240 := one_div_le_one_div_of_le (by positivity) hn'
    have h3 : (1 : ℝ) / 2 ^ 240 = 1 / 2 ^ 239 * (1 / 2) := by norm_num
    have h4 : (1 : ℝ) / 2 ^ 239 * (1 / 2) ≤ 1 / 2 ^ 239 * Real.log 2 := mul_le_mul_of_nonneg_left hlog2.le (by positivity)
    linarith
  calc Real.logb 2 x ≤ Real.logb 2 (n + 1) := Real.logb_le_logb_of_le one_lt_two (hn0.trans_le hlo) hhi
    _ = Real.logb 2 n + Real.logb 2 (1 + 1 / n) := by rw [hr, Real.logb_mul hn0.ne' (by positivity)]
    _ ≤ Real.logb 2 n + 1 / 2 ^ 239 := by linarith

/-- The exponent of a mantissa of 241 bits. -/
theorem logb_mantissa {m : Nat} (hlo : 2 ^ 240 ≤ m) (hhi : m ≤ 2 ^ 241) : 0 ≤ Real.logb 2 m - 240 ∧ Real.logb 2 m - 240 ≤ 1 := by
  have hlo' : (2 : ℝ) ^ (240 : ℝ) ≤ m := by
    rw [show (240 : ℝ) = ((240 : Nat) : ℝ) by norm_num, Real.rpow_natCast]
    exact_mod_cast hlo
  have hhi' : (m : ℝ) ≤ (2 : ℝ) ^ (241 : ℝ) := by
    rw [show (241 : ℝ) = ((241 : Nat) : ℝ) by norm_num, Real.rpow_natCast]
    exact_mod_cast hhi
  have hm : (0 : ℝ) < m := lt_of_lt_of_le (by positivity) hlo'
  have h1 := (Real.le_logb_iff_rpow_le one_lt_two hm).2 hlo'
  have h2 := (Real.logb_le_iff_le_rpow one_lt_two hm).2 hhi'
  exact ⟨by linarith, by linarith⟩

/-- A square divided by a power of two, rounded down, and what that leaves of its logarithm. -/
theorem logb_square {m : Nat} (hm : 2 ^ 240 ≤ m) {c q : Nat} (hq : q = m * m / 2 ^ 240 / 2 ^ c) (hlo : 2 ^ 240 ≤ q) :
    Real.logb 2 q ≤ 2 * Real.logb 2 m - 240 - c ∧ 2 * Real.logb 2 m - 240 - c ≤ Real.logb 2 q + 1 / 2 ^ 239 := by
  have hm0 : (m : ℝ) ≠ 0 := by
    have : 0 < m := lt_of_lt_of_le (by norm_num) hm
    exact_mod_cast this.ne'
  have hx : 2 * Real.logb 2 m - 240 - c = Real.logb 2 (((m * m : Nat) : ℝ) / ((2 ^ (240 + c) : Nat) : ℝ)) := by
    rw [Nat.cast_mul, Nat.cast_pow, Nat.cast_ofNat, Real.logb_div (mul_ne_zero hm0 hm0) (by positivity), Real.logb_mul hm0 hm0, Real.logb_pow,
      Real.logb_self_eq_one one_lt_two]
    push_cast
    ring
  rw [Nat.div_div_eq_div_mul, ← Nat.pow_add] at hq
  obtain ⟨h1, h2⟩ := natDiv_near (m * m) (2 ^ (240 + c))
  rw [← hq] at h1 h2
  rw [hx]
  exact logb_floor hlo h2 (by linarith)

theorem log2Bits_succ (n m w : Nat) : log2Bits (n + 1) m w
    = if 2 ^ 241 ≤ m * m / 2 ^ 240 then w + log2Bits n (m * m / 2 ^ 240 / 2) (w / 2) else log2Bits n (m * m / 2 ^ 240) (w / 2) := rfl

theorem log2Bits_near (n : Nat) : ∀ m j : Nat, 2 ^ 240 ≤ m → m < 2 ^ 241 → n ≤ j →
    (log2Bits n m (2 ^ j) : ℝ) ≤ 2 ^ (j + 1) * (Real.logb 2 m - 240)
      ∧ 2 ^ (j + 1) * (Real.logb 2 m - 240) ≤ log2Bits n m (2 ^ j) + 2 ^ (j + 1) / 2 ^ n + 2 ^ (j + 1) / 2 ^ 238 := by
  induction n with
  | zero =>
    intro m j hlo hhi _
    obtain ⟨h0, h1⟩ := logb_mantissa hlo hhi.le
    have hp : (0 : ℝ) < 2 ^ (j + 1) := by positivity
    have hq : (0 : ℝ) ≤ 2 ^ (j + 1) / 2 ^ 238 := by positivity
    have h2 := mul_le_of_le_one_right hp.le h1
    refine ⟨?_, ?_⟩
    · rw [show log2Bits 0 m (2 ^ j) = 0 from rfl, Nat.cast_zero]
      exact mul_nonneg hp.le h0
    · rw [show log2Bits 0 m (2 ^ j) = 0 from rfl, Nat.cast_zero, pow_zero, div_one]
      linarith
  | succ n ih =>
    intro m j hlo hhi hj
    obtain ⟨i, rfl⟩ : ∃ i, j = i + 1 := ⟨j - 1, by omega⟩
    have hhalf : 2 ^ (i + 1) / 2 = 2 ^ i := by rw [Nat.pow_succ, Nat.mul_div_cancel _ two_pos]
    have hslo : 2 ^ 240 ≤ m * m / 2 ^ 240 := by
      rw [Nat.le_div_iff_mul_le (Nat.two_pow_pos _)]
      exact Nat.mul_le_mul hlo hlo
    have hshi : m * m / 2 ^ 240 < 2 ^ 242 := by
      rw [Nat.div_lt_iff_lt_mul (Nat.two_pow_pos _), ← Nat.pow_add]
      calc m * m < 2 ^ 241 * 2 ^ 241 := Nat.mul_lt_mul'' hhi hhi
        _ = 2 ^ (242 + 240) := (Nat.pow_add ..).symm
    -- the bit, and the mantissa that goes on
    obtain ⟨c, q, hq, hqlo, hqhi, hbits⟩ : ∃ c q : Nat, q = m * m / 2 ^ 240 / 2 ^ c ∧ 2 ^ 240 ≤ q ∧ q < 2 ^ 241
        ∧ log2Bits (n + 1) m (2 ^ (i + 1)) = c * 2 ^ (i + 1) + log2Bits n q (2 ^ i) := by
      rw [log2Bits_succ, hhalf]
      by_cases hs : 2 ^ 241 ≤ m * m / 2 ^ 240
      · rw [if_pos hs]
        exact ⟨1, _, by rw [Nat.pow_one], by omega, by omega, by rw [Nat.one_mul]⟩
      · rw [if_neg hs]
        exact ⟨0, _, by rw [Nat.pow_zero, Nat.div_one], hslo, by omega, by rw [Nat.zero_mul, Nat.zero_add]⟩
    obtain ⟨h1, h2⟩ := ih q i hqlo hqhi (by omega)
    obtain ⟨h3, h4⟩ := logb_square hlo hq hqlo
    have hp : (0 : ℝ) < 2 ^ (i + 1) := by positivity
    have hz : 2 ^ (i + 1 + 1) * (Real.logb 2 m - 240) = 2 ^ (i + 1) * (2 * Real.logb 2 m - 240 - c - 240) + c * 2 ^ (i + 1) := by ring
    have hn : (2 : ℝ) ^ (i + 1 + 1) / 2 ^ (n + 1) = 2 ^ (i + 1) / 2 ^ n := by
      rw [pow_succ, pow_succ 2 n, mul_div_mul_right _ _ two_ne_zero]
    have hw : (2 : ℝ) ^ (i + 1 + 1) / 2 ^ 238 = 2 ^ (i + 1) / 2 ^ 238 + 2 * (2 ^ (i + 1) * (1 / 2 ^ 239)) := by ring
    have h5 := mul_le_mul_of_nonneg_left h3 hp.le
    have h6 := mul_le_mul_of_nonneg_left h4 hp.le
    have h7 : (0 : ℝ) ≤ 2 ^ (i + 1) * (1 / 2 ^ 239) := by positivity
    rw [hbits, hz, hn, hw, Nat.cast_add, Nat.cast_mul, Nat.cast_pow, Nat.cast_ofNat]
    rw [mul_sub] at h1 h2 ⊢
    rw [mul_add] at h6
    exact ⟨by linarith, by linarith⟩

/-! ## The enclosure -/

/-- A value of FP32 that is no power of two differs from 1 by 2^−24 at least. -/
theorem abs_sub_one_ge {m : Nat} (e : Int) (hm : m < 2 ^ 24) (hp : ∀ k, m ≠ 2 ^ k) : 1 / 2 ^ 24 ≤ |(m : ℝ) * 2 ^ e - 1| := by
  rcases le_or_gt e (-25) with he | he
  · have h1 : (2 : ℝ) ^ e ≤ 2 ^ (-25 : Int) := zpow_le_zpow_right₀ one_le_two he
    have h2 : (m : ℝ) ≤ 2 ^ 24 := by exact_mod_cast hm.le
    have h3 := mul_le_mul h2 h1 (by positivity) (by positivity)
    norm_num at h3
    refine le_trans ?_ (neg_le_abs _)
    norm_num
    linarith
  · have hu : min e 0 ≤ e := min_le_left ..
    have hu0 : min e 0 ≤ 0 := min_le_right ..
    have hk : -24 ≤ min e 0 := by omega
    have hone := mul_two_pow_unit hu0
    have he' := mul_two_pow_unit hu
    generalize min e 0 = u at *
    have hne : m * 2 ^ (e - u).toNat ≠ 2 ^ (0 - u).toNat := by
      intro h
      obtain ⟨k, -, hk⟩ := (Nat.dvd_prime_pow Nat.prime_two).1 (Dvd.intro _ h)
      exact hp k hk
    have hdist : (1 : ℝ) ≤ |((m * 2 ^ (e - u).toNat : Nat) : ℝ) - ((2 ^ (0 - u).toNat : Nat) : ℝ)| := by
      have : (1 : Int) ≤ |((m * 2 ^ (e - u).toNat : Nat) : Int) - ((2 ^ (0 - u).toNat : Nat) : Int)| := Int.one_le_abs (by omega)
      exact_mod_cast this
    have hx : (m : ℝ) * 2 ^ e - 1 = (((m * 2 ^ (e - u).toNat : Nat) : ℝ) - ((2 ^ (0 - u).toNat : Nat) : ℝ)) * 2 ^ u := by
      rw [Nat.cast_mul, Nat.cast_pow, Nat.cast_pow, Nat.cast_ofNat, sub_mul, mul_assoc, he', hone, zpow_zero]
    have hu' : (2 : ℝ) ^ (-24 : Int) ≤ 2 ^ u := zpow_le_zpow_right₀ one_le_two hk
    have h0 : (0 : ℝ) < 2 ^ u := by positivity
    rw [hx, abs_mul, abs_of_pos h0]
    calc (1 : ℝ) / 2 ^ 24 = 2 ^ (-24 : Int) := by norm_num
      _ ≤ 2 ^ u := hu'
      _ ≤ _ := le_mul_of_one_le_left h0.le hdist

/-- A value of FP32 that is no power of two has a logarithm of 2^−25 at least. -/
theorem abs_logb_ge {m : Nat} (e : Int) (hm : m < 2 ^ 24) (h0 : m ≠ 0) (hp : ∀ k, m ≠ 2 ^ k) :
    1 / 2 ^ 25 ≤ |Real.logb 2 ((m : ℝ) * 2 ^ e)| := by
  have hx : (0 : ℝ) < (m : ℝ) * 2 ^ e := mul_pos (by exact_mod_cast Nat.pos_of_ne_zero h0) (by positivity)
  have hd := abs_sub_one_ge e hm hp
  generalize (m : ℝ) * 2 ^ e = x at hx hd ⊢
  have hlog2 : Real.log 2 ≤ 1 := (Real.log_two_lt_d9.le).trans (by norm_num)
  have hlog : 1 / 2 ^ 25 ≤ |Real.log x| := by
    rcases le_abs.1 hd with h | h
    · refine le_trans ?_ (le_abs_self _)
      have h1 := Real.one_sub_inv_le_log_of_pos hx
      have h2 : x⁻¹ ≤ (1 + 1 / 2 ^ 24)⁻¹ := inv_anti₀ (by norm_num) (by linarith)
      norm_num at h1 h2 ⊢
      linarith
    · refine le_trans ?_ (neg_le_abs _)
      have h1 := Real.log_le_sub_one_of_pos hx
      norm_num at h1 h ⊢
      linarith
  have hpos := Real.log_pos one_lt_two
  unfold Real.logb
  rw [abs_div, abs_of_pos hpos]
  exact hlog.trans (le_div_self (abs_nonneg _) hpos hlog2)

/-- A mantissa with its top bit moved to bit k. -/
theorem mantissa_shift {m l k : Nat} (hlo : 2 ^ l ≤ m) (hhi : m < 2 ^ (l + 1)) (hl : l ≤ k) :
    m * 2 ^ k / 2 ^ l = m * 2 ^ (k - l) ∧ 2 ^ k ≤ m * 2 ^ (k - l) ∧ m * 2 ^ (k - l) < 2 ^ (k + 1) := by
  have hk : k = k - l + l := by omega
  refine ⟨?_, ?_, ?_⟩
  · have : m * 2 ^ k = m * 2 ^ (k - l) * 2 ^ l := by rw [Nat.mul_assoc, ← Nat.pow_add, ← hk]
    rw [this, Nat.mul_div_cancel _ (Nat.two_pow_pos l)]
  · calc 2 ^ k = 2 ^ l * 2 ^ (k - l) := by rw [← Nat.pow_add]; congr 1; omega
      _ ≤ _ := Nat.mul_le_mul_right _ hlo
  · calc m * 2 ^ (k - l) < 2 ^ (l + 1) * 2 ^ (k - l) := Nat.mul_lt_mul_of_pos_right hhi (Nat.two_pow_pos _)
      _ = 2 ^ (k + 1) := by rw [← Nat.pow_add]; congr 1; omega

/-- The logarithm of a mantissa between 1 and 2, in units of 2^−160. -/
theorem log2Bits_mantissa {m l : Nat} (hlo : 2 ^ l ≤ m) (hhi : m < 2 ^ (l + 1)) (hl : l < 24) :
    |(log2Bits 100 (m * 2 ^ 240 / 2 ^ l) (2 ^ 159) : ℝ) - 2 ^ 160 * (Real.logb 2 m - l)| ≤ 2 ^ 61 := by
  obtain ⟨hM, hMlo, hMhi⟩ := mantissa_shift hlo hhi (show l ≤ 240 by omega)
  have hm : (m : ℝ) ≠ 0 := by
    have : 0 < m := (Nat.two_pow_pos l).trans_le hlo
    exact_mod_cast this.ne'
  have hlog : Real.logb 2 ((m * 2 ^ (240 - l) : Nat) : ℝ) - 240 = Real.logb 2 m - l := by
    rw [Nat.cast_mul, Nat.cast_pow, Nat.cast_ofNat, Real.logb_mul hm (by positivity), Real.logb_pow, Real.logb_self_eq_one one_lt_two,
      Nat.cast_sub (by omega)]
    push_cast
    ring
  obtain ⟨h1, h2⟩ := log2Bits_near 100 (m * 2 ^ (240 - l)) 159 hMlo hMhi (by norm_num)
  rw [hlog] at h1 h2
  rw [hM]
  norm_num at h1 h2 ⊢
  exact abs_le.2 ⟨by linarith, by linarith⟩

/-- The enclosure of a logarithm other than 0, and its sign. -/
theorem log2Enc_encloses {m : Nat} (e : Int) (hm : m < 2 ^ 24) (h0 : m ≠ 0) (hp : ∀ k, m ≠ 2 ^ k) :
    Encloses ⟨(log2Enc m e).mid.natAbs, (log2Enc m e).err⟩ 0 |Real.logb 2 ((m : ℝ) * 2 ^ e)|
      ∧ signed (decide ((log2Enc m e).mid < 0)) |Real.logb 2 ((m : ℝ) * 2 ^ e)| = Real.logb 2 ((m : ℝ) * 2 ^ e) := by
  obtain ⟨hlo, hhi⟩ := log2_bounds h0
  have hl : Nat.log2 m < 24 := (Nat.log2_lt h0).2 hm
  have hbits := log2Bits_mantissa hlo hhi hl
  have hge := abs_logb_ge e hm h0 hp
  have henc : log2Enc m e = ⟨(e + Nat.log2 m) * (2 ^ 160 : Nat) + (log2Bits 100 (m * 2 ^ 240 / 2 ^ Nat.log2 m) (2 ^ 159) : Nat), 2 ^ 62⟩ := rfl
  have hlog : Real.logb 2 ((m : ℝ) * 2 ^ e) = Real.logb 2 m + e := by
    rw [Real.logb_mul (by exact_mod_cast h0) (by positivity), ← Real.rpow_intCast, Real.logb_rpow two_pos (by norm_num)]
  have hnear : |((log2Enc m e).mid : ℝ) - 2 ^ 160 * Real.logb 2 ((m : ℝ) * 2 ^ e)| ≤ 2 ^ 61 := by
    rw [henc, hlog]
    convert hbits using 2
    push_cast
    ring
  have herr : (log2Enc m e).err = 2 ^ 62 := rfl
  rw [herr]
  generalize (log2Enc m e).mid = c at hnear ⊢
  generalize Real.logb 2 ((m : ℝ) * 2 ^ e) = y at hge hnear ⊢
  have hnear' := (abs_abs_sub_abs_le (c : ℝ) (2 ^ 160 * y)).trans hnear
  rw [abs_mul, abs_of_pos (show (0 : ℝ) < 2 ^ 160 by positivity)] at hnear'
  have hc : ((c.natAbs : Int) : ℝ) = |(c : ℝ)| := by rw [Int.natCast_natAbs, Int.cast_abs]
  have hbig : (2 : ℝ) ^ 134 ≤ |(c : ℝ)| := by
    have := (abs_le.1 hnear').1
    norm_num at this hge ⊢
    linarith
  have hmid : (2 : Int) ^ 134 ≤ c.natAbs := by
    rw [← hc] at hbig
    exact_mod_cast hbig
  constructor
  · refine encloses_of_zero ?_ (by dsimp only; omega) (by dsimp only; omega)
    dsimp only
    rw [hc, Nat.cast_pow, Nat.cast_ofNat]
    exact hnear'.trans (by norm_num)
  · obtain ⟨h1, h2⟩ := abs_le.1 hnear
    by_cases hneg : c < 0
    · have hcr : (c : ℝ) ≤ -2 ^ 134 := by
        have : c ≤ -2 ^ 134 := by omega
        exact_mod_cast this
      have : y ≤ 0 := by
        norm_num at h1 h2 hcr
        linarith
      rw [decide_eq_true hneg, abs_of_nonpos this]
      simp [signed]
    · have hcr : (2 : ℝ) ^ 134 ≤ c := by
        have : 2 ^ 134 ≤ c := by omega
        exact_mod_cast this
      have : 0 ≤ y := by
        norm_num at h1 h2 hcr
        linarith
      rw [decide_eq_false hneg, abs_of_nonneg this]
      simp [signed]

end Sys2Proof.Machine
end

section
/-!
PROOF. The enclosure of the hyperbolic tangent (07_numbers.md R92, 11_cell_isa.md R146).
-/

namespace Sys2Proof.Machine

/-! ## The series of small magnitudes -/

theorem hasDerivAt_tanh (t : ℝ) : HasDerivAt Real.tanh (1 - Real.tanh t ^ 2) t := by
  have hc := (Real.cosh_pos t).ne'
  have h := (Real.hasDerivAt_sinh t).div (Real.hasDerivAt_cosh t) hc
  have heq : Real.tanh = Real.sinh / Real.cosh := funext Real.tanh_eq_sinh_div_cosh
  rw [heq]
  refine h.congr_deriv ?_
  rw [← heq, Real.tanh_eq_sinh_div_cosh]
  field_simp

/-- A function that is 0 at 0 and does not fall is not negative. -/
theorem nonneg_of_hasDerivAt {g g' : ℝ → ℝ} (h0 : g 0 = 0) (hg : ∀ t, HasDerivAt g (g' t) t) (hpos : ∀ t, 0 ≤ t → t ≤ 1 → 0 ≤ g' t) {t : ℝ}
    (ht0 : 0 ≤ t) (ht1 : t ≤ 1) : 0 ≤ g t := by
  have hmono : MonotoneOn g (Set.Icc 0 1) := by
    refine monotoneOn_of_deriv_nonneg (convex_Icc 0 1) (fun t _ => (hg t).continuousAt.continuousWithinAt)
      (fun t _ => (hg t).differentiableAt.differentiableWithinAt) (fun t ht => ?_)
    rw [interior_Icc] at ht
    rw [(hg t).deriv]
    exact hpos t ht.1.le ht.2.le
  rw [← h0]
  exact hmono ⟨le_rfl, zero_le_one⟩ ⟨ht0, ht1⟩ ht0

/-! The partial sums of the series and their derivatives. -/

theorem hasDerivAt_cubic (t : ℝ) : HasDerivAt (fun t => t - t ^ 3 / 3) (1 - t ^ 2) t :=
  ((hasDerivAt_id' t).sub ((hasDerivAt_pow 3 t).div_const 3)).congr_deriv (by simp)

theorem hasDerivAt_quintic (t : ℝ) : HasDerivAt (fun t => t - t ^ 3 / 3 + 2 * t ^ 5 / 15) (1 - t ^ 2 + 2 * t ^ 4 / 3) t :=
  ((hasDerivAt_cubic t).add (((hasDerivAt_pow 5 t).const_mul 2).div_const 15)).congr_deriv (by simp; ring)

theorem hasDerivAt_septic (t : ℝ) :
    HasDerivAt (fun t => t - t ^ 3 / 3 + 2 * t ^ 5 / 15 - 17 * t ^ 7 / 315) (1 - t ^ 2 + 2 * t ^ 4 / 3 - 17 * t ^ 6 / 45) t :=
  ((hasDerivAt_quintic t).sub (((hasDerivAt_pow 7 t).const_mul 17).div_const 315)).congr_deriv (by simp; ring)

/-- tanh t ≤ t. -/
theorem tanh_le_self {t : ℝ} (ht0 : 0 ≤ t) (ht1 : t ≤ 1) : Real.tanh t ≤ t := by
  have h := nonneg_of_hasDerivAt (g := fun t => t - Real.tanh t) (g' := fun t => 1 - (1 - Real.tanh t ^ 2)) (by simp)
    (fun t => (hasDerivAt_id' t).sub (hasDerivAt_tanh t)) (fun t _ _ => by linarith [sq_nonneg (Real.tanh t)]) ht0 ht1
  linarith

theorem tanh_nonneg {t : ℝ} (ht0 : 0 ≤ t) : 0 ≤ Real.tanh t := by
  rw [Real.tanh_eq_sinh_div_cosh]
  exact div_nonneg (Real.sinh_nonneg_iff.2 ht0) (Real.cosh_pos t).le

/-- Two terms of the series, a bound from below. -/
theorem le_tanh_cubic {t : ℝ} (ht0 : 0 ≤ t) (ht1 : t ≤ 1) : t - t ^ 3 / 3 ≤ Real.tanh t := by
  have h := nonneg_of_hasDerivAt (g := fun t => Real.tanh t - (t - t ^ 3 / 3)) (g' := fun t => 1 - Real.tanh t ^ 2 - (1 - t ^ 2)) (by simp)
    (fun t => (hasDerivAt_tanh t).sub (hasDerivAt_cubic t))
    (fun t h0 h1 => by
      have := pow_le_pow_left₀ (tanh_nonneg h0) (tanh_le_self h0 h1) 2
      linarith) ht0 ht1
  linarith

/-- Three terms of the series, a bound from above. -/
theorem tanh_le_quintic {t : ℝ} (ht0 : 0 ≤ t) (ht1 : t ≤ 1) : Real.tanh t ≤ t - t ^ 3 / 3 + 2 * t ^ 5 / 15 := by
  have h := nonneg_of_hasDerivAt (g := fun t => t - t ^ 3 / 3 + 2 * t ^ 5 / 15 - Real.tanh t)
    (g' := fun t => 1 - t ^ 2 + 2 * t ^ 4 / 3 - (1 - Real.tanh t ^ 2)) (by simp)
    (fun t => (hasDerivAt_quintic t).sub (hasDerivAt_tanh t))
    (fun t h0 h1 => by
      have h3 : t ^ 3 ≤ t := pow_le_of_le_one h0 h1 (by norm_num)
      have := pow_le_pow_left₀ (by linarith) (le_tanh_cubic h0 h1) 2
      nlinarith [pow_nonneg h0 6]) ht0 ht1
  linarith

/-- Four terms of the series, a bound from below. -/
theorem le_tanh_septic {t : ℝ} (ht0 : 0 ≤ t) (ht1 : t ≤ 1) : t - t ^ 3 / 3 + 2 * t ^ 5 / 15 - 17 * t ^ 7 / 315 ≤ Real.tanh t := by
  have h := nonneg_of_hasDerivAt (g := fun t => Real.tanh t - (t - t ^ 3 / 3 + 2 * t ^ 5 / 15 - 17 * t ^ 7 / 315))
    (g' := fun t => 1 - Real.tanh t ^ 2 - (1 - t ^ 2 + 2 * t ^ 4 / 3 - 17 * t ^ 6 / 45)) (by simp)
    (fun t => (hasDerivAt_tanh t).sub (hasDerivAt_septic t))
    (fun t h0 h1 => by
      have h2 := pow_le_pow_left₀ (tanh_nonneg h0) (tanh_le_quintic h0 h1) 2
      have h8 : 0 ≤ t ^ 8 * (1 - t ^ 2 / 5) := mul_nonneg (pow_nonneg h0 8) (by nlinarith)
      nlinarith) ht0 ht1
  linarith

/-- tanh t in units of t: the three terms of the series, within the fourth. -/
theorem tanh_div_self_near {t : ℝ} (ht0 : 0 < t) (ht1 : t ≤ 1) :
    Real.tanh t / t ≤ 1 - t ^ 2 / 3 + 2 * t ^ 4 / 15 ∧ 1 - t ^ 2 / 3 + 2 * t ^ 4 / 15 - 17 * t ^ 6 / 315 ≤ Real.tanh t / t := by
  constructor
  · rw [div_le_iff₀ ht0]
    linarith [tanh_le_quintic ht0.le ht1]
  · rw [le_div_iff₀ ht0]
    linarith [le_tanh_septic ht0.le ht1]

/-- The three terms of the series for the argument a, in units of 2^−160, times x. -/
def tanhTerms (x a : Nat) : Nat :=
  let a2 := a * a / 2 ^ 160
  x - x * a2 / 2 ^ 160 / 3 + 2 * x * (a2 * a2 / 2 ^ 160) / 2 ^ 160 / 15

theorem tanhSmall_eq (m : Nat) (e : Int) : tanhSmall m e =
    let x := m * 2 ^ 160 / 2 ^ Nat.log2 m
    ⟨(min (tanhTerms x (toFix false m e).toNat) (x - 1) : Nat), x / 2 ^ 74 + 4⟩ := rfl

/-- A product of two fractions in units of 2^−160, rounded down. -/
theorem mulFix_near (a b : Nat) : (a : ℝ) * (b / 2 ^ 160) - 1 ≤ (a * b / 2 ^ 160 : Nat) ∧ ((a * b / 2 ^ 160 : Nat) : ℝ) ≤ a * (b / 2 ^ 160) := by
  have h := natDiv_near (a * b) (2 ^ 160)
  rwa [Nat.cast_mul, Nat.cast_pow, Nat.cast_ofNat, mul_div_assoc] at h

theorem tanhTerms_near {x a : Nat} (hx : x ≤ 2 ^ 161) (ha : a ≤ 2 ^ 160) :
    |(tanhTerms x a : ℝ) - x * (1 - (a / 2 ^ 160) ^ 2 / 3 + 2 * (a / 2 ^ 160) ^ 4 / 15)| ≤ 2 := by
  have hs : (0 : ℝ) < 2 ^ 160 := by positivity
  have ht0 : (0 : ℝ) ≤ a / 2 ^ 160 := by positivity
  have ht1 : (a : ℝ) / 2 ^ 160 ≤ 1 := by
    rw [div_le_one hs]
    exact_mod_cast ha
  have hx' : (x : ℝ) * (1 / 2 ^ 160) ≤ 2 := by
    rw [mul_one_div, div_le_iff₀ hs]
    calc (x : ℝ) ≤ 2 ^ 161 := by exact_mod_cast hx
      _ = 2 * 2 ^ 160 := by norm_num
  have hx0 : (0 : ℝ) ≤ x := Nat.cast_nonneg x
  unfold tanhTerms
  dsimp only
  obtain ⟨h1, h2⟩ := mulFix_near a a
  generalize a * a / 2 ^ 160 = p at *
  obtain ⟨h3, h4⟩ := mulFix_near x p
  obtain ⟨h5, h6⟩ := mulFix_near p p
  generalize p * p / 2 ^ 160 = q at *
  obtain ⟨h7, h8⟩ := mulFix_near (2 * x) q
  rw [Nat.cast_mul, Nat.cast_ofNat] at h7 h8
  obtain ⟨h9, h10⟩ := natDiv_near (x * p / 2 ^ 160) 3
  obtain ⟨h11, h12⟩ := natDiv_near (2 * x * q / 2 ^ 160) 15
  generalize x * p / 2 ^ 160 = P at *
  generalize 2 * x * q / 2 ^ 160 = Q at *
  -- the square and the fourth power of the argument, in units of 1
  have hp : (a / 2 ^ 160 : ℝ) ^ 2 - 1 / 2 ^ 160 ≤ p / 2 ^ 160 ∧ (p / 2 ^ 160 : ℝ) ≤ (a / 2 ^ 160) ^ 2 := by
    have he : (a : ℝ) * (a / 2 ^ 160) / 2 ^ 160 = (a / 2 ^ 160) ^ 2 := by ring
    rw [← he, ← sub_div]
    exact ⟨div_le_div_of_nonneg_right h1 hs.le, div_le_div_of_nonneg_right h2 hs.le⟩
  have hq : (p / 2 ^ 160 : ℝ) ^ 2 - 1 / 2 ^ 160 ≤ q / 2 ^ 160 ∧ (q / 2 ^ 160 : ℝ) ≤ (p / 2 ^ 160) ^ 2 := by
    have he : (p : ℝ) * (p / 2 ^ 160) / 2 ^ 160 = (p / 2 ^ 160) ^ 2 := by ring
    rw [← he, ← sub_div]
    exact ⟨div_le_div_of_nonneg_right h5 hs.le, div_le_div_of_nonneg_right h6 hs.le⟩
  have hp0 : (0 : ℝ) ≤ p / 2 ^ 160 := by positivity
  have hε : (0 : ℝ) < 1 / 2 ^ 160 := by positivity
  generalize (1 : ℝ) / 2 ^ 160 = ε at *
  generalize (a : ℝ) / 2 ^ 160 = t at *
  generalize (p : ℝ) / 2 ^ 160 = α at *
  generalize (q : ℝ) / 2 ^ 160 = β at *
  have ht2 : t ^ 2 ≤ 1 := pow_le_one₀ ht0 ht1
  have hα : t ^ 4 - 2 * ε ≤ α ^ 2 ∧ α ^ 2 ≤ t ^ 4 := by
    constructor
    · nlinarith
    · calc α ^ 2 ≤ (t ^ 2) ^ 2 := pow_le_pow_left₀ hp0 hp.2 2
        _ = t ^ 4 := by ring
  have hα1 := mul_le_mul_of_nonneg_left hp.1 hx0
  have hα2 := mul_le_mul_of_nonneg_left hp.2 hx0
  have hβ1 := mul_le_mul_of_nonneg_left (show t ^ 4 - 3 * ε ≤ β by linarith) hx0
  have hβ2 := mul_le_mul_of_nonneg_left (show β ≤ t ^ 4 by linarith) hx0
  have hα3 : (x : ℝ) * t ^ 2 ≤ x := mul_le_of_le_one_right hx0 ht2
  have hPx : P / 3 ≤ x := by
    have : (P : ℝ) ≤ x := by linarith
    exact (Nat.div_le_self P 3).trans (by exact_mod_cast this)
  rw [Nat.cast_add, Nat.cast_sub hPx]
  rw [Nat.cast_ofNat] at h9 h10 h11 h12
  exact abs_le.2 ⟨by linarith, by linarith⟩

/-- The argument in units of 2^−160. -/
theorem toFix_toNat (m : Nat) {e : Int} (he : -160 ≤ e) : ((toFix false m e).toNat : ℝ) / 2 ^ 160 = m * 2 ^ e := by
  have h := toFix_val false m he
  rw [finVal_false] at h
  have h0 : 0 ≤ toFix false m e := by
    have : (0 : ℝ) ≤ (toFix false m e : ℝ) := by
      rw [h]
      positivity
    exact_mod_cast this
  have hc : ((toFix false m e).toNat : ℝ) = (toFix false m e : ℝ) := by exact_mod_cast congrArg (Int.cast (R := ℝ)) (Int.toNat_of_nonneg h0)
  rw [hc, h, mul_div_cancel_right₀ _ (by positivity)]

/-- The enclosure of tanh of a magnitude below 2^−12. -/
theorem tanhSmall_encloses {m : Nat} {e : Int} (h0 : m ≠ 0) (hm : m < 2 ^ 24) (he : -149 ≤ e) (hx : (m : ℝ) * 2 ^ e ≤ 1 / 2 ^ 12) :
    Encloses (tanhSmall m e) (e + Nat.log2 m) (Real.tanh (m * 2 ^ e)) := by
  obtain ⟨hlo, hhi⟩ := log2_bounds h0
  have hl : Nat.log2 m < 24 := (Nat.log2_lt h0).2 hm
  have ha := toFix_toNat m (e := e) (by omega)
  rw [tanhSmall_eq]
  dsimp only
  generalize (toFix false m e).toNat = a at ha
  generalize Nat.log2 m = l at *
  obtain ⟨hX, hXlo, hXhi⟩ := mantissa_shift hlo hhi (show l ≤ 160 by omega)
  have hXval : ((m * 2 ^ (160 - l) : Nat) : ℝ) * 2 ^ (e + l - 160) = m * 2 ^ e := by
    rw [Nat.cast_mul, Nat.cast_pow, Nat.cast_ofNat, mul_assoc, ← zpow_natCast, ← zpow_add₀ two_ne_zero]
    congr 2
    omega
  have ht0 : (0 : ℝ) < m * 2 ^ e := mul_pos (by exact_mod_cast Nat.pos_of_ne_zero h0) (by positivity)
  rw [hX]
  generalize m * 2 ^ (160 - l) = x at *
  have ha1 : a ≤ 2 ^ 160 := by
    have : (a : ℝ) / 2 ^ 160 ≤ 1 := by
      rw [ha]
      exact hx.trans (by norm_num)
    rw [div_le_one (by positivity)] at this
    exact_mod_cast this
  have hterms := tanhTerms_near hXhi.le ha1
  rw [ha] at hterms
  obtain ⟨hup, hdown⟩ := tanh_div_self_near ht0 (hx.trans (by norm_num))
  have hle1 : Real.tanh (m * 2 ^ e) / (m * 2 ^ e) ≤ 1 := (div_le_one ht0).2 (tanh_le_self ht0.le (hx.trans (by norm_num)))
  have hy : Real.tanh (m * 2 ^ e) = x * (Real.tanh (m * 2 ^ e) / (m * 2 ^ e)) * 2 ^ (e + l - 160) := by
    rw [mul_right_comm, hXval, mul_div_cancel₀ _ ht0.ne']
  rw [hy]
  generalize Real.tanh (m * 2 ^ e) / (m * 2 ^ e) = z at *
  generalize (m : ℝ) * 2 ^ e = t at *
  generalize tanhTerms x a = w at *
  have hxr : (2 : ℝ) ^ 160 ≤ x := by exact_mod_cast hXlo
  have hx0 : (0 : ℝ) ≤ x := Nat.cast_nonneg x
  -- what the terms leave out
  have ht6 : 17 * t ^ 6 / 315 ≤ 1 / 2 ^ 75 := by
    have := pow_le_pow_left₀ ht0.le hx 6
    norm_num at this ⊢
    linarith
  have hrest : x * (1 - t ^ 2 / 3 + 2 * t ^ 4 / 15) - x / 2 ^ 75 ≤ x * z ∧ x * z ≤ x * (1 - t ^ 2 / 3 + 2 * t ^ 4 / 15) := by
    refine ⟨?_, mul_le_mul_of_nonneg_left hup hx0⟩
    have := mul_le_mul_of_nonneg_left (show 1 - t ^ 2 / 3 + 2 * t ^ 4 / 15 - 1 / 2 ^ 75 ≤ z by linarith) hx0
    linarith
  have hz1 : x * z ≤ x := mul_le_of_le_one_right hx0 hle1
  have hz2 : (x : ℝ) / 2 ≤ x * z := by
    have ht2 := pow_le_pow_left₀ ht0.le hx 2
    have ht4 : 0 ≤ t ^ 4 := by positivity
    have := mul_le_mul_of_nonneg_left (show 1 / 2 ≤ z by norm_num at ht2 ht6; linarith) hx0
    linarith
  obtain ⟨hw1, hw2⟩ := abs_le.1 hterms
  -- the lesser of the terms and of x less one unit
  have hc : (min w (x - 1) : Nat) ≤ (w : ℝ) ∧ x * z - 2 ≤ (min w (x - 1) : Nat) := by
    refine ⟨by exact_mod_cast min_le_left .., ?_⟩
    rcases min_choice w (x - 1) with h | h
    · rw [h]
      linarith
    · rw [h, Nat.cast_sub (by omega), Nat.cast_one]
      linarith
  generalize min w (x - 1) = c at hc ⊢
  obtain ⟨hc1, hc2⟩ := hc
  have hcx : x ≤ 4 * c := by
    have : (x : ℝ) ≤ 4 * c := by
      have h8 : (8 : ℝ) ≤ x := le_trans (by norm_num) hxr
      linarith
    exact_mod_cast this
  refine encloses_of _ ?_ ?_ ?_
  · dsimp only
    have hd := (natDiv_near x (2 ^ 74)).1
    rw [Nat.cast_pow, Nat.cast_ofNat] at hd
    rw [Int.cast_natCast, Nat.cast_add, Nat.cast_ofNat]
    have hh : (x : ℝ) / 2 ^ 75 ≤ x / 2 ^ 74 := div_le_div_of_nonneg_left hx0 (by positivity) (by norm_num)
    have hx75 : (0 : ℝ) ≤ x / 2 ^ 75 := by positivity
    exact abs_le.2 ⟨by linarith, by linarith⟩
  · dsimp only
    omega
  · dsimp only
    omega

/-! ## The quotient of other magnitudes -/

theorem tanh_eq_exp (a : ℝ) : Real.tanh a = (Real.exp (2 * a) - 1) / (Real.exp (2 * a) + 1) := by
  have h : Real.exp (2 * a) = Real.exp a * Real.exp a := by rw [← Real.exp_add, two_mul]
  have hp := Real.exp_pos a
  rw [Real.tanh_eq_sinh_div_cosh, Real.sinh_eq, Real.cosh_eq, h, Real.exp_neg]
  field_simp

/-- The quotient grows by less than its argument does, in proportion. -/
theorem quotient_near {y E δ : ℝ} (hy : 0 ≤ y) (hE : 0 < E) (h : |y - E| ≤ E * δ) :
    |(y - 1) / (y + 1) - (E - 1) / (E + 1)| ≤ 2 * δ := by
  have hδ : 0 ≤ δ := nonneg_of_mul_nonneg_right ((abs_nonneg _).trans h) hE
  have hd : (y - 1) / (y + 1) - (E - 1) / (E + 1) = 2 * (y - E) / ((y + 1) * (E + 1)) := by
    field_simp
    ring
  have hpos : 0 < (y + 1) * (E + 1) := by positivity
  rw [hd, abs_div, abs_mul, abs_two, abs_of_pos hpos, div_le_iff₀ hpos]
  have h1 : E * δ ≤ (y + 1) * (E + 1) * δ := mul_le_mul_of_nonneg_right (by nlinarith) hδ
  linarith

/-- 2a ÷ ln 2 in units of 2^−160. -/
def tanhArg (a : Nat) : Nat := 2 * a * 2 ^ 160 / ln2Fix

/-- e^(2a) in units of 2^−160, as `tanhEnc` forms it. -/
def tanhExp (a : Nat) : Nat := exp2Frac (tanhArg a % 2 ^ 160) * 2 ^ (tanhArg a / 2 ^ 160)

theorem tanhEnc_eq (m : Nat) (e : Int) : tanhEnc m e =
    let a := (toFix false m e).toNat
    if 32 * 2 ^ 160 ≤ a then ⟨(2 ^ 160 : Nat) - 1, 2 ^ 90⟩ else ⟨((tanhExp a - 2 ^ 160) * 2 ^ 160 / (tanhExp a + 2 ^ 160) : Nat), 2 ^ 90⟩ := rfl

/-- The exponent for a magnitude below 32. -/
theorem tanhArg_near {a : Nat} (ha : (a : ℝ) / 2 ^ 160 ≤ 32) : |Real.log 2 * (tanhArg a / 2 ^ 160) - 2 * (a / 2 ^ 160)| ≤ 1 / 2 ^ 138 := by
  have hs : (0 : ℝ) < 2 ^ 160 := by positivity
  obtain ⟨h1, h2⟩ := natDiv_near (2 * a * 2 ^ 160) ln2Fix
  have hln := abs_le.1 ln2Fix_near
  have hlog : 0.6 < Real.log 2 ∧ Real.log 2 < 1 :=
    ⟨lt_trans (by norm_num) Real.log_two_gt_d9, Real.log_two_lt_d9.trans (by norm_num)⟩
  have hA0 : (0 : ℝ) ≤ a / 2 ^ 160 := by positivity
  have hL0 : (0 : ℝ) < ln2Fix := by exact_mod_cast (by decide : 0 < ln2Fix)
  have hq : ((2 * a * 2 ^ 160 : Nat) : ℝ) / ln2Fix = 2 ^ 160 * (2 * (a / 2 ^ 160) / (ln2Fix / 2 ^ 160)) := by
    rw [Nat.cast_mul, Nat.cast_mul, Nat.cast_pow, Nat.cast_ofNat]
    field_simp
  rw [hq] at h1 h2
  change _ ≤ (tanhArg a : ℝ) at h1
  change (tanhArg a : ℝ) ≤ _ at h2
  have hL1 : (0 : ℝ) < ln2Fix / 2 ^ 160 := by positivity
  have hZ0 : (0 : ℝ) ≤ tanhArg a / 2 ^ 160 := by positivity
  have hZ : (tanhArg a : ℝ) = 2 ^ 160 * (tanhArg a / 2 ^ 160) := by rw [mul_div_cancel₀ _ hs.ne']
  rw [hZ] at h1 h2
  generalize (tanhArg a : ℝ) / 2 ^ 160 = Z at *
  generalize (a : ℝ) / 2 ^ 160 = A at *
  generalize (ln2Fix : ℝ) / 2 ^ 160 = L at *
  have h3 : Z * L ≤ 2 * A := by
    rw [← le_div_iff₀ hL1]
    exact le_of_mul_le_mul_left h2 hs
  have h4 : 2 * A ≤ (Z + 1 / 2 ^ 160) * L := by
    rw [← div_le_iff₀ hL1]
    have : 2 ^ 160 * (2 * A / L) ≤ 2 ^ 160 * (Z + 1 / 2 ^ 160) := by
      rw [mul_add, mul_one_div_cancel hs.ne']
      linarith
    exact le_of_mul_le_mul_left this hs
  have hL2 : 1 / 2 ≤ L ∧ L ≤ 2 := by
    norm_num at hln
    exact ⟨by linarith, by linarith⟩
  have hZ1 : Z ≤ 128 := by nlinarith
  have h5 : |Z * (Real.log 2 - L)| ≤ 128 * (2 ^ 14 / 2 ^ 160) := by
    rw [abs_mul, abs_of_nonneg hZ0]
    exact mul_le_mul hZ1 (abs_le.2 ⟨by linarith, by linarith⟩) (abs_nonneg _) (by norm_num)
  obtain ⟨h6, h7⟩ := abs_le.1 h5
  norm_num at h3 h4 h6 h7 ⊢
  exact abs_le.2 ⟨by linarith, by linarith⟩

theorem tanhExp_near {a : Nat} (ha : (a : ℝ) / 2 ^ 160 ≤ 32) :
    |(tanhExp a : ℝ) / 2 ^ 160 - Real.exp (2 * (a / 2 ^ 160))| ≤ Real.exp (2 * (a / 2 ^ 160)) * (1 / 2 ^ 136) := by
  have hs : (0 : ℝ) < 2 ^ 160 := by positivity
  have harg := tanhArg_near ha
  generalize (a : ℝ) / 2 ^ 160 = A at *
  have hfrac := exp2Frac_near (Nat.mod_lt (tanhArg a) (Nat.two_pow_pos 160)).le
  have hsplit := Nat.div_add_mod (tanhArg a) (2 ^ 160)
  unfold tanhExp
  generalize tanhArg a % 2 ^ 160 = f at *
  generalize tanhArg a / 2 ^ 160 = n at *
  have hz : (tanhArg a : ℝ) / 2 ^ 160 = n + f / 2 ^ 160 := by
    rw [← hsplit, Nat.cast_add, Nat.cast_mul, Nat.cast_pow, Nat.cast_ofNat, add_div, mul_div_cancel_left₀ _ hs.ne']
  rw [hz] at harg
  have hexp : Real.exp (Real.log 2 * (n + f / 2 ^ 160)) = 2 ^ n * (2 : ℝ) ^ ((f : ℝ) / 2 ^ 160) := by
    rw [mul_comm, mul_comm _ (Real.log 2), ← Real.rpow_def_of_pos two_pos, Real.rpow_add two_pos, Real.rpow_natCast]
  have hone : (1 : ℝ) ≤ (2 : ℝ) ^ ((f : ℝ) / 2 ^ 160) := Real.one_le_rpow one_le_two (by positivity)
  have h1 := abs_exp_sub_exp_le (harg.trans (by norm_num))
  have h2 : |(exp2Frac f : ℝ) / 2 ^ 160 - (2 : ℝ) ^ ((f : ℝ) / 2 ^ 160)| ≤ 2 ^ 18 / 2 ^ 160 := by
    rw [le_div_iff₀ hs, ← abs_of_pos hs, ← abs_mul, abs_of_pos hs, sub_mul, div_mul_cancel₀ _ hs.ne', mul_comm _ ((2 : ℝ) ^ 160)]
    exact hfrac
  have hy : ((exp2Frac f * 2 ^ n : Nat) : ℝ) / 2 ^ 160 = 2 ^ n * (exp2Frac f / 2 ^ 160) := by
    rw [Nat.cast_mul, Nat.cast_pow, Nat.cast_ofNat]
    ring
  rw [hy]
  rw [hexp] at h1
  generalize (exp2Frac f : ℝ) / 2 ^ 160 = y at *
  generalize (2 : ℝ) ^ ((f : ℝ) / 2 ^ 160) = p at *
  have hE := Real.exp_pos (2 * A)
  generalize Real.exp (2 * A) = E at *
  have hn : (0 : ℝ) < 2 ^ n := by positivity
  have h3 : |(2 : ℝ) ^ n * p - E| ≤ E * (1 / 2 ^ 137) := by
    refine h1.trans (mul_le_mul_of_nonneg_left ?_ hE.le)
    calc 2 * _ ≤ 2 * (1 / 2 ^ 138 : ℝ) := mul_le_mul_of_nonneg_left harg two_pos.le
      _ = 1 / 2 ^ 137 := by norm_num
  have hnE : (2 : ℝ) ^ n ≤ 2 * E := by
    have := (abs_le.1 h3).2
    have := le_mul_of_one_le_right hn.le hone
    have : E * (1 / 2 ^ 137) ≤ E := mul_le_of_le_one_right hE.le (by norm_num)
    linarith
  have h4 : |(2 : ℝ) ^ n * y - 2 ^ n * p| ≤ E * (1 / 2 ^ 137) := by
    rw [← mul_sub, abs_mul, abs_of_pos hn]
    calc (2 : ℝ) ^ n * |y - p| ≤ 2 * E * (2 ^ 18 / 2 ^ 160) := mul_le_mul hnE h2 (abs_nonneg _) (by positivity)
      _ ≤ E * (1 / 2 ^ 137) := by
        rw [mul_comm 2 E, mul_assoc]
        exact mul_le_mul_of_nonneg_left (by norm_num) hE.le
  calc |(2 : ℝ) ^ n * y - E| ≤ |(2 : ℝ) ^ n * y - 2 ^ n * p| + |(2 : ℝ) ^ n * p - E| := abs_sub_le ..
    _ ≤ E * (1 / 2 ^ 137) + E * (1 / 2 ^ 137) := add_le_add h4 h3
    _ = E * (1 / 2 ^ 136) := by ring

theorem tanh_large_encloses {a : Nat} (h : 32 * 2 ^ 160 ≤ a) : Encloses ⟨(2 ^ 160 : Nat) - 1, 2 ^ 90⟩ 0 (Real.tanh (a / 2 ^ 160)) := by
  have hs : (0 : ℝ) < 2 ^ 160 := by positivity
  have hA : 32 ≤ (a : ℝ) / 2 ^ 160 := by
    rw [le_div_iff₀ hs]
    exact_mod_cast h
  have hE : (2 : ℝ) ^ 72 ≤ Real.exp (2 * (a / 2 ^ 160)) := by
    have h1 : (5 / 2 : ℝ) ≤ Real.exp 1 := le_trans (by norm_num) Real.exp_one_gt_d9.le
    calc (2 : ℝ) ^ 72 ≤ (5 / 2) ^ 64 := by norm_num
      _ ≤ Real.exp 1 ^ 64 := pow_le_pow_left₀ (by norm_num) h1 64
      _ = Real.exp 64 := by rw [← Real.exp_nat_mul]; norm_num
      _ ≤ _ := Real.exp_le_exp.2 (by linarith)
  rw [tanh_eq_exp]
  generalize Real.exp (2 * (a / 2 ^ 160)) = E at *
  have hE0 : (0 : ℝ) < E + 1 := lt_of_lt_of_le (by norm_num) (hE.trans (by linarith))
  have htanh : (E - 1) / (E + 1) = 1 - 2 / (E + 1) := by
    field_simp
    ring
  have hsmall : 2 / (E + 1) ≤ 1 / 2 ^ 71 := by
    rw [div_le_div_iff₀ hE0 (by positivity)]
    norm_num at hE ⊢
    linarith
  have hpos : 0 < 2 / (E + 1) := by positivity
  refine encloses_of_zero ?_ (by norm_num) (by norm_num)
  rw [htanh, mul_sub, mul_one]
  have hmul := mul_le_mul_of_nonneg_left hsmall hs.le
  have hmul0 := mul_nonneg hs.le hpos.le
  norm_num at hmul hmul0 ⊢
  exact abs_le.2 ⟨by linarith, by linarith⟩

theorem tanh_mid_encloses {a : Nat} (hx : 1 / 2 ^ 12 ≤ (a : ℝ) / 2 ^ 160) (h : a ≤ 32 * 2 ^ 160) :
    Encloses ⟨((tanhExp a - 2 ^ 160) * 2 ^ 160 / (tanhExp a + 2 ^ 160) : Nat), 2 ^ 90⟩ 0 (Real.tanh (a / 2 ^ 160)) := by
  have hs : (0 : ℝ) < 2 ^ 160 := by positivity
  have hA : (a : ℝ) / 2 ^ 160 ≤ 32 := by
    rw [div_le_iff₀ hs]
    exact_mod_cast h
  have hy := tanhExp_near hA
  have hge : 2 ^ 160 ≤ tanhExp a := (exp2Frac_ge _).trans (Nat.le_mul_of_pos_right _ (Nat.two_pow_pos _))
  have hE : 1 + 1 / 2 ^ 11 ≤ Real.exp (2 * (a / 2 ^ 160)) := by
    have := Real.add_one_le_exp (2 * ((a : ℝ) / 2 ^ 160))
    norm_num at this hx ⊢
    linarith
  rw [tanh_eq_exp]
  generalize (a : ℝ) / 2 ^ 160 = A at *
  generalize tanhExp a = w at *
  generalize Real.exp (2 * A) = E at *
  obtain ⟨h1, h2⟩ := natDiv_near ((w - 2 ^ 160) * 2 ^ 160) (w + 2 ^ 160)
  have hval : (((w - 2 ^ 160) * 2 ^ 160 : Nat) : ℝ) / (w + 2 ^ 160 : Nat) = 2 ^ 160 * ((w / 2 ^ 160 - 1) / (w / 2 ^ 160 + 1)) := by
    rw [Nat.cast_mul, Nat.cast_sub hge, Nat.cast_add, Nat.cast_pow, Nat.cast_ofNat]
    field_simp
  rw [hval] at h1 h2
  have hE0 : 0 < E := lt_of_lt_of_le (by norm_num) hE
  have hquot := quotient_near (by positivity) hE0 hy
  have htanh : 1 / 2 ^ 13 ≤ (E - 1) / (E + 1) := by
    rw [le_div_iff₀ (by linarith)]
    norm_num at hE ⊢
    linarith
  generalize (w - 2 ^ 160) * 2 ^ 160 / (w + 2 ^ 160) = c at *
  generalize ((w : ℝ) / 2 ^ 160 - 1) / (w / 2 ^ 160 + 1) = T at *
  generalize (E - 1) / (E + 1) = t at *
  obtain ⟨h3, h4⟩ := abs_le.1 hquot
  have hnear : |(c : ℝ) - 2 ^ 160 * t| ≤ 2 ^ 30 := by
    norm_num at h1 h2 h3 h4 ⊢
    exact abs_le.2 ⟨by linarith, by linarith⟩
  have hc : 2 ^ 140 ≤ c := by
    have : (2 : ℝ) ^ 140 ≤ c := by
      have h5 := (abs_le.1 hnear).1
      have h6 := mul_le_mul_of_nonneg_left htanh hs.le
      have h7 : (2 : ℝ) ^ 140 ≤ 2 ^ 160 * (1 / 2 ^ 13) - 2 ^ 30 := by norm_num
      linarith
    exact_mod_cast this
  refine encloses_of_zero ?_ ?_ ?_
  · dsimp only
    rw [Int.cast_natCast, Nat.cast_pow, Nat.cast_ofNat]
    exact hnear.trans (by norm_num)
  · dsimp only
    omega
  · dsimp only
    omega

/-- The enclosure of tanh of a magnitude of 2^−12 or more. -/
theorem tanhEnc_encloses {m : Nat} {e : Int} (he : -149 ≤ e) (hx : 1 / 2 ^ 12 ≤ (m : ℝ) * 2 ^ e) :
    Encloses (tanhEnc m e) 0 (Real.tanh (m * 2 ^ e)) := by
  have ha := toFix_toNat m (e := e) (by omega)
  rw [tanhEnc_eq]
  dsimp only
  rw [← ha] at hx ⊢
  clear ha
  generalize (toFix false m e).toNat = a at *
  split
  · rename_i h
    exact tanh_large_encloses h
  · rename_i h
    exact tanh_mid_encloses hx (by omega)

end Sys2Proof.Machine
end

section
/-!
PROOF. FRCP, FRSQ, FEXP2, FLOG2 and FTANH by what their input reads as, and the results that the tables of 11_cell_isa.md R146 state.
-/

namespace Sys2Proof.Machine

/-! ## The inputs -/

/-- The word of a finite value. -/
def f32 (neg : Bool) (m : Nat) (e : Int) : Word := BitVec.ofNat 32 (fp32.pack neg m e)

theorem f32_toNat (neg : Bool) {m : Nat} {e : Int} (h : IsFp32 m e) : (f32 neg m e).toNat = fp32.pack neg m e := by
  rw [f32, BitVec.toNat_ofNat]
  exact Nat.mod_eq_of_lt (pack_lt neg h)

theorem subnormal_fp32 (b : Nat) : fp32.subnormal b = (b / 2 ^ 23 % 2 ^ 8 == 0 && b % 2 ^ 23 != 0) := rfl

theorem readIn_fp32 (n b : Nat) : fp32.readIn n b =
    if n = 2 ∧ fp32.subnormal b = true then .fin (b / 2 ^ 31 % 2 == 1) 0 0 else fp32.read b := by
  unfold FloatFmt.readIn
  simp only [Bool.and_eq_true, beq_iff_eq]
  rfl

/-- A word other than a subnormal one reads under SUBN as it is. -/
theorem readIn_of_not_subnormal (n : Nat) {b : Nat} (h : fp32.subnormal b = false) : fp32.readIn n b = fp32.read b := by
  rw [readIn_fp32, h, if_neg (by simp)]

/-- A word that reads as no subnormal value reads under SUBN as it is. -/
theorem readIn_of_read (n : Nat) {b : Nat} {x : ExactNum} (h : fp32.read b = x) (hx : ∀ neg m, x ≠ .fin neg m (-149)) : fp32.readIn n b = x := by
  rw [readIn_of_not_subnormal n, h]
  by_contra hs
  rw [Bool.not_eq_false, subnormal_fp32, Bool.and_eq_true, beq_iff_eq] at hs
  obtain ⟨he, -⟩ := hs
  rw [read_fp32, he, if_neg (by norm_num), if_pos rfl] at h
  exact hx _ _ h.symm

/-- A normal value as an input. -/
theorem readIn_normal (n : Nat) (neg : Bool) {m : Nat} {e : Int} (h : IsFp32 m e) (hm : 2 ^ 23 ≤ m) :
    fp32.readIn n (f32 neg m e).toNat = .fin neg m e := by
  have hlt := h.lt
  have hlow := h.low
  have hhigh := h.high
  rw [f32_toNat neg h, readIn_of_not_subnormal, read_pack neg h]
  rw [subnormal_fp32, pack_fp32, if_neg (by omega), Bool.and_eq_false_iff]
  have hs : b2n neg ≤ 1 := by cases neg <;> simp [b2n]
  exact .inl (beq_eq_false_iff_ne.2 (by omega))

/-- A subnormal value as an input. -/
theorem readIn_subnormal (n : Nat) (neg : Bool) {m : Nat} (h0 : m ≠ 0) (hm : m < 2 ^ 23) :
    fp32.readIn n (f32 neg m (-149)).toNat = if n = 2 then .fin neg 0 0 else .fin neg m (-149) := by
  have h : IsFp32 m (-149) := ⟨by omega, le_rfl, by norm_num, .inr rfl⟩
  have hs : fp32.subnormal (fp32.pack neg m (-149)) = true := by
    rw [subnormal_fp32, pack_fp32, if_pos hm, Bool.and_eq_true, beq_iff_eq, bne_iff_ne]
    omega
  have hneg : (fp32.pack neg m (-149) / 2 ^ 31 % 2 == 1) = neg := by
    rw [pack_fp32, if_pos hm, Nat.mul_comm, Nat.mul_add_div (by norm_num), Nat.div_eq_of_lt (by omega)]
    cases neg <;> rfl
  rw [f32_toNat neg h, readIn_fp32, hs, hneg, read_pack neg h]
  simp only [and_true]

/-! ## The functions by what their input reads as -/

section
variable {n : Nat} {a : Word} {neg : Bool} {m : Nat} {e : Int}

theorem frcpOf_zero (h : fp32.readIn n a.toNat = .fin neg 0 e) : frcpOf n a = (fp32.infBits neg, 0) := by
  simp only [frcpOf, h, beq_self_eq_true, if_true]

theorem frsqOf_zero (h : fp32.readIn n a.toNat = .fin neg 0 e) : frsqOf n a = (fp32.infBits neg, 0) := by
  simp only [frsqOf, h, beq_self_eq_true, if_true]

theorem flog2Of_zero (h : fp32.readIn n a.toNat = .fin neg 0 e) : flog2Of n a = (fp32.infBits true, 0) := by
  simp only [flog2Of, h, beq_self_eq_true, if_true]

theorem fexp2Of_zero (h : fp32.readIn n a.toNat = .fin neg 0 e) : fexp2Of n a = exactResult n (.fin false 1 0) := by
  simp only [fexp2Of, h, beq_self_eq_true, if_true]

theorem ftanhOf_zero (h : fp32.readIn n a.toNat = .fin neg 0 e) : ftanhOf n a = (fp32.pack neg 0 0, 0) := by
  simp only [ftanhOf, h, beq_self_eq_true, if_true]

variable (h : fp32.readIn n a.toNat = .fin neg m e) (h0 : m ≠ 0)
include h h0

theorem frcpOf_fin : frcpOf n a =
    if m = 2 ^ Nat.log2 m then exactResult n (.fin neg 1 (-(e + Nat.log2 m)))
    else if 129 ≤ -(e + (Nat.log2 m : Int)) then (fp32.infBits neg, xOvf)
    else boundedApprox 0 a 1 neg (-(e + Nat.log2 m)) (rcpEnc m e).2 n := by
  have hb : (m == 0) = false := beq_eq_false_iff_ne.2 h0
  simp only [frcpOf, h, hb, pow2Exp, beq_iff_eq, Bool.false_eq_true, if_false]
  by_cases hp : m = 2 ^ Nat.log2 m
  · rw [if_pos hp, if_pos hp]
  · rw [if_neg hp, if_neg hp]
    exact if_congr decide_eq_true_iff rfl rfl

theorem frsqOf_fin : frsqOf n a =
    if neg = true then (fp32.nan, xInv)
    else if m = 2 ^ Nat.log2 m ∧ (e + Nat.log2 m) % 2 = 0 then exactResult n (.fin false 1 (-((e + Nat.log2 m) / 2)))
    else boundedApprox 1 a 1 false (rsqEnc m e).1 (rsqEnc m e).2 n := by
  have hb : (m == 0) = false := beq_eq_false_iff_ne.2 h0
  simp only [frsqOf, h, hb, pow2Exp, beq_iff_eq, Bool.false_eq_true, if_false]
  refine if_congr Iff.rfl rfl ?_
  by_cases hp : m = 2 ^ Nat.log2 m
  · rw [if_pos hp]
    exact if_congr (by simp only [hp.symm, true_and]) rfl rfl
  · rw [if_neg hp, if_neg (fun hc => hp hc.1)]

theorem fexp2Of_fin : fexp2Of n a =
    if 128 ≤ finVal neg m e then (fp32.infBits false, xOvf)
    else if finVal neg m e < -150 then (0, if n = 0 then 0 else xUnf)
    else if (0 ≤ e ∨ m % 2 ^ (-e).toNat = 0) ∧ -149 ≤ finVal neg m e then exactResult n (.fin false 1 (roundInt .rz 0 neg m e))
    else boundedApprox 2 a 2 false (exp2Enc neg m e).1 (exp2Enc neg m e).2 n := by
  have hb : (m == 0) = false := beq_eq_false_iff_ne.2 h0
  have hbig : (!(ExactNum.fin neg m e).lt (.fin false 128 0)) = true ↔ 128 ≤ finVal neg m e := by
    rw [Bool.not_eq_true', ← Bool.not_eq_true, lt_fin_iff, not_lt, finVal_false]
    norm_num
  have hsmall : (ExactNum.fin neg m e).lt (.fin true 150 0) = true ↔ finVal neg m e < -150 := by
    rw [lt_fin_iff, finVal_true]
    norm_num
  have hwhole : ((decide (0 ≤ e) || m % 2 ^ (-e).toNat == 0) && !(ExactNum.fin neg m e).lt (.fin true 149 0)) = true
      ↔ (0 ≤ e ∨ m % 2 ^ (-e).toNat = 0) ∧ -149 ≤ finVal neg m e := by
    rw [Bool.and_eq_true, Bool.or_eq_true, decide_eq_true_eq, beq_iff_eq, Bool.not_eq_true', ← Bool.not_eq_true, lt_fin_iff, not_lt, finVal_true]
    norm_num
  simp only [fexp2Of, h, hb, Bool.false_eq_true, if_false, hbig, hsmall, hwhole, beq_iff_eq]

theorem flog2Of_fin : flog2Of n a =
    if neg = true then (fp32.nan, xInv)
    else if m = 2 ^ Nat.log2 m then exactResult n (numOfInt (e + Nat.log2 m))
    else boundedApprox 3 a 2 (decide ((log2Enc m e).mid < 0)) 0 ⟨(log2Enc m e).mid.natAbs, (log2Enc m e).err⟩ n := by
  have hb : (m == 0) = false := beq_eq_false_iff_ne.2 h0
  simp only [flog2Of, h, hb, pow2Exp, beq_iff_eq, Bool.false_eq_true, if_false]
  refine if_congr Iff.rfl rfl ?_
  by_cases hp : m = 2 ^ Nat.log2 m
  · rw [if_pos hp, if_pos hp]
  · rw [if_neg hp, if_neg hp]

theorem ftanhOf_fin : ftanhOf n a =
    if (m : ℝ) * 2 ^ e < 1 / 2 ^ 12 then boundedApprox 4 a 4 neg (e + Nat.log2 m) (tanhSmall m e) n
    else boundedApprox 4 a 4 neg 0 (tanhEnc m e) n := by
  have hb : (m == 0) = false := beq_eq_false_iff_ne.2 h0
  have hlt : (ExactNum.fin false m e).lt (.fin false 1 (-12)) = true ↔ (m : ℝ) * 2 ^ e < 1 / 2 ^ 12 := by
    rw [lt_fin_iff, finVal_false, finVal_false]
    norm_num
  simp only [ftanhOf, h, hb, Bool.false_eq_true, if_false, hlt]

end

/-! ## Results that are powers of two -/

theorem unit_one (k : Int) : fp32.unit 1 k = max (k - 23) (-149) := by
  have h1 : Nat.log2 1 = 0 := by decide
  rw [unit_fp32, h1]
  congr 1
  omega

/-- A power of two that is not below the least subnormal value is rounded to itself. -/
theorem exactResult_one (n : Nat) (neg : Bool) {k : Int} (hk : -149 ≤ k) :
    exactResult n (.fin neg 1 k) = settleFp32 n neg (2 ^ (k - max (k - 23) (-149)).toNat) (max (k - 23) (-149)) := by
  unfold exactResult
  rw [round_fp32 n neg k one_ne_zero, unit_one, roundUnits_exact _ _ _ _ (by omega), one_mul, if_neg]
  intro h
  have := Nat.pow_right_injective le_rfl h
  omega

theorem exactResult_normal (n : Nat) (neg : Bool) {k : Int} (hlo : -126 ≤ k) (hhi : k ≤ 127) :
    exactResult n (.fin neg 1 k) = (fp32.pack neg (2 ^ 23) (k - 23), 0) := by
  rw [exactResult_one n neg (by omega), show max (k - 23) (-149) = k - 23 by omega, show (k - (k - 23)).toNat = 23 by omega]
  unfold settleFp32
  rw [if_neg (lt_irrefl _), if_neg (by omega)]

theorem exactResult_over (n : Nat) (neg : Bool) {k : Int} (h : 128 ≤ k) : exactResult n (.fin neg 1 k) = (fp32.infBits neg, xOvf) := by
  rw [exactResult_one n neg (by omega), show max (k - 23) (-149) = k - 23 by omega, show (k - (k - 23)).toNat = 23 by omega]
  unfold settleFp32
  rw [if_neg (lt_irrefl _), if_pos (by omega)]

theorem exactResult_tiny (n : Nat) (neg : Bool) {k : Int} (hlo : -149 ≤ k) (hhi : k ≤ -127) :
    exactResult n (.fin neg 1 k) = if n = 0 then (fp32.pack neg (2 ^ (k + 149).toNat) (-149), 0) else (fp32.pack neg 0 0, xUnf) := by
  rw [exactResult_one n neg hlo, show max (k - 23) (-149) = -149 by omega, show k - -149 = k + 149 by omega]
  unfold settleFp32
  rw [if_pos (Nat.pow_lt_pow_right one_lt_two (by omega))]

/-! ## Results that are whole numbers -/

/-- A whole number other than 0 is a normal value, rounded to itself. -/
theorem exactResult_numOfInt {v : Int} (h0 : v ≠ 0) (hv : v.natAbs < 2 ^ 24) :
    ∃ q u, IsFp32 q u ∧ 2 ^ 23 ≤ q ∧ finVal (decide (v < 0)) q u = v ∧ ∀ n, exactResult n (numOfInt v) = (fp32.pack (decide (v < 0)) q u, 0) := by
  have hm : v.natAbs ≠ 0 := Int.natAbs_ne_zero.2 h0
  obtain ⟨q, u, hq, hround⟩ := round_settles (decide (v < 0)) 0 hm
  have hl : Nat.log2 v.natAbs < 24 := (Nat.log2_lt hm).2 hv
  have hunit : fp32.unit v.natAbs 0 ≤ 0 := by
    rw [unit_fp32]
    omega
  have hval := hq.exact hunit
  rw [zpow_zero, mul_one] at hval
  have hge : (1 : ℝ) ≤ v.natAbs := by exact_mod_cast Nat.pos_of_ne_zero hm
  have hlt : (v.natAbs : ℝ) ≤ 2 ^ 24 := by exact_mod_cast hv.le
  have hnormal : 2 ^ 23 ≤ q := by
    by_contra hc
    have hu := hq.normal.resolve_left hc
    have hqr : (q : ℝ) ≤ 2 ^ 23 := by exact_mod_cast (not_le.1 hc).le
    have := mul_le_mul_of_nonneg_right hqr (show (0 : ℝ) ≤ 2 ^ (-149 : Int) by positivity)
    have hone : (2 : ℝ) ^ 23 * 2 ^ (-149 : Int) < 1 := by norm_num
    rw [hu] at hval
    linarith
  have hhigh : u ≤ 104 := by
    by_contra hc
    have hqr : (2 : ℝ) ^ 23 ≤ q := by exact_mod_cast hnormal
    have hur : (2 : ℝ) ^ (105 : Int) ≤ 2 ^ u := zpow_le_zpow_right₀ one_le_two (by omega)
    have := mul_le_mul hqr hur (by positivity) (Nat.cast_nonneg q)
    have hbig : (2 : ℝ) ^ 24 < 2 ^ 23 * 2 ^ (105 : Int) := by norm_num
    linarith
  refine ⟨q, u, ⟨hq.lt, hq.low, hhigh, .inl hnormal⟩, hnormal, ?_, fun n => ?_⟩
  · rw [finVal_eq_signed, hval, Nat.cast_natAbs, Int.cast_abs]
    by_cases hneg : v < 0
    · have : (v : ℝ) ≤ 0 := by exact_mod_cast hneg.le
      rw [decide_eq_true hneg, abs_of_nonpos this]
      simp [signed]
    · have : (0 : ℝ) ≤ v := by exact_mod_cast not_lt.1 hneg
      rw [decide_eq_false hneg, abs_of_nonneg this]
      simp [signed]
  · rw [exactResult, numOfInt, hround]
    unfold settleFp32
    rw [if_neg (by omega), if_neg (by omega)]

theorem exactResult_numOfInt_zero (n : Nat) : exactResult n (numOfInt 0) = (fp32.pack false 0 0, 0) := rfl

/-- A value in units of 1 or more has no fraction, and any other has none where its mantissa is whole in units of 1. -/
theorem roundInt_whole (neg : Bool) {m : Nat} {e : Int} (h : 0 ≤ e ∨ m % 2 ^ (-e).toNat = 0) : (roundInt .rz 0 neg m e : ℝ) = finVal neg m e := by
  have hq : (roundUnits .rz 0 neg m e 0 : ℝ) = m * 2 ^ e := by
    by_cases he : 0 ≤ e
    · have := mul_two_pow_unit he
      rw [zpow_zero, mul_one] at this
      rw [roundUnits_exact _ _ _ _ he, Nat.cast_mul, Nat.cast_pow, Nat.cast_ofNat, this]
    · have hr := h.resolve_left he
      have hdvd := Nat.div_mul_cancel (Nat.dvd_of_mod_eq_zero hr)
      have hp := mul_two_pow_unit (u := e) (e := 0) (by omega)
      rw [zero_sub, zpow_zero] at hp
      unfold roundUnits
      rw [if_neg he, zero_sub]
      dsimp only
      rw [hr, if_pos (beq_self_eq_true 0)]
      generalize m / 2 ^ (-e).toNat = q at *
      rw [← hdvd, Nat.cast_mul, Nat.cast_pow, Nat.cast_ofNat, mul_assoc, hp, mul_one]
  unfold roundInt
  rw [finVal_eq_signed, ← hq]
  cases neg <;> simp [signed]

/-- A value that is a whole number has no fraction. -/
theorem whole_of_finVal {neg : Bool} {m : Nat} {e v : Int} (h : finVal neg m e = v) : 0 ≤ e ∨ m % 2 ^ (-e).toNat = 0 := by
  by_cases he : 0 ≤ e
  · exact .inl he
  · right
    have hp := mul_two_pow_unit (u := e) (e := 0) (by omega)
    rw [zero_sub, zpow_zero] at hp
    have habs : (m : ℝ) * 2 ^ e = v.natAbs := by rw [← abs_finVal, h, Nat.cast_natAbs, Int.cast_abs]
    have hm : (m : ℝ) = v.natAbs * 2 ^ (-e).toNat := by
      rw [← habs, mul_assoc, mul_comm ((2 : ℝ) ^ e), hp, mul_one]
    have : m = v.natAbs * 2 ^ (-e).toNat := by exact_mod_cast hm
    rw [this, Nat.mul_mod_left]

end Sys2Proof.Machine
end

section
/-!
PROOF. FRCP, FRSQ, FEXP2, FLOG2 and FTANH at the points that the tables of 11_cell_isa.md R146 state.
-/

namespace Sys2Proof.Machine

/-- The word and the flags of a result. -/
def resultBits (q : Nat × XFlags) : Word × XFlags := (BitVec.ofNat 32 q.1, q.2)

/-! ## Words that the tables name -/

theorem infBits_word (neg : Bool) : BitVec.ofNat 32 (fp32.infBits neg) = if neg then 0xFF800000 else 0x7F800000 := by
  cases neg <;> rfl

theorem isFp32_two {u : Int} (hlo : -149 ≤ u) (hhi : u ≤ 104) : IsFp32 (2 ^ 23) u := ⟨by norm_num, hlo, hhi, .inl le_rfl⟩

theorem isFp32_low {m : Nat} (h : m < 2 ^ 24) : IsFp32 m (-149) := ⟨h, le_rfl, by norm_num, .inr rfl⟩

theorem two_eq_f32 (e : Int) : BitVec.ofNat 32 ((e + 127).toNat * 2 ^ 23) = f32 false (2 ^ 23) (e - 23) := by
  rw [f32, pack_fp32, if_neg (lt_irrefl _), Nat.sub_self, Nat.add_zero, show b2n false = 0 from rfl, Nat.zero_mul, Nat.zero_add,
    show e - 23 + 150 = e + 127 by omega]

theorem low_eq_f32 {i : Nat} (h : i ≤ 22) : BitVec.ofNat 32 (2 ^ i) = f32 false (2 ^ i) (-149) := by
  rw [f32, pack_fp32, if_pos (Nat.pow_lt_pow_right one_lt_two (by omega)), show b2n false = 0 from rfl, Nat.zero_mul, Nat.zero_add]

/-- The sign bit. -/
theorem sign_or_f32 {m : Nat} {e : Int} (h : IsFp32 m e) : 0x80000000 ||| f32 false m e = f32 true m e := by
  have hpack : fp32.pack true m e = 2 ^ 31 + fp32.pack false m e := by
    rw [pack_fp32, pack_fp32]
    show 1 * 2 ^ 31 + _ = 2 ^ 31 + (0 * 2 ^ 31 + _)
    omega
  have hlt := pack_lt true h
  refine BitVec.eq_of_toNat_eq ?_
  rw [BitVec.toNat_or, f32_toNat true h, f32_toNat false h, hpack]
  rw [hpack] at hlt
  have := Nat.two_pow_add_eq_or_of_lt (show fp32.pack false m e < 2 ^ 31 by omega) 1
  rw [mul_one] at this
  exact this.symm

theorem readIn_posInf (n : Nat) : fp32.readIn n (0x7F800000 : Word).toNat = .inf false := readIn_of_read n (by decide) (by simp)

theorem readIn_negInf (n : Nat) : fp32.readIn n (0xFF800000 : Word).toNat = .inf true := readIn_of_read n (by decide) (by simp)

theorem readIn_posZero (n : Nat) : fp32.readIn n (0 : Word).toNat = .fin false 0 (-149) := readIn_of_not_subnormal n (by decide)

theorem readIn_negZero (n : Nat) : fp32.readIn n (0x80000000 : Word).toNat = .fin true 0 (-149) := readIn_of_not_subnormal n (by decide)

/-! ## NaN and the infinities -/

theorem special_nan (n : Nat) {a : Word} (h : fp32.read a.toNat = .nan) :
    ∀ f ∈ [frcpOf n, frsqOf n, fexp2Of n, flog2Of n, ftanhOf n], f a = (fp32.nan, 0) := by
  have hn := readIn_of_read n h (by simp)
  simp [frcpOf, frsqOf, fexp2Of, flog2Of, ftanhOf, hn]

section
variable {n : Nat} {a : Word} {neg : Bool} (h : fp32.readIn n a.toNat = .inf neg)
include h

theorem frcpOf_inf : frcpOf n a = (fp32.pack neg 0 0, 0) := by simp only [frcpOf, h]

theorem frsqOf_inf : frsqOf n a = if neg then (fp32.nan, xInv) else (0, 0) := by simp only [frsqOf, h]

theorem fexp2Of_inf : fexp2Of n a = if neg then (0, 0) else (fp32.infBits false, 0) := by simp only [fexp2Of, h]

theorem flog2Of_inf : flog2Of n a = if neg then (fp32.nan, xInv) else (fp32.infBits false, 0) := by simp only [flog2Of, h]

theorem ftanhOf_inf : ftanhOf n a = (fp32.pack neg (2 ^ 23) (-23), 0) := by simp only [ftanhOf, h]

end

/-! ## Powers of two -/

section
variable {n : Nat} {a : Word} {neg : Bool} {i : Nat} {e : Int}

theorem frcpOf_two_pow (h : fp32.readIn n a.toNat = .fin neg (2 ^ i) e) : frcpOf n a = exactResult n (.fin neg 1 (-(e + i))) := by
  rw [frcpOf_fin h (Nat.two_pow_pos i).ne', Nat.log2_two_pow, if_pos rfl]

theorem frsqOf_two_pow (h : fp32.readIn n a.toNat = .fin false (2 ^ i) e) (heven : (e + i) % 2 = 0) :
    frsqOf n a = exactResult n (.fin false 1 (-((e + i) / 2))) := by
  rw [frsqOf_fin h (Nat.two_pow_pos i).ne', Nat.log2_two_pow, if_neg Bool.false_ne_true, if_pos ⟨rfl, heven⟩]

theorem flog2Of_two_pow (h : fp32.readIn n a.toNat = .fin false (2 ^ i) e) : flog2Of n a = exactResult n (numOfInt (e + i)) := by
  rw [flog2Of_fin h (Nat.two_pow_pos i).ne', Nat.log2_two_pow, if_neg Bool.false_ne_true, if_pos rfl]

end

theorem readIn_two (n : Nat) (neg : Bool) {k : Int} (hlo : -126 ≤ k) (hhi : k ≤ 127) :
    fp32.readIn n (f32 neg (2 ^ 23) (k - 23)).toNat = .fin neg (2 ^ 23) (k - 23) :=
  readIn_normal n neg (isFp32_two (by omega) (by omega)) le_rfl

theorem frcpOf_two (n : Nat) (neg : Bool) {k : Int} (hlo : -126 ≤ k) (hhi : k ≤ 127) :
    frcpOf n (f32 neg (2 ^ 23) (k - 23)) = exactResult n (.fin neg 1 (-k)) := by
  rw [frcpOf_two_pow (readIn_two n neg hlo hhi), Nat.cast_ofNat, sub_add_cancel]

theorem frsqOf_two (n : Nat) {k : Int} (hlo : -63 ≤ k) (hhi : k ≤ 63) :
    frsqOf n (f32 false (2 ^ 23) (2 * k - 23)) = exactResult n (.fin false 1 (-k)) := by
  have hsum : 2 * k - 23 + ((23 : Nat) : Int) = 2 * k := by omega
  rw [frsqOf_two_pow (readIn_two n false (by omega) (by omega)) (by omega), hsum, Int.mul_ediv_cancel_left k two_ne_zero]

theorem flog2Of_two (n : Nat) {k : Int} (hlo : -126 ≤ k) (hhi : k ≤ 127) :
    flog2Of n (f32 false (2 ^ 23) (k - 23)) = exactResult n (numOfInt k) := by
  rw [flog2Of_two_pow (readIn_two n false hlo hhi), Nat.cast_ofNat, sub_add_cancel]

/-- A subnormal power of two as an input, which SUBN = 2 reads as 0. -/
theorem readIn_low (n : Nat) (neg : Bool) {i : Nat} (hi : i ≤ 22) :
    fp32.readIn n (f32 neg (2 ^ i) (-149)).toNat = if n = 2 then .fin neg 0 0 else .fin neg (2 ^ i) (-149) :=
  readIn_subnormal n neg (Nat.two_pow_pos i).ne' (Nat.pow_lt_pow_right one_lt_two (by omega))

theorem frcpOf_low (n : Nat) (neg : Bool) {i : Nat} (hi : i ≤ 22) : frcpOf n (f32 neg (2 ^ i) (-149)) =
    if n = 2 then (fp32.infBits neg, 0) else if i = 22 then (fp32.pack neg (2 ^ 23) 104, 0) else (fp32.infBits neg, xOvf) := by
  have h := readIn_low n neg hi
  by_cases hn : n = 2
  · rw [if_pos hn] at h ⊢
    exact frcpOf_zero h
  · rw [if_neg hn] at h ⊢
    rw [frcpOf_two_pow h]
    by_cases h22 : i = 22
    · subst h22
      exact exactResult_normal n neg (by norm_num) (by norm_num)
    · rw [if_neg h22]
      exact exactResult_over n neg (by omega)

theorem frsqOf_low (n : Nat) {i h : Nat} (hi : i ≤ 22) (hh : i + 2 * h = 149) : frsqOf n (f32 false (2 ^ i) (-149)) =
    if n = 2 then (fp32.infBits false, 0) else (fp32.pack false (2 ^ 23) (h - 23), 0) := by
  have hr := readIn_low n false hi
  by_cases hn : n = 2
  · rw [if_pos hn] at hr ⊢
    exact frsqOf_zero hr
  · rw [if_neg hn] at hr ⊢
    rw [frsqOf_two_pow hr (by omega), show -((-149 + (i : Int)) / 2) = h by omega]
    exact exactResult_normal n false (by omega) (by omega)

theorem flog2Of_low (n : Nat) {i : Nat} (hi : i ≤ 22) : flog2Of n (f32 false (2 ^ i) (-149)) =
    if n = 2 then (fp32.infBits true, 0) else exactResult n (numOfInt (i - 149)) := by
  have h := readIn_low n false hi
  by_cases hn : n = 2
  · rw [if_pos hn] at h ⊢
    exact flog2Of_zero h
  · rw [if_neg hn] at h ⊢
    rw [flog2Of_two_pow h, neg_add_eq_sub]

/-! ## Whole numbers -/

/-- The word of a whole number. -/
def wholeWord (v : Int) : Word := BitVec.ofNat 32 (fp32.round roundPlain (numOfInt v)).1

theorem resultBits_numOfInt (n : Nat) {v : Int} (hv : v.natAbs < 2 ^ 24) : resultBits (exactResult n (numOfInt v)) = (wholeWord v, 0) := by
  have hw : wholeWord v = BitVec.ofNat 32 (exactResult 0 (numOfInt v)).1 := rfl
  rw [hw]
  by_cases h0 : v = 0
  · subst h0
    rw [exactResult_numOfInt_zero, exactResult_numOfInt_zero]
    rfl
  · obtain ⟨q, u, -, -, -, hr⟩ := exactResult_numOfInt h0 hv
    rw [hr, hr]
    rfl

/-- 2^v for a whole number v. -/
theorem fexp2Of_whole (n : Nat) {v : Int} (hlo : -149 ≤ v) (hhi : v ≤ 127) : fexp2Of n (wholeWord v) = exactResult n (.fin false 1 v) := by
  have hw : wholeWord v = BitVec.ofNat 32 (exactResult 0 (numOfInt v)).1 := rfl
  by_cases h0 : v = 0
  · subst h0
    exact fexp2Of_zero (readIn_posZero n)
  · obtain ⟨q, u, hq, hnormal, hval, hr⟩ := exactResult_numOfInt h0 (show v.natAbs < 2 ^ 24 by omega)
    have hread := readIn_normal n (decide (v < 0)) hq hnormal
    have hwhole := whole_of_finVal hval
    have hround : roundInt .rz 0 (decide (v < 0)) q u = v := by
      have := (roundInt_whole (decide (v < 0)) hwhole).trans hval
      exact_mod_cast this
    have hlo' : (-149 : ℝ) ≤ v := by exact_mod_cast hlo
    have hhi' : (v : ℝ) ≤ 127 := by exact_mod_cast hhi
    rw [hw, hr]
    change fexp2Of n (f32 (decide (v < 0)) q u) = _
    rw [fexp2Of_fin hread (by omega), hval, if_neg (by linarith), if_neg (by linarith), if_pos ⟨hwhole, hlo'⟩, hround]

/-! ## Negative operands, and exponents out of range -/

theorem log_root_negative {n : Nat} {a : Word} {m : Nat} {e : Int} (h : fp32.readIn n a.toNat = .fin true m e) (h0 : m ≠ 0) :
    frsqOf n a = (fp32.nan, xInv) ∧ flog2Of n a = (fp32.nan, xInv) := by
  rw [frsqOf_fin h h0, flog2Of_fin h h0, if_pos rfl, if_pos rfl]
  exact ⟨rfl, rfl⟩

/-- A word with an exponent field other than 0 and 255. -/
theorem readIn_fields (n : Nat) {b E f s : Nat} (hb : b = s * 2 ^ 31 + E * 2 ^ 23 + f) (hf : f < 2 ^ 23) (hs : s < 2) (h0 : E ≠ 0) (hE : E < 255) :
    fp32.readIn n b = .fin (s == 1) (f + 2 ^ 23) (E - 150) := by
  have he : b / 2 ^ 23 % 2 ^ 8 = E := by omega
  have hm : b % 2 ^ 23 = f := by omega
  have hn : b / 2 ^ 31 % 2 = s := by omega
  have hsub : fp32.subnormal b = false := by
    rw [subnormal_fp32, he, beq_eq_false_iff_ne.2 h0, Bool.false_and]
  rw [readIn_of_not_subnormal n hsub, read_fp32, he, hm, hn, if_neg (by omega), if_neg h0]

/-- An exponent of 128 or more. -/
theorem fexp2Of_big (n : Nat) {a : Word} (hlo : 0x43000000 ≤ a.toNat) (hhi : a.toNat < 0x7F800000) : fexp2Of n a = (fp32.infBits false, xOvf) := by
  have h : fp32.readIn n a.toNat = .fin false (a.toNat % 2 ^ 23 + 2 ^ 23) ((a.toNat / 2 ^ 23 : Nat) - 150) :=
    readIn_fields n (s := 0) (by omega) (by omega) (by omega) (by omega) (by omega)
  rw [fexp2Of_fin h (by omega), if_pos]
  have hm : (2 : ℝ) ^ 23 ≤ ((a.toNat % 2 ^ 23 + 2 ^ 23 : Nat) : ℝ) := by exact_mod_cast Nat.le_add_left ..
  have he : (2 : ℝ) ^ (-16 : Int) ≤ 2 ^ (((a.toNat / 2 ^ 23 : Nat) : Int) - 150) := zpow_le_zpow_right₀ one_le_two (by omega)
  have := mul_le_mul hm he (by positivity) (Nat.cast_nonneg _)
  rw [finVal_false]
  exact le_trans (by norm_num) this

/-- An exponent below −150. -/
theorem fexp2Of_small (n : Nat) {a : Word} (hlo : 0xC3160000 < a.toNat) (hhi : a.toNat < 0xFF800000) :
    fexp2Of n a = (0, if n = 0 then 0 else xUnf) := by
  obtain ⟨E, f, hb, hf, hE⟩ : ∃ E f, a.toNat = 1 * 2 ^ 31 + E * 2 ^ 23 + f ∧ f < 2 ^ 23 ∧ (E = 134 ∧ 0x160000 < f ∨ 135 ≤ E ∧ E < 255) :=
    ⟨(a.toNat - 2 ^ 31) / 2 ^ 23, a.toNat % 2 ^ 23, by omega, by omega, by omega⟩
  have h : fp32.readIn n a.toNat = .fin true (f + 2 ^ 23) (E - 150) := readIn_fields n hb hf (by omega) (by omega) (by omega)
  have hval : finVal true (f + 2 ^ 23) (E - 150) < -150 := by
    rw [finVal_true, neg_lt_neg_iff]
    rcases hE with ⟨rfl, hf'⟩ | ⟨hE, -⟩
    · have hm : (0x960001 : ℝ) ≤ ((f + 2 ^ 23 : Nat) : ℝ) := by exact_mod_cast (by omega : 0x960001 ≤ f + 2 ^ 23)
      have := mul_le_mul_of_nonneg_right hm (show (0 : ℝ) ≤ 2 ^ (((134 : Nat) : Int) - 150) by positivity)
      exact lt_of_lt_of_le (by norm_num) this
    · have hm : (2 : ℝ) ^ 23 ≤ ((f + 2 ^ 23 : Nat) : ℝ) := by exact_mod_cast Nat.le_add_left ..
      have he : (2 : ℝ) ^ (-15 : Int) ≤ 2 ^ ((E : Int) - 150) := zpow_le_zpow_right₀ one_le_two (by omega)
      have := mul_le_mul hm he (by positivity) (Nat.cast_nonneg _)
      exact lt_of_lt_of_le (by norm_num) this
  rw [fexp2Of_fin h (by omega), if_neg (by linarith), if_pos hval]

end Sys2Proof.Machine
end

section
/-!
PROOF. FRCP, FRSQ, FEXP2, FLOG2 and FTANH at every finite input but 0: the bounds of 07_numbers.md R92, and SUBN (R82).
-/

namespace Sys2Proof.Machine

/-! ## Exact results -/

theorem withinUlps_exact {q : Nat × XFlags} (n : Nat) {y : ℝ} {neg : Bool} {m : Nat} {e : Int} (h : fp32.read q.1 = .fin neg m e)
    (hy : finVal neg m e = y) : WithinUlps q n y := by
  refine ⟨neg, m, e, h, ?_⟩
  rw [hy, sub_self, abs_zero]
  exact mul_nonneg (Nat.cast_nonneg n) (ulp_pos y).le

theorem exactResult_within (neg : Bool) (n : Nat) {k : Int} (hlo : -149 ≤ k) (hhi : k ≤ 127) :
    WithinUlps (exactResult 0 (.fin neg 1 k)) n (signed neg (2 ^ k)) := by
  rcases le_or_gt (-126) k with h | h
  · rw [exactResult_normal 0 neg h hhi]
    refine withinUlps_exact n (read_pack neg (isFp32_two (by omega) (by omega))) ?_
    rw [finVal_eq_signed, Nat.cast_pow, Nat.cast_ofNat, ← zpow_natCast, ← zpow_add₀ two_ne_zero]
    congr 2
    omega
  · rw [exactResult_tiny 0 neg hlo (by omega), if_pos rfl]
    refine withinUlps_exact n (read_pack neg (isFp32_low (Nat.pow_lt_pow_right one_lt_two (by omega)))) ?_
    rw [finVal_eq_signed, Nat.cast_pow, Nat.cast_ofNat, ← sub_neg_eq_add, mul_two_pow_unit (u := -149) (by omega)]

theorem exactResult_numOfInt_within (n : Nat) {v : Int} (hv : v.natAbs < 2 ^ 24) : WithinUlps (exactResult 0 (numOfInt v)) n v := by
  by_cases h0 : v = 0
  · subst h0
    refine withinUlps_exact n (read_zero false) ?_
    simp [finVal]
  · obtain ⟨q, u, hq, -, hval, hr⟩ := exactResult_numOfInt h0 hv
    rw [hr]
    exact withinUlps_exact n (read_pack _ hq) hval

/-! ## The size of an input -/

theorem mag_pos {m : Nat} (e : Int) (h0 : m ≠ 0) : (0 : ℝ) < m * 2 ^ e := mul_pos (by exact_mod_cast Nat.pos_of_ne_zero h0) (by positivity)

section
variable {m : Nat} {e : Int} (h : IsFp32 m e) (h0 : m ≠ 0)
include h h0

/-- The exponent of the top bit. -/
theorem IsFp32.log_bounds : -149 ≤ e + Nat.log2 m ∧ e + Nat.log2 m ≤ 127 ∧ (2 : ℝ) ^ (e + Nat.log2 m) ≤ m * 2 ^ e
    ∧ (m : ℝ) * 2 ^ e < 2 ^ (e + (Nat.log2 m : Int) + 1) := by
  obtain ⟨hlo, hhi⟩ := log2_bounds h0
  have hl : Nat.log2 m < 24 := (Nat.log2_lt h0).2 h.lt
  have hlow := h.low
  have hhigh := h.high
  have hp : (0 : ℝ) < 2 ^ e := by positivity
  refine ⟨by omega, by omega, ?_, ?_⟩
  · rw [zpow_add₀ two_ne_zero, mul_comm, zpow_natCast]
    exact mul_le_mul_of_nonneg_right (by exact_mod_cast hlo) hp.le
  · rw [add_assoc, zpow_add₀ two_ne_zero, mul_comm, ← Nat.cast_one (R := Int), ← Nat.cast_add, zpow_natCast]
    exact mul_lt_mul_of_pos_left (by exact_mod_cast hhi) hp

theorem IsFp32.bounds : (2 : ℝ) ^ (-149 : Int) ≤ m * 2 ^ e ∧ (m : ℝ) * 2 ^ e ≤ 2 ^ (128 : Int) := by
  obtain ⟨h1, h2, h3, h4⟩ := h.log_bounds h0
  exact ⟨(zpow_le_zpow_right₀ one_le_two h1).trans h3, h4.le.trans (zpow_le_zpow_right₀ one_le_two (by omega))⟩

end

/-- A magnitude that is a power of two. -/
theorem pow2_val {m : Nat} (e : Int) (hp : m = 2 ^ Nat.log2 m) : (m : ℝ) * 2 ^ e = 2 ^ (e + (Nat.log2 m : Int)) := by
  have hm : (m : ℝ) = 2 ^ Nat.log2 m := by exact_mod_cast hp
  rw [zpow_add₀ two_ne_zero, mul_comm, zpow_natCast, hm]

/-- A magnitude that is none lies above the power of two of its top bit. -/
theorem pow2_lt {m : Nat} (e : Int) (h0 : m ≠ 0) (hp : m ≠ 2 ^ Nat.log2 m) : (2 : ℝ) ^ (e + (Nat.log2 m : Int)) < m * 2 ^ e := by
  have hlt : (2 : ℝ) ^ Nat.log2 m < m := by exact_mod_cast lt_of_le_of_ne (log2_bounds h0).1 (Ne.symm hp)
  rw [zpow_add₀ two_ne_zero, mul_comm, zpow_natCast]
  exact mul_lt_mul_of_pos_right hlt (by positivity)

/-! ## Reciprocals -/

theorem signed_false (y : ℝ) : signed false y = y := by simp [signed]

theorem signed_inv (neg : Bool) (y : ℝ) : (signed neg y)⁻¹ = signed neg y⁻¹ := by cases neg <;> simp [signed, inv_neg]

/-- A reciprocal that is below 2^128 lies below it by 2^−22 of it. -/
theorem inv_le_of_lt {m : Nat} {e : Int} (he : -149 ≤ e) (h0 : m ≠ 0) (hy : ((m : ℝ) * 2 ^ e)⁻¹ < 2 ^ 128) :
    ((m : ℝ) * 2 ^ e)⁻¹ ≤ 2 ^ 128 * (1 - 1 / 2 ^ 22) := by
  have hx := mag_pos e h0
  have hlt : ((2 : ℝ) ^ 128)⁻¹ < m * 2 ^ e := (inv_lt_comm₀ hx (by positivity)).1 hy
  -- in units of 2^−149
  have hunit := mul_two_pow_unit he
  rw [← hunit, ← mul_assoc] at hlt ⊢
  have hN : 2 ^ 21 + 1 ≤ m * 2 ^ (e - -149).toNat := by
    have : (2 : ℝ) ^ 21 < (m * 2 ^ (e - -149).toNat : Nat) := by
      rw [Nat.cast_mul, Nat.cast_pow, Nat.cast_ofNat]
      by_contra hc
      have := mul_le_mul_of_nonneg_right (not_lt.1 hc) (show (0 : ℝ) ≤ 2 ^ (-149 : Int) by positivity)
      have hc2 : (2 : ℝ) ^ 21 * 2 ^ (-149 : Int) = (2 ^ 128)⁻¹ := by norm_num
      linarith
    exact_mod_cast this
  have hN' : (2 : ℝ) ^ 21 + 1 ≤ m * 2 ^ (e - -149).toNat := by exact_mod_cast hN
  generalize (m : ℝ) * 2 ^ (e - -149).toNat = N at *
  have := mul_le_mul_of_nonneg_right hN' (show (0 : ℝ) ≤ 2 ^ (-149 : Int) by positivity)
  calc (N * 2 ^ (-149 : Int))⁻¹ ≤ ((2 ^ 21 + 1) * 2 ^ (-149 : Int))⁻¹ := inv_anti₀ (by positivity) this
    _ ≤ 2 ^ 128 * (1 - 1 / 2 ^ 22) := by norm_num

theorem frcpOf_within {a : Word} {sign : Bool} {m : Nat} {e : Int} (hr : fp32.read a.toNat = .fin sign m e) (h0 : m ≠ 0)
    (hy : ((m : ℝ) * 2 ^ e)⁻¹ < 2 ^ 128) : WithinUlps (frcpOf 0 a) 1 (finVal sign m e)⁻¹ := by
  obtain ⟨hx, -⟩ := isFp32_of_read a.isLt hr
  obtain ⟨h1, h2, h3, h4⟩ := hx.log_bounds h0
  rw [finVal_eq_signed, signed_inv, frcpOf_fin (n := 0) hr h0]
  by_cases hp : m = 2 ^ Nat.log2 m
  · rw [if_pos hp]
    rw [pow2_val e hp] at hy ⊢
    rw [← zpow_neg] at hy ⊢
    have hk : -(e + (Nat.log2 m : Int)) < 128 := (zpow_lt_zpow_iff_right₀ one_lt_two).1 (hy.trans_eq (zpow_natCast (2 : ℝ) 128).symm)
    exact exactResult_within sign 1 (by omega) (by omega)
  · obtain ⟨henc, hmid⟩ := rcpEnc_encloses e h0
    have hoff : ¬ 129 ≤ -(e + (Nat.log2 m : Int)) := by
      intro hc
      have h5 := hy.trans_eq (zpow_natCast (2 : ℝ) 128).symm
      have h6 : (m : ℝ) * 2 ^ e ≤ 2 ^ (-(128 : Int)) := h4.le.trans (zpow_le_zpow_right₀ one_le_two (by omega))
      rw [zpow_neg, ← inv_inv ((m : ℝ) * 2 ^ e)] at h6
      have := (inv_le_inv₀ (inv_pos.2 (mag_pos e h0)) (by positivity)).1 h6
      exact absurd h5 (not_lt.2 this)
    rw [if_neg hp, if_neg hoff]
    exact henc.within 0 a sign (.inr ⟨rfl, hmid⟩) (inv_le_of_lt hx.low h0 hy)

/-- A reciprocal of 2^128 or more. -/
theorem frcpOf_over {a : Word} {sign : Bool} {m : Nat} {e : Int} (hr : fp32.read a.toNat = .fin sign m e) (h0 : m ≠ 0)
    (hy : 2 ^ 128 ≤ ((m : ℝ) * 2 ^ e)⁻¹) : frcpOf 0 a = (fp32.infBits sign, xOvf) := by
  obtain ⟨hx, -⟩ := isFp32_of_read a.isLt hr
  obtain ⟨h1, h2, h3, h4⟩ := hx.log_bounds h0
  have hle : (m : ℝ) * 2 ^ e ≤ 2 ^ (-(128 : Int)) := by
    rw [zpow_neg, ← inv_inv ((m : ℝ) * 2 ^ e)]
    exact inv_anti₀ (by positivity) ((zpow_natCast (2 : ℝ) 128).le.trans hy)
  rw [frcpOf_fin (n := 0) hr h0]
  by_cases hp : m = 2 ^ Nat.log2 m
  · rw [pow2_val e hp] at hle
    have hk := (zpow_le_zpow_iff_right₀ one_lt_two).1 hle
    rw [if_pos hp]
    exact exactResult_over 0 sign (by omega)
  · have hlt : (2 : ℝ) ^ (e + (Nat.log2 m : Int)) < 2 ^ (-(128 : Int)) := lt_of_lt_of_le (pow2_lt e h0 hp) hle
    have hk := (zpow_lt_zpow_iff_right₀ one_lt_two).1 hlt
    rw [if_neg hp, if_pos (by omega)]

/-! ## Roots -/

theorem frsqOf_within {a : Word} {m : Nat} {e : Int} (hr : fp32.read a.toNat = .fin false m e) (h0 : m ≠ 0) :
    WithinUlps (frsqOf 0 a) 1 (√(finVal false m e))⁻¹ := by
  obtain ⟨hx, -⟩ := isFp32_of_read a.isLt hr
  obtain ⟨h1, h2, h3, h4⟩ := hx.log_bounds h0
  have hpos := (signed_false (√((m : ℝ) * 2 ^ e))⁻¹).symm
  rw [finVal_false, frsqOf_fin (n := 0) hr h0, if_neg Bool.false_ne_true]
  split
  · rename_i hp
    obtain ⟨hp, heven⟩ := hp
    obtain ⟨h, hh⟩ : ∃ h, e + (Nat.log2 m : Int) = 2 * h := ⟨(e + Nat.log2 m) / 2, by omega⟩
    have hroot : (√((m : ℝ) * 2 ^ e))⁻¹ = 2 ^ (-h) := by
      rw [pow2_val e hp, hh, mul_comm, zpow_mul, zpow_ofNat, Real.sqrt_sq (by positivity), zpow_neg]
    rw [hh, Int.mul_ediv_cancel_left h two_ne_zero, hroot, ← signed_false ((2 : ℝ) ^ (-h))]
    exact exactResult_within false 1 (by omega) (by omega)
  · obtain ⟨henc, hmid⟩ := rsqEnc_encloses e h0
    have hle : (√((m : ℝ) * 2 ^ e))⁻¹ ≤ 2 ^ 75 := by
      refine inv_le_of_inv_le₀ (by positivity) (Real.le_sqrt_of_sq_le (le_trans ?_ (hx.bounds h0).1))
      norm_num
    rw [hpos]
    exact henc.within 1 a false (.inr ⟨rfl, hmid⟩) (hle.trans (by norm_num))

/-! ## Logarithms -/

theorem flog2Of_within {a : Word} {m : Nat} {e : Int} (hr : fp32.read a.toNat = .fin false m e) (h0 : m ≠ 0) :
    WithinUlps (flog2Of 0 a) 2 (Real.logb 2 (finVal false m e)) := by
  obtain ⟨hx, -⟩ := isFp32_of_read a.isLt hr
  obtain ⟨h1, h2, h3, h4⟩ := hx.log_bounds h0
  rw [finVal_false, flog2Of_fin (n := 0) hr h0, if_neg Bool.false_ne_true]
  by_cases hp : m = 2 ^ Nat.log2 m
  · rw [if_pos hp, pow2_val e hp, ← Real.rpow_intCast, Real.logb_rpow two_pos (by norm_num)]
    exact exactResult_numOfInt_within 2 (by omega)
  · have hnot : ∀ k, m ≠ 2 ^ k := fun k hk => hp (by rw [hk, Nat.log2_two_pow])
    obtain ⟨henc, hsign⟩ := log2Enc_encloses e hx.lt h0 hnot
    have hle : |Real.logb 2 ((m : ℝ) * 2 ^ e)| ≤ 149 := by
      obtain ⟨hlo, hhi⟩ := hx.bounds h0
      have h5 := (Real.le_logb_iff_rpow_le one_lt_two (mag_pos e h0)).2 ((Real.rpow_intCast 2 (-149)).le.trans hlo)
      have h6 := (Real.logb_le_iff_le_rpow one_lt_two (mag_pos e h0)).2 (hhi.trans (Real.rpow_intCast 2 128).ge)
      norm_num at h5 h6
      exact abs_le.2 ⟨h5, h6.trans (by norm_num)⟩
    rw [if_neg hp, ← hsign]
    exact henc.within 3 a _ (.inl le_rfl) (hle.trans (by norm_num))

/-! ## Powers of two -/

/-- A value of FP32 below 128 lies below it by 2^−17 at least. -/
theorem le_of_lt_128 {sign : Bool} {m : Nat} {e : Int} (hx : IsFp32 m e) (h : finVal sign m e < 128) : finVal sign m e ≤ 128 - 1 / 2 ^ 17 := by
  have hmag : (0 : ℝ) ≤ m * 2 ^ e := by positivity
  cases sign with
  | true =>
    rw [finVal_true]
    norm_num
    linarith
  | false =>
    rw [finVal_false] at h ⊢
    rcases le_or_gt (-17) e with he | he
    · -- in units of 2^−17
      have hunit := mul_two_pow_unit he
      rw [← hunit, ← mul_assoc] at h ⊢
      have hN : m * 2 ^ (e - -17).toNat + 1 ≤ 2 ^ 24 := by
        have : ((m * 2 ^ (e - -17).toNat : Nat) : ℝ) < 2 ^ 24 := by
          rw [Nat.cast_mul, Nat.cast_pow, Nat.cast_ofNat]
          norm_num at h ⊢
          linarith
        exact_mod_cast this
      have hN' : (m : ℝ) * 2 ^ (e - -17).toNat + 1 ≤ 2 ^ 24 := by exact_mod_cast hN
      norm_num at hN' ⊢
      linarith
    · have hm : (m : ℝ) ≤ 2 ^ 24 := by exact_mod_cast hx.lt.le
      have he' : (2 : ℝ) ^ e ≤ 2 ^ (-18 : Int) := zpow_le_zpow_right₀ one_le_two (by omega)
      have := mul_le_mul hm he' (by positivity) (by positivity)
      norm_num at this ⊢
      linarith

theorem two_rpow_le {x : ℝ} (h : x ≤ 128 - 1 / 2 ^ 17) : (2 : ℝ) ^ x ≤ 2 ^ 128 * (1 - 1 / 2 ^ 22) := by
  have hlog : 1 / 2 < Real.log 2 := lt_trans (by norm_num) Real.log_two_gt_d9
  have hsmall : (2 : ℝ) ^ (-(1 / 2 ^ 17) : ℝ) ≤ 1 - 1 / 2 ^ 22 := by
    rw [Real.rpow_neg two_pos.le, Real.rpow_def_of_pos two_pos]
    have h1 : 1 + 1 / 2 ^ 18 ≤ Real.exp (Real.log 2 * (1 / 2 ^ 17)) := by
      have := Real.add_one_le_exp (Real.log 2 * (1 / 2 ^ 17))
      norm_num at this ⊢
      linarith
    exact (inv_anti₀ (by norm_num) h1).trans (by norm_num)
  calc (2 : ℝ) ^ x ≤ (2 : ℝ) ^ ((128 : ℝ) + -(1 / 2 ^ 17)) := Real.rpow_le_rpow_of_exponent_le one_le_two h
    _ = 2 ^ 128 * (2 : ℝ) ^ (-(1 / 2 ^ 17) : ℝ) := by rw [Real.rpow_add two_pos, Real.rpow_ofNat]
    _ ≤ 2 ^ 128 * (1 - 1 / 2 ^ 22) := mul_le_mul_of_nonneg_left hsmall (by positivity)

/-- Zero for a result below 2^−150. -/
theorem zero_within {y : ℝ} (h0 : 0 < y) (hy : y ≤ 2 ^ (-150 : Int)) (x : XFlags) : WithinUlps (0, x) 2 y := by
  refine ⟨false, 0, -149, read_zero false, ?_⟩
  have hulp : (2 : ℝ) ^ (-149 : Int) ≤ ulp y := zpow_le_zpow_right₀ one_le_two (by omega)
  have hv : finVal false 0 (-149) = 0 := by simp [finVal]
  rw [hv, zero_sub, abs_neg, abs_of_pos h0]
  norm_num at hy hulp ⊢
  linarith

theorem fexp2Of_within {a : Word} {sign : Bool} {m : Nat} {e : Int} (hr : fp32.read a.toNat = .fin sign m e) (h0 : m ≠ 0)
    (hx : finVal sign m e < 128) : WithinUlps (fexp2Of 0 a) 2 ((2 : ℝ) ^ finVal sign m e) := by
  obtain ⟨hfp, -⟩ := isFp32_of_read a.isLt hr
  have hlow := hfp.low
  rw [fexp2Of_fin (n := 0) hr h0, if_neg (not_le.2 hx)]
  split
  · rename_i hsmall
    refine zero_within (by positivity) ?_ _
    rw [← Real.rpow_intCast]
    exact Real.rpow_le_rpow_of_exponent_le one_le_two (by push_cast; exact hsmall.le)
  · split
    · rename_i hwhole
      obtain ⟨hwhole, hge⟩ := hwhole
      have hv := roundInt_whole sign hwhole
      generalize roundInt .rz 0 sign m e = v at hv ⊢
      rw [← hv] at hge hx ⊢
      have h1 : -149 ≤ v := by exact_mod_cast hge
      have h2 : v < 128 := by exact_mod_cast hx
      rw [Real.rpow_intCast, ← signed_false ((2 : ℝ) ^ v)]
      exact exactResult_within false 2 h1 (by omega)
    · rw [← signed_false ((2 : ℝ) ^ finVal sign m e)]
      exact (exp2Enc_encloses sign m (by omega)).within 2 a false (.inl le_rfl) (two_rpow_le (le_of_lt_128 hfp hx))

/-! ## Hyperbolic tangents -/

theorem ftanhOf_within {a : Word} {sign : Bool} {m : Nat} {e : Int} (hr : fp32.read a.toNat = .fin sign m e) (h0 : m ≠ 0) :
    WithinUlps (ftanhOf 0 a) 4 (Real.tanh (finVal sign m e)) := by
  obtain ⟨hfp, -⟩ := isFp32_of_read a.isLt hr
  have hle : Real.tanh (m * 2 ^ e) ≤ 2 ^ 128 * (1 - 1 / 2 ^ 22) := (Real.tanh_lt_one _).le.trans (by norm_num)
  have hodd : Real.tanh (finVal sign m e) = signed sign (Real.tanh (m * 2 ^ e)) := by
    cases sign
    · rw [finVal_false, signed_false]
    · rw [finVal_true, Real.tanh_neg]
      simp [signed]
  rw [hodd, ftanhOf_fin (n := 0) hr h0]
  split
  · rename_i hx
    exact (tanhSmall_encloses h0 hfp.lt hfp.low hx.le).within 4 a sign (.inl (by norm_num)) hle
  · rename_i hx
    exact (tanhEnc_encloses hfp.low (not_lt.1 hx)).within 4 a sign (.inl (by norm_num)) hle

/-! ## Other values of SUBN -/

/-- What an input that reads alike under SUBN gives: the same result, or a flushed one. -/
theorem special_flushes (n : Nat) {a : Word} {sign : Bool} {m : Nat} {e : Int} (hr : fp32.read a.toNat = .fin sign m e)
    (hn : fp32.readIn n a.toNat = fp32.read a.toNat) (h0 : m ≠ 0) : ∀ f ∈ [frcpOf, frsqOf, fexp2Of, flog2Of, ftanhOf], Flushes (f 0 a) (f n a) := by
  rw [hr] at hn
  simp only [List.forall_mem_cons, List.not_mem_nil, false_imp_iff, implies_true, and_true]
  refine ⟨?_, ?_, ?_, ?_, ?_⟩
  · rw [frcpOf_fin (n := 0) hr h0, frcpOf_fin hn h0]
    split_ifs
    · exact round_flushes n _
    · exact flushes_refl _
    · exact boundedApprox_flushes ..
  · rw [frsqOf_fin (n := 0) hr h0, frsqOf_fin hn h0]
    split_ifs
    · exact flushes_refl _
    · exact round_flushes n _
    · exact boundedApprox_flushes ..
  · rw [fexp2Of_fin (n := 0) hr h0, fexp2Of_fin hn h0, if_pos (rfl : (0 : Nat) = 0)]
    split_ifs
    · exact flushes_refl _
    · exact flushes_refl _
    · exact flushes_pack false (q := 0) 0 (Nat.two_pow_pos _)
    · exact round_flushes n _
    · exact boundedApprox_flushes ..
  · rw [flog2Of_fin (n := 0) hr h0, flog2Of_fin hn h0]
    split_ifs
    · exact flushes_refl _
    · exact round_flushes n _
    · exact boundedApprox_flushes ..
  · rw [ftanhOf_fin (n := 0) hr h0, ftanhOf_fin hn h0]
    split_ifs
    · exact boundedApprox_flushes ..
    · exact boundedApprox_flushes ..

end Sys2Proof.Machine
end

section
/-!
PROOF. What the special functions give at their exact points, and the bounds of R92 elsewhere (11_cell_isa.md R146, 07_numbers.md R82, R92).
-/

namespace Sys2Proof.Machine

/-! ## Powers of two in the words of the statement -/

/-- The word of 2^e. -/
def twoWord (e : Int) : Word := BitVec.ofNat 32 ((e + 127).toNat * 2 ^ 23)

theorem twoWord_eq (e : Int) : twoWord e = f32 false (2 ^ 23) (e - 23) := two_eq_f32 e

theorem sign_or_twoWord {e : Int} (hlo : -126 ≤ e) (hhi : e ≤ 127) : 0x80000000 ||| twoWord e = f32 true (2 ^ 23) (e - 23) := by
  rw [twoWord_eq, sign_or_f32 (isFp32_two (by omega) (by omega))]

/-- The result where `w` is subnormal, flushed under SUBN. -/
def tinyBits (n : Nat) (w : Word) : Word × XFlags := if n = 0 then (w, 0) else (0, xUnf)

theorem resultBits_tiny (n : Nat) {k : Int} (hlo : -149 ≤ k) (hhi : k ≤ -127) :
    resultBits (exactResult n (.fin false 1 k)) = tinyBits n (BitVec.ofNat 32 (2 ^ (k + 149).toNat)) := by
  rw [exactResult_tiny n false hlo hhi, low_eq_f32 (by omega), tinyBits, apply_ite resultBits]
  rfl

/-- FRCP of the normal powers of two. -/
theorem frcpOf_twoWord (n : Nat) {k : Int} (hlo : -126 ≤ k) (hhi : k ≤ 126) :
    resultBits (frcpOf n (twoWord k)) = (twoWord (-k), 0)
      ∧ resultBits (frcpOf n (0x80000000 ||| twoWord k)) = (0x80000000 ||| twoWord (-k), 0) := by
  rw [sign_or_twoWord hlo (by omega), sign_or_twoWord (by omega) (by omega), twoWord_eq, twoWord_eq, frcpOf_two n false hlo (by omega),
    frcpOf_two n true hlo (by omega), exactResult_normal n false (by omega) (by omega), exactResult_normal n true (by omega) (by omega)]
  exact ⟨rfl, rfl⟩

theorem frcpOf_greatest (n : Nat) : resultBits (frcpOf n (twoWord 127)) = tinyBits n 0x00400000 := by
  rw [twoWord_eq, frcpOf_two n false (by norm_num) le_rfl, resultBits_tiny n (by norm_num) le_rfl]
  rfl

/-- FRCP of the subnormal powers of two. -/
theorem frcpOf_lowWord (n : Nat) {j : Nat} (hlo : 127 ≤ j) (hhi : j ≤ 149) :
    resultBits (frcpOf n (BitVec.ofNat 32 (2 ^ (j - 127))))
        = (if n = 2 then (0x7F800000, 0) else if j = 149 then (twoWord 127, 0) else (0x7F800000, xOvf))
      ∧ resultBits (frcpOf n (0x80000000 ||| BitVec.ofNat 32 (2 ^ (j - 127))))
        = (if n = 2 then (0xFF800000, 0) else if j = 149 then (0x80000000 ||| twoWord 127, 0) else (0xFF800000, xOvf)) := by
  have h22 : j - 127 = 22 ↔ j = 149 := by omega
  rw [low_eq_f32 (by omega), sign_or_f32 (isFp32_low (Nat.pow_lt_pow_right one_lt_two (by omega))), frcpOf_low n false (by omega),
    frcpOf_low n true (by omega), sign_or_twoWord (by norm_num) le_rfl, twoWord_eq]
  simp only [h22, apply_ite resultBits]
  exact ⟨rfl, rfl⟩

theorem frsqOf_lowWord (n : Nat) {j : Nat} (hlo : 127 ≤ j) (hhi : j ≤ 149) (heven : j % 2 = 0) :
    resultBits (frsqOf n (BitVec.ofNat 32 (2 ^ (j - 127)))) = (if n = 2 then (0x7F800000, 0) else (twoWord ((276 - j) / 2), 0)) := by
  have hh : (276 - (j : Int)) / 2 = ((276 - j) / 2 : Nat) := by omega
  rw [low_eq_f32 (by omega), frsqOf_low n (h := (276 - j) / 2) (by omega) (by omega), hh, twoWord_eq, apply_ite resultBits]
  rfl

theorem flog2Of_lowWord (n : Nat) {j : Nat} (hlo : 127 ≤ j) (hhi : j ≤ 149) :
    resultBits (flog2Of n (BitVec.ofNat 32 (2 ^ (j - 127)))) = (if n = 2 then (0xFF800000, 0) else (wholeWord ((j : Int) - 276), 0)) := by
  have hsub : ((j - 127 : Nat) : Int) - 149 = j - 276 := by omega
  rw [low_eq_f32 (by omega), flog2Of_low n (by omega), hsub, apply_ite resultBits, resultBits_numOfInt n (by omega)]
  rfl

theorem frsqOf_twoWord (n : Nat) {k : Int} (hlo : -63 ≤ k) (hhi : k ≤ 63) : resultBits (frsqOf n (twoWord (2 * k))) = (twoWord (-k), 0) := by
  rw [twoWord_eq, twoWord_eq, frsqOf_two n hlo hhi, exactResult_normal n false (by omega) (by omega)]
  rfl

theorem flog2Of_twoWord (n : Nat) {k : Int} (hlo : -126 ≤ k) (hhi : k ≤ 127) : resultBits (flog2Of n (twoWord k)) = (wholeWord k, 0) := by
  rw [twoWord_eq, flog2Of_two n hlo hhi, resultBits_numOfInt n (by omega)]

theorem fexp2Of_wholeWord (n : Nat) {k : Int} (hlo : -126 ≤ k) (hhi : k ≤ 127) : resultBits (fexp2Of n (wholeWord k)) = (twoWord k, 0) := by
  rw [fexp2Of_whole n (by omega) hhi, exactResult_normal n false hlo hhi, twoWord_eq]
  rfl

theorem fexp2Of_wholeWord_tiny (n : Nat) {j : Nat} (hlo : 127 ≤ j) (hhi : j ≤ 149) :
    resultBits (fexp2Of n (wholeWord (-(j : Int)))) = tinyBits n (BitVec.ofNat 32 (2 ^ (149 - j))) := by
  have hexp : (-(j : Int) + 149).toNat = 149 - j := by omega
  rw [fexp2Of_whole n (by omega) (by omega), resultBits_tiny n (by omega) (by omega), hexp]

theorem fexp2Of_smallWord (n : Nat) {a : Word} (hlo : 0xC3160000 < a.toNat) (hhi : a.toNat < 0xFF800000) :
    resultBits (fexp2Of n a) = tinyBits n 0 := by
  rw [fexp2Of_small n hlo hhi, tinyBits, resultBits]
  split <;> rfl

/-! ## The infinities and zeros in the words of the statement -/

theorem frcpOf_inf_zero (n : Nat) :
    resultBits (frcpOf n 0x7F800000) = (0, 0) ∧ resultBits (frcpOf n 0xFF800000) = (0x80000000, 0)
      ∧ resultBits (frcpOf n 0) = (0x7F800000, 0) ∧ resultBits (frcpOf n 0x80000000) = (0xFF800000, 0) := by
  rw [frcpOf_inf (readIn_posInf n), frcpOf_inf (readIn_negInf n), frcpOf_zero (readIn_posZero n),
    frcpOf_zero (readIn_negZero n)]
  exact ⟨rfl, rfl, rfl, rfl⟩

theorem frsqOf_inf_zero (n : Nat) :
    resultBits (frsqOf n 0x7F800000) = (0, 0) ∧ resultBits (frsqOf n 0) = (0x7F800000, 0)
      ∧ resultBits (frsqOf n 0x80000000) = (0xFF800000, 0) ∧ resultBits (frsqOf n 0xFF800000) = (0x7FC00000, xInv) := by
  rw [frsqOf_inf (readIn_posInf n), frsqOf_inf (readIn_negInf n), frsqOf_zero (readIn_posZero n),
    frsqOf_zero (readIn_negZero n)]
  exact ⟨rfl, rfl, rfl, rfl⟩

theorem fexp2Of_inf_zero (n : Nat) :
    resultBits (fexp2Of n 0x7F800000) = (0x7F800000, 0) ∧ resultBits (fexp2Of n 0xFF800000) = (0, 0)
      ∧ resultBits (fexp2Of n 0) = (0x3F800000, 0) ∧ resultBits (fexp2Of n 0x80000000) = (0x3F800000, 0) := by
  rw [fexp2Of_inf (readIn_posInf n), fexp2Of_inf (readIn_negInf n), fexp2Of_zero (readIn_posZero n),
    fexp2Of_zero (readIn_negZero n), exactResult_normal n false (by norm_num) (by norm_num)]
  exact ⟨rfl, rfl, rfl, rfl⟩

theorem flog2Of_inf_zero (n : Nat) :
    resultBits (flog2Of n 0x7F800000) = (0x7F800000, 0) ∧ resultBits (flog2Of n 0) = (0xFF800000, 0)
      ∧ resultBits (flog2Of n 0xFF800000) = (0x7FC00000, xInv) ∧ resultBits (flog2Of n 0x80000000) = (0xFF800000, 0) := by
  rw [flog2Of_inf (readIn_posInf n), flog2Of_inf (readIn_negInf n), flog2Of_zero (readIn_posZero n),
    flog2Of_zero (readIn_negZero n)]
  exact ⟨rfl, rfl, rfl, rfl⟩

theorem ftanhOf_inf_zero (n : Nat) :
    resultBits (ftanhOf n 0x7F800000) = (0x3F800000, 0) ∧ resultBits (ftanhOf n 0xFF800000) = (0xBF800000, 0)
      ∧ resultBits (ftanhOf n 0) = (0, 0) ∧ resultBits (ftanhOf n 0x80000000) = (0x80000000, 0) := by
  rw [ftanhOf_inf (readIn_posInf n), ftanhOf_inf (readIn_negInf n), ftanhOf_zero (readIn_posZero n),
    ftanhOf_zero (readIn_negZero n)]
  exact ⟨rfl, rfl, rfl, rfl⟩

/-! ## The statement -/

/-- Every finite input but 0: the bounds of R92, an overflow of FRCP, and SUBN. -/
theorem special_bounds (n : Nat) {a : Word} {sign : Bool} {m : Nat} {e : Int} (hr : fp32.read a.toNat = .fin sign m e) (h0 : m ≠ 0) :
    (|finVal sign m e|⁻¹ < (2 : ℝ) ^ (128 : Nat) → WithinUlps (frcpOf 0 a) 1 (finVal sign m e)⁻¹)
      ∧ ((2 : ℝ) ^ (128 : Nat) ≤ |finVal sign m e|⁻¹ → resultBits (frcpOf 0 a) = (if sign then 0xFF800000 else 0x7F800000, xOvf))
      ∧ (sign = false → WithinUlps (frsqOf 0 a) 1 (√(finVal sign m e))⁻¹ ∧ WithinUlps (flog2Of 0 a) 2 (Real.logb 2 (finVal sign m e)))
      ∧ (finVal sign m e < 128 → WithinUlps (fexp2Of 0 a) 2 ((2 : ℝ) ^ finVal sign m e))
      ∧ WithinUlps (ftanhOf 0 a) 4 (Real.tanh (finVal sign m e))
      ∧ (n ≠ 0 → fp32.readIn n a.toNat = fp32.read a.toNat → ∀ f ∈ [frcpOf, frsqOf, fexp2Of, flog2Of, ftanhOf], Flushes (f 0 a) (f n a)) := by
  refine ⟨fun hy => ?_, fun hy => ?_, fun hs => ?_, fexp2Of_within hr h0, ftanhOf_within hr h0, fun _ hn => special_flushes n hr hn h0⟩
  · rw [abs_finVal] at hy
    exact frcpOf_within hr h0 hy
  · rw [abs_finVal] at hy
    rw [frcpOf_over hr h0 hy, resultBits, infBits_word]
  · subst hs
    exact ⟨frsqOf_within hr h0, flog2Of_within hr h0⟩

/-- Settles O29: at the exact points by the model's own branches; elsewhere each enclosure holds the exact value, and both a candidate that is
accepted and the rounded middle lie within the bound. -/
theorem specialFunctionsAtTheirExactPoints : Obligations.SpecialFunctionsAtTheirExactPoints := by
  unfold Obligations.SpecialFunctionsAtTheirExactPoints
  intro k j n a sign man ex two whole nan bits tiny low real x within hk hj hj' hn
  obtain ⟨frcpInf, frcpNegInf, frcpZero, frcpNegZero⟩ := frcpOf_inf_zero n
  obtain ⟨frsqInf, frsqZero, frsqNegZero, frsqNegInf⟩ := frsqOf_inf_zero n
  obtain ⟨fexp2Inf, fexp2NegInf, fexp2Zero, fexp2NegZero⟩ := fexp2Of_inf_zero n
  obtain ⟨flog2Inf, flog2Zero, flog2NegInf, flog2NegZero⟩ := flog2Of_inf_zero n
  obtain ⟨ftanhInf, ftanhNegInf, ftanhZero, ftanhNegZero⟩ := ftanhOf_inf_zero n
  obtain ⟨frcpLow, frcpNegLow⟩ := frcpOf_lowWord n hj hj'
  have hneg : 126 - (k : Int) = -((k : Int) - 126) := by omega
  have hroot : 63 - (k : Int) = -((k : Int) - 63) := by omega
  refine ⟨fun h f hf => congrArg resultBits (special_nan n h f hf), fun m e h h0 => ?_, fun h h' => congrArg resultBits (fexp2Of_big n h h'),
    fun h h' => fexp2Of_smallWord n h h', frcpInf, frcpNegInf, frcpZero, frcpNegZero, fun h => ?_, frcpOf_greatest n, frcpLow, frcpNegLow,
    frsqOf_lowWord n hj hj', flog2Of_lowWord n hj hj', frsqInf, frsqZero, frsqNegZero, frsqNegInf, fun h => ?_, fexp2Inf, fexp2NegInf, fexp2Zero,
    fexp2NegZero, fexp2Of_wholeWord_tiny n hj hj', fexp2Of_wholeWord n (by omega) (by omega), flog2Inf, flog2Zero, flog2NegInf, flog2NegZero,
    flog2Of_twoWord n (by omega) (by omega), ftanhInf, ftanhNegInf, ftanhZero, ftanhNegZero, special_bounds n⟩
  · obtain ⟨hfrsq, hflog2⟩ := log_root_negative h h0
    exact ⟨congrArg resultBits hfrsq, congrArg resultBits hflog2⟩
  · rw [hneg]
    exact frcpOf_twoWord n (by omega) (by omega)
  · rw [hroot]
    exact frsqOf_twoWord n (by omega) (by omega)

end Sys2Proof.Machine
end
